-- ==== Sys2Proof/Word.lean ====
section
/-! DEFINITION. The word types of the ZX9 (R5): bytes, 16-, 32- and 64-bit words, all little-endian in memory. -/

namespace Sys2Proof

/-- One byte. -/
abbrev Byte := BitVec 8

/-- A 16-bit half word. -/
abbrev Half := BitVec 16

/-- A 32-bit word: a lane register, a queue entry, a scalar instruction. -/
abbrev Word := BitVec 32

/-- A 64-bit word: a scalar register (R104). -/
abbrev Dword := BitVec 64

/-- The 96 bits of a lane instruction (R34). -/
abbrev LaneBits := BitVec 96

end Sys2Proof
end

