-- ==== Sys2Proof/Machine/Bits.lean ====
section
/-! DEFINITION. Bit fields of numbers and little-endian byte lists (R5). -/

namespace Sys2Proof.Machine

/-- The n bits of x from bit lo upward (R5). -/
def bits (x lo n : Nat) : Nat := (x >>> lo) % 2 ^ n

/-- Bit i of x. -/
def bit (x i : Nat) : Bool := x.testBit i

/-- The little-endian value of a byte list (R5): the first byte holds bits 7 to 0. -/
def ofBytes : List Byte → Nat
  | [] => 0
  | b :: bs => b.toNat + 256 * ofBytes bs

/-- The low n bytes of x, lowest first (R5). -/
def toBytes : Nat → Nat → List Byte
  | 0, _ => []
  | n + 1, x => BitVec.ofNat 8 x :: toBytes n (x / 256)

/-- x read as a two's-complement number of w bits (R60). -/
def signed (w x : Nat) : Int :=
  let r := x % 2 ^ w
  if 2 * r < 2 ^ w then r else (r : Int) - 2 ^ w

/-- The w-bit pattern of an integer, modulo 2^w (R60). -/
def unsigned (w : Nat) (i : Int) : Nat := (i % (2 ^ w : Int)).toNat

/-- i held within [lo, hi]. -/
def clampInt (i lo hi : Int) : Int := if i < lo then lo else if hi < i then hi else i

/-- The quotient rounded up. -/
def ceilDiv (a b : Nat) : Nat := (a + b - 1) / b

/-- Bits w−1 to 0 of x in reverse order. -/
def reverseBits : Nat → Nat → Nat
  | 0, _ => 0
  | w + 1, x => (x % 2) * 2 ^ w + reverseBits w (x / 2)

/-- The number of 1 bits among the low w of x. -/
def popCount : Nat → Nat → Nat
  | 0, _ => 0
  | w + 1, x => x % 2 + popCount w (x / 2)

/-- The number of bits x needs: the position of its top 1 bit, plus one; at most w. -/
def bitLength : Nat → Nat → Nat
  | 0, _ => 0
  | w + 1, x => if x = 0 then 0 else bitLength w (x / 2) + 1

/-- The number of trailing 0 bits of x among w. -/
def trailingZeros : Nat → Nat → Nat
  | 0, _ => 0
  | w + 1, x => if x % 2 = 1 then 0 else trailingZeros w (x / 2) + 1

/-- Replaces element i of a list where it exists. -/
def update {α : Type} (l : List α) (i : Nat) (f : α → α) : List α := l.modify i f

/-- A table of fixed size with one entry changed; an index that it does not have changes nothing. -/
def updateAt {α : Type} {n : Nat} (v : Vector α n) (i : Nat) (f : α → α) : Vector α n :=
  match v[i]? with
  | some x => v.setIfInBounds i (f x)
  | none => v

end Sys2Proof.Machine
end

