-- ==== Sys2Proof/Syntax.lean ====
section
/-! DEFINITION. The instruction set of the ZX9 as syntax: one constructor per row of the opcode table.

Scalar rows carry their register numbers and immediates (R30, R33, R45).  Lane rows carry the whole of their
96-bit word but for the opcode, field by field (R34).  Event rows carry what the environment, or the
implementation's own choice (R439), decides: which group or unit, which place, how many cycles of the unit's
own clock have passed (R20).
-/

namespace Sys2Proof

/-- A scalar register number s0 to s63 (R104). -/
abbrev Sreg := BitVec 6

/-- The fields of a lane instruction besides its opcode (R34). -/
structure LaneWord where
  ty    : BitVec 5
  dst   : BitVec 9
  cap   : BitVec 3
  nw    : BitVec 1
  a     : BitVec 9
  b     : BitVec 9
  c     : BitVec 9
  d     : BitVec 9
  g1    : BitVec 4
  g2    : BitVec 4
  slot  : BitVec 3
  hint  : BitVec 3
  sched : BitVec 8
  modB  : BitVec 12
  deriving DecidableEq, Repr

/-- One group slot of one core: where a spawned, task or compacted group is placed (R439). -/
structure Slot where
  core : Nat
  slot : Nat
  deriving DecidableEq, Repr

/-- Where a team is placed (R439): the slot of each of its groups in group order, the core and the offset in
that core's scratchpad at which its share begins, and its lane-private frame (R162). -/
structure Placement where
  slots : List Slot
  core  : Nat
  off   : Nat
  frame : Nat
  deriving DecidableEq, Repr

/-- What the accumulator check of R285 meets at the end of a k-step: nothing, an error it finds, or an error in
the named element of the engine part's bank that only a later ACC.LD finds (R276). -/
inductive AccError where
  | clean
  | found
  | latent (part row col : Nat)
  deriving DecidableEq, Repr

/-- An atomic that a peer or the host sends (R414): ATOM, ATOMCAS, FATOM or RED on a type by its code, or SATOM. -/
inductive FarAtomic where
  | atom (ty : BitVec 5) (op : Nat)
  | cas (ty : BitVec 5)
  | fatom (ty : BitVec 5) (op : Nat)
  | red (ty : BitVec 5) (op : Nat)
  | satom (op : Nat)
  deriving DecidableEq, Repr

/-- An access that arrives from a peer or the host (R414, R210), or a write of the one behind the port to its own memory,
at a far address (R412, R420). -/
inductive Incoming where
  | read (pa size : Nat)
  | write (pa : Nat) (bytes : List (BitVec 8))
  | posted (pa : Nat) (bytes : List (BitVec 8)) (tag : Nat)
  | atomicAdd (pa : Nat) (val : BitVec 64)
  | atomic (pa : Nat) (op : FarAtomic) (val cmp : BitVec 64)
  | window (off size : Nat)
  | behind (far : Nat) (bytes : List (BitVec 8))
  deriving DecidableEq, Repr

/-- A signed image or token as it arrives over Fjarul (R424): its version, its digest and its two signatures. -/
structure Firmware where
  version : BitVec 32
  digest  : BitVec 384
  rsa     : List (BitVec 8)
  slh     : List (BitVec 8)
  deriving DecidableEq, Repr

/-- The fused life-cycle state (R425). -/
inductive LifeCycle where
  | blank
  | provisioned
  | deployed
  | returned
  deriving DecidableEq, Repr

/-- The budgeted activities of R429. -/
inductive Budgeted where
  | period
  | hbm
  | link
  | tiles
  | fieldTest
  | firmware
  deriving DecidableEq, Repr

/-- The blocks that keep counters (R431). -/
inductive BlockKind where
  | core
  | copyEngine
  | walkEngine
  | commandProcessor
  deriving DecidableEq, Repr

/-- How an in-field test of a cluster ends (R428). -/
inductive Verdict where
  | pass
  | fail (deltasSent : Bool)
  | overBudget
  deriving DecidableEq, Repr

/-- The instructions and events of the ZX9. -/ inductive Instr where /-- Scalar add modulo 2^64 of sa and sb into sd
(R107). -/ | add (sd sa sb : Sreg) /-- Scalar subtract sb from sa into sd (R107). -/ | sub (sd sa sb : Sreg) /-- Scalar
bitwise AND into sd (R107). -/ | and (sd sa sb : Sreg) /-- Scalar bitwise OR into sd (R107). -/ | or (sd sa sb : Sreg) /--
Scalar bitwise XOR into sd (R107). -/ | xor (sd sa sb : Sreg) /-- Scalar sa AND NOT sb into sd (R107). -/ | andn (sd sa sb
: Sreg) /-- Scalar sa OR NOT sb into sd (R107). -/ | orn (sd sa sb : Sreg) /-- Scalar NOT (sa XOR sb) into sd (R107). -/ |
xnor (sd sa sb : Sreg) /-- Scalar shift left by sb[5:0] (R107). -/ | shl (sd sa sb : Sreg) /-- Scalar logical shift right
by sb[5:0] (R107). -/ | shr (sd sa sb : Sreg) /-- Scalar arithmetic shift right by sb[5:0] (R107). -/ | sar (sd sa sb :
Sreg) /-- Scalar rotate left by sb[5:0] (R107). -/ | rol (sd sa sb : Sreg) /-- Scalar rotate right by sb[5:0] (R107). -/ |
ror (sd sa sb : Sreg) /-- Low 64 bits of the scalar product (R107). -/ | mul (sd sa sb : Sreg) /-- High 64 bits of the
signed 128-bit product (R107). -/ | mulh (sd sa sb : Sreg) /-- High 64 bits of the unsigned 128-bit product (R107). -/ |
mulhu (sd sa sb : Sreg) /-- Signed scalar division truncated toward zero, never trapping (R108). -/ | div (sd sa sb :
Sreg) /-- Unsigned scalar division, never trapping (R108). -/ | divu (sd sa sb : Sreg) /-- Signed scalar remainder with
the sign of sa (R108). -/ | rem (sd sa sb : Sreg) /-- Unsigned scalar remainder (R108). -/ | remu (sd sa sb : Sreg) /--
Signed scalar minimum (R107). -/ | min (sd sa sb : Sreg) /-- Signed scalar maximum (R107). -/ | max (sd sa sb : Sreg) /--
Unsigned scalar minimum (R107). -/ | minu (sd sa sb : Sreg) /-- Unsigned scalar maximum (R107). -/ | maxu (sd sa sb :
Sreg) /-- Sets Z, N, C, V from sa minus sb (R111). -/ | cmp (sa sb : Sreg) /-- Sets the flags from sa AND sb (R111). -/ |
tst (sa sb : Sreg) /-- Scalar count of one bits (R107). -/ | popc (sd sa : Sreg) /-- Scalar count of leading zero bits
(R107). -/ | clz (sd sa : Sreg) /-- Scalar count of trailing zero bits (R107). -/ | ctz (sd sa : Sreg) /-- Scalar bit
reversal (R107). -/ | brev (sd sa : Sreg) /-- Scalar address scale-add sa + (sb << n) (R107). -/ | scadd (n : BitVec 3)
(sd sa sb : Sreg) /-- Selects sa or sb by a flag condition (R112). -/ | sel (cc : BitVec 4) (sd sa sb : Sreg) /-- Adds a
sign-extended 14-bit immediate (R109). -/ | addi (sd sa : Sreg) (imm : BitVec 14) /-- ANDs with a sign-extended immediate
(R109). -/ | andi (sd sa : Sreg) (imm : BitVec 14) /-- ORs with a sign-extended immediate (R109). -/ | ori (sd sa : Sreg)
(imm : BitVec 14) /-- XORs with a sign-extended immediate (R109). -/ | xori (sd sa : Sreg) (imm : BitVec 14) /-- Shifts
left by an immediate amount (R109). -/ | shli (sd sa : Sreg) (n : BitVec 6) /-- Shifts right, zero-filled, by an immediate
amount (R109). -/ | shri (sd sa : Sreg) (n : BitVec 6) /-- Shifts right, sign-filled, by an immediate amount (R109). -/ |
sari (sd sa : Sreg) (n : BitVec 6) /-- Sets flags from sa minus a sign-extended immediate (R109). -/ | cmpi (sa : Sreg)
(imm : BitVec 14) /-- Sets flags from sa minus a zero-extended immediate (R109). -/ | cmpui (sa : Sreg) (imm : BitVec 14)
/-- Multiplies by a sign-extended immediate (R109). -/ | muli (sd sa : Sreg) (imm : BitVec 14) /-- Loads a 20-bit
immediate shifted left by 12, sign-extended (R110). -/ | lih (sd : Sreg) (imm : BitVec 20) /-- Writes its own address plus
a signed 20-bit offset (R110). -/ | addpc (sd : Sreg) (imm : BitVec 20) /-- Scalar load of one byte, zero-extended (R113).
-/ | sldb (sd sa : Sreg) (imm : BitVec 14) /-- Scalar load of two bytes, zero-extended (R113). -/ | sldh (sd sa : Sreg)
(imm : BitVec 14) /-- Scalar load of four bytes, zero-extended (R113). -/ | sldw (sd sa : Sreg) (imm : BitVec 14) /--
Scalar load of eight bytes (R113). -/ | sldd (sd sa : Sreg) (imm : BitVec 14) /-- Scalar load of one byte, sign-extended
(R113). -/ | sldbx (sd sa : Sreg) (imm : BitVec 14) /-- Scalar load of two bytes, sign-extended (R113). -/ | sldhx (sd sa
: Sreg) (imm : BitVec 14) /-- Scalar load of four bytes, sign-extended (R113). -/ | sldwx (sd sa : Sreg) (imm : BitVec 14)
/-- Scalar store of one byte (R113). -/ | sstb (sd sa : Sreg) (imm : BitVec 14) /-- Scalar store of two bytes (R113). -/ |
ssth (sd sa : Sreg) (imm : BitVec 14) /-- Scalar store of four bytes (R113). -/ | sstw (sd sa : Sreg) (imm : BitVec 14)
/-- Scalar store of eight bytes (R113). -/ | sstd (sd sa : Sreg) (imm : BitVec 14) /-- Scalar 8-byte atomic operation at a
scope, returning the old value (R116). -/ | satom (scope : BitVec 3) (op : BitVec 5) (sd sa sb : Sreg) /-- Conditional
branch on the scalar flags (R118). -/ | b (cc : BitVec 4) (off : BitVec 22) /-- Branch on whether an activity mask is zero
(R119). -/ | bm (nz : BitVec 1) (sel : BitVec 3) (off : BitVec 22) /-- Pops one FQ entry and branches on its any/all bits
(R120). -/ | bf (cc : BitVec 4) (off : BitVec 22) /-- Writes the return address to s60 and branches (R121). -/ | call (off
: BitVec 22) /-- Takes 1 to 16 lane instructions into the lane issue queue (R83). -/ | lx (n1 : BitVec 4) (lidx : BitVec
22) /-- Sets the lane PC (R84). -/ | lj (lidx : BitVec 22) /-- Waits for a free SQ slot and pushes sa[31:0] (R87). -/ |
sqPush (sa : Sreg) /-- Waits for an LQ entry and pops it into sd (R87). -/ | lqPop (sd : Sreg) /-- Waits for an FQ entry
and pops it into sd (R87). -/ | fqPop (sd : Sreg) /-- Narrows a beat mask and folds a divergence marker (R92). -/ | msplit
(sd sa : Sreg) /-- Restores mask bits and folds a reconvergence marker (R92). -/ | mjoin (sd sa : Sreg) /-- Waits for
earlier accesses at a scope and acts as release and acquire (R185). -/ | fence (scope : BitVec 3) /-- Places join entries
in the named engine queues (R186). -/ | qfence (sa : Sreg) /-- Waits until an 8-byte memory value meets a condition or a
limit passes (R187). -/ | waita (cc : BitVec 3) (sd sa sb : Sreg) /-- Checks a walk record, takes its count and appends it
to an engine's intake (R265). -/ | walkPost (sd sa sb : Sreg) /-- Returns a walk's status word without waiting (R281). -/
| walkStat (sd sa : Sreg) /-- Aborts a walk with abort cause 1 (R280). -/ | walkAbort (sa : Sreg) /-- Drops the group's
own count and parks it on a handler pool (R271). -/ | hndlPark (sa : Sreg) /-- Ends service of a summons, marking the slot
filled or the bank free (R272). -/ | hndlDone /-- Allocates a task record with k predecessors and takes its count (R318).
-/ | taskAlloc (sd sa sb : Sreg) /-- Publishes an allocated task's packet (R318). -/ | taskPub (sa sb : Sreg) /-- Signals
one task, lowering its dependence counter (R318). -/ | taskSig (sa : Sreg) /-- Creates a ready task from a packet and
takes its count (R318). -/ | taskSpawn (sd sa : Sreg) /-- Ends the tasks of the named lanes, signalling successors and
dropping counts (R319). -/ | taskExit (sa : Sreg) /-- Moves the group's own count to a new node and stamp (R307). -/ |
stampSet (sa sb : Sreg) /-- Extracts one counter of a stamp (R306). -/ | stampGet (sd sa sb : Sreg) /-- Increases a
stamp's innermost counter (R306). -/ | stampInc (sd sa sb : Sreg) /-- Adds a counter level to a stamp (R306). -/ |
stampEnter (sd sa : Sreg) /-- Drops a stamp's innermost counter level (R306). -/ | stampLeave (sd sa : Sreg) /-- Waits
until a node's announced floor is above a stamp, then acquires (R308). -/ | frontWait (sa sb : Sreg) /-- Tests once
whether a node's floor is above a stamp (R308). -/ | frontTest (sd sa sb : Sreg) /-- Takes a context hold at a node and
stamp (R309). -/ | frontHold (sd sa sb : Sreg) /-- Releases a context hold by handle (R309). -/ | frontDrop (sa : Sreg)
/-- Loads and installs a summary image of nodes and edges (R297). -/ | summLd (sa : Sreg) /-- Logs the old contents of a
memory range in the keep log (R327). -/ | rgnKeep (sa sb : Sreg) /-- Closes the innermost recovery region (R330). -/ |
rgnClose /-- Opens a recovery region, snapshotting the named registers (R326). -/ | rgnOpen (sd : Sreg) (rmask : BitVec
20) /-- Compares the folded signature with a 32-bit check value (R337). -/ | sigChk (imm : BitVec 32) /-- Makes a barrier
slot live with its configuration (R240). -/ | barInit (sa sb : Sreg) /-- Binds a barrier name to a live slot for the whole
team (R237). -/ | barBind (name : BitVec 4) (sa : Sreg) /-- Adds expected bytes to a barrier's pending count (R241). -/ |
barExpect (name : BitVec 4) (sa : Sreg) /-- Releases at .clu and counts the group's arrival on a barrier (R241). -/ |
barArrive (name : BitVec 4) (sd : Sreg) /-- Waits until a barrier phase has completed, then acquires (R241). -/ | barWait
(name : BitVec 4) (sa : Sreg) /-- Tests once whether a barrier phase has completed (R241). -/ | barTry (name : BitVec 4)
(sd sa : Sreg) /-- Retires a live barrier slot (R235). -/ | barDrop (sa : Sreg) /-- Appends one copy entry from four
scalar registers to the team's copy ring (R247). -/ | copyq (sd sa : Sreg) /-- Deactivates the group until a barrier phase
completes, then continues at a label (R253). -/ | yieldBar (name : BitVec 4) (par : BitVec 1) (off : BitVec 21) /-- Posts
a query for the next work item to the work distributor (R357). -/ | wdqNext (sa : Sreg) /-- Sets the team's pipeline depth
limits (R254). -/ | pipeLim (sa sb : Sreg) /-- Reads a special register into sd (R126). -/ | scrRd (sd : Sreg) (n : BitVec
12) /-- Writes a special register under its access rules (R126). -/ | scrWr (n : BitVec 12) (sa : Sreg) /-- Does nothing
but fold into the signature (R122). -/ | nop /-- Raises a software trap with a code (R123). -/ | trap (n : BitVec 6) /--
Returns from a trap handler, resuming any remaining lane run (R124). -/ | tret /-- Ends the group after its lane work and
stores complete, dropping its count (R125). -/ | exit /-- Raises a breakpoint trap (R123). -/ | brk /-- Jumps to the
address in sa (R121). -/ | jr (sa : Sreg) /-- Calls the address in sa, writing the return address to s60 (R121). -/ |
callr (sa : Sreg) /-- Lane integer add, wrapping or saturating (R135). -/ | iadd (w : LaneWord) /-- Lane integer subtract
(R135). -/ | isub (w : LaneWord) /-- Lane integer multiply (R135). -/ | imul (w : LaneWord) /-- High half of the lane
integer product (R135). -/ | imulh (w : LaneWord) /-- Lane integer multiply-add (R135). -/ | imad (w : LaneWord) /-- Lane
integer minimum (R135). -/ | imin (w : LaneWord) /-- Lane integer maximum (R135). -/ | imax (w : LaneWord) /-- Lane
integer absolute value (R135). -/ | iabs (w : LaneWord) /-- Lane integer negation (R135). -/ | ineg (w : LaneWord) /--
Lane shift left by b mod width (R136). -/ | laneShl (w : LaneWord) /-- Lane logical shift right (R136). -/ | laneShr (w :
LaneWord) /-- Lane arithmetic shift right (R136). -/ | laneSar (w : LaneWord) /-- Lane count of one bits (R136). -/ |
lanePopc (w : LaneWord) /-- Lane count of leading zeros (R136). -/ | laneClz (w : LaneWord) /-- Lane bit reversal (R136).
-/ | laneBrev (w : LaneWord) /-- Lane bitwise AND (R137). -/ | laneAnd (w : LaneWord) /-- Lane bitwise OR (R137). -/ |
laneOr (w : LaneWord) /-- Lane bitwise XOR (R137). -/ | laneXor (w : LaneWord) /-- Lane bitwise NOT (R137). -/ | not (w :
LaneWord) /-- Lane three-input logic by lookup table (R137). -/ | lop3 (w : LaneWord) /-- Lane bit-field extract (R138).
-/ | bfe (w : LaneWord) /-- Lane bit-field insert (R138). -/ | bfi (w : LaneWord) /-- Lane select by a predicate (R139).
-/ | laneSel (w : LaneWord) /-- Lane floating-point add (R140). -/ | fadd (w : LaneWord) /-- Lane floating-point subtract
(R140). -/ | fsub (w : LaneWord) /-- Lane floating-point multiply (R140). -/ | fmul (w : LaneWord) /-- Lane fused
multiply-add with one rounding (R140). -/ | fma (w : LaneWord) /-- Lane floating-point minimum returning an operand
(R142). -/ | fmin (w : LaneWord) /-- Lane floating-point maximum returning an operand (R142). -/ | fmax (w : LaneWord) /--
Lane clear of the sign bit (R143). -/ | fabs (w : LaneWord) /-- Lane inversion of the sign bit (R143). -/ | fneg (w :
LaneWord) /-- Lane integer compare into a predicate (R144). -/ | icmp (w : LaneWord) /-- Lane floating-point compare into
a predicate (R144). -/ | fcmp (w : LaneWord) /-- Predicate AND (R145). -/ | pand (w : LaneWord) /-- Predicate OR (R145).
-/ | por (w : LaneWord) /-- Predicate XOR (R145). -/ | pxor (w : LaneWord) /-- Predicate NOT (R145). -/ | pnot (w :
LaneWord) /-- Predicate copy (R145). -/ | pmov (w : LaneWord) /-- Pushes an any/all summary of a predicate to FQ (R146).
-/ | psum (w : LaneWord) /-- Pushes a predicate as per-beat lane masks to LQ (R147). -/ | ptoq (w : LaneWord) /-- Lane
scalar type conversion (R148). -/ | cvt (w : LaneWord) /-- Lane block-scaled conversion through a format slot (R151). -/ |
cvts (w : LaneWord) /-- Lane packed narrowing or widening conversion (R149). -/ | cvtp (w : LaneWord) /-- Lane rounding to
an integral value (R150). -/ | frnd (w : LaneWord) /-- Lane correctly rounded reciprocal (R152). -/ | rcp (w : LaneWord)
/-- Lane reciprocal square root (R152). -/ | rsq (w : LaneWord) /-- Lane correctly rounded square root (R152). -/ | sqrt
(w : LaneWord) /-- Lane base-2 exponential (R152). -/ | exp2 (w : LaneWord) /-- Lane base-2 logarithm (R152). -/ | log2 (w
: LaneWord) /-- Lane sine (R152). -/ | sin (w : LaneWord) /-- Lane cosine (R152). -/ | cos (w : LaneWord) /-- Lane
hyperbolic tangent (R152). -/ | tanh (w : LaneWord) /-- Lane two-element dot product with accumulator (R154). -/ | dot2 (w
: LaneWord) /-- Lane four-element dot product with accumulator (R154). -/ | dot4 (w : LaneWord) /-- Lane eight-element dot
product with accumulator (R154). -/ | dot8 (w : LaneWord) /-- Lane bit copy (R155). -/ | mov (w : LaneWord) /-- Copies one
lane's value to every lane or to LQ (R156). -/ | bcast (w : LaneWord) /-- Exchanges values between lanes within segments
(R157). -/ | shfl (w : LaneWord) /-- Reduces over the lanes by a fixed tree and pushes to LQ (R158). -/ | redq (w :
LaneWord) /-- Lane load at a scope and order (R176). -/ | ld (w : LaneWord) /-- Lane store, optionally a release (R177).
-/ | st (w : LaneWord) /-- Lane prefetch that never faults (R182). -/ | pref (w : LaneWord) /-- Declares last use of a
range, making its bytes indeterminate (R183). -/ | discard (w : LaneWord) /-- Posted peer store to fabric memory, holding
a count until acknowledged (R184). -/ | pst (w : LaneWord) /-- Lane integer atomic at the point of performance (R178). -/
| atom (w : LaneWord) /-- Lane compare-and-swap (R179). -/ | atomcas (w : LaneWord) /-- Lane floating-point atomic
returning the old value (R180). -/ | fatom (w : LaneWord) /-- Lane floating-point reduction to memory (R180). -/ | red (w
: LaneWord) /-- Recomputes a shadowed member on the neighbouring lane and writes check bits (R159). -/ | shdw (w :
LaneWord) /-- Drain handler reads accumulators of its bank (R276). -/ | accLd (w : LaneWord) /-- Hint-space lane opcode
executed as a NOP (R51). -/ | laneHint (h : BitVec 4) (w : LaneWord) /-- A scalar word with a reserved major opcode (0x00,
0x31-0x3F) or a reserved func of a starred major raises an exact illegal-instruction trap when it would issue (R47). -/ |
illegalScalarInstruction (word : BitVec 32) /-- A scalar instruction whose address lies outside the scalar section raises
an exact scalar PC range trap when it would issue (R28). -/ | scalarPcRange /-- When the scalar PC enters a page whose
run-ahead translation failed, the fault is raised as the instruction would issue, with SCR_TADDR at the first failing byte
(R390). -/ | instructionFetchFault (cause : BitVec 8) (level : Nat) (addr : BitVec 64) /-- The head pending trap is
delivered to the group's handler (R367). -/ | trapDelivery (g : Nat) /-- The compactor emits a handler group of faulting
lanes when full or after 256 cycles (R371). -/ | compactorEmit (die : Nat) (late : Bool) (at_ : Slot) /-- The gatherer
emits a task group when 32 tasks, a solo task, or 256 cycles pass (R320). -/ | taskGather (die : Nat) (late : Bool) (at_ :
Slot) /-- A waiting team is admitted when it fits, starting its groups (R353). -/ | teamAdmit (kern : Nat) (ats : List
Placement) /-- The copy engine performs a published entry row by row (R244). -/ | copyEntryPerform (team : Nat) (lat :
Nat) /-- Writing 1 to the ring's halt bit resumes the engine at head (R242). -/ | copyRingResume (team : Nat) /-- A posted
walk takes places on its engines (R266). -/ | walkPlace (eng : Nat) /-- A placed walk enters walking when its armature
reservation fits (R266). -/ | walkReserve (eng : Nat) (offs : List (List Nat)) /-- The engine issues A, B, init or drain
summonses (R268). -/ | summonsIssue (eng : Nat) (slotA slotB : Nat) /-- A summons is delivered to a parked or spawned
handler group (R270). -/ | summonsDeliver (sid : Nat) (at_ : Slot) /-- A tile starts in a free bank under round-robin
arbitration (R274). -/ | tileStart (eng : Nat) /-- A k-step runs once its slots are filled (R274). -/ | kstepStart (walk :
Nat) /-- A k-step ends, freeing its slots and, if last, checking the bank (R275). -/ | kstepEnd (walk : Nat) (err :
AccError) /-- A waiting WAITA rereads when its line is written or 4096 cycles pass (R187). -/ | waitaRecheck (g : Nat)
(cycles : Nat) /-- A count unit or aggregator sends its batch after 64 cycles or when full (R301). -/ | countBatchSend
(unit : Nat) /-- The device root starts a snapshot at least every 256 cycles (R303). -/ | snapshotStart (ctx : Nat) /--
After all markers return the root announces new floors (R304). -/ | floorAnnounce (ctx : Nat) (lagging : List Nat) /-- The
distributor writes an answer to an outstanding query (R357). -/ | workAnswer (g : Nat) /-- At the end of 1024 L1 misses
the core sets the memory-set limit (R99). -/ | throttleWindow (core hits : Nat) /-- A group throttled 512 cycles displaces
the least recent member (R99). -/ | throttleDisplace (g : Nat) /-- A group leaves the memory set after 64 cycles without
memory issue (R99). -/ | memorySetLeave (g : Nat) /-- Creates a context from a descriptor (R362). -/ | create (cp : Nat)
/-- Sets a context's core and scratchpad quotas from a quota record (R441). -/ | quota (cp ctx : Nat) /-- Stops and saves
a context into images (R375). -/ | suspend (cp ctx : Nat) /-- When every image is valid the context becomes saved and
frees its resources (R363). -/ | contextSaved (ctx : Nat) /-- Restores a saved context onto qualifying cores (R374). -/ |
restore (cp ctx : Nat) /-- When every team and walk is placed again the context becomes active (R363). -/ |
restoreComplete (ctx : Nat) (teams : List (Nat × Placement)) (walks : List (Nat × Nat)) /-- Vacates the named cores of a
context's teams (R376). -/ | preempt (cp ctx : Nat) /-- Clears a context's stop (R369). -/ | continueCtx (cp ctx : Nat)
/-- Resumes or kills a group waiting on host service (R366). -/ | answer (cp ctx : Nat) /-- Discards a context and wipes
its reserved bytes (R376). -/ | destroy (cp ctx : Nat) /-- Suspends the context when its count reaches npl (R377). -/ |
noProgressWatchdog (ctx cycles : Nat) /-- Makes the context lost when saving exceeds svl (R378). -/ | saveWatchdog (ctx
cycles : Nat) /-- Sets a context's page-table root, or refuses it (R382). -/ | trrootWrite (cp : Nat) (val : BitVec 64)
/-- Removes a context's cached translations of one page (R391). -/ | invalidateAddress (cp ctx : Nat) /-- Removes every
cached translation of a context (R391). -/ | invalidateContext (cp ctx : Nat) /-- Removes every cached translation of
every context (R391). -/ | invalidateAll (cp : Nat) /-- An invalidation finishes and busy returns to 0 (R391). -/ |
invalidationComplete (cp : Nat) /-- Creates a queue from a queue descriptor (R394). -/ | qcreate (cp : Nat) /-- Resumes a
halted queue at head (R402). -/ | qresume (cp q : Nat) /-- Drains and frees a queue (R404). -/ | qdestroy (cp q : Nat) /--
A pending queue is placed on a slot (R403). -/ | queueMap (q slot : Nat) /-- A queue parked 4096 cycles is unmapped when
another is pending (R403). -/ | queueIdleUnmap (q cycles : Nat) /-- A slot wakes on a write of the tail line and reads
packets (R397). -/ | tailWake (q : Nat) /-- A slot rereads a Brixolink tail every 1024 cycles (R397). -/ | tailPoll (q
cycles : Nat) /-- A NOP packet completes as it starts (R399). -/ | nopPacket (q : Nat) (pos : Nat) /-- Skips every unit to
the ring's end (R399). -/ | pad (q : Nat) (pos : Nat) /-- Checks a launch record and takes the kernel count (R351). -/ |
launch (q : Nat) (pos : Nat) /-- Appends records to a kernel's work queue (R355). -/ | feed (q : Nat) (pos : Nat) /--
Posts a walk on behalf of a launched kernel (R399). -/ | walkPacket (q : Nat) (pos : Nat) /-- Blocks the queue until a
memory or frontier condition holds (R399). -/ | waitPacket (q : Nat) (pos : Nat) /-- A blocked WAIT's condition holds and
it completes (R404). -/ | waitPacketSatisfied (q : Nat) (pos : Nat) /-- Stores or adds an 8-byte value at .sys (R399). -/
| signal (q : Nat) (pos : Nat) /-- Moves or removes the context's input hold (R300). -/ | frontPacket (q : Nat) (pos :
Nat) /-- The command processor copies bytes (R399). -/ | copyPacket (q : Nat) (pos : Nat) /-- Completes when every earlier
packet has completed (R399). -/ | fencePacket (q : Nat) (pos : Nat) /-- A packet completes, storing its status and
completion value (R398). -/ | packetComplete (q : Nat) (pos : Nat) /-- Writing en = 1 starts a port's training (R413). -/
| linkEnable (port : Nat) (pers : Bool) /-- Writing en = 0 takes a port down (R413). -/ | linkDisable (port : Nat) /-- A
port finishes training, up or degraded (R413). -/ | linkTrained (port lanes : Nat) /-- A port untrained for 2^24 cycles
goes down (R413). -/ | trainingTimeout (port cycles : Nat) /-- Lane errors retrain the port on the good lanes and replay
flits (R413). -/ | laneErrors (port good replays : Nat) /-- Replay exhausted, too few lanes or a partner fence fences the
port (R413). -/ | linkFence (port cause : Nat) /-- A PST acknowledgement arrives and drops its count (R415). -/ | pstAck
(id : Nat) /-- A non-posted access outstanding 2^24 cycles ends with 0xFF bytes (R417). -/ | nonpostedTimeout (g cycles :
Nat) /-- Traffic from a peer or the host is performed at the home L2 (R414). -/ | incomingAccess (port : Nat) (acc :
Incoming) /-- A budget period ends and spent budgets renew (R429). -/ | budgetPeriod (block cycles : Nat) /-- Runs the
reset bring-up sequence (R422). -/ | moduleReset (img : Firmware) (failing : List Nat) (stacksOk : Bool) /-- Verifies and
accepts an Onater image (R424). -/ | firmwareLoad (img : Firmware) /-- Advances the fused life-cycle state, wiping the
module (R425). -/ | lifeCycleToken (target : LifeCycle) (tok : Firmware) (img : Firmware) /-- Produces a signed
attestation report against a nonce (R426). -/ | attestation (nonce : BitVec 256) /-- Returns power, temperature, flow and
HBM error data (R427). -/ | telemetry /-- Sets a die's in-field test interval (R428). -/ | testSchedule (die interval :
Nat) /-- Sets the budget period and per-partition budgets (R429). -/ | budgetSet (act : Budgeted) (part amount : Nat) /--
Sets the module power cap (R430). -/ | powerCap (watts : Nat) /-- Returns every counter of one block instance (R431). -/ |
counterSnapshot (kind : BlockKind) (ix : Nat) /-- A controller tests its next cluster every interval (R428). -/ |
inFieldTest (die cycles : Nat) (verdict : Verdict) /-- A die at its trip point is reported (R430). -/ | thermalTrip (die :
Nat) /-- 2^24 cycles after a trip the module resets itself (R430). -/ | thermalReset (cycles : Nat) (img : Firmware) /-- A
write to a register without behaviour of its own sets its fields (R6). -/ | registerWrite (off size : Nat) (val : BitVec
64) /-- The completion of a remote load, store or atomic (data, old value or acknowledgement) returns over a fabric port
and completes the access at the issuer (R414). -/ | nonPostedCompletion (g : Nat) /-- A fault while reading an image
during restoring returns the context to saved, keeps the image and writes report kind 5 with cause 102 (R363). -/
  | restoreFault (ctx : Nat) (badImage : Bool)
  deriving DecidableEq, Repr

end Sys2Proof
end

