-- ==== Sys2Proof/Machine/Legality.lean ====
section
/-! DEFINITION. Which encodings are instructions: the operand codes (R35), the element types (R41), and the checks
of R47 and R48 that need nothing but the instruction itself.
-/

namespace Sys2Proof

namespace Machine

/-- The element types of R41. -/
inductive Ty where
  | i32 | n32 | i64 | n64 | i16x2 | n16x2 | i8x4 | n8x4 | i4x8 | n4x8 | x32 | x64
  | f64 | f32 | f16x2 | bf16x2 | e4m3x4 | e5m2x4 | e2m1x8 | f16 | bf16
  deriving DecidableEq, Repr

/-- The type that a modA code names (R41). -/
def Ty.ofCode (c : BitVec 5) : Option Ty :=
  match c.toNat with
  | 0x00 => some .i32 | 0x01 => some .n32 | 0x02 => some .i64 | 0x03 => some .n64
  | 0x04 => some .i16x2 | 0x05 => some .n16x2 | 0x06 => some .i8x4 | 0x07 => some .n8x4
  | 0x08 => some .i4x8 | 0x09 => some .n4x8 | 0x0C => some .x32 | 0x0D => some .x64
  | 0x10 => some .f64 | 0x11 => some .f32 | 0x12 => some .f16x2 | 0x13 => some .bf16x2
  | 0x14 => some .e4m3x4 | 0x15 => some .e5m2x4 | 0x16 => some .e2m1x8 | 0x17 => some .f16
  | 0x18 => some .bf16
  | _ => none

/-- How many 32-bit registers a value of the type takes (R36). -/
def Ty.regs : Ty → Nat
  | .i64 | .n64 | .x64 | .f64 => 2
  | _ => 1

/-- The packed narrow types, with which inline constants are illegal (R36). -/
def Ty.noConst : Ty → Bool
  | .e4m3x4 | .e5m2x4 | .e2m1x8 => true
  | _ => false

end Machine

/-- modB[7:0], the class part (R42). -/
def LaneWord.sub (w : LaneWord) : Nat := w.modB.toNat % 256

/-- modB[11:9], the rounding field (R42). -/
def LaneWord.rnd (w : LaneWord) : Nat := Machine.bits w.modB.toNat 9 3

/-- modB[8], the saturation Machine.bit (R42). -/
def LaneWord.sat (w : LaneWord) : Bool := Machine.bit w.modB.toNat 8

/-- sched[19], stick (R34, R39). -/
def LaneWord.stick (w : LaneWord) : Bool := Machine.bit w.sched.toNat 7

/-- sched[18], yield. -/
def LaneWord.yield (w : LaneWord) : Bool := Machine.bit w.sched.toNat 6

/-- sched[17:14], the wait count. -/
def LaneWord.wait (w : LaneWord) : Nat := Machine.bits w.sched.toNat 2 4

/-- sched[13], shadowed. -/
def LaneWord.shadowed (w : LaneWord) : Bool := Machine.bit w.sched.toNat 1

/-- modB[7:5], the scope of a memory instruction (R42). -/
def LaneWord.scope (w : LaneWord) : Nat := Machine.bits w.modB.toNat 5 3

/-- modB[4:2], the size code of a memory instruction (R42). -/
def LaneWord.size (w : LaneWord) : Nat := Machine.bits w.modB.toNat 2 3

/-- modB[1:0], the order of a memory instruction (R42). -/
def LaneWord.order (w : LaneWord) : Nat := Machine.bits w.modB.toNat 0 2

/-- The type a lane word names. -/
def LaneWord.type (w : LaneWord) : Option Machine.Ty := Machine.Ty.ofCode w.ty

/-- The type of a lane word, where it has one of those accepted; i32 stands for none. -/
def LaneWord.t (w : LaneWord) : Machine.Ty := (Machine.Ty.ofCode w.ty).getD .i32

/-- Whether the word names one of the types. -/
def LaneWord.isOf (w : LaneWord) (ts : List Machine.Ty) : Bool :=
  match w.type with
  | some t => ts.contains t
  | none => false

/-- The source type of CVT and CVTP (R148, R149). -/
def LaneWord.srcType (w : LaneWord) : Option Machine.Ty := Machine.Ty.ofCode (BitVec.ofNat 5 (w.sub % 32))

namespace Machine

/-- What an operand code names (R35). -/
inductive Operand where
  | v (n : Nat)
  | s (n : BitVec 6)
  | latch (k : Nat)
  | sq
  | lq
  | fq
  | lid
  | zero
  | const (i : Int)
  | reserved
  deriving DecidableEq, Repr

/-- The operand of a code (R35). -/
def Operand.ofCode (c : BitVec 9) : Operand :=
  let n := c.toNat
  if n < 0x100 then .v n
  else if n < 0x140 then .s (BitVec.ofNat 6 n)
  else if n < 0x144 then .latch (n - 0x140)
  else if n = 0x144 then .sq
  else if n = 0x145 then .lq
  else if n = 0x146 then .fq
  else if n = 0x147 then .lid
  else if n = 0x148 then .zero
  else if n < 0x180 then .reserved
  else .const ((n : Int) - 0x1A0)

/-- What a source field holds: nothing, a value of a type, a 32-bit value, a 64-bit base, a predicate, a uniform
32-bit value, data of so many bytes, or a raw number up to a bound (R35, R36, R172). -/
inductive SrcKind where
  | unused
  | typed (t : Ty)
  | raw32
  | base
  | pred
  | uniform
  | data (bytes : Nat)
  | number (max : Nat)
  deriving DecidableEq, Repr

/-- What the destination field holds: nothing (0x000 or 0x148), so many registers, a predicate, or a queue. -/
inductive DstKind where
  | blank
  | zero
  | regs (n : Nat)
  | regsOrLq (n : Nat)
  | pred
  | lq
  | fq
  deriving DecidableEq, Repr

/-- What a lane instruction's description accepts. -/
structure Shape where
  ok   : Bool
  dst  : DstKind
  a    : SrcKind
  b    : SrcKind
  c    : SrcKind
  d    : SrcKind
  rnd  : Bool
  sat  : Bool
  hint : Bool
  slot : Bool
  last : Bool
  deriving DecidableEq, Repr

/-- Whether code c may stand where k is asked for, alignment included (R35, R36). -/
def SrcKind.accepts (k : SrcKind) (c : BitVec 9) : Bool :=
  match k, Operand.ofCode c with
  | .unused, _ => c = 0
  | .typed t, .v n => n % t.regs = 0
  | .typed _, .s _ => true
  | .typed _, .latch _ => true
  | .typed t, .sq => t.regs = 1
  | .typed _, .lid => true
  | .typed _, .zero => true
  | .typed t, .const _ => !t.noConst
  | .typed _, _ => false
  | .raw32, .lq => false
  | .raw32, .fq => false
  | .raw32, .reserved => false
  | .raw32, _ => true
  | .base, .v n => n % 2 = 0
  | .base, .s _ => true
  | .base, _ => false
  | .pred, _ => c.toNat < 8
  | .uniform, .s _ => true
  | .uniform, .sq => true
  | .uniform, .const _ => true
  | .uniform, _ => false
  | .data 16, .v n => n % 4 = 0
  | .data 16, _ => false
  | .data bytes, .v n => bytes < 8 || n % 2 = 0
  | .data bytes, .sq => bytes < 8
  | .data _, .s _ => true
  | .data _, .latch _ => true
  | .data _, .lid => true
  | .data _, .zero => true
  | .data _, .const _ => true
  | .data _, _ => false
  | .number m, _ => c.toNat ≤ m

/-- One more than the highest v register that code c reads under k; 0 if none. -/
def SrcKind.top (k : SrcKind) (c : BitVec 9) : Nat :=
  match k, Operand.ofCode c with
  | .typed t, .v n => n + t.regs
  | .raw32, .v n => n + 1
  | .base, .v n => n + 2
  | .data bytes, .v n => n + (bytes + 3) / 4
  | _, _ => 0

/-- Whether code c may stand as the destination (R35, R36). -/
def DstKind.accepts (k : DstKind) (c : BitVec 9) : Bool :=
  match k, Operand.ofCode c with
  | .blank, _ => c = 0
  | .zero, o => o = .zero
  | .regs n, .v r => r % n = 0
  | .regs _, .zero => true
  | .regs _, _ => false
  | .regsOrLq n, .v r => r % n = 0
  | .regsOrLq _, .zero => true
  | .regsOrLq n, .lq => n = 1
  | .regsOrLq _, _ => false
  | .pred, _ => c.toNat < 8
  | .lq, o => o = .lq
  | .fq, o => o = .fq

/-- One more than the highest v register the destination writes; 0 if none. -/
def DstKind.top (k : DstKind) (c : BitVec 9) : Nat :=
  match k, Operand.ofCode c with
  | .regs n, .v r => r + n
  | .regsOrLq n, .v r => r + n
  | _, _ => 0

def tyInt : List Ty := [.i32, .n32, .i64, .n64, .i16x2, .n16x2, .i8x4, .n8x4]
def tySInt : List Ty := [.i32, .i64, .i16x2, .i8x4]
def tyIntW : List Ty := [.i32, .n32, .i64, .n64]
def tyX : List Ty := [.x32, .x64]
def tyFpv : List Ty := [.f64, .f32, .f16x2, .bf16x2, .e4m3x4, .e5m2x4, .e2m1x8]
def tyFps : List Ty := [.f64, .f32, .f16x2, .bf16x2]
def tyCvt : List Ty := [.i32, .n32, .i64, .n64, .f64, .f32, .f16, .bf16]
def tySpecial : List Ty := [.f32, .f16x2, .bf16x2]

/-- A plain arithmetic shape: n sources of the word's type, to registers of that type. -/
def Shape.arith (w : LaneWord) (n : Nat) (ok rnd sat : Bool) : Shape :=
  let k := SrcKind.typed w.t
  { ok := ok, dst := .regs w.t.regs, a := if 0 < n then k else .unused, b := if 1 < n then k else .unused,
    c := if 2 < n then k else .unused, d := if 3 < n then k else .unused, rnd := rnd, sat := sat,
    hint := false, slot := false, last := false }

/-- A predicate shape: sources a and b as given, to a predicate or a queue. -/
def Shape.pred (dst : DstKind) (a b : SrcKind) (ok : Bool) : Shape :=
  { ok := ok, dst := dst, a := a, b := b, c := .unused, d := .unused, rnd := false, sat := false,
    hint := false, slot := false, last := dst = .lq || dst = .fq }

/-- A memory shape (R172, R175). -/
def Shape.mem (dst : DstKind) (c d : SrcKind) (ok last hint : Bool) : Shape :=
  { ok := ok, dst := dst, a := .base, b := .raw32, c := c, d := d, rnd := false, sat := false,
    hint := hint, slot := false, last := last }

/-- The narrowing pairs of CVTP with the number of their sources (R149). -/
def cvtpNarrow (dt st : Ty) : Nat :=
  match dt, st with
  | .f16x2, .f32 => 2
  | .bf16x2, .f32 => 2
  | .e4m3x4, .f32 => 4
  | .e5m2x4, .f32 => 4
  | .e4m3x4, .f16x2 => 2
  | .e5m2x4, .f16x2 => 2
  | .e2m1x8, .f16x2 => 4
  | _, _ => 0

/-- The widening pairs of CVTP with the number of their parts (R149). -/
def cvtpWiden (dt st : Ty) : Nat :=
  match dt, st with
  | .f32, .f16x2 => 2
  | .f32, .bf16x2 => 2
  | .f16x2, .e4m3x4 => 2
  | .f16x2, .e5m2x4 => 2
  | .f16x2, .e2m1x8 => 4
  | _, _ => 0

/-- The type of the accumulator of a dot product (R154). (DEDUCED, log 15.) -/
def dotAcc : Ty → Ty
  | .i16x2 | .i8x4 | .i4x8 => .i32
  | .n16x2 | .n8x4 | .n4x8 => .n32
  | _ => .f32

/-- The bytes of a size code (R42). -/
def sizeBytes (c : Nat) : Nat := 2 ^ c

/-- The shape of a dot product (R154). -/
def Shape.dot (w : LaneWord) (ts : List Ty) : Shape :=
  let fp := dotAcc w.t = .f32
  { ok := w.isOf ts && (w.sub = 0 || (w.sub = 1 && (w.t = .e4m3x4 || w.t = .e5m2x4))),
    dst := .regs 1, a := .typed w.t, b := .typed w.t, c := .typed (dotAcc w.t), d := .unused,
    rnd := fp, sat := true, hint := false, slot := false, last := false }

/-- The types that operator op of REDQ takes (R158). -/
def redqTypes : Nat → List Ty
  | 0 | 1 | 2 => [.i32, .n32, .f32]
  | 3 | 4 | 5 => [.x32]
  | _ => []

/-- What the description of each lane opcode accepts (R135 to R159, R172, R175, R276). (DEDUCED, log 15.) -/
def shapeOf (i : Instr) : Option Shape :=
  match i with
  | .iadd w | .isub w | .imul w => some (Shape.arith w 2 (w.isOf tyInt && w.sub = 0) false true)
  | .imulh w => some (Shape.arith w 2 (w.isOf tyIntW && w.sub = 0) false false)
  | .imad w => some (Shape.arith w 3 (w.isOf tyInt && w.sub = 0) false true)
  | .imin w | .imax w => some (Shape.arith w 2 (w.isOf tyInt && w.sub = 0) false false)
  | .iabs w | .ineg w => some (Shape.arith w 1 (w.isOf tySInt && w.sub = 0) false true)
  | .laneShl w | .laneShr w | .laneSar w =>
    some (Shape.arith w 2 (w.isOf (tyInt ++ tyX) && w.sub = 0) false false)
  | .lanePopc w | .laneClz w | .laneBrev w | .not w | .mov w =>
    some (Shape.arith w 1 (w.isOf tyX && w.sub = 0) false false)
  | .laneAnd w | .laneOr w | .laneXor w => some (Shape.arith w 2 (w.isOf tyX && w.sub = 0) false false)
  | .lop3 w => some (Shape.arith w 3 (w.isOf tyX) false false)
  | .bfe w => some (Shape.arith w 3 (w.isOf tyIntW && w.sub = 0) false false)
  | .bfi w => some (Shape.arith w 4 (w.isOf tyIntW && w.sub = 0) false false)
  | .laneSel w => some (Shape.arith w 2 (w.isOf (tyInt ++ tyX) && w.sub < 16) false false)
  | .fadd w | .fsub w | .fmul w => some (Shape.arith w 2 (w.isOf tyFpv && w.sub = 0) true true)
  | .fma w => some (Shape.arith w 3 (w.isOf tyFpv && w.sub = 0) true true)
  | .fmin w | .fmax w => some (Shape.arith w 2 (w.isOf tyFpv && w.sub = 0) false false)
  | .fabs w | .fneg w => some (Shape.arith w 1 (w.isOf tyFpv && w.sub = 0) false false)
  | .icmp w => some (Shape.pred .pred (.typed w.t) (.typed w.t) (w.isOf tyIntW && w.sub < 6))
  | .fcmp w => some (Shape.pred .pred (.typed w.t) (.typed w.t) (w.isOf [.f64, .f32, .f16, .bf16] && w.sub < 8))
  | .pand w | .por w | .pxor w => some (Shape.pred .pred .pred .pred (w.ty = 0 && w.sub = 0))
  | .pnot w | .pmov w => some (Shape.pred .pred .pred .unused (w.ty = 0 && w.sub = 0))
  | .psum w => some (Shape.pred .fq .pred .unused (w.ty = 0 && w.sub = 0))
  | .ptoq w => some (Shape.pred .lq .pred .unused (w.ty = 0 && w.sub = 0))
  | .cvt w =>
    let st := w.srcType.getD .i32
    some { Shape.arith w 1 (w.isOf tyCvt && w.sub < 32 && w.srcType.isSome && tyCvt.contains st && st != w.t)
             true true with a := .typed st }
  | .cvts w =>
    some { Shape.arith w 1 (w.isOf [.f32, .f16, .bf16] && w.sub < 2) true true with
           b := .raw32, c := .raw32, d := .raw32, slot := true }
  | .cvtp w =>
    let st := w.srcType.getD .i32
    let part := bits w.sub 5 2
    if w.sub < 128 then
      let n := cvtpNarrow w.t st
      let k := SrcKind.typed st
      some { Shape.arith w 0 (w.type.isSome && w.srcType.isSome && 0 < n && part = 0) true true with
             a := k, b := k, c := if n = 4 then k else .unused, d := if n = 4 then k else .unused }
    else
      some { Shape.arith w 0 (w.type.isSome && w.srcType.isSome && part < cvtpWiden w.t st) false false with
             a := .typed st }
  | .frnd w => some (Shape.arith w 1 (w.isOf tyFps && w.sub = 0) true false)
  | .rcp w | .sqrt w => some (Shape.arith w 1 (w.isOf tyFps && w.sub = 0) true true)
  | .rsq w => some (Shape.arith w 1 (w.isOf tyFps && w.sub = 0) false true)
  | .exp2 w => some (Shape.arith w 1 (w.isOf tySpecial && w.sub = 0) false true)
  | .log2 w | .sin w | .cos w | .tanh w => some (Shape.arith w 1 (w.isOf tySpecial && w.sub = 0) false false)
  | .dot2 w => some (Shape.dot w [.f16x2, .bf16x2, .i16x2, .n16x2])
  | .dot4 w => some (Shape.dot w [.e4m3x4, .e5m2x4, .i8x4, .n8x4])
  | .dot8 w => some (Shape.dot w [.e2m1x8, .i4x8, .n4x8])
  | .bcast w =>
    some { Shape.arith w 1 (w.isOf tyX && w.sub = 0) false false with
           dst := .regsOrLq w.t.regs, b := .uniform, last := w.dst = 0x145 }
  | .shfl w =>
    some (Shape.arith w 2 (w.isOf tyX && w.sub < 64 && w.sub % 8 < 4 && w.sub / 8 < 6) false false)
  | .redq w =>
    let op := w.sub
    some { Shape.arith w 1 (w.isOf (redqTypes op)) (op = 0 && w.t = .f32) (op = 0) with
           dst := .lq, last := true }
  | .ld w =>
    let ok := match w.type with
      | some .x32 => w.size ≤ 2
      | some .i32 => w.size ≤ 1
      | some .x64 => w.size = 3 || w.size = 4
      | _ => false
    let n := if w.size = 4 then 4 else if w.size = 3 then 2 else 1
    some (Shape.mem (.regs n) .unused .unused (ok && w.scope < 5 && w.order < 2) false true)
  | .st w =>
    let ok := match w.type with
      | some .x32 => w.size ≤ 2
      | some .x64 => w.size = 3 || w.size = 4
      | _ => false
    some (Shape.mem .zero (.data (sizeBytes w.size)) .unused
      (ok && w.scope < 5 && (w.order = 0 || w.order = 2)) true true)
  | .pref w =>
    some (Shape.mem .zero .unused .unused
      (w.isOf [.x32] && w.scope < 5 && w.size = 0 && w.order = 0) false true)
  | .discard w =>
    some (Shape.mem .zero .raw32 .unused
      (w.isOf [.x32] && w.scope < 4 && w.size = 0 && w.order = 0) true false)
  | .pst w =>
    let ok := match w.type with
      | some .x32 => w.size = 2
      | some .x64 => w.size = 3 || w.size = 4
      | _ => false
    some (Shape.mem .zero (.data (sizeBytes w.size)) .unused (ok && w.scope = 4 && w.order = 0) true true)
  | .atom w =>
    some (Shape.mem (.regs w.t.regs) (.typed w.t) (.number 6)
      (w.isOf tyIntW && w.scope < 5 && w.size = 1 + w.t.regs) true true)
  | .atomcas w =>
    some (Shape.mem (.regs w.t.regs) (.typed w.t) (.typed w.t)
      (w.isOf tyX && w.scope < 5 && w.size = 1 + w.t.regs) true true)
  | .fatom w =>
    some (Shape.mem (.regs w.t.regs) (.typed w.t) (.number 2)
      (w.isOf tyFps && w.scope < 5 && w.size = 1 + w.t.regs) true true)
  | .red w =>
    some (Shape.mem .zero (.typed w.t) (.number 2)
      (w.isOf tyFps && w.scope < 5 && w.size = 1 + w.t.regs && (w.order = 0 || w.order = 2)) true true)
  | .shdw w =>
    some { Shape.arith w 0 (w.ty = 0 && w.sub = 0 && w.dst.toNat < 0x100 && w.nw = 0 && w.g1 = 7 && w.g2 = 7
             && !w.yield && !w.shadowed) false false with dst := .regs 1 }
  | .accLd w =>
    some { Shape.arith w 0 (w.isOf [.f32, .f16, .bf16, .f64] && w.sub = 0) false false with
           a := .uniform, b := .uniform }
  | _ => none

/-- Whether FATOM and RED, which always round to nearest, accept the rounding field (R42, R172). -/
def fixedRne : Instr → Bool
  | .fatom _ => true
  | .red _ => true
  | _ => false

/-- Whether cap and nw may be nonzero: only where there is a per-lane result (R35, R38, R144, R159, R172). -/
def DstKind.captures : DstKind → BitVec 9 → Bool
  | .regs _, _ => true
  | .regsOrLq _, c => c != 0x145
  | _, _ => false

/-- The lane word of a lane instruction. -/
def laneWord? (i : Instr) : Option LaneWord :=
  match i with
  | .iadd w | .isub w | .imul w | .imulh w | .imad w | .imin w | .imax w | .iabs w | .ineg w
  | .laneShl w | .laneShr w | .laneSar w | .lanePopc w | .laneClz w | .laneBrev w
  | .laneAnd w | .laneOr w | .laneXor w | .not w | .lop3 w | .bfe w | .bfi w | .laneSel w
  | .fadd w | .fsub w | .fmul w | .fma w | .fmin w | .fmax w | .fabs w | .fneg w
  | .icmp w | .fcmp w | .pand w | .por w | .pxor w | .pnot w | .pmov w | .psum w | .ptoq w
  | .cvt w | .cvts w | .cvtp w | .frnd w | .rcp w | .rsq w | .sqrt w | .exp2 w | .log2 w | .sin w
  | .cos w | .tanh w | .dot2 w | .dot4 w | .dot8 w | .mov w | .bcast w | .shfl w | .redq w
  | .ld w | .st w | .pref w | .discard w | .pst w | .atom w | .atomcas w | .fatom w | .red w
  | .shdw w | .accLd w => some w
  | .laneHint _ w => some w
  | _ => none

/-- The checks of R48 that need nothing but the instruction: type, operand codes and their alignment, capture,
the reserved and unused fields, the subfunction, and stick on an instruction that only a last member may be
(R40). -/
def Shape.legal (s : Shape) (rne : Bool) (w : LaneWord) : Bool :=
  s.ok && s.dst.accepts w.dst && s.a.accepts w.a && s.b.accepts w.b && s.c.accepts w.c && s.d.accepts w.d
  && (w.cap = 0 || (w.cap.toNat ≥ 4 && s.dst.captures w.dst))
  && (w.nw = 0 || (w.dst = 0x148 && s.dst.captures w.dst))
  && !bit w.sched.toNat 0
  && (s.slot || w.slot = 0) && (s.hint || w.hint = 0)
  && (w.rnd = 0 || (w.rnd ≤ 4 && s.rnd) || (w.rnd = 1 && rne))
  && (!w.sat || s.sat)
  && !(s.last && w.stick)

/-- Whether a lane instruction passes the checks of R48 that need nothing but itself; a hint passes unless the
reserved bit of its sched field is set (R39, R51). (DEDUCED, log 64.) -/
def laneLegal (i : Instr) : Bool :=
  match i with
  | .laneHint _ w => !bit w.sched.toNat 0
  | _ =>
    match shapeOf i, laneWord? i with
    | some s, some w => s.legal (fixedRne i) w && (match i with | .shdw w => w.cap = 0 | _ => true)
    | _, _ => false

/-- One more than the highest v register a lane instruction names; the allocation must reach it (R36). -/
def laneTop (i : Instr) : Nat :=
  match shapeOf i, laneWord? i with
  | some s, some w =>
    max (max (max (s.dst.top w.dst) (s.a.top w.a)) (max (s.b.top w.b) (s.c.top w.c))) (s.d.top w.d)
  | _, _ => 0

/-- The special-register numbers of R127. -/
def scrNumbers : List Nat :=
  [0x000, 0x001, 0x002, 0x003, 0x004, 0x008, 0x009, 0x00A, 0x00C, 0x00D, 0x00E, 0x010, 0x011, 0x014, 0x015,
   0x016, 0x020, 0x021, 0x040, 0x041, 0x042, 0x043, 0x048, 0x049, 0x04C, 0x04D, 0x050, 0x080, 0x081, 0x082,
   0x083, 0x084, 0x0C0, 0x0F0]

/-- Whether a scalar instruction holds only values its description admits (R47). -/
def scalarLegal (i : Instr) : Bool :=
  match i with
  | .scadd n _ _ _ => n.toNat ≤ 4
  | .sel cc _ _ _ => cc.toNat < 15
  | .satom scope op _ _ _ => scope.toNat < 5 && op.toNat < 10
  | .b cc _ => cc.toNat < 15
  | .bm _ sel _ => sel.toNat < 4
  | .bf cc _ => cc.toNat < 4
  | .msplit sd _ | .mjoin sd _ => sd.toNat ≥ 61
  | .fence scope => scope.toNat < 5
  | .waita cc _ _ _ => cc.toNat < 6
  | .rgnOpen _ mask => mask.toNat < 2 ^ 18
  | .copyq _ sa => 1 ≤ sa.toNat && sa.toNat ≤ 57
  | .scrRd _ n | .scrWr n _ => scrNumbers.contains n.toNat
  | _ => true

end Machine

end Sys2Proof
end

