-- ==== Sys2Proof/WellFormed.lean ====
section
/-! DEFINITION. Which instructions are well formed: those whose fields hold only what their descriptions admit
(R47, R48).  What depends on the kernel, the group or the run an instruction stands in is checked where it is
taken (Machine/Fetch.lean).
-/

namespace Sys2Proof

/-- Well-formedness of an instruction: a lane instruction passes the static checks of R48, a scalar one those of
R47; an event carries nothing to check. (DEDUCED, log 64.) -/
def Instr.wf (i : Instr) : Bool :=
  match Machine.laneWord? i with
  | some _ => Machine.laneLegal i
  | none => Machine.scalarLegal i

end Sys2Proof
end

