-- ==== Sys2Proof/Decode.lean ====
section
/-! DEFINITION. The decoder of both instruction streams and the encoder, from the tables of R30 to R35, R44 to
R46 and the encodings that the chapters give each instruction.
-/

namespace Sys2Proof

/-- Why a word is not an instruction (R47, R48). -/
inductive DecodeError where
  | reservedMajor
  | reservedFunc
  | reservedValue
  | nonzeroField
  | reservedOpcode
  | truncated
  deriving DecidableEq, Repr

/-- The S-R format (R30). -/
def wordSR (major : BitVec 6) (sd sa sb : Sreg) (func : BitVec 8) : Word := major ++ sd ++ sa ++ sb ++ func

/-- The S-I format (R30). -/
def wordSI (major : BitVec 6) (sd sa : Sreg) (imm : BitVec 14) : Word := major ++ sd ++ sa ++ imm

/-- The S-U format (R30). -/
def wordSU (major : BitVec 6) (sd : Sreg) (imm : BitVec 20) : Word := major ++ sd ++ imm

/-- The S-B and S-X formats (R30): four bits, then 22. -/
def wordSB (major : BitVec 6) (cond : BitVec 4) (off : BitVec 22) : Word := major ++ cond ++ off

/-- The first word of a scalar instruction (R44, R45); zero for what is none. -/
def scalarWord (i : Instr) : Word :=
  match i with
  | .add sd sa sb => wordSR 0x01 sd sa sb 0x00
  | .sub sd sa sb => wordSR 0x01 sd sa sb 0x01
  | .and sd sa sb => wordSR 0x01 sd sa sb 0x02
  | .or sd sa sb => wordSR 0x01 sd sa sb 0x03
  | .xor sd sa sb => wordSR 0x01 sd sa sb 0x04
  | .andn sd sa sb => wordSR 0x01 sd sa sb 0x05
  | .orn sd sa sb => wordSR 0x01 sd sa sb 0x06
  | .xnor sd sa sb => wordSR 0x01 sd sa sb 0x07
  | .shl sd sa sb => wordSR 0x01 sd sa sb 0x08
  | .shr sd sa sb => wordSR 0x01 sd sa sb 0x09
  | .sar sd sa sb => wordSR 0x01 sd sa sb 0x0A
  | .rol sd sa sb => wordSR 0x01 sd sa sb 0x0B
  | .ror sd sa sb => wordSR 0x01 sd sa sb 0x0C
  | .mul sd sa sb => wordSR 0x01 sd sa sb 0x10
  | .mulh sd sa sb => wordSR 0x01 sd sa sb 0x11
  | .mulhu sd sa sb => wordSR 0x01 sd sa sb 0x12
  | .div sd sa sb => wordSR 0x01 sd sa sb 0x14
  | .divu sd sa sb => wordSR 0x01 sd sa sb 0x15
  | .rem sd sa sb => wordSR 0x01 sd sa sb 0x16
  | .remu sd sa sb => wordSR 0x01 sd sa sb 0x17
  | .min sd sa sb => wordSR 0x01 sd sa sb 0x18
  | .max sd sa sb => wordSR 0x01 sd sa sb 0x19
  | .minu sd sa sb => wordSR 0x01 sd sa sb 0x1A
  | .maxu sd sa sb => wordSR 0x01 sd sa sb 0x1B
  | .cmp sa sb => wordSR 0x01 0 sa sb 0x20
  | .tst sa sb => wordSR 0x01 0 sa sb 0x21
  | .popc sd sa => wordSR 0x01 sd sa 0 0x28
  | .clz sd sa => wordSR 0x01 sd sa 0 0x29
  | .ctz sd sa => wordSR 0x01 sd sa 0 0x2A
  | .brev sd sa => wordSR 0x01 sd sa 0 0x2B
  | .scadd n sd sa sb => wordSR 0x01 sd sa sb (0b00110#5 ++ n)
  | .sel cc sd sa sb => wordSR 0x01 sd sa sb (0x4#4 ++ cc)
  | .addi sd sa imm => wordSI 0x02 sd sa imm
  | .andi sd sa imm => wordSI 0x03 sd sa imm
  | .ori sd sa imm => wordSI 0x04 sd sa imm
  | .xori sd sa imm => wordSI 0x05 sd sa imm
  | .shli sd sa n => wordSI 0x06 sd sa (0#8 ++ n)
  | .shri sd sa n => wordSI 0x07 sd sa (0#8 ++ n)
  | .sari sd sa n => wordSI 0x08 sd sa (0#8 ++ n)
  | .cmpi sa imm => wordSI 0x09 0 sa imm
  | .cmpui sa imm => wordSI 0x0A 0 sa imm
  | .muli sd sa imm => wordSI 0x0B sd sa imm
  | .lih sd imm => wordSU 0x0C sd imm
  | .addpc sd imm => wordSU 0x0D sd imm
  | .sldb sd sa imm => wordSI 0x0E sd sa imm
  | .sldh sd sa imm => wordSI 0x0F sd sa imm
  | .sldw sd sa imm => wordSI 0x10 sd sa imm
  | .sldd sd sa imm => wordSI 0x11 sd sa imm
  | .sldbx sd sa imm => wordSI 0x12 sd sa imm
  | .sldhx sd sa imm => wordSI 0x13 sd sa imm
  | .sldwx sd sa imm => wordSI 0x14 sd sa imm
  | .sstb sd sa imm => wordSI 0x15 sd sa imm
  | .ssth sd sa imm => wordSI 0x16 sd sa imm
  | .sstw sd sa imm => wordSI 0x17 sd sa imm
  | .sstd sd sa imm => wordSI 0x18 sd sa imm
  | .satom scope op sd sa sb => wordSR 0x19 sd sa sb (scope ++ op)
  | .b cc off => wordSB 0x1A cc off
  | .bm nz sel off => wordSB 0x1B (nz ++ sel) off
  | .bf cc off => wordSB 0x1C cc off
  | .call off => wordSB 0x1D 0 off
  | .lx n1 lidx => wordSB 0x1E n1 lidx
  | .lj lidx => wordSB 0x1F 0 lidx
  | .sqPush sa => wordSR 0x20 0 sa 0 0x00
  | .lqPop sd => wordSR 0x20 sd 0 0 0x01
  | .fqPop sd => wordSR 0x20 sd 0 0 0x02
  | .msplit sd sa => wordSR 0x21 sd sa 0 0x00
  | .mjoin sd sa => wordSR 0x21 sd sa 0 0x01
  | .fence scope => wordSR 0x22 0 0 0 (0#5 ++ scope)
  | .qfence sa => wordSR 0x22 0 sa 0 0x08
  | .waita cc sd sa sb => wordSR 0x22 sd sa sb (0b00010#5 ++ cc)
  | .walkPost sd sa sb => wordSR 0x23 sd sa sb 0x00
  | .walkStat sd sa => wordSR 0x23 sd sa 0 0x01
  | .walkAbort sa => wordSR 0x23 0 sa 0 0x02
  | .hndlPark sa => wordSR 0x23 0 sa 0 0x08
  | .hndlDone => wordSR 0x23 0 0 0 0x09
  | .taskAlloc sd sa sb => wordSR 0x24 sd sa sb 0x00
  | .taskPub sa sb => wordSR 0x24 0 sa sb 0x01
  | .taskSig sa => wordSR 0x24 0 sa 0 0x02
  | .taskSpawn sd sa => wordSR 0x24 sd sa 0 0x03
  | .taskExit sa => wordSR 0x24 0 sa 0 0x04
  | .stampSet sa sb => wordSR 0x25 0 sa sb 0x00
  | .stampGet sd sa sb => wordSR 0x25 sd sa sb 0x01
  | .stampInc sd sa sb => wordSR 0x25 sd sa sb 0x02
  | .stampEnter sd sa => wordSR 0x25 sd sa 0 0x03
  | .stampLeave sd sa => wordSR 0x25 sd sa 0 0x04
  | .frontWait sa sb => wordSR 0x25 0 sa sb 0x08
  | .frontTest sd sa sb => wordSR 0x25 sd sa sb 0x09
  | .frontHold sd sa sb => wordSR 0x25 sd sa sb 0x0A
  | .frontDrop sa => wordSR 0x25 0 sa 0 0x0B
  | .summLd sa => wordSR 0x25 0 sa 0 0x10
  | .rgnKeep sa sb => wordSR 0x26 0 sa sb 0x01
  | .rgnClose => wordSR 0x26 0 0 0 0x02
  | .rgnOpen sd rmask => wordSU 0x27 sd rmask
  | .sigChk _ => wordSU 0x28 0 0
  | .barInit sa sb => wordSR 0x29 0 sa sb 0x00
  | .barBind name sa => wordSR 0x29 0 sa 0 (0x1#4 ++ name)
  | .barExpect name sa => wordSR 0x29 0 sa 0 (0x2#4 ++ name)
  | .barArrive name sd => wordSR 0x29 sd 0 0 (0x3#4 ++ name)
  | .barWait name sa => wordSR 0x29 0 sa 0 (0x4#4 ++ name)
  | .barTry name sd sa => wordSR 0x29 sd sa 0 (0x5#4 ++ name)
  | .barDrop sa => wordSR 0x29 0 sa 0 0x60
  | .copyq sd sa => wordSR 0x2A sd sa 0 0x00
  | .yieldBar name par off => wordSB 0x2B name (par ++ off)
  | .wdqNext sa => wordSR 0x2C 0 sa 0 0x00
  | .pipeLim sa sb => wordSR 0x2C 0 sa sb 0x01
  | .scrRd sd n => wordSI 0x2D sd 0 (0#2 ++ n)
  | .scrWr n sa => wordSI 0x2E 0 sa (0#2 ++ n)
  | .nop => wordSR 0x2F 0 0 0 0x00
  | .trap n => wordSR 0x2F 0 0 n 0x01
  | .tret => wordSR 0x2F 0 0 0 0x02
  | .exit => wordSR 0x2F 0 0 0 0x03
  | .brk => wordSR 0x2F 0 0 0 0x04
  | .jr sa => wordSR 0x30 0 sa 0 0x00
  | .callr sa => wordSR 0x30 0 sa 0 0x01
  | _ => 0

/-- The second word of a scalar instruction: only SIG.CHK has one (R31). -/
def scalarWord2 (i : Instr) : Word :=
  match i with
  | .sigChk imm => imm
  | _ => 0

/-- The bytes a scalar instruction takes: 8 for SIG.CHK, else 4 (R31). -/
def scalarBytes (i : Instr) : Nat :=
  match i with
  | .sigChk _ => 8
  | _ => 4

/-- The opcode of a lane instruction (R46). -/
def laneOpcode (i : Instr) : BitVec 8 :=
  match i with
  | .iadd _ => 0x00
  | .isub _ => 0x01
  | .imul _ => 0x02
  | .imulh _ => 0x03
  | .imad _ => 0x04
  | .imin _ => 0x05
  | .imax _ => 0x06
  | .iabs _ => 0x07
  | .ineg _ => 0x08
  | .laneShl _ => 0x09
  | .laneShr _ => 0x0A
  | .laneSar _ => 0x0B
  | .lanePopc _ => 0x0C
  | .laneClz _ => 0x0D
  | .laneBrev _ => 0x0E
  | .laneAnd _ => 0x10
  | .laneOr _ => 0x11
  | .laneXor _ => 0x12
  | .not _ => 0x13
  | .lop3 _ => 0x14
  | .bfe _ => 0x15
  | .bfi _ => 0x16
  | .laneSel _ => 0x17
  | .fadd _ => 0x20
  | .fsub _ => 0x21
  | .fmul _ => 0x22
  | .fma _ => 0x23
  | .fmin _ => 0x24
  | .fmax _ => 0x25
  | .fabs _ => 0x26
  | .fneg _ => 0x27
  | .icmp _ => 0x40
  | .fcmp _ => 0x41
  | .pand _ => 0x42
  | .por _ => 0x43
  | .pxor _ => 0x44
  | .pnot _ => 0x45
  | .pmov _ => 0x46
  | .psum _ => 0x47
  | .ptoq _ => 0x48
  | .cvt _ => 0x50
  | .cvts _ => 0x51
  | .cvtp _ => 0x52
  | .frnd _ => 0x53
  | .rcp _ => 0x60
  | .rsq _ => 0x61
  | .sqrt _ => 0x62
  | .exp2 _ => 0x63
  | .log2 _ => 0x64
  | .sin _ => 0x65
  | .cos _ => 0x66
  | .tanh _ => 0x67
  | .dot2 _ => 0x70
  | .dot4 _ => 0x71
  | .dot8 _ => 0x72
  | .mov _ => 0x80
  | .bcast _ => 0x81
  | .shfl _ => 0x82
  | .redq _ => 0x83
  | .ld _ => 0x90
  | .st _ => 0x91
  | .pref _ => 0x92
  | .discard _ => 0x93
  | .pst _ => 0x94
  | .atom _ => 0xA0
  | .atomcas _ => 0xA1
  | .fatom _ => 0xA2
  | .red _ => 0xA3
  | .shdw _ => 0xB0
  | .accLd _ => 0xB1
  | .laneHint h _ => 0xF#4 ++ h
  | _ => 0

/-- The 96 bits of a lane word under an opcode (R34). -/
def laneBitsOf (op : BitVec 8) (w : LaneWord) : LaneBits :=
  op ++ w.ty ++ w.dst ++ w.cap ++ w.nw ++ w.a ++ w.b ++ w.c ++ w.d ++ w.g1 ++ w.g2 ++ w.slot ++ w.hint
    ++ w.sched ++ w.modB

/-- The fields of a lane instruction (R34). -/
def laneWordOf (x : LaneBits) : LaneWord :=
  { ty := x.extractLsb' 83 5, dst := x.extractLsb' 74 9, cap := x.extractLsb' 71 3, nw := x.extractLsb' 70 1,
    a := x.extractLsb' 61 9, b := x.extractLsb' 52 9, c := x.extractLsb' 43 9, d := x.extractLsb' 34 9,
    g1 := x.extractLsb' 30 4, g2 := x.extractLsb' 26 4, slot := x.extractLsb' 23 3, hint := x.extractLsb' 20 3,
    sched := x.extractLsb' 12 8, modB := x.extractLsb' 0 12 }

/-- The words of an instruction, the first at the lowest address: one or two for a scalar instruction (R30, R31),
three for a lane instruction (R34), none for an event. -/
def encode (i : Instr) : List Word :=
  match Machine.laneWord? i with
  | some w =>
    let x := laneBitsOf (laneOpcode i) w
    [x.extractLsb' 0 32, x.extractLsb' 32 32, x.extractLsb' 64 32]
  | none =>
    match i with
    | .sigChk imm => [scalarWord i, imm]
    | _ => if scalarWord i = 0 then [] else [scalarWord i]

/-- A decoded instruction, if the fields that must be zero are zero and its values are admitted (R47). -/
def accept (zero : Bool) (i : Instr) : Except DecodeError Instr :=
  if !zero then .error .nonzeroField
  else if Machine.scalarLegal i then .ok i
  else .error .reservedValue

/-- Major 0x01, by func (R45, R107, R112). -/
def decodeAlu (sd sa sb : Sreg) (func : BitVec 8) : Except DecodeError Instr :=
  match func.toNat with
  | 0x00 => accept true (.add sd sa sb)
  | 0x01 => accept true (.sub sd sa sb)
  | 0x02 => accept true (.and sd sa sb)
  | 0x03 => accept true (.or sd sa sb)
  | 0x04 => accept true (.xor sd sa sb)
  | 0x05 => accept true (.andn sd sa sb)
  | 0x06 => accept true (.orn sd sa sb)
  | 0x07 => accept true (.xnor sd sa sb)
  | 0x08 => accept true (.shl sd sa sb)
  | 0x09 => accept true (.shr sd sa sb)
  | 0x0A => accept true (.sar sd sa sb)
  | 0x0B => accept true (.rol sd sa sb)
  | 0x0C => accept true (.ror sd sa sb)
  | 0x10 => accept true (.mul sd sa sb)
  | 0x11 => accept true (.mulh sd sa sb)
  | 0x12 => accept true (.mulhu sd sa sb)
  | 0x14 => accept true (.div sd sa sb)
  | 0x15 => accept true (.divu sd sa sb)
  | 0x16 => accept true (.rem sd sa sb)
  | 0x17 => accept true (.remu sd sa sb)
  | 0x18 => accept true (.min sd sa sb)
  | 0x19 => accept true (.max sd sa sb)
  | 0x1A => accept true (.minu sd sa sb)
  | 0x1B => accept true (.maxu sd sa sb)
  | 0x20 => accept (sd = 0) (.cmp sa sb)
  | 0x21 => accept (sd = 0) (.tst sa sb)
  | 0x28 => accept (sb = 0) (.popc sd sa)
  | 0x29 => accept (sb = 0) (.clz sd sa)
  | 0x2A => accept (sb = 0) (.ctz sd sa)
  | 0x2B => accept (sb = 0) (.brev sd sa)
  | _ =>
    if func.extractLsb' 3 5 = 0b00110#5 && (func.extractLsb' 0 3).toNat ≤ 4 then
      accept true (.scadd (func.extractLsb' 0 3) sd sa sb)
    else if func.extractLsb' 4 4 = 4#4 then accept true (.sel (func.extractLsb' 0 4) sd sa sb)
    else .error .reservedFunc

/-- The starred majors from 0x20 on, by func (R45). -/
def decodeFunc (major : Nat) (sd sa sb : Sreg) (func : BitVec 8) : Except DecodeError Instr :=
  match major, func.toNat with
  | 0x20, 0x00 => accept (sd = 0 && sb = 0) (.sqPush sa)
  | 0x20, 0x01 => accept (sa = 0 && sb = 0) (.lqPop sd)
  | 0x20, 0x02 => accept (sa = 0 && sb = 0) (.fqPop sd)
  | 0x21, 0x00 => accept (sb = 0) (.msplit sd sa)
  | 0x21, 0x01 => accept (sb = 0) (.mjoin sd sa)
  | 0x22, 0x08 => accept (sd = 0 && sb = 0) (.qfence sa)
  | 0x22, f =>
    if f < 5 then accept (sd = 0 && sa = 0 && sb = 0) (.fence (func.extractLsb' 0 3))
    else if 0x10 ≤ f && f < 0x16 then accept true (.waita (func.extractLsb' 0 3) sd sa sb)
    else .error .reservedFunc
  | 0x23, 0x00 => accept true (.walkPost sd sa sb)
  | 0x23, 0x01 => accept (sb = 0) (.walkStat sd sa)
  | 0x23, 0x02 => accept (sd = 0 && sb = 0) (.walkAbort sa)
  | 0x23, 0x08 => accept (sd = 0 && sb = 0) (.hndlPark sa)
  | 0x23, 0x09 => accept (sd = 0 && sa = 0 && sb = 0) .hndlDone
  | 0x24, 0x00 => accept true (.taskAlloc sd sa sb)
  | 0x24, 0x01 => accept (sd = 0) (.taskPub sa sb)
  | 0x24, 0x02 => accept (sd = 0 && sb = 0) (.taskSig sa)
  | 0x24, 0x03 => accept (sb = 0) (.taskSpawn sd sa)
  | 0x24, 0x04 => accept (sd = 0 && sb = 0) (.taskExit sa)
  | 0x25, 0x00 => accept (sd = 0) (.stampSet sa sb)
  | 0x25, 0x01 => accept true (.stampGet sd sa sb)
  | 0x25, 0x02 => accept true (.stampInc sd sa sb)
  | 0x25, 0x03 => accept (sb = 0) (.stampEnter sd sa)
  | 0x25, 0x04 => accept (sb = 0) (.stampLeave sd sa)
  | 0x25, 0x08 => accept (sd = 0) (.frontWait sa sb)
  | 0x25, 0x09 => accept true (.frontTest sd sa sb)
  | 0x25, 0x0A => accept true (.frontHold sd sa sb)
  | 0x25, 0x0B => accept (sd = 0 && sb = 0) (.frontDrop sa)
  | 0x25, 0x10 => accept (sd = 0 && sb = 0) (.summLd sa)
  | 0x26, 0x01 => accept (sd = 0) (.rgnKeep sa sb)
  | 0x26, 0x02 => accept (sd = 0 && sa = 0 && sb = 0) .rgnClose
  | 0x2A, 0x00 => accept (sb = 0) (.copyq sd sa)
  | 0x2C, 0x00 => accept (sd = 0 && sb = 0) (.wdqNext sa)
  | 0x2C, 0x01 => accept (sd = 0) (.pipeLim sa sb)
  | 0x2F, 0x00 => accept (sd = 0 && sa = 0 && sb = 0) .nop
  | 0x2F, 0x01 => accept (sd = 0 && sa = 0) (.trap sb)
  | 0x2F, 0x02 => accept (sd = 0 && sa = 0 && sb = 0) .tret
  | 0x2F, 0x03 => accept (sd = 0 && sa = 0 && sb = 0) .exit
  | 0x2F, 0x04 => accept (sd = 0 && sa = 0 && sb = 0) .brk
  | 0x30, 0x00 => accept (sd = 0 && sb = 0) (.jr sa)
  | 0x30, 0x01 => accept (sd = 0 && sb = 0) (.callr sa)
  | _, _ => .error .reservedFunc

/-- Major 0x29, by operation and name (R45, R239). -/
def decodeBar (sd sa sb : Sreg) (func : BitVec 8) : Except DecodeError Instr :=
  let name := func.extractLsb' 0 4
  match (func.extractLsb' 4 4).toNat with
  | 0 => accept (sd = 0 && name = 0) (.barInit sa sb)
  | 1 => accept (sd = 0 && sb = 0) (.barBind name sa)
  | 2 => accept (sd = 0 && sb = 0) (.barExpect name sa)
  | 3 => accept (sa = 0 && sb = 0) (.barArrive name sd)
  | 4 => accept (sd = 0 && sb = 0) (.barWait name sa)
  | 5 => accept (sb = 0) (.barTry name sd sa)
  | 6 => accept (sd = 0 && sb = 0 && name = 0) (.barDrop sa)
  | _ => .error .reservedFunc

/-- The scalar instruction of a word and the word after it (R30 to R33, R44, R45). -/
def decodeScalar (w w2 : Word) : Except DecodeError Instr :=
  let sd : Sreg := w.extractLsb' 20 6
  let sa : Sreg := w.extractLsb' 14 6
  let sb : Sreg := w.extractLsb' 8 6
  let func : BitVec 8 := w.extractLsb' 0 8
  let imm14 : BitVec 14 := w.extractLsb' 0 14
  let imm20 : BitVec 20 := w.extractLsb' 0 20
  let cond : BitVec 4 := w.extractLsb' 22 4
  let off : BitVec 22 := w.extractLsb' 0 22
  let n6 : BitVec 6 := w.extractLsb' 0 6
  let z8 : Bool := w.extractLsb' 6 8 = 0#8
  match (w.extractLsb' 26 6).toNat with
  | 0x01 => decodeAlu sd sa sb func
  | 0x02 => accept true (.addi sd sa imm14)
  | 0x03 => accept true (.andi sd sa imm14)
  | 0x04 => accept true (.ori sd sa imm14)
  | 0x05 => accept true (.xori sd sa imm14)
  | 0x06 => accept z8 (.shli sd sa n6)
  | 0x07 => accept z8 (.shri sd sa n6)
  | 0x08 => accept z8 (.sari sd sa n6)
  | 0x09 => accept (sd = 0) (.cmpi sa imm14)
  | 0x0A => accept (sd = 0) (.cmpui sa imm14)
  | 0x0B => accept true (.muli sd sa imm14)
  | 0x0C => accept true (.lih sd imm20)
  | 0x0D => accept true (.addpc sd imm20)
  | 0x0E => accept true (.sldb sd sa imm14)
  | 0x0F => accept true (.sldh sd sa imm14)
  | 0x10 => accept true (.sldw sd sa imm14)
  | 0x11 => accept true (.sldd sd sa imm14)
  | 0x12 => accept true (.sldbx sd sa imm14)
  | 0x13 => accept true (.sldhx sd sa imm14)
  | 0x14 => accept true (.sldwx sd sa imm14)
  | 0x15 => accept true (.sstb sd sa imm14)
  | 0x16 => accept true (.ssth sd sa imm14)
  | 0x17 => accept true (.sstw sd sa imm14)
  | 0x18 => accept true (.sstd sd sa imm14)
  | 0x19 => accept true (.satom (func.extractLsb' 5 3) (func.extractLsb' 0 5) sd sa sb)
  | 0x1A => accept true (.b cond off)
  | 0x1B => accept true (.bm (cond.extractLsb' 3 1) (cond.extractLsb' 0 3) off)
  | 0x1C => accept true (.bf cond off)
  | 0x1D => accept (cond = 0) (.call off)
  | 0x1E => accept true (.lx cond off)
  | 0x1F => accept (cond = 0) (.lj off)
  | 0x27 => accept true (.rgnOpen sd imm20)
  | 0x28 => accept (sd = 0 && imm20 = 0) (.sigChk w2)
  | 0x29 => decodeBar sd sa sb func
  | 0x2B => accept true (.yieldBar cond (off.extractLsb' 21 1) (off.extractLsb' 0 21))
  | 0x2D => accept (sa = 0 && imm14.extractLsb' 12 2 = 0#2) (.scrRd sd (imm14.extractLsb' 0 12))
  | 0x2E => accept (sd = 0 && imm14.extractLsb' 12 2 = 0#2) (.scrWr (imm14.extractLsb' 0 12) sa)
  | major =>
    if major = 0 || 0x31 ≤ major then .error .reservedMajor else decodeFunc major sd sa sb func

/-- The lane instruction of an opcode and a word (R46); its legality is checked as LX takes it (R48). -/
def decodeLaneOp (op : BitVec 8) (w : LaneWord) : Except DecodeError Instr :=
  match op.toNat with
  | 0x00 => .ok (.iadd w)
  | 0x01 => .ok (.isub w)
  | 0x02 => .ok (.imul w)
  | 0x03 => .ok (.imulh w)
  | 0x04 => .ok (.imad w)
  | 0x05 => .ok (.imin w)
  | 0x06 => .ok (.imax w)
  | 0x07 => .ok (.iabs w)
  | 0x08 => .ok (.ineg w)
  | 0x09 => .ok (.laneShl w)
  | 0x0A => .ok (.laneShr w)
  | 0x0B => .ok (.laneSar w)
  | 0x0C => .ok (.lanePopc w)
  | 0x0D => .ok (.laneClz w)
  | 0x0E => .ok (.laneBrev w)
  | 0x10 => .ok (.laneAnd w)
  | 0x11 => .ok (.laneOr w)
  | 0x12 => .ok (.laneXor w)
  | 0x13 => .ok (.not w)
  | 0x14 => .ok (.lop3 w)
  | 0x15 => .ok (.bfe w)
  | 0x16 => .ok (.bfi w)
  | 0x17 => .ok (.laneSel w)
  | 0x20 => .ok (.fadd w)
  | 0x21 => .ok (.fsub w)
  | 0x22 => .ok (.fmul w)
  | 0x23 => .ok (.fma w)
  | 0x24 => .ok (.fmin w)
  | 0x25 => .ok (.fmax w)
  | 0x26 => .ok (.fabs w)
  | 0x27 => .ok (.fneg w)
  | 0x40 => .ok (.icmp w)
  | 0x41 => .ok (.fcmp w)
  | 0x42 => .ok (.pand w)
  | 0x43 => .ok (.por w)
  | 0x44 => .ok (.pxor w)
  | 0x45 => .ok (.pnot w)
  | 0x46 => .ok (.pmov w)
  | 0x47 => .ok (.psum w)
  | 0x48 => .ok (.ptoq w)
  | 0x50 => .ok (.cvt w)
  | 0x51 => .ok (.cvts w)
  | 0x52 => .ok (.cvtp w)
  | 0x53 => .ok (.frnd w)
  | 0x60 => .ok (.rcp w)
  | 0x61 => .ok (.rsq w)
  | 0x62 => .ok (.sqrt w)
  | 0x63 => .ok (.exp2 w)
  | 0x64 => .ok (.log2 w)
  | 0x65 => .ok (.sin w)
  | 0x66 => .ok (.cos w)
  | 0x67 => .ok (.tanh w)
  | 0x70 => .ok (.dot2 w)
  | 0x71 => .ok (.dot4 w)
  | 0x72 => .ok (.dot8 w)
  | 0x80 => .ok (.mov w)
  | 0x81 => .ok (.bcast w)
  | 0x82 => .ok (.shfl w)
  | 0x83 => .ok (.redq w)
  | 0x90 => .ok (.ld w)
  | 0x91 => .ok (.st w)
  | 0x92 => .ok (.pref w)
  | 0x93 => .ok (.discard w)
  | 0x94 => .ok (.pst w)
  | 0xA0 => .ok (.atom w)
  | 0xA1 => .ok (.atomcas w)
  | 0xA2 => .ok (.fatom w)
  | 0xA3 => .ok (.red w)
  | 0xB0 => .ok (.shdw w)
  | 0xB1 => .ok (.accLd w)
  | n => if 0xF0 ≤ n then .ok (.laneHint (op.extractLsb' 0 4) w) else .error .reservedOpcode

/-- The lane instruction of 96 bits (R34, R46). -/
def decodeLane (x : LaneBits) : Except DecodeError Instr := decodeLaneOp (x.extractLsb' 88 8) (laneWordOf x)

/-- The scalar instruction at the head of a list of words, with the words after it. -/
def decodeWords (ws : List Word) : Except DecodeError (Instr × List Word) :=
  match ws with
  | [] => .error .truncated
  | w :: rest =>
    match decodeScalar w (rest.headD 0) with
    | .error e => .error e
    | .ok i =>
      if scalarBytes i = 8 then
        match rest with
        | [] => .error .truncated
        | _ :: rest' => .ok (i, rest')
      else .ok (i, rest)

/-- The instruction that the decoders read from w, whose bits are numbered as the opcode table numbers them: a
lane instruction of 96 bits, or a scalar one of 32, whose second word holds the bits above. (DEDUCED, log 64.) -/
def decodeTableWord (nbits w : Nat) : Option Instr :=
  if nbits = 96 then
    match decodeLane (BitVec.ofNat 96 w) with
    | .ok i => if i.wf then some i else none
    | .error _ => none
  else
    match decodeScalar (BitVec.ofNat 32 w) (BitVec.ofNat 32 (w >>> 32)) with
    | .ok i => some i
    | .error _ => none

end Sys2Proof
end

