-- ==== Sys2Proof/Machine/Interleave.lean ====
section
/-! DEFINITION. Where a byte of device memory lies (R165), which die holds a line of CXL memory (R167), and what each
I/O die carries (R10): which stack, slice or die serves an access. -/

namespace Sys2Proof.Machine

/-- The 4 KiB granule of a device-memory address, as its quotient and remainder by the twelve stacks (R165). -/
def granuleOf (p : Nat) : Nat × Nat := (p / 4096 / 12, p / 4096 % 12)

/-- H, the rotation of a granule row (R165). -/
def rotationOf (q : Nat) : Nat :=
  (bits q 0 4 ^^^ bits q 4 4 ^^^ bits q 8 4 ^^^ bits q 12 4 ^^^ bits q 16 4 ^^^ bits q 20 4) % 12

/-- The stack that holds a byte (R165). -/
def stackOf (p : Nat) : Nat := ((granuleOf p).2 + rotationOf (granuleOf p).1) % 12

/-- The address of a byte within its stack (R165). -/
def stackAddr (p : Nat) : Nat := (granuleOf p).1 * 4096 + p % 4096

/-- The compute die whose L2 slice is the home of a byte of device memory (R165, R167). -/
def homeDie (p : Nat) : Nat := 2 * (stackOf p / 3) + (granuleOf p).1 % 2

/-- The I/O die that carries a fabric port (R10). -/
def portIoDie (port : Nat) : Nat := if port < 5 then 0 else if port < 9 then 1 else if port < 14 then 2 else 3

/-- The I/O die over which a stack lies (R10). -/
def stackIoDie (stack : Nat) : Nat := stack / 3

/-- The compute die that holds a line of memory behind a CXL port (R167). -/
def cxlHomeDie (port pa : Nat) : Nat := 2 * portIoDie port + bits pa 12 1

end Sys2Proof.Machine
end

