-- ==== Sys2Proof/Config.lean ====
section
/-! DEFINITION. What an implementation of the ZX9 fixes, and the free values of the model.

Every constant here is opaque: nothing in Lean can evaluate it, so a theorem holds whatever it is.  The free
values are applied to a counter of the state (`Mach.free`), so that each use is a fresh one.
-/

namespace Sys2Proof

/-- What the machine does next: the lane or scalar issue of a core (R97), one arithmetic cycle of a walk engine
(R277), or an event of the table. -/
inductive Move where
  | lane (core : Nat)
  | scalar (core : Nat)
  | engine (eng : Nat)
  | event (i : Instr)
  deriving DecidableEq, Repr, Inhabited

namespace Config

/-- The n-th choice of the implementation or the environment: which of the allowed alternatives happens.
(DESIGN CHOICE, log 5.) -/
opaque choice : Nat → Nat

/-- The n-th unstated value (R8). (DESIGN CHOICE, log 3.) -/
opaque freeDword : Nat → Dword

/-- The value of an indeterminate byte: of the declaration that made it indeterminate, and its place (R8).
(DESIGN CHOICE, log 3.) -/
opaque freeByte : Nat → Nat → Byte

/-- The move taken at the n-th step that nothing forces: the order of the module's independent units (R20).
(DESIGN CHOICE, log 5.) -/
opaque nextMove : Nat → Move

/-- Which of the results within the bound of R152 the design delivers, by function, format and operand
(R134: the same on every lane, core and run). (DEDUCED, log 14.) -/
opaque approx : Nat → Nat → Nat → Nat

/-- Whether an exact zero sum of a dot product under rounding toward −∞ is −0, where its terms are neither all
+0 nor all −0: the spec states no sign there (R154). (DESIGN CHOICE, log 3.) -/
opaque dotZeroNegative : Bool

/-- The arithmetic cycles after which the result of a lane instruction lets a dependent one issue, by the cycle in which it
issued and its group: the operand interlock, for which no rule gives a time (R39). (DESIGN CHOICE, log 5.) -/
opaque latency : Nat → Nat → Nat

/-- The version word of this design (R283, R375). (DESIGN CHOICE, log 16.) -/
opaque version : Word

/-- The check value of a body that a save image or a cast carries (R283, R375). (DESIGN CHOICE, log 16.) -/
opaque checkValue : List Nat → Dword

/-- The size in bytes of an image's body, by its kind and what it holds (R375). (DESIGN CHOICE, log 16.) -/
opaque bodySize : List Nat → Nat

/-- Whether a signature over a digest verifies against the fused keys: RSA-3072 PSS, then SLH-DSA (R424).
(DEDUCED, log 55.) -/
opaque rsaVerifies : BitVec 384 → List Byte → Bool

/-- (DEDUCED, log 55.) -/
opaque slhVerifies : BitVec 384 → List Byte → Bool

/-- The fused minimum version of the firmware (R424). (DEDUCED, log 55.) -/
opaque minVersion : BitVec 32

/-- The two signatures of an attestation report, by its content (R426). (DEDUCED, log 55.) -/
opaque rsaSign : List Nat → List Byte

/-- (DEDUCED, log 55.) -/
opaque slhSign : List Nat → List Byte

/-- The readings of the telemetry sensors at the n-th request (R427). (DESIGN CHOICE, log 56.) -/
opaque sensor : Nat → Nat → Nat

end Config

end Sys2Proof
end

