-- ==== Sys2Proof/Machine/Float.lean ====
section
/-! DEFINITION. Number formats, rounding, saturation and flags (R53 to R78), and the floating-point functions of a
single element.

A finite value is held exactly, as a sign, a natural and a power of two; every operation forms its exact result
and rounds once.
-/

namespace Sys2Proof.Machine

/-- The floating-point formats of R53. -/
inductive Fmt where
  | fp64
  | fp32
  | fp16
  | bf16
  | e4m3
  | e5m2
  | e2m1
  | e3m5
  deriving DecidableEq, Repr

/-- Exponent width (R53). -/
def Fmt.ew : Fmt → Nat
  | .fp64 => 11 | .fp32 => 8 | .fp16 => 5 | .bf16 => 8 | .e4m3 => 4 | .e5m2 => 5 | .e2m1 => 2 | .e3m5 => 3

/-- Mantissa width (R53). -/
def Fmt.mw : Fmt → Nat
  | .fp64 => 52 | .fp32 => 23 | .fp16 => 10 | .bf16 => 7 | .e4m3 => 3 | .e5m2 => 2 | .e2m1 => 1 | .e3m5 => 5

/-- Exponent bias (R53). -/
def Fmt.bias : Fmt → Nat
  | .fp64 => 1023 | .fp32 => 127 | .fp16 => 15 | .bf16 => 127 | .e4m3 => 7 | .e5m2 => 15 | .e2m1 => 1 | .e3m5 => 3

/-- Whether the format has a sign bit (R54). -/
def Fmt.hasSign : Fmt → Bool
  | .e3m5 => false
  | _ => true

/-- Whether the all-ones exponent is reserved for infinity and NaN (R53). -/
def Fmt.hasInf : Fmt → Bool
  | .fp64 | .fp32 | .fp16 | .bf16 | .e5m2 => true
  | _ => false

/-- Whether the format has signalling NaNs (R66). -/
def Fmt.hasSignalling : Fmt → Bool
  | .fp64 | .fp32 | .fp16 | .bf16 => true
  | _ => false

/-- The width of an encoding in bits (R54). -/
def Fmt.width (f : Fmt) : Nat := f.ew + f.mw + (if f.hasSign then 1 else 0)

/-- A value of some format: a NaN, signalling or not, an infinity, or ± m × 2^e exactly. -/
inductive FVal where
  | nan (signalling : Bool)
  | inf (neg : Bool)
  | fin (neg : Bool) (m : Nat) (e : Int)
  deriving DecidableEq, Repr

/-- The conditions that SCR_FPSTAT accumulates (R73). -/
structure FFlags where
  ov : Bool
  dz : Bool
  iv : Bool
  deriving DecidableEq, Repr

/-- No condition. -/
def FFlags.clear : FFlags := { ov := false, dz := false, iv := false }

/-- Invalid (R73). -/
def FFlags.invalid : FFlags := { ov := false, dz := false, iv := true }

/-- The union of two sets of conditions (R73). -/
def FFlags.or (a b : FFlags) : FFlags := { ov := a.ov || b.ov, dz := a.dz || b.dz, iv := a.iv || b.iv }

/-- The flags as the low bits of SCR_FPSTAT (R73). -/
def FFlags.word (f : FFlags) : Word :=
  BitVec.ofNat 32 ((if f.ov then 4 else 0) + (if f.dz then 2 else 0) + (if f.iv then 1 else 0))

/-- The rounding directions (R68). -/
inductive Rnd where
  | rne
  | rtz
  | rdn
  | rup
  deriving DecidableEq, Repr

/-- The direction of a two-bit field of SCR_MODE (R68). -/
def Rnd.ofCode : Nat → Rnd
  | 0 => .rne
  | 1 => .rtz
  | 2 => .rdn
  | _ => .rup

/-- The value of an encoding (R53 to R57). -/
def decodeF (f : Fmt) (code : Nat) : FVal :=
  let m := code % 2 ^ f.mw
  let e := (code >>> f.mw) % 2 ^ f.ew
  let neg := f.hasSign && code.testBit (f.ew + f.mw)
  if f.hasInf && e = 2 ^ f.ew - 1 then
    if m = 0 then .inf neg else .nan (f.hasSignalling && !m.testBit (f.mw - 1))
  else if f = .e4m3 && e = 15 && m = 7 then .nan false
  else if e = 0 then .fin neg m (1 - (f.bias : Int) - f.mw)
  else .fin neg (m + 2 ^ f.mw) ((e : Int) - f.bias - f.mw)

/-- The canonical NaN (R65); zero where the format has none (R67). -/
def canonicalNaN : Fmt → Nat
  | .fp64 => 0x7FF8000000000000 | .fp32 => 0x7FC00000 | .fp16 => 0x7E00 | .bf16 => 0x7FC0
  | .e4m3 => 0x7F | .e5m2 => 0x7E | .e2m1 => 0 | .e3m5 => 0

/-- The encoding of the largest finite magnitude (R53). -/
def maxFinite : Fmt → Nat
  | .fp64 => 0x7FEFFFFFFFFFFFFF | .fp32 => 0x7F7FFFFF | .fp16 => 0x7BFF | .bf16 => 0x7F7F
  | .e4m3 => 0x7E | .e5m2 => 0x7B | .e2m1 => 0x7 | .e3m5 => 0xFF

/-- The sign bit of an encoding. -/
def signBit (f : Fmt) (neg : Bool) : Nat := if neg && f.hasSign then 2 ^ (f.ew + f.mw) else 0

/-- The encoding of an infinity; E4M3 and the formats without either give what R71 gives. -/
def infCode (f : Fmt) (neg : Bool) : Nat := signBit f neg + (2 ^ f.ew - 1) * 2 ^ f.mw

/-- x × 2^e as a numerator over a denominator, for natural x. -/
def scaleUp (x : Nat) (e : Int) : Nat := x * 2 ^ e.toNat

/-- The exponent of the leading bit of the positive rational n / d × 2^e. -/
def leading (n d : Nat) (e : Int) : Int :=
  let j : Int := (n.log2 : Int) - d.log2
  let ge := scaleUp d j ≤ scaleUp n (-j)
  (if ge then j else j - 1) + e

/-- n / d × 2^e in units of 2^q, rounded to a natural in direction r; neg is the sign of the whole. -/
def roundUnits (r : Rnd) (neg : Bool) (n d : Nat) (e q : Int) : Nat :=
  let num := scaleUp n (e - q)
  let den := scaleUp d (q - e)
  let i := num / den
  let rem := num % den
  let up := match r with
    | .rne => den < 2 * rem || (2 * rem = den && i % 2 = 1)
    | .rtz => false
    | .rdn => neg && 0 < rem
    | .rup => !neg && 0 < rem
  if up then i + 1 else i

/-- The smallest exponent of a unit in the last place: that of the subnormals (R53, R55). -/
def Fmt.qmin (f : Fmt) : Int := 1 - (f.bias : Int) - f.mw

/-- What R71 delivers when a finite result overflows. -/
def overflowed (f : Fmt) (r : Rnd) (sat neg : Bool) : Nat :=
  let s := signBit f neg
  let toMax := match r with
    | .rne => false
    | .rtz => true
    | .rdn => !neg
    | .rup => neg
  match f with
  | .e2m1 | .e3m5 => s + maxFinite f
  | .e4m3 => if sat || toMax then s + maxFinite f else canonicalNaN .e4m3
  | _ => if sat || toMax then s + maxFinite f else infCode f neg

/-- RoundTo: the encoding of ± n / d × 2^e, rounded once, with its flags (R55, R69, R71). -/
def roundTo (f : Fmt) (r : Rnd) (sat neg : Bool) (n d : Nat) (e : Int) : Nat × FFlags :=
  if n = 0 then (signBit f neg, .clear)
  else
    let q := max (leading n d e - f.mw) f.qmin
    let i := roundUnits r neg n d e q
    let (i, q) := if i = 2 ^ (f.mw + 1) then (2 ^ f.mw, q + 1) else (i, q)
    if i < 2 ^ f.mw then (signBit f neg + i, .clear)
    else
      let ex := (q + f.bias + f.mw).toNat
      let mag := ex * 2 ^ f.mw + (i - 2 ^ f.mw)
      if maxFinite f < mag then (overflowed f r sat neg, { FFlags.clear with ov := true })
      else (signBit f neg + mag, .clear)

/-- An exact infinite result (R71). -/
def deliverInf (f : Fmt) (sat neg : Bool) : Nat :=
  match f with
  | .e4m3 => if sat then signBit f neg + maxFinite f else canonicalNaN .e4m3
  | .e2m1 | .e3m5 => signBit f neg + maxFinite f
  | _ => infCode f neg

/-- Rounds a value to a format; a NaN gives the canonical NaN, and no flag here. -/
def deliver (f : Fmt) (r : Rnd) (sat : Bool) : FVal → Nat × FFlags
  | .nan _ => (canonicalNaN f, .clear)
  | .inf neg => (deliverInf f sat neg, .clear)
  | .fin neg m e => roundTo f r sat neg m 1 e

/-- Whether a value is a NaN. -/
def FVal.isNaN : FVal → Bool
  | .nan _ => true
  | _ => false

/-- Whether a value is a signalling NaN. -/
def FVal.isSignalling : FVal → Bool
  | .nan s => s
  | _ => false

/-- Whether a value is a zero. -/
def FVal.isZero : FVal → Bool
  | .fin _ 0 _ => true
  | _ => false

/-- The sign of a value; a NaN has none. -/
def FVal.neg : FVal → Bool
  | .nan _ => false
  | .inf s => s
  | .fin s _ _ => s

/-- The value with its sign inverted. -/
def FVal.negate : FVal → FVal
  | .nan s => .nan s
  | .inf s => .inf !s
  | .fin s m e => .fin (!s) m e

/-- The product: exact, or a quiet NaN for 0 × ∞ (R141). -/
def FVal.mul : FVal → FVal → FVal
  | .nan _, _ => .nan false
  | _, .nan _ => .nan false
  | .inf s, y => if y.isZero then .nan false else .inf (s != y.neg)
  | x, .inf s => if x.isZero then .nan false else .inf (s != x.neg)
  | .fin s m e, .fin s' m' e' => .fin (s != s') (m * m') (e + e')

/-- The exact sum of two finite values as an integer in units of 2^e. -/
def alignedSum (s : Bool) (m : Nat) (e : Int) (s' : Bool) (m' : Nat) (e' : Int) : Int × Int :=
  let q := min e e'
  let x : Int := scaleUp m (e - q)
  let y : Int := scaleUp m' (e' - q)
  ((if s then -x else x) + (if s' then -y else y), q)

/-- The sum: exact, a quiet NaN for ∞ − ∞, and the sign of an exact zero as R141 gives it under r. -/
def FVal.add (r : Rnd) : FVal → FVal → FVal
  | .nan _, _ => .nan false
  | _, .nan _ => .nan false
  | .inf s, .inf s' => if s = s' then .inf s else .nan false
  | .inf s, _ => .inf s
  | _, .inf s => .inf s
  | .fin s m e, .fin s' m' e' =>
    let (i, q) := alignedSum s m e s' m' e'
    if i = 0 then
      let neg := if m = 0 && m' = 0 && s = s' then s else decide (r = .rdn)
      .fin neg 0 q
    else .fin (decide (i < 0)) i.natAbs q

/-- Whether the product is 0 × ∞ (R141). -/
def zeroTimesInf : FVal → FVal → Bool
  | .inf _, y => y.isZero
  | x, .inf _ => x.isZero
  | _, _ => false

/-- Whether the sum is ∞ − ∞ (R141). -/
def infMinusInf : FVal → FVal → Bool
  | .inf s, .inf s' => s != s'
  | _, _ => false

/-- An arithmetic result with the IV of R141: from signalling operands, and from an invalid combination. -/
def arith (f : Fmt) (r : Rnd) (sat : Bool) (ops : List FVal) (bad : Bool) (x : FVal) : Nat × FFlags :=
  let (c, fl) := deliver f r sat x
  (c, { fl with iv := fl.iv || bad || ops.any FVal.isSignalling })

/-- FADD and FSUB of two encodings (R140, R141). -/
def fAdd (f : Fmt) (r : Rnd) (sat sub : Bool) (a b : Nat) : Nat × FFlags :=
  let x := decodeF f a
  let y := decodeF f b
  let y' := if sub then y.negate else y
  arith f r sat [x, y] (infMinusInf x y') (x.add r y')

/-- FMUL (R140, R141). -/
def fMul (f : Fmt) (r : Rnd) (sat : Bool) (a b : Nat) : Nat × FFlags :=
  let x := decodeF f a
  let y := decodeF f b
  arith f r sat [x, y] (zeroTimesInf x y) (x.mul y)

/-- FMA: one rounding of a × b + c (R140, R141). -/
def fMulAdd (f : Fmt) (r : Rnd) (sat : Bool) (a b c : Nat) : Nat × FFlags :=
  let x := decodeF f a
  let y := decodeF f b
  let z := decodeF f c
  let p := x.mul y
  arith f r sat [x, y, z] (zeroTimesInf x y || infMinusInf p z) (p.add r z)

/-- Whether x is below y, with −0 below +0; NaNs do not reach here (R142). -/
def FVal.below : FVal → FVal → Bool
  | .inf s, y => s && y != .inf true
  | x, .inf s => !s && x != .inf false
  | .fin s m e, .fin s' m' e' =>
    let (i, _) := alignedSum s m e (!s') m' e'
    if m = 0 && m' = 0 then s && !s' else decide (i < 0)
  | _, _ => false

/-- FMIN and FMAX return one operand's bits (R142). -/
def fMinMax (f : Fmt) (isMax : Bool) (a b : Nat) : Nat × FFlags :=
  let x := decodeF f a
  let y := decodeF f b
  let fl := { FFlags.clear with iv := x.isSignalling || y.isSignalling }
  let res :=
    if x.isNaN && y.isNaN then canonicalNaN f
    else if x.isNaN then b
    else if y.isNaN then a
    else if x.below y then (if isMax then b else a)
    else if y.below x then (if isMax then a else b)
    else a
  (res, fl)

/-- FABS and FNEG (R143). -/
def fSign (f : Fmt) (isNeg : Bool) (a : Nat) : Nat × FFlags :=
  let x := decodeF f a
  let top := 2 ^ (f.ew + f.mw)
  let fl := { FFlags.clear with iv := x.isSignalling }
  if x.isNaN then (canonicalNaN f, fl)
  else if isNeg then (if top ≤ a then a - top else a + top, fl)
  else (a % top, fl)

/-- The conditions of FCMP by its subfunction: eq, ne, lt, le, gt, ge, un, ord (R144). -/
def fCompare (f : Fmt) (cc a b : Nat) : Bool × FFlags :=
  let x := decodeF f a
  let y := decodeF f b
  let un := x.isNaN || y.isNaN
  let eq := !un && ((x.isZero && y.isZero) || (!x.below y && !y.below x))
  let lt := !un && !eq && x.below y
  let gt := !un && !eq && y.below x
  let res := match cc with
    | 0 => eq
    | 1 => !eq
    | 2 => lt
    | 3 => lt || eq
    | 4 => gt
    | 5 => gt || eq
    | 6 => un
    | _ => !un
  (res, { FFlags.clear with iv := x.isSignalling || y.isSignalling })

/-- The flags of a value that R67 calls unrepresentable, and a value's conversion to a floating format: NaN to
E2M1 or E3M5 gives zero and IV, an infinity there the largest magnitude and IV; a negative value to E3M5 gives
zero, with IV unless it rounds to −0 (R65 to R67, R71). -/
def convertF (f : Fmt) (r : Rnd) (sat : Bool) (x : FVal) : Nat × FFlags :=
  match x with
  | .nan s =>
    match f with
    | .e2m1 | .e3m5 => (0, .invalid)
    | _ => (canonicalNaN f, { FFlags.clear with iv := s })
  | .inf neg =>
    match f with
    | .e2m1 => (signBit f neg + maxFinite f, .invalid)
    | .e3m5 => (if neg then 0 else maxFinite f, .invalid)
    | .e4m3 => (deliverInf f sat neg, .invalid)
    | _ => (infCode f neg, .clear)
  | .fin neg m e =>
    if f = .e3m5 && neg then
      let q := max (leading m 1 e - f.mw) f.qmin
      (0, if m = 0 || roundUnits r neg m 1 e q = 0 then .clear else .invalid)
    else roundTo f r sat neg m 1 e

/-- A value converted to an integer of w bits, signed or not: rounded, then R67's rows. -/
def convertI (w : Nat) (isSigned : Bool) (r : Rnd) (sat : Bool) (x : FVal) : Nat × FFlags :=
  let lo : Int := if isSigned then -(2 ^ (w - 1) : Int) else 0
  let hi : Int := if isSigned then 2 ^ (w - 1) - 1 else 2 ^ w - 1
  match x with
  | .nan _ => (0, .invalid)
  | .inf neg => (unsigned w (if neg then lo else hi), .invalid)
  | .fin neg m e =>
    let n := roundUnits r neg m 1 e 0
    let i : Int := if neg then -(n : Int) else n
    if lo ≤ i && i ≤ hi then (unsigned w i, .clear)
    else (unsigned w (if sat then clampInt i lo hi else i), .invalid)

/-- FRND: rounds an encoding to an integral value of its own format (R150). A negative value that rounds to zero gives −0:
R150 does not state the sign of that zero. (DESIGN CHOICE, log 69.) -/
def fRound (f : Fmt) (r : Rnd) (a : Nat) : Nat × FFlags :=
  match decodeF f a with
  | .nan s => (canonicalNaN f, { FFlags.clear with iv := s })
  | .inf _ => (a, .clear)
  | .fin neg m e =>
    if m = 0 || 0 ≤ e then (a, .clear)
    else
      let n := roundUnits r neg m 1 e 0
      if scaleUp n (-e) = m then (a, .clear) else ((roundTo f .rne false neg n 1 0).1, .clear)

/-- The integer square root of x, given fuel for one bit each: the largest s with s² ≤ x. -/
def isqrt : Nat → Nat → Nat → Nat
  | 0, _, s => s
  | k + 1, x, s =>
    let t := s + 2 ^ k
    isqrt k x (if t * t ≤ x then t else s)

/-- √(m × 2^e) with a sticky bit below its 130 leading bits: enough to round correctly in every format. -/
def sqrtVal (m : Nat) (e : Int) : Nat × Int :=
  let odd := e % 2 != 0
  let m1 := if odd then 2 * m else m
  let e1 := if odd then e - 1 else e
  let sh := 260 - m1.log2 + (260 - m1.log2) % 2
  let big := m1 * 2 ^ sh
  let s := isqrt (big.log2 / 2 + 1) big 0
  (2 * s + (if s * s = big then 0 else 1), (e1 - (sh : Int)) / 2 - 1)

/-- RCP, correctly rounded, with its special operands (R152, R153). -/
def fRcp (f : Fmt) (r : Rnd) (sat : Bool) (a : Nat) : Nat × FFlags :=
  match decodeF f a with
  | .nan s => (canonicalNaN f, { FFlags.clear with iv := s })
  | .inf neg => (signBit f neg, .clear)
  | .fin neg m e =>
    if m = 0 then (infCode f neg, { FFlags.clear with dz := true }) else roundTo f r sat neg 1 m (-e)

/-- SQRT, correctly rounded, with its special operands (R152, R153). -/
def fSqrt (f : Fmt) (r : Rnd) (sat : Bool) (a : Nat) : Nat × FFlags :=
  match decodeF f a with
  | .nan s => (canonicalNaN f, { FFlags.clear with iv := s })
  | .inf neg => if neg then (canonicalNaN f, .invalid) else (a, .clear)
  | .fin neg m e =>
    if m = 0 then (a, .clear)
    else if neg then (canonicalNaN f, .invalid)
    else
      let (s, q) := sqrtVal m e
      roundTo f r sat false s 1 q

/-- The encoding with its magnitudes counted through zero: −0 just below +0. -/
def ordinal (f : Fmt) (code : Nat) : Int :=
  let top := 2 ^ (f.ew + f.mw)
  if top ≤ code then -1 - ((code - top : Nat) : Int) else code

/-- The encoding at an ordinal. -/
def ofOrdinal (f : Fmt) (i : Int) : Nat :=
  if i < 0 then 2 ^ (f.ew + f.mw) + (-1 - i).toNat else i.toNat

/-- A signed fixed-point value n × 2^−256: the working form of the approximate functions, whose own error is
far below every bound of R152. -/
abbrev Fixed := Int

/-- Fractional bits of a `Fixed`. -/
def fixedBits : Nat := 256

/-- The `Fixed` nearest below ± m × 2^e. -/
def toFixed (neg : Bool) (m : Nat) (e : Int) : Fixed :=
  let x := scaleUp m (e + fixedBits) / 2 ^ (-(e + fixedBits)).toNat
  if neg then -(x : Int) else x

/-- The product of two fixed-point values. -/
def fixedMul (a b : Fixed) : Fixed := a * b / 2 ^ fixedBits

def fixedOne : Fixed := 2 ^ fixedBits

def piBits : Nat := 0x3243f6a8885a308d313198a2e03707344a4093822299f31d0082efa98ec4e6c89452821e638d01377be5466cf34e90c6c
def ln2Fixed : Fixed := 0xb17217f7d1cf79abc9e3b39803f2f6af40f343267298b62d8a0d175b8baafa2b
def log2eFixed : Fixed := 0x171547652b82fe1777d0ffda0d23a7d11d6aef551bad2b4b1164a2cd9a342648f

/-- Σ x^k / k! from the term already formed, over the given number of further terms. -/
def expSeries : Nat → Nat → Fixed → Fixed → Fixed
  | 0, _, _, t => t
  | n + 1, k, x, t => t + expSeries n (k + 1) x (fixedMul t x / (k : Int))

/-- e^x − 1 for small x. -/
def expm1Fixed (x : Fixed) : Fixed := expSeries 60 2 x x

/-- 2^x for x in [0, 1). -/
def exp2Fraction (x : Fixed) : Fixed := fixedOne + expm1Fixed (fixedMul x ln2Fixed)

/-- log2 of x in [1, 2), one bit for each squaring. -/
def log2Series : Nat → Fixed → Fixed → Fixed
  | 0, _, _ => 0
  | n + 1, x, w =>
    let y := fixedMul x x
    if 2 * fixedOne ≤ y then w + log2Series n (y / 2) (w / 2) else log2Series n y (w / 2)

/-- The alternating series of sine (k = 2, t = x) or cosine (k = 1, t = 1), by the square of x. -/
def trigSeries : Nat → Nat → Fixed → Fixed → Fixed
  | 0, _, _, t => t
  | n + 1, k, x2, t => t + trigSeries n (k + 2) x2 (-(fixedMul t x2) / ((k * (k + 1) : Nat) : Int))

/-- ± m × 2^e reduced modulo 2π into [0, 2π), with enough of π for every FP32 operand. -/
def reduceAngle (neg : Bool) (m : Nat) (e : Int) : Fixed :=
  let two := 2 * piBits
  let x : Int := scaleUp m (e + 384) / 2 ^ (-(e + 384)).toNat
  let r := (if neg then -x else x) % (two : Int)
  r / 2 ^ 128

/-- A real number as a fraction: neg, numerator, denominator exponent. -/
structure Real2 where
  n : Int
  e : Int
  deriving DecidableEq, Repr

/-- The encoding of a real rounded in a direction, saturating at the largest magnitude. -/
def Real2.code (f : Fmt) (r : Rnd) (x : Real2) : Nat := (roundTo f r true (decide (x.n < 0)) x.n.natAbs 1 x.e).1

/-- x + y × 2^q. -/
def Real2.plus (x : Real2) (y : Int) (q : Int) : Real2 :=
  let p := min x.e q
  { n := x.n * 2 ^ (x.e - p).toNat + y * 2 ^ (q - p).toNat, e := p }

/-- Twice the exponent of the unit in the last place at x: the exponent of its half unit plus one. -/
def ulpExp (f : Fmt) (x : Real2) : Int :=
  if x.n = 0 then f.qmin else max (leading x.n.natAbs 1 x.e - f.mw) f.qmin

/-- A number for a format, by which the design's choices are told apart. -/
def Fmt.key : Fmt → Nat
  | .fp64 => 0 | .fp32 => 1 | .fp16 => 2 | .bf16 => 3 | .e4m3 => 4 | .e5m2 => 5 | .e2m1 => 6 | .e3m5 => 7

/-- The delivered encoding of an approximate function: one, fixed for the design, among the encodings within
y × 2^q of the exact value x, the correctly rounded one among them (R134, R152). (DEDUCED, log 14.) -/
def within (f : Fmt) (fn a : Nat) (x : Real2) (y : Int) (q : Int) : Nat :=
  let near := ordinal f (x.code f .rne)
  let lo := min near (ordinal f ((x.plus (-y) q).code f .rup))
  let hi := max near (ordinal f ((x.plus y q).code f .rdn))
  let span := (hi - lo + 1).toNat
  ofOrdinal f (lo + ((Config.approx fn f.key a % span : Nat) : Int))

/-- The error allowed in units of the last place: 2 for FP32, 1 for the packed formats (R152). (DEDUCED, log 14.) -/
def ulps (f : Fmt) : Int := if f = .fp32 then 2 else 1

/-- An approximate result with overflow (R152): where the exact value rounds beyond the largest finite one, ±∞
or with sat the largest, and OF. (DEDUCED, log 14.) -/
def approxTo (f : Fmt) (sat : Bool) (fn a : Nat) (x : Real2) (y q : Int) : Nat × FFlags :=
  let (c, fl) := roundTo f .rne sat (decide (x.n < 0)) x.n.natAbs 1 x.e
  if fl.ov then (c, fl) else (within f fn a x y q, .clear)

/-- RSQ: 1/√a, error below 1 ulp, with its special operands (R152, R153).  Any encoding so near may be delivered: one that
differs from 1/√a by less than 1 ulp differs by less than 1 − 2^−200 ulp, since a times the square of a neighbour is never
nearer to 1. (DEDUCED, log 14.) -/
def fRsq (f : Fmt) (sat : Bool) (a : Nat) : Nat × FFlags :=
  match decodeF f a with
  | .nan s => (canonicalNaN f, { FFlags.clear with iv := s })
  | .inf neg => if neg then (canonicalNaN f, .invalid) else (0, .clear)
  | .fin neg m e =>
    if m = 0 then (infCode f neg, { FFlags.clear with dz := true })
    else if neg then (canonicalNaN f, .invalid)
    else
      let (s, q) := sqrtVal m e
      let x : Real2 := { n := (2 ^ 520 / s : Nat), e := -520 - q }
      let u := ulpExp f x
      approxTo f sat 1 a x (2 ^ 200 - 1) (u - 200)

/-- EXP2 (R152, R153). (DEDUCED, log 14.) -/
def fExp2 (f : Fmt) (sat : Bool) (a : Nat) : Nat × FFlags :=
  match decodeF f a with
  | .nan s => (canonicalNaN f, { FFlags.clear with iv := s })
  | .inf neg => if neg then (0, .clear) else (infCode f false, .clear)
  | .fin neg m e =>
    let big := 9 < leading m 1 e
    if m ≠ 0 && big then
      if neg then approxTo f sat 2 a { n := 1, e := -600 } (ulps f) f.qmin
      else (overflowed f .rne sat false, { FFlags.clear with ov := true })
    else
      let x := toFixed neg m e
      let whole := x / fixedOne
      let part := x % fixedOne
      if m = 0 || (0 ≤ e || m % 2 ^ (-e).toNat = 0) then
        approxTo f sat 2 a { n := 1, e := whole } (if whole < f.qmin then ulps f else 0) f.qmin
      else
        let y : Real2 := { n := exp2Fraction part, e := whole - fixedBits }
        approxTo f sat 2 a y (ulps f) (ulpExp f y)

/-- LOG2 (R152, R153). (DEDUCED, log 14.) -/
def fLog2 (f : Fmt) (a : Nat) : Nat × FFlags :=
  match decodeF f a with
  | .nan s => (canonicalNaN f, { FFlags.clear with iv := s })
  | .inf neg => if neg then (canonicalNaN f, .invalid) else (infCode f false, .clear)
  | .fin neg m e =>
    if m = 0 then (infCode f true, { FFlags.clear with dz := true })
    else if neg then (canonicalNaN f, .invalid)
    else
      let k := (m.log2 : Int) + e
      if m = 2 ^ m.log2 then ((roundTo f .rne false (decide (k < 0)) k.natAbs 1 0).1, .clear)
      else
        let x := toFixed false m (-(m.log2 : Int))
        let y : Real2 := { n := k * fixedOne + log2Series 100 x (fixedOne / 2), e := -fixedBits }
        if k = 0 || k = -1 then (within f 3 a y 1 (-22), .clear)
        else (within f 3 a y (ulps f) (ulpExp f y), .clear)

/-- SIN and COS (R152, R153): absolute error at most 2^−21. (DEDUCED, log 14.) -/
def fTrig (f : Fmt) (isCos : Bool) (a : Nat) : Nat × FFlags :=
  match decodeF f a with
  | .nan s => (canonicalNaN f, { FFlags.clear with iv := s })
  | .inf _ => (canonicalNaN f, .invalid)
  | .fin neg m e =>
    if m = 0 then (if isCos then (roundTo f .rne false false 1 1 0).1 else a, .clear)
    else
      let x := reduceAngle neg m e
      let x2 := fixedMul x x
      let y := if isCos then trigSeries 60 1 x2 fixedOne else trigSeries 60 2 x2 x
      (within f (if isCos then 5 else 4) a { n := y, e := -fixedBits } 1 (-21), .clear)

/-- TANH (R152, R153): exactly ±1 from magnitude 9 on. (DEDUCED, log 14.) -/
def fTanh (f : Fmt) (a : Nat) : Nat × FFlags :=
  let one (neg : Bool) := (roundTo f .rne false neg 1 1 0).1
  match decodeF f a with
  | .nan s => (canonicalNaN f, { FFlags.clear with iv := s })
  | .inf neg => (one neg, .clear)
  | .fin neg m e =>
    if m = 0 then (a, .clear)
    else if 9 ≤ scaleUp m e / 2 ^ (-e).toNat then (one neg, .clear)
    else
      let y := toFixed false (2 * m) e
      let z :=
        if y < fixedOne then expm1Fixed y
        else
          let t := fixedMul y log2eFixed
          exp2Fraction (t % fixedOne) * 2 ^ (t / fixedOne).toNat - fixedOne
      let q := z * 2 ^ 600 / (z + 2 * fixedOne)
      let x : Real2 := { n := if neg then -q else q, e := -600 }
      (within f 6 a x (ulps f) (ulpExp f x), .clear)

/-- The scaled value of an element (R59), with the IV of CVTS: a signalling band scale, or case 3. -/
def scaledValue (el blk band : FVal) : FVal × Bool :=
  if blk.isZero then (.fin false 0 0, false)
  else if el.isNaN || band.isNaN then (.nan false, el.isSignalling || band.isSignalling)
  else if zeroTimesInf el band then (.nan false, true)
  else ((el.mul blk).mul band, false)

/-- The exact sum of a granule's products (R76): NaN from a NaN factor, 0 × ∞ or opposite infinities; an exact
zero is +0 unless every term is −0. -/
def granuleSum (ps : List FVal) : FVal :=
  match ps with
  | [] => .fin false 0 0
  | p :: rest => rest.foldl (fun acc x => acc.add .rne x) p

/-- One step of an accumulator: acc + s rounded to nearest, no saturation (R76). -/
def accumulate (f : Fmt) (acc : Nat) (s : FVal) : Nat := (deliver f .rne false ((decodeF f acc).add .rne s)).1

end Sys2Proof.Machine
end

