-- ==== Sys2Proof/Machine/State.lean ====
section
/-! DEFINITION. The state of the module: every piece of state the spec names, as plain data, and the state
right after reset.

Keyed collections are association lists with strictly rising keys (`AMap`); the one memory is such a list of
cells, over the key space that `Loc.key` (Machine/Ops.lean) lays out for device memory, the on-chip stores and
the memory behind the fabric.
-/

namespace Sys2Proof.Machine

/-- A finite map with natural keys, kept with strictly rising keys. -/
abbrev AMap (α : Type) := List (Nat × α)

/-- The trap causes of R365, in its order. -/
inductive Cause where
  | illegal | featureAbsent | scalarPcRange | lanePcRange | misaligned | misalignedPc | software | breakpoint
  | queueDeadlock | operandRange | exitInRegion
  | notPresent | permission | reservedBit | accessKind | windowRange | windowProtection | noTarget | pstTarget
  | publishInRegion | regionDepth | regionQueue | regionLog | keepLogFull | regionState
  | barrierNotLive | barrierOverArrival | barrierBusy | barrierLive | barrierUnbound | barrierWindow
  | barrierRange | copyEntry | copyFault
  | walkRecord | reentrantWalk | handlerState | handlerWait | accumulatorType
  | invalidStamp | undeclaredNode | summaryImage | summaryRegress | stampRegress | stampOverflow
  | frontierSelfWait | holdLimit | holdHandle
  | staleHandle | overSignal | taskPacket | taskState | taskPool | tasksOpen
  | workQueryInRegion | workAnswer
  | detectedError | rollbackFault | trapOverflow | doubleTrap | laneFaultAbandoned | noProgressWatchdog
  | saveWatchdog | restoreFault | hostKill
  deriving DecidableEq, Repr

/-- The scalar flags (R105). -/
structure Flags where
  z : Bool
  n : Bool
  c : Bool
  v : Bool
  deriving DecidableEq, Repr

/-- A lane instruction in the lane issue queue (R83, R85): the instruction, or the trap it raises as it would
issue (R48), its sampled masks and mode, the scalar registers that its sources name as they stand at its place in
program order (R82), its lane PC, how many instructions of its run are left with it, the scalar resume address, whether it
is still to be folded into the signature (R336), whether it issues again because its chain restarts (R160), and the injection
that was armed for it (R126, R344). -/
structure LiqEntry where
  ins    : Option Instr
  bad    : Option (Cause × Dword)
  m0     : Word
  m1     : Word
  m2     : Word
  mode   : Word
  svals  : List (Nat × Dword)
  lpc    : Nat
  left   : Nat
  resume : Dword
  fold   : Bool
  again  : Bool
  inject : Option (Nat × Nat)
  deriving DecidableEq, Repr

/-- The four queues of a group (R86). -/
structure Queues where
  sq  : List Word
  lq  : List Word
  fq  : List (BitVec 2)
  liq : List LiqEntry
  deriving DecidableEq, Repr

/-- The rest of a run that LX or TRET is still taking (R83, R124). -/
structure LxPending where
  left   : Nat
  resume : Dword
  deriving DecidableEq, Repr

/-- The result of a shadowed member, by lane, for the SHDW that checks it (R159). -/
structure ShadowResult where
  reg  : Nat
  wide : Bool
  vals : AMap Dword
  deriving DecidableEq, Repr

/-- A stick chain under way (R40, R94, R95): the entries issued so far, the SQ entries popped, the latches
captured (by latch × 128 + lane), and the results of its shadowed members, newest first. -/
structure Chain where
  issued  : List LiqEntry
  popped  : List Word
  latches : AMap Dword
  shadows : List ShadowResult
  deriving DecidableEq, Repr

/-- A pending trap (R367), with what its vector entry said when it was raised (R366) and the lane PCs of its run
that are already folded (R336). -/
structure TrapRec where
  tcause : Word
  tspc   : Dword
  tlpc   : Nat
  taddr  : Dword
  tmemb  : Nat
  lxrem  : Nat
  folded : Nat × Nat
  disp   : Nat
  target : Nat
  deriving DecidableEq, Repr

/-- A kept range with its old bytes (R327). -/
structure KeepRec where
  addr  : Dword
  bytes : List Byte
  deriving DecidableEq, Repr

/-- A region on the stack (R322, R324): its entry PCs, mask, retry count, the log top at its opening and at the
end of its shadow storage, what it snapshot, and its KEEP records, newest first. -/
structure Region where
  spc     : Dword
  lpc     : Nat
  mask    : BitVec 20
  retry   : Nat
  prevTop : Nat
  shadTop : Nat
  mode    : Word
  fpstat  : Word
  vregs   : AMap Word
  scalars : Vector Dword 64
  flags   : Flags
  preds   : Vector (BitVec 96) 7
  keeps   : List KeepRec
  deriving DecidableEq, Repr

/-- The live log area of a group: an offset in the team's share, its size in bytes and its top (R323, R325). -/
structure LogArea where
  off  : Nat
  size : Nat
  top  : Nat
  deriving DecidableEq, Repr

/-- One item of the signature that waits its turn: a scalar fold code, or a taken lane instruction (R336). -/
inductive SigItem where
  | code (c : Dword)
  | hole
  deriving DecidableEq, Repr

/-- An entry of an engine queue that a QFENCE waits for (R186). -/
inductive EngineEntry where
  | copy (team : Nat) (ix : BitVec 32)
  | walk (id : Nat)
  | pst (id : Nat)
  deriving DecidableEq, Repr

/-- A QFENCE whose named entries are not all performed: the queues it names and what it waits for (R186). -/
structure Join where
  set   : BitVec 5
  waits : List EngineEntry
  deriving DecidableEq, Repr

/-- Why a group waits: to try its instruction again, at a BAR.WAIT on a slot of its team's share, or for the phase
of its YIELD.BAR there (R241, R253). -/
inductive WaitWhy where
  | retry
  | barrier (slot : Nat)
  | phase (slot phase : Nat)
  deriving DecidableEq, Repr

/-- A BAR.WAIT under way (R238, R241): on a slot of its team's share that its name stood for as it issued, until a phase
is over; or woken by the end of that phase (R234). -/
inductive BarWait where
  | on (slot phase : Nat)
  | over
  deriving DecidableEq, Repr

/-- What a Trapped group does: runs its handler, is stopped, or waits for the host (R366, R368). -/
inductive TrapMode where
  | running
  | stopped
  | host
  deriving DecidableEq, Repr

/-- The states of a group (R80).  Saved is the flag `Group.saved` beside the prior state; an Ended or killed group
has no record any more: its slot is free. -/
inductive GState where
  | ready
  | waiting (w : WaitWhy)
  | trapped (t : TrapMode)
  | held (lanesLeft : Nat)
  | heldHost
  | parked (since : Nat)
  deriving DecidableEq, Repr

/-- A walk record as read (R258). -/
structure WalkRec where
  m      : Nat
  n      : Nat
  k      : Nat
  g      : Nat
  tk     : Nat
  tn     : Nat
  tm     : Nat
  spmax  : Nat
  prio   : Nat
  width  : Nat
  pool   : Nat
  bswz   : Nat
  aswz   : Nat
  depth  : Nat
  pd     : Nat
  spawn  : Bool
  init   : Bool
  accfmt : Nat
  bslot  : Nat
  aslot  : Nat
  cw     : Nat
  order  : Nat
  bent   : Nat
  aent   : Nat
  ient   : Nat
  dent   : Nat
  tag    : Word
  node   : Nat
  stamp  : Dword
  deriving DecidableEq, Repr

/-- A WALK.POST whose record is read and whose count is taken, and which waits for a free intake entry (R265): the address
of the instruction, and of the record. -/
structure Posting where
  spc  : Dword
  addr : Dword
  wrec : WalkRec
  eng  : Nat
  deriving DecidableEq, Repr

/-- What a group is: a group of a kernel's team, a spawned handler (R269), a task group (R320) or a compacted
handler group (R371). -/
inductive GKind where
  | kernel
  | handler
  | task
  | compacted
  deriving DecidableEq, Repr

/-- The non-posted fabric accesses of a group's instruction (R414, R417): none; outstanding, so many on each of some
ports, with the ports on which others were ended by timeout or fence; or all completed or ended. -/
inductive Fabric where
  | none
  | pending (waits : List (Nat × Nat)) (failed : List Nat)
  | done (failed : List Nat)
  deriving DecidableEq, Repr

/-- What an instruction's accesses over the fabric carry with them: the route table as they were sent (R411), and for those
of 16 bytes, which are two of 8 (R170), the seed of the choice which half is performed early, and the early halves read, by
lane. -/
structure Flight where
  routes : Vector Dword 64
  seed   : Nat
  halves : AMap Dword
  deriving DecidableEq, Repr

/-- The state of a register's check field (R333); an absent one is None. -/
inductive Check where
  | pending
  | valid (code : Nat)
  deriving DecidableEq, Repr

/-- The origin of a compacted lane: its group and lane (R372). -/
structure Origin where
  lane  : Nat
  group : Nat
  deriving DecidableEq, Repr

/-- The context of a group (R79), with its place; `stuck` says that the scalar instruction of a group that is not Waiting
waits all the same, as one of a Trapped group's handler does, or one whose trap waits for queued lanes (R123). -/
structure Group where
  ctx    : Nat
  kern   : Nat
  team   : Nat
  kind   : GKind
  core   : Nat
  slot   : Nat
  gidx   : Nat
  width  : Nat
  nregs  : Nat
  st     : GState
  saved  : Bool
  regs   : Vector Dword 64
  flags  : Flags
  spc    : Dword
  lpc    : Nat
  v      : AMap Word
  preds  : Vector (BitVec 96) 7
  chk    : AMap Check
  qs     : Queues
  aside  : Option Queues
  asideWait : Option WaitWhy
  lx     : Option LxPending
  chain  : Option Chain
  mode   : Word
  fpstat : Word
  dlq    : Nat
  lxrem  : Nat
  node   : Nat
  stamp  : Dword
  own    : Bool
  sig    : Dword
  sigq   : List SigItem
  rgn    : List Region
  log    : Option LogArea
  rolls  : Nat
  src    : Nat
  tcause : Word
  tspc   : Dword
  tlpc   : Nat
  taddr  : Dword
  tmemb  : Nat
  folded : Nat × Nat
  inject : Option (Nat × Nat)
  traps  : List TrapRec
  serving : Option Nat
  pool   : Nat
  tasks  : AMap Nat
  origins : List Origin
  stuck  : Bool
  readyAt : Nat
  issuedAt : Nat
  throttledAt : Option Nat
  ready  : AMap Nat
  waitedFrom : Option Nat
  bar    : Option BarWait
  fabric : Fabric
  flight : Option Flight
  posting : Option Posting
  joins  : List Join
  deriving DecidableEq, Repr

/-- A binding that a BAR.BIND replaced and that other groups may still see (R237): the name, what it stood for, who bound
it anew, whether that group has released since, and the groups that have acquired after that. -/
structure OldBind where
  name : Nat
  old  : Option Nat
  by_  : Nat
  released : Bool
  seen : List Nat
  deriving DecidableEq, Repr

/-- A copy-ring entry that its engine has begun (R238, R244): its four words, the slot that its rows are subtracted from,
and the rows performed. -/
structure CopyRun where
  words : List Dword
  slot  : Option Nat
  rows  : Nat
  deriving DecidableEq, Repr

/-- Who published a copy-ring entry, and what its QFENCE orders before it (R246, R202). -/
structure Publication where
  ix    : BitVec 32
  group : Nat
  after : List EngineEntry
  deriving DecidableEq, Repr

/-- A live barrier slot (R233), keyed by its byte position over the module's scratchpads. -/
structure BSlot where
  team   : Nat
  pend   : Int
  xbytes : Nat
  arr    : Nat
  mem    : Nat
  cm     : Bool
  phase  : Nat
  deriving DecidableEq, Repr

/-- A team (R21): its place, whether it spans two cores, share, frame, barrier bindings by offset in the share, with those
replaced not long ago, pipeline depth and copy ring, with the entry that its engine has begun, and whose engine may still
have to see that its halt bit was cleared; while it is saved, the bytes of its share and its live slots by offset (R375). -/
structure Team where
  kern   : Nat
  ctx    : Nat
  t      : Nat
  spans  : Bool
  share  : Nat
  size   : Nat
  frame  : Nat
  saved  : Bool
  binds  : List (Option Nat)
  olds   : List OldBind
  depth  : Nat
  dmin   : Nat
  dmax   : Nat
  limits : Option (Nat × Nat)
  timed  : Bool
  lats   : List Nat
  notify : BitVec 32
  head   : BitVec 32
  halt   : Bool
  resuming : Bool
  cause  : Nat
  pubs   : List Publication
  run    : Option CopyRun
  bytes  : List Byte
  held   : List (Nat × BSlot)
  deriving DecidableEq, Repr

/-- A launch record as read (R350). -/
structure LaunchRec where
  sbase   : Dword
  lbase   : Dword
  llen    : Nat
  slen    : Nat
  entry   : Nat
  gx      : Nat
  gy      : Nat
  gz      : Nat
  scratch : Nat
  regs    : Nat
  coop    : Bool
  wcode   : Nat
  tgroups : Nat
  node    : Nat
  reqfeat : Nat
  stamp   : Dword
  args    : Dword
  scale   : Dword
  priv    : Dword
  frames  : Nat
  slice   : Nat
  wq      : Bool
  wqlog   : Nat
  wx      : Nat
  wy      : Nat
  slots   : List Dword
  deriving DecidableEq, Repr

/-- The states of a kernel (R352). -/
inductive KState where
  | admitting
  | resident
  | draining
  | complete
  | refused
  | aborted
  deriving DecidableEq, Repr

/-- A kernel: its launch record, its life, its work queue, with the queue's bytes while its context is saved (R375), the
queries on it, and those of them that wait at the distributor for a record (R352 to R357). -/
structure Kernel where
  ctx     : Nat
  queue   : Nat
  pos     : Nat
  die     : Nat
  addr    : Dword
  lrec    : LaunchRec
  st      : KState
  nextTeam : Nat
  killed  : Nat
  wqBase  : Option Nat
  wqBytes : List Byte
  wqHead  : Nat
  wqCount : Nat
  closed  : Bool
  nextItem : Nat
  queries : List (Nat × Dword)
  parked  : List (Nat × Dword)
  deriving DecidableEq, Repr

/-- The states of a walk (R267). -/
inductive WState where
  | posted
  | queued
  | walking
  | stalled
  | frozen
  | draining
  | done
  | aborted
  deriving DecidableEq, Repr

/-- A slot of a walk's armature reservation (R263): where it lies, the pair it is summoned for and whether it is
filled. -/
structure ASlot where
  off    : Nat
  pair   : Option Nat
  filled : Bool
  deriving DecidableEq, Repr

/-- A walk's progress on one of its engines: its slots, the next pair to summon, the next tile to summon an
init for, the bank of its tile in accumulation, and the drains not yet returned, by tile. -/
structure Part where
  aslots : List ASlot
  bslots : List ASlot
  islot  : Option ASlot
  nextPair : Nat
  nextInit : Nat
  bank   : Option Nat
  toDrain : List (Nat × Nat)
  drains : List Nat
  deriving DecidableEq, Repr

/-- The states of an accumulator bank (R275). -/
inductive BankState where
  | free
  | accumulating
  | awaiting
  | draining
  deriving DecidableEq, Repr

/-- An accumulator bank: its state, walk and tile, its elements by row × 1024 + column, and the elements whose
check bits disagree (R276). -/
structure Bank where
  st   : BankState
  walk : Nat
  tile : Nat
  rows : Nat
  cols : Nat
  acc  : AMap Dword
  bad  : List Nat
  deriving DecidableEq, Repr

/-- A bank in a cast: the engine part and bank it belongs to (R283). -/
structure SavedBank where
  part : Nat
  ix   : Nat
  bank : Bank
  deriving DecidableEq, Repr

/-- A walk (R265 to R286); `told` says that the host was told that it may not resume (R283, R284). -/
structure Walk where
  ctx    : Nat
  kern   : Nat
  poster : Option Nat
  addr   : Dword
  wrec   : WalkRec
  eng    : Nat
  st     : WState
  prior  : WState
  seq    : Nat
  placed : Bool
  parts  : List Part
  tile   : Nat
  inTile : Bool
  kstep  : Nat
  busy   : Option Nat
  tries  : Nat
  tiles  : Nat
  spawned : Nat
  stalls : List Nat
  rback  : Nat
  acyc   : Nat
  scause : Nat
  acause : Nat
  freezing : Bool
  cast   : Bool
  resuming : Bool
  told   : Bool
  banks  : List SavedBank
  after  : List EngineEntry
  deriving DecidableEq, Repr

/-- The kinds of summons (R270). -/
inductive SKind where
  | a
  | b
  | drain
  | init
  deriving DecidableEq, Repr

/-- A summons that is issued and not yet done (R268 to R272). -/
structure Summons where
  walk  : Nat
  part  : Nat
  kind  : SKind
  tile  : Nat
  kstep : Nat
  slot  : Nat
  group : Option Nat
  cancelled : Bool
  deriving DecidableEq, Repr

/-- A walk engine (R13): its intake, places, round-robin pointer, the co-walk whose turn it is (R274), banks, the walks posted
to it so far, its last ended walks with their status words, its counters (R431), and the tiles that each partition has
started in the budget period (R429). -/
structure Engine where
  intake : List Nat
  places : List (Option Nat)
  rr     : Nat
  turn   : Option Nat
  banks  : List Bank
  posted : Nat
  ended  : List (Nat × Nat × Dword)
  causes : List Nat
  acyc   : Nat
  rback  : Nat
  starts : AMap Nat
  deriving DecidableEq, Repr

/-- The states of a task record (R316); Free is the absence of a state. -/
inductive TState where
  | unpublished
  | published
  | ready
  | running
  deriving DecidableEq, Repr

/-- A record of a task pool: its generation, and the task it holds (R313 to R316). -/
structure TaskRec where
  gen    : Nat
  st     : Option TState
  c      : Nat
  node   : Nat
  stamp  : Dword
  kern   : Nat
  entry  : Nat
  solo   : Bool
  payload : List Word
  succs  : List Dword
  die    : Nat
  order  : Nat
  deriving DecidableEq, Repr

/-- The floor of a node: a stamp, or ⊤ (R291). -/
inductive Floor where
  | at_ (s : Dword)
  | top
  deriving DecidableEq, Repr

/-- A path summary in normal form (R296): what it adds to each counter of the source, how many of them it
keeps, and the counters it appends. -/
structure PathSum where
  adds : List Nat
  keep : Nat
  tail : List Nat
  deriving DecidableEq, Repr

/-- The kept summaries of a pair of nodes. -/
structure PairSum where
  src  : Nat
  dst  : Nat
  sums : List PathSum
  deriving DecidableEq, Repr

/-- A count, or a change of a count, at a (node, stamp) of a context (R298). -/
structure Count where
  ctx   : Nat
  node  : Nat
  stamp : Dword
  n     : Int
  deriving DecidableEq, Repr

/-- An entry of a context's table of holds (R309). -/
structure Hold where
  gen   : Nat
  pair  : Option (Nat × Dword)
  deriving DecidableEq, Repr

/-- The states of a context, in the order of their codes (R363); an absent context has none. -/
inductive CState where
  | created
  | resident
  | active
  | suspending
  | saving
  | saved
  | restoring
  | faulted
  | lost
  deriving DecidableEq, Repr

/-- A quota record as read (R441). -/
structure Quota where
  clusters : BitVec 128
  regs   : Nat
  lanes  : Nat
  gslots : Nat
  spsize : Nat
  spbase : Nat
  cpsize : Nat
  cpbase : Nat
  deriving DecidableEq, Repr

/-- A context descriptor as read (R361). -/
structure CtxDesc where
  vtab     : Nat
  tsbase   : Nat
  tllen    : Nat
  tslen    : Nat
  tlbase   : Nat
  savebase : Nat
  savesize : Nat
  poolbase : Nat
  poolsize : Nat
  summ     : Nat
  rqbase   : Nat
  rqlog    : Nat
  npl      : Nat
  svl      : Nat
  hregs    : Nat
  deriving DecidableEq, Repr

/-- A PREEMPT under way: its first core, its core count and whether walks freeze immediately (R362, R376). -/
structure Vacate where
  first : Nat
  count : Nat
  cast  : Bool
  deriving DecidableEq, Repr

/-- An image or cast in a context's save area (R283, R375): its kind (1 context, 2 team, 3 cast), the team or walk, the
engine part, where it lies, its size and the check value that was written. -/
structure SavedImage where
  kind  : Nat
  ref   : Nat
  part  : Nat
  addr  : Nat
  size  : Nat
  check : Dword
  seed  : Nat
  deriving DecidableEq, Repr

/-- A context command that waits for one under way (R362): the command processor that took it, its CXCMD code and CXARG. -/
structure CtxCommand where
  cp   : Nat
  code : Nat
  arg  : Dword
  deriving DecidableEq, Repr

/-- A context (R361 to R379), with the clusters that any of its quotas granted (R376) and the commands that wait (R362). -/
structure Context where
  desc   : CtxDesc
  st     : CState
  quota  : Option Quota
  root   : Option Nat
  nodes  : List Nat
  sums   : List PairSum
  floors : List Floor
  frozen : Bool
  copies : AMap (List Floor)
  input  : Option (Nat × Dword)
  holds  : List Hold
  pool   : AMap TaskRec
  snap   : Bool
  npCount : Nat
  svCount : Nat
  rqIndex : Nat
  castNow : Bool
  vacating : Option Vacate
  images : List SavedImage
  granted : BitVec 128
  waits  : List CtxCommand
  deriving DecidableEq, Repr

/-- A cached leaf translation (R388): its tag, level, page base and size, and the leaf entry. -/
structure TlbEntry where
  ctx   : Nat
  base  : Nat
  log   : Nat
  level : Nat
  pte   : Dword
  pteAt : Nat
  deriving DecidableEq, Repr

/-- A cached table pointer (R388): the table of a level that covers an address prefix. -/
structure WalkEntry where
  ctx    : Nat
  level  : Nat
  pre    : Nat
  table  : Nat
  deriving DecidableEq, Repr

/-- A core (R17): its cycle counts, throttling state (R99), L1, L1 TLB, the group whose stick chain is under way
(R94), the group whose last lane instruction asked to let others go first (R39), and its counters (R431). -/
structure Core where
  cyc    : Nat
  clk    : Nat
  memset : AMap Nat
  limit  : Nat
  hits   : Nat
  l1     : AMap Byte
  tlb    : List TlbEntry
  chainOf : Option Nat
  yielded : Option Nat
  counts : List Nat
  deriving DecidableEq, Repr

/-- A cluster's own state: the deltas of its count unit not yet sent (R301), its L2 TLB, whether it is fenced
(R26), the contexts that had counts in its unit (R311), and what its suspect window holds (R347): its start, the counts taken
and the posted stores issued. -/
structure Cluster where
  deltas : List Count
  tlb    : List TlbEntry
  fenced : Bool
  counted : List Nat
  tested : Nat
  window : List Count
  psts   : List (Nat × Nat)
  copies : List Nat
  deriving DecidableEq, Repr

/-- A lane given to the compactor (R371), with the handler's offset as its vector entry had it (R366). -/
structure FaultLane where
  ctx    : Nat
  cause  : Nat
  loff   : Nat
  origin : Origin
  tag    : List Word
  deriving DecidableEq, Repr

/-- A die: the aggregator's deltas (R301), the compactor's lanes in order of arrival (R371), the walk cache
(R388), the lines of CXL memory that its L2 holds, by port and far address (R167, R407), and the region and containment
controller: its clock and the next cluster to test (R428). -/
structure Die where
  deltas : List Count
  lanes  : List FaultLane
  wcache : List WalkEntry
  cxl    : List Nat
  clock  : Nat
  nextTest : Nat
  deriving DecidableEq, Repr

/-- An outstanding posted peer store of one lane (R184, R415): the count it holds, who issued it, and its data in the
granules that are still to be performed at the peer (R170), each by its far address; a PST whose port fenced is lost. -/
structure Pst where
  ctx   : Nat
  node  : Nat
  stamp : Dword
  group : Nat
  kern  : Nat
  unit  : Nat
  batch : Nat
  port  : Nat
  far   : Nat
  size  : Nat
  left  : List (Nat × List Byte)
  lost  : Bool
  after : List EngineEntry
  deriving DecidableEq, Repr

/-- The states of a queue, in the order of their codes (R404); an absent queue has none. -/
inductive QState where
  | unmapped
  | mapped
  | blocked
  | halted
  | suspended
  | draining
  deriving DecidableEq, Repr

/-- How far a started packet is (R399, R400). -/
inductive PState where
  | started
  | running
  | waiting
  | done (status : Dword)
  deriving DecidableEq, Repr

/-- A packet that has started and not completed: its place, header, body words, and the kernel or walk it
runs. -/
structure Packet where
  pos    : Nat
  kind   : Nat
  bar    : Bool
  node   : Nat
  stamp  : Dword
  cpl    : Option (Dword × Dword)
  body   : List Dword
  st     : PState
  ref    : Option Nat
  held   : Bool
  deriving DecidableEq, Repr

/-- A host-visible work queue (R395 to R404); `told` says whether its status line holds its head and state (R396). -/
structure Queue where
  ctx    : Nat
  cls    : Nat
  rbase  : Dword
  taddr  : Dword
  saddr  : Dword
  szlog  : Nat
  head   : Nat
  st     : QState
  hcause : Nat
  slot   : Option Nat
  since  : Nat
  told   : Bool
  packets : List Packet
  launches : List (Nat × Nat)
  deriving DecidableEq, Repr

/-- The states of a port (R413). -/
inductive LState where
  | down
  | training
  | up
  | degraded
  | fenced
  deriving DecidableEq, Repr

/-- A fabric port (R409, R410), with the flits that each partition has sent and received in the budget period, by
partition × 2 + direction (R418). -/
structure Port where
  en     : Bool
  pers   : Bool
  lost   : Nat
  tmo    : Nat
  replay : Nat
  cause  : Nat
  inUse  : Bool
  w4     : Bool
  st     : LState
  flits  : AMap Nat
  deriving DecidableEq, Repr

/-- A command processor's registers in the control window (R393). -/
structure CmdProc where
  cxarg  : Dword
  cxctx  : Nat
  cxres  : Nat
  trroot : Dword
  trinva : Dword
  qarg   : Dword
  qnum   : Nat
  qres   : Nat
  counts : List Nat
  deriving DecidableEq, Repr

/-- An invalidation of translations under way (R391). -/
structure Inval where
  kind : Nat
  ctx  : Nat
  vpn  : Nat
  deriving DecidableEq, Repr

/-- A range of bytes whose values are indeterminate until written (R8), over the keys of memory; for a DISCARD the group
that executed it, until it releases: before that every other group's load races with it (R183). -/
structure Indet where
  lo   : Nat
  hi   : Nat
  seed : Nat
  by_  : Option Nat
  deriving DecidableEq, Repr

/-- A reply of the module to an access from outside, newest first: what a port or Fjarul answered. -/
inductive Reply where
  | data (d : List Byte)
  | ack (tag : Nat)
  | word (d : Dword)
  deriving DecidableEq, Repr

/-- An entry of a suspect-window report (R347). -/
structure WindowEntry where
  ctx    : Nat
  node   : Nat
  slo    : Dword
  shi    : Dword
  npst   : Nat
  frozen : Bool
  deriving DecidableEq, Repr

/-- What the module reports over Fjarul of itself (R285, R347, R415, R422, R430). -/
inductive FReport where
  | window (cluster tstart tfail : Nat) (entries : List WindowEntry)
  | portFenced (port : Nat)
  | accumulator (cluster : Nat)
  | thermalTrip (die : Nat)
  | stackFault
  | ready
  deriving DecidableEq, Repr

/-- The module: everything but its management side, whose link and tile budgets it sees by partition (R418, R429).
`touched` holds, for each 4-byte word of device memory stored to, what stood there before a store, with the number that
the next object had at the store: a kernel with a lower number may still fetch it (R52). -/
structure Mach where
  mem     : List Host.Cell
  indet   : List Indet
  cur     : Nat
  free    : Nat
  nextId  : Nat
  groups  : AMap Group
  teams   : AMap Team
  slots   : AMap BSlot
  kerns   : AMap Kernel
  walks   : AMap Walk
  summons : AMap Summons
  engines : AMap Engine
  cores   : AMap Core
  clusters : AMap Cluster
  dies    : AMap Die
  ctxs    : AMap Context
  root    : List Count
  psts    : AMap Pst
  queues  : AMap Queue
  ports   : Vector Port 18
  routes  : Vector Dword 64
  cps     : Vector CmdProc 8
  flitBudget : AMap Nat
  tileBudget : AMap Nat
  busy    : Option Inval
  feat    : AMap (BitVec 2)
  replies : List Reply
  fjarul  : List FReport
  agenda  : List Move
  touched : AMap (List (Nat × Word))
  deriving DecidableEq, Repr

/-- Where the module's reset sequence stands (R422, R424). -/
inductive Boot where
  | ready
  | refused
  | inReset
  deriving DecidableEq, Repr

/-- A reply over Fjarul (R426 to R431). -/
inductive FReply where
  | done
  | notReady
  | refused
  | attestation (nonce : BitVec 256) (digest : BitVec 384) (version : BitVec 32) (life : LifeCycle)
      (feat : AMap (BitVec 2)) (fenced : List Nat) (pers : List Bool) (rsa slh : List Byte)
  | telemetry (readings : List Nat)
  | counters (c : List Nat)
  deriving DecidableEq, Repr

/-- The management side of the module (R422 to R431): what Fjarul sets and reads. -/
structure Mgmt where
  boot     : Boot
  version  : BitVec 32
  digest   : BitVec 384
  life     : LifeCycle
  interval : Vector Nat 8
  period   : Nat
  budgets  : List (Budgeted × Nat × Nat)
  cap      : Nat
  tripped  : List Nat
  asked    : Nat
  replies  : List FReply
  deriving DecidableEq, Repr

/-- The state of the model: the module, its management side, and the count of steps that nothing forced. -/
structure State where
  m    : Mach
  mg   : Mgmt
  tick : Nat
  deriving DecidableEq, Repr

/-- Why a step stops. -/
inductive Fault where
  /-- `exec` was asked for a group's instruction while no group is current: raised by every group meaning, and
  never by a step, which sets the current group first.  Safe: no state of the module corresponds to it. -/
  | noGroup
  /-- `exec` was asked for a lane instruction of a group whose lane issue queue is empty: raised by every lane
  meaning, and never by a step.  Safe. -/
  | noLaneEntry
  deriving DecidableEq, Repr

/-- Why an instruction has no meaning. -/
inductive Refusal where
  /-- The instruction is not modelled yet, by its mnemonic in the opcode table.  Safe: nothing is claimed of
  it. -/
  | notModelled (mnemonic : String)
  deriving DecidableEq, Repr

/-- A fabric port after a module reset (R410, R413). -/
def Port.reset : Port :=
  { en := false, pers := false, lost := 0, tmo := 0, replay := 0, cause := 0, inUse := false, w4 := false,
    st := .down, flits := [] }

/-- A command processor's registers after reset. (DESIGN CHOICE, log 10.) -/
def CmdProc.reset : CmdProc :=
  { cxarg := 0, cxctx := 0, cxres := 0, trroot := 0, trinva := 0, qarg := 0, qnum := 0, qres := 0, counts := [] }

/-- The module after a reset: every memory wiped (R423), every port down, no context, no queue.
(DESIGN CHOICE, log 9.) -/
def Mach.reset : Mach :=
  { mem := [], indet := [], cur := 0, free := 0, nextId := 0, groups := [], teams := [], slots := [],
    kerns := [], walks := [], summons := [], engines := [], cores := [], clusters := [], dies := [],
    ctxs := [], root := [], psts := [], queues := [], ports := Vector.replicate 18 Port.reset,
    routes := Vector.replicate 64 0, cps := Vector.replicate 8 CmdProc.reset, flitBudget := [], tileBudget := [],
    busy := none, feat := [],
    replies := [], fjarul := [], agenda := [], touched := [] }

/-- The management side after a reset that found its firmware good. (DESIGN CHOICE, log 10.) -/
def Mgmt.reset : Mgmt :=
  { boot := .ready, version := 0, digest := 0, life := .deployed, interval := Vector.replicate 8 (2 ^ 20),
    period := 2 ^ 16, budgets := [], cap := 3200, tripped := [], asked := 0, replies := [] }

/-- The machine right after reset (R422, R423). -/
def State.reset : State := { m := Mach.reset, mg := Mgmt.reset, tick := 0 }

end Sys2Proof.Machine
end

