-- ==== Sys2Proof/Machine/Ops.lean ====
section
/-! DEFINITION. The named operations on the state: maps, memory, the parts of the module, counts, reports, and
the taking of a trap.
-/

namespace Sys2Proof.Machine

/-! Maps with strictly rising keys. -/

/-- The value at a key. -/
def aget {α : Type} : AMap α → Nat → Option α
  | [], _ => none
  | (k', v) :: r, k => if k' = k then some v else aget r k

/-- The map with a value put at a key: in its place where the key stands already, and else where it belongs. -/
def aput {α : Type} : AMap α → Nat → α → AMap α
  | [], k, v => [(k, v)]
  | (k', v') :: r, k, v =>
    if k = k' then (k, v) :: r
    else if k < k' && !r.any (fun e => e.1 = k) then (k, v) :: (k', v') :: r
    else (k', v') :: aput r k v

/-- The map without a key. -/
def adel {α : Type} (m : AMap α) (k : Nat) : AMap α := m.filter fun kv => kv.1 != k

/-- Every value changed by a function of its key. -/
def amap {α : Type} (f : Nat → α → α) (m : AMap α) : AMap α := m.map fun kv => (kv.1, f kv.1 kv.2)

/-- The entries whose key and value pass a test. -/
def afilter {α : Type} (p : Nat → α → Bool) (m : AMap α) : AMap α := m.filter fun kv => p kv.1 kv.2

/-- Whether some entry passes a test. -/
def aany {α : Type} (p : Nat → α → Bool) (m : AMap α) : Bool := m.any fun kv => p kv.1 kv.2

/-- Whether the keys rise strictly. -/
def amapWf {α : Type} : AMap α → Bool
  | [] => true
  | [_] => true
  | (k, _) :: (k', v') :: r => k < k' && amapWf ((k', v') :: r)

/-! Memory. -/

/-- What an unlisted byte reads as: zero, since every memory is wiped at reset (R423). (DESIGN CHOICE, log 2.) -/
def unlisted : Byte := 0

/-- One byte of the memory list. -/
def memRead (mem : List Host.Cell) (k : Nat) : Byte := (aget mem k).getD unlisted

/-- One byte written: writing what an unlisted byte reads as removes the entry. -/
def memWrite (mem : List Host.Cell) (k : Nat) (b : Byte) : List Host.Cell :=
  if b = unlisted then adel mem k else aput mem k b

/-- The canonical form of memory: strictly rising keys, and no entry equal to what an unlisted byte reads as. -/
def Memory.wf (mem : List Host.Cell) : Bool := amapWf mem && mem.all fun c => c.2 != unlisted

/-- Where an access goes (R161, R164, R412): a device-memory byte, a scratchpad byte by its place over all
cores, a chip-scratchpad byte, an armature byte over all engines, or a far address behind a port. -/
inductive Loc where
  | dev (pa : Nat)
  | spad (a : Nat)
  | chip (a : Nat)
  | arm (a : Nat)
  | ext (port far : Nat)
  deriving DecidableEq, Repr

/-- The bytes of one core's scratchpad (R14, R17). -/
def spadSize : Nat := 0x40000

/-- The key of a location: the address spaces one after another. (DESIGN CHOICE, log 2.) -/
def Loc.key : Loc → Nat
  | .dev pa => pa
  | .spad a => 2 ^ 52 + a
  | .chip a => 2 ^ 53 + a
  | .arm a => 2 ^ 54 + a
  | .ext port far => 2 ^ 60 + port * 2 ^ 52 + far

/-- The location so many bytes on. -/
def Loc.plus (l : Loc) (n : Nat) : Loc :=
  match l with
  | .dev pa => .dev (pa + n)
  | .spad a => .spad (a + n)
  | .chip a => .chip (a + n)
  | .arm a => .arm (a + n)
  | .ext port far => .ext port (far + n)

/-- The bytes of a live barrier slot as a number (R233). -/
def slotImage (s : BSlot) : Nat :=
  s.phase % 2 ^ 30 + (if s.cm then 2 ^ 30 else 0) + 2 ^ 31 + (s.mem % 2 ^ 16) * 2 ^ 32 + (s.arr % 2 ^ 16) * 2 ^ 48
    + (s.xbytes % 2 ^ 32) * 2 ^ 64 + unsigned 32 s.pend * 2 ^ 96

/-- The bytes of a copy ring's header as a number (R242). -/
def ringImage (t : Team) : Nat :=
  t.notify.toNat + t.head.toNat * 2 ^ 32 + (t.cause % 256) * 2 ^ 64 + (if t.halt then 2 ^ 72 else 0)

/-- Byte i of a number (R5). (DESIGN CHOICE, log 3.) -/
def byteOf (x i : Nat) : Byte := BitVec.ofNat 8 (x >>> (8 * i))

/-- The team whose ring header holds scratchpad byte a (R242). -/
def ringAt (m : Mach) (a : Nat) : Option (Nat × Team) :=
  m.teams.find? fun kt => 0 < kt.2.size && !kt.2.saved && kt.2.share ≤ a && a < kt.2.share + 64

/-- Whether scratchpad byte a lies in a live log area (R325). -/
def logAt (m : Mach) (a : Nat) : Bool :=
  aany (fun _ g =>
    match g.rgn, g.log, aget m.teams g.team with
    | _ :: _, some l, some t => !t.saved && t.share + l.off ≤ a && a < t.share + l.off + l.size
    | _, _, _ => false) m.groups

/-- The seed of the declaration that made a byte indeterminate, if one did and nothing was written since (R8). -/
def indetAt : List Indet → Nat → Option Nat
  | [], _ => none
  | d :: r, k => if d.lo ≤ k && k < d.hi then some d.seed else indetAt r k

/-- Whether a byte is one that a group declared dead by a DISCARD and that others may still read as it was: the group has not
released since (R183). -/
def racesAt : List Indet → Nat → Nat → Bool
  | [], _, _ => false
  | d :: r, cur, k =>
    if d.lo ≤ k && k < d.hi then
      match d.by_ with
      | some g => g != cur
      | none => false
    else racesAt r cur k

/-- The indeterminate ranges less one byte that is written. -/
def indetClear (l : List Indet) (k : Nat) : List Indet :=
  l.flatMap fun d =>
    if d.lo ≤ k && k < d.hi then
      [{ d with hi := k }, { d with lo := k + 1 }].filter fun x => x.lo < x.hi
    else [d]

/-- One byte as its bank or home holds it: a live slot's field, an indeterminate byte of a live log area or of a declared
range, a ring header's field, or the byte written last, which is also what a load reads that races with a DISCARD (R183).
(DESIGN CHOICE, log 3.) -/
def readByte (m : Mach) (l : Loc) : Byte :=
  let plain :=
    match indetAt m.indet l.key with
    | some seed => if racesAt m.indet m.cur l.key then memRead m.mem l.key else Config.freeByte seed l.key
    | none => memRead m.mem l.key
  match l with
  | .spad a =>
    match aget m.slots (a / 16 * 16) with
    | some s => byteOf (slotImage s) (a % 16)
    | none =>
      if logAt m a then Config.freeByte m.free l.key
      else
        match ringAt m a with
        | some (_, t) => byteOf (ringImage t) (a - t.share)
        | none => plain
  | _ => plain

/-- Bytes from a location upward. -/
def readBytes (m : Mach) (l : Loc) : Nat → List Byte
  | 0 => []
  | n + 1 => readByte m l :: readBytes m (l.plus 1) n

/-- Memory with one byte written, whatever stands over it. -/
def pokeByte (m : Mach) (l : Loc) (b : Byte) : Mach :=
  { m with mem := memWrite m.mem l.key b, indet := indetClear m.indet l.key }

/-- A byte written to a ring header: notify is set, a 1 in halt resumes the ring, the rest is ignored (R242). -/
def ringPoke (t : Team) (off : Nat) (b : Byte) : Team :=
  if off < 4 then
    let old := t.notify.toNat
    let cleared := old - bits old (8 * off) 8 * 2 ^ (8 * off)
    { t with notify := BitVec.ofNat 32 (cleared + b.toNat * 2 ^ (8 * off)) }
  else if off = 9 && b.toNat % 2 = 1 && t.halt then { t with halt := false, resuming := true }
  else t

/-- One byte stored: ignored over a live slot (R233) and a live log area (R325), by R242 over a ring header. -/
def writeByte (m : Mach) (l : Loc) (b : Byte) : Mach :=
  match l with
  | .spad a =>
    match aget m.slots (a / 16 * 16) with
    | some _ => m
    | none =>
      if logAt m a then m
      else
        match ringAt m a with
        | some (k, t) => { m with teams := aput m.teams k (ringPoke t (a - t.share) b) }
        | none => pokeByte m l b
  | _ => pokeByte m l b

/-- Bytes put from a location upward. -/
def putBytes (m : Mach) (l : Loc) : List Byte → Mach
  | [] => m
  | b :: bs => putBytes (writeByte m l b) (l.plus 1) bs

/-- What a 4-byte word of device memory holds, kept before a store to it (R52). -/
def touchWord (m : Mach) (w : Nat) : Mach :=
  let v : Word := BitVec.ofNat 32 (ofBytes (readBytes m (.dev (4 * w)) 4))
  let old := ((aget m.touched w).getD []).filter fun o => o.2 != v
  { m with touched := aput m.touched w ((m.nextId, v) :: old) }

/-- The words that a store of n bytes meets, kept before it: only device memory holds instructions (R27, R52). -/
def touch (m : Mach) (l : Loc) (n : Nat) : Mach :=
  match l with
  | .dev pa => ((List.range ((pa + n + 3) / 4 - pa / 4)).map (pa / 4 + ·)).foldl touchWord m
  | _ => m

/-- Bytes stored from a location upward. -/
def writeBytes (m : Mach) (l : Loc) (bs : List Byte) : Mach := putBytes (touch m l bs.length) l bs

/-- A number stored in n bytes (R5). -/
def writeNat (m : Mach) (l : Loc) (n x : Nat) : Mach := writeBytes m l (toBytes n x)

/-- A number read from n bytes (R5). -/
def readNat (m : Mach) (l : Loc) (n : Nat) : Nat := ofBytes (readBytes m l n)

/-- A range of bytes made indeterminate (R8). (DESIGN CHOICE, log 3.) -/
def makeIndet (m : Mach) (l : Loc) (n : Nat) : Mach :=
  if n = 0 then m
  else { m with indet := { lo := l.key, hi := l.key + n, seed := m.free, by_ := none } :: m.indet, free := m.free + 1 }

/-- A range declared dead by a DISCARD of a group (R183). (DESIGN CHOICE, log 3.) -/
def discardIndet (m : Mach) (gid : Nat) (l : Loc) (n : Nat) : Mach :=
  if n = 0 then m
  else { m with indet := { lo := l.key, hi := l.key + n, seed := m.free, by_ := some gid } :: m.indet, free := m.free + 1 }

/-- Bytes wiped to zero (R423): listed entries of a key range dropped. -/
def wipeRange (m : Mach) (lo hi : Nat) : Mach :=
  { m with mem := m.mem.filter fun c => !(decide (lo ≤ c.1) && decide (c.1 < hi)),
           indet := m.indet.filter fun d => !(decide (lo ≤ d.lo) && decide (d.hi ≤ hi)) }

/-! Free values and choices. -/

/-- The machine with its counter of free values advanced. (DESIGN CHOICE, log 3.) -/
def Mach.bump (m : Mach) : Mach := { m with free := m.free + 1 }

/-- A fresh choice among n alternatives; the only one where n ≤ 1. (DESIGN CHOICE, log 3.) -/
def Mach.pick (m : Mach) (n : Nat) : Nat := if n ≤ 1 then 0 else Config.choice m.free % n

/-! The parts of the module. -/

def Core.empty : Core :=
  { cyc := 0, clk := 0, memset := [], limit := 64, hits := 0, l1 := [], tlb := [], chainOf := none, yielded := none, counts := [] }

def Cluster.empty : Cluster :=
  { deltas := [], tlb := [], fenced := false, counted := [], tested := 0, window := [], psts := [], copies := [] }

def Die.empty : Die := { deltas := [], lanes := [], wcache := [], cxl := [], clock := 0, nextTest := 0 }

def Bank.empty : Bank := { st := .free, walk := 0, tile := 0, rows := 0, cols := 0, acc := [], bad := [] }

def Engine.empty : Engine :=
  { intake := [], places := List.replicate 4 none, rr := 3, turn := none, banks := [Bank.empty, Bank.empty], posted := 0,
    ended := [], causes := List.replicate 8 0, acyc := 0, rback := 0, starts := [] }

def Mach.core (m : Mach) (c : Nat) : Core := (aget m.cores c).getD Core.empty
def Mach.setCore (m : Mach) (c : Nat) (x : Core) : Mach := { m with cores := aput m.cores c x }
def Mach.cluster (m : Mach) (c : Nat) : Cluster := (aget m.clusters c).getD Cluster.empty
def Mach.setCluster (m : Mach) (c : Nat) (x : Cluster) : Mach := { m with clusters := aput m.clusters c x }
def Mach.die (m : Mach) (d : Nat) : Die := (aget m.dies d).getD Die.empty
def Mach.setDie (m : Mach) (d : Nat) (x : Die) : Mach := { m with dies := aput m.dies d x }
def Mach.engine (m : Mach) (e : Nat) : Engine := (aget m.engines e).getD Engine.empty
def Mach.setEngine (m : Mach) (e : Nat) (x : Engine) : Mach := { m with engines := aput m.engines e x }
def Mach.grp? (m : Mach) (g : Nat) : Option Group := aget m.groups g
def Mach.setGrp (m : Mach) (g : Nat) (x : Group) : Mach := { m with groups := aput m.groups g x }
def Mach.setTeam (m : Mach) (t : Nat) (x : Team) : Mach := { m with teams := aput m.teams t x }
def Mach.setKern (m : Mach) (k : Nat) (x : Kernel) : Mach := { m with kerns := aput m.kerns k x }
def Mach.setWalk (m : Mach) (w : Nat) (x : Walk) : Mach := { m with walks := aput m.walks w x }
def Mach.setCtx (m : Mach) (c : Nat) (x : Context) : Mach := { m with ctxs := aput m.ctxs c x }
def Mach.setQueue (m : Mach) (q : Nat) (x : Queue) : Mach := { m with queues := aput m.queues q x }

/-- The fused feature mask of a core (R101); a core not listed has both features (R4). (DESIGN CHOICE, log 9.) -/
def Mach.features (m : Mach) (core : Nat) : BitVec 2 := (aget m.feat core).getD 3

/-- The cluster of a core (R12). -/
def clusterOf (core : Nat) : Nat := core / 8

/-- The die of a core (R12). -/
def dieOf (core : Nat) : Nat := core / 128

/-- The launch record of a group's kernel. -/
def Mach.lrec? (m : Mach) (g : Group) : Option LaunchRec := (aget m.kerns g.kern).map Kernel.lrec

/-! A group's registers. -/

/-- Scalar register r: s0 reads zero (R104). -/
def Group.s (g : Group) (r : Sreg) : Dword := if r = 0 then 0 else (g.regs[r.toNat]?).getD 0

/-- Scalar register r written; a write to s0 is discarded (R104). -/
def Group.setS (g : Group) (r : Sreg) (x : Dword) : Group :=
  if r = 0 then g else { g with regs := g.regs.setIfInBounds r.toNat x }

/-- The activity mask of beat b: bits 31 to 0 of s61, s62 or s63 (R22, R91). -/
def Group.mask (g : Group) (b : Nat) : Word := (g.s (BitVec.ofNat 6 (61 + b))).truncate 32

/-- The beats of the group (R22). -/
def Group.beats (g : Group) : Nat := g.width / 32

/-- The regions open (R322). -/
def Group.depth (g : Group) : Nat := g.rgn.length

/-- Empty queues. -/
def Queues.empty : Queues := { sq := [], lq := [], fq := [], liq := [] }

/-- Whether the group is Trapped. -/
def Group.isTrapped (g : Group) : Bool :=
  match g.st with
  | .trapped _ => true
  | _ => false

/-- The register of v register r in lane l. -/
def Group.vreg (g : Group) (r l : Nat) : Word := (aget g.v (r * 128 + l)).getD 0

/-- v registers with one changed; a zero is not listed. -/
def putV (v : AMap Word) (key : Nat) (x : Word) : AMap Word := if x = 0 then adel v key else aput v key x

/-- v register r written in lane l, with the check field it gets (R333). -/
def Group.setV (g : Group) (r l : Nat) (x : Word) (chk : Option Check) : Group :=
  { g with v := putV g.v (r * 128 + l) x,
           chk := match chk with
             | none => adel g.chk (r * 128 + l)
             | some c => aput g.chk (r * 128 + l) c }

/-- Predicate k of lane l; p7 reads 1 (R37, R145). -/
def Group.pred (g : Group) (k l : Nat) : Bool :=
  if k = 7 then true else ((g.preds[k]?).getD 0).getLsbD l

/-- Predicate k of lane l written; a write to p7 is discarded (R144, R145). -/
def Group.setPred (g : Group) (k l : Nat) (b : Bool) : Group :=
  if k = 7 then g
  else { g with preds := updateAt g.preds k fun p =>
           if b then p ||| BitVec.ofNat 96 (2 ^ l) else p &&& ~~~(BitVec.ofNat 96 (2 ^ l)) }

/-! The signature (R336). -/

/-- One fold. -/
def foldSig (sig code : Dword) : Dword := sig.rotateLeft 5 ^^^ code

/-- The items at the head of the tail that no hole holds back are folded. -/
def drainSig : Dword → List SigItem → Dword × List SigItem
  | sig, [] => (sig, [])
  | sig, .code c :: r => drainSig (foldSig sig c) r
  | sig, .hole :: r => (sig, .hole :: r)

/-- The fold code of a scalar instruction: its major, and its func where the major is starred. -/
def scalarCode (major func : Nat) : Dword := BitVec.ofNat 64 (0x10000 + major * 0x100 + func)

/-- The fold code of a lane instruction. -/
def laneCode (op ty : Nat) : Dword := BitVec.ofNat 64 (0x20000 + op * 0x100 + ty)

/-- An instruction folded at its place in program order; while the group is Trapped nothing is (R336, R367). -/
def Group.fold (g : Group) (code : Dword) : Group :=
  if g.isTrapped then g
  else
    match g.sigq with
    | [] => { g with sig := foldSig g.sig code }
    | q => { g with sigq := q ++ [.code code] }

/-- The oldest taken lane instruction issues: its hole is filled, and what waited behind it is folded. -/
def fillHole : Dword → List SigItem → Dword → Dword × List SigItem
  | sig, [], _ => (sig, [])
  | sig, .hole :: r, code => drainSig (foldSig sig code) r
  | sig, .code c :: r, code => let (s, q) := fillHole sig r code; (s, .code c :: q)

/-- The signature after every hole is dropped, its lane instructions never issuing. -/
def Group.dropHoles (g : Group) : Group :=
  let (s, q) := drainSig g.sig (g.sigq.filter fun i => i != .hole)
  { g with sig := s, sigq := q }

/-! Stamps (R290, R291). -/

/-- The depth of a stamp. -/
def stampDepth (s : Dword) : Nat := bits s.toNat 62 2 + 1

/-- Counter i of a stamp. -/
def stampCounter (s : Dword) (i : Nat) : Nat := if i < 4 then bits s.toNat (45 - 15 * i) 15 else 0

/-- A stamp from its counters, outermost first. -/
def stampOf (cs : List Nat) : Dword :=
  BitVec.ofNat 64 ((cs.length - 1) * 2 ^ 62 + cs.getD 0 0 * 2 ^ 45 + cs.getD 1 0 * 2 ^ 30 + cs.getD 2 0 * 2 ^ 15
    + cs.getD 3 0)

/-- The counters of a stamp. -/
def stampCounters (s : Dword) : List Nat := (List.range (stampDepth s)).map (stampCounter s)

/-- R291: bits 61 and 60 are zero, and so is every counter beyond the depth. -/
def stampValid (s : Dword) : Bool :=
  bits s.toNat 60 2 = 0 && (List.range 4).all fun i => i < stampDepth s || stampCounter s i = 0

/-- The order of two stamps of one depth (R291). -/
def stampLe (a b : Dword) : Bool := a.toNat % 2 ^ 60 ≤ b.toNat % 2 ^ 60

/-- Whether a floor is at or below a stamp; ⊤ is above every stamp (R291). -/
def Floor.le : Floor → Dword → Bool
  | .top, _ => false
  | .at_ f, s => stampLe f s

/-- The order of floors. -/
def Floor.leF : Floor → Floor → Bool
  | _, .top => true
  | .top, .at_ _ => false
  | .at_ a, .at_ b => stampLe a b

/-- The lesser of two floors. -/
def Floor.min (a b : Floor) : Floor := if a.leF b then a else b

/-! Counts (R298 to R302). -/

/-- The counts with one changed; a count of zero is not listed. -/
def addCount (l : List Count) (ctx node : Nat) (stamp : Dword) (n : Int) : List Count :=
  match l with
  | [] => if n = 0 then [] else [{ ctx := ctx, node := node, stamp := stamp, n := n }]
  | c :: r =>
    if c.ctx = ctx && c.node = node && c.stamp = stamp then
      if c.n + n = 0 then r else { c with n := c.n + n } :: r
    else c :: addCount r ctx node stamp n

/-- Deltas applied at the root (R301). (DEDUCED, log 20.) -/
def applyDeltas (root : List Count) (ds : List Count) : List Count :=
  ds.foldl (fun r d => addCount r d.ctx d.node d.stamp d.n) root

/-- A delta recorded in the count unit of a cluster (R298, R301); a take is one of the counts that the context has had
there (R311), and of the unit's suspect window (R347). -/
def countAt (m : Mach) (unit ctx node : Nat) (stamp : Dword) (n : Int) : Mach :=
  let c := m.cluster unit
  m.setCluster unit { c with
    deltas := c.deltas ++ [{ ctx := ctx, node := node, stamp := stamp, n := n }],
    counted := if n = 1 && !c.counted.contains ctx then c.counted ++ [ctx] else c.counted,
    window := if n = 1 then c.window ++ [{ ctx := ctx, node := node, stamp := stamp, n := 0 }] else c.window }

/-- The no-progress watchdog of a context restarts (R377). -/
def progress (m : Mach) (ctx : Nat) : Mach :=
  match aget m.ctxs ctx with
  | some c => m.setCtx ctx { c with npCount := 0 }
  | none => m

/-- Deltas applied at the root (R301); a drop among them is progress of its context (R377). -/
def applyRoot (m : Mach) (ds : List Count) : Mach :=
  (ds.filter fun d => d.n < 0).foldl (fun m d => progress m d.ctx) { m with root := applyDeltas m.root ds }

/-- Every delta of a cluster's unit and of its die's aggregator applied at the root, in order (R302).
(DEDUCED, log 20.) -/
def flushUnit (m : Mach) (unit : Nat) : Mach :=
  let c := m.cluster unit
  let d := m.die (unit / 16)
  let m1 := m.setCluster unit { c with deltas := [] }
  let m2 := m1.setDie (unit / 16) { d with deltas := [] }
  applyRoot m2 (d.deltas ++ c.deltas)

/-- A count unit sends its batch to its die's aggregator. (DEDUCED, log 20.) -/
def sendUnit (m : Mach) (unit : Nat) : Mach :=
  let c := m.cluster unit
  let d := m.die (unit / 16)
  (m.setCluster unit { c with deltas := [] }).setDie (unit / 16) { d with deltas := d.deltas ++ c.deltas }

/-- An aggregator sends its batch to the root. (DEDUCED, log 20.) -/
def sendDie (m : Mach) (die : Nat) : Mach :=
  let d := m.die die
  applyRoot (m.setDie die { d with deltas := [] }) d.deltas

/-- Every delta in every unit and aggregator applied at the root. -/
def flushAll (m : Mach) : Mach :=
  let m1 := (m.clusters.map Prod.fst).foldl sendUnit m
  (m1.dies.map Prod.fst).foldl sendDie m1

/-- A count taken in a unit by work whose own count another unit holds: it reaches the first aggregator common to both
before the taker goes on (R302). -/
def takeFrom (m : Mach) (own unit ctx node : Nat) (stamp : Dword) : Mach :=
  let m1 := countAt m unit ctx node stamp 1
  if own = unit then m1
  else if own / 16 = unit / 16 then sendUnit m1 unit
  else flushUnit m1 unit

/-- The count unit that holds the count by which a group's takes are justified: of the cluster of the lowest engine of the
walk that it serves, or of its own cluster (R298, R299, R302). -/
def homeUnit (m : Mach) (g : Group) : Nat :=
  match (g.serving.bind (aget m.summons ·)).bind fun s => aget m.walks s.walk with
  | some w => w.eng
  | none => clusterOf g.core

/-- A count that a group takes in its cluster's unit (R298, R302). -/
def takeHere (m : Mach) (g : Group) (node : Nat) (stamp : Dword) : Mach :=
  takeFrom m (homeUnit m g) (clusterOf g.core) g.ctx node stamp

/-- The entries of a batch: the pairs of its deltas (R301). -/
def batchEntries (ds : List Count) : Nat := (ds.map fun d => (d.ctx, d.node, d.stamp)).dedup.length

/-- Batches whose 2048 entries are full are sent at once (R301). -/
def sendFull (m : Mach) : Mach :=
  let units := (m.clusters.filter fun c => 2048 ≤ batchEntries c.2.deltas).map Prod.fst
  let m1 := units.foldl sendUnit m
  let dies := (m1.dies.filter fun d => 2048 ≤ batchEntries d.2.deltas).map Prod.fst
  dies.foldl sendDie m1

/-- The deltas that have not reached the root. -/
def Mach.onTheWay (m : Mach) : List Count :=
  m.dies.flatMap (fun d => d.2.deltas) ++ m.clusters.flatMap fun c => c.2.deltas

/-- A count changed at the root. (DEDUCED, log 20.) -/
def countRoot (m : Mach) (ctx node : Nat) (stamp : Dword) (n : Int) : Mach :=
  applyRoot m [{ ctx := ctx, node := node, stamp := stamp, n := n }]

/-- Whether the root has room for one more outstanding pair of the context, those on their way to it included (R301). -/
def rootHasRoom (m : Mach) (ctx node : Nat) (stamp : Dword) : Bool :=
  let all := applyDeltas m.root (m.onTheWay.filter fun d => 0 < d.n)
  all.any (fun c => c.ctx = ctx && c.node = node && c.stamp = stamp)
    || (all.filter fun c => c.ctx = ctx).length < 65536

/-- A count held by work on a cluster is dropped (R206). -/
def dropAt (m : Mach) (unit ctx node : Nat) (stamp : Dword) : Mach := countAt m unit ctx node stamp (-1)

/-- A cause's number (R365). -/
def Cause.num : Cause → Nat
  | .illegal => 1 | .featureAbsent => 2 | .scalarPcRange => 3 | .lanePcRange => 4 | .misaligned => 5
  | .misalignedPc => 6 | .software => 7 | .breakpoint => 8 | .queueDeadlock => 9 | .operandRange => 10
  | .exitInRegion => 11
  | .notPresent => 16 | .permission => 17 | .reservedBit => 18 | .accessKind => 19 | .windowRange => 20
  | .windowProtection => 21 | .noTarget => 22 | .pstTarget => 23
  | .publishInRegion => 32 | .regionDepth => 33 | .regionQueue => 34 | .regionLog => 35 | .keepLogFull => 36
  | .regionState => 37
  | .barrierNotLive => 40 | .barrierOverArrival => 41 | .barrierBusy => 42 | .barrierLive => 43
  | .barrierUnbound => 44 | .barrierWindow => 45 | .barrierRange => 46 | .copyEntry => 47 | .copyFault => 48
  | .walkRecord => 52 | .reentrantWalk => 53 | .handlerState => 54 | .handlerWait => 55 | .accumulatorType => 56
  | .invalidStamp => 60 | .undeclaredNode => 61 | .summaryImage => 62 | .summaryRegress => 63
  | .stampRegress => 64 | .stampOverflow => 65 | .frontierSelfWait => 66 | .holdLimit => 67 | .holdHandle => 68
  | .staleHandle => 72 | .overSignal => 73 | .taskPacket => 74 | .taskState => 75 | .taskPool => 76
  | .tasksOpen => 77
  | .workQueryInRegion => 80 | .workAnswer => 81
  | .detectedError => 96 | .rollbackFault => 97 | .trapOverflow => 98 | .doubleTrap => 99
  | .laneFaultAbandoned => 100 | .noProgressWatchdog => 101 | .saveWatchdog => 102 | .restoreFault => 103
  | .hostKill => 104

/-! Reports (R379). -/

/-- What a report carries. -/
structure Report where
  kind  : Nat
  src   : Nat
  cause : Nat
  where_ : Nat
  spc   : Dword
  lpc   : Dword
  addr  : Dword
  extra : Dword
  deriving DecidableEq, Repr

/-- A report with the fields that its kind does not use at zero. -/
def Report.plain (kind cause : Nat) : Report :=
  { kind := kind, src := 0, cause := cause, where_ := 0, spc := 0, lpc := 0, addr := 0, extra := 0 }

/-- A record written at the context's write index, its valid word last; an unread record there is overwritten and
the new one says so (R379). (DEDUCED, log 52.) -/
def report (m : Mach) (ctx : Nat) (r : Report) : Mach :=
  match aget m.ctxs ctx with
  | none => m
  | some c =>
    let base := c.desc.rqbase + 64 * (c.rqIndex % 2 ^ c.desc.rqlog)
    let lost := readNat m (.dev (base + 0x38)) 8 = 1
    let w0 := r.cause % 256 + (r.src % 256) * 2 ^ 8 + (ctx % 4096) * 2 ^ 16 + (r.kind % 256) * 2 ^ 32
      + (if lost then 2 ^ 63 else 0)
    let m1 := writeNat m (.dev base) 8 w0
    let m2 := writeNat m1 (.dev (base + 0x08)) 8 r.where_
    let m3 := writeNat m2 (.dev (base + 0x10)) 8 r.spc.toNat
    let m4 := writeNat m3 (.dev (base + 0x18)) 8 r.lpc.toNat
    let m5 := writeNat m4 (.dev (base + 0x20)) 8 r.addr.toNat
    let m6 := writeNat m5 (.dev (base + 0x28)) 8 r.extra.toNat
    let m7 := writeNat m6 (.dev (base + 0x30)) 8 0
    let m8 := writeNat m7 (.dev (base + 0x38)) 8 1
    m8.setCtx ctx { c with rqIndex := c.rqIndex + 1 }

/-- The origin group number of a group: its core and slot (R372). -/
def originOf (g : Group) : Nat := g.core * 64 + g.slot

/-! Walks as far as the ends of groups and contexts reach them (R267, R279, R282). -/

/-- The engines of a walk, lowest first (R16, R261). -/
def Walk.engines (w : Walk) : List Nat := (List.range (2 ^ w.wrec.cw)).map (w.eng + ·)

/-- Whether a walk has ended. -/
def Walk.over (w : Walk) : Bool := w.st = .done || w.st = .aborted

/-- The code of a walk's state (R281). -/
def WState.code : WState → Nat
  | .posted => 0 | .queued => 1 | .walking => 2 | .stalled => 3 | .frozen => 4 | .draining => 5 | .done => 6
  | .aborted => 7

/-- Whether a walk in this state accumulates or is charged a cause in every cycle (R277). (DEDUCED, log 22.) -/
def WState.charged : WState → Bool
  | .walking | .stalled | .frozen => true
  | _ => false

/-- The status word of a walk (R281): a walk that no cycle charges shows no cause. (DEDUCED, log 22.) -/
def Walk.status (w : Walk) : Dword :=
  BitVec.ofNat 64 (w.st.code + (if w.st.charged then w.scause % 16 else 0) * 2 ^ 4 + (w.acause % 256) * 2 ^ 8
    + min w.tiles (2 ^ 32 - 1) * 2 ^ 16)

/-- Summonses of a walk that are in service. -/
def inService (m : Mach) (wid : Nat) : Bool := aany (fun _ s => s.walk = wid && s.group.isSome) m.summons

/-- Whether a frozen tile boundary is reached: no tile in accumulation, no bank awaiting or under drain.
(DEDUCED, log 30.) -/
def Walk.atBoundary (w : Walk) : Bool := !w.inTile && w.parts.all fun p => p.toDrain.isEmpty && p.drains.isEmpty

/-- Slots of pairs of tiles not yet started are discarded (R282). -/
def dropSlots (start nk : Nat) (sl : List ASlot) : List ASlot :=
  sl.map fun s =>
    match s.pair with
    | some p => if start * nk ≤ p then { s with pair := none, filled := false } else s
    | none => s

/-- The k-steps of a tile (R261). -/
def WalkRec.nk (r : WalkRec) : Nat := ceilDiv r.k r.tk

/-- The tile after the one in accumulation, or the one to start. -/
def Walk.nextTile (w : Walk) : Nat := if w.inTile then w.tile + 1 else w.tile

/-- A tile-boundary freeze begins: summonses of tiles not started are cancelled, their slots discarded, and the
walk is frozen once its started tile and its drains have ended (R282). (DEDUCED, log 30.) -/
def freezeTile (m : Mach) (wid : Nat) : Mach :=
  match aget m.walks wid with
  | none => m
  | some w =>
    if w.over || w.st = .frozen || w.freezing then m
    else if w.st = .posted || w.st = .queued then m.setWalk wid { w with prior := w.st, st := .frozen, told := false }
    else
      let nt := w.nextTile
      let nk := w.wrec.nk
      let m1 := { m with summons := (afilter (fun _ s =>
        !(s.walk = wid && s.kind != SKind.drain && nt ≤ s.tile && s.group.isNone)) m.summons) }
      let m2 := { m1 with summons := amap (fun _ s =>
        if s.walk = wid && s.kind != SKind.drain && nt ≤ s.tile then { s with cancelled := true } else s) m1.summons }
      let parts := w.parts.map fun p =>
        { p with aslots := dropSlots nt nk p.aslots, bslots := dropSlots nt nk p.bslots,
                 islot := p.islot.map fun s => if (s.pair.getD 0) < nt then s else { s with pair := none, filled := false },
                 nextPair := min p.nextPair (nt * nk), nextInit := min p.nextInit nt }
      let w1 := { w with parts := parts, freezing := true, told := false }
      m2.setWalk wid (if w1.atBoundary then { w1 with prior := w.st, st := .frozen, freezing := false } else w1)

/-! Stopping a context and taking a trap (R366 to R369). -/

/-- A queue whose context leaves resident and active is suspended and gives up its slot (R404). -/
def Queue.leave (q : Queue) : Queue :=
  match q.st with
  | .unmapped | .mapped | .blocked | .halted => { q with st := .suspended, hcause := 0, slot := none, told := false }
  | _ => q

/-- The queues of a context suspended (R404). -/
def suspendQueues (m : Mach) (ctx : Nat) : Mach :=
  { m with queues := amap (fun _ q => if q.ctx = ctx then q.leave else q) m.queues }

/-- Every walk of a context frozen at a tile boundary (R282). (DEDUCED, log 30.) -/
def freezeWalks (m : Mach) (ctx : Nat) : Mach :=
  (m.walks.filter fun kw => kw.2.ctx = ctx).foldl (fun m kw => freezeTile m kw.1) m

/-- The group with its chain under way given back to the queue, to be issued again from its first member, and its SQ
entries with it (R40, R95). (DEDUCED, log 44.) -/
def Group.restartChain (g : Group) : Group :=
  match g.chain with
  | none => { g with fabric := .none, flight := none }
  | some c =>
    let again := c.issued.map fun x => { x with fold := false, again := true }
    { g with chain := none, fabric := .none, flight := none,
             qs := { g.qs with liq := again ++ g.qs.liq, sq := c.popped ++ g.qs.sq } }

/-- A core whose chain under way is the group's has none any more. -/
def Core.endChain (c : Core) (gid : Nat) : Core := { c with chainOf := if c.chainOf = some gid then none else c.chainOf }

/-- Every stick chain of a context is to be issued again from its first member (R369). (DEDUCED, log 44.) -/
def restartChains (m : Mach) (ctx : Nat) : Mach :=
  let mine := (m.groups.filter fun kg => kg.2.ctx = ctx).map Prod.fst
  { m with groups := amap (fun _ g => if g.ctx = ctx && g.chain.isSome then g.restartChain else g) m.groups,
           cores := amap (fun _ c => mine.foldl Core.endChain c) m.cores }

/-- The context stops: it is faulted, its queues are suspended, its groups' chains are to start again, and its walks freeze
at a tile boundary (R369, R404). (DEDUCED, log 30; DEDUCED, log 35.) -/
def stopContext (m : Mach) (ctx : Nat) : Mach :=
  match aget m.ctxs ctx with
  | none => m
  | some c =>
    let m1 := if c.st = .active then suspendQueues (m.setCtx ctx { c with st := .faulted }) ctx else m
    freezeWalks (restartChains m1 ctx) ctx

/-- A trap vector entry: goff, loff and disp (R366). -/
structure TrapVector where
  goff : Nat
  loff : Nat
  disp : Nat
  deriving DecidableEq, Repr

/-- The vector entry of a cause, read as the trap is raised; disposition 3 acts as 0 (R366). -/
def readVector (m : Mach) (c : Context) (cause : Nat) : TrapVector :=
  if c.desc.vtab = 0 then { goff := 0, loff := 0, disp := 0 }
  else
    let at_ := c.desc.vtab + 16 * cause
    let d := bits (readNat m (.dev (at_ + 8)) 8) 0 2
    { goff := readNat m (.dev at_) 4, loff := readNat m (.dev (at_ + 4)) 4, disp := if d = 3 then 0 else d }

/-- The disposition with a handler offset checked: disposition 1 acts as 0 without a trap section, or with an
offset that is misaligned or beyond it (R366). -/
def effectiveDisp (c : Context) (disp off : Nat) : Nat :=
  if disp = 1 && (c.desc.tslen = 0 || off % 4 != 0 || c.desc.tslen ≤ off) then 0 else disp

/-- What a trap records (R367). -/
structure TrapInfo where
  lane   : Bool
  cause  : Cause
  code   : Nat
  tspc   : Dword
  tlpc   : Nat
  taddr  : Dword
  tmemb  : Nat
  lxrem  : Nat
  folded : Nat × Nat
  deriving DecidableEq, Repr

/-- SCR_TCAUSE of a trap (R129). (DEDUCED, log 43.) -/
def TrapInfo.word (t : TrapInfo) : Word :=
  BitVec.ofNat 32 (t.cause.num + (t.code % 64) * 2 ^ 8 + (if t.lane then 2 ^ 15 else 0))

/-- The trap registers set from a trap (R367). (DEDUCED, log 43.) -/
def Group.setTrap (g : Group) (t : TrapInfo) : Group :=
  { g with tcause := t.word, tspc := t.tspc, tlpc := t.tlpc, taddr := t.taddr, tmemb := t.tmemb,
           lxrem := t.lxrem, folded := t.folded }

/-- The level that a page fault reports, from SCR_TADDR (R387). (DEDUCED, log 43.) -/
def levelOf (cause : Nat) (addr : Dword) : Nat := if 16 ≤ cause && cause ≤ 19 then bits addr.toNat 57 3 else 0

/-- The report of a group's trap or stop (R366, R379). (DEDUCED, log 52.) -/
def groupReport (kind cause : Nat) (g : Group) (t : TrapInfo) : Report :=
  { kind := kind, src := 0, cause := cause,
    where_ := originOf g + levelOf t.cause.num t.taddr * 2 ^ 24, spc := t.tspc,
    lpc := BitVec.ofNat 64 t.tlpc, addr := if 16 ≤ t.cause.num && t.cause.num ≤ 19 then
      BitVec.ofNat 64 (bits t.taddr.toNat 0 57) else t.taddr, extra := 0 }

/-- The phase that a group goes on waiting for after its trap: that of the YIELD.BAR at which the trap met it (R253). -/
def Group.phaseWait (g : Group) : Option WaitWhy :=
  match g.st with
  | .waiting (.phase o p) => some (.phase o p)
  | _ => g.asideWait

/-- A group stops with its context (R366 disposition 0). -/
def stopGroup (m : Mach) (gid : Nat) (cause : Nat) (t : TrapInfo) : Mach :=
  match m.grp? gid with
  | none => m
  | some g =>
    let m1 := m.setGrp gid { g.setTrap t with st := .trapped .stopped, asideWait := g.phaseWait }
    stopContext (report m1 g.ctx (groupReport 2 cause g t)) g.ctx

/-- A group stops with its context at a trap that cannot be queued (R368): the cause appears in the report alone, and the
trap registers keep what they hold (R365). (DEDUCED, log 50.) -/
def overload (m : Mach) (gid : Nat) (t : TrapInfo) : Mach :=
  match m.grp? gid with
  | none => m
  | some g =>
    let m1 := m.setGrp gid { g with st := .trapped .stopped, asideWait := g.phaseWait }
    stopContext (report m1 g.ctx (groupReport 2 t.cause.num g t)) g.ctx

/-- A trap as its queue entry (R367). -/
def TrapInfo.entry (t : TrapInfo) (disp target : Nat) : TrapRec :=
  { tcause := t.word, tspc := t.tspc, tlpc := t.tlpc, taddr := t.taddr, tmemb := t.tmemb, lxrem := t.lxrem,
    folded := t.folded, disp := disp, target := target }

/-- The group waits in Trapped for an ANSWER (R366, disposition 2). -/
def hostGroup (m : Mach) (gid : Nat) (t : TrapInfo) : Mach :=
  match m.grp? gid with
  | none => m
  | some g =>
    report (m.setGrp gid { g.setTrap t with st := .trapped .host, asideWait := g.phaseWait }) g.ctx (groupReport 1 t.cause.num g t)

/-- A trap enters the group (R366, R367): one that finds the queue full stops the group (R368); else the vector entry
of its cause decides.  A stop or a hand-over to the host acts at once where nothing stands ahead of the trap, and in
its turn in the queue otherwise. -/
def raiseTrap (m : Mach) (gid : Nat) (t : TrapInfo) : Mach :=
  match m.grp? gid with
  | none => m
  | some g =>
    match aget m.ctxs g.ctx with
    | none => m
    | some c =>
      let v := readVector m c t.cause.num
      let d := effectiveDisp c v.disp v.goff
      if 8 ≤ g.traps.length then overload m gid { t with cause := .trapOverflow }
      else if d = 1 || g.isTrapped || !g.traps.isEmpty then
        m.setGrp gid { g with traps := g.traps ++ [t.entry d v.goff] }
      else if d = 2 then hostGroup m gid t
      else stopGroup m gid t.cause.num t

/-- TAKING A TRAP, the one operation every trap of an instruction goes through (R366 to R368): in a Trapped group's
handler it is a double trap and stops the group. (DEDUCED, log 50.) -/
def takeTrap (m : Mach) (gid : Nat) (t : TrapInfo) : Mach :=
  match m.grp? gid with
  | none => m
  | some g =>
    if g.isTrapped then overload m gid { t with cause := .doubleTrap } else raiseTrap m gid t

/-- A trap of a scalar instruction at its own address, or resuming where it says; it is taken once every lane
instruction taken earlier has completed (R123), and until then the instruction waits. -/
def scalarTrapTo (m : Mach) (gid : Nat) (cause : Cause) (code : Nat) (addr resume : Dword) : Mach :=
  match m.grp? gid with
  | none => m
  | some g =>
    if g.qs.liq.isEmpty then
      let t : TrapInfo :=
        { lane := false, cause := cause, code := code, tspc := resume, tlpc := g.lpc, taddr := addr, tmemb := 0,
          lxrem := 0, folded := (0, 0) }
      takeTrap (m.setGrp gid { g with fabric := .none, flight := none, stuck := false }) gid t
    else m.setGrp gid { g with stuck := true }

/-- A trap of a scalar instruction, reporting an address and resuming at the instruction (R123). -/
def scalarTrapAt (m : Mach) (gid : Nat) (cause : Cause) (addr : Dword) : Mach :=
  match m.grp? gid with
  | none => m
  | some g => scalarTrapTo m gid cause 0 addr g.spc

/-- A trap of a scalar instruction that reports no address. -/
def scalarTrap (m : Mach) (gid : Nat) (cause : Cause) : Mach := scalarTrapAt m gid cause 0

/-- A group returns from its trap (R81, R124, R367): the queues set aside come back, and the group is Ready, or goes
on waiting for the phase of its YIELD.BAR (R253); the next pending trap is delivered by its own event. -/
def returnFromTrap (core : Core) (g : Group) : Group :=
  let st : GState := match g.asideWait with
    | some w => .waiting w
    | none => .ready
  { g with st := st, readyAt := core.cyc, qs := g.aside.getD g.qs, aside := none, asideWait := none }

/-- Whether an access of the instruction is outstanding on the fabric. -/
def Fabric.isOut : Fabric → Bool
  | .pending _ _ => true
  | _ => false

/-- Whether the instruction's accesses through a port were ended without a completion (R417). -/
def Fabric.lost (f : Fabric) (port : Option Nat) : Bool :=
  match f, port with
  | .done l, some p => l.contains p
  | _, _ => false

/-- One more access outstanding on a port. -/
def addWait (port : Nat) : List (Nat × Nat) → List (Nat × Nat)
  | [] => [(port, 1)]
  | w :: r => if w.1 = port then (port, w.2 + 1) :: r else w :: addWait port r

/-- Accesses that have just been sent, each by its port. -/
def Fabric.sent (ports : List Nat) : Fabric := .pending (ports.foldl (fun l p => addWait p l) []) []

/-- The outcome of a group's meaning: the current group's, or a fault where there is none. -/
def onGroup (m : Mach) (f : Nat → Group → Mach) : Host.Outcome Mach Fault Refusal :=
  match m.grp? m.cur with
  | none => .fault .noGroup
  | some g => .next (f m.cur g)

/-- A meaning over the module as a meaning over the state: the management side is not touched. -/
def onMach (s : State) (o : Host.Outcome Mach Fault Refusal) : Host.Outcome State Fault Refusal :=
  match o with
  | .next m => .next { s with m := m }
  | .fault f => .fault f
  | .refused r => .refused r

/-- An event of the module: it always answers a next state. (DESIGN CHOICE, log 63.) -/
def event (s : State) (f : Mach → Mach) : Host.Outcome State Fault Refusal := .next { s with m := f s.m }

/-- A group's meaning as a meaning over the state. -/
def groupStep (s : State) (f : Nat → Group → Mach) : Host.Outcome State Fault Refusal := onMach s (onGroup s.m f)

/-- Whether a group waits. -/
def GState.isWaiting : GState → Bool
  | .waiting _ => true
  | _ => false

/-- The state in which an instruction that completes leaves its group: Ready, if it waited (R81). -/
def GState.woken : GState → GState
  | .waiting _ => .ready
  | s => s

/-- A scalar instruction completes without being folded: the group is Ready again, its age restarting, if it waited,
and its PC moves on (R106). -/
def advance (m : Mach) (gid : Nat) (g : Group) (pc : Dword) : Mach :=
  m.setGrp gid { g with spc := pc, stuck := false, waitedFrom := none, bar := none, fabric := .none, flight := none,
                        posting := g.posting.filter fun p => p.spc != g.spc, st := g.st.woken, readyAt := if g.st.isWaiting then (m.core g.core).cyc else g.readyAt }

/-- A scalar instruction completes and is folded (R336). -/
def finish (m : Mach) (gid : Nat) (g : Group) (pc : Dword) (code : Dword) : Mach := advance m gid (g.fold code) pc

/-- A scalar instruction completes and the next one follows it. -/
def retire (m : Mach) (gid : Nat) (g : Group) (code : Dword) : Mach := finish m gid g (g.spc + 4) code

/-- A scalar instruction waits: the group is Waiting (R81); a Trapped group stays so and tries again.
(DESIGN CHOICE, log 12.) -/
def waitFor (m : Mach) (gid : Nat) (g : Group) (why : WaitWhy) : Mach :=
  match g.st with
  | .trapped _ => m.setGrp gid { g with stuck := true }
  | _ => m.setGrp gid { g with st := .waiting why }

/-- A scalar instruction waits and is tried again. (DESIGN CHOICE, log 12.) -/
def wait (m : Mach) (gid : Nat) (g : Group) : Mach := waitFor m gid g .retry

end Sys2Proof.Machine
end

