-- ==== Sys2Proof/Machine/Page.lean ====
section
/-! DEFINITION. Translation (R381 to R390): the table walk with its checks, the accessed and dirty bits, and the
caches of translations.
-/

namespace Sys2Proof.Machine

/-- The bytes of device memory: 1152 × 2^30 (R164). -/
def devTop : Nat := 1152 * 2 ^ 30

/-- The kinds of access that R386 distinguishes. -/
inductive AKind where
  | read
  | write
  | atomic
  | fetch
  deriving DecidableEq, Repr

/-- Whether the access needs w (R386). -/
def AKind.writes : AKind → Bool
  | .write | .atomic => true
  | _ => false

/-- PA[51:12] of an entry (R383). -/
def ptePa (e : Nat) : Nat := bits e 12 40

/-- Whether a present entry of a level breaks the rules of R384 for an address. -/
def pteBroken (e lvl va : Nat) : Bool :=
  let leaf := bit e 1
  let pa := ptePa e * 4096
  let size := bits e 10 2
  bit e 63
  || (leaf && 3 ≤ lvl) || (!leaf && lvl = 0)
  || (leaf && lvl = 0 && 2 ≤ size) || (!(leaf && lvl = 0) && size != 0)
  || (!(leaf && lvl = 1) && bit e 9)
  || (!leaf && bits e 2 7 != 0)
  || (leaf && bit e 3 && !bit e 2)
  || (leaf && lvl = 0 && size = 1 && bits pa 12 4 != 0)
  || (leaf && lvl = 1 && bits pa 12 9 != 0)
  || (leaf && lvl = 1 && bit e 9 && bits pa 21 4 != bits va 21 4)
  || (leaf && lvl = 2 && bits pa 12 18 != 0)
  || (!leaf && devTop ≤ pa)

/-- The size of a leaf's page, as a power of two (R385). -/
def leafLog (e lvl : Nat) : Nat :=
  match lvl with
  | 0 => if bits e 10 2 = 1 then 16 else 12
  | 1 => if bit e 9 then 25 else 21
  | _ => 30

/-- The physical address a leaf gives (R385): the slot of a 32 MiB page that was read holds its own number in
pa[24:21], so that every slot gives the same base. -/
def leafPa (e lvl va : Nat) : Nat :=
  let pa := ptePa e * 4096
  let log := leafLog e lvl
  if log = 25 then pa / 2 ^ 25 * 2 ^ 25 + va % 2 ^ 25 else pa + va % 2 ^ log

/-- A canonical address: bits 63 to 57 all equal bit 56 (R114). -/
def canonical (va : Nat) : Bool :=
  let top := bits va 56 8
  top = 0 || top = 255

/-- The part of an address that chooses the table of a level (R386, R391). -/
def tableTag (va lvl : Nat) : Nat := bits va 0 57 / 2 ^ (12 + 9 * (lvl + 1))

/-- The walk from the table of a level (R386): the leaf found, or the fault and its level, with the tables
passed. -/
def walkTables (m : Mach) (ctx va : Nat) : Nat → Nat → List WalkEntry → Except (Cause × Nat) (TlbEntry × List WalkEntry)
  | lvl, table, seen =>
    let at_ := table + 8 * bits va (12 + 9 * lvl) 9
    let e := readNat m (.dev at_) 8
    if !bit e 0 then .error (.notPresent, lvl)
    else if pteBroken e lvl va then .error (.reservedBit, lvl)
    else if bit e 1 then
      .ok ({ ctx := ctx, base := bits va 0 57 / 2 ^ leafLog e lvl * 2 ^ leafLog e lvl, log := leafLog e lvl,
             level := lvl, pte := BitVec.ofNat 64 e, pteAt := at_ }, seen)
    else
      match lvl with
      | 0 => .error (.reservedBit, 0)
      | l + 1 =>
        walkTables m ctx va l (ptePa e * 4096)
          ({ ctx := ctx, level := l, pre := tableTag va l, table := ptePa e * 4096 } :: seen)

/-- Whether a cached leaf covers an address (R388). -/
def TlbEntry.covers (t : TlbEntry) (ctx va : Nat) : Bool :=
  t.ctx = ctx && t.base ≤ bits va 0 57 && bits va 0 57 < t.base + 2 ^ t.log

/-- The rights of a leaf for an access (R386): the fault it raises, if any. -/
def leafFault (t : TlbEntry) (k : AKind) (va : Nat) : Option Cause :=
  let e := t.pte.toNat
  let r := bit e 2
  let w := bit e 3
  let ok := match k with
    | .read => r
    | .write => w
    | .atomic => r && w
    | .fetch => bit e 4
  if !ok then some .permission
  else if k = .atomic && bit e 7 then some .accessKind
  else if k = .fetch && bit (leafPa e t.level va) 51 then some .accessKind
  else none

/-- Whether a cached leaf may serve an access as it is: its rights pass, a is set, and d for a write (R388,
R389). -/
def TlbEntry.serves (t : TlbEntry) (k : AKind) (va : Nat) : Bool :=
  (leafFault t k va).isNone && bit t.pte.toNat 5 && (!k.writes || bit t.pte.toNat 6)

/-- The entry with a, and d where the access writes (R389). -/
def TlbEntry.marked (t : TlbEntry) (k : AKind) : TlbEntry :=
  { t with pte := t.pte ||| (if k.writes then 0x60 else 0x20) }

/-- An entry put into a TLB of so many entries, the oldest leaving it (R388). (DESIGN CHOICE, log 7.) -/
def tlbFill (n : Nat) (l : List TlbEntry) (t : TlbEntry) : List TlbEntry :=
  (t :: l.filter fun x => !(x.ctx = t.ctx && x.base = t.base && x.log = t.log)).take n

/-- The deepest cached table pointer for an address, if the implementation uses one (R388); a table lies in device memory
(R384). (DESIGN CHOICE, log 7.) -/
def startOf (m : Mach) (die ctx va root : Nat) : Nat × Nat :=
  match (m.die die).wcache.find? fun w => w.ctx = ctx && w.pre = tableTag va w.level with
  | some w => if w.table < devTop && m.pick 2 = 0 then (w.level, w.table) else (4, root)
  | none => (4, root)

/-- The result of a translation: the machine with its caches and the entry's bits changed, the physical address
and the leaf; or the fault and its level. -/
abbrev Translated := Except (Cause × Nat) (Mach × Nat × TlbEntry)

/-- The TLBs of a core and its cluster without the entries that cover an address: before it walks again the hardware
discards the entry that does not serve (R388). -/
def dropLeaf (m : Mach) (core ctx va : Nat) : Mach :=
  let cr := m.core core
  let cl := m.cluster (clusterOf core)
  let keep (t : TlbEntry) : Bool := !t.covers ctx va
  (m.setCore core { cr with tlb := cr.tlb.filter keep }).setCluster (clusterOf core) { cl with tlb := cl.tlb.filter keep }

/-- A fresh walk (R386), which sets a and d (R389) and fills the caches (R388). (DESIGN CHOICE, log 7.) -/
def walkFresh (m : Mach) (core ctx va : Nat) (k : AKind) : Translated :=
  match aget m.ctxs ctx with
  | none => .error (.notPresent, 4)
  | some c =>
    match c.root with
    | none => .error (.notPresent, 4)
    | some root =>
      if devTop ≤ root then .error (.reservedBit, 4)
      else
        let (lvl, table) := startOf m (dieOf core) ctx va root
        match walkTables m ctx va lvl table [] with
        | .error e => .error e
        | .ok (t, seen) =>
          match leafFault t k va with
          | some f => .error (f, t.level)
          | none =>
            let t1 := t.marked k
            let m0 := dropLeaf m core ctx va
            let m1 := if t1.pte = t.pte then m0 else writeNat m0 (.dev t.pteAt) 8 t1.pte.toNat
            let cr := m1.core core
            let cl := m1.cluster (clusterOf core)
            let d := m1.die (dieOf core)
            let m2 := m1.setCore core { cr with tlb := tlbFill 64 cr.tlb t1 }
            let m3 := m2.setCluster (clusterOf core) { cl with tlb := tlbFill 2048 cl.tlb t1 }
            let m4 := m3.setDie (dieOf core) { d with wcache := (seen ++ d.wcache).take 512 }
            .ok (m4.bump, leafPa t1.pte.toNat t1.level va, t1)

/-- Whether a context's root is set: one that is not faults every translation (R382). -/
def hasRoot (m : Mach) (ctx : Nat) : Bool := ((aget m.ctxs ctx).bind Context.root).isSome

/-- A translation for an access of a core (R386 to R389): through a cached leaf, where one covers the address, it
may serve the access and the implementation uses it; else by a walk. (DESIGN CHOICE, log 7.) -/
def translate (m : Mach) (core ctx va : Nat) (k : AKind) : Translated :=
  if !canonical va || !hasRoot m ctx then .error (.notPresent, 4)
  else
    match ((m.core core).tlb ++ (m.cluster (clusterOf core)).tlb).find? fun t => t.covers ctx va with
    | some t =>
      if t.serves k va && m.pick 2 = 0 then .ok (m.bump, leafPa t.pte.toNat t.level va, t)
      else walkFresh m core ctx va k
    | none => walkFresh m core ctx va k

/-- What an access that faults leaves of its translation: the cached entry is discarded where the walk after it fails
(R388), and a and d stand where the translation passed and only the target check fails (R174, R386, R389). -/
def afterFault (m : Mach) (core ctx va : Nat) (k : AKind) : Mach :=
  match translate m core ctx va k with
  | .ok (m1, _, _) => m1
  | .error _ => if canonical va && hasRoot m ctx then dropLeaf m core ctx va else m

/-- The address of a page fault in SCR_TADDR: VA[56:0], and the level in bits 59 to 57 (R387). -/
def faultAddr (va level : Nat) : Dword := BitVec.ofNat 64 (bits va 0 57 + level * 2 ^ 57)

/-- What an entry of the route table makes of a fabric address (R411, R412): the port and the far address, if it is valid. -/
def routeBy (entry : Dword) (pa : Nat) : Option (Nat × Nat) :=
  let e := entry.toNat
  if bit e 63 && bits e 0 5 < 18 then some (bits e 0 5, bits e 16 7 * 2 ^ 45 + bits pa 0 45) else none

/-- The route of a fabric address for a new access (R412): its port must be up or degraded. -/
def route (m : Mach) (pa : Nat) : Option (Nat × Nat) :=
  (routeBy ((m.routes[bits pa 45 6]?).getD 0) pa).filter fun pf =>
    match m.ports[pf.1]? with
    | some p => p.st = .up || p.st = .degraded
    | none => false

/-- The target of a physical address for a new access (R164, R412). -/
def target (m : Mach) (pa : Nat) : Option Loc :=
  if pa < devTop then some (.dev pa)
  else if bit pa 51 then (route m pa).map fun pf => .ext pf.1 pf.2
  else none

/-- The target of an access that is under way: it goes by the entry as it was sent, or by the one that stands now, where
that was changed under it (R411). -/
def targetSent (m : Mach) (pa : Nat) (f : Flight) : Option Loc :=
  if bit pa 51 && !(pa < devTop) then
    let old := routeBy ((f.routes[bits pa 45 6]?).getD 0) pa
    let now := routeBy ((m.routes[bits pa 45 6]?).getD 0) pa
    ((if f.seed % 2 = 1 then now.orElse fun _ => old else old.orElse fun _ => now)).map fun pf => .ext pf.1 pf.2
  else target m pa

/-! Engines and command processors over the fabric (R167, R407, R414, R417). -/

/-- The port through which an access under way was sent (R411). -/
def sentPort (m : Mach) (pa : Nat) (f : Flight) : Option Nat :=
  if bit pa 51 && !(pa < devTop) then
    ((routeBy ((f.routes[bits pa 45 6]?).getD 0) pa).orElse fun _ => routeBy ((m.routes[bits pa 45 6]?).getD 0) pa).map Prod.fst
  else none

/-- Lines of CXL memory behind a port, as their home slice numbers them. (DESIGN CHOICE, log 6.) -/
def cxlLines (port far n : Nat) : List Nat :=
  (List.range ((far + n + 63) / 64 - far / 64)).map fun i => port * 2 ^ 48 + far / 64 + i

/-- The die whose L2 is home to a line of CXL memory (R167). -/
def lineDie (port far : Nat) : Nat := cxlHomeDie port far

/-- Whether an access behind a port is served by this module's L2, which holds the lines coherently (R167, R407). -/
def heldInL2 (m : Mach) (port far n : Nat) : Bool :=
  ((m.ports[port]?).map Port.inUse).getD false && (cxlLines port far n).all fun l => (m.die (lineDie port far)).cxl.contains l

/-- The L2 may keep the lines of an access behind a CXL port (R407). (DESIGN CHOICE, log 6.) -/
def keepLines (m : Mach) (port far n : Nat) : Mach :=
  if ((m.ports[port]?).map Port.inUse).getD false then
    let d := m.die (lineDie port far)
    if m.pick 2 = 0 then (m.setDie (lineDie port far) { d with cxl := (cxlLines port far n ++ d.cxl).dedup }).bump else m.bump
  else m

/-- One more access that a timeout or a fence ended (R417). -/
def countEnded (m : Mach) (port : Nat) : Mach :=
  { m with ports := updateAt m.ports port fun p => { p with tmo := min (p.tmo + 1) 65535 } }

/-- Whether an access of an engine or a command processor at a place completes, or is ended without its completion.
(DESIGN CHOICE, log 11.) -/
def farEnds (m : Mach) (l : Loc) (n : Nat) : Option Nat :=
  match l with
  | .ext p far => if !heldInL2 m p far n && m.pick 2 = 1 then some p else none
  | _ => none

/-- Bytes that an engine or a command processor reads (R414): where the access is ended, each is 0xFF (R417). -/
def farRead (m : Mach) (l : Loc) (n : Nat) : Mach × List Byte :=
  match l with
  | .ext p far =>
    match farEnds m l n with
    | some p => ((countEnded m p).bump, List.replicate n 0xFF)
    | none => (keepLines m.bump p far n, readBytes m l n)
  | _ => (m, readBytes m l n)

/-- Bytes that an engine or a command processor writes (R414): where the access is ended, it may or may not have been
performed (R417). -/
def farWrite (m : Mach) (l : Loc) (bs : List Byte) : Mach :=
  match l with
  | .ext p far =>
    match farEnds m l bs.length with
    | some p =>
      let m1 := (countEnded m p).bump
      if m1.pick 2 = 0 then m1.bump else writeBytes m1.bump l bs
    | none => writeBytes (keepLines m.bump p far bs.length) l bs
  | _ => writeBytes m l bs

/-- A virtual address of a context, translated for an engine or a command processor (R398): its location, or the machine that
a fault leaves, its cause and level. -/
def locateFor (m : Mach) (core ctx va : Nat) (k : AKind) : Except (Mach × Cause × Nat) (Mach × Loc) :=
  match translate m core ctx va k with
  | .error e => .error (afterFault m core ctx va k, e)
  | .ok (m1, pa, _) =>
    match target m1 pa with
    | none => .error (m1, .noTarget, 0)
    | some l => .ok (m1, l)

/-- Bytes read at virtual addresses of a context, 8 at a time; each piece is translated (R386).
(DESIGN CHOICE, log 11.) -/
def readVirtual (core ctx : Nat) : Nat → Mach → Nat → List Byte → Except (Mach × Cause × Nat × Nat) (Mach × List Byte)
  | 0, m, _, acc => .ok (m, acc)
  | n + 1, m, va, acc =>
    match locateFor m core ctx va .read with
    | .error (m1, c, l) => .error (m1, c, l, va)
    | .ok (m1, l) =>
      let (m2, bs) := farRead m1 l 8
      readVirtual core ctx n m2 (va + 8) (acc ++ bs)

/-- Bytes written at virtual addresses of a context, 8 at a time (R386); a fault leaves those before it written.
(DESIGN CHOICE, log 11.) -/
def writeVirtual (core ctx : Nat) : List (List Byte) → Mach → Nat → Except (Mach × Cause × Nat × Nat) Mach
  | [], m, _ => .ok m
  | b :: r, m, va =>
    match locateFor m core ctx va .write with
    | .error (m1, c, l) => .error (m1, c, l, va)
    | .ok (m1, l) => writeVirtual core ctx r (farWrite m1 l b) (va + b.length)

/-- Every cached translation that a test keeps (R388, R391). -/
def filterCaches (m : Mach) (keepLeaf : TlbEntry → Bool) (keepTable : WalkEntry → Bool) : Mach :=
  { m with cores := amap (fun _ c => { c with tlb := c.tlb.filter keepLeaf }) m.cores,
           clusters := amap (fun _ c => { c with tlb := c.tlb.filter keepLeaf }) m.clusters,
           dies := amap (fun _ d => { d with wcache := d.wcache.filter keepTable }) m.dies }

/-- A context's entries leave every cache (R388). -/
def dropContextCaches (m : Mach) (ctx : Nat) : Mach :=
  filterCaches m (fun t => t.ctx != ctx) (fun w => w.ctx != ctx)

end Sys2Proof.Machine
end

