-- ==== Sys2Proof/Machine/Access.lean ====
section
/-! DEFINITION. The accesses of a group: address windows and protection (R161 to R163, R264), the L1 (R166, R200),
acquires (R169), and the fabric (R412, R414, R417).
-/

namespace Sys2Proof.Machine

/-- The scopes of R42, narrowest first. -/
inductive Scope where
  | grp
  | team
  | clu
  | dev
  | sys
  deriving DecidableEq, Repr

/-- A scope from its code (R42). -/
def Scope.ofCode : Nat → Scope
  | 0 => .grp
  | 1 => .team
  | 2 => .clu
  | 3 => .dev
  | _ => .sys

/-- Whether an address lies in the local windows (R161). -/
def isLocal (va : Nat) : Bool := va / 2 ^ 48 = 0xFF

/-- Whether scratchpad byte a is reserved to the context (R163, R441). -/
def spadReserved (m : Mach) (ctx a n : Nat) : Bool :=
  match (aget m.ctxs ctx).bind Context.quota with
  | none => false
  | some q =>
    let off := a % spadSize
    q.clusters.getLsbD (a / spadSize / 8) && 4096 * q.spbase ≤ off && off + n ≤ 4096 * (q.spbase + q.spsize)

/-- Whether chip-scratchpad bytes are reserved to the context (R163, R441). -/
def chipReserved (m : Mach) (ctx a n : Nat) : Bool :=
  match (aget m.ctxs ctx).bind Context.quota with
  | none => false
  | some q =>
    let off := a % 2 ^ 24
    65536 * q.cpbase ≤ off && off + n ≤ 65536 * (q.cpbase + q.cpsize)

/-- The bytes of an armature slot: its contents rounded up to a multiple of 256 (R263). -/
def slotBytes (n : Nat) : Nat := 256 * ceilDiv n 256

/-- The armature slot that a group fills: its base over all engines and its size (R263, R264). -/
def fillingSlot (m : Mach) (g : Group) : Option (Nat × Nat) :=
  match g.serving.bind (aget m.summons ·) with
  | none => none
  | some s =>
    match aget m.walks s.walk with
    | none => none
    | some w =>
      match w.parts[s.part]? with
      | none => none
      | some p =>
        let eb := match ((m.lrec? g).bind fun r => r.slots[w.wrec.aslot]?).map fun d => bits d.toNat 0 4 with
          | some 0 => 64 | some 1 => 32 | some 2 => 16 | some 3 => 16 | some 4 => 8 | some 5 => 8 | some 6 => 4 | some 8 => 4
          | _ => 8
        let ab := match w.wrec.accfmt with
          | 0 => 4 | 3 => 8 | _ => 2
        let stride := 16 * ceilDiv (w.wrec.tk * eb) 128
        let base := (w.eng + s.part) * 2 ^ 20
        match s.kind with
        | .a => (p.aslots[s.slot]?).map fun x => (base + x.off, slotBytes (w.wrec.tm * stride))
        | .b => (p.bslots[s.slot]?).map fun x => (base + x.off, slotBytes (w.wrec.tn * stride))
        | .init => p.islot.map fun x => (base + x.off, slotBytes (w.wrec.tm * (16 * ceilDiv (w.wrec.tn * ab) 16)))
        | .drain => none

/-- The lane-private address of an offset (R162); a scalar access uses the slice of its group's lane 0. -/
def privateVa (m : Mach) (g : Group) (lane o : Nat) : Option Nat :=
  match m.lrec? g, aget m.teams g.team with
  | some r, some t =>
    if o < r.slice then
      let lanes := (if g.kind = .kernel then r.tgroups else 1) * g.width
      let tl := g.gidx * g.width + lane
      some (r.priv.toNat + t.frame * lanes * r.slice + o / 16 * lanes * 16 + tl * 16 + o % 16)
    else none
  | _, _ => none

/-- A located access: the machine with its translation caches changed, the location, whether the L1 may hold
it, and the port it crosses, if it does. -/
structure Located where
  m     : Mach
  loc   : Loc
  cache : Bool
  port  : Option Nat
  deriving DecidableEq, Repr

/-- The port that an access to a place crosses: none where this module's L2 holds the line (R167, R407). -/
def Loc.crosses (m : Mach) (l : Loc) : Option Nat :=
  match l with
  | .ext p far => if heldInL2 m p far 1 then none else some p
  | _ => none

/-- A translated address of a group (R174, steps 3 and 4): a new access goes where the route table says, one that was sent
keeps the port through which it was (R411). -/
def locateVirtual (m : Mach) (g : Group) (va : Nat) (k : AKind) : Except (Cause × Dword) Located :=
  match translate m g.core g.ctx va k with
  | .error (c, l) => .error (c, faultAddr va l)
  | .ok (m1, pa, t) =>
    let found :=
      match g.flight with
      | none => (target m1 pa).map fun l => (l, l.crosses m1)
      | some f => (targetSent m1 pa f).map fun l => (l, sentPort m1 pa f)
    match found with
    | none => .error (.noTarget, BitVec.ofNat 64 va)
    | some (l, p) => .ok { m := m1, loc := l, cache := !bit t.pte.toNat 8, port := p }

/-- An access of a group located (R161 to R164, R174 steps 2 to 4): canonical form, window and protection,
translation and kind, target.  `arm` says whether the instruction is one that may reach the armature window
(R264). -/
def locate (m : Mach) (g : Group) (lane va size : Nat) (k : AKind) (arm : Bool) : Except (Cause × Dword) Located :=
  let at_ : Dword := BitVec.ofNat 64 va
  let range : Except (Cause × Dword) Located := .error (.windowRange, at_)
  if !canonical va then .error (.notPresent, faultAddr va 4)
  else if !isLocal va then locateVirtual m g va k
  else
    let win := bits va 32 16
    let off := va % 2 ^ 32
    let spad (a : Nat) : Except (Cause × Dword) Located :=
      if spadReserved m g.ctx a size then .ok { m := m, loc := .spad a, cache := false, port := none }
      else .error (.windowProtection, at_)
    match win with
    | 0 => if off < spadSize then spad (g.core * spadSize + off) else range
    | 1 => if off < 8 * spadSize then spad (clusterOf g.core * 8 * spadSize + off) else range
    | 2 =>
      if off < 2 ^ 27 then
        if chipReserved m g.ctx off size then .ok { m := m, loc := .chip off, cache := false, port := none }
        else .error (.windowProtection, at_)
      else range
    | 3 =>
      match fillingSlot m g with
      | some (base, n) =>
        let a := clusterOf g.core * 2 ^ 20 + off
        if arm && off < 2 ^ 20 && base ≤ a && a + size ≤ base + n then
          .ok { m := m, loc := .arm a, cache := false, port := none }
        else range
      | none => range
    | _ =>
      if 0x100 ≤ win then
        match privateVa m g lane (va - 0x00FF010000000000) with
        | some v => if canonical v then locateVirtual m g v k else .error (.notPresent, faultAddr v 4)
        | none => range
      else range

/-- The machine that an access which `locate` refuses leaves: where it was translated, with what that leaves (R386, R388,
R389). -/
def afterLocate (m : Mach) (g : Group) (lane va : Nat) (k : AKind) : Mach :=
  if !isLocal va then afterFault m g.core g.ctx va k
  else if 0x100 ≤ bits va 32 16 then
    match privateVa m g lane (va - 0x00FF010000000000) with
    | some v => afterFault m g.core g.ctx v k
    | none => m
  else m

/-! The L1 (R166, R168, R200). -/

/-- Whether a group's team lies on one core (R168, R169). -/
def teamOnOneCore (m : Mach) (g : Group) : Bool := !((aget m.teams g.team).map Team.spans).getD false

/-- Whether a load at a scope may return an L1 copy (R168). (DESIGN CHOICE, log 6.) -/
def mayHit (m : Mach) (g : Group) (s : Scope) : Bool :=
  match s with
  | .grp => true
  | .team => teamOnOneCore m g
  | _ => false

/-- The bytes of a range that an L1 holds, if it holds them all. -/
def l1Bytes (l1 : AMap Byte) (pa : Nat) : Nat → Option (List Byte)
  | 0 => some []
  | n + 1 =>
    match aget l1 pa, l1Bytes l1 (pa + 1) n with
    | some b, some bs => some (b :: bs)
    | _, _ => none

/-- Bytes put into an L1. (DESIGN CHOICE, log 6.) -/
def l1Fill (l1 : AMap Byte) (pa : Nat) : List Byte → AMap Byte
  | [] => l1
  | b :: bs => l1Fill (aput l1 pa b) (pa + 1) bs

/-- The bytes of a core's L1 (R3, R17). -/
def l1Size : Nat := 128 * 1024

/-- A fill of an L1 within its size: where it has no room, what it held before leaves it. (DESIGN CHOICE, log 6.) -/
def l1Put (l1 : AMap Byte) (pa : Nat) (bs : List Byte) : AMap Byte :=
  let l := l1Fill l1 pa bs
  if l1Size < l.length then l1Fill [] pa bs else l

/-- Copies dropped from an L1. (DESIGN CHOICE, log 6.) -/
def l1Drop (l1 : AMap Byte) (pa : Nat) : Nat → AMap Byte
  | 0 => l1
  | n + 1 => l1Drop (adel l1 pa) (pa + 1) n

/-- An L1 after a store (R166, R200): its 16-byte words that the store meets hold the bytes stored, where it held them all
before or allocates them, and no older copy of a byte beside them, so that no load of the whole word meets bytes of two
times (R198). (DESIGN CHOICE, log 6.) -/
def l1Store (l1 : AMap Byte) (pa : Nat) (bs : List Byte) (allocate : Bool) : AMap Byte :=
  let base := pa / 16 * 16
  let rest := l1Drop l1 base (16 * ((pa + bs.length + 15) / 16 - pa / 16))
  if allocate || (l1Bytes l1 pa bs.length).isSome then l1Put rest pa bs else rest

/-! Flit budgets (R418). -/

/-- The flits of a context that a port has carried in a direction in the budget period; 0 is outward (R418). -/
def Port.carried (p : Port) (ctx dir : Nat) : Nat := (aget p.flits (2 * ctx + dir)).getD 0

/-- Whether a context's budget of flits on a port in a direction is not spent (R418). (DESIGN CHOICE, log 56.) -/
def flitRoom (m : Mach) (ctx port dir : Nat) : Bool :=
  match aget m.flitBudget ctx, m.ports[port]? with
  | some b, some p => p.carried ctx dir < b
  | _, _ => true

/-- Flits of a context counted on a port (R418). (DESIGN CHOICE, log 56.) -/
def countFlits (m : Mach) (ctx port dir n : Nat) : Mach :=
  { m with ports := updateAt m.ports port fun p => { p with flits := aput p.flits (2 * ctx + dir) (p.carried ctx dir + n) } }

/-- Whether an engine entry is performed: the copy entry is no longer among its ring's publications, the walk has
ended, the posted peer store is acknowledged (R186). -/
def EngineEntry.performed (m : Mach) : EngineEntry → Bool
  | .copy team ix =>
    match aget m.teams team with
    | none => true
    | some t => !t.pubs.any fun p => p.ix = ix
  | .walk id =>
    match aget m.walks id with
    | none => true
    | some w => w.over
  | .pst id => (aget m.psts id).isNone

/-- Whether a posted peer store may be performed: what it is ordered after is performed (R186, R202), and its context's
budget on the port is not spent (R418). -/
def Pst.mayLand (m : Mach) (p : Pst) : Bool :=
  !p.lost && p.after.all (EngineEntry.performed m) && flitRoom m p.ctx p.port 0

/-- The granules of a posted peer store that meet a range behind its port and are not performed yet. -/
def Pst.meeting (p : Pst) (port far n : Nat) : List (Nat × List Byte) :=
  if p.port = port then p.left.filter fun b => b.1 < far + n && far < b.1 + b.2.length else []

/-- The granules of a posted peer store that meet a range performed at its peer (R170, R184). -/
def landPst (m : Mach) (id port far n : Nat) : Mach :=
  match aget m.psts id with
  | some p =>
    let now := p.meeting port far n
    let m0 := if now.isEmpty then m else countFlits m p.ctx port 0 1
    let m1 := now.foldl (fun m b => writeBytes m (.ext port b.1) b.2) m0
    { m1 with psts := aput m1.psts id { p with left := p.left.filter fun b => !now.contains b } }
  | none => m

/-- The posted peer stores up to a number that meet a range of fabric memory performed there, the oldest first: stores to
one location keep the order in which they were issued (R196). (DESIGN CHOICE, log 4; DEDUCED, log 47.) -/
def landPsts (m : Mach) (l : Loc) (n upTo : Nat) : Mach :=
  match l with
  | .ext port far =>
    (m.psts.filter fun kp => kp.1 ≤ upTo && kp.2.mayLand m && !(kp.2.meeting port far n).isEmpty).foldl
      (fun m kp => landPst m kp.1 port far n) m
  | _ => m

/-- Before an access of a range the posted peer stores that it meets are performed (R196, R200). -/
def landAll (m : Mach) (l : Loc) (n : Nat) : Mach := landPsts m l n m.nextId

/-- Whether a posted peer store of a group on a port is not performed and may not be yet: a later access of the group
there completes after it (R115, R186, R200). (DEDUCED, log 47.) -/
def pstHolds (m : Mach) (gid port : Nat) : Bool :=
  aany (fun _ p => p.group = gid && p.port = port && !p.lost && !p.left.isEmpty && !p.mayLand m) m.psts

/-- The words of 16 bytes that a fill around an address may take, up to the end of its page, beyond which another leaf
says what may be held (R166, R383). -/
def fillWords (m : Mach) (pa : Nat) : Nat := min (1 + m.pick 8) ((4096 - pa / 16 * 16 % 4096) / 16)

/-- A load that misses the L1 (R166): its bytes come from the home, what the L1 held of them is gone, and it is filled by
1 to 8 words of 16 bytes unless the page or the hint keeps the data out. (DESIGN CHOICE, log 6.) -/
def missBytes (m : Mach) (g : Group) (l : Located) (pa size hint : Nat) : Mach × List Byte :=
  let c := m.core g.core
  let home := readBytes m l.loc size
  let l1 := l1Drop c.l1 pa size
  if l.cache && hint != 3 then
    let base := pa / 16 * 16
    let line := readBytes m (.dev base) (16 * fillWords m pa)
    ((m.setCore g.core { c with l1 := l1Put l1 base line }).bump, home)
  else (m.setCore g.core { c with l1 := l1 }, home)

/-- A load's bytes (R168, R176): from the L1 where the scope and the page allow it (R383), it holds them and the
implementation has kept the copy; else from the home, and at a wider scope the L1's copies are dropped (R200).
(DESIGN CHOICE, log 4; DESIGN CHOICE, log 6.) -/
def loadBytes (m : Mach) (g : Group) (l : Located) (size : Nat) (s : Scope) (hint : Nat) : Mach × List Byte :=
  match l.loc with
  | .dev pa =>
    let c := m.core g.core
    if mayHit m g s && l.cache then
      match l1Bytes c.l1 pa size with
      | some bs => if m.pick 2 = 0 then (m.bump, bs) else missBytes m.bump g l pa size hint
      | none => missBytes m g l pa size hint
    else
      (m.setCore g.core { c with l1 := l1Drop c.l1 pa size }, readBytes m l.loc size)
  | _ =>
    let m1 := landAll m l.loc size
    (m1, readBytes m1 l.loc size)

/-- The work queue of a kernel that holds chip-scratchpad byte a (R355). -/
def workQueueAt (m : Mach) (a : Nat) : Option Kernel :=
  (m.kerns.find? fun kk =>
    match kk.2.wqBase with
    | some b => b ≤ a && a < b + 16 * 2 ^ kk.2.lrec.wqlog
    | none => false).map Prod.snd

/-- The publications that a new tail adds: each entry not published before belongs to the group that first set
the tail past it (R246). (DEDUCED, log 48.) -/
def publishTo (t : Team) (gid : Nat) (after : List EngineEntry) : Team :=
  let n := (t.notify - t.head).toNat
  if 64 < n then { t with halt := true, cause := 7, run := none }
  else
    let fresh := (List.range n).filterMap fun i =>
      let ix := t.head + BitVec.ofNat 32 i
      if t.pubs.any (fun p => p.ix = ix) then none
      else some { ix := ix, group := gid, after := after : Publication }
    { t with pubs := (t.pubs.filter fun p => (p.ix - t.head).toNat < n) ++ fresh }

/-- What a copy-ring entry published now is ordered after (R186, R202). -/
def Group.orderedAfter (g : Group) (bitNo : Nat) : List EngineEntry :=
  g.joins.flatMap fun j => if j.set.getLsbD bitNo then j.waits else []

/-- After bytes were stored by a group: a store to a work queue makes its records indeterminate (R355), and a
store to a ring header publishes entries or halts the ring (R246). -/
def afterStore (m : Mach) (gid : Nat) (g : Group) (l : Loc) : Mach :=
  match l with
  | .chip a =>
    match workQueueAt m a with
    | some k => makeIndet m (.chip (k.wqBase.getD 0)) (16 * 2 ^ k.lrec.wqlog)
    | none => m
  | .spad a =>
    match ringAt m a with
    | some (k, t) => if a < t.share + 4 then m.setTeam k (publishTo t gid (g.orderedAfter 1)) else m
    | none => m
  | _ => m

/-- A record of a task pool that a program stored over: its fields are free values (R361). -/
def TaskRec.scrambled (r : TaskRec) (f : Nat) : TaskRec :=
  let x (i : Nat) : Nat := (Config.freeDword (f + i)).toNat
  let st : Option TState := match x 1 % 5 with
    | 0 => none
    | 1 => some .unpublished
    | 2 => some .published
    | 3 => some .ready
    | _ => some .running
  { r with gen := x 0 % 2 ^ 24, st := st, c := x 2 % 2 ^ 24, node := x 3 % 2 ^ 10, stamp := Config.freeDword (f + 4),
           entry := x 5 % 2 ^ 32, solo := x 6 % 2 = 1, payload := r.payload.map fun _ => (Config.freeDword (f + 7)).truncate 32,
           succs := r.succs.map fun _ => Config.freeDword (f + 8) }

/-- The records of a context's pool that bytes of device memory lie in. -/
def CtxDesc.records (d : CtxDesc) (pa n : Nat) : List Nat :=
  if pa < d.poolbase + 320 * d.poolsize && d.poolbase < pa + n then
    let lo := (pa - d.poolbase) / 320
    (List.range ((pa + n - 1 - d.poolbase) / 320 - lo + 1)).map (lo + ·) |>.filter (· < d.poolsize)
  else []

/-- A context with the records stored over indeterminate. (DESIGN CHOICE, log 3.) -/
def Context.scramble (c : Context) (f pa n : Nat) : Context :=
  let fresh : TaskRec := { gen := 1, st := none, c := 0, node := 0, stamp := 0, kern := 0, entry := 0, solo := false,
                           payload := [], succs := [], die := 0, order := 0 }
  { c with pool := (c.desc.records pa n).foldl (fun p i => aput p i (((aget p i).getD fresh).scrambled (f + 16 * i))) c.pool }

/-- A program's store to device memory that meets a task pool (R361): no fault is raised, and the records that it meets
are indeterminate. -/
def poolStored (m : Mach) (pa n : Nat) : Mach :=
  if aany (fun _ c => !(c.desc.records pa n).isEmpty) m.ctxs then
    { m with ctxs := amap (fun _ c => c.scramble m.free pa n) m.ctxs, free := m.free + 1 }
  else m

/-- A store of a group performed (R166, R168, R177): at the home, with the L1's copies brought up to date, and
allocated there under hint 2. (DESIGN CHOICE, log 4.) -/
def storeBytes (m : Mach) (gid : Nat) (g : Group) (l : Located) (bs : List Byte) (hint : Nat) : Mach :=
  let m1 := writeBytes (landAll m l.loc bs.length) l.loc bs
  match l.loc with
  | .dev pa =>
    let c := m1.core g.core
    poolStored (m1.setCore g.core { c with l1 := l1Store c.l1 pa bs (hint = 2 && l.cache) }) pa bs.length
  | _ => afterStore m1 gid g l.loc

/-- An atomic's read and write at the point of performance, dropping the L1's copies (R166, R178, R200).
(DESIGN CHOICE, log 4.) -/
def atomicBytes (m : Mach) (gid : Nat) (g : Group) (l : Located) (size : Nat) (f : Nat → Option Nat) : Mach × Nat :=
  let m0 := landAll m l.loc size
  let old := readNat m0 l.loc size
  let m1 := match l.loc with
    | .dev pa =>
      let c := m0.core g.core
      m0.setCore g.core { c with l1 := l1Drop c.l1 pa size }
    | _ => m0
  match f old with
  | none => (m1, old)
  | some new =>
    let m2 := writeBytes m1 l.loc (toBytes size new)
    match l.loc with
    | .dev pa => (poolStored m2 pa size, old)
    | _ => (afterStore m2 gid g l.loc, old)

/-- A binding that was replaced, and whose binder has released since, is seen no more by a group that acquires (R237).
(DEDUCED, log 68.) -/
def OldBind.acquired (o : OldBind) (origin : Nat) : OldBind :=
  if o.released then { o with seen := origin :: o.seen } else o

/-- The bindings of a group's team that it saw before an acquire at .team or wider. -/
def seeBinds (m : Mach) (g : Group) : Mach :=
  match aget m.teams g.team with
  | some t => if t.olds.isEmpty then m else m.setTeam g.team { t with olds := t.olds.map fun o => o.acquired (originOf g) }
  | none => m

/-- An acquire at a scope (R169): at .clu or wider, or at .team in a team on paired cores, the core's L1 is
invalidated. -/
def acquireAt (m : Mach) (g : Group) (s : Scope) : Mach :=
  let wide := match s with
    | .grp => false
    | .team => !teamOnOneCore m g
    | _ => true
  let m1 := if s = .grp then m else seeBinds m g
  if wide then m1.setCore g.core { m1.core g.core with l1 := [] } else m1

/-- A binding that was replaced, after its binder releases (R237). (DEDUCED, log 68.) -/
def OldBind.releasedBy (o : OldBind) (origin : Nat) : OldBind :=
  if o.by_ = origin then { o with released := true } else o

/-- A group releases: what it declared dead is indeterminate for every other group too (R183), and the bindings that it
replaced may be found replaced (R237). (DEDUCED, log 68.) -/
def releaseBy (m : Mach) (gid : Nat) (g : Group) : Mach :=
  { m with indet := m.indet.map fun d => if d.by_ = some gid then { d with by_ := none } else d,
           teams := amap (fun _ t => { t with olds := t.olds.map fun o => o.releasedBy (originOf g) }) m.teams }

/-! Accesses over the fabric (R412, R414, R417). -/

/-- The half of a 16-byte access that is performed as it is sent, if one is (R170). (DESIGN CHOICE, log 4.) -/
def Flight.half (f : Flight) (lane : Nat) : Option Nat :=
  match (f.seed / 2 + lane) % 3 with
  | 0 => none
  | 1 => some 0
  | _ => some 1

/-- An instruction's accesses sent through their ports (R411, R414). -/
def sendOver (m : Mach) (gid : Nat) (g : Group) (ports : List Nat) : Mach :=
  let f : Flight := { routes := m.routes, seed := Config.choice m.free, halves := [] }
  (m.setGrp gid { g with fabric := .sent ports, flight := some f }).bump

/-- Where a line is used on its way to this module's L2, which may keep it (R167, R407). -/
def useLine (m : Mach) (l : Loc) (n : Nat) : Mach :=
  match l with
  | .ext p far => keepLines m p far n
  | _ => m

/-- How a scalar access went: a trap, an access still outstanding, or done. -/
inductive Got (α : Type) where
  | trap (m : Mach) (c : Cause) (addr : Dword)
  | hold (m : Mach)
  | done (m : Mach) (x : α)
  deriving DecidableEq, Repr

/-- The fabric's part of an access of a group through a port (R414, R417): outstanding until its completion
arrives, then performed; or ended without it. (DEDUCED, log 62.) -/
def throughPort {α : Type} (m : Mach) (gid : Nat) (g : Group) (port : Option Nat) (perform : Mach → Mach × α)
    (ended : Mach → Mach × α) : Got α :=
  match port with
  | none => let (m1, x) := perform m; .done m1 x
  | some p =>
    match g.fabric with
    | .none => .hold (sendOver m gid g [p])
    | .pending _ _ => .hold m
    | .done l => let (m1, x) := if l.contains p then ended m else perform m; .done m1 x

/-- A scalar load of size bytes (R113 to R115), relaxed at a scope. -/
def scalarLoad (m : Mach) (gid : Nat) (g : Group) (va size : Nat) (s : Scope) (arm : Bool) : Got Nat :=
  if va % size != 0 then .trap m .misaligned (BitVec.ofNat 64 va)
  else
    match locate m g 0 va size .read arm with
    | .error (c, a) => .trap (afterLocate m g 0 va .read) c a
    | .ok l =>
      throughPort l.m gid g l.port
        (fun m => let (m1, bs) := loadBytes (useLine m l.loc size) g l size s 0; (m1, ofBytes bs))
        (fun m => (m, 2 ^ (8 * size) - 1))

/-- A scalar store of size bytes (R113 to R115). (DEDUCED, log 62.) -/
def scalarStore (m : Mach) (gid : Nat) (g : Group) (va size x : Nat) : Got Unit :=
  if va % size != 0 then .trap m .misaligned (BitVec.ofNat 64 va)
  else
    match locate m g 0 va size .write true with
    | .error (c, a) => .trap (afterLocate m g 0 va .write) c a
    | .ok l =>
      throughPort l.m gid g l.port
        (fun m => (storeBytes (useLine m l.loc size) gid g l (toBytes size x) 0, ()))
        (fun m => if m.pick 2 = 0 then (m.bump, ()) else (storeBytes m gid g l (toBytes size x) 0 |>.bump, ()))

/-- A scalar atomic on 8 bytes (R116). (DEDUCED, log 62.) -/
def scalarAtomic (m : Mach) (gid : Nat) (g : Group) (va : Nat) (f : Nat → Option Nat) : Got Nat :=
  if va % 8 != 0 then .trap m .misaligned (BitVec.ofNat 64 va)
  else
    match locate m g 0 va 8 .atomic false with
    | .error (c, a) => .trap (afterLocate m g 0 va .atomic) c a
    | .ok l =>
      throughPort l.m gid g l.port (fun m => atomicBytes (useLine m l.loc 8) gid g l 8 f)
        (fun m =>
          let ones := 2 ^ 64 - 1
          if m.pick 2 = 0 then (m.bump, ones) else ((atomicBytes m gid g l 8 f).1.bump, ones))

/-- The pieces of 8 bytes of a record, located for its loads as far as they have an address, and the ports they cross, one for
each load that does (R414). -/
def recordPorts (g : Group) : Nat → Mach → Nat → List Nat
  | 0, _, _ => []
  | n + 1, m, va =>
    match locate m g 0 va 8 .read true with
    | .error _ => []
    | .ok l => l.port.toList ++ recordPorts g n l.m (va + 8)

/-- Bytes of a record read once every load of it that crosses the fabric has completed or ended: 8 at a time, as relaxed
.dev loads; the failing address and cause of the first fault. -/
def recordBytes (g : Group) : Nat → Mach → Nat → List Byte → Got (List Byte)
  | 0, m, _, acc => .done m acc
  | n + 1, m, va, acc =>
    match locate m g 0 va 8 .read true with
    | .error (c, a) => .trap (afterLocate m g 0 va .read) c a
    | .ok l =>
      let (m1, bs) :=
        if g.fabric.lost l.port then (l.m, List.replicate 8 0xFF) else loadBytes (useLine l.m l.loc 8) g l 8 .dev 0
      recordBytes g n m1 (va + 8) (acc ++ bs)

/-- The bytes of a record whose first n × 8 say how many loads of 8 bytes follow them. -/
def recordAll (g : Group) (n : Nat) (more : List Byte → Nat) (m : Mach) (va : Nat) : Got (List Byte) :=
  match recordBytes g n m va [] with
  | .done m1 hdr => recordBytes g (more hdr) m1 (va + 8 * n) hdr
  | x => x

/-- How many loads of 8 bytes a record takes, as it stands. -/
def recordCount (g : Group) (n : Nat) (more : List Byte → Nat) (m : Mach) (va : Nat) : Nat :=
  match recordBytes g n m va [] with
  | .done _ hdr => n + more hdr
  | _ => n

/-- A record read by an instruction as relaxed .dev loads, with the faults of scalar loads (R265, R297, R318): n × 8
bytes, and as much after them as they say. Its accesses over the fabric are sent together (R414). (DEDUCED, log 62.) -/
def recordLoadMore (gid : Nat) (g : Group) (n : Nat) (more : List Byte → Nat) (m : Mach) (va : Nat) : Got (List Byte) :=
  match g.fabric with
  | .pending _ _ => .hold m
  | .done _ => recordAll g n more m va
  | .none =>
    match recordPorts g (recordCount g n more m va) m va with
    | [] => recordAll g n more m va
    | ps => .hold (sendOver m gid g ps)

/-- A record of n × 8 bytes read by an instruction (R265). -/
def recordLoad (gid : Nat) (g : Group) (n : Nat) (m : Mach) (va : Nat) : Got (List Byte) :=
  recordLoadMore gid g n (fun _ => 0) m va

/-- What an instruction does with the outcome of its access: trap at itself, wait for the fabric, or go on. -/
def onGot {α : Type} (gid : Nat) (x : Got α) (k : Mach → α → Mach) : Mach :=
  match x with
  | .trap m1 c a => scalarTrapAt m1 gid c a
  | .hold m1 => m1
  | .done m1 v => k m1 v

/-- The group as the machine now holds it, or as it was. -/
def regrp (m : Mach) (gid : Nat) (g : Group) : Group := (m.grp? gid).getD g

end Sys2Proof.Machine
end

