-- ==== Sys2Proof/Machine/Ends.lean ====
section
/-! DEFINITION. How groups, teams, kernels and walks end (R81, R235, R242, R267, R279, R341, R352), and the rollback
of a detected error (R338 to R342).
-/

namespace Sys2Proof.Machine

/-! Packets that wait for a kernel or a walk (R398, R401). -/

/-- A packet's status word: its code, and a number above it (R401). -/
def statusWord (code hi : Nat) : Dword := BitVec.ofNat 64 (code % 256 + (hi % 2 ^ 32) * 2 ^ 32)

/-- A packet that runs the kernel or walk is ready to complete with a status. -/
def Packet.ended (kind ref : Nat) (status : Dword) (p : Packet) : Packet :=
  if p.kind = kind && p.st = .running && p.ref = some ref then { p with st := .done status } else p

/-- The packets of a kind that run a kernel or a walk are ready to complete with a status. -/
def endPackets (m : Mach) (kind ref : Nat) (status : Dword) : Mach :=
  { m with queues := amap (fun _ q => { q with packets := q.packets.map (Packet.ended kind ref status) }) m.queues }

/-! Kernels. -/

/-- Whether a WALK packet that names a kernel still waits for an intake entry (R399). -/
def walkWaits (m : Mach) (kid : Nat) : Bool :=
  aany (fun _ q => q.packets.any fun p => p.kind = 4 && p.st = .waiting && p.ref = some kid) m.queues

/-- Whether a walk of a kernel is in some state but done or aborted (R352). -/
def walksLive (m : Mach) (kid : Nat) : Bool := aany (fun _ w => w.kern = kid && !w.over) m.walks || walkWaits m kid

/-- Condition C of R352: no posted peer store of the kernel is outstanding, no walk of it is active, and no task
that its groups created is other than Free. -/
def conditionC (m : Mach) (kid : Nat) : Bool :=
  !aany (fun _ p => p.kern = kid) m.psts && !walksLive m kid
    && !aany (fun _ c => aany (fun _ r => r.kern = kid && r.st.isSome) c.pool) m.ctxs

/-- Whether a kernel is in flight. -/
def Kernel.live (k : Kernel) : Bool := k.st = .admitting || k.st = .resident || k.st = .draining

/-- A context with no kernel left in flight is resident (R363). -/
def settleContext (m : Mach) (ctx : Nat) : Mach :=
  match aget m.ctxs ctx with
  | none => m
  | some c =>
    if c.st = .active && !aany (fun _ k => k.ctx = ctx && k.live) m.kerns then m.setCtx ctx { c with st := .resident }
    else m

/-- A group that belongs to a kernel: one of a team, a spawned handler or a task group. -/
def Group.ofKernel (g : Group) (kid : Nat) : Bool := g.kern = kid && g.kind != .compacted

/-- The kernel completes if its last group has ended and C holds, and drains if it does not (R352). -/
def checkKernel (m : Mach) (kid : Nat) : Mach :=
  match aget m.kerns kid with
  | none => m
  | some k =>
    if (k.st = .resident || k.st = .draining) && !aany (fun _ g => g.ofKernel kid) m.groups then
      if conditionC m kid then
        let m1 := m.setKern kid { k with st := .complete, wqBase := none, queries := [], parked := [] }
        settleContext (endPackets (progress m1 k.ctx) 0x02 kid (statusWord 0 k.killed)) k.ctx
      else m.setKern kid { k with st := .draining }
    else m

/-! Groups and teams. -/

/-- A kernel without the queries whose answer slots lie in a share. -/
def Kernel.dropQueries (k : Kernel) (share size : Nat) : Kernel :=
  let keep (q : Nat × Dword) : Bool := q.2.toNat < share || share + size ≤ q.2.toNat
  { k with queries := k.queries.filter keep, parked := k.parked.filter keep }

/-- A team that has no group left ends: its live slots and its ring header become ordinary bytes, its share and
frame are free, and answers that would go to its share are dropped (R162, R235, R250). -/
def endTeam (m : Mach) (tid : Nat) : Mach :=
  match aget m.teams tid with
  | none => m
  | some t =>
    if aany (fun _ g => g.team = tid) m.groups then m
    else
      let mine := m.slots.filter fun kv => kv.2.team = tid
      let kerns := match aget m.kerns t.kern with
        | some k => aput m.kerns t.kern (k.dropQueries t.share t.size)
        | none => m.kerns
      let m1 := { m with slots := afilter (fun _ b => b.team != tid) m.slots, teams := adel m.teams tid, kerns := kerns }
      let m2 := mine.foldl (fun m kv => writeNat m (.spad kv.1) 16 (slotImage kv.2 - 2 ^ 31)) m1
      if 0 < t.size then writeNat m2 (.spad t.share) 64 (ringImage t) else m2

/-- A group's slot is freed, and with the last of them its team (R81, R250); its log area, if it has one, is
ordinary memory again, with indeterminate values (R325). -/
def removeGroup (m : Mach) (gid : Nat) : Mach :=
  match m.grp? gid with
  | none => m
  | some g =>
    let c := m.core g.core
    let m1 := { m with groups := adel m.groups gid }
    let m2 := m1.setCore g.core { c with memset := adel c.memset gid,
                                         chainOf := if c.chainOf = some gid then none else c.chainOf }
    let m3 := match g.log, aget m2.teams g.team with
      | some l, some t => makeIndet m2 (.spad (t.share + l.off)) l.size
      | _, _ => m2
    endTeam m3 g.team

/-- The group's own count is dropped, if it holds one (R81, R206). -/
def dropOwn (m : Mach) (gid : Nat) : Mach :=
  match m.grp? gid with
  | none => m
  | some g =>
    if g.own then dropAt (m.setGrp gid { g with own := false }) (clusterOf g.core) g.ctx g.node g.stamp else m

/-- Whether copy-ring entries that a group published are not performed yet (R250). -/
def publishedOpen (m : Mach) (gid : Nat) (g : Group) : Bool :=
  match aget m.teams g.team with
  | some t => t.pubs.any fun p => p.group = gid
  | none => false

/-- Parked groups of a kernel that no summons can reach any more end (R352), once every copy-ring entry that one of them
published is performed (R250). (DEDUCED, log 61.) -/
def endParked (m : Mach) (kid : Nat) : Mach :=
  match aget m.kerns kid with
  | none => m
  | some k =>
    let parked (g : Group) : Bool := match g.st with
      | .parked _ => true
      | _ => false
    if (k.st = .resident || k.st = .draining) && !walksLive m kid
        && !aany (fun gid g => g.ofKernel kid && (!parked g || publishedOpen m gid g)) m.groups then
      (m.groups.filter fun kv => kv.2.ofKernel kid).foldl (fun m kv => removeGroup m kv.1) m
    else m

/-- Spawned groups that are parked while their context has no walk in a place on their engine end (R269).
(DEDUCED, log 61.) -/
def sweepSpawned (m : Mach) (ctx eng : Nat) : Mach :=
  if aany (fun _ w => w.ctx = ctx && w.placed && (w.engines.contains eng)) m.walks then m
  else
    (m.groups.filter fun kv => kv.2.kind = .handler && kv.2.ctx = ctx && clusterOf kv.2.core = eng
      && (match kv.2.st with
        | .parked _ => true
        | _ => false)).foldl (fun m kv => removeGroup m kv.1) m

/-- What follows the end of anything of a kernel: its parked groups, and then the kernel itself. -/
def settleKernel (m : Mach) (kid : Nat) : Mach := checkKernel (endParked m kid) kid

/-! Walks. -/

/-- Bytes 0xC0 to 0xFF of the record of a walk that ends (R258); where their address no longer translates, nothing
is written. -/
def writeResult (m : Mach) (w : Walk) : Mach :=
  let sat (n : Nat) : Nat := min n (2 ^ 32 - 1)
  let word (i : Nat) : List Byte := toBytes 4 (sat (w.stalls.getD (2 * i) 0)) ++ toBytes 4 (sat (w.stalls.getD (2 * i + 1) 0))
  let parts := [word 0, word 1, word 2, word 3, toBytes 4 (sat w.acyc) ++ toBytes 4 (sat w.rback), toBytes 8 0,
    toBytes 8 0, toBytes 8 w.status.toNat]
  match writeVirtual (w.eng * 8) w.ctx parts m (w.addr.toNat + 0xC0) with
  | .ok m1 => m1
  | .error f => f.1

/-- A walk's places and intake entry are released (R266). -/
def releaseEngine (wid : Nat) (e : Engine) : Engine :=
  { e with intake := e.intake.filter fun x => x != wid,
           places := e.places.map fun p => if p = some wid then none else p,
           banks := e.banks.map fun b => if b.st != .free && b.walk = wid then Bank.empty else b }

/-- A summons of a walk is cancelled (R272). -/
def Summons.cancel (s : Summons) (wid : Nat) : Summons := if s.walk = wid then { s with cancelled := true } else s

/-- A walk leaves its engines: places, banks and armature are free, and its status joins the last 64 that its
engine keeps (R266, R281); of its summonses those in service stay, cancelled, until their HNDL.DONE (R272). -/
def retireWalk (m : Mach) (wid : Nat) (w : Walk) : Mach :=
  let m1 := w.engines.foldl (fun m e => m.setEngine e (releaseEngine wid (m.engine e))) { m with walks := adel m.walks wid }
  let e := m1.engine w.eng
  let m2 := m1.setEngine w.eng { e with ended := ((wid, w.ctx, w.status) :: e.ended).take 64 }
  let left := afilter (fun _ s => s.walk != wid || s.group.isSome) m2.summons
  let m3 := { m2 with summons := amap (fun _ s => s.cancel wid) left }
  w.engines.foldl (fun m e => sweepSpawned m w.ctx e) m3

/-- A walk with an abort pending is aborted once no summons of it is in service: its result bytes are written, its
count passes to the context, and a packet that waits for it completes (R267, R286, R401). -/
def finishAbort (m : Mach) (wid : Nat) : Mach :=
  match aget m.walks wid with
  | none => m
  | some w =>
    if w.acause = 0 || inService m wid then m
    else
      let w1 := { w with st := .aborted }
      let m1 := retireWalk (writeResult m w1) wid w1
      settleKernel (endPackets m1 0x04 wid (statusWord 22 w.acause)) w.kern

/-- A slot without a pair. -/
def ASlot.clear (x : ASlot) : ASlot := { x with pair := none, filled := false }

/-- A walk's part with its slots and bank discarded. -/
def Part.discard (p : Part) : Part :=
  { p with aslots := p.aslots.map ASlot.clear, bslots := p.bslots.map ASlot.clear, bank := none, toDrain := [] }

/-- An engine with a walk's banks free. -/
def Engine.dropBanks (e : Engine) (wid : Nat) : Engine :=
  { e with banks := e.banks.map fun b => if b.walk = wid then Bank.empty else b }

/-- A walk takes an abort cause, or keeps an earlier one (R279, R280): it issues no further summonses, discards its
slots and banks, and cancels the summonses in service. -/
def abortWalk (m : Mach) (wid cause : Nat) : Mach :=
  match aget m.walks wid with
  | none => m
  | some w =>
    if w.over then m
    else
      let w1 := { w with acause := if w.acause = 0 then cause else w.acause, parts := w.parts.map Part.discard,
                         inTile := false, busy := none }
      let m1 := w.engines.foldl (fun m e => m.setEngine e ((m.engine e).dropBanks wid)) (m.setWalk wid w1)
      let kept := afilter (fun _ s => s.walk != wid || s.group.isSome) m1.summons
      finishAbort { m1 with summons := amap (fun _ s => s.cancel wid) kept } wid

/-- A group that ends while it serves a summons aborts the walk, and the summons returns (R279). (DEDUCED, log 61.) -/
def leaveService (m : Mach) (g : Group) (cause : Nat) : Mach :=
  match g.serving with
  | none => m
  | some sid =>
    match aget m.summons sid with
    | none => m
    | some s =>
      let m1 := { m with summons := adel m.summons sid }
      finishAbort (abortWalk m1 s.walk cause) s.walk

/-! Killed groups. -/

/-- A group is killed (R81, R341): its own count passes to its context, its answers are discarded (R358), a walk it
serves aborts (R279), and a report of kind 3 is written. (DEDUCED, log 61.) -/
def killOne (m : Mach) (gid cause src : Nat) : Mach :=
  match m.grp? gid with
  | none => m
  | some g =>
    let m1 := report m g.ctx { Report.plain 3 cause with
      src := src, where_ := originOf g, spc := g.spc, lpc := BitVec.ofNat 64 g.lpc }
    let m3 := match aget m1.kerns g.kern with
      | some k => m1.setKern g.kern { k with killed := k.killed + (if g.kind = .compacted then 0 else 1),
                                             queries := k.queries.filter (fun q => q.1 != gid),
                                             parked := k.parked.filter fun q => q.1 != gid }
      | none => m1
    let m4 := leaveService (removeGroup m3 gid) g 3
    settleKernel m4 g.kern

/-- Origin groups of abandoned lanes are killed with cause 100 (R373). -/
def abandon (m : Mach) (os : List Origin) : Mach :=
  (os.map Origin.group).dedup.foldl (fun m g => killOne m g 100 0) m

/-- A group is killed; the lanes of a killed handler group are abandoned with it. (DEDUCED, log 61.) -/
def killGroup (m : Mach) (gid cause src : Nat) : Mach :=
  let os := match m.grp? gid with
    | some g => g.origins
    | none => []
  abandon (killOne m gid cause src) os

/-! Rollback (R340). -/

/-- The bytes of a KEEP record written back as relaxed .grp stores, word by word where they are aligned (R340); where a store
faults, the machine with those before it. -/
def restoreKeep (gid : Nat) (g : Group) : Nat → Mach → Nat → List Byte → Except Mach Mach
  | 0, m, _, _ => .ok m
  | _ + 1, m, _, [] => .ok m
  | fuel + 1, m, va, b :: bs =>
    let n := if va % 4 = 0 && 3 ≤ bs.length then 4 else 1
    match locate m g 0 va n .write true with
    | .error _ => .error (afterLocate m g 0 va .write)
    | .ok l =>
      restoreKeep gid g fuel (storeBytes l.m gid g l ((b :: bs).take n) 0) (va + n) ((b :: bs).drop n)

/-- Every KEEP record of a region, newest first. -/
def restoreKeeps (gid : Nat) (g : Group) : List KeepRec → Mach → Except Mach Mach
  | [], m => .ok m
  | k :: r, m =>
    match restoreKeep gid g k.bytes.length m k.addr.toNat k.bytes with
    | .error m1 => .error m1
    | .ok m1 => restoreKeeps gid g r m1

/-- The v registers that a region's mask names (R326). -/
def Region.names (r : Region) (reg : Nat) : Bool := r.mask.getLsbD (reg / 16)

/-- The registers as the region's opening left them: the blocks its mask names, m0 to m2, SCR_MODE and SCR_FPSTAT;
restored v registers carry no check (R340). -/
def Region.restore (r : Region) (g : Group) : Group :=
  let keepV (k : Nat) : Bool := !r.names (k / 128)
  let back (i : Nat) : Bool := 61 ≤ i || (r.mask.getLsbD 16 && 1 ≤ i)
  { g with
    v := (r.vregs.foldl (fun m kv => aput m kv.1 kv.2) (afilter (fun k _ => keepV k) g.v)),
    chk := afilter (fun k _ => keepV k) g.chk,
    regs := Vector.ofFn fun i => if back i.val then r.scalars[i] else g.regs[i],
    flags := if r.mask.getLsbD 16 then r.flags else g.flags,
    preds := if r.mask.getLsbD 17 then r.preds else g.preds,
    mode := r.mode, fpstat := r.fpstat }

/-- An injection that was armed for a lane instruction of a queue is armed again as the queue is discarded, unless another
one is (R344). (DEDUCED, log 41.) -/
def Group.rearm (g : Group) : Group :=
  { g with inject := g.inject.orElse fun _ => (g.qs.liq.filterMap LiqEntry.inject).head? }

/-- The group with both streams stopped: queues, pending traps, chain and unfinished runs discarded (R340). -/
def Group.stopStreams (g : Group) : Group :=
  { g.rearm with qs := Queues.empty, aside := none, asideWait := none, traps := [], chain := none, lx := none, sigq := [],
                 waitedFrom := none, stuck := false, bar := none, fabric := .none, flight := none, posting := none }

/-- The rollback from the innermost region outward: the log is written back, the region is tried again if it has
been tried fewer than three times, and is popped otherwise; with no region left the group is killed. -/
def rollback (gid src : Nat) : List Region → Mach → Mach
  | [], m => killGroup m gid 96 src
  | r :: rest, m =>
    match m.grp? gid with
    | none => m
    | some g =>
      match restoreKeeps gid g r.keeps m with
      | .error m1 => killGroup m1 gid 97 src
      | .ok m1 =>
        let g1 := (m1.grp? gid).getD g
        if r.retry < 3 then
          let g2 := r.restore g1
          m1.setGrp gid { g2 with rgn := { r with retry := r.retry + 1, keeps := [] } :: rest, sig := 0, spc := r.spc,
                                  lpc := r.lpc, log := g1.log.map fun l => { l with top := r.shadTop }, st := .ready,
                                  readyAt := (m1.core g.core).cyc }
        else rollback gid src rest (m1.setGrp gid { g1 with rgn := rest })

/-- A detected error, consumed by the group's instruction, which has no effect (R339, R340). -/
def detectedError (m : Mach) (gid src : Nat) : Mach :=
  match m.grp? gid with
  | none => m
  | some g =>
    let c := m.core g.core
    let g1 := { g.stopStreams with src := src, rolls := min 31 (g.rolls + 1) }
    let m1 := (m.setGrp gid g1).setCore g.core { c with chainOf := if c.chainOf = some gid then none else c.chainOf }
    rollback gid src g.rgn m1

end Sys2Proof.Machine
end

