-- ==== Sys2Proof/Machine/Flags.lean ====
section
/-! DEFINITION. The scalar flags (R111), the conditions that read them (R32), and the sticky flags of SCR_FPSTAT
(R73).
-/

namespace Sys2Proof.Machine

/-- The flags of a subtraction a − b (R111): C is "no borrow". -/
def flagsSub (a b : Dword) : Flags :=
  let r := a - b
  { z := r = 0, n := r.msb, c := b.toNat ≤ a.toNat, v := a.msb != b.msb && r.msb != a.msb }

/-- The flags of TST (R111). -/
def flagsAnd (a b : Dword) : Flags :=
  let r := a &&& b
  { z := r = 0, n := r.msb, c := false, v := false }

/-- CondTrue (R32); code 0xF is reserved and never reaches here. -/
def condTrue (cc : BitVec 4) (f : Flags) : Bool :=
  match cc.toNat with
  | 0x0 => f.z
  | 0x1 => !f.z
  | 0x2 => f.n != f.v
  | 0x3 => f.n == f.v
  | 0x4 => !f.z && f.n == f.v
  | 0x5 => f.z || f.n != f.v
  | 0x6 => !f.c
  | 0x7 => f.c
  | 0x8 => f.c && !f.z
  | 0x9 => !f.c || f.z
  | 0xA => f.n
  | 0xB => !f.n
  | 0xC => f.v
  | 0xD => !f.v
  | _ => true

/-- Conditions raised by lane instructions, or-ed into SCR_FPSTAT (R73). -/
def Group.raise (g : Group) (f : FFlags) : Group := { g with fpstat := g.fpstat ||| f.word }

end Sys2Proof.Machine
end

