-- ==== Sys2Proof/Machine/Operands.lean ====
section
/-! DEFINITION. The operands of lane instructions: elements and constants (R36, R61, R132), the effective set (R37),
latches, captures and write-back (R38), the queues (R86), the register checks (R333, R334), and what every lane
instruction does as it issues and completes.
-/

namespace Sys2Proof.Machine

/-! Element types (R41, R61, R132). -/

/-- The width of an element in bits. -/
def Ty.ew : Ty → Nat
  | .i64 | .n64 | .x64 | .f64 => 64
  | .i32 | .n32 | .x32 | .f32 => 32
  | .i16x2 | .n16x2 | .f16x2 | .bf16x2 | .f16 | .bf16 => 16
  | .i8x4 | .n8x4 | .e4m3x4 | .e5m2x4 => 8
  | .i4x8 | .n4x8 | .e2m1x8 => 4

/-- The number of elements in a value of the type. -/
def Ty.count : Ty → Nat
  | .i16x2 | .n16x2 | .f16x2 | .bf16x2 => 2
  | .i8x4 | .n8x4 | .e4m3x4 | .e5m2x4 => 4
  | .i4x8 | .n4x8 | .e2m1x8 => 8
  | _ => 1

/-- The bits of a whole value: 32, or 64 for the 64-bit types. -/
def Ty.bits (t : Ty) : Nat := 32 * t.regs

/-- Whether the type is a signed integer type. -/
def Ty.isSigned : Ty → Bool
  | .i32 | .i64 | .i16x2 | .i8x4 | .i4x8 => true
  | _ => false

/-- Whether the type is an integer type. -/
def Ty.isInt : Ty → Bool
  | .n32 | .n64 | .n16x2 | .n8x4 | .n4x8 => true
  | t => t.isSigned

/-- The number format of a floating type's element; FP32 stands for none. -/
def Ty.fmt : Ty → Fmt
  | .f64 => .fp64
  | .f16x2 | .f16 => .fp16
  | .bf16x2 | .bf16 => .bf16
  | .e4m3x4 => .e4m3
  | .e5m2x4 => .e5m2
  | .e2m1x8 => .e2m1
  | _ => .fp32

/-- Element i of a value with elements of w bits (R61). -/
def elem (w x i : Nat) : Nat := bits x (w * i) w

/-- A value from its elements, element 0 lowest. -/
def joinElems (w : Nat) : List Nat → Nat
  | [] => 0
  | e :: r => e % 2 ^ w + 2 ^ w * joinElems w r

/-- An integer element as its type reads it (R132). -/
def Ty.read (t : Ty) (e : Nat) : Int := if t.isSigned then signed t.ew e else (e % 2 ^ t.ew : Nat)

/-- The value of an inline constant under a type (R36). -/
def Ty.constant (t : Ty) (i : Int) : Nat :=
  let e :=
    if t.isInt || t = .x32 || t = .x64 then unsigned t.ew i
    else (roundTo t.fmt .rne false (decide (i < 0)) i.natAbs 1 0).1
  joinElems t.ew (List.replicate t.count e)

/-! The registers and queues that an instruction uses. -/

/-- The v registers that a source code reads under its kind. -/
def SrcKind.vregs (k : SrcKind) (c : BitVec 9) : List Nat :=
  match k, Operand.ofCode c with
  | .typed t, .v n => (List.range t.regs).map (n + ·)
  | .raw32, .v n => [n]
  | .base, .v n => [n, n + 1]
  | .data b, .v n => (List.range ((b + 3) / 4)).map (n + ·)
  | _, _ => []

/-- The v registers that a lane instruction's sources read; CVTS encoding reads its destination too (R151). -/
def sourceRegs (i : Instr) : List Nat :=
  match shapeOf i, laneWord? i with
  | some s, some w =>
    s.a.vregs w.a ++ s.b.vregs w.b ++ s.c.vregs w.c ++ s.d.vregs w.d
      ++ (match i with
        | .cvts w => if w.sub % 2 = 1 && w.dst.toNat < 256 then [w.dst.toNat] else []
        | _ => [])
  | _, _ => []

/-- Whether a source kind reads an operand code, rather than a predicate or a raw number. -/
def SrcKind.isOperand : SrcKind → Bool
  | .typed _ | .raw32 | .base | .uniform | .data _ => true
  | _ => false

/-- The scalar registers that a lane instruction's sources name. -/
def scalarSources (i : Instr) : List Sreg :=
  match shapeOf i, laneWord? i with
  | some s, some w =>
    [(s.a, w.a), (s.b, w.b), (s.c, w.c), (s.d, w.d)].filterMap fun kc =>
      match kc.1.isOperand, Operand.ofCode kc.2 with
      | true, .s r => some r
      | _, _ => none
  | _, _ => []

/-- The v registers that a lane instruction writes, where it writes any. -/
def destRegs (i : Instr) : List Nat :=
  match laneWord? i with
  | some w =>
    let n := match i with
      | .ld w => if sizeBytes w.size = 16 then 4 else if sizeBytes w.size = 8 then 2 else 1
      | _ => w.t.regs
    if w.nw = 0 && w.dst.toNat < 256 then (List.range n).map (w.dst.toNat + ·) else []
  | none => []

/-- Whether a register that an instruction reads or writes awaits an earlier result of the group (R39). -/
def Group.interlocked (g : Group) (cyc : Nat) (i : Instr) : Bool :=
  (sourceRegs i ++ destRegs i).any fun r => cyc < (aget g.ready r).getD 0

/-- Which of the four sources pop sq, in order (R35). -/
def sqPops (i : Instr) : List Bool :=
  match shapeOf i, laneWord? i with
  | some s, some w =>
    [s.a.isOperand && w.a = 0x144, s.b.isOperand && w.b = 0x144, s.c.isOperand && w.c = 0x144,
     s.d.isOperand && w.d = 0x144]
  | _, _ => [false, false, false, false]

/-- The number of SQ entries that a lane instruction pops. -/
def sqNeeds (i : Instr) : Nat := (sqPops i).countP id

/-- The number of LQ entries that a lane instruction pushes in a group of so many beats (R86, R147). -/
def lqPushes (i : Instr) (beats : Nat) : Nat :=
  match i with
  | .ptoq _ => beats
  | .redq _ => 1
  | .bcast w => if w.dst = 0x145 then 1 else 0
  | _ => 0

/-- The number of FQ entries that a lane instruction pushes. -/
def fqPushes : Instr → Nat
  | .psum _ => 1
  | _ => 0

/-- Whether a lane instruction finds no entry or no free slot that it needs, and waits at the head (R86).
(DEDUCED, log 41.) -/
def Group.blockedOn (g : Group) (i : Instr) : Bool :=
  g.qs.sq.length < sqNeeds i
    || (0 < lqPushes i g.beats && 8 < g.qs.lq.length + lqPushes i g.beats)
    || (0 < fqPushes i && 8 < g.qs.fq.length + fqPushes i)

/-- Whether the head of the lane issue queue waits for an SQ entry, or for an LQ or FQ slot (R89). -/
def Group.headBlocked (g : Group) : Bool :=
  match g.qs.liq with
  | e :: _ =>
    match e.bad, e.ins with
    | none, some i => g.blockedOn i
    | _, _ => false
  | [] => false

/-! A lane instruction as it issues. -/

/-- What a lane instruction works from: its group, its queue entry, its word, the SQ entries it pops by source, and
the counter of free values for latch reads that are not reliable (R38). -/
structure LaneIn where
  g    : Group
  e    : LiqEntry
  w    : LaneWord
  sqs  : List Word
  free : Nat
  deriving DecidableEq, Repr

/-- The popped entries by source: a source that does not pop gets zero. -/
def assignSq : List Bool → List Word → List Word
  | [], _ => []
  | true :: r, q => q.headD 0 :: assignSq r q.tail
  | false :: r, q => 0 :: assignSq r q

/-- The inputs of the instruction at the head of the lane issue queue. -/
def laneIn (m : Mach) (g : Group) (e : LiqEntry) (i : Instr) (w : LaneWord) : LaneIn :=
  { g := g, e := e, w := w, sqs := assignSq (sqPops i) g.qs.sq, free := m.free }

/-- The sampled mask of a beat (R85). -/
def LiqEntry.mask (e : LiqEntry) (b : Nat) : Word := if b = 0 then e.m0 else if b = 1 then e.m1 else e.m2

/-- G of R37: a guard's value in a lane. -/
def Group.guard (g : Group) (c : BitVec 4) (l : Nat) : Bool := g.pred (c.toNat % 8) l != bit c.toNat 3

/-- Whether lane l is in the effective set E (R37). -/
def LaneIn.inE (x : LaneIn) (l : Nat) : Bool :=
  (x.e.mask (l / 32)).getLsbD (l % 32) && x.g.guard x.w.g1 l && x.g.guard x.w.g2 l

/-- The lanes of E, lowest first. -/
def LaneIn.lanes (x : LaneIn) : List Nat := (List.range x.g.width).filter x.inE

/-- A latch in a lane: what an earlier member of the chain captured, or a free value (R38). (DESIGN CHOICE, log 3.) -/
def LaneIn.latch (x : LaneIn) (k l : Nat) : Dword :=
  match x.g.chain.bind fun c => aget c.latches (k * 128 + l) with
  | some v => v
  | none => Config.freeDword (x.free + k * 128 + l)

/-- Whether some source reads a latch. -/
def usesLatch (w : LaneWord) : Bool :=
  let is (c : BitVec 9) := 0x140 ≤ c.toNat && c.toNat ≤ 0x143
  is w.a || is w.b || is w.c || is w.d

/-- A scalar register as a lane instruction sees it: at its place in program order, whatever was written since (R82). -/
def LaneIn.s (x : LaneIn) (r : Sreg) : Dword :=
  match x.e.svals.find? fun v => v.1 = r.toNat with
  | some v => v.2
  | none => x.g.s r

/-- A 32-bit operand in a lane, whatever the type (R36); k is the source's place. -/
def LaneIn.raw (x : LaneIn) (k : Nat) (c : BitVec 9) (l : Nat) : Word :=
  match Operand.ofCode c with
  | .v n => x.g.vreg n l
  | .s r => (x.s r).truncate 32
  | .latch j => (x.latch j l).truncate 32
  | .sq => x.sqs.getD k 0
  | .lid => BitVec.ofNat 32 l
  | .const i => BitVec.ofInt 32 i
  | _ => 0

/-- A value of a type in a lane (R36).  A latch that was captured at 32 bits and is read at 64 reads zero in its upper half,
of which R38 says nothing. (DESIGN CHOICE, log 69.) -/
def LaneIn.val (x : LaneIn) (t : Ty) (k : Nat) (c : BitVec 9) (l : Nat) : Nat :=
  match Operand.ofCode c with
  | .v n => (x.g.vreg n l).toNat + (if t.regs = 2 then (x.g.vreg (n + 1) l).toNat * 2 ^ 32 else 0)
  | .s r => (x.s r).toNat % 2 ^ t.bits
  | .latch j => (x.latch j l).toNat % 2 ^ t.bits
  | .sq => (x.sqs.getD k 0).toNat
  | .lid => l
  | .const i => t.constant i
  | _ => 0

def LaneIn.a (x : LaneIn) (t : Ty) (l : Nat) : Nat := x.val t 0 x.w.a l
def LaneIn.b (x : LaneIn) (t : Ty) (l : Nat) : Nat := x.val t 1 x.w.b l
def LaneIn.c (x : LaneIn) (t : Ty) (l : Nat) : Nat := x.val t 2 x.w.c l
def LaneIn.d (x : LaneIn) (t : Ty) (l : Nat) : Nat := x.val t 3 x.w.d l

/-! Rounding and saturation (R68, R69). -/

/-- The place of a format's rounding field in SCR_MODE; its saturation bit is two above (R68). -/
def Fmt.modeField : Fmt → Nat
  | .fp64 | .fp32 => 0
  | .fp16 => 3
  | .bf16 => 6
  | .e4m3 | .e5m2 => 9
  | .e2m1 | .e3m5 => 12

/-- The rounding of an instruction for a field of SCR_MODE (R69). -/
def LaneIn.rndAt (x : LaneIn) (field : Nat) : Rnd :=
  Rnd.ofCode (if x.w.rnd = 0 then bits x.e.mode.toNat field 2 else x.w.rnd - 1)

/-- The saturation of an instruction for a field of SCR_MODE (R69). -/
def LaneIn.satAt (x : LaneIn) (field : Nat) : Bool := x.w.sat || bit x.e.mode.toNat (field + 2)

def LaneIn.rndOf (x : LaneIn) (f : Fmt) : Rnd := x.rndAt f.modeField
def LaneIn.satOf (x : LaneIn) (f : Fmt) : Bool := x.satAt f.modeField

/-! Register checks (R333, R334). -/

/-- Whether the check of a register of a lane fails. -/
def Group.mismatch (g : Group) (key : Nat) (c : Check) : Bool :=
  match c with
  | .pending => false
  | .valid code => (g.vreg (key / 128) (key % 128)).toNat % 63 != code

/-- Whether reading some registers in some lanes meets a check that fails (R334). (DEDUCED, log 41.) -/
def Group.readFails (g : Group) (regs lanes : List Nat) : Bool :=
  aany (fun k c => regs.contains (k / 128) && lanes.contains (k % 128) && g.mismatch k c) g.chk

/-- Whether a detected error may be pending in the group: a queued SHDW for which an injection was armed, or a check that a
read would fail.  While lane instructions are queued then, the scalar stream waits, so that the error is exact (R339).
(DEDUCED, log 41.) -/
def Group.hazard (g : Group) : Bool :=
  g.qs.liq.any (fun e => e.inject.isSome) || aany (fun k c => g.mismatch k c) g.chk

/-! Results. -/

/-- The opcodes whose results a shadowed member may have (R159). -/
def shadowable (i : Instr) : Bool :=
  match i with
  | .iadd _ | .isub _ | .imul _ | .imulh _ | .imad _ | .imin _ | .imax _ | .iabs _ | .ineg _
  | .laneShl _ | .laneShr _ | .laneSar _ | .lanePopc _ | .laneClz _ | .laneBrev _
  | .laneAnd _ | .laneOr _ | .laneXor _ | .not _ | .lop3 _ | .bfe _ | .bfi _ | .laneSel _
  | .fadd _ | .fsub _ | .fmul _ | .fma _ | .fmin _ | .fmax _ | .fabs _ | .fneg _
  | .cvt _ | .cvtp _ | .frnd _ | .rcp _ | .rsq _ | .sqrt _ | .exp2 _ | .log2 _ | .sin _ | .cos _ | .tanh _
  | .dot2 _ | .dot4 _ | .dot8 _ | .mov _ | .shfl _ => true
  | _ => false

/-- Whether the instruction is a shadowed member, on a core with the shadow-check path (R39, R159). -/
def isShadowed (feat : BitVec 2) (i : Instr) (w : LaneWord) : Bool :=
  w.shadowed && feat.getLsbD 1 && shadowable i

/-- The check field that a write leaves: Pending from a shadowed member, but a Valid field stands when a restarted
chain writes again (R160); None otherwise (R333). -/
def LaneIn.newCheck (x : LaneIn) (shadow : Bool) (r l : Nat) : Option Check :=
  if shadow then
    match aget x.g.chk (r * 128 + l) with
    | some (.valid c) => if x.e.again then some (.valid c) else some .pending
    | _ => some .pending
  else none

/-- A result of n registers written to register r of a lane (R36). -/
def LaneIn.writeReg (x : LaneIn) (shadow : Bool) (r l v : Nat) : Nat → Group → Group
  | 0, g => g
  | n + 1, g => x.writeReg shadow (r + 1) l (v / 2 ^ 32) n (g.setV r l (BitVec.ofNat 32 v) (x.newCheck shadow r l))

/-- The results of the lanes of E written to dst (R37, R38); code 0x148 discards. -/
def LaneIn.write (x : LaneIn) (shadow : Bool) (n : Nat) (rs : List (Nat × Nat)) : Group :=
  if x.w.dst.toNat < 256 then rs.foldl (fun g lv => x.writeReg shadow x.w.dst.toNat lv.1 lv.2 n g) x.g else x.g

/-- The results of the lanes of E captured into the named latch, of 64 bits (R38): of a result of 128 bits it takes the low
half, of which R38 says nothing. (DESIGN CHOICE, log 69.) -/
def LaneIn.capture (x : LaneIn) (rs : List (Nat × Nat)) (c : Chain) : Chain :=
  if x.w.cap.toNat < 4 then c
  else { c with latches := rs.foldl (fun m lv => aput m ((x.w.cap.toNat - 4) * 128 + lv.1) (BitVec.ofNat 64 lv.2)) c.latches }

/-- An empty chain. -/
def Chain.empty : Chain := { issued := [], popped := [], latches := [], shadows := [] }

/-- Whether an instruction is a memory instruction of R99: rows 0x9_ and 0xA_. -/
def isMemory (i : Instr) : Bool :=
  match i with
  | .ld _ | .st _ | .pref _ | .discard _ | .pst _ | .atom _ | .atomcas _ | .fatom _ | .red _ => true
  | _ => false

/-- The fold code of a lane instruction (R336). -/
def foldCode (op : BitVec 8) (w : LaneWord) : Dword := laneCode op.toNat w.ty.toNat

/-- A lane instruction leaves the head of its queue: its SQ entries are popped, kept by its chain until that ends
(R40), the signature takes it at its place (R336), and the core's cycles and memory set move on (R39, R97, R99).
c is the chain with what the instruction captured, or none outside a chain. -/
def laneFinish (m : Mach) (gid : Nat) (g : Group) (e : LiqEntry) (i : Instr) (w : LaneWord)
    (c : Chain) : Mach :=
  let n := sqNeeds i
  let (sig, sigq) := if e.fold then fillHole g.sig g.sigq (foldCode (laneOpcode i) w) else (g.sig, g.sigq)
  let core := m.core g.core
  let c1 := { c with issued := c.issued ++ [{ e with inject := none }], popped := c.popped ++ g.qs.sq.take n }
  let g1 := { g with sig := sig, sigq := sigq, qs := { g.qs with liq := g.qs.liq.drop 1, sq := g.qs.sq.drop n },
                     chain := if w.stick then some c1 else none, issuedAt := core.cyc, fabric := .none, flight := none,
                     ready := (destRegs i).foldl (fun r n => aput r n (core.cyc + Config.latency core.cyc gid)) g.ready }
  let core1 := { core with cyc := core.cyc + g.beats, chainOf := if w.stick then some gid else none,
                           yielded := if w.yield && !w.stick then some gid else none,
                           memset := if isMemory i then aput core.memset gid core.cyc else core.memset }
  let m1 := (m.setGrp gid g1).setCore g.core core1
  if usesLatch w then { m1 with free := m1.free + 512 } else m1

/-- A trap of the lane instruction at the head of its queue (R48, R95): the queue is discarded, a chain under way
gives back its SQ entries and is reported by its first member, and an injection that was armed for a discarded SHDW is armed
again (R344). -/
def laneTrap (m : Mach) (gid : Nat) (g : Group) (e : LiqEntry) (cause : Cause) (addr : Dword) : Mach :=
  let first := (g.chain.bind fun c => c.issued.head?).getD e
  let popped := (g.chain.map Chain.popped).getD []
  let again := (g.qs.liq.takeWhile fun x => !x.fold).length
  let g1 := g.dropHoles
  let g2 := { g1.rearm with qs := { g1.qs with sq := popped ++ g1.qs.sq, liq := [] }, chain := none, lx := none,
                            fabric := .none, flight := none }
  let m1 := (m.setGrp gid g2).setCore g.core ((m.core g.core).endChain gid)
  takeTrap m1 gid { lane := true, cause := cause, code := 0, tspc := e.resume, tlpc := first.lpc, taddr := addr,
                    tmemb := e.lpc, lxrem := first.left, folded := (first.lpc, e.lpc + again) }

/-- A lane instruction of the current group: the head of its lane issue queue traps if it is marked so, waits for
an entry or a slot that it lacks, and otherwise does what f says. -/
def laneStep (s : State) (i : Instr) (w : LaneWord) (f : Nat → LaneIn → Mach) : Host.Outcome State Fault Refusal :=
  match s.m.grp? s.m.cur with
  | none => .fault .noGroup
  | some g =>
    match g.qs.liq with
    | [] => .fault .noLaneEntry
    | e :: _ =>
      match e.bad with
      | some (c, a) => .next { s with m := laneTrap s.m s.m.cur g e c a }
      | none => if g.blockedOn i then .next s else .next { s with m := f s.m.cur (laneIn s.m g e i w) }

/-- A lane instruction that reads registers in E, computes lane by lane and writes the results to its destination
and latch (R37, R38), its flags gathered over the lanes (R73); a register check that fails is a detected error of
source 1 (R334). -/
def laneArith (s : State) (i : Instr) (w : LaneWord) (n : Nat) (f : LaneIn → Nat → Nat × FFlags) :
    Host.Outcome State Fault Refusal :=
  laneStep s i w fun gid x =>
    if x.g.readFails (sourceRegs i) x.lanes then detectedError s.m gid 1
    else
      let rs := x.lanes.map fun l => (l, f x l)
      let vals := rs.map fun r => (r.1, r.2.1)
      let shadow := isShadowed (s.m.features x.g.core) i w && w.nw = 0
      let g1 := (x.write shadow n vals).raise (rs.foldl (fun a r => a.or r.2.2) .clear)
      let c := x.capture vals (x.g.chain.getD Chain.empty)
      let c1 := if shadow && w.dst.toNat < 256 then
          { c with shadows := { reg := w.dst.toNat, wide := n = 2, vals := vals.map fun v => (v.1, BitVec.ofNat 64 v.2) } :: c.shadows }
        else c
      laneFinish s.m gid g1 x.e i w c1

/-- A lane instruction that sets no flag. -/
def lanePure (s : State) (i : Instr) (w : LaneWord) (n : Nat) (f : LaneIn → Nat → Nat) :
    Host.Outcome State Fault Refusal :=
  laneArith s i w n fun x l => (f x l, .clear)

/-- A lane instruction that writes a predicate in the lanes of E (R144, R145). -/
def lanePred (s : State) (i : Instr) (w : LaneWord) (f : LaneIn → Nat → Bool × FFlags) :
    Host.Outcome State Fault Refusal :=
  laneStep s i w fun gid x =>
    if x.g.readFails (sourceRegs i) x.lanes then detectedError s.m gid 1
    else
      let rs := x.lanes.map fun l => (l, f x l)
      let g1 := (rs.foldl (fun g r => g.setPred w.dst.toNat r.1 r.2.1) x.g).raise (rs.foldl (fun a r => a.or r.2.2) .clear)
      laneFinish s.m gid g1 x.e i w (x.g.chain.getD Chain.empty)

/-- A lane instruction that pushes entries to LQ, once for the whole group (R37). -/
def lanePush (s : State) (i : Instr) (w : LaneWord) (lanes : LaneIn → List Nat)
    (f : LaneIn → List Word × FFlags) : Host.Outcome State Fault Refusal :=
  laneStep s i w fun gid x =>
    if x.g.readFails (sourceRegs i) (lanes x) then detectedError s.m gid 1
    else
      let (es, fl) := f x
      let g1 := { x.g with qs := { x.g.qs with lq := x.g.qs.lq ++ es } }
      laneFinish s.m gid (g1.raise fl) x.e i w (x.g.chain.getD Chain.empty)

end Sys2Proof.Machine
end

