-- ==== Sys2Proof/Machine/Fetch.lean ====
section
/-! DEFINITION. The fetch of both streams (R27 to R29, R390) and the taking of lane instructions into the lane issue
queue (R48, R83).
-/

namespace Sys2Proof.Machine

/-- The sections that a group's program counters run over (R27, R367). -/
structure Sections where
  sbase    : Nat
  slen     : Nat
  lbase    : Nat
  llen     : Nat
  physical : Bool
  deriving DecidableEq, Repr

/-- The kernel's sections, or, while the group is Trapped, the trap sections of its context, which are reached at
their physical addresses (R361, R367). -/
def sections (m : Mach) (g : Group) : Sections :=
  let none_ : Sections := { sbase := 0, slen := 0, lbase := 0, llen := 0, physical := true }
  if g.isTrapped then
    match aget m.ctxs g.ctx with
    | some c =>
      { sbase := c.desc.tsbase, slen := c.desc.tslen, lbase := c.desc.tlbase, llen := c.desc.tllen, physical := true }
    | none => none_
  else
    match m.lrec? g with
    | some r => { sbase := r.sbase.toNat, slen := r.slen, lbase := r.lbase.toNat, llen := r.llen, physical := false }
    | none => none_

/-- The physical address of a fetch, or its fault (R386, R390): nothing is fetched through the local windows, and a
fetch that misses the module's own memory has no target. (DEDUCED, log 43.) -/
def fetchPa (m : Mach) (g : Group) (physical : Bool) (va : Nat) : Except (Cause × Nat) (Mach × Nat) :=
  if physical then .ok (m, va)
  else if !canonical va then .error (.notPresent, 4)
  else if isLocal va then .error (.windowRange, 0)
  else
    match translate m g.core g.ctx va .fetch with
    | .error e => .error e
    | .ok (m1, pa, _) => if pa < devTop then .ok (m1, pa) else .error (.noTarget, 0)

/-- The machine that a fetch which fails leaves: what its translation leaves (R386, R388, R389). -/
def afterFetch (m : Mach) (g : Group) (physical : Bool) (va : Nat) : Mach :=
  if physical || isLocal va then m else afterFault m g.core g.ctx va .fetch

/-- A word as a fetch of a group sees it: what memory holds, or what it held before a store that was performed since the
group's kernel was launched (R52). (DESIGN CHOICE, log 3.) -/
def fetchWord (m : Mach) (g : Group) (pa : Nat) : Word :=
  let old := (((aget m.touched (pa / 4)).getD []).filter fun o => g.kern < o.1).map Prod.snd
  let all := BitVec.ofNat 32 (readNat m (.dev pa) 4) :: old
  (all[if old.isEmpty then 0 else Config.choice (m.free + pa) % all.length]?).getD 0

/-- Words that lie in one page. -/
def fetchRun (m : Mach) (g : Group) (pa n : Nat) : List Word := (List.range n).map fun i => fetchWord m g (pa + 4 * i)

/-- Words fetched from a 4-byte aligned address; each page they lie in is translated (R390). A fault comes with the
machine it leaves, its level and the first failing byte. -/
def fetchWords (m : Mach) (g : Group) (physical : Bool) (va n : Nat) :
    Except (Mach × Cause × Nat × Nat) (Mach × List Word) :=
  match fetchPa m g physical va with
  | .error (c, l) => .error (afterFetch m g physical va, c, l, va)
  | .ok (m1, pa) =>
    let k := (4096 - va % 4096) / 4
    if n ≤ k then .ok (m1, fetchRun m1 g pa n)
    else
      match fetchPa m1 g physical (va + 4 * k) with
      | .error (c, l) => .error (afterFetch m1 g physical (va + 4 * k), c, l, va + 4 * k)
      | .ok (m2, pa2) => .ok (m2, fetchRun m2 g pa k ++ fetchRun m2 g pa2 (n - k))

/-! The scalar stream. -/

/-- The instruction of a fetched word and the word after it: an illegal one stands for the trap it raises (R47). -/
def scalarOf (w w2 : Word) : Instr :=
  match decodeScalar w w2 with
  | .ok i => i
  | .error _ => .illegalScalarInstruction w

/-- A fault of a fetch as the instruction that raises it (R390). -/
def fetchFaultInstr (c : Cause) (level va : Nat) : Instr :=
  .instructionFetchFault (BitVec.ofNat 8 c.num) level (BitVec.ofNat 64 va)

/-- The scalar instruction that a group issues next, or the pseudo-instruction of the trap it raises in its place
(R28, R47, R390).  A SIG.CHK whose second word lies past the end of the section raises scalar PC range at the SIG.CHK: the
spec names no trap for it. (DESIGN CHOICE, log 69.) -/
def nextScalar (m : Mach) (g : Group) : Mach × Instr :=
  let s := sections m g
  let pc := g.spc.toNat
  if pc < s.sbase || s.sbase + s.slen < pc + 4 then (m, .scalarPcRange)
  else
    match fetchWords m g s.physical pc 1 with
    | .error (m1, c, l, va) => (m1, fetchFaultInstr c l va)
    | .ok (m1, ws) =>
      let w := ws.headD 0
      match scalarOf w 0 with
      | .sigChk _ =>
        if s.sbase + s.slen < pc + 8 then (m, .scalarPcRange)
        else
          match fetchWords m g s.physical pc 2 with
          | .error (m2, c, l, va) => (m2, fetchFaultInstr c l va)
          | .ok (m2, ws2) => (m2, scalarOf w ((ws2.drop 1).headD 0))
      | i => (m1, i)

/-! The lane stream. -/

/-- The entries of the stick chain that would take one more member with so many of its run left: the newest ones that
carry stick and belong to the same run (R40). -/
def chainBefore (resume : Dword) : Nat → List LiqEntry → List LiqEntry
  | _, [] => []
  | left, e :: r =>
    match e.ins.bind laneWord? with
    | some w => if w.stick && e.resume = resume && e.left = left + 1 then e :: chainBefore resume e.left r else []
    | none => []

/-- Whether an entry is a shadowed member that writes register n (R159). -/
def shadowsReg (n : Nat) (e : LiqEntry) : Bool :=
  match e.ins, e.ins.bind laneWord? with
  | some i, some w => w.shadowed && w.nw = 0 && shadowable i && w.dst.toNat = n
  | _, _ => false

/-- The element format of a format slot (R62). A compacted handler group belongs to no kernel and so has no format slots:
what a CVTS reads there the spec does not say, and the model has none, so that it is illegal. (DESIGN CHOICE, log 69.) -/
def slotEfmt (m : Mach) (g : Group) (slot : Nat) : Option Nat :=
  if g.kind = .compacted then none else ((m.lrec? g).bind fun r => r.slots[slot]?).map fun d => bits d.toNat 0 4

/-- The checks of R48 on a lane instruction that depend on where it stands: the allocation (R36), the stick chain
(R40), the format slot of CVTS (R151) and the shadowed member of SHDW (R159). (DEDUCED, log 64.) -/
def takenLegal (m : Mach) (g : Group) (left : Nat) (chain : List LiqEntry) (i : Instr) : Bool :=
  match laneWord? i with
  | none => false
  | some w =>
    laneLegal i && laneTop i ≤ g.nregs && !(w.stick && (left = 1 || 3 ≤ chain.length))
      && (match i with
        | .shdw w => chain.any (shadowsReg w.dst.toNat)
        | .cvts w => match slotEfmt m g w.slot.toNat with
          | some e => 4 ≤ e && e ≤ 6
          | none => false
        | _ => true)

/-- What a lane instruction is taken as: itself, or the trap it raises as it would issue (R48, R50). -/
def laneVerdict (m : Mach) (g : Group) (left : Nat) (chain : List LiqEntry) (ws : List Word) :
    Option Instr × Option (Cause × Dword) :=
  match decodeLane ((ws.drop 2).headD 0 ++ (ws.drop 1).headD 0 ++ ws.headD 0) with
  | .error _ => (none, some (.illegal, 0))
  | .ok i =>
    if !takenLegal m g left chain i then (some i, some (.illegal, 0))
    else
      match i with
      | .shdw _ => (some i, if (m.features g.core).getLsbD 1 then none else some (.featureAbsent, 0))
      | _ => (some i, none)

/-- The address that a trap reports for a fault of a level (R387). -/
def reportAddr (c : Cause) (level va : Nat) : Dword :=
  if 16 ≤ c.num && c.num ≤ 19 then faultAddr va level else BitVec.ofNat 64 va

/-- Whether an instruction is a SHDW. -/
def isShdw : Option Instr → Bool
  | some (.shdw _) => true
  | _ => false

/-- The lane instruction at the lane PC as its LX takes it, with so many of its run left (R28, R48, R85, R390). -/
def takeEntry (m : Mach) (g : Group) (left : Nat) (resume : Dword) : Mach × LiqEntry :=
  let s := sections m g
  let older := ((g.chain.map Chain.issued).getD [] ++ g.qs.liq).reverse
  let again := !g.isTrapped && decide (g.folded.1 ≤ g.lpc) && decide (g.lpc < g.folded.2)
  let entry (i : Option Instr) (bad : Option (Cause × Dword)) : LiqEntry :=
    { ins := i, bad := bad, m0 := g.mask 0, m1 := g.mask 1, m2 := g.mask 2, mode := g.mode,
      svals := ((i.map scalarSources).getD []).map fun r => (r.toNat, g.s r), lpc := g.lpc, left := left, resume := resume,
      fold := !g.isTrapped && !again, again := again,
      inject := if bad.isNone && isShdw i then g.inject.filter fun k => k.1 = 1 || k.1 = 2 else none }
  if s.llen ≤ g.lpc then (m, entry none (some (.lanePcRange, 0)))
  else
    match fetchWords m g s.physical (s.lbase + 12 * g.lpc) 3 with
    | .error (m1, c, l, va) => (m1, entry none (some (c, reportAddr c l va)))
    | .ok (m1, ws) =>
      let (i, bad) := laneVerdict m1 g left (chainBefore resume left older) ws
      (m1, entry i bad)

/-- The group with one more entry of its run in the queue, and a place for it in the signature (R83, R336); an injection that
the entry takes is armed no more (R126, R344).  The lane PC wraps at the 32 bits of SCR_TLPC: R27 states no width, and every
index past the section traps (R28). (DESIGN CHOICE, log 69.) -/
def Group.enqueue (g : Group) (e : LiqEntry) (left : Nat) (resume : Dword) : Group :=
  { g with qs := { g.qs with liq := g.qs.liq ++ [e] }, lpc := (g.lpc + 1) % 2 ^ 32,
           inject := if e.inject.isSome then none else g.inject,
           sigq := if e.fold then g.sigq ++ [.hole] else g.sigq,
           folded := if left ≤ 1 then (0, 0) else g.folded,
           lx := if left ≤ 1 then none else some { left := left - 1, resume := resume } }

/-- The run under way taken as far as the queue has room (R83). -/
def takeRun (gid : Nat) : Nat → Mach → Mach
  | 0, m => m
  | fuel + 1, m =>
    match m.grp? gid with
    | none => m
    | some g =>
      match g.lx with
      | none => m
      | some p =>
        if 16 ≤ g.qs.liq.length then m
        else
          let (m1, e) := takeEntry m g p.left p.resume
          takeRun gid fuel (m1.setGrp gid (g.enqueue e p.left p.resume))

/-- A queue-deadlock trap (R89): it is taken with every queue as it stands, and a chain under way is to be issued again from
its first member after it (R95). (DEDUCED, log 50.) -/
def queueDeadlock (m : Mach) (gid : Nat) (g : Group) (dlq : Nat) (tspc : Dword) (lxrem : Nat) : Mach :=
  let m1 := (m.setGrp gid { g.restartChain with dlq := dlq, stuck := false }).setCore g.core ((m.core g.core).endChain gid)
  takeTrap m1 gid
    { lane := false, cause := .queueDeadlock, code := 0, tspc := tspc, tlpc := g.lpc, taddr := 0, tmemb := 0,
      lxrem := lxrem, folded := g.folded }

/-- A run that is still being taken goes on: it takes what fits; with no room while the head waits for a queue entry
or slot, the group traps "queue deadlock" and the rest of the run is left for TRET (R83, R89). -/
def continueRun (m : Mach) (gid : Nat) (g : Group) (p : LxPending) : Mach :=
  if 16 ≤ g.qs.liq.length then
    if g.headBlocked then queueDeadlock m gid { g with lx := none } 3 p.resume p.left else wait m gid g
  else
    let m1 := takeRun gid 16 m
    match m1.grp? gid with
    | none => m1
    | some g1 =>
      if g1.lx.isSome then wait m1 gid g1
      else m1.setGrp gid { g1 with st := g1.st.woken,
                                   readyAt := if g1.st.isWaiting then (m1.core g1.core).cyc else g1.readyAt }

/-- An instruction of R440 waits for the lane instructions taken before it; with the head of their queue waiting for an
entry or a slot, it traps "queue deadlock" (R89). -/
def awaitLanes (m : Mach) (gid : Nat) (g : Group) (k : Unit → Mach) : Mach :=
  if g.qs.liq.isEmpty then k ()
  else if g.headBlocked then queueDeadlock m gid g 3 g.spc 0
  else wait m gid g

/-- The causes that a fetch can raise, by number (R365). -/
def fetchCause (n : Nat) : Cause :=
  match n with
  | 17 => .permission
  | 18 => .reservedBit
  | 19 => .accessKind
  | 20 => .windowRange
  | 22 => .noTarget
  | _ => .notPresent

/-- A scalar word that is no instruction (R47). -/
def execIllegalScalarInstruction (_ : BitVec 32) (s : State) : Host.Outcome State Fault Refusal :=
  groupStep s fun gid _ => scalarTrap s.m gid .illegal

/-- A scalar PC outside its section (R28). -/
def execScalarPcRange (s : State) : Host.Outcome State Fault Refusal :=
  groupStep s fun gid _ => scalarTrap s.m gid .scalarPcRange

/-- A fetch that failed, as its instruction would issue (R390). (DEDUCED, log 43.) -/
def execInstructionFetchFault (cause : BitVec 8) (level : Nat) (addr : BitVec 64) (s : State) :
    Host.Outcome State Fault Refusal :=
  groupStep s fun gid _ =>
    let c := fetchCause cause.toNat
    scalarTrapAt s.m gid c (reportAddr c level addr.toNat)

end Sys2Proof.Machine
end

