-- ==== Sys2Proof/Machine/Control.lean ====
section
/-! DEFINITION. Control transfer (R117 to R121), the lane-stream and queue instructions (R83 to R93), the system
instructions (R122 to R125) and the special registers (R126 to R130).
-/

namespace Sys2Proof.Machine

/-! Control transfer. -/

/-- The target of an S-B offset (R117). -/
def branchTarget (g : Group) (off : BitVec 22) : Dword := g.spc + (off.signExtend 64 <<< 2)

/-- The address after a scalar instruction of 4 bytes, or the target of a branch that is taken. -/
def branchNext (g : Group) (taken : Bool) (off : BitVec 22) : Dword := if taken then branchTarget g off else g.spc + 4

/-- B (R118). -/
def execB (cc : BitVec 4) (off : BitVec 22) (s : State) : Host.Outcome State Fault Refusal :=
  groupStep s fun gid g =>
    if cc = 15 then scalarTrap s.m gid .illegal
    else finish s.m gid g (branchNext g (condTrue cc g.flags) off) (scalarCode 0x1A 0)

/-- The OR of the masks of the beats that the group has (R119). -/
def Group.maskAll (g : Group) : Word := (List.range g.beats).foldl (fun a b => a ||| g.mask b) 0

/-- BM (R119). -/
def execBm (nz : BitVec 1) (sel : BitVec 3) (off : BitVec 22) (s : State) : Host.Outcome State Fault Refusal :=
  groupStep s fun gid g =>
    if 4 ≤ sel.toNat then scalarTrap s.m gid .illegal
    else
      let v := if sel = 3 then g.maskAll else g.mask sel.toNat
      let taken := if nz = 0 then v = 0 else v != 0
      finish s.m gid g (branchNext g taken off) (scalarCode 0x1B 0)

/-- Whether a queued lane instruction pushes a queue, or pops it. -/
def Group.queued (g : Group) (moves : Instr → Nat) : Bool :=
  g.qs.liq.any fun e => e.bad.isNone && (match e.ins with
    | some i => 0 < moves i
    | none => false)

/-- A pop that finds its queue empty waits while a queued lane instruction pushes it, and traps "queue deadlock"
otherwise (R89). -/
def popWait (m : Mach) (gid : Nat) (g : Group) (dlq : Nat) (pushes : Instr → Nat) : Mach :=
  if g.queued pushes then wait m gid g else queueDeadlock m gid g dlq g.spc 0

/-- The group with the first FQ entry popped. -/
def Group.popFq (g : Group) : Group := { g with qs := { g.qs with fq := g.qs.fq.drop 1 } }

/-- The group with the first LQ entry popped. -/
def Group.popLq (g : Group) : Group := { g with qs := { g.qs with lq := g.qs.lq.drop 1 } }

/-- Whether BF takes its branch: all in bit 1 and any in bit 0 of the entry (R120). -/
def bfTaken (cc : BitVec 4) (e : BitVec 2) : Bool :=
  match cc.toNat with
  | 0 => !e.getLsbD 0
  | 1 => e.getLsbD 0
  | 2 => e.getLsbD 1
  | _ => !e.getLsbD 1

/-- BF (R120). -/
def execBf (cc : BitVec 4) (off : BitVec 22) (s : State) : Host.Outcome State Fault Refusal :=
  groupStep s fun gid g =>
    if 4 ≤ cc.toNat then scalarTrap s.m gid .illegal
    else
      match g.qs.fq with
      | [] => popWait s.m gid g 2 fqPushes
      | e :: _ => finish s.m gid g.popFq (branchNext g (bfTaken cc e) off) (scalarCode 0x1C 0)

/-- CALL (R121). -/
def execCall (off : BitVec 22) (s : State) : Host.Outcome State Fault Refusal :=
  groupStep s fun gid g => finish s.m gid (g.setS 60 (g.spc + 4)) (branchTarget g off) (scalarCode 0x1D 0)

/-- A jump to a register's value, which must be 4-byte aligned (R121). -/
def jumpTo (m : Mach) (gid : Nat) (g : Group) (target : Dword) (func : Nat) : Mach :=
  if target.toNat % 4 != 0 then scalarTrapAt m gid .misalignedPc target
  else finish m gid g target (scalarCode 0x30 func)

/-- JR (R121). -/
def execJr (sa : Sreg) (s : State) : Host.Outcome State Fault Refusal :=
  groupStep s fun gid g => jumpTo s.m gid g (g.s sa) 0

/-- CALLR: sa is read before s60 is written (R121). -/
def execCallr (sa : Sreg) (s : State) : Host.Outcome State Fault Refusal :=
  groupStep s fun gid g => jumpTo s.m gid (g.setS 60 (g.spc + 4)) (g.s sa) 1

/-! The lane stream and the queues. -/

/-- LX (R83): the lane PC is set if an index is given, and the run is taken as far as the queue has room. -/
def execLx (n1 : BitVec 4) (lidx : BitVec 22) (s : State) : Host.Outcome State Fault Refusal :=
  groupStep s fun gid g =>
    let resume := g.spc + 4
    let g1 := { g with lpc := if lidx = 0x3FFFFF then g.lpc else lidx.toNat, folded := (0, 0),
                       lx := some { left := n1.toNat + 1, resume := resume } }
    let m1 := finish s.m gid g1 resume (scalarCode 0x1E 0)
    takeRun gid 16 m1

/-- LJ (R84). -/
def execLj (lidx : BitVec 22) (s : State) : Host.Outcome State Fault Refusal :=
  groupStep s fun gid g => retire s.m gid { g with lpc := lidx.toNat } (scalarCode 0x1F 0)

/-- The SQ slots that are taken: its entries, and those that a chain under way has popped (R40, R86). -/
def Group.sqUsed (g : Group) : Nat := g.qs.sq.length + ((g.chain.map Chain.popped).getD []).length

/-- SQ.PUSH (R87, R89). -/
def execSqPush (sa : Sreg) (s : State) : Host.Outcome State Fault Refusal :=
  groupStep s fun gid g =>
    if g.sqUsed < 8 then
      retire s.m gid { g with qs := { g.qs with sq := g.qs.sq ++ [(g.s sa).truncate 32] } } (scalarCode 0x20 0)
    else if g.qs.sq.length < 8 then wait s.m gid g
    else popWait s.m gid g 0 sqNeeds

/-- LQ.POP (R87, R89). -/
def execLqPop (sd : Sreg) (s : State) : Host.Outcome State Fault Refusal :=
  groupStep s fun gid g =>
    match g.qs.lq with
    | [] => popWait s.m gid g 1 fun i => lqPushes i g.beats
    | x :: _ => retire s.m gid (g.popLq.setS sd (x.zeroExtend 64)) (scalarCode 0x20 1)

/-- FQ.POP (R87, R89). -/
def execFqPop (sd : Sreg) (s : State) : Host.Outcome State Fault Refusal :=
  groupStep s fun gid g =>
    match g.qs.fq with
    | [] => popWait s.m gid g 2 fqPushes
    | x :: _ => retire s.m gid (g.popFq.setS sd (x.zeroExtend 64)) (scalarCode 0x20 2)

/-- Whether sd names the mask of a beat that the group has (R92). -/
def Group.namesMask (g : Group) (sd : Sreg) : Bool := 61 ≤ sd.toNat && sd.toNat - 61 < g.beats

/-- A mask instruction: sd gets a value, and its own code and then its marker are folded (R92, R336). -/
def maskStep (s : State) (sd : Sreg) (func : Nat) (f : Group → Dword) : Host.Outcome State Fault Refusal :=
  groupStep s fun gid g =>
    if g.namesMask sd then
      retire s.m gid ((g.setS sd (f g)).fold (scalarCode 0x21 func)) (BitVec.ofNat 64 (0x30001 + func))
    else scalarTrap s.m gid .illegal

/-- MSPLIT (R92). -/
def execMsplit (sd sa : Sreg) (s : State) : Host.Outcome State Fault Refusal :=
  maskStep s sd 0 fun g => g.s sd &&& g.s sa

/-- MJOIN (R92). -/
def execMjoin (sd sa : Sreg) (s : State) : Host.Outcome State Fault Refusal :=
  maskStep s sd 1 fun g => g.s sd ||| g.s sa

/-! System instructions. -/

/-- NOP (R122). -/
def execNop (s : State) : Host.Outcome State Fault Refusal :=
  groupStep s fun gid g => retire s.m gid g (scalarCode 0x2F 0)

/-- A trap that an instruction raises as its effect, resuming after it (R123); the instruction is folded as it
issues.  It waits for the lane instructions taken before it; where their head waits for an entry or a slot that only a later
scalar instruction could give, which R89 does not list, it waits for ever. (DESIGN CHOICE, log 71.) -/
def trapStep (s : State) (cause : Cause) (code func : Nat) : Host.Outcome State Fault Refusal :=
  groupStep s fun gid g =>
    if g.qs.liq.isEmpty then
      scalarTrapTo (s.m.setGrp gid (g.fold (scalarCode 0x2F func))) gid cause code 0 (g.spc + 4)
    else s.m.setGrp gid { g with stuck := true }

/-- TRAP (R123). -/
def execTrap (n : BitVec 6) (s : State) : Host.Outcome State Fault Refusal := trapStep s .software n.toNat 1

/-- BRK (R123). -/
def execBrk (s : State) : Host.Outcome State Fault Refusal := trapStep s .breakpoint 0 4

/-- One of a Held group's lanes has returned: with the last of them the group is Ready, and executes the faulting
instruction again for every lane (R81, R373); what its handler did comes before that, so that on another core than the
handler's it acquires (R208). -/
def returnLane (from_ : Nat) (m : Mach) (o : Origin) : Mach :=
  match m.grp? o.group with
  | none => m
  | some g =>
    let m1 := if g.core = from_ then m else acquireAt m g .clu
    match g.st with
    | .held n =>
      if n ≤ 1 then m1.setGrp o.group { g with st := .ready, readyAt := (m1.core g.core).cyc }
      else m1.setGrp o.group { g with st := .held (n - 1) }
    | _ => m

/-- A compacted handler group ends by TRET: its lanes have returned (R373). -/
def compactedReturn (m : Mach) (gid : Nat) (g : Group) : Mach :=
  g.origins.foldl (returnLane g.core) (removeGroup m gid)

/-- The group as it leaves its trap, resuming at the reported PCs (R81, R124): the rest of the interrupted run, if any,
is to be taken again from SCR_TLPC. -/
def Group.resumed (core : Core) (g : Group) : Group :=
  let g1 := returnFromTrap core g
  let pc := g.tspc &&& ~~~3
  if g.lxrem = 0 then { g1 with spc := pc, folded := (0, 0) }
  else { g1 with spc := pc, lpc := g.tlpc % 2 ^ 32, lx := some { left := g.lxrem, resume := pc } }

/-- The return from a trap (R124): the group goes back to its program and takes the rest of its run.
(DEDUCED, log 43.) -/
def trapReturn (m : Mach) (gid : Nat) (g : Group) : Mach :=
  takeRun gid 16 (m.setGrp gid (g.resumed (m.core g.core)))

/-- TRET (R124, R373). -/
def execTret (s : State) : Host.Outcome State Fault Refusal :=
  groupStep s fun gid g =>
    if !g.isTrapped then scalarTrap s.m gid .illegal
    else if g.kind = .compacted then compactedReturn s.m gid g
    else trapReturn s.m gid g

/-- The group's end by EXIT, with nothing left to wait for (R125, R279, R373). -/
def exitGroup (m : Mach) (gid : Nat) (g : Group) : Mach :=
  let m1 := leaveService (removeGroup (dropOwn m gid) gid) g 2
  settleKernel (abandon m1 g.origins) g.kern

/-- EXIT (R125): the lane issue queue issues until its head waits for an entry or a slot, and is discarded from there;
published copy entries are waited for (R250).  Its traps "exit in region" and "tasks open" wait for the lane instructions
taken before it, as R123 says of every scalar trap, though R125 says of EXIT that it never waits for ever on its own queues:
behind a head that is blocked for ever they do. (DESIGN CHOICE, log 71.) -/
def execExit (s : State) : Host.Outcome State Fault Refusal :=
  groupStep s fun gid g =>
    if 0 < g.depth then scalarTrap s.m gid .exitInRegion
    else if g.kind = .task && !g.tasks.isEmpty then scalarTrap s.m gid .tasksOpen
    else if !g.qs.liq.isEmpty && !g.headBlocked then wait s.m gid g
    else if publishedOpen s.m gid g then wait s.m gid { g.dropHoles with qs := { g.qs with liq := [] }, chain := none }
    else exitGroup s.m gid g

/-! Special registers. -/

/-- SCR_QSTAT (R90): of a Trapped group, the queues as they stand set aside, which is their state at the trap (R89, R367).
(DEDUCED, log 50.) -/
def Group.qstat (g : Group) : Nat :=
  let q := g.aside.getD g.qs
  q.sq.length + q.lq.length * 2 ^ 7 + q.fq.length * 2 ^ 11 + q.liq.length * 2 ^ 15 + g.dlq * 2 ^ 20

/-- SCR_RGN (R332). -/
def Group.rgnWord (g : Group) : Nat :=
  let used := if g.rgn.isEmpty then 0 else (g.log.map fun l => l.top / 16).getD 0
  g.depth + ((g.rgn.head?.map Region.retry).getD 0) * 2 ^ 3 + g.src * 2 ^ 8 + g.rolls * 2 ^ 11 + used * 2 ^ 16

/-- The coordinates of a team in its grid, x fastest (R353). -/
def teamCoord (r : LaunchRec) (t axis : Nat) : Nat :=
  match axis with
  | 0 => t % r.gx
  | 1 => t / r.gx % r.gy
  | _ => t / r.gx / r.gy

/-- The registers of R127 that describe a kernel's grid and records; none where the group belongs to no kernel, or its
team to no grid. -/
def gridValue (m : Mach) (g : Group) (n : Nat) : Option Dword :=
  let nat (x : Nat) : Option Dword := some (BitVec.ofNat 64 x)
  match (if g.kind = .compacted then none else aget m.kerns g.kern) with
  | none => none
  | some k =>
    let coord (axis : Nat) : Option Dword :=
      match g.kind, aget m.teams g.team with
      | .kernel, some t => nat (teamCoord k.lrec t.t axis)
      | _, _ => none
    match n with
    | 0x008 => coord 0
    | 0x009 => coord 1
    | 0x00A => coord 2
    | 0x00C => nat k.lrec.gx
    | 0x00D => nat k.lrec.gy
    | 0x00E => nat k.lrec.gz
    | 0x014 => some k.addr
    | _ => some k.lrec.args

/-- The value of a special register (R127); none where it holds no stated value for this group.
(DESIGN CHOICE, log 8.) -/
def scrValue (m : Mach) (g : Group) (n : Nat) : Option Dword :=
  let nat (x : Nat) : Option Dword := some (BitVec.ofNat 64 x)
  let core := m.core g.core
  match n with
  | 0x000 => nat (dieOf g.core)
  | 0x001 => nat (clusterOf g.core)
  | 0x002 => nat g.core
  | 0x003 => nat g.slot
  | 0x004 => nat g.width
  | 0x010 => nat g.gidx
  | 0x011 => nat (if g.kind = .kernel then ((m.lrec? g).map LaunchRec.tgroups).getD 1 else 1)
  | 0x016 => nat g.ctx
  | 0x020 => nat (m.features g.core).toNat
  | 0x021 => nat (core.limit + core.hits * 2 ^ 7)
  | 0x040 => nat g.mode.toNat
  | 0x041 => nat g.fpstat.toNat
  | 0x042 => nat g.qstat
  | 0x043 => nat g.lxrem
  | 0x048 => nat g.node
  | 0x049 => some g.stamp
  | 0x04C => some g.sig
  | 0x04D => nat g.rgnWord
  | 0x050 => nat (((aget m.teams g.team).map Team.depth).getD 1)
  | 0x080 => nat g.tcause.toNat
  | 0x081 => some g.tspc
  | 0x082 => nat g.tlpc
  | 0x083 => some g.taddr
  | 0x084 => nat g.tmemb
  | 0x0F0 => nat 0
  | _ => gridValue m g n

/-- The width of a special register whose value is not stated (R127). (DESIGN CHOICE, log 3.) -/
def scrFree (n : Nat) (x : Dword) : Dword := if n = 0x014 || n = 0x015 then x else (x.truncate 32).zeroExtend 64

/-- The special registers that lane instructions update: SCR_FPSTAT (R74) and SCR_SIG (R336). -/
def laneUpdates (n : BitVec 12) : Bool := n = 0x041 || n = 0x04C

/-- SCR.RD (R126): what lane instructions update is read once every one taken before has completed (R74), and the clock of the
core has moved on by some count since it was last looked at (R130). (DESIGN CHOICE, log 8.) -/
def execScrRd (sd : Sreg) (n : BitVec 12) (s : State) : Host.Outcome State Fault Refusal :=
  groupStep s fun gid g =>
    let code := scalarCode 0x2D 0
    if !scrNumbers.contains n.toNat then scalarTrap s.m gid .illegal
    else if laneUpdates n && !g.qs.liq.isEmpty then wait s.m gid g
    else if n = 0x0C0 then
      let core := s.m.core g.core
      let clk := core.clk + Config.choice s.m.free
      retire ((s.m.setCore g.core { core with clk := clk }).bump) gid (g.setS sd (BitVec.ofNat 64 clk)) code
    else
      match scrValue s.m g n.toNat with
      | some x => retire s.m gid (g.setS sd x) code
      | none => retire s.m.bump gid (g.setS sd (scrFree n.toNat (Config.freeDword s.m.free))) code

/-- SCR_INJECT written (R344): an armed injection is replaced, a reserved kind is ignored, and so is a write inside a
region that is being retried. -/
def Group.arm (g : Group) (x : Dword) : Group :=
  let kind := bits x.toNat 8 4
  if 3 < kind || g.rgn.any fun r => 0 < r.retry then g
  else { g with inject := if kind = 0 then none else some (kind, bits x.toNat 0 8) }

/-- A special register written under its access rules (R126, R127). -/
def Group.setScr (g : Group) (n : Nat) (x : Dword) : Group :=
  match n with
  | 0x040 => { g with mode := (x.truncate 15).zeroExtend 32 }
  | 0x041 => { g with fpstat := g.fpstat &&& ~~~(x.truncate 32) }
  | 0x043 => { g with lxrem := min (bits x.toNat 0 5) 16 }
  | 0x081 => if g.isTrapped then { g with tspc := x } else g
  | 0x082 => if g.isTrapped then { g with tlpc := bits x.toNat 0 32 } else g
  | 0x0F0 => g.arm x
  | _ => g

/-- SCR.WR (R126); a write of the flags is ordered after every lane instruction taken before it (R74). -/
def execScrWr (n : BitVec 12) (sa : Sreg) (s : State) : Host.Outcome State Fault Refusal :=
  groupStep s fun gid g =>
    if !scrNumbers.contains n.toNat then scalarTrap s.m gid .illegal
    else if n = 0x041 && !g.qs.liq.isEmpty then wait s.m gid g
    else retire s.m gid (g.setScr n.toNat (g.s sa)) (scalarCode 0x2E 0)

end Sys2Proof.Machine
end

