-- ==== Sys2Proof/Machine/ScalarMem.lean ====
section
/-! DEFINITION. The scalar loads, stores and atomics (R113 to R116), the fences and WAITA (R185 to R187). -/

namespace Sys2Proof.Machine

/-- The address of a scalar access (R113). -/
def scalarEa (g : Group) (sa : Sreg) (imm : BitVec 14) : Nat := (g.s sa + imm.signExtend 64).toNat

/-- A scalar load (R113 to R115): the bytes read, extended by f, go to sd. -/
def loadStep (s : State) (major size : Nat) (sd sa : Sreg) (imm : BitVec 14) (f : Nat → Dword) :
    Host.Outcome State Fault Refusal :=
  groupStep s fun gid g =>
    onGot gid (scalarLoad s.m gid g (scalarEa g sa imm) size .grp true) fun m x =>
      retire m gid (g.setS sd (f x)) (scalarCode major 0)

/-- A scalar store of the low bytes of sd (R113 to R115). -/
def storeStep (s : State) (major size : Nat) (sd sa : Sreg) (imm : BitVec 14) : Host.Outcome State Fault Refusal :=
  groupStep s fun gid g =>
    onGot gid (scalarStore s.m gid g (scalarEa g sa imm) size (g.s sd).toNat) fun m _ =>
      retire m gid g (scalarCode major 0)

/-- ZeroExtend of a value read (R113). -/
def zext (x : Nat) : Dword := BitVec.ofNat 64 x

/-- SignExtend of a value of w bits read (R113). -/
def sext (w x : Nat) : Dword := BitVec.ofInt 64 (signed w x)

/-- SLDB (R113). -/
def execSldb (sd sa : Sreg) (imm : BitVec 14) (s : State) : Host.Outcome State Fault Refusal :=
  loadStep s 0x0E 1 sd sa imm zext

/-- SLDH (R113). -/
def execSldh (sd sa : Sreg) (imm : BitVec 14) (s : State) : Host.Outcome State Fault Refusal :=
  loadStep s 0x0F 2 sd sa imm zext

/-- SLDW (R113). -/
def execSldw (sd sa : Sreg) (imm : BitVec 14) (s : State) : Host.Outcome State Fault Refusal :=
  loadStep s 0x10 4 sd sa imm zext

/-- SLDD (R113). -/
def execSldd (sd sa : Sreg) (imm : BitVec 14) (s : State) : Host.Outcome State Fault Refusal :=
  loadStep s 0x11 8 sd sa imm zext

/-- SLDBX (R113). -/
def execSldbx (sd sa : Sreg) (imm : BitVec 14) (s : State) : Host.Outcome State Fault Refusal :=
  loadStep s 0x12 1 sd sa imm (sext 8)

/-- SLDHX (R113). -/
def execSldhx (sd sa : Sreg) (imm : BitVec 14) (s : State) : Host.Outcome State Fault Refusal :=
  loadStep s 0x13 2 sd sa imm (sext 16)

/-- SLDWX (R113). -/
def execSldwx (sd sa : Sreg) (imm : BitVec 14) (s : State) : Host.Outcome State Fault Refusal :=
  loadStep s 0x14 4 sd sa imm (sext 32)

/-- SSTB (R113). -/
def execSstb (sd sa : Sreg) (imm : BitVec 14) (s : State) : Host.Outcome State Fault Refusal :=
  storeStep s 0x15 1 sd sa imm

/-- SSTH (R113). -/
def execSsth (sd sa : Sreg) (imm : BitVec 14) (s : State) : Host.Outcome State Fault Refusal :=
  storeStep s 0x16 2 sd sa imm

/-- SSTW (R113). -/
def execSstw (sd sa : Sreg) (imm : BitVec 14) (s : State) : Host.Outcome State Fault Refusal :=
  storeStep s 0x17 4 sd sa imm

/-- SSTD (R113). -/
def execSstd (sd sa : Sreg) (imm : BitVec 14) (s : State) : Host.Outcome State Fault Refusal :=
  storeStep s 0x18 8 sd sa imm

/-- What a scalar atomic stores (R116): nothing where a compare fails. -/
def satomNew (op : Nat) (old sd sb : Dword) : Option Dword :=
  match op with
  | 0 => some (old + sb)
  | 1 => some (old &&& sb)
  | 2 => some (old ||| sb)
  | 3 => some (old ^^^ sb)
  | 4 => some (if sb.slt old then sb else old)
  | 5 => some (if old.slt sb then sb else old)
  | 6 => some (if sb.ult old then sb else old)
  | 7 => some (if old.ult sb then sb else old)
  | 8 => some sb
  | _ => if old = sd then some sb else none

/-- SATOM (R116): a reserved operation or scope is illegal, and a scope wider than .grp in an open region is a
publication (R331). -/
def execSatom (scope : BitVec 3) (op : BitVec 5) (sd sa sb : Sreg) (s : State) :
    Host.Outcome State Fault Refusal :=
  groupStep s fun gid g =>
    if 5 ≤ scope.toNat || 10 ≤ op.toNat then scalarTrap s.m gid .illegal
    else if 0 < g.depth && scope != 0 then scalarTrap s.m gid .publishInRegion
    else
      let new (old : Nat) := (satomNew op.toNat (zext old) (g.s sd) (g.s sb)).map BitVec.toNat
      onGot gid (scalarAtomic s.m gid g (g.s sa).toNat new) fun m old =>
        retire m gid (g.setS sd (zext old)) (scalarCode 0x19 (scope.toNat * 32 + op.toNat))

/-! Fences and waits. -/

/-- Whether a lane instruction may fault, and so holds back its group until its last check passes: rows 0x9_ and
0xA_, CVTS and ACC.LD (R370). -/
def mayFault (i : Instr) : Bool :=
  match i with
  | .ld _ | .st _ | .pref _ | .discard _ | .pst _ | .atom _ | .atomcas _ | .fatom _ | .red _ | .cvts _ | .accLd _ =>
    true
  | _ => false

/-- Whether the lane issue queue holds an instruction that may fault, or one that is already known to trap
(R48, R370): no later scalar instruction issues. (DEDUCED, log 40.) -/
def Group.heldBack (g : Group) : Bool :=
  g.qs.liq.any fun e => e.bad.isSome || (match e.ins with
    | some i => mayFault i
    | none => false)

/-- FENCE (R185): every earlier access of the group is performed once no lane instruction that reaches memory is
queued; FENCE.sys waits for the group's posted peer stores too. -/
def execFence (scope : BitVec 3) (s : State) : Host.Outcome State Fault Refusal :=
  groupStep s fun gid g =>
    if 5 ≤ scope.toNat then scalarTrap s.m gid .illegal
    else if 0 < g.depth && scope != 0 then scalarTrap s.m gid .publishInRegion
    else if g.heldBack || (scope = 4 && aany (fun _ p => p.group = gid) s.m.psts) then wait s.m gid g
    else retire (acquireAt s.m g (Scope.ofCode scope.toNat)) gid g (scalarCode 0x22 scope.toNat)

/-- The unperformed entries of a group in the queues that a set names (R186). -/
def engineEntries (m : Mach) (gid : Nat) (g : Group) (set : BitVec 5) : List EngineEntry :=
  let copies :=
    match aget m.teams g.team with
    | some t => (t.pubs.filter fun p => p.group = gid).map fun p => EngineEntry.copy g.team p.ix
    | none => []
  let walks := (m.walks.filter fun kw => kw.2.poster = some gid && !kw.2.over).map fun kw => EngineEntry.walk kw.1
  let psts := (m.psts.filter fun kp => kp.2.group = gid).map fun kp => EngineEntry.pst kp.1
  (if set.getLsbD 1 then copies else []) ++ (if set.getLsbD 2 then walks else [])
    ++ (if set.getLsbD 3 then psts else [])

/-- Whether a join stalls the group's own accesses, or is an acquire once it is met (R169, R186). (DEDUCED, log 42.) -/
def Join.own (j : Join) : Bool := j.set.getLsbD 0

def Join.acquires (j : Join) : Bool := j.set.getLsbD 0 && j.set.extractLsb' 1 4 != 0

/-- The joins of a group that are not met yet; one that is met and is an acquire takes effect (R169).
(DEDUCED, log 42.) -/
def settleJoins (m : Mach) (gid : Nat) (g : Group) : Mach :=
  let js := g.joins.filter fun j => !j.waits.all (EngineEntry.performed m)
  let met := g.joins.any fun j => j.acquires && j.waits.all (EngineEntry.performed m)
  let m1 := m.setGrp gid { g with joins := js }
  if met then acquireAt m1 g .dev else m1

/-- QFENCE (R186): the scalar stream goes on; the join stands until its entries are performed.  A handler group that
would wait for a walk it posted traps (R278). -/
def execQfence (sa : Sreg) (s : State) : Host.Outcome State Fault Refusal :=
  groupStep s fun gid g =>
    let set := (g.s sa).truncate 5
    if 0 < g.depth && set != 0 then scalarTrap s.m gid .publishInRegion
    else if set.getLsbD 2 && g.serving.isSome
        && aany (fun _ w => w.poster = some gid && !w.over) s.m.walks then scalarTrap s.m gid .handlerWait
    else
      let j : Join := { set := set, waits := engineEntries s.m gid g set }
      let code := scalarCode 0x22 0x08
      if j.waits.isEmpty then
        retire (if j.acquires then acquireAt s.m g .dev else s.m) gid g code
      else retire s.m gid { g with joins := g.joins ++ [j] } code

/-- The conditions of WAITA and of the WAIT packet: EQ, NE, LT, GE, LO, HS (R187, R399). -/
def waitCond (cc : Nat) (v b : Dword) : Bool :=
  match cc with
  | 0 => v = b
  | 1 => v != b
  | 2 => v.slt b
  | 3 => !v.slt b
  | 4 => v.ult b
  | _ => !v.ult b

/-- WAITA (R187): one reading of the location; the instruction ends if the condition holds or the limit, counted
in control cycles of the core since entry, is reached, and waits otherwise. (DESIGN CHOICE, log 12.) -/
def execWaita (cc : BitVec 3) (sd sa sb : Sreg) (s : State) : Host.Outcome State Fault Refusal :=
  groupStep s fun gid g =>
    if 6 ≤ cc.toNat then scalarTrap s.m gid .illegal
    else
      onGot gid (scalarLoad s.m gid g (g.s sa).toNat 8 .sys false) fun m x =>
        let now := (m.core g.core).clk
        let from_ := g.waitedFrom.getD now
        if waitCond cc.toNat (zext x) (g.s sb) || (g.s sd).toNat ≤ now - from_ then
          retire m gid (g.setS sd (zext x)) (scalarCode 0x22 (0x10 + cc.toNat))
        else wait m gid { g with waitedFrom := some from_, fabric := .none, flight := none }

end Sys2Proof.Machine
end

