-- ==== Sys2Proof/Machine/LaneMem.lean ====
section
/-! DEFINITION. The lane memory instructions (R172 to R184): addresses, the checks of R174, lane faults (R366, R371),
loads, stores, atomics, prefetch, discard and posted peer stores.
-/

namespace Sys2Proof.Machine

/-! Lane faults (R366, R371, R372). -/

/-- A lane that fails a check of R174: its cause, level and effective address. -/
structure LaneFault where
  lane  : Nat
  cause : Cause
  level : Nat
  ea    : Dword
  deriving DecidableEq, Repr

/-- The origin tag of a faulting lane (R372): v0 to v3. -/
def originTag (m : Mach) (g : Group) (e : LiqEntry) (f : LaneFault) : List Word :=
  let sbase := ((m.lrec? g).map fun r => r.sbase.toNat).getD 0
  let off := unsigned 28 ((e.resume.toNat : Int) - 4 - sbase)
  let ea := f.ea.toNat
  [BitVec.ofNat 32 (originOf g + f.lane * 2 ^ 16 + bits off 2 9 * 2 ^ 23),
   BitVec.ofNat 32 (e.lpc % 2 ^ 22 + bits off 11 10 * 2 ^ 22),
   BitVec.ofNat 32 (bits ea 0 32),
   BitVec.ofNat 32 (bits ea 32 25 + bits off 21 7 * 2 ^ 25)]

/-- The report of a faulting lane (R366, R379). (DEDUCED, log 44.) -/
def laneReport (kind : Nat) (g : Group) (e : LiqEntry) (f : LaneFault) : Report :=
  { kind := kind, src := 0, cause := f.cause.num,
    where_ := originOf g + f.lane * 2 ^ 16 + f.level * 2 ^ 24, spc := e.resume,
    lpc := BitVec.ofNat 64 e.lpc, addr := f.ea, extra := 0 }

/-- What a faulting instruction reports where the fault stops its group (R95, R366). -/
def laneInfo (g : Group) (e : LiqEntry) (f : LaneFault) : TrapInfo :=
  let first := (g.chain.bind fun c => c.issued.head?).getD e
  { lane := true, cause := f.cause, code := 0, tspc := e.resume, tlpc := first.lpc, taddr := f.ea, tmemb := e.lpc,
    lxrem := first.left, folded := (0, 0) }

/-- The faulting lanes given to the compactor of the core's die, in lane order (R371), each with the handler's offset that its
vector entry had as the fault was raised (R366). -/
def compactLanes (m : Mach) (gid : Nat) (g : Group) (e : LiqEntry) (fs : List (LaneFault × Nat)) : Mach :=
  let d := m.die (dieOf g.core)
  let ls := fs.map fun f =>
    { ctx := g.ctx, cause := f.1.cause.num, loff := f.2, origin := { lane := f.1.lane, group := gid },
      tag := originTag m g e f.1 : FaultLane }
  m.setDie (dieOf g.core) { d with lanes := d.lanes ++ ls }

/-- The lanes of one instruction fault (R366): one disposition governs them all.  In a Trapped group they are a double
trap (R368); else the group stops at its lowest faulting lane, or is Held while the host or handlers serve the
lanes. (DEDUCED, log 44; DEDUCED, log 45.) -/
def laneFaults (m : Mach) (gid : Nat) (g : Group) (e : LiqEntry) (fs : List LaneFault) : Mach :=
  match fs, aget m.ctxs g.ctx with
  | f :: _, some c =>
    let vecs := fs.map fun f => readVector m c f.cause.num
    let disps := vecs.map fun v => effectiveDisp c v.disp v.loff
    let m0 := m.setCore g.core ((m.core g.core).endChain gid)
    let held := g.restartChain
    let stopped := { held.rearm.dropHoles with qs := { held.qs with liq := [] }, lx := none }
    if g.isTrapped then overload (m0.setGrp gid stopped) gid { laneInfo g e f with cause := .doubleTrap }
    else if disps.contains 0 then
      let m1 := m0.setGrp gid { stopped.setTrap (laneInfo g e f) with st := .trapped .stopped }
      stopContext (report m1 g.ctx (laneReport 2 g e f)) g.ctx
    else if disps.contains 2 then
      let m1 := m0.setGrp gid { held with st := .heldHost }
      fs.foldl (fun m f => report m g.ctx (laneReport 1 g e f)) m1
    else compactLanes (m0.setGrp gid { held with st := .held fs.length }) gid g e (fs.zip (vecs.map TrapVector.loff))
  | _, _ => m

/-! Addresses and checks (R173, R174). -/

/-- EA of a lane (R173). -/
def LaneIn.ea (x : LaneIn) (l : Nat) : Nat :=
  (BitVec.ofNat 64 (x.val .x64 0 x.w.a l) + (x.raw 1 x.w.b l).signExtend 64).toNat

/-- An access of a lane that passed its checks. -/
structure LaneAccess where
  lane : Nat
  loc  : Located
  deriving DecidableEq, Repr

/-- The level that a fault reports, from the address that `locate` gives it (R387). -/
def faultLevel (c : Cause) (a : Dword) : Nat := levelOf c.num a

/-- The checks of R174 for one lane: alignment, then the window, translation and target of the access. -/
def checkLane (m : Mach) (g : Group) (l ea size : Nat) (k : AKind) (arm : Bool) : Mach × Except LaneFault LaneAccess :=
  if ea % size != 0 then (m, .error { lane := l, cause := .misaligned, level := 0, ea := BitVec.ofNat 64 ea })
  else
    match locate m g l ea size k arm with
    | .error (c, a) =>
      (afterLocate m g l ea k, .error { lane := l, cause := c, level := faultLevel c a, ea := BitVec.ofNat 64 ea })
    | .ok loc => (loc.m, .ok { lane := l, loc := loc })

/-- The checks of every lane in turn: the accesses that pass, and the faults, both in lane order. -/
def checkLanes (check : Mach → Nat → Mach × Except LaneFault LaneAccess) :
    List Nat → Mach → Mach × List LaneAccess × List LaneFault
  | [], m => (m, [], [])
  | l :: r, m =>
    match check m l with
    | (m1, .error f) =>
      let (m2, as_, fs) := checkLanes check r m1
      (m2, as_, f :: fs)
    | (m1, .ok a) =>
      let (m2, as_, fs) := checkLanes check r m1
      (m2, a :: as_, fs)

/-- Whether two accesses of a size touch a common byte. -/
def overlap (size : Nat) (a b : LaneAccess) : Bool :=
  a.loc.loc.key < b.loc.loc.key + size && b.loc.loc.key < a.loc.loc.key + size

/-- Whether some two accesses overlap. -/
def anyOverlap (size : Nat) : List LaneAccess → Bool
  | [] => false
  | a :: r => r.any (overlap size a) || anyOverlap size r

/-- A free permutation of a list. (DESIGN CHOICE, log 3.) -/
def permute {α : Type} (seed : Nat) : Nat → List α → List α
  | 0, l => l
  | n + 1, l =>
    match l with
    | [] => []
    | x :: r =>
      let i := Config.choice (seed + n) % (r.length + 1)
      ((x :: r)[i]?).getD x :: permute seed n ((x :: r).eraseIdx i)

/-- The order in which lanes that overlap take effect: any, so that exactly one of several stores to a location is its
last (R171). -/
def laneOrder (m : Mach) (size : Nat) (as_ : List LaneAccess) : Mach × List LaneAccess :=
  if anyOverlap size as_ then ({ m with free := m.free + as_.length }, permute m.free as_.length as_) else (m, as_)

/-- The ports of an instruction's accesses that cross the fabric (R414): one of 16 bytes is two of 8 (R170).
(DEDUCED, log 46.) -/
def portsOf (size : Nat) (as_ : List LaneAccess) : List Nat :=
  as_.flatMap fun a => List.replicate (ceilDiv size 8) a.loc.port |>.filterMap id

/-- An instruction's accesses through some ports (R414): sent, and outstanding until each has completed or ended.
(DEDUCED, log 46.) -/
def overFabric (m : Mach) (g : Group) (ports : List Nat) (send perform : Unit → Mach) : Mach :=
  match ports, g.fabric with
  | _ :: _, .none => send ()
  | _ :: _, .pending _ _ => m
  | _, _ => perform ()

/-- The early half of one lane's 16-byte access, if there is one (R170): a store's is performed as it is sent, a load's is
read then. (DESIGN CHOICE, log 4.) -/
def sendHalf (gid : Nat) (g : Group) (f : Flight) (data : Option (Nat → Nat)) (mh : Mach × AMap Dword) (a : LaneAccess) :
    Mach × AMap Dword :=
  match a.loc.port, f.half a.lane with
  | some p, some h =>
    if !flitRoom mh.1 g.ctx p 0 || pstHolds mh.1 gid p then mh
    else
      let at_ := a.loc.loc.plus (8 * h)
      let m1 := landAll (useLine mh.1 at_ 8) at_ 8
      match data with
      | none => (m1, aput mh.2 a.lane (BitVec.ofNat 64 (readNat m1 at_ 8)))
      | some d => (writeBytes m1 at_ (toBytes 8 (d a.lane >>> (64 * h))), aput mh.2 a.lane 0)
  | _, _ => mh

/-- The accesses of an instruction's lanes sent over the fabric, with the early halves of those of 16 bytes. -/
def sendLanes (m : Mach) (gid : Nat) (g : Group) (size : Nat) (as_ : List LaneAccess) (data : Option (Nat → Nat)) : Mach :=
  let m1 := sendOver m gid g (portsOf size as_)
  match (m1.grp? gid).bind Group.flight with
  | some f =>
    if size = 16 then
      let (m2, hs) := as_.foldl (sendHalf gid g f data) (m1, [])
      m2.setGrp gid { regrp m2 gid g with flight := some { f with halves := hs } }
    else m1
  | none => m1

/-- The half of a lane's access that was performed early, and what it read. -/
def LaneAccess.early (g : Group) (a : LaneAccess) : Option (Nat × Dword) :=
  g.flight.bind fun f => (f.half a.lane).bind fun h => (aget f.halves a.lane).map fun v => (h, v)

/-- A 16-byte value with one of its halves put in. -/
def withHalf (v : Nat) (early : Option (Nat × Dword)) : Nat :=
  match early with
  | none => v
  | some (h, d) => if h = 0 then v / 2 ^ 64 * 2 ^ 64 + d.toNat else v % 2 ^ 64 + d.toNat * 2 ^ 64

/-- Whether the lane's access was ended on its port without a completion (R417). (DEDUCED, log 45.) -/
def LaneAccess.ended (g : Group) (a : LaneAccess) : Bool :=
  g.fabric.lost a.loc.port

/-- Every lane checked and then performed (R174): lanes that fail raise lane faults and nothing is performed; an access
over the fabric is outstanding until it completes or is ended. (DEDUCED, log 62.) -/
def withLanes (m : Mach) (gid : Nat) (x : LaneIn) (size : Nat) (k : AKind) (arm : Bool) (data : Option (Nat → Nat))
    (perform : Mach → List LaneAccess → Mach) : Mach :=
  let (m1, as_, fs) := checkLanes (fun m l => checkLane m x.g l (x.ea l) size k arm) x.lanes m
  if !fs.isEmpty then laneFaults m1 gid x.g x.e fs
  else
    overFabric m1 x.g (portsOf size as_) (fun _ => sendLanes m1 gid x.g size as_ data) fun _ =>
      let (m2, ordered) := laneOrder m1 size as_
      perform m2 ordered

/-- Whether the order acquires, and whether it releases (R42). -/
def acquires (w : LaneWord) : Bool := w.order % 2 = 1
def releases (w : LaneWord) : Bool := 2 ≤ w.order

/-- A memory instruction of the head of the queue: a register check that fails is a detected error; one that publishes
inside a region traps (R175, R331); else it does what f says. -/
def laneMemory (s : State) (i : Instr) (w : LaneWord) (publishes : Bool) (f : Nat → LaneIn → Mach) :
    Host.Outcome State Fault Refusal :=
  laneStep s i w fun gid x =>
    if x.g.readFails (sourceRegs i) x.lanes then detectedError s.m gid 1
    else if 0 < x.g.depth && publishes then laneTrap s.m gid x.g x.e .publishInRegion 0
    else f gid x

/-- The registers that an access of a size fills. -/
def accessRegs (size : Nat) : Nat := if size = 16 then 4 else if size = 8 then 2 else 1

/-- An instruction that leaves the lanes of E with values: its destination is written and its latch captures (R37,
R38), an acquire takes effect (R169), and it completes. (DEDUCED, log 45.) -/
def laneDeliver (m : Mach) (gid : Nat) (x : LaneIn) (i : Instr) (w : LaneWord) (n : Nat) (vals : List (Nat × Nat)) : Mach :=
  let g1 := x.write false n vals
  let c := x.capture vals (x.g.chain.getD Chain.empty)
  let m1 := if acquires w then acquireAt m x.g (Scope.ofCode w.scope) else m
  laneFinish m1 gid g1 x.e i w c

/-- One lane's load (R176): 0xFF in every byte of what the fabric ended (R417). -/
def loadLane (x : LaneIn) (size : Nat) (s : Scope) (hint : Nat) (mv : Mach × List (Nat × Nat)) (a : LaneAccess) :
    Mach × List (Nat × Nat) :=
  let early := a.early x.g
  if a.ended x.g then (mv.1, mv.2 ++ [(a.lane, withHalf (2 ^ (8 * size) - 1) early)])
  else
    let (m1, bs) := loadBytes (useLine mv.1 a.loc.loc size) x.g a.loc size s hint
    (m1, mv.2 ++ [(a.lane, withHalf (ofBytes bs) early)])

/-- The value that LD writes (R176): sign-extended for i32, zero-extended for x32. -/
def ldValue (w : LaneWord) (size v : Nat) : Nat := if w.t = .i32 then unsigned 32 (signed (8 * size) v) else v

/-- LD (R176). -/
def execLd (w : LaneWord) (s : State) : Host.Outcome State Fault Refusal :=
  laneMemory s (.ld w) w false fun gid x =>
    let size := sizeBytes w.size
    withLanes s.m gid x size .read true none fun m as_ =>
      let (m1, vs) := as_.foldl (loadLane x size (Scope.ofCode w.scope) w.hint.toNat) (m, [])
      laneDeliver m1 gid x (.ld w) w (accessRegs size) (vs.map fun v => (v.1, ldValue w size v.2))

/-- Store data of a size in a lane (R172). -/
def LaneIn.dataOf (x : LaneIn) (size l : Nat) : Nat :=
  if size = 16 then
    match Operand.ofCode x.w.c with
    | .v n => (List.range 4).foldl (fun a k => a + (x.g.vreg (n + k) l).toNat * 2 ^ (32 * k)) 0
    | _ => 0
  else x.val x.w.t 2 x.w.c l % 2 ^ (8 * size)

/-- The pieces in which a lane's store is performed now: whole; or over the fabric, where one of 16 bytes is two of 8 (R170),
the halves that were not performed early. -/
def storePieces (g : Group) (a : LaneAccess) (size v : Nat) : List (Located × List Byte) :=
  if size = 16 && a.loc.port.isSome then
    ([0, 1].filter fun h => (a.early g).map Prod.fst != some h).map fun h =>
      ({ a.loc with loc := a.loc.loc.plus (8 * h) }, toBytes 8 (v >>> (64 * h)))
  else [(a.loc, toBytes size v)]

/-- One lane's store (R177); what the fabric ended of it may or may not have been performed (R417). -/
def storeLane (gid : Nat) (x : LaneIn) (size hint : Nat) (m : Mach) (a : LaneAccess) : Mach :=
  (storePieces x.g a size (x.dataOf size a.lane)).foldl (fun m p =>
    let done := storeBytes (useLine m p.1.loc p.2.length) gid x.g p.1 p.2 hint
    if a.ended x.g then (if m.pick 2 = 0 then m.bump else done.bump) else done) m

/-- ST (R177). -/
def execSt (w : LaneWord) (s : State) : Host.Outcome State Fault Refusal :=
  laneMemory s (.st w) w (releases w) fun gid x =>
    let size := sizeBytes w.size
    withLanes s.m gid x size .write true (some (x.dataOf size)) fun m as_ =>
      let m1 := as_.foldl (storeLane gid x size w.hint.toNat) m
      laneFinish m1 gid (regrp m1 gid x.g) x.e (.st w) w (x.g.chain.getD Chain.empty)

/-- One lane's atomic (R178): the old value; 0xFF in every byte where the fabric ended it, and then it may or may not
have been performed (R417). -/
def atomicLane (gid : Nat) (x : LaneIn) (size : Nat) (f : Nat → Nat → Option Nat) (mv : Mach × List (Nat × Nat))
    (a : LaneAccess) : Mach × List (Nat × Nat) :=
  let (m1, old) := atomicBytes (useLine mv.1 a.loc.loc size) gid x.g a.loc size (f a.lane)
  if a.ended x.g then
    ((if mv.1.pick 2 = 0 then mv.1.bump else m1.bump), mv.2 ++ [(a.lane, 2 ^ (8 * size) - 1)])
  else (m1, mv.2 ++ [(a.lane, old)])

/-- An atomic of every lane (R178 to R180): f gives what a lane stores from the old value, or nothing. -/
def laneAtomic (s : State) (i : Instr) (w : LaneWord) (f : LaneIn → Nat → Nat → Option Nat) :
    Host.Outcome State Fault Refusal :=
  laneMemory s i w (releases w || w.scope != 0) fun gid x =>
    let size := sizeBytes w.size
    withLanes s.m gid x size .atomic false none fun m as_ =>
      let (m1, vs) := as_.foldl (atomicLane gid x size (f x)) (m, [])
      laneDeliver m1 gid x i w w.t.regs vs

/-- What ATOM stores (R178). -/
def atomNew (t : Ty) (op old a : Nat) : Nat :=
  match op with
  | 0 => old + a
  | 1 => old &&& a
  | 2 => old ||| a
  | 3 => old ^^^ a
  | 4 => if t.read a < t.read old then a else old
  | 5 => if t.read old < t.read a then a else old
  | _ => a

/-- ATOM (R178). -/
def execAtom (w : LaneWord) (s : State) : Host.Outcome State Fault Refusal :=
  laneAtomic s (.atom w) w fun x l old => some (atomNew w.t w.d.toNat old (x.c w.t l) % 2 ^ w.t.bits)

/-- ATOMCAS (R179). -/
def execAtomcas (w : LaneWord) (s : State) : Host.Outcome State Fault Refusal :=
  laneAtomic s (.atomcas w) w fun x l old => if old = x.c w.t l then some (x.d w.t l) else none

/-- What FATOM and RED store, element by element, always to nearest (R180). -/
def fatomNew (t : Ty) (op old a : Nat) : Nat :=
  joinElems t.ew ((List.range t.count).map fun e =>
    let o := elem t.ew old e
    let b := elem t.ew a e
    match op with
    | 0 => (fAdd t.fmt .rne false false o b).1
    | 1 => (fMinMax t.fmt false o b).1
    | _ => (fMinMax t.fmt true o b).1)

/-- FATOM (R180). -/
def execFatom (w : LaneWord) (s : State) : Host.Outcome State Fault Refusal :=
  laneAtomic s (.fatom w) w fun x l old => some (fatomNew w.t w.d.toNat old (x.c w.t l))

/-- RED (R180): an atomic that returns nothing. -/
def execRed (w : LaneWord) (s : State) : Host.Outcome State Fault Refusal :=
  laneAtomic s (.red w) w fun x l old => some (fatomNew w.t w.d.toNat old (x.c w.t l))

/-! Prefetch, discard and posted peer stores. -/

/-- One lane's prefetch (R182): dropped where its address is not translated by the L2 TLB, would fault, as everything does
without a root (R382), or is not device memory; else the block may come into the core's L1, as hint 4 does not ask.
(DESIGN CHOICE, log 6.) -/
def prefetchLane (x : LaneIn) (m : Mach) (l : Nat) : Mach :=
  let ea := x.ea l
  if !canonical ea || isLocal ea || !hasRoot m x.g.ctx then m
  else
    match (m.cluster (clusterOf x.g.core)).tlb.find? fun t => t.covers x.g.ctx ea with
    | none => m
    | some t =>
      let pa := leafPa t.pte.toNat t.level ea
      if (leafFault t .read ea).isSome || devTop ≤ pa || bit t.pte.toNat 8 || x.w.hint = 4 then m
      else
        let c := m.core x.g.core
        let base := pa / 16 * 16
        let words := if m.pick 9 = 0 then 0 else fillWords m pa
        (m.setCore x.g.core { c with l1 := l1Put c.l1 base (readBytes m (.dev base) (16 * words)) }).bump

/-- PREF (R182). -/
def execPref (w : LaneWord) (s : State) : Host.Outcome State Fault Refusal :=
  laneMemory s (.pref w) w false fun gid x =>
    laneFinish (x.lanes.foldl (prefetchLane x) s.m) gid x.g x.e (.pref w) w (x.g.chain.getD Chain.empty)

/-- The pieces of a range: start and length, given fuel for one piece each. -/
def pieces (step : Nat) : Nat → Nat → Nat → List (Nat × Nat)
  | 0, _, _ => []
  | fuel + 1, a, n =>
    if n = 0 then []
    else
      let k := min n (step - a % step)
      (a, k) :: pieces step fuel (a + k) (n - k)

/-- The pieces of a range that lie in one place each: by 4 KiB pages, and in the lane-private window by the 16 bytes of
its interleave (R162). -/
def rangePieces (a n : Nat) : List (Nat × Nat) :=
  let step := if isLocal a && 0x100 ≤ bits a 32 16 then 16 else 4096
  pieces step (n / step + 2) a n

/-- Every piece of a range located for an access, or the first fault. -/
def locatePieces (g : Group) (lane : Nat) (k : AKind) (arm : Bool) :
    List (Nat × Nat) → Mach → Except (Cause × Dword) (Mach × List (Located × Nat))
  | [], m => .ok (m, [])
  | (a, n) :: r, m =>
    match locate m g lane a n k arm with
    | .error e => .error e
    | .ok l =>
      match locatePieces g lane k arm r l.m with
      | .error e => .error e
      | .ok (m1, ls) => .ok (m1, (l, n) :: ls)

/-- Where the location of a range's pieces fails: the machine that this leaves, and the first byte of the piece. -/
def failingPiece (g : Group) (lane : Nat) (k : AKind) (arm : Bool) : List (Nat × Nat) → Mach → Mach × Nat
  | [], m => (m, 0)
  | (a, n) :: r, m =>
    match locate m g lane a n k arm with
    | .error _ => (afterLocate m g lane a k, a)
    | .ok l => failingPiece g lane k arm r l.m

/-- The range of a lane's DISCARD checked (R183); a fault reports the first byte that faults (R386). -/
def discardLane (x : LaneIn) (m : Mach) (l : Nat) : Mach × Except LaneFault (List (Located × Nat)) :=
  let ea := x.ea l
  let len := (x.raw 2 x.w.c l).toNat
  if ea % 16 != 0 || len % 16 != 0 || 2 ^ 16 < len then
    (m, .error { lane := l, cause := .operandRange, level := 0, ea := BitVec.ofNat 64 ea })
  else
    let ps := rangePieces ea len
    match locatePieces x.g l .write false ps m with
    | .error (c, a) =>
      let (m1, at_) := failingPiece x.g l .write false ps m
      (m1, .error { lane := l, cause := c, level := faultLevel c a, ea := BitVec.ofNat 64 at_ })
    | .ok (m1, r) => (m1, .ok r)

/-- The discards of every lane checked. -/
def discardLanes (x : LaneIn) : List Nat → Mach → Mach × List (Located × Nat) × List LaneFault
  | [], m => (m, [], [])
  | l :: r, m =>
    match discardLane x m l with
    | (m1, .error f) =>
      let (m2, ps, fs) := discardLanes x r m1
      (m2, ps, f :: fs)
    | (m1, .ok ps1) =>
      let (m2, ps, fs) := discardLanes x r m1
      (m2, ps1 ++ ps, fs)

/-- A piece discarded: device memory becomes indeterminate and leaves the core's L1; every other space keeps its
values (R183). -/
def discardPiece (gid core : Nat) (m : Mach) (p : Located × Nat) : Mach :=
  match p.1.loc with
  | .dev pa =>
    let m1 := discardIndet m gid (.dev pa) p.2
    let c := m1.core core
    m1.setCore core { c with l1 := l1Drop c.l1 pa p.2 }
  | _ => m

/-- DISCARD (R183). -/
def execDiscard (w : LaneWord) (s : State) : Host.Outcome State Fault Refusal :=
  laneMemory s (.discard w) w false fun gid x =>
    let (m1, ps, fs) := discardLanes x x.lanes s.m
    if !fs.isEmpty then laneFaults m1 gid x.g x.e fs
    else
      laneFinish (ps.foldl (discardPiece gid x.g.core) m1) gid x.g x.e (.discard w) w (x.g.chain.getD Chain.empty)

/-- A lane's posted peer store checked: its target must be fabric memory (R184). -/
def checkPst (x : LaneIn) (size : Nat) (m : Mach) (l : Nat) : Mach × Except LaneFault LaneAccess :=
  match checkLane m x.g l (x.ea l) size .write false with
  | (m1, .error f) => (m1, .error f)
  | (m1, .ok a) =>
    match a.loc.loc with
    | .ext _ _ => (m1, .ok a)
    | _ => (m1, .error { lane := l, cause := .pstTarget, level := 0, ea := BitVec.ofNat 64 (x.ea l) })

/-- The data of a posted store in its granules of at most 8 bytes (R170, R184). -/
def pstGranules (far size v : Nat) : List (Nat × List Byte) :=
  if size = 16 then [(far, toBytes 8 v), (far + 8, toBytes 8 (v >>> 64))] else [(far, toBytes size v)]

/-- One granule of a posted store performed at once, or left for any time up to its acknowledgement. -/
def sendGranule (id port : Nat) (m : Mach) (b : Nat × List Byte) : Mach :=
  if m.pick 2 = 0 then m.bump else (landPsts m (.ext port b.1) b.2.length id).bump

/-- One lane's posted store sent (R184): it is outstanding until its acknowledgement, and each granule of it is performed at
once or at any time up to that, after what a QFENCE orders before it (R202). (DEDUCED, log 47.) -/
def sendPst (gid : Nat) (x : LaneIn) (size batch : Nat) (m : Mach) (a : LaneAccess) : Mach :=
  match a.loc.loc with
  | .ext port far =>
    let unit := clusterOf x.g.core
    let p : Pst := { ctx := x.g.ctx, node := x.g.node, stamp := x.g.stamp, group := gid, kern := x.g.kern, unit := unit,
                     batch := batch, port := port, far := far, size := size,
                     left := pstGranules far size (x.dataOf size a.lane), lost := false, after := x.g.orderedAfter 3 }
    let c := m.cluster unit
    let m1 := m.setCluster unit { c with psts := c.psts ++ [(x.g.ctx, x.g.node)] }
    let m2 := { m1 with psts := aput m1.psts m1.nextId p, nextId := m1.nextId + 1 }
    p.left.foldl (sendGranule m1.nextId port) m2
  | _ => m

/-- PST (R184): one count of the group's node and stamp is held until every lane's store is acknowledged. -/
def execPst (w : LaneWord) (s : State) : Host.Outcome State Fault Refusal :=
  laneMemory s (.pst w) w true fun gid x =>
    let size := sizeBytes w.size
    let (m1, as_, fs) := checkLanes (checkPst x size) x.lanes s.m
    if !fs.isEmpty then laneFaults m1 gid x.g x.e fs
    else
      let m2 := if as_.isEmpty then m1 else takeHere m1 x.g x.g.node x.g.stamp
      let (m3, ordered) := laneOrder m2 size as_
      let m4 := ordered.foldl (sendPst gid x size m3.nextId) m3
      laneFinish m4 gid x.g x.e (.pst w) w (x.g.chain.getD Chain.empty)

end Sys2Proof.Machine
end

