-- ==== Sys2Proof/Machine/Region.lean ====
section
/-! DEFINITION. The recovery-region instructions (R326, R327, R330) and SIG.CHK (R337). -/

namespace Sys2Proof.Machine

/-- The bytes of an opening's shadow storage (R324): the header, and the blocks that the mask names. -/
def shadowBytes (g : Group) (mask : BitVec 20) : Nat :=
  let block (i : Nat) : Nat := if mask.getLsbD i then 4 * g.width * (min 16 (g.nregs - 16 * i)) else 0
  64 + ((List.range 16).map block).sum + (if mask.getLsbD 16 then 512 else 0) + (if mask.getLsbD 17 then g.width else 0)

/-- Whether a mask is legal: its reserved bits are zero, and each register block lies in the allocation (R326). -/
def maskLegal (g : Group) (mask : BitVec 20) : Bool :=
  mask.toNat < 2 ^ 18 && (List.range 16).all fun i => !mask.getLsbD i || 16 * i < g.nregs

/-- The scratchpad byte, over all cores, of an address in the core-scratchpad or cluster-memory window (R161). -/
def spadOf (g : Group) (va : Nat) : Option Nat :=
  if !isLocal va then none
  else
    let off := va % 2 ^ 32
    match bits va 32 16 with
    | 0 => if off < spadSize then some (g.core * spadSize + off) else none
    | 1 => if off < 8 * spadSize then some (clusterOf g.core * 8 * spadSize + off) else none
    | _ => none

/-- Whether a range of scratchpad bytes, over at most two cores, is reserved to a context (R163, R441). -/
def spadRangeReserved (m : Mach) (ctx a n : Nat) : Bool :=
  let k := spadSize - a % spadSize
  if n ≤ k then spadReserved m ctx a n else spadReserved m ctx a k && spadReserved m ctx (a + k) (n - k)

/-- The log area that an outermost RGN.OPEN names (R323, R326): none without one, or the trap its descriptor raises.
(DEDUCED, log 48.) -/
def logArea (m : Mach) (g : Group) (sd : Sreg) : Except Cause (Option LogArea) :=
  let d := (g.s sd).toNat
  let n := 1024 * bits d 57 7
  let base := bits d 0 57
  if sd = 0 || n = 0 then .ok none
  else if base % 16 != 0 then .error .misaligned
  else
    match (spadOf g base).filter fun _ => n = 0 || (spadOf g (base + n - 1)).isSome, aget m.teams g.team with
    | some a, some t =>
      if 2 ^ 16 < n || a < t.share || t.share + t.size < a + n then .error .regionLog
      else if !spadRangeReserved m g.ctx a n then .error .windowProtection
      else .ok (some { off := a - t.share, size := n, top := 0 })
    | _, _ => .error .regionLog

/-- A region as RGN.OPEN pushes it, with its snapshot (R322, R324, R326). -/
def newRegion (g : Group) (mask : BitVec 20) (top : Nat) : Region :=
  { spc := g.spc + 4, lpc := g.lpc, mask := mask, retry := 0, prevTop := top, shadTop := top + shadowBytes g mask,
    mode := g.mode, fpstat := g.fpstat,
    vregs := afilter (fun k _ => mask.getLsbD (k / 128 / 16)) g.v, scalars := g.regs, flags := g.flags,
    preds := g.preds, keeps := [] }

/-- RGN.OPEN with its log area found: the region is pushed and the signature cleared, unless the log is full (R326).
(DEDUCED, log 48.) -/
def openRegion (m : Mach) (gid : Nat) (g : Group) (mask : BitVec 20) (log : Option LogArea) : Mach :=
  match log with
  | none => scalarTrap m gid .keepLogFull
  | some l =>
    let r := newRegion g mask l.top
    if l.size < r.shadTop then scalarTrap m gid .keepLogFull
    else
      let g1 := { g with rgn := r :: g.rgn, log := some { l with top := r.shadTop }, sig := 0, sigq := [] }
      advance m gid g1 (g.spc + 4)

/-- RGN.OPEN (R326). -/
def execRgnOpen (sd : Sreg) (rmask : BitVec 20) (s : State) : Host.Outcome State Fault Refusal :=
  groupStep s fun gid g =>
    if !maskLegal g rmask then scalarTrap s.m gid .illegal
    else if 4 ≤ g.depth then scalarTrap s.m gid .regionDepth
    else
      awaitLanes s.m gid g fun _ =>
        if !(g.qs.sq.isEmpty && g.qs.lq.isEmpty && g.qs.fq.isEmpty) then scalarTrap s.m gid .regionQueue
        else if 0 < g.depth then openRegion s.m gid g rmask g.log
        else
          match logArea s.m g sd with
          | .error c => scalarTrapAt s.m gid c (BitVec.ofNat 64 (bits (g.s sd).toNat 0 57))
          | .ok l => openRegion s.m gid g rmask l

/-- The bytes of a KEEP record (R324). -/
def keepBytes (n : Nat) : Nat := 16 + 16 * ceilDiv n 16

/-- The bytes of located pieces read as relaxed .grp loads, and 0xFF where the fabric ended the access (R327, R417). -/
def readPieces (g : Group) : List (Located × Nat) → Mach → List Byte → Mach × List Byte
  | [], m, acc => (m, acc)
  | (l, n) :: r, m, acc =>
    if g.fabric.lost l.port then readPieces g r m (acc ++ List.replicate n 0xFF)
    else
      let (m1, bs) := loadBytes (useLine m l.loc n) g l n .grp 0
      readPieces g r m1 (acc ++ bs)

/-- The record of a KEEP added to the innermost region. -/
def Group.addKeep (g : Group) (k : KeepRec) (top : Nat) : Group :=
  { g with rgn := match g.rgn with
             | [] => []
             | r :: rest => { r with keeps := k :: r.keeps } :: rest,
           log := g.log.map fun l => { l with top := top } }

/-- RGN.KEEP once its range is checked: the record is appended, unless the log is full. (DEDUCED, log 48.) -/
def keepRange (m : Mach) (gid : Nat) (g : Group) (addr : Dword) (n : Nat) (ps : List (Located × Nat)) : Mach :=
  match g.log with
  | none => scalarTrap m gid .keepLogFull
  | some l =>
    let top := l.top + keepBytes n
    if l.size < top then scalarTrapAt m gid .keepLogFull addr
    else
      let ports := ps.flatMap fun p => List.replicate (ceilDiv p.2 8) p.1.port |>.filterMap id
      overFabric m g ports (fun _ => sendOver m gid g ports) fun _ =>
        let (m1, bs) := readPieces g ps m []
        retire m1 gid (g.addKeep { addr := addr, bytes := bs } top) (scalarCode 0x26 1)

/-- RGN.KEEP (R327). -/
def execRgnKeep (sa sb : Sreg) (s : State) : Host.Outcome State Fault Refusal :=
  groupStep s fun gid g =>
    let n := (g.s sb).toNat
    let ps := rangePieces (g.s sa).toNat n
    if g.depth = 0 then scalarTrap s.m gid .regionState
    else if 2 ^ 16 < n then scalarTrapAt s.m gid .operandRange (g.s sa)
    else if n = 0 then retire s.m gid g (scalarCode 0x26 1)
    else
      match locatePieces g 0 .read true ps s.m with
      | .error (c, a) => scalarTrapAt (failingPiece g 0 .read true ps s.m).1 gid c a
      | .ok (m1, _) =>
        match locatePieces g 0 .write true ps m1 with
        | .error (c, a) => scalarTrapAt (failingPiece g 0 .write true ps m1).1 gid c a
        | .ok (m2, ls) => keepRange m2 gid g (g.s sa) n ls

/-- The group with its innermost region popped (R330); with the stack empty it has no log area any more. -/
def Group.popRegion (g : Group) : Group :=
  match g.rgn with
  | [] => g
  | r :: rest =>
    { g with rgn := rest, log := if rest.isEmpty then none else g.log.map fun l => { l with top := r.prevTop } }

/-- A log area that is no longer live holds indeterminate bytes (R325). -/
def retireLog (m : Mach) (g : Group) : Mach :=
  match g.rgn, g.log, aget m.teams g.team with
  | [_], some l, some t => makeIndet m (.spad (t.share + l.off)) l.size
  | _, _, _ => m

/-- RGN.CLOSE (R330). -/
def execRgnClose (s : State) : Host.Outcome State Fault Refusal :=
  groupStep s fun gid g =>
    if g.depth = 0 then scalarTrap s.m gid .regionState
    else awaitLanes s.m gid g fun _ => retire (retireLog s.m g) gid g.popRegion (scalarCode 0x26 2)

/-- The signature with an armed injection of kind 3 fired, which disarms it (R337, R344). -/
def Group.fireSig (g : Group) : Group :=
  match g.inject with
  | some (3, arg) => { g with sig := g.sig ^^^ BitVec.ofNat 64 (2 ^ (arg % 64)), inject := none }
  | _ => g

/-- The signature folded to 32 bits (R337). -/
def sigWord (sig : Dword) : Word := sig.truncate 32 ^^^ (sig >>> 32).truncate 32

/-- SIG.CHK (R337): a mismatch is a detected error of source 3. -/
def execSigChk (imm : BitVec 32) (s : State) : Host.Outcome State Fault Refusal :=
  groupStep s fun gid g =>
    if !g.qs.liq.isEmpty then wait s.m gid g
    else
      let g1 := g.fireSig
      if sigWord g1.sig != imm then detectedError (s.m.setGrp gid g1) gid 3
      else advance s.m gid { g1 with sig := 0, sigq := [] } (g.spc + 8)

end Sys2Proof.Machine
end

