-- ==== Sys2Proof/Machine/Barrier.lean ====
section
/-! DEFINITION. The barrier slot and its instructions (R233 to R241, R253), the copy ring and its engine (R242 to R250),
and the pipeline depth (R254, R255).
-/

namespace Sys2Proof.Machine

/-! The slot. -/

/-- The new pipeline depth at the completion of a phase of name 0 (R255): t is the time since the previous one, which
is the engine's own. (DESIGN CHOICE, log 18.) -/
def newDepth (t : Team) (lo hi elapsed : Nat) : Nat :=
  let clampTo (x : Nat) : Nat := max lo (min x hi)
  if !t.timed || t.lats.isEmpty then clampTo t.depth
  else
    let want := clampTo (ceilDiv t.lats.sum (t.lats.length * max elapsed 1) + 1)
    clampTo (if t.depth < want then t.depth + 1 else if want < t.depth then t.depth - 1 else t.depth)

/-- The team after a phase of its name 0 completed: new limits are in force, and the depth moves (R254, R255).
(DESIGN CHOICE, log 18.) -/
def Team.adapt (t : Team) (elapsed : Nat) : Team :=
  let (lo, hi) := t.limits.getD (t.dmin, t.dmax)
  { t with dmin := lo, dmax := hi, limits := none, depth := newDepth t lo hi elapsed, timed := true, lats := [] }

/-- A slot after an update at its bank: its phase completes where the condition of R234 holds. -/
def BSlot.completes (s : BSlot) : Bool := s.arr = s.mem && (!s.cm || s.pend = 0)

/-- The slot in its next phase (R234). -/
def BSlot.next (s : BSlot) : BSlot := { s with phase := (s.phase + 1) % 2 ^ 30, arr := 0, pend := s.xbytes }

/-- A group that its slot's completion wakes (R234): a BAR.WAIT is over, also one in a handler, and the group is Ready, its
age restarting (R98). -/
def Group.wakeWait (g : Group) (off now : Nat) : Group :=
  match g.bar, g.st with
  | some (.on o _), .waiting (.barrier _) => if o = off then { g with bar := some .over, st := .ready, readyAt := now } else g
  | some (.on o _), _ => if o = off then { g with bar := some .over, stuck := false } else g
  | _, _ => g

/-- Whether a group has a YIELD.BAR continuation on a slot, which a trap may have set aside (R253). -/
def Group.continues (g : Group) (off : Nat) : Bool :=
  match g.st, g.asideWait with
  | .waiting (.phase o _), _ => o = off
  | _, some (.phase o _) => o = off
  | _, _ => false

/-- A group's continuation on a slot resumed: the group acquires and is Ready, or is Ready once its handler returns (R234,
R253). -/
def resumeYield (off : Nat) (m : Mach) (kg : Nat × Group) : Mach :=
  let (gid, g) := kg
  if g.continues off then
    let m1 := acquireAt m g .clu
    match g.st with
    | .waiting _ => m1.setGrp gid { g with st := .ready, readyAt := (m.core g.core).cyc }
    | _ => m1.setGrp gid { g with asideWait := none }
  else m

/-- Wake and Resume of R234: every group of the team that waits on the slot, and every continuation on it. -/
def wakeAll (m : Mach) (tid off : Nat) : Mach :=
  let m1 := { m with groups := amap (fun _ g => if g.team = tid then g.wakeWait off (m.core g.core).cyc else g) m.groups }
  (m1.groups.filter fun kg => kg.2.team = tid).foldl (resumeYield off) m1

/-- A slot updated at its bank, and its completion evaluated (R234): it wakes what waits on the slot, is progress of the
context (R377), and of a slot bound to name 0 it moves the team's depth. (DESIGN CHOICE, log 18.) -/
def updateSlot (m : Mach) (key : Nat) (s : BSlot) : Mach :=
  if s.completes then
    let m1 := { m with slots := aput m.slots key s.next }
    match aget m1.teams s.team with
    | none => m1
    | some t =>
      let m2 := wakeAll (progress m1 t.ctx) s.team (key - t.share)
      match aget m2.teams s.team with
      | some t2 =>
        if (t2.binds.head?.bind id).map (t2.share + ·) = some key then
          (m2.setTeam s.team (t2.adapt (Config.choice m.free))).bump
        else m2
      | none => m2
  else { m with slots := aput m.slots key s }

/-- What a name of a team may stand for as a group resolves it (R237): its binding, and any that another group has replaced,
as long as no order between the two groups is established. (DEDUCED, log 68.) -/
def Team.resolutions (t : Team) (origin name : Nat) : List (Option Nat) :=
  (t.binds[name]?).bind id ::
    (t.olds.filter fun o => o.name = name && o.by_ != origin && !o.seen.contains origin).map OldBind.old

/-- A name of a group's team resolved as an instruction issues (R236 to R238): its offset in the share, its key and its
slot, or the trap it raises. (DEDUCED, log 68.) -/
def resolveName (m : Mach) (g : Group) (name : Nat) : Except Cause (Nat × Nat × BSlot) :=
  match aget m.teams g.team with
  | none => .error .barrierUnbound
  | some t =>
    let l := t.resolutions (originOf g) name
    match (l[m.pick l.length]?).bind id with
    | none => .error .barrierUnbound
    | some off =>
      match aget m.slots (t.share + off) with
      | none => .error .barrierNotLive
      | some s => .ok (off, t.share + off, s)

/-- The checks of a slot address (R240): its offset in the share and its key, or the trap it raises. -/
def slotAddress (m : Mach) (g : Group) (va : Nat) : Except Cause (Nat × Nat) :=
  if va % 16 != 0 then .error .misaligned
  else
    match spadOf g va with
    | none => .error .barrierWindow
    | some a =>
      if !spadReserved m g.ctx a 16 then .error .windowProtection
      else
        match aget m.teams g.team with
        | none => .error .barrierWindow
        | some t => if t.share ≤ a && a + 16 ≤ t.share + t.size then .ok (a - t.share, a) else .error .barrierWindow

/-- The fold code of a barrier instruction (R239, R336). -/
def barCode (op name : Nat) : Dword := scalarCode 0x29 (op * 16 + name)

/-- The slot that a configuration word makes live (R240), or none where it is out of range. (DEDUCED, log 49.) -/
def slotConfig (team : Nat) (cfg : Nat) : Option BSlot :=
  let mem := bits cfg 0 16
  let xbytes := bits cfg 32 32
  if mem = 0 || 2 ^ 24 < xbytes || bits cfg 17 15 != 0 then none
  else some { team := team, pend := xbytes, xbytes := xbytes, arr := 0, mem := mem, cm := bit cfg 16, phase := 0 }

/-- BAR.INIT (R235, R240). (DEDUCED, log 49.) -/
def execBarInit (sa sb : Sreg) (s : State) : Host.Outcome State Fault Refusal :=
  groupStep s fun gid g =>
    if 0 < g.depth then scalarTrap s.m gid .publishInRegion
    else
      match slotAddress s.m g (g.s sa).toNat, slotConfig g.team (g.s sb).toNat with
      | .error c, _ => scalarTrapAt s.m gid c (g.s sa)
      | .ok _, none => scalarTrap s.m gid .barrierRange
      | .ok (_, key), some b =>
        if (aget s.m.slots key).isSome then scalarTrapAt s.m gid .barrierLive (g.s sa)
        else retire { s.m with slots := aput s.m.slots key b } gid g (barCode 0 0)

/-- A team with a name bound anew by a group (R236, R238): what it stood for may still be seen by other groups (R237).
(DEDUCED, log 68.) -/
def Team.bind (t : Team) (origin name off : Nat) : Team :=
  let old := (t.binds[name]?).bind id
  if old = some off then t
  else
    { t with binds := t.binds.set name (some off),
             olds := { name := name, old := old, by_ := origin, released := false, seen := [] } :: t.olds }

/-- BAR.BIND (R237, R238). -/
def execBarBind (name : BitVec 4) (sa : Sreg) (s : State) : Host.Outcome State Fault Refusal :=
  groupStep s fun gid g =>
    match slotAddress s.m g (g.s sa).toNat with
    | .error c => scalarTrapAt s.m gid c (g.s sa)
    | .ok (off, key) =>
      match aget s.m.slots key, aget s.m.teams g.team with
      | some _, some t => retire (s.m.setTeam g.team (t.bind (originOf g) name.toNat off)) gid g (barCode 1 name.toNat)
      | _, _ => scalarTrapAt s.m gid .barrierNotLive (g.s sa)

/-- BAR.EXPECT (R241). -/
def execBarExpect (name : BitVec 4) (sa : Sreg) (s : State) : Host.Outcome State Fault Refusal :=
  groupStep s fun gid g =>
    let n := (g.s sa).toNat
    if 0 < g.depth then scalarTrap s.m gid .publishInRegion
    else if 2 ^ 24 < n then scalarTrap s.m gid .barrierRange
    else
      match resolveName s.m g name.toNat with
      | .error c => scalarTrap s.m gid c
      | .ok (_, key, b) =>
        if 2 ^ 31 - 1 < b.pend + n then scalarTrap s.m gid .barrierRange
        else
          let m1 := updateSlot s.m key { b with pend := b.pend + n }
          retire m1 gid (regrp m1 gid g) (barCode 2 name.toNat)

/-- BAR.ARRIVE (R241). -/
def execBarArrive (name : BitVec 4) (sd : Sreg) (s : State) : Host.Outcome State Fault Refusal :=
  groupStep s fun gid g =>
    if 0 < g.depth then scalarTrap s.m gid .publishInRegion
    else
      match resolveName s.m g name.toNat with
      | .error c => scalarTrap s.m gid c
      | .ok (_, key, b) =>
        if b.arr = b.mem then scalarTrap s.m gid .barrierOverArrival
        else
          let m1 := updateSlot s.m key { b with arr := b.arr + 1 }
          retire m1 gid ((regrp m1 gid g).setS sd (BitVec.ofNat 64 b.phase)) (barCode 3 name.toNat)

/-- Whether the phase that a token names is the current one (R241). -/
def tokenCurrent (b : BSlot) (token : Dword) : Bool := bits token.toNat 0 30 = b.phase

/-- Whether a group's BAR.WAIT under way still waits: its slot is in the phase that it waits for (R241). -/
def barStays (m : Mach) (g : Group) (off phase : Nat) : Bool :=
  match aget m.teams g.team with
  | none => false
  | some t => ((aget m.slots (t.share + off)).map BSlot.phase) = some phase

/-- BAR.WAIT (R241): it resolves its name as it issues, and then waits on that slot (R238). -/
def execBarWait (name : BitVec 4) (sa : Sreg) (s : State) : Host.Outcome State Fault Refusal :=
  groupStep s fun gid g =>
    let done : Mach := retire (acquireAt s.m g .clu) gid g (barCode 4 name.toNat)
    match g.bar with
    | some .over => done
    | some (.on off ph) => if barStays s.m g off ph then waitFor s.m gid g (.barrier off) else done
    | none =>
      match resolveName s.m g name.toNat with
      | .error c => scalarTrap s.m gid c
      | .ok (off, _, b) =>
        if tokenCurrent b (g.s sa) then waitFor s.m gid { g with bar := some (.on off b.phase) } (.barrier off)
        else done

/-- BAR.TRY (R241). -/
def execBarTry (name : BitVec 4) (sd sa : Sreg) (s : State) : Host.Outcome State Fault Refusal :=
  groupStep s fun gid g =>
    match resolveName s.m g name.toNat with
    | .error c => scalarTrap s.m gid c
    | .ok (_, _, b) =>
      let cur := tokenCurrent b (g.s sa)
      retire (if cur then s.m else acquireAt s.m g .clu) gid (g.setS sd (if cur then 0 else 1)) (barCode 5 name.toNat)

/-! The copy ring. -/

/-- A copy entry (R243). -/
structure CopyEntry where
  w0 : Dword
  w1 : Dword
  w2 : Dword
  w3 : Dword
  deriving DecidableEq, Repr

def CopyEntry.op (e : CopyEntry) : Nat := bits e.w0.toNat 0 8
def CopyEntry.name (e : CopyEntry) : Nat := bits e.w0.toNat 8 4
def CopyEntry.counted (e : CopyEntry) : Bool := bit e.w0.toNat 12
def CopyEntry.swz (e : CopyEntry) : Bool := bit e.w0.toNat 13
def CopyEntry.span (e : CopyEntry) : Nat := 16 * 2 ^ bits e.w0.toNat 14 3
def CopyEntry.rowbytes (e : CopyEntry) : Nat := bits e.w0.toNat 32 24
def CopyEntry.rows (e : CopyEntry) : Nat := bits e.w3.toNat 0 16 + 1
def CopyEntry.sstride (e : CopyEntry) : Nat := bits e.w3.toNat 16 24
def CopyEntry.dstride (e : CopyEntry) : Nat := bits e.w3.toNat 40 24

/-- Whether an address lies in the core-scratchpad or lane-private window (R161). -/
def inOwnWindow (a : Dword) : Bool := isLocal a.toNat && (bits a.toNat 32 16 = 0 || 0x100 ≤ bits a.toNat 32 16)

/-- Whether an entry is valid (R243). -/
def CopyEntry.valid (e : CopyEntry) : Bool :=
  let reserved := bits e.w0.toNat 56 8 = 0 && bits e.w0.toNat 17 15 = 0 && e.op ≤ 2
  let src := if e.op = 1 then e.w1.toNat % 4 = 0 && !inOwnWindow e.w1 else bits e.w1.toNat 32 32 = 0
  let swizzled := !e.swz
    || (e.w2.toNat % e.span = 0 && e.dstride % e.span = 0 && e.rowbytes % e.span = 0)
  reserved && (e.op = 0
    || (src && e.w2.toNat % 4 = 0 && e.rowbytes % 4 = 0 && 4 ≤ e.rowbytes && e.sstride % 4 = 0 && e.dstride % 4 = 0
        && e.rows * e.rowbytes ≤ 2 ^ 24 && swizzled && !inOwnWindow e.w2))

/-- The entry at an index of a team's ring (R242). -/
def ringEntry (m : Mach) (t : Team) (ix : BitVec 32) : CopyEntry :=
  let at_ := t.share + 64 + 32 * (ix.toNat % 64)
  let word (i : Nat) : Dword := BitVec.ofNat 64 (readNat m (.spad (at_ + 8 * i)) 8)
  { w0 := word 0, w1 := word 1, w2 := word 2, w3 := word 3 }

/-- Whether an entry still to be performed counts on a slot of the team's share (R235): the one that the engine has begun on
the slot it resolved then, every other on the slot its name stands for (R238). -/
def countsOn (m : Mach) (t : Team) (off : Nat) : Bool :=
  t.pubs.any fun p =>
    match (if p.ix = t.head then t.run else none) with
    | some r => r.slot = some (t.share + off)
    | none =>
      let e := ringEntry m t p.ix
      e.counted && (t.binds[e.name]?).bind id = some off

/-- Whether a group waits on a slot of its team, at a BAR.WAIT or for a YIELD.BAR, also one that a trap set aside (R235). -/
def Group.waitsOn (g : Group) (off : Nat) : Bool :=
  g.continues off || (match g.bar with
    | some (.on o _) => o = off
    | _ => false)

/-- A team without bindings to a slot, old ones included (R235). -/
def Team.unbind (t : Team) (off : Nat) : Team :=
  { t with binds := t.binds.map fun b => if b = some off then none else b,
           olds := t.olds.map fun o => if o.old = some off then { o with old := none } else o }

/-- BAR.DROP (R235, R240): the slot's bytes are ordinary memory again, with live = 0. -/
def execBarDrop (sa : Sreg) (s : State) : Host.Outcome State Fault Refusal :=
  groupStep s fun gid g =>
    if 0 < g.depth then scalarTrap s.m gid .publishInRegion
    else
      match slotAddress s.m g (g.s sa).toNat with
      | .error c => scalarTrapAt s.m gid c (g.s sa)
      | .ok (off, key) =>
        match aget s.m.slots key, aget s.m.teams g.team with
        | some b, some t =>
          if countsOn s.m t off || aany (fun _ x => x.team = g.team && x.waitsOn off) s.m.groups then
            scalarTrapAt s.m gid .barrierBusy (g.s sa)
          else
            let m1 := { s.m with slots := adel s.m.slots key, teams := aput s.m.teams g.team (t.unbind off) }
            retire (writeNat m1 (.spad key) 16 (slotImage b - 2 ^ 31)) gid g (barCode 6 0)
        | _, _ => scalarTrapAt s.m gid .barrierNotLive (g.s sa)

/-- The entry that COPYQ takes from four registers (R247). -/
def copyEntryOf (g : Group) (sa : Sreg) : CopyEntry :=
  { w0 := g.s sa, w1 := g.s (sa + 1), w2 := g.s (sa + 2), w3 := g.s (sa + 3) }

/-- The 32 bytes of an entry (R243). -/
def CopyEntry.bytes (e : CopyEntry) : List Byte :=
  toBytes 8 e.w0.toNat ++ toBytes 8 e.w1.toNat ++ toBytes 8 e.w2.toNat ++ toBytes 8 e.w3.toNat

/-- An entry appended to a ring by a group (R247). -/
def appendEntry (m : Mach) (gid : Nat) (g : Group) (t : Team) (e : CopyEntry) : Mach :=
  let m1 := writeBytes m (.spad (t.share + 64 + 32 * (t.notify.toNat % 64))) e.bytes
  let p : Publication := { ix := t.notify, group := gid, after := g.orderedAfter 1 }
  match aget m1.teams g.team with
  | none => m1
  | some t1 => m1.setTeam g.team { t1 with notify := t.notify + 1, pubs := t1.pubs ++ [p] }

/-- COPYQ (R247, R353): a team without a share raises "window protection". -/
def execCopyq (sd sa : Sreg) (s : State) : Host.Outcome State Fault Refusal :=
  groupStep s fun gid g =>
    let e := copyEntryOf g sa
    if sa = 0 || 57 < sa.toNat then scalarTrap s.m gid .illegal
    else if 0 < g.depth then scalarTrap s.m gid .publishInRegion
    else if !e.valid then scalarTrap s.m gid .copyEntry
    else
      match aget s.m.teams g.team with
      | none => scalarTrap s.m gid .windowProtection
      | some t =>
        if t.size = 0 then scalarTrap s.m gid .windowProtection
        else if t.notify - t.head = 64 then wait s.m gid g
        else
          retire (appendEntry s.m gid g t e) gid (g.setS sd ((t.notify + 1).zeroExtend 64)) (scalarCode 0x2A 0)

/-! The copy engine (R244, R248). -/

/-- An address of the copy engine located (R244): the local windows it may use, with their protection, or a translation
under the team's context; a fault comes with the machine it leaves and the halt cause it gives, which is `c` for
translation and access. (DESIGN CHOICE, log 11.) -/
def engineLocate (m : Mach) (core ctx va n : Nat) (k : AKind) (c : Nat) : Except (Mach × Nat) (Mach × Loc) :=
  if isLocal va then
    let off := va % 2 ^ 32
    match bits va 32 16 with
    | 1 =>
      let a := clusterOf core * 8 * spadSize + off
      if off + n ≤ 8 * spadSize && spadRangeReserved m ctx a n then .ok (m, .spad a) else .error (m, 6)
    | 2 => if off + n ≤ 2 ^ 27 && chipReserved m ctx off n then .ok (m, .chip off) else .error (m, 6)
    | _ => .error (m, 6)
  else
    match locateFor m core ctx va k with
    | .error f => .error (f.1, c)
    | .ok r => .ok r

/-- The units of a row located, 4 bytes each: their locations in order of offset, or the machine that the first that fails
leaves, the halt cause and its address. -/
def locateRow (core ctx : Nat) (k : AKind) (c : Nat) : Nat → Mach → Nat → Except (Mach × Nat × Nat) (Mach × List Loc)
  | 0, m, _ => .ok (m, [])
  | n + 1, m, va =>
    match engineLocate m core ctx va 4 k c with
    | .error (m1, h) => .error (m1, h, va)
    | .ok (m1, l) =>
      match locateRow core ctx k c n m1 ((va + 4) % 2 ^ 64) with
      | .error h => .error h
      | .ok (m2, ls) => .ok (m2, l :: ls)

/-- The destination offset of the unit at offset o of row r (R244). -/
def CopyEntry.place (e : CopyEntry) (r o : Nat) : Nat :=
  if e.swz then
    let c := o % e.span
    o - c + ((c / 16) ^^^ (r % (e.span / 16))) * 16 + c % 16
  else o

/-- Bytes written by an agent that is no group: a store to a kernel's work queue makes its records indeterminate
(R355). (DESIGN CHOICE, log 11.) -/
def agentWrite (m : Mach) (l : Loc) (bs : List Byte) : Mach :=
  let m1 := farWrite m l bs
  match l with
  | .chip a =>
    match workQueueAt m a with
    | some k => makeIndet m1 (.chip (k.wqBase.getD 0)) (16 * 2 ^ k.lrec.wqlog)
    | none => m1
  | .dev pa => poolStored m1 pa bs.length
  | _ => m1

/-- The units of a row written: unit i comes from the row's source, or from the pattern of a FILL. -/
def writeRow (e : CopyEntry) (r : Nat) (src dst : List Loc) : Nat → Mach → Mach
  | 0, m => m
  | n + 1, m =>
    let i := e.rowbytes / 4 - (n + 1)
    let (m1, bs) := match src[i]? with
      | some l => farRead m l 4
      | none => (m, toBytes 4 (bits e.w1.toNat 0 32))
    let m2 := match dst[e.place r (4 * i) / 4]? with
      | some l => agentWrite m1 l bs
      | none => m1
    writeRow e r src dst n m2

/-- A row's bytes subtracted from the slot that the entry counts on (R244): none where the slot's count would leave its
range. -/
def subtractRow (m : Mach) (slot : Option Nat) (n : Nat) : Option Mach :=
  match slot with
  | none => some m
  | some key =>
    match aget m.slots key with
    | none => some m
    | some b => if b.pend - n < -(2 ^ 31 : Int) then none else some (updateSlot m key { b with pend := b.pend - n })

/-- One row checked, written and counted (R244, R248); or the halt cause and the failing address.
(DESIGN CHOICE, log 11.) -/
def performRow (m : Mach) (core ctx : Nat) (e : CopyEntry) (slot : Option Nat) (r : Nat) :
    Except (Mach × Nat × Nat) Mach :=
  let n := e.rowbytes / 4
  let sva := (e.w1.toNat + r * e.sstride) % 2 ^ 64
  let dva := (e.w2.toNat + r * e.dstride) % 2 ^ 64
  match (if e.op = 1 then locateRow core ctx .read 1 n m sva else .ok (m, [])) with
  | .error f => .error f
  | .ok (m1, src) =>
    match locateRow core ctx .write 2 n m1 dva with
    | .error f => .error f
    | .ok (m2, dst) =>
      let m3 := writeRow e r src dst n m2
      match subtractRow m3 slot e.rowbytes with
      | none => .error (m3, 8, 0)
      | some m4 => .ok m4

/-- The slot that a counted entry subtracts from, resolved as the engine begins it, or its halt cause (R238, R248). -/
def entrySlot (m : Mach) (t : Team) (e : CopyEntry) : Except Nat (Option Nat) :=
  if !e.counted then .ok none
  else
    match (t.binds[e.name]?).bind id with
    | none => .error 4
    | some off =>
      match aget m.slots (t.share + off) with
      | some b => if b.cm then .ok (some (t.share + off)) else .error 5
      | none => .error 5

/-- An entry begun (R238, R248): valid, its words as the engine read them, and its slot as its name stands for one then; or
the halt cause. -/
def beginEntry (m : Mach) (t : Team) (e : CopyEntry) : Except Nat CopyRun :=
  if !e.valid then .error 3
  else
    match entrySlot m t e with
    | .error h => .error h
    | .ok slot => .ok { words := [e.w0, e.w1, e.w2, e.w3], slot := slot, rows := 0 }

/-- The entry that an engine has begun. -/
def CopyRun.entry (r : CopyRun) : CopyEntry :=
  let w (i : Nat) : Dword := r.words.getD i 0
  { w0 := w 0, w1 := w 1, w2 := w 2, w3 := w 3 }

/-- Whether every row of the entry is performed; a NOP has none (R243). -/
def CopyRun.over (r : CopyRun) : Bool := r.entry.op = 0 || r.entry.rows ≤ r.rows

/-- The ring halted with a cause, its head at the entry, which starts again at its first row (R248, R249). -/
def haltRing (m : Mach) (tid cause : Nat) : Mach :=
  match aget m.teams tid with
  | none => m
  | some t => m.setTeam tid { t with halt := true, cause := cause, run := none }

/-- The copy fault of an entry's publisher (R248): the trap comes from the engine, so a Trapped group queues it too.
(DEDUCED, log 50.) -/
def copyFault (m : Mach) (gid addr : Nat) : Mach :=
  match m.grp? gid with
  | none => m
  | some g =>
    raiseTrap m gid { lane := false, cause := .copyFault, code := 0, tspc := g.spc, tlpc := g.lpc,
                      taddr := BitVec.ofNat 64 addr, tmemb := 0, lxrem := 0, folded := (0, 0) }

/-- The publication of the entry at head. -/
def Team.headPub (t : Team) : Option Publication := t.pubs.find? fun p => p.ix = t.head

/-- The entry at head has been performed: the engine takes it (R242), and a Parked group that waited for it may end
(R250). -/
def takeEntryDone (m : Mach) (tid : Nat) (lat : Nat) : Mach :=
  match aget m.teams tid with
  | none => m
  | some t =>
    settleKernel (m.setTeam tid { t with head := t.head + 1, pubs := t.pubs.filter fun p => p.ix != t.head,
                                         lats := t.lats ++ [lat], run := none }) t.kern

/-- The engine stops at the entry at head with a halt cause, and its publisher takes a copy fault (R248). -/
def failEntry (m : Mach) (tid : Nat) (owner : Option Nat) (cause addr : Nat) : Mach :=
  let m1 := haltRing m tid cause
  match owner with
  | some o => copyFault m1 o addr
  | none => m1

/-- One more row of the entry that a ring's engine has begun, and with the last of them the entry is performed (R244).
(DEDUCED, log 60.) -/
def rowStep (m : Mach) (tid lat : Nat) (t : Team) (r : CopyRun) : Mach :=
  if r.over then takeEntryDone m tid lat
  else
    match performRow m (t.share / spadSize) t.ctx r.entry r.slot r.rows with
    | .error (m1, cause, addr) => failEntry m1 tid (t.headPub.map Publication.group) cause addr
    | .ok m1 =>
      match aget m1.teams tid with
      | none => m1
      | some t1 =>
        let r1 := { r with rows := r.rows + 1 }
        let m2 := m1.setTeam tid { t1 with run := some r1 }
        if r1.over then takeEntryDone m2 tid lat else m2

/-- Whether the entry at head may be begun: what it is ordered after is performed (R202). -/
def Team.mayBegin (m : Mach) (t : Team) : Bool :=
  (t.headPub.map fun p => p.after.all (EngineEntry.performed m)).getD true

/-- COPY_ENTRY_PERFORM (R244, R246 to R250): the ring's engine begins the entry at head, or performs one more row of it; lat
is the time from its publication to its last write. -/
def execCopyEntryPerform (team lat : Nat) (s : State) : Host.Outcome State Fault Refusal :=
  event s fun m =>
    match aget m.teams team with
    | none => m
    | some t =>
      if t.size = 0 || t.saved || t.halt || t.resuming || t.head = t.notify then m
      else
        let owner := t.headPub.map Publication.group
        if (owner.map fun o => (m.grp? o).isNone).getD false then haltRing m team 9
        else
          match t.run with
          | some r => rowStep m team lat t r
          | none =>
            if !t.mayBegin m then m
            else
              match beginEntry m t (ringEntry m t t.head) with
              | .error cause => failEntry m team owner cause 0
              | .ok r =>
                let m1 := m.setTeam team { t with run := some r }
                if r.over then takeEntryDone m1 team lat else m1

/-- The rows of a begun entry that are left, performed one after another. -/
def finishRows (tid lat : Nat) : Nat → Mach → Mach
  | 0, m => m
  | n + 1, m =>
    match aget m.teams tid with
    | none => m
    | some t =>
      match t.run with
      | some r => finishRows tid lat n (rowStep m tid lat t r)
      | none => m

/-- A ring quiesced before its team is saved (R252): the entry that its engine has begun is completed, and no other is
begun. -/
def quiesceRing (m : Mach) (tid : Nat) : Mach :=
  match (aget m.teams tid).bind Team.run with
  | some r => finishRows tid (Config.choice m.free) r.entry.rows m.bump
  | none => m

/-- COPY_RING_RESUME (R242, R248): the engine sees that the halt bit was cleared and goes on at head. -/
def execCopyRingResume (team : Nat) (s : State) : Host.Outcome State Fault Refusal :=
  event s fun m =>
    match aget m.teams team with
    | none => m
    | some t => m.setTeam team { t with resuming := false }

/-! YIELD.BAR and PIPE.LIM. -/

/-- The label of a YIELD.BAR (R253). (DEDUCED, log 49.) -/
def yieldTarget (g : Group) (off : BitVec 21) : Dword := g.spc + (off.signExtend 64 <<< 2)

/-- The group deactivated at its YIELD.BAR, its PC at the label; its latches and its place in the memory set are lost
(R99, R253). -/
def deactivate (m : Mach) (gid : Nat) (g : Group) (pc : Dword) (code : Dword) (off phase : Nat) : Mach :=
  let c := m.core g.core
  (m.setCore g.core { c with memset := adel c.memset gid }).setGrp gid
    { g.fold code with spc := pc, st := .waiting (.phase off phase), chain := none, waitedFrom := none, bar := none,
                       fabric := .none, flight := none, stuck := false }

/-- YIELD.BAR (R253). (DEDUCED, log 40.) -/
def execYieldBar (name : BitVec 4) (par : BitVec 1) (off : BitVec 21) (s : State) : Host.Outcome State Fault Refusal :=
  groupStep s fun gid g =>
    match resolveName s.m g name.toNat with
    | .error c => scalarTrap s.m gid c
    | .ok (o, _, b) =>
      if b.phase % 2 != par.toNat then finish (acquireAt s.m g .clu) gid g (yieldTarget g off) (scalarCode 0x2B 0)
      else
        awaitLanes s.m gid g fun _ =>
          if g.isTrapped then wait s.m gid g
          else deactivate s.m gid g (yieldTarget g off) (scalarCode 0x2B 0) o b.phase

/-- The continuation of a YIELD.BAR once its phase has completed (R234, R253). (DEDUCED, log 49.) -/
def continueYield (m : Mach) (gid : Nat) (g : Group) (off phase : Nat) : Mach :=
  match aget m.teams g.team with
  | none => m
  | some t =>
    match aget m.slots (t.share + off) with
    | none => m
    | some b =>
      if b.phase = phase then m
      else (acquireAt m g .clu).setGrp gid { g with st := .ready, readyAt := (m.core g.core).cyc }

/-- PIPE.LIM (R254). -/
def execPipeLim (sa sb : Sreg) (s : State) : Host.Outcome State Fault Refusal :=
  groupStep s fun gid g =>
    let lo := (g.s sa).toNat
    let hi := (g.s sb).toNat
    if lo < 1 || hi < lo || 8 < hi then scalarTrap s.m gid .operandRange
    else
      match aget s.m.teams g.team with
      | none => retire s.m gid g (scalarCode 0x2C 1)
      | some t => retire (s.m.setTeam g.team { t with limits := some (lo, hi) }) gid g (scalarCode 0x2C 1)

end Sys2Proof.Machine
end

