-- ==== Sys2Proof/Machine/LaneInt.lean ====
section
/-! DEFINITION. The lane integer, shift, count, logic, field and select instructions (R135 to R139). -/

namespace Sys2Proof.Machine

/-- A value computed element by element (R72). -/
def perElem (t : Ty) (f : Nat → Nat) : Nat := joinElems t.ew ((List.range t.count).map f)

/-- The least and greatest integers of an element type. -/
def Ty.minOf (t : Ty) : Int := if t.isSigned then -(2 ^ (t.ew - 1) : Int) else 0
def Ty.maxOf (t : Ty) : Int := if t.isSigned then 2 ^ (t.ew - 1) - 1 else 2 ^ t.ew - 1

/-- An exact integer delivered to an element: clamped or modulo 2^w (R135). -/
def Ty.deliver (t : Ty) (sat : Bool) (x : Int) : Nat := unsigned t.ew (if sat then clampInt x t.minOf t.maxOf else x)

/-- Element i of a source, as its type reads it (R132). -/
def LaneIn.ai (x : LaneIn) (l i : Nat) : Int := x.w.t.read (elem x.w.t.ew (x.a x.w.t l) i)
def LaneIn.bi (x : LaneIn) (l i : Nat) : Int := x.w.t.read (elem x.w.t.ew (x.b x.w.t l) i)
def LaneIn.ci (x : LaneIn) (l i : Nat) : Int := x.w.t.read (elem x.w.t.ew (x.c x.w.t l) i)

/-- Element i of a source as raw bits. -/
def LaneIn.ar (x : LaneIn) (l i : Nat) : Nat := elem x.w.t.ew (x.a x.w.t l) i
def LaneIn.br (x : LaneIn) (l i : Nat) : Nat := elem x.w.t.ew (x.b x.w.t l) i

/-- An integer instruction of R135: the exact result of each element, delivered under modB.sat alone (R69). -/
def laneInt (s : State) (i : Instr) (w : LaneWord) (f : LaneIn → Nat → Nat → Int) : Host.Outcome State Fault Refusal :=
  lanePure s i w w.t.regs fun x l => perElem w.t fun e => w.t.deliver w.sat (f x l e)

/-- An instruction on the raw bits of each element. -/
def laneBits (s : State) (i : Instr) (w : LaneWord) (f : LaneIn → Nat → Nat → Nat) : Host.Outcome State Fault Refusal :=
  lanePure s i w w.t.regs fun x l => perElem w.t (f x l)

/-- IADD (R135). -/
def execIadd (w : LaneWord) (s : State) : Host.Outcome State Fault Refusal :=
  laneInt s (.iadd w) w fun x l e => x.ai l e + x.bi l e

/-- ISUB (R135). -/
def execIsub (w : LaneWord) (s : State) : Host.Outcome State Fault Refusal :=
  laneInt s (.isub w) w fun x l e => x.ai l e - x.bi l e

/-- IMUL (R135). -/
def execImul (w : LaneWord) (s : State) : Host.Outcome State Fault Refusal :=
  laneInt s (.imul w) w fun x l e => x.ai l e * x.bi l e

/-- IMULH: the high half of the product (R135). -/
def execImulh (w : LaneWord) (s : State) : Host.Outcome State Fault Refusal :=
  laneInt s (.imulh w) w fun x l e => x.ai l e * x.bi l e / 2 ^ w.t.ew

/-- IMAD (R135). -/
def execImad (w : LaneWord) (s : State) : Host.Outcome State Fault Refusal :=
  laneInt s (.imad w) w fun x l e => x.ai l e * x.bi l e + x.ci l e

/-- IMIN (R135). -/
def execImin (w : LaneWord) (s : State) : Host.Outcome State Fault Refusal :=
  laneInt s (.imin w) w fun x l e => Min.min (x.ai l e) (x.bi l e)

/-- IMAX (R135). -/
def execImax (w : LaneWord) (s : State) : Host.Outcome State Fault Refusal :=
  laneInt s (.imax w) w fun x l e => Max.max (x.ai l e) (x.bi l e)

/-- IABS (R135). -/
def execIabs (w : LaneWord) (s : State) : Host.Outcome State Fault Refusal :=
  laneInt s (.iabs w) w fun x l e => (x.ai l e).natAbs

/-- INEG (R135). -/
def execIneg (w : LaneWord) (s : State) : Host.Outcome State Fault Refusal :=
  laneInt s (.ineg w) w fun x l e => -(x.ai l e)

/-- Lane SHL (R136). -/
def execLaneShl (w : LaneWord) (s : State) : Host.Outcome State Fault Refusal :=
  laneBits s (.laneShl w) w fun x l e => x.ar l e * 2 ^ (x.br l e % w.t.ew)

/-- Lane SHR (R136). -/
def execLaneShr (w : LaneWord) (s : State) : Host.Outcome State Fault Refusal :=
  laneBits s (.laneShr w) w fun x l e => x.ar l e / 2 ^ (x.br l e % w.t.ew)

/-- Lane SAR (R136). -/
def execLaneSar (w : LaneWord) (s : State) : Host.Outcome State Fault Refusal :=
  laneBits s (.laneSar w) w fun x l e => unsigned w.t.ew (signed w.t.ew (x.ar l e) / 2 ^ (x.br l e % w.t.ew))

/-- Lane POPC (R136). -/
def execLanePopc (w : LaneWord) (s : State) : Host.Outcome State Fault Refusal :=
  laneBits s (.lanePopc w) w fun x l e => popCount w.t.ew (x.ar l e)

/-- Lane CLZ (R136). -/
def execLaneClz (w : LaneWord) (s : State) : Host.Outcome State Fault Refusal :=
  laneBits s (.laneClz w) w fun x l e => w.t.ew - bitLength w.t.ew (x.ar l e)

/-- Lane BREV (R136). -/
def execLaneBrev (w : LaneWord) (s : State) : Host.Outcome State Fault Refusal :=
  laneBits s (.laneBrev w) w fun x l e => reverseBits w.t.ew (x.ar l e)

/-- Lane AND (R137). -/
def execLaneAnd (w : LaneWord) (s : State) : Host.Outcome State Fault Refusal :=
  laneBits s (.laneAnd w) w fun x l e => x.ar l e &&& x.br l e

/-- Lane OR (R137). -/
def execLaneOr (w : LaneWord) (s : State) : Host.Outcome State Fault Refusal :=
  laneBits s (.laneOr w) w fun x l e => x.ar l e ||| x.br l e

/-- Lane XOR (R137). -/
def execLaneXor (w : LaneWord) (s : State) : Host.Outcome State Fault Refusal :=
  laneBits s (.laneXor w) w fun x l e => x.ar l e ^^^ x.br l e

/-- Lane NOT (R137). -/
def execNot (w : LaneWord) (s : State) : Host.Outcome State Fault Refusal :=
  laneBits s (.not w) w fun x l e => 2 ^ w.t.ew - 1 - x.ar l e

/-- Bits 0 to n − 1 of a LOP3 result (R137). -/
def lop3Bits (lut a b c : Nat) : Nat → Nat
  | 0 => 0
  | n + 1 =>
    let i := (if bit a n then 4 else 0) + (if bit b n then 2 else 0) + (if bit c n then 1 else 0)
    lop3Bits lut a b c n + (if bit lut i then 2 ^ n else 0)

/-- LOP3: the table is the subfunction (R137). -/
def execLop3 (w : LaneWord) (s : State) : Host.Outcome State Fault Refusal :=
  lanePure s (.lop3 w) w w.t.regs fun x l => lop3Bits w.sub (x.a w.t l) (x.b w.t l) (x.c w.t l) w.t.bits

/-- BFE: field extract (R138). -/
def bfe (t : Ty) (a pos len : Nat) : Nat :=
  let p := pos % 256
  let n := len % 256
  if n = 0 || t.ew ≤ p then 0
  else
    let n := Min.min n (t.ew - p)
    let f := bits a p n
    if t.isSigned then unsigned t.ew (signed n f) else f

/-- BFI: field insert (R138). -/
def bfi (t : Ty) (a b pos len : Nat) : Nat :=
  let p := pos % 256
  let n := len % 256
  if n = 0 || t.ew ≤ p then b
  else
    let n := Min.min n (t.ew - p)
    b - bits b p n * 2 ^ p + bits a 0 n * 2 ^ p

/-- BFE (R138). -/
def execBfe (w : LaneWord) (s : State) : Host.Outcome State Fault Refusal :=
  lanePure s (.bfe w) w w.t.regs fun x l => bfe w.t (x.a w.t l) (x.b w.t l) (x.c w.t l)

/-- BFI (R138). -/
def execBfi (w : LaneWord) (s : State) : Host.Outcome State Fault Refusal :=
  lanePure s (.bfi w) w w.t.regs fun x l => bfi w.t (x.a w.t l) (x.b w.t l) (x.c w.t l) (x.d w.t l)

/-- Lane SEL: the subfunction names the predicate and its sense (R139). -/
def execLaneSel (w : LaneWord) (s : State) : Host.Outcome State Fault Refusal :=
  lanePure s (.laneSel w) w w.t.regs fun x l =>
    if x.g.pred (w.sub % 8) l != bit w.sub 3 then x.a w.t l else x.b w.t l

end Sys2Proof.Machine
end

