-- ==== Sys2Proof/Machine/LaneFloat.lean ====
section
/-! DEFINITION. The lane floating-point instructions: arithmetic (R140 to R143), rounding to an integral value (R150),
the special functions (R152, R153) and the dot products (R154).
-/

namespace Sys2Proof.Machine

/-- Results of several elements with their flags joined (R72, R73). -/
def perElemF (t : Ty) (f : Nat → Nat × FFlags) : Nat × FFlags :=
  let rs := (List.range t.count).map f
  (joinElems t.ew (rs.map Prod.fst), rs.foldl (fun a r => a.or r.2) .clear)

/-- A floating-point instruction, element by element, under the rounding and saturation of its format (R69). -/
def laneFp (s : State) (i : Instr) (w : LaneWord) (f : LaneIn → Nat → Nat → Fmt → Rnd → Bool → Nat × FFlags) :
    Host.Outcome State Fault Refusal :=
  laneArith s i w w.t.regs fun x l =>
    perElemF w.t fun e => f x l e w.t.fmt (x.rndOf w.t.fmt) (x.satOf w.t.fmt)

/-- Element i of srcC as raw bits. -/
def LaneIn.cr (x : LaneIn) (l i : Nat) : Nat := elem x.w.t.ew (x.c x.w.t l) i

/-- FADD (R140, R141). -/
def execFadd (w : LaneWord) (s : State) : Host.Outcome State Fault Refusal :=
  laneFp s (.fadd w) w fun x l e f r sat => fAdd f r sat false (x.ar l e) (x.br l e)

/-- FSUB (R140, R141). -/
def execFsub (w : LaneWord) (s : State) : Host.Outcome State Fault Refusal :=
  laneFp s (.fsub w) w fun x l e f r sat => fAdd f r sat true (x.ar l e) (x.br l e)

/-- FMUL (R140, R141). -/
def execFmul (w : LaneWord) (s : State) : Host.Outcome State Fault Refusal :=
  laneFp s (.fmul w) w fun x l e f r sat => fMul f r sat (x.ar l e) (x.br l e)

/-- FMA (R140, R141). -/
def execFma (w : LaneWord) (s : State) : Host.Outcome State Fault Refusal :=
  laneFp s (.fma w) w fun x l e f r sat => fMulAdd f r sat (x.ar l e) (x.br l e) (x.cr l e)

/-- FMIN (R142). -/
def execFmin (w : LaneWord) (s : State) : Host.Outcome State Fault Refusal :=
  laneFp s (.fmin w) w fun x l e f _ _ => fMinMax f false (x.ar l e) (x.br l e)

/-- FMAX (R142). -/
def execFmax (w : LaneWord) (s : State) : Host.Outcome State Fault Refusal :=
  laneFp s (.fmax w) w fun x l e f _ _ => fMinMax f true (x.ar l e) (x.br l e)

/-- FABS (R143). -/
def execFabs (w : LaneWord) (s : State) : Host.Outcome State Fault Refusal :=
  laneFp s (.fabs w) w fun x l e f _ _ => fSign f false (x.ar l e)

/-- FNEG (R143). -/
def execFneg (w : LaneWord) (s : State) : Host.Outcome State Fault Refusal :=
  laneFp s (.fneg w) w fun x l e f _ _ => fSign f true (x.ar l e)

/-- FRND (R150). -/
def execFrnd (w : LaneWord) (s : State) : Host.Outcome State Fault Refusal :=
  laneFp s (.frnd w) w fun x l e f r _ => fRound f r (x.ar l e)

/-- RCP (R152, R153). -/
def execRcp (w : LaneWord) (s : State) : Host.Outcome State Fault Refusal :=
  laneFp s (.rcp w) w fun x l e f r sat => fRcp f r sat (x.ar l e)

/-- RSQ (R152, R153). -/
def execRsq (w : LaneWord) (s : State) : Host.Outcome State Fault Refusal :=
  laneFp s (.rsq w) w fun x l e f _ sat => fRsq f sat (x.ar l e)

/-- SQRT (R152, R153). -/
def execSqrt (w : LaneWord) (s : State) : Host.Outcome State Fault Refusal :=
  laneFp s (.sqrt w) w fun x l e f r sat => fSqrt f r sat (x.ar l e)

/-- EXP2 (R152, R153). -/
def execExp2 (w : LaneWord) (s : State) : Host.Outcome State Fault Refusal :=
  laneFp s (.exp2 w) w fun x l e f _ sat => fExp2 f sat (x.ar l e)

/-- LOG2 (R152, R153). -/
def execLog2 (w : LaneWord) (s : State) : Host.Outcome State Fault Refusal :=
  laneFp s (.log2 w) w fun x l e f _ _ => fLog2 f (x.ar l e)

/-- SIN (R152, R153). -/
def execSin (w : LaneWord) (s : State) : Host.Outcome State Fault Refusal :=
  laneFp s (.sin w) w fun x l e f _ _ => fTrig f false (x.ar l e)

/-- COS (R152, R153). -/
def execCos (w : LaneWord) (s : State) : Host.Outcome State Fault Refusal :=
  laneFp s (.cos w) w fun x l e f _ _ => fTrig f true (x.ar l e)

/-- TANH (R152, R153). -/
def execTanh (w : LaneWord) (s : State) : Host.Outcome State Fault Refusal :=
  laneFp s (.tanh w) w fun x l e f _ _ => fTanh f (x.ar l e)

/-- The other FP8 type, which a dot product may read b in (R154). -/
def otherFp8 : Ty → Ty
  | .e4m3x4 => .e5m2x4
  | _ => .e4m3x4

/-- The exact sum of an accumulator and products, whose infinities do not conflict.  An exact zero is −0 if every
term is −0 and else +0 (R76, R141); under rounding toward −∞, with terms not all +0, its sign is not stated. -/
def dotSum (r : Rnd) (acc : FVal) (ps : List FVal) : FVal :=
  let terms := acc :: ps
  let s := ps.foldl (fun a p => a.add .rne p) acc
  match s with
  | .fin _ 0 e =>
    if terms.all fun t => t.isZero && t.neg then .fin true 0 e
    else if terms.all fun t => t.isZero && !t.neg then .fin false 0 e
    else .fin (decide (r = .rdn) && Config.dotZeroNegative) 0 e
  | _ => s

/-- A floating dot product: the exact sum of the products and c, rounded once to FP32 (R76, R154). -/
def dotF (t tb : Ty) (r : Rnd) (sat : Bool) (a b c : Nat) : Nat × FFlags :=
  let ps := (List.range t.count).map fun e => (decodeF t.fmt (elem t.ew a e), decodeF tb.fmt (elem tb.ew b e))
  let prods := ps.map fun p => p.1.mul p.2
  let acc := decodeF .fp32 c
  let anyNaN := ps.any fun p => p.1.isNaN || p.2.isNaN
  let zi := ps.any fun p => zeroTimesInf p.1 p.2
  let opposite := prods.contains (.inf true) && prods.contains (.inf false)
  let sum := granuleSum prods
  let iv := zi || opposite || infMinusInf sum acc || (ps.any fun p => p.1.isSignalling || p.2.isSignalling)
    || acc.isSignalling
  let whole :=
    if anyNaN || zi || opposite || acc.isNaN || infMinusInf sum acc then FVal.nan false
    else dotSum r acc prods
  let (x, fl) := deliver .fp32 r sat whole
  (x, { fl with iv := fl.iv || iv })

/-- An integer dot product (R154). -/
def dotI (t : Ty) (sat : Bool) (a b c : Nat) : Nat :=
  let s := (List.range t.count).foldl (fun s e => s + t.read (elem t.ew a e) * t.read (elem t.ew b e)) (0 : Int)
  (dotAcc t).deliver sat ((dotAcc t).read c + s)

/-- A dot product (R154). -/
def laneDot (s : State) (i : Instr) (w : LaneWord) : Host.Outcome State Fault Refusal :=
  let t := w.t
  let tb := if w.sub % 2 = 1 then otherFp8 t else t
  laneArith s i w 1 fun x l =>
    if t.isInt then (dotI t w.sat (x.a t l) (x.b t l) (x.c (dotAcc t) l), .clear)
    else dotF t tb (x.rndOf .fp32) (x.satOf .fp32) (x.a t l) (x.b tb l) (x.c .f32 l)

/-- DOT2 (R154). -/
def execDot2 (w : LaneWord) (s : State) : Host.Outcome State Fault Refusal :=
  laneDot s (.dot2 w) w

/-- DOT4 (R154). -/
def execDot4 (w : LaneWord) (s : State) : Host.Outcome State Fault Refusal :=
  laneDot s (.dot4 w) w

/-- DOT8 (R154). -/
def execDot8 (w : LaneWord) (s : State) : Host.Outcome State Fault Refusal :=
  laneDot s (.dot8 w) w

end Sys2Proof.Machine
end

