-- ==== Sys2Proof/Machine/LaneConv.lean ====
section
/-! DEFINITION. The conversions (R148, R149, R151). -/

namespace Sys2Proof.Machine

/-- The rounding and saturation of a conversion for its destination (R68, R69): integers use irnd and isat. -/
def LaneIn.rndTo (x : LaneIn) (t : Ty) : Rnd := if t.isInt then x.rndAt 12 else x.rndOf t.fmt
def LaneIn.satTo (x : LaneIn) (t : Ty) : Bool := if t.isInt then x.satAt 12 else x.satOf t.fmt

/-- The value of an element of a type (R148): an integer is exact, and zero is +0. -/
def Ty.value (t : Ty) (e : Nat) : FVal :=
  if t.isInt then
    let i := t.read e
    .fin (decide (i < 0)) i.natAbs 0
  else decodeF t.fmt e

/-- An element converted (R148). -/
def convertTo (dt : Ty) (r : Rnd) (sat : Bool) (x : FVal) : Nat × FFlags :=
  if dt.isInt then convertI dt.ew dt.isSigned r sat x else convertF dt.fmt r sat x

/-- CVT (R148). -/
def execCvt (w : LaneWord) (s : State) : Host.Outcome State Fault Refusal :=
  laneArith s (.cvt w) w w.t.regs fun x l =>
    let st := w.srcType.getD .i32
    let (v, fl) := convertTo w.t (x.rndTo w.t) (x.satTo w.t) (st.value (elem st.ew (x.val st 0 w.a l) 0))
    (v % 2 ^ w.t.ew, fl)

/-- Source k of a narrowing conversion. (DEDUCED, log 15.) -/
def LaneIn.source (x : LaneIn) (t : Ty) (k l : Nat) : Nat :=
  match k with
  | 0 => x.a t l
  | 1 => x.b t l
  | 2 => x.c t l
  | _ => x.d t l

/-- CVTP: narrowing takes the elements of its sources in order; widening takes a part of one source, exactly (R149). -/
def execCvtp (w : LaneWord) (s : State) : Host.Outcome State Fault Refusal :=
  laneArith s (.cvtp w) w w.t.regs fun x l =>
    let st := w.srcType.getD .i32
    if w.sub < 128 then
      perElemF w.t fun e =>
        convertF w.t.fmt (x.rndOf w.t.fmt) (x.satOf w.t.fmt)
          (decodeF st.fmt (elem st.ew (x.source st (e / st.count) l) (e % st.count)))
    else
      let part := bits w.sub 5 2
      perElemF w.t fun e =>
        convertF w.t.fmt .rne false (decodeF st.fmt (elem st.ew (x.a st l) (part * w.t.count + e)))

/-! CVTS (R151). -/

/-- The parts of a format slot's descriptor (R62). -/
structure SlotDesc where
  efmt    : Nat
  blk     : Nat
  band    : Bool
  blkoff  : Nat
  bandoff : Nat
  deriving DecidableEq, Repr

def SlotDesc.of (d : Dword) : SlotDesc :=
  let n := d.toNat
  { efmt := bits n 0 4, blk := bits n 4 4, band := bit n 12, blkoff := bits n 16 24, bandoff := bits n 40 24 }

/-- The block size B of a slot that has one (R62). -/
def SlotDesc.block (d : SlotDesc) : Nat := 2 ^ (d.blk + 2)

/-- The packed type of a slot's elements (R151). -/
def SlotDesc.ty (d : SlotDesc) : Ty :=
  match d.efmt with
  | 4 => .e4m3x4
  | 5 => .e5m2x4
  | _ => .e2m1x8

/-- The address of the block scale of element k of row i, of rows of n elements (R64). -/
def SlotDesc.scaleAt (d : SlotDesc) (base i k n : Nat) : Nat :=
  (base + 64 * d.blkoff + i * ceilDiv n d.block + k / d.block) % 2 ^ 64

/-- The address of the band scale of row i (R64). -/
def SlotDesc.bandAt (d : SlotDesc) (base i : Nat) : Nat := (base + 64 * d.bandoff + 2 * (i / 64)) % 2 ^ 64

/-- A scale read of a lane: its lane, address and size. -/
structure ScaleRead where
  lane : Nat
  addr : Nat
  size : Nat
  deriving DecidableEq, Repr

/-- Row, element and row length of a lane's CVTS. -/
def LaneIn.row (x : LaneIn) (l : Nat) : Nat := (x.raw 1 x.w.b l).toNat
def LaneIn.pos (x : LaneIn) (l : Nat) : Nat := (x.raw 2 x.w.c l).toNat
def LaneIn.len (x : LaneIn) (l : Nat) : Nat := (x.raw 3 x.w.d l).toNat

/-- The scale reads that the formula uses in a lane, the block scale first. -/
def scaleReads (x : LaneIn) (d : SlotDesc) (base l : Nat) : List ScaleRead :=
  if x.len l ≤ x.pos l then []
  else
    (if d.blk = 0 then [] else [{ lane := l, addr := d.scaleAt base (x.row l) (x.pos l) (x.len l), size := 1 }])
      ++ (if d.band then [{ lane := l, addr := d.bandAt base (x.row l), size := 2 }] else [])

/-- A scale that was read: by lane, and by size, which tells a block scale from a band scale. -/
abbrev Scales := List (Nat × Nat × Nat)

/-- Every scale read checked, as LD is (R151, R174); a lane reports its first fault alone. -/
def checkScales (g : Group) : List ScaleRead → Mach → Mach × List (ScaleRead × LaneAccess) × List LaneFault
  | [], m => (m, [], [])
  | r :: rest, m =>
    match checkLane m g r.lane r.addr r.size .read false with
    | (m1, .error f) =>
      let (m2, as_, fs) := checkScales g rest m1
      (m2, as_, f :: fs.filter fun x => x.lane != f.lane)
    | (m1, .ok a) =>
      let (m2, as_, fs) := checkScales g rest m1
      (m2, (r, a) :: as_, fs)

/-- One scale read performed as a relaxed .grp load. -/
def readScale (x : LaneIn) (mv : Mach × Scales) (ra : ScaleRead × LaneAccess) : Mach × Scales :=
  let (m1, vs) := loadLane x ra.1.size .grp 0 (mv.1, []) ra.2
  (m1, mv.2 ++ vs.map fun v => (v.1, ra.1.size, v.2))

/-- A scale of a lane, of a size; 1.0 where there is none. -/
def scaleOf (f : Fmt) (ss : Scales) (l size : Nat) : FVal :=
  match ss.find? fun s => s.1 = l && s.2.1 = size with
  | some s => decodeF f s.2.2
  | none => .fin false 1 0

/-- The exact quotient of a value by a finite nonzero scale, rounded once (R69, R71, R151). -/
def divideTo (f : Fmt) (r : Rnd) (sat : Bool) (v sc : FVal) : Nat × FFlags :=
  match v, sc with
  | .fin neg m e, .fin neg' m' e' => roundTo f r sat (neg != neg') m m' (e - e')
  | .inf neg, _ => convertF f r sat (.inf (neg != sc.neg))
  | v, _ => convertF f r sat v

/-- One lane of CVTS: what it writes, or none where it leaves its destination as it is; a goes by modA, so that an inline
constant there is the value converted to t (R36). -/
def cvtsLane (x : LaneIn) (d : SlotDesc) (ss : Scales) (l : Nat) : Option Nat × FFlags :=
  let t := x.w.t
  let st := d.ty
  let enc := x.w.sub % 2 = 1
  let old := if x.w.dst.toNat < 256 then (x.g.vreg x.w.dst.toNat l).toNat else 0
  if x.len l ≤ x.pos l then
    if enc then (none, .invalid) else (some (canonicalNaN t.fmt), .invalid)
  else
    let blk := scaleOf .e3m5 ss l 1
    let band := scaleOf .bf16 ss l 2
    let i := x.pos l % st.count
    if enc then
      let sc := blk.mul band
      let bad : Bool := match sc with
        | .fin _ m _ => m = 0
        | _ => true
      let (code, fl) :=
        if bad then (0, FFlags.invalid)
        else divideTo st.fmt (x.rndOf st.fmt) (x.satOf st.fmt) (decodeF t.fmt (elem t.ew (x.a t l) 0)) sc
      (some (joinElems st.ew ((List.range st.count).map fun j => if j = i then code else elem st.ew old j)), fl)
    else
      let (v, iv) := scaledValue (decodeF st.fmt (elem st.ew (x.a t l) i)) blk band
      let (c, fl) := deliver t.fmt (x.rndOf t.fmt) (x.satOf t.fmt) v
      (some (c % 2 ^ t.ew), { fl with iv := fl.iv || iv })

/-- The results of CVTS in the lanes of E.  A lane whose destination an encoding leaves as it is captures nothing: R151 does
not say what a capture gets there. (DESIGN CHOICE, log 69.) -/
def cvtsFinish (m : Mach) (gid : Nat) (x : LaneIn) (d : SlotDesc) (ss : Scales) : Mach :=
  let rs := x.lanes.map fun l => (l, cvtsLane x d ss l)
  let vals := rs.filterMap fun r => r.2.1.map fun v => (r.1, v)
  let g1 := (x.write false 1 vals).raise (rs.foldl (fun a r => a.or r.2.2) .clear)
  laneFinish m gid g1 x.e (.cvts x.w) x.w (x.capture vals (x.g.chain.getD Chain.empty))

/-- CVTS (R151). (DEDUCED, log 15.) -/
def execCvts (w : LaneWord) (s : State) : Host.Outcome State Fault Refusal :=
  laneMemory s (.cvts w) w false fun gid x =>
    let r := s.m.lrec? x.g
    let d := SlotDesc.of ((r.bind fun r => r.slots[w.slot.toNat]?).getD 0)
    let base := (r.map fun r => r.scale.toNat).getD 0
    let (m1, as_, fs) := checkScales x.g (x.lanes.flatMap (scaleReads x d base)) s.m
    if !fs.isEmpty then laneFaults m1 gid x.g x.e fs
    else
      let ports := portsOf 2 (as_.map Prod.snd)
      overFabric m1 x.g ports (fun _ => sendOver m1 gid x.g ports) fun _ =>
        let (m2, ss) := as_.foldl (readScale x) (m1, [])
        cvtsFinish m2 gid x d ss

end Sys2Proof.Machine
end

