-- ==== Sys2Proof/Machine/Admission.lean ====
section
/-! DEFINITION. The admission of groups and teams to cores (R15, R18, R21 to R23, R91, R102, R103, R353, R441): what a
core still takes, and a group and a team as their admission leaves them.
-/

namespace Sys2Proof.Machine

/-- Group slots, lanes and lane registers (R18). -/
structure CoreUse where
  groups : Nat
  lanes  : Nat
  regs   : Nat
  deriving DecidableEq, Repr

/-- What the resident groups of a core that pass a test use together. -/
def coreUse (m : Mach) (core : Nat) (p : Group → Bool) : CoreUse :=
  m.groups.foldl (fun u kg =>
    if kg.2.core = core && !kg.2.saved && p kg.2 then
      { groups := u.groups + 1, lanes := u.lanes + kg.2.width, regs := u.regs + kg.2.width * kg.2.nregs }
    else u) { groups := 0, lanes := 0, regs := 0 }

/-- Whether a use plus n groups of a shape stays within limits. -/
def CoreUse.room (u : CoreUse) (n width nregs groups lanes regs : Nat) : Bool :=
  u.groups + n ≤ groups && u.lanes + n * width ≤ lanes && u.regs + n * width * nregs ≤ regs

/-- Whether no group resident on a core sits in a slot. -/
def slotFree (m : Mach) (core slot : Nat) : Bool :=
  !aany (fun _ g => g.core = core && g.slot = slot && !g.saved) m.groups

/-- Whether a core takes groups of one shape in slots (R18, R102, R103, R441): a granted core in service, with the
features required, the slots free, and every sum within the core's resources and the context's quotas. -/
def coreTakes (m : Mach) (ctx core feat : Nat) (slots : List Nat) (width nregs : Nat) : Bool :=
  match (aget m.ctxs ctx).bind Context.quota with
  | none => false
  | some q =>
    let n := slots.length
    core < 1024 && q.clusters.getLsbD (clusterOf core) && !(m.cluster (clusterOf core)).fenced
      && (m.features core).toNat &&& feat = feat
      && slots.all (fun x => x < 64 && slotFree m core x) && slots.dedup.length = n
      && (coreUse m core fun _ => true).room n width nregs 64 2048 65536
      && (coreUse m core fun g => g.ctx = ctx).room n width nregs q.gslots (32 * q.lanes) (1024 * q.regs)

/-- The required feature mask of a kernel (R102). (DESIGN CHOICE, log 9.) -/
def featOf (m : Mach) (kid : Nat) : Nat := ((aget m.kerns kid).map fun k => k.lrec.reqfeat).getD 0

/-- The scalar registers at admission: zero but for the masks of the beats that the group has (R91, R353). -/
def freshRegs (width : Nat) : Vector Dword 64 :=
  Vector.ofFn fun i => if 61 ≤ i.val && i.val - 61 < width / 32 then 0xFFFFFFFF else 0

/-- A group as its admission leaves it (R79, R91, R105, R353); cyc is its core's cycle count. -/
def freshGroup (ctx kern team : Nat) (kind : GKind) (core slot gidx width nregs cyc : Nat) : Group :=
  { ctx := ctx, kern := kern, team := team, kind := kind, core := core, slot := slot, gidx := gidx, width := width,
    nregs := nregs, st := .ready, saved := false, regs := freshRegs width,
    flags := { z := false, n := false, c := false, v := false }, spc := 0, lpc := 0, v := [],
    preds := Vector.replicate 7 0, chk := [], qs := Queues.empty, aside := none, asideWait := none, lx := none,
    chain := none, mode := 0, fpstat := 0, dlq := 0, lxrem := 0, node := 0, stamp := 0, own := false, sig := 0,
    sigq := [], rgn := [], log := none, rolls := 0, src := 0, tcause := 0, tspc := 0, tlpc := 0, taddr := 0, tmemb := 0,
    folded := (0, 0), inject := none, traps := [], serving := none, pool := 0, tasks := [], origins := [], stuck := false,
    readyAt := cyc, issuedAt := cyc, throttledAt := none, ready := [], waitedFrom := none, bar := none, fabric := .none,
    flight := none, posting := none, joins := [] }

/-- A team as its admission leaves it: depth 1 with limits 1 and 1, no binding, a ring header of zeros (R236, R242,
R254). (DEDUCED, log 53.) -/
def freshTeam (kern ctx t share size frame : Nat) : Team :=
  { kern := kern, ctx := ctx, t := t, spans := false, share := share, size := size, frame := frame, saved := false,
    binds := List.replicate 16 none, olds := [], depth := 1, dmin := 1, dmax := 1, limits := none, timed := false, lats := [],
    notify := 0, head := 0, halt := false, resuming := false, cause := 0, pubs := [], run := none, bytes := [], held := [] }

/-- A fresh number for a group, team, kernel or other object. -/
def Mach.newId (m : Mach) : Nat × Mach := (m.nextId, { m with nextId := m.nextId + 1 })

/-- Whether a lane-private frame is free in a kernel (R162); without a slice there is none to hold. -/
def frameFree (m : Mach) (kid frame : Nat) (r : LaunchRec) : Bool :=
  r.slice = 0 || (frame < r.frames && !aany (fun _ t => t.kern = kid && t.frame = frame) m.teams)

/-- The frame that a team of one spawned group or task group takes: the implementation's choice.
(DESIGN CHOICE, log 17.) -/
def pickFrame (m : Mach) (r : LaunchRec) : Nat := if r.slice = 0 then 0 else m.pick r.frames

/-- A team of one group with no share, admitted to a slot of a core (R269, R320, R371); none where it does not fit.
(DEDUCED, log 53.) -/
def admitOne (m : Mach) (ctx kid : Nat) (kind : GKind) (at_ : Slot) (width nregs feat : Nat) (r : Option LaunchRec) :
    Option (Mach × Nat × Group) :=
  let frame := (r.map (pickFrame m)).getD 0
  if coreTakes m ctx at_.core feat [at_.slot] width nregs && ((r.map (frameFree m kid frame)).getD true) then
    let (gid, m1) := m.newId
    let g := freshGroup ctx kid gid kind at_.core at_.slot 0 width nregs (m.core at_.core).cyc
    let m2 := { m1.bump with teams := aput m1.teams gid (freshTeam kid ctx 0 0 0 frame), groups := aput m1.groups gid g }
    some (m2, gid, g)
  else none

/-! Teams of a kernel. -/

/-- The bytes of scratchpad that a context has reserved on one core (R441). (DEDUCED, log 33.) -/
def reservedBytes (m : Mach) (ctx : Nat) : Nat :=
  (((aget m.ctxs ctx).bind Context.quota).map fun q => 4096 * q.spsize).getD 0

/-- What a team needs of the cores it is placed on: its groups, their lanes and registers, its share and the features
it requires. -/
structure Need where
  groups : Nat
  width  : Nat
  nregs  : Nat
  share  : Nat
  feat   : Nat
  deriving DecidableEq, Repr

/-- What a team of a kernel needs (R350). -/
def LaunchRec.need (r : LaunchRec) : Need :=
  { groups := r.tgroups, width := 32 * (r.wcode + 1), nregs := 8 * r.regs, share := r.scratch, feat := r.reqfeat }

/-- Whether a team is placed on a pair of cores (R15). -/
def needsPair (m : Mach) (ctx : Nat) (n : Need) : Bool :=
  2048 < n.groups * n.width || reservedBytes m ctx < n.share

/-- Whether two ranges of bytes meet. -/
def rangesMeet (a n b k : Nat) : Bool := a < b + k && b < a + n

/-- Whether a share may lie where a placement puts it (R23, R353): aligned, in reserved bytes, on the core or the pair of
the team, and clear of every other resident share. -/
def shareFits (m : Mach) (ctx : Nat) (n : Need) (p : Placement) (first : Nat) : Bool :=
  let a := p.core * spadSize + p.off
  let inPlace :=
    if needsPair m ctx n then p.core / 2 = first / 2 && p.off < spadSize && p.off % 256 = 0
        && a + n.share ≤ (p.core / 2 * 2 + 2) * spadSize
    else p.core = first && p.off % 256 = 0 && p.off + n.share ≤ spadSize
  n.share = 0 || (inPlace && spadRangeReserved m ctx a n.share
    && !aany (fun _ t => !t.saved && 0 < t.size && rangesMeet t.share t.size a n.share) m.teams)

/-- Whether a placement puts groups on two cores (R15, R168). -/
def onTwoCores (p : Placement) : Bool := 1 < (p.slots.map Slot.core).dedup.length

/-- The slots of a placement on one core. -/
def slotsOn (p : Placement) (core : Nat) : List Nat := (p.slots.filter fun x => x.core = core).map Slot.slot

/-- Whether the groups lie on one core, or on a pair with the lowest-numbered ones on its even core (R15, R23). -/
def divided (pair : Bool) (p : Placement) (first : Nat) : Bool :=
  if pair then
    let rest := p.slots.dropWhile fun x => x.core = first / 2 * 2
    p.slots.all (fun x => x.core / 2 = first / 2) && rest.all fun x => x.core = first / 2 * 2 + 1
  else p.slots.all fun x => x.core = first

/-- Whether what a team needs is there where a placement puts it (R18, R23, R102, R103, R353). -/
def needFits (m : Mach) (ctx : Nat) (n : Need) (p : Placement) : Bool :=
  match p.slots.head? with
  | none => false
  | some s0 =>
    p.slots.length = n.groups && divided (needsPair m ctx n) p s0.core && shareFits m ctx n p s0.core
      && ((p.slots.map Slot.core).dedup.all fun c => coreTakes m ctx c n.feat (slotsOn p c) n.width n.nregs)

/-- Whether a team of a kernel fits where a placement puts it (R353): its frame is free too. -/
def teamFits (m : Mach) (ctx kid : Nat) (r : LaunchRec) (p : Placement) : Bool :=
  needFits m ctx r.need p && frameFree m kid p.frame r

/-- The cluster-memory address of a share, for its team's s1 (R353). -/
def shareAddress (share : Nat) : Dword := BitVec.ofNat 64 (0x00FF000100000000 + share % (8 * spadSize))

/-- The groups of a team placed one after another, Ready at the kernel's entry, each with its own count taken (R353).
(DESIGN CHOICE, log 17.) -/
def placeGroups (ctx kid tid : Nat) (r : LaunchRec) (s1 : Dword) : List Slot → Nat → Mach → Mach
  | [], _, m => m
  | x :: rest, ix, m =>
    let (gid, m1) := m.newId
    let g := freshGroup ctx kid tid .kernel x.core x.slot ix (32 * (r.wcode + 1)) (8 * r.regs) (m.core x.core).cyc
    let g1 := { g.setS 1 s1 with spc := r.sbase + BitVec.ofNat 64 r.entry, node := r.node, stamp := r.stamp, own := true }
    placeGroups ctx kid tid r s1 rest (ix + 1) (countAt (m1.setGrp gid g1) (clusterOf x.core) ctx r.node r.stamp 1)

/-- Team t of a kernel admitted where a placement puts it (R353). (DESIGN CHOICE, log 17.) -/
def admitTeam (m : Mach) (ctx kid t : Nat) (r : LaunchRec) (p : Placement) : Mach :=
  let (tid, m1) := m.newId
  let share := p.core * spadSize + p.off
  let s1 := if r.scratch = 0 then 0 else shareAddress share
  let team := { freshTeam kid ctx t (if r.scratch = 0 then 0 else share) r.scratch p.frame with spans := onTwoCores p }
  placeGroups ctx kid tid r s1 p.slots 0 (m1.setTeam tid team)

end Sys2Proof.Machine
end

