-- ==== Sys2Proof/Machine/Summary.lean ====
section
/-! DEFINITION. Path summaries and summary images (R294 to R297), floors (R304) and justification (R299). -/

namespace Sys2Proof.Machine

/-! Path summaries. -/

/-- The greatest value of a counter (R290). -/
def counterMax : Nat := 0x7FFF

/-- The identity of a node of depth d (R296). -/
def PathSum.identity (d : Nat) : PathSum := { adds := List.replicate d 0, keep := d, tail := [] }

/-- A summary applied to a stamp of its source: ⊤ where a counter passes its greatest value (R295). -/
def PathSum.apply (p : PathSum) (t : Dword) : Floor :=
  let cs := (List.range p.adds.length).map fun i => stampCounter t i + p.adds.getD i 0
  if cs.any fun c => counterMax < c then .top else .at_ (stampOf (cs.take p.keep ++ p.tail))

/-- One path followed by another; none where no stamp can result (R295, R296). (DEDUCED, log 21.) -/
def PathSum.comp (p q : PathSum) : Option PathSum :=
  let adds := (List.range p.adds.length).map fun i => p.adds.getD i 0 + (if i < p.keep then q.adds.getD i 0 else 0)
  let mid := (List.range p.tail.length).map fun j => p.tail.getD j 0 + q.adds.getD (p.keep + j) 0
  if (adds ++ mid).any fun c => counterMax < c then none
  else some { adds := adds, keep := min p.keep q.keep, tail := mid.take (q.keep - p.keep) ++ q.tail }

/-- Lexicographic order of equally long lists: at or below, and strictly below. -/
def lexLe : List Nat → List Nat → Bool
  | a :: r, b :: s => a < b || (a = b && lexLe r s)
  | _, _ => true

def lexLt : List Nat → List Nat → Bool
  | a :: r, b :: s => a < b || (a = b && lexLt r s)
  | _, _ => false

/-- Whether p is at or below q for every stamp (R296): where q gives a stamp p must give one, and the counters compare at
the stamps that are worst for p. (DEDUCED, log 21.) -/
def PathSum.below (p q : PathSum) : Bool :=
  let d := p.adds.length
  let k := min p.keep q.keep
  let inDomain := (List.range d).all fun i => p.adds.getD i 0 ≤ q.adds.getD i 0
  let pre := (List.range k).any fun i => p.adds.getD i 0 < q.adds.getD i 0
  let pTop := ((List.range p.keep).drop k).map fun j => counterMax - q.adds.getD j 0 + p.adds.getD j 0
  let qLow := ((List.range q.keep).drop k).map fun j => q.adds.getD j 0
  inDomain && (pre || lexLe (pTop ++ p.tail) (qLow ++ q.tail))

/-- Whether a summary from a node to itself maps every valid stamp strictly above itself (R296). -/
def PathSum.strict (p : PathSum) : Bool :=
  let d := p.adds.length
  (List.range p.keep).any (fun i => 0 < p.adds.getD i 0)
    || lexLt (((List.range d).drop p.keep).map fun j => counterMax - p.adds.getD j 0) p.tail

/-- A summary added to those kept for its pair (R296). (DEDUCED, log 21.) -/
def keepSum (l : List PathSum) (p : PathSum) : List PathSum :=
  if l.any fun q => q.below p then l else (l.filter fun q => !p.below q) ++ [p]

/-- The summaries kept for a pair. -/
def sumsOf (ps : List PairSum) (src dst : Nat) : List PathSum :=
  ((ps.find? fun x => x.src = src && x.dst = dst).map PairSum.sums).getD []

/-- A summary added to a pair. -/
def addSum (ps : List PairSum) (src dst : Nat) (p : PathSum) : List PairSum :=
  match ps with
  | [] => [{ src := src, dst := dst, sums := [p] }]
  | x :: r =>
    if x.src = src && x.dst = dst then { x with sums := keepSum x.sums p } :: r else x :: addSum r src dst p

/-- An edge of an image (R294): its nodes and its summary. -/
structure Edge where
  src : Nat
  dst : Nat
  sum : PathSum
  deriving DecidableEq, Repr

/-- Every kept summary followed by every edge (R296). -/
def extendOnce (es : List Edge) (ps : List PairSum) : List PairSum :=
  ps.foldl (fun acc x =>
    (es.filter fun e => e.src = x.dst).foldl (fun acc e =>
      x.sums.foldl (fun acc p =>
        match p.comp e.sum with
        | some q => addSum acc x.src e.dst q
        | none => acc) acc) acc) ps

/-- The summaries of the paths of one edge or more, so many rounds of extension. -/
def extendAll (es : List Edge) : Nat → List PairSum → List PairSum
  | 0, ps => ps
  | n + 1, ps => extendAll es n (extendOnce es ps)

/-- The summaries of the nonempty paths: a path that repeats a node is at or above one that does not, where every cycle
rises, so as many rounds as there are nodes find them all. -/
def pathsOf (es : List Edge) (nn : Nat) : List PairSum :=
  extendAll es nn (es.foldl (fun ps e => addSum ps e.src e.dst e.sum) [])

/-- The closure with the empty paths (R296). (DEDUCED, log 21.) -/
def closureOf (paths : List PairSum) (depths : List Nat) : List PairSum :=
  (List.range depths.length).foldl (fun ps n => addSum ps n n (PathSum.identity (depths.getD n 1))) paths

/-- Whether an edge lies on a cycle that does not map every stamp of its node strictly above itself (R296).
(DEDUCED, log 21.) -/
def onBadCycle (cl : List PairSum) (e : Edge) : Bool :=
  (sumsOf cl e.dst e.src).any fun p =>
    match e.sum.comp p with
    | some q => !q.strict
    | none => false

/-! Images. -/

/-- What a summary image holds (R294). -/
structure SummImage where
  depths : List Nat
  sums   : List PairSum
  deriving DecidableEq, Repr

/-- The bytes of an image with so many nodes and edges (R294). -/
def imageSize (nn ne : Nat) : Nat := 0x40 + 16 * ceilDiv nn 16 + 16 * ne

/-- The header of an image, if it is valid (R294): nn and ne. -/
def imageHeader (bs : List Byte) : Option (Nat × Nat) :=
  let w := ofBytes (bs.take 8)
  let nn := bits w 0 16
  let ne := bits w 16 16
  if bits w 32 32 = 0 && 1 ≤ nn && nn ≤ 1024 && ne ≤ 4096 && ((bs.take 0x40).drop 8).all (· = 0) then some (nn, ne)
  else none

/-- The loads of 8 bytes that an image takes after its header, as that says. -/
def imageLoads (hdr : List Byte) : Nat :=
  match imageHeader hdr with
  | some (nn, ne) => (imageSize nn ne - 0x40) / 8
  | none => 0

/-- Edge x of an image, if it is valid (R294, R295). -/
def imageEdge (bs : List Byte) (depths : List Nat) (base : Nat) : Option Edge :=
  let w := ofBytes ((bs.drop base).take 8)
  let a := ofBytes ((bs.drop (base + 8)).take 8)
  let src := bits w 0 10
  let dst := bits w 16 10
  let shape := bits w 26 2
  let d := depths.getD src 0
  let adds := (List.range 4).map fun i => bits a (16 * i) 15
  let reserved := bits w 10 6 = 0 && bits w 28 36 = 0 && (List.range 4).all fun i => !bit a (16 * i + 15)
  let dd := depths.getD dst 0
  let shapeOk := match shape with
    | 0 => dd = d
    | 1 => dd = d + 1
    | 2 => dd + 1 = d
    | _ => false
  if reserved && src < depths.length && dst < depths.length && shapeOk && (adds.drop d).all (· = 0) then
    some { src := src, dst := dst,
           sum := { adds := adds.take d, keep := if shape = 2 then d - 1 else d, tail := if shape = 1 then [0] else [] } }
  else none

/-- The edges of an image, or the offset of the first that is not valid. -/
def imageEdges (bs : List Byte) (depths : List Nat) : Nat → Nat → Except Nat (List Edge)
  | 0, _ => .ok []
  | n + 1, base =>
    match imageEdge bs depths base with
    | none => .error base
    | some e =>
      match imageEdges bs depths n (base + 16) with
      | .error o => .error o
      | .ok es => .ok (e :: es)

/-- The first depth byte that is not valid: a reserved bit, node 0 of another depth than 1, or another depth than the
node already has (R294 to R296). -/
def badDepth (bytes : List Byte) (declared : List Nat) : Option Nat :=
  (List.range bytes.length).find? fun i =>
    let b := (bytes.getD i 0).toNat
    4 ≤ b || (i = 0 && b != 0) || (i < declared.length && declared.getD i 0 != b + 1)

/-- An image checked (R294 to R296): what it holds, or the offset that a refusal names; which edge of a bad cycle it
names is the implementation's choice. -/
def readImage (bs : List Byte) (nn ne : Nat) (declared : List Nat) (choice : Nat) : Except Nat SummImage :=
  let dbytes := (bs.drop 0x40).take nn
  let ebase := 0x40 + 16 * ceilDiv nn 16
  if nn < declared.length then .error 0
  else
    match badDepth dbytes declared with
    | some i => .error (0x40 + i)
    | none =>
      let depths := dbytes.map fun b => b.toNat + 1
      match imageEdges bs depths ne ebase with
      | .error o => .error o
      | .ok es =>
        let cl := closureOf (pathsOf es nn) depths
        let bad := (List.range ne).filter fun x => match es[x]? with
          | some e => onBadCycle cl e
          | none => false
        if !bad.isEmpty then .error (ebase + 16 * bad.getD (choice % bad.length) 0)
        else if cl.any fun p => 8 < p.sums.length then .error 0
        else .ok { depths := depths, sums := cl }

/-! Contexts and their floors. -/

/-- Whether a node is declared, and its depth (R293). -/
def Context.declares (c : Context) (n : Nat) : Bool := n < c.nodes.length
def Context.depthOf (c : Context) (n : Nat) : Nat := c.nodes.getD n 0

/-- Whether a stamp is valid for a node (R291, R292). -/
def Context.accepts (c : Context) (n : Nat) (s : Dword) : Bool := stampValid s && stampDepth s = c.depthOf n

/-- summary(m → n)(t): the least of the kept summaries, or ⊤ (R296). -/
def summaryIn (ps : List PairSum) (m n : Nat) (t : Dword) : Floor :=
  (sumsOf ps m n).foldl (fun f p => f.min (p.apply t)) .top

/-- The zero stamp of a depth (R290). -/
def zeroStamp (d : Nat) : Dword := stampOf (List.replicate d 0)

/-- The outstanding pairs of a context at the root, its input hold included (R300, R304). -/
def outstanding (m : Mach) (ctx : Nat) (c : Context) : List (Nat × Dword) :=
  ((m.root.filter fun x => x.ctx = ctx).map fun x => (x.node, x.stamp)) ++ c.input.toList

/-- The floor of a node in a snapshot (R304). -/
def floorOf (ps : List PairSum) (out : List (Nat × Dword)) (n : Nat) : Floor :=
  out.foldl (fun f p => f.min (summaryIn ps p.1 n p.2)) .top

/-- The announced floor of a node at the root; a node starts at its zero stamp (R304). -/
def Context.floorAt (c : Context) (n : Nat) : Floor := (c.floors[n]?).getD (.at_ (zeroStamp (c.depthOf n)))

/-- A cluster's copy of a node's floor (R304). (DEDUCED, log 19.) -/
def Context.floorCopy (c : Context) (cluster n : Nat) : Floor :=
  (((aget c.copies cluster).bind fun l => l[n]?)).getD (.at_ (zeroStamp (c.depthOf n)))

/-- Whether a floor is above a stamp. -/
def Floor.above (f : Floor) (s : Dword) : Bool := !f.le s

/-- Whether a floor is strictly below another. -/
def Floor.ltF (a b : Floor) : Bool := !b.leF a

/-- What justifies the takes of a group (R299): its own count; the walk it serves; its running tasks. -/
def justifiers (m : Mach) (g : Group) : List (Nat × Dword) :=
  if g.own then [(g.node, g.stamp)]
  else
    match g.serving.bind (aget m.summons ·), g.kind with
    | some s, _ =>
      match aget m.walks s.walk with
      | some w => [(w.wrec.node, w.wrec.stamp)]
      | none => []
    | none, .task =>
      match aget m.ctxs g.ctx with
      | some c => g.tasks.filterMap fun t => (aget c.pool t.2).map fun r => (r.node, r.stamp)
      | none => []
    | none, _ => []

/-- Whether a take at (n, t) is justified (R299). -/
def justified (m : Mach) (g : Group) (n : Nat) (t : Dword) : Bool :=
  match aget m.ctxs g.ctx with
  | none => false
  | some c => (justifiers m g).any fun j => (summaryIn c.sums j.1 n j.2).le t

end Sys2Proof.Machine
end

