-- ==== Sys2Proof/Machine/Time.lean ====
section
/-! DEFINITION. The instructions and events of stamps, nodes and frontiers (R301 to R309). -/

namespace Sys2Proof.Machine

/-! Stamp arithmetic (R306). -/

/-- An instruction that computes a stamp from sa, or traps. -/
def stampStep (s : State) (func : Nat) (sd sa : Sreg) (f : Group → Except Cause Dword) :
    Host.Outcome State Fault Refusal :=
  groupStep s fun gid g =>
    if !stampValid (g.s sa) then scalarTrap s.m gid .invalidStamp
    else
      match f g with
      | .error c => scalarTrap s.m gid c
      | .ok x => retire s.m gid (g.setS sd x) (scalarCode 0x25 func)

/-- STAMP.GET (R306). -/
def execStampGet (sd sa sb : Sreg) (s : State) : Host.Outcome State Fault Refusal :=
  stampStep s 0x01 sd sa fun g =>
    let i := (g.s sb).toNat
    if 3 < i then .error .operandRange
    else .ok (BitVec.ofNat 64 (if i < stampDepth (g.s sa) then stampCounter (g.s sa) i else 0))

/-- A stamp with its innermost counter increased, if it fits (R306). -/
def stampInc (t : Dword) (n : Nat) : Except Cause Dword :=
  let cs := stampCounters t
  let last := stampDepth t - 1
  if counterMax < n then .error .operandRange
  else if counterMax < cs.getD last 0 + n then .error .stampOverflow
  else .ok (stampOf (update cs last (· + n)))

/-- STAMP.INC (R306). -/
def execStampInc (sd sa sb : Sreg) (s : State) : Host.Outcome State Fault Refusal :=
  stampStep s 0x02 sd sa fun g => stampInc (g.s sa) (g.s sb).toNat

/-- STAMP.ENTER (R306). -/
def execStampEnter (sd sa : Sreg) (s : State) : Host.Outcome State Fault Refusal :=
  stampStep s 0x03 sd sa fun g =>
    if stampDepth (g.s sa) = 4 then .error .stampOverflow else .ok (stampOf (stampCounters (g.s sa) ++ [0]))

/-- STAMP.LEAVE (R306). -/
def execStampLeave (sd sa : Sreg) (s : State) : Host.Outcome State Fault Refusal :=
  stampStep s 0x04 sd sa fun g =>
    if stampDepth (g.s sa) = 1 then .error .operandRange
    else .ok (stampOf ((stampCounters (g.s sa)).take (stampDepth (g.s sa) - 1)))

/-! Checks of a node and a stamp (R292, R293, R308). -/

/-- The node and stamp of two registers, checked; or the trap. -/
def nodeStamp (c : Context) (a b : Dword) : Except Cause (Nat × Dword) :=
  if 2 ^ 10 ≤ a.toNat || !c.declares a.toNat then .error .undeclaredNode
  else if !c.accepts a.toNat b then .error .invalidStamp
  else .ok (a.toNat, b)

/-- An instruction that names a node and a stamp. -/
def nodeStep (s : State) (sa sb : Sreg) (before : Group → Option Cause)
    (f : Nat → Group → Context → Nat → Dword → Mach) : Host.Outcome State Fault Refusal :=
  groupStep s fun gid g =>
    match before g, aget s.m.ctxs g.ctx with
    | some c, _ => scalarTrap s.m gid c
    | none, none => s.m
    | none, some c =>
      match nodeStamp c (g.s sa) (g.s sb) with
      | .error e => scalarTrap s.m gid e
      | .ok (n, t) => f gid g c n t

/-- What STAMP.SET checks before its operands (R307). -/
def setBefore (g : Group) : Option Cause :=
  if 0 < g.depth then some .publishInRegion
  else if g.serving.isSome || g.kind = .task then some .handlerState
  else none

/-- The group's own count moved: the new one is recorded ahead of the old one's drop (R302, R307). -/
def moveCount (m : Mach) (gid : Nat) (g : Group) (n : Nat) (t : Dword) : Mach :=
  let unit := clusterOf g.core
  let m1 := dropAt (countAt m unit g.ctx n t 1) unit g.ctx g.node g.stamp
  retire m1 gid { g with node := n, stamp := t } (scalarCode 0x25 0x00)

/-- STAMP.SET (R307): a group without an own count justifies nothing (R299). -/
def execStampSet (sa sb : Sreg) (s : State) : Host.Outcome State Fault Refusal :=
  nodeStep s sa sb setBefore fun gid g c n t =>
    if !g.own || !(summaryIn c.sums g.node n g.stamp).le t then scalarTrap s.m gid .stampRegress
    else if n = g.node && t = g.stamp then retire s.m gid g (scalarCode 0x25 0x00)
    else
      awaitLanes s.m gid g fun _ =>
        if rootHasRoom s.m g.ctx n t then moveCount s.m gid g n t else wait s.m gid g

/-- Whether a group's own count would hold a floor at or below a stamp (R308). -/
def selfWait (c : Context) (g : Group) (n : Nat) (t : Dword) : Bool :=
  g.own && (summaryIn c.sums g.node n g.stamp).le t

/-- FRONT.WAIT (R308). -/
def execFrontWait (sa sb : Sreg) (s : State) : Host.Outcome State Fault Refusal :=
  nodeStep s sa sb (fun _ => none) fun gid g c n t =>
    if selfWait c g n t then scalarTrap s.m gid .frontierSelfWait
    else if (c.floorCopy (clusterOf g.core) n).above t then
      retire (acquireAt s.m g .dev) gid g (scalarCode 0x25 0x08)
    else wait s.m gid g

/-- FRONT.TEST (R308). -/
def execFrontTest (sd sa sb : Sreg) (s : State) : Host.Outcome State Fault Refusal :=
  nodeStep s sa sb (fun _ => none) fun gid g c n t =>
    let up := (c.floorCopy (clusterOf g.core) n).above t
    retire (if up then acquireAt s.m g .dev else s.m) gid (g.setS sd (if up then 1 else 0)) (scalarCode 0x25 0x09)

/-- The free indexes of a context's table of holds (R309). -/
def Context.freeHolds (c : Context) : List Nat :=
  (List.range c.holds.length).filter fun i => ((c.holds[i]?).map fun h => h.pair.isNone).getD false

/-- A hold's handle (R309). -/
def holdHandle (gen i : Nat) : Dword := BitVec.ofNat 64 (gen % 2 ^ 24 * 256 + i)

/-- FRONT.HOLD (R309): which free index it takes is the implementation's choice. -/
def execFrontHold (sd sa sb : Sreg) (s : State) : Host.Outcome State Fault Refusal :=
  nodeStep s sa sb (fun g => if 0 < g.depth then some .publishInRegion else none) fun gid g c n t =>
    let frees := c.freeHolds
    if !justified s.m g n t then scalarTrap s.m gid .stampRegress
    else if frees.isEmpty then scalarTrap s.m gid .holdLimit
    else if !rootHasRoom s.m g.ctx n t then wait s.m gid g
    else
      let i := frees.getD (s.m.pick frees.length) 0
      let gen := ((c.holds[i]?).map Hold.gen).getD 0
      let c1 := { c with holds := c.holds.set i { gen := gen, pair := some (n, t) } }
      let m1 := takeHere (s.m.setCtx g.ctx c1) g n t
      retire m1.bump gid (g.setS sd (holdHandle gen i)) (scalarCode 0x25 0x0A)

/-- The hold that a handle names: its index and pair (R309). -/
def Context.holdOf (c : Context) (h : Nat) : Option (Nat × Nat × Dword) :=
  match c.holds[h % 256]? with
  | some x =>
    match x.pair with
    | some (n, t) => if x.gen = h / 256 then some (h % 256, n, t) else none
    | none => none
  | none => none

/-- A hold's index freed, its generation moved on (R309). -/
def Context.freeHold (c : Context) (i : Nat) : Context :=
  { c with holds := update c.holds i fun h => { gen := (h.gen + 1) % 2 ^ 24, pair := none } }

/-- FRONT.DROP (R309). -/
def execFrontDrop (sa : Sreg) (s : State) : Host.Outcome State Fault Refusal :=
  groupStep s fun gid g =>
    let h := (g.s sa).toNat
    match aget s.m.ctxs g.ctx with
    | none => s.m
    | some c =>
      if 0 < g.depth then scalarTrap s.m gid .publishInRegion
      else if 2 ^ 32 ≤ h then scalarTrap s.m gid .operandRange
      else
        match c.holdOf h with
        | none => scalarTrap s.m gid .holdHandle
        | some (i, n, t) =>
          awaitLanes s.m gid g fun _ =>
            retire (dropAt (s.m.setCtx g.ctx (c.freeHold i)) (clusterOf g.core) g.ctx n t) gid g (scalarCode 0x25 0x0B)

/-! Summary images (R297). -/

/-- Whether some floor already announced would be passed under new summaries (R297). -/
def regresses (m : Mach) (ctx : Nat) (c : Context) (i : SummImage) : Bool :=
  (outstanding m ctx c).any fun p =>
    (List.range i.depths.length).any fun n =>
      (summaryIn i.sums p.1 n p.2).ltF (if n < c.nodes.length then c.floorAt n else .at_ (zeroStamp (i.depths.getD n 1)))

/-- A context with an image installed; the floors of new nodes start at their zero stamps (R297, R304). -/
def Context.install (c : Context) (i : SummImage) : Context :=
  let fresh := (i.depths.drop c.floors.length).map fun d => Floor.at_ (zeroStamp d)
  { c with nodes := i.depths, sums := i.sums, floors := c.floors ++ fresh }

/-- An image that was read is checked and installed, or refused (R296, R297). -/
def loadImage (m : Mach) (gid : Nat) (g : Group) (c : Context) (base : Dword) (bs : List Byte) (nn ne : Nat) : Mach :=
  match readImage bs nn ne c.nodes (Config.choice m.free) with
  | .error off => scalarTrapAt m gid .summaryImage (base + BitVec.ofNat 64 off)
  | .ok i =>
    let m1 := flushAll m
    if regresses m1 g.ctx c i then scalarTrap m gid .summaryRegress
    else retire (m1.setCtx g.ctx (((aget m1.ctxs g.ctx).getD c).install i)).bump gid g (scalarCode 0x25 0x10)

/-- SUMM.LD (R297). -/
def execSummLd (sa : Sreg) (s : State) : Host.Outcome State Fault Refusal :=
  groupStep s fun gid g =>
    let base := g.s sa
    match aget s.m.ctxs g.ctx with
    | none => s.m
    | some c =>
      if 0 < g.depth then scalarTrap s.m gid .publishInRegion
      else if base.toNat % 64 != 0 then scalarTrapAt s.m gid .misaligned base
      else
        onGot gid (recordLoadMore gid g 8 imageLoads s.m base.toNat) fun m1 bs =>
          match imageHeader bs with
          | none => scalarTrapAt m1 gid .summaryImage base
          | some (nn, ne) => loadImage m1 gid g c base bs nn ne

/-! The events of counts and floors (R301 to R304). -/

/-- COUNT_BATCH_SEND (R301): units 0 to 127 are the clusters' count units, 128 to 135 the dies' aggregators. -/
def execCountBatchSend (unit : Nat) (s : State) : Host.Outcome State Fault Refusal :=
  event s fun m => if unit < 128 then sendUnit m unit else if unit < 136 then sendDie m (unit - 128) else m

/-- SNAPSHOT_START (R303): markers go out, and every delta is on its way to the root ahead of them. -/
def execSnapshotStart (ctx : Nat) (s : State) : Host.Outcome State Fault Refusal :=
  event s fun m =>
    match aget m.ctxs ctx with
    | none => m
    | some c => m.setCtx ctx { c with snap := true }

/-- The floors that a snapshot announces: each at or above the one before (R304). (DEDUCED, log 19.) -/
def newFloors (c : Context) (out : List (Nat × Dword)) : List Floor :=
  (List.range c.nodes.length).map fun n =>
    let f := floorOf c.sums out n
    if (c.floorAt n).leF f then f else c.floorAt n

/-- The floors sent down to every cluster but those whose copies lag (R304). (DEDUCED, log 19.) -/
def sendFloors (copies : AMap (List Floor)) (fl : List Floor) (lagging : List Nat) : AMap (List Floor) :=
  (List.range 128).foldl (fun cs k => if lagging.contains k then cs else aput cs k fl) copies

/-- FLOOR_ANNOUNCE (R303, R304): every marker has returned and every delta ahead of one has been applied; floors that a
lost cluster or a lost context froze do not rise (R311, R364). (DEDUCED, log 19.) -/
def execFloorAnnounce (ctx : Nat) (lagging : List Nat) (s : State) : Host.Outcome State Fault Refusal :=
  event s fun m =>
    match aget m.ctxs ctx with
    | none => m
    | some c =>
      if !c.snap then m
      else
        let m1 := flushAll m
        let fl := if c.frozen || c.st = .lost then c.floors else newFloors c (outstanding m1 ctx c)
        m1.setCtx ctx { (aget m1.ctxs ctx).getD c with snap := false, floors := fl, copies := sendFloors c.copies fl lagging }

end Sys2Proof.Machine
end

