-- ==== Sys2Proof/Machine/Task.lean ====
section
/-! DEFINITION. The task instructions and the gatherer (R313 to R320). -/

namespace Sys2Proof.Machine

/-! The pool. -/

/-- A record of a pool as it stands before its first use (R315). -/
def TaskRec.fresh : TaskRec :=
  { gen := 1, st := none, c := 0, node := 0, stamp := 0, kern := 0, entry := 0, solo := false, payload := [], succs := [],
    die := 0, order := 0 }

/-- A record of a context's pool. -/
def Context.task (c : Context) (i : Nat) : TaskRec := (aget c.pool i).getD TaskRec.fresh

/-- A context with a record of its pool changed. -/
def Context.setTask (c : Context) (i : Nat) (r : TaskRec) : Context := { c with pool := aput c.pool i r }

/-- A task's handle (R315). -/
def taskHandle (gen i : Nat) : Dword := BitVec.ofNat 64 (gen * 2 ^ 40 + i)

/-- The record that a handle names, unless it is stale (R315). -/
def Context.named (c : Context) (h : Dword) : Option (Nat × TaskRec) :=
  let i := bits h.toNat 0 40
  let r := c.task i
  if i < c.desc.poolsize && r.st.isSome && r.gen = bits h.toNat 40 24 then some (i, r) else none

/-- The generation after a record is freed: 0 is skipped (R315). -/
def nextGen (gen : Nat) : Nat := if (gen + 1) % 2 ^ 24 = 0 then 1 else (gen + 1) % 2 ^ 24

/-- A Free record, searched for from a place upward. -/
def Context.freeFrom (c : Context) : Nat → Nat → Option Nat
  | 0, _ => none
  | n + 1, i => if (c.task i).st.isNone then some i else c.freeFrom n ((i + 1) % c.desc.poolsize)

/-- The Free record that the implementation chooses: any of them, as its search may start anywhere (R315). -/
def freeRecord (m : Mach) (c : Context) : Option Nat :=
  if c.desc.poolsize = 0 then none else c.freeFrom (min c.desc.poolsize (c.pool.length + 1)) (m.pick c.desc.poolsize)

/-! Packets (R313, R314). -/

/-- A task packet as read. -/
structure TaskPacket where
  entry   : Nat
  node    : Nat
  stamp   : Dword
  solo    : Bool
  nsucc   : Nat
  len     : Nat
  reserved : Bool
  payload : List Word
  succs   : List Dword
  deriving DecidableEq, Repr

/-- The length field of a packet's header. -/
def packetLen (hdr : List Byte) : Nat := bits (ofBytes (hdr.take 8)) 0 5

/-- A packet from its bytes (R313). -/
def TaskPacket.ofBytes (bs : List Byte) : TaskPacket :=
  let w := Machine.ofBytes (bs.take 8)
  let nsucc := bits w 8 3
  let rest := bs.drop 16
  let p := rest.length - 8 * nsucc
  { entry := bits w 32 32, node := bits w 22 10, stamp := BitVec.ofNat 64 (Machine.ofBytes ((bs.drop 8).take 8)),
    solo := bit w 12, nsucc := nsucc, len := bits w 0 5,
    reserved := bits w 16 6 != 0 || bits w 13 3 != 0 || bit w 11 || bits w 5 3 != 0,
    payload := (List.range (p / 4)).map fun i => BitVec.ofNat 32 (Machine.ofBytes ((rest.drop (4 * i)).take 4)),
    succs := (List.range nsucc).map fun i => BitVec.ofNat 64 (Machine.ofBytes ((rest.drop (p + 8 * i)).take 8)) }

/-- Whether a packet is valid for a kernel (R314). -/
def TaskPacket.valid (p : TaskPacket) (c : Context) (r : LaunchRec) : Bool :=
  !p.reserved && 2 ≤ p.len && p.len ≤ 16 && p.nsucc ≤ 4 && 16 + 8 * p.nsucc ≤ 16 * p.len && p.entry % 4 = 0
    && p.entry < r.slen && c.declares p.node && c.accepts p.node p.stamp && p.payload.length ≤ 8 * r.regs

/-- The loads of 8 bytes that a packet takes after its header, as that says. -/
def packetLoads (hdr : List Byte) : Nat :=
  let n := packetLen hdr
  if n < 2 || 16 < n then 0 else 2 * (n - 1)

/-- A packet read as relaxed .dev loads (R318): its header first, and the rest as long as the header says. -/
def readPacket (m : Mach) (gid : Nat) (g : Group) (va : Nat) : Got TaskPacket :=
  match recordLoadMore gid g 2 packetLoads m va with
  | .trap m1 c a => .trap m1 c a
  | .hold m1 => .hold m1
  | .done m1 bs => .done m1 (TaskPacket.ofBytes bs)

/-- Whether a group's task record may be written: what a QFENCE orders before its tasks is performed (R186, R202). -/
def Group.mayPublish (g : Group) (m : Mach) : Bool := (g.orderedAfter 4).all (EngineEntry.performed m)

/-- A record with a packet copied into it (R316). -/
def TaskRec.copy (r : TaskRec) (p : TaskPacket) : TaskRec :=
  { r with node := p.node, stamp := p.stamp, entry := p.entry, solo := p.solo, payload := p.payload, succs := p.succs }

/-- A record made ready by a core: it joins the gatherer of that core's die, after those already there (R320). -/
def TaskRec.ready (r : TaskRec) (m : Mach) (core : Nat) : TaskRec :=
  { r with st := some .ready, c := 0, die := dieOf core, order := m.nextId }

/-- A machine with a task record changed. -/
def setTask (m : Mach) (ctx i : Nat) (r : TaskRec) : Mach :=
  match aget m.ctxs ctx with
  | none => m
  | some c => { m.setCtx ctx (c.setTask i r) with nextId := m.nextId + 1 }

/-- A task's count taken, and applied at the root (R317). -/
def takeApplied (m : Mach) (g : Group) (n : Nat) (t : Dword) : Mach :=
  flushUnit (countAt m (clusterOf g.core) g.ctx n t 1) (clusterOf g.core)

/-- The fold code of a task instruction. -/
def taskCode (func : Nat) : Dword := scalarCode 0x24 func

/-- A task instruction of a group: inside an open region it traps (R318). -/
def taskStep (s : State) (f : Nat → Group → Context → Mach) : Host.Outcome State Fault Refusal :=
  groupStep s fun gid g =>
    match aget s.m.ctxs g.ctx with
    | none => s.m
    | some c => if 0 < g.depth then scalarTrap s.m gid .publishInRegion else f gid g c

/-- Whether the operand word of TASK.ALLOC is in range (R318). -/
def allocOperand (a : Nat) : Bool := bits a 42 22 = 0 && bits a 24 8 = 0 && bits a 0 24 ≤ 0xFFFFFE

/-- A task record taken by TASK.ALLOC (R316). -/
def allocate (m : Mach) (gid : Nat) (g : Group) (c : Context) (sd : Sreg) (n : Nat) (t : Dword) (k : Nat) : Mach :=
  match freeRecord m c with
  | none => scalarTrap m gid .taskPool
  | some i =>
    if !rootHasRoom m g.ctx n t then wait m gid g
    else
      let r := { c.task i with st := some .unpublished, c := k + 1, node := n, stamp := t, kern := g.kern }
      retire (takeApplied (setTask m g.ctx i r) g n t).bump gid (g.setS sd (taskHandle r.gen i)) (taskCode 0)

/-- TASK.ALLOC (R318). -/
def execTaskAlloc (sd sa sb : Sreg) (s : State) : Host.Outcome State Fault Refusal :=
  taskStep s fun gid g c =>
    let a := (g.s sa).toNat
    if !allocOperand a then scalarTrap s.m gid .operandRange
    else
      match nodeStamp c (BitVec.ofNat 64 (bits a 32 10)) (g.s sb) with
      | .error e => scalarTrap s.m gid e
      | .ok (n, t) =>
        if !justified s.m g n t then scalarTrap s.m gid .stampRegress
        else allocate s.m gid g c sd n t (bits a 0 24)

/-- A packet published into an allocated record: the publisher's hold is dropped (R316). -/
def publishTask (m : Mach) (gid : Nat) (g : Group) (i : Nat) (r : TaskRec) (p : TaskPacket) : Mach :=
  if !g.mayPublish m then wait m gid g
  else
    let r1 := r.copy p
    let r2 := if r1.c = 1 then r1.ready m g.core else { r1 with st := some .published, c := r1.c - 1 }
    retire (setTask m g.ctx i r2) gid g (taskCode 1)

/-- TASK.PUB (R318). -/
def execTaskPub (sa sb : Sreg) (s : State) : Host.Outcome State Fault Refusal :=
  taskStep s fun gid g c =>
    if (g.s sb).toNat % 16 != 0 then scalarTrapAt s.m gid .misaligned (g.s sb)
    else
      match c.named (g.s sa) with
      | none => scalarTrapAt s.m gid .staleHandle (g.s sa)
      | some (i, r) =>
        if r.st != some .unpublished then scalarTrap s.m gid .taskState
        else
          onGot gid (readPacket s.m gid g (g.s sb).toNat) fun m p =>
            let ok := match aget m.kerns r.kern with
              | some k => p.valid c k.lrec && p.node = r.node && p.stamp = r.stamp
              | none => false
            if ok then publishTask m gid g i r p else scalarTrap m gid .taskPacket

/-- A record after one signal made by a core, or why the signal fails (R316). -/
def TaskRec.signal (r : TaskRec) (m : Mach) (core : Nat) : Except Cause TaskRec :=
  match r.st with
  | some .unpublished => if 1 < r.c then .ok { r with c := r.c - 1 } else .error .overSignal
  | some .published => .ok (if 1 < r.c then { r with c := r.c - 1 } else r.ready m core)
  | _ => .error .overSignal

/-- One signal to the task that a handle names (R316). -/
def signalTask (m : Mach) (ctx core : Nat) (h : Dword) : Except Cause Mach :=
  match aget m.ctxs ctx with
  | none => .error .staleHandle
  | some c =>
    match c.named h with
    | none => .error .staleHandle
    | some (i, r) =>
      match r.signal m core with
      | .error e => .error e
      | .ok r1 => .ok (setTask m ctx i r1)

/-- TASK.SIG (R318). -/
def execTaskSig (sa : Sreg) (s : State) : Host.Outcome State Fault Refusal :=
  taskStep s fun gid g _ =>
    match signalTask s.m g.ctx g.core (g.s sa) with
    | .error .staleHandle => scalarTrapAt s.m gid .staleHandle (g.s sa)
    | .error e => scalarTrap s.m gid e
    | .ok m => retire m gid g (taskCode 2)

/-- A ready task made from a packet (R316). -/
def spawnTask (m : Mach) (gid : Nat) (g : Group) (c : Context) (sd : Sreg) (p : TaskPacket) : Mach :=
  match freeRecord m c with
  | none => scalarTrap m gid .taskPool
  | some i =>
    if !g.mayPublish m || !rootHasRoom m g.ctx p.node p.stamp then wait m gid g
    else
      let r := ({ c.task i with kern := g.kern }.copy p).ready m g.core
      retire (takeApplied (setTask m g.ctx i r) g p.node p.stamp).bump gid (g.setS sd (taskHandle r.gen i)) (taskCode 3)

/-- TASK.SPAWN (R318). -/
def execTaskSpawn (sd sa : Sreg) (s : State) : Host.Outcome State Fault Refusal :=
  taskStep s fun gid g c =>
    if (g.s sa).toNat % 16 != 0 then scalarTrapAt s.m gid .misaligned (g.s sa)
    else
      onGot gid (readPacket s.m gid g (g.s sa).toNat) fun m p =>
        let ok := match aget m.kerns g.kern with
          | some k => p.valid c k.lrec
          | none => false
        if !ok then scalarTrap m gid .taskPacket
        else if !justified m g p.node p.stamp then scalarTrap m gid .stampRegress
        else spawnTask m gid g c sd p

/-! TASK.EXIT (R319). -/

/-- The successors of a task signalled, with the first failure. -/
def signalAll (ctx core : Nat) : List Dword → Mach × Option (Cause × Dword) → Mach × Option (Cause × Dword)
  | [], x => x
  | h :: r, (m, bad) =>
    match signalTask m ctx core h with
    | .ok m1 => signalAll ctx core r (m1, bad)
    | .error e => signalAll ctx core r (m, bad.orElse fun _ => some (e, h))

/-- A record freed (R315). -/
def TaskRec.free (r : TaskRec) : TaskRec := { TaskRec.fresh with gen := nextGen r.gen }

/-- The tasks of the lanes named end, lowest lane first: successors are signalled, the count is dropped and the record is
freed. -/
def endTasks (g : Group) : List (Nat × Nat) → Mach × Option (Cause × Dword) → Mach × Option (Cause × Dword)
  | [], x => x
  | (_, i) :: rest, (m, bad) =>
    match aget m.ctxs g.ctx with
    | none => endTasks g rest (m, bad)
    | some c =>
      let t := c.task i
      let (m1, bad1) := signalAll g.ctx g.core t.succs (m, bad)
      let m2 := dropAt m1 (clusterOf g.core) g.ctx t.node t.stamp
      endTasks g rest (setTask m2 g.ctx i t.free, bad1)

/-- The least of some stamps of one depth. -/
def leastStamp : List Dword → Option Dword
  | [] => none
  | s :: r => some (r.foldl (fun a b => if stampLe a b then a else b) s)

/-- The tasks of the named lanes ended, and the instruction completed (R319): a signal that failed traps after it. -/
def exitTasks (m : Mach) (gid : Nat) (g : Group) (c : Context) (mask : Nat) : Mach :=
  let named := g.tasks.filter fun t => bit mask t.1
  let kept := g.tasks.filter fun t => !bit mask t.1
  let (m1, bad) := endTasks g named (m, none)
  let stamp := (leastStamp (kept.map fun t => (c.task t.2).stamp)).getD g.stamp
  let m2 := retire (progress m1 g.ctx) gid { g with tasks := kept, stamp := stamp } (taskCode 4)
  match bad with
  | none => m2
  | some (e, h) => scalarTrapTo m2 gid e 0 h (g.spc + 4)

/-- TASK.EXIT (R319). -/
def execTaskExit (sa : Sreg) (s : State) : Host.Outcome State Fault Refusal :=
  taskStep s fun gid g c =>
    if g.kind != .task then scalarTrap s.m gid .taskState
    else if 2 ^ 32 ≤ (g.s sa).toNat then scalarTrap s.m gid .operandRange
    else awaitLanes s.m gid g fun _ => exitTasks s.m gid g c (g.s sa).toNat

/-! The gatherer (R320). -/

/-- A ready task at a gatherer: its context, its record's index and the record. -/
structure ReadyTask where
  ctx : Nat
  ix  : Nat
  r   : TaskRec
  deriving DecidableEq, Repr

/-- The ready tasks of a die's gatherer. -/
def readyTasks (m : Mach) (die : Nat) : List ReadyTask :=
  m.ctxs.flatMap fun kc =>
    (kc.2.pool.filter fun t => t.2.st = some .ready && t.2.die = die).map fun t => { ctx := kc.1, ix := t.1, r := t.2 }

/-- Whether two ready tasks may be gathered together, or are one. -/
def ReadyTask.with (a b : ReadyTask) : Bool :=
  (a.ctx = b.ctx && a.ix = b.ix)
    || (a.ctx = b.ctx && a.r.kern = b.r.kern && a.r.entry = b.r.entry && a.r.node = b.r.node && !a.r.solo && !b.r.solo)

/-- A task inserted into a list in the order in which tasks became ready. -/
def insertReady (t : ReadyTask) : List ReadyTask → List ReadyTask
  | [] => [t]
  | u :: r => if t.r.order ≤ u.r.order then t :: u :: r else u :: insertReady t r

/-- The tasks that would be emitted with one, in the order in which they became ready, at most 32. -/
def gatheredWith (all : List ReadyTask) (t : ReadyTask) : List ReadyTask :=
  ((all.filter t.with).foldr insertReady []).take 32

/-- Whether a batch is emitted: it is full, or solo, or its oldest task has waited 256 cycles. -/
def emits (late : Bool) (b : List ReadyTask) : Bool := late || b.length = 32 || b.any fun t => t.r.solo

/-- The lanes of a batch. -/
def numbered (b : List ReadyTask) : List (Nat × ReadyTask) := (List.range b.length).zip b

/-- A task group with its tasks' lanes filled (R320). -/
def Group.startTasks (g : Group) (r : LaunchRec) (b : List ReadyTask) : Group :=
  let lanes := numbered b
  let mask : Dword := BitVec.ofNat 64 (2 ^ b.length - 1)
  let entry := ((b.head?).map fun t => t.r.entry).getD 0
  let node := ((b.head?).map fun t => t.r.node).getD 0
  let v := lanes.foldl (fun v x =>
    ((List.range x.2.r.payload.length).foldl (fun v n => putV v (n * 128 + x.1) (x.2.r.payload.getD n 0)) v)) g.v
  { (g.setS 1 mask).setS 61 mask with
    spc := r.sbase + BitVec.ofNat 64 entry, v := v, node := node,
    stamp := (leastStamp (b.map fun t => t.r.stamp)).getD 0, tasks := lanes.map fun x => (x.1, x.2.ix) }

/-- The batch's records Running. (DESIGN CHOICE, log 17; DEDUCED, log 53.) -/
def runTasks (m : Mach) (b : List ReadyTask) : Mach :=
  b.foldl (fun m t => setTask m t.ctx t.ix { t.r with st := some .running }) m

/-- TASK_GATHER (R320): a batch that is to be emitted starts as a group of its own team, where it fits on the die. -/
def execTaskGather (die : Nat) (late : Bool) (at_ : Slot) (s : State) : Host.Outcome State Fault Refusal :=
  event s fun m =>
    let all := readyTasks m die
    let heads := all.filter fun t => emits late (gatheredWith all t)
    match heads[m.pick heads.length]? with
    | none => m
    | some t =>
      match aget m.kerns t.r.kern, aget m.ctxs t.ctx with
      | some k, some c =>
        if c.st != .active || dieOf at_.core != die then m
        else
          let b := gatheredWith all t
          match admitOne m.bump t.ctx t.r.kern .task at_ 32 (8 * k.lrec.regs) k.lrec.reqfeat (some k.lrec) with
          | none => m
          | some (m1, gid, g) =>
            let g1 := g.startTasks k.lrec b
            acquireAt ((runTasks m1 b).setGrp gid g1) g1 .dev
      | _, _ => m

end Sys2Proof.Machine
end

