-- ==== Sys2Proof/Machine/Walk.lean ====
section
/-! DEFINITION. Walk records, tiles and armature slots (R258 to R263), the posting of a walk (R265), and the walk and
handler instructions (R271, R272, R276, R280, R281).
-/

namespace Sys2Proof.Machine

/-! Records (R258). -/

/-- A walk record from its 256 bytes. -/
def WalkRec.ofBytes (bs : List Byte) : WalkRec :=
  let w (o : Nat) : Nat := Machine.ofBytes ((bs.drop o).take 8)
  let f := w 0x18
  { m := bits (w 0) 0 32, n := bits (w 0) 32 32, k := bits (w 8) 0 32, g := bits (w 0x10) 48 16,
    tk := bits (w 0x10) 32 16, tn := bits (w 0x10) 16 16, tm := bits (w 0x10) 0 16, spmax := bits f 56 8,
    prio := bits f 48 2, width := bits f 40 8, pool := bits f 32 8, bswz := bits f 28 4, aswz := bits f 24 4,
    depth := bits f 20 4, pd := bits f 16 4, spawn := bit f 15, init := bit f 14, accfmt := bits f 12 2,
    bslot := bits f 8 3, aslot := bits f 4 3, cw := bits f 2 2, order := bits f 0 2, bent := bits (w 0x20) 32 32,
    aent := bits (w 0x20) 0 32, ient := bits (w 0x28) 32 32, dent := bits (w 0x28) 0 32,
    tag := BitVec.ofNat 32 (bits (w 0x30) 32 32), node := bits (w 0x30) 0 10, stamp := BitVec.ofNat 64 (w 0x38) }

/-- Whether every reserved field of a record is zero. -/
def walkReservedZero (bs : List Byte) : Bool :=
  let w (o : Nat) : Nat := Machine.ofBytes ((bs.drop o).take 8)
  bits (w 8) 32 32 = 0 && bits (w 0x18) 50 6 = 0 && !bit (w 0x18) 11 && !bit (w 0x18) 7 && bits (w 0x30) 10 22 = 0
    && ((bs.take 0xC0).drop 0x40).all (· = 0)

/-- The formats' class (R259): the element width in bits, the k-granule, and whether tm may reach 384 under a 16-bit
accumulator; none where the formats and the accumulator form no row of the table. -/
structure WalkClass where
  eb      : Nat
  granule : Nat
  tmMax   : Nat
  cycles  : Nat
  deriving DecidableEq, Repr

/-- The row of R259 that a record's formats form, with the cycles of a k-step. -/
def walkClass (r : WalkRec) (ea eb : Nat) : Option WalkClass :=
  let half := r.accfmt = 1 || r.accfmt = 2
  let wide := if half then 384 else 192
  let reps := ceilDiv r.tm 192
  let sixteen (e : Nat) : Bool := e = 2 || e = 3
  let eight (e : Nat) : Bool := e = 4 || e = 5
  if ea = 0 && eb = 0 then
    if r.accfmt = 3 then some { eb := 64, granule := 1, tmMax := 96, cycles := 16 * r.tk } else none
  else if r.accfmt = 3 then none
  else if sixteen ea && sixteen eb then some { eb := 16, granule := 2, tmMax := wide, cycles := r.tk * reps }
  else if ea = 1 && eb = 1 then some { eb := 32, granule := 2, tmMax := 192, cycles := 2 * r.tk }
  else if eight ea && eight eb then some { eb := 8, granule := 4, tmMax := wide, cycles := r.tk / 2 * reps }
  else if ea = 6 && eb = 6 then some { eb := 4, granule := 8, tmMax := wide, cycles := r.tk / 4 * reps }
  else none

/-- The descriptor of a format slot of a launch record. -/
def slotDesc (l : LaunchRec) (slot : Nat) : SlotDesc := SlotDesc.of (l.slots.getD slot 0)

/-- The class of a record under a launch record's format slots. -/
def WalkRec.cls (r : WalkRec) (l : LaunchRec) : Option WalkClass :=
  walkClass r (slotDesc l r.aslot).efmt (slotDesc l r.bslot).efmt

/-- The accumulator's format and its bytes (R258, R263). -/
def WalkRec.accFmt (r : WalkRec) : Fmt :=
  match r.accfmt with
  | 0 => .fp32
  | 1 => .fp16
  | 2 => .bf16
  | _ => .fp64

def WalkRec.accBytes (r : WalkRec) : Nat :=
  match r.accfmt with
  | 0 => 4
  | 3 => 8
  | _ => 2

/-! Armature slots (R263). -/

/-- The row stride of an A or B slot for an element width. -/
def WalkRec.opStride (r : WalkRec) (eb : Nat) : Nat := 16 * ceilDiv (r.tk * eb) 128

/-- The row stride of the init slot. -/
def WalkRec.initStride (r : WalkRec) : Nat := 16 * ceilDiv (r.tn * r.accBytes) 16

/-- A size rounded up to a multiple of 256. -/
def round256 (n : Nat) : Nat := 256 * ceilDiv n 256

/-- The sizes of the slots of a reservation, in order: D A slots, D B slots, and the init slot if there is one. -/
def WalkRec.slotSizes (r : WalkRec) (eb : Nat) : List Nat :=
  List.replicate r.depth (round256 (r.tm * r.opStride eb)) ++ List.replicate r.depth (round256 (r.tn * r.opStride eb))
    ++ (if r.init then [round256 (r.tm * r.initStride)] else [])

/-- The swizzle span of a code (R258). -/
def swzSpan (v : Nat) : Nat := 16 * 2 ^ (v - 1)

/-- The byte offset in a slot of byte o of row r, with a swizzle code (R263). -/
def slotOffset (swz stride r o : Nat) : Nat :=
  if swz = 0 then r * stride + o
  else
    let p := swzSpan swz
    let c := o % p
    r * stride + (o - c) + ((c / 16) ^^^ (r % (p / 16))) * 16 + c % 16

/-! Validity (R260). -/

/-- Whether an entry offset is 4-byte aligned and inside a kernel's scalar section. -/
def entryOk (l : LaunchRec) (e : Nat) : Bool := e % 4 = 0 && e < l.slen

/-- Whether every field of a record lies in the range that R258, R259 and R260 give it, for a kernel. -/
def WalkRec.rangesOk (r : WalkRec) (l : LaunchRec) : Bool :=
  match r.cls l with
  | none => false
  | some c =>
    let ra := r.opStride c.eb
    let dim (x : Nat) : Bool := 1 ≤ x && x ≤ 0x7FFFFFFF
    let swz (v : Nat) : Bool := v ≤ 8 && (v = 0 || ra % swzSpan v = 0)
    dim r.m && dim r.n && dim r.k && 1 ≤ r.tk && r.tk ≤ 4095 && r.tk % c.granule = 0
      && r.tm % 2 = 0 && 2 ≤ r.tm && r.tm ≤ c.tmMax && r.tn % 2 = 0 && 2 ≤ r.tn && r.tn ≤ 320
      && r.spmax ≤ 64 && (r.spawn || r.spmax = 0) && 1 ≤ r.pd && r.pd ≤ 8 && r.pd ≤ r.depth && r.depth ≤ 8
      && r.cw ≤ 2 && ((r.order = 3) = (r.g != 0)) && swz r.aswz && swz r.bswz && (r.tm ≤ 192 || r.cw ≤ 1)
      && r.width = 32 * (l.wcode + 1) && entryOk l r.aent && entryOk l r.bent && entryOk l r.dent
      && (if r.init then entryOk l r.ient else r.ient = 0) && (r.slotSizes c.eb).sum ≤ 2 ^ 20

/-- Whether a record is valid (R260): its stamp must be justified too (R299). -/
def walkValid (c : Context) (l : LaunchRec) (r : WalkRec) (bs : List Byte) (justified : Bool) : Bool :=
  walkReservedZero bs && r.rangesOk l && c.declares r.node && c.accepts r.node r.stamp && justified

/-! Tiles (R261, R262). -/

/-- Part rows, part columns and engines of a co-walk. -/
def WalkRec.wr (r : WalkRec) : Nat := if r.cw = 2 then 2 else 1
def WalkRec.wc (r : WalkRec) : Nat := if r.cw = 0 then 1 else 2
def WalkRec.width_ (r : WalkRec) : Nat := 2 ^ r.cw

def WalkRec.ti (r : WalkRec) : Nat := ceilDiv r.m (r.wr * r.tm)
def WalkRec.tj (r : WalkRec) : Nat := ceilDiv r.n (r.wc * r.tn)

/-- The number of tiles. -/
def WalkRec.tilesNo (r : WalkRec) : Nat := r.ti * r.tj

/-- Tile t as (a, b) (R262). -/
def WalkRec.tileAt (r : WalkRec) (t : Nat) : Nat × Nat :=
  match r.order with
  | 0 => (t / r.tj, t % r.tj)
  | 1 => (t % r.ti, t / r.ti)
  | 2 =>
    let a := t / r.tj
    (a, if a % 2 = 0 then t % r.tj else r.tj - 1 - t % r.tj)
  | _ =>
    let q := t / (r.g * r.tj)
    let g := min r.g (r.ti - q * r.g)
    let u := t - q * r.g * r.tj
    (q * r.g + u % g, u / g)

/-- The piece of an engine part in a tile (R261). -/
structure Piece where
  i0    : Nat
  j0    : Nat
  prows : Nat
  pcols : Nat
  deriving DecidableEq, Repr

def WalkRec.piece (r : WalkRec) (t e : Nat) : Piece :=
  let (a, b) := r.tileAt t
  let i0 := a * r.wr * r.tm + e / r.wc * r.tm
  let j0 := b * r.wc * r.tn + e % r.wc * r.tn
  { i0 := i0, j0 := j0, prows := min (r.m - i0) r.tm, pcols := min (r.n - j0) r.tn }

/-- Whether a piece is empty. -/
def Piece.empty (p : Piece) : Bool := p.prows = 0 || p.pcols = 0

/-- The length of k-step s (R261). -/
def WalkRec.pk (r : WalkRec) (s : Nat) : Nat := min r.tk (r.k - s * r.tk)

/-! Posting (R265). -/

/-- A part with no reservation. -/
def Part.empty : Part :=
  { aslots := [], bslots := [], islot := none, nextPair := 0, nextInit := 0, bank := none, toDrain := [], drains := [] }

/-- The identifier of a walk posted to an engine as its n-th. -/
def walkId (eng n : Nat) : Nat := eng * 2 ^ 25 + n % 2 ^ 25

/-- A walk as it is posted. -/
def newWalk (ctx kern : Nat) (poster : Option Nat) (addr : Dword) (r : WalkRec) (eng seq : Nat)
    (after : List EngineEntry) : Walk :=
  { ctx := ctx, kern := kern, poster := poster, addr := addr, wrec := r, eng := eng, st := .posted, prior := .posted,
    seq := seq, placed := false, parts := List.replicate r.width_ Part.empty, tile := 0, inTile := false, kstep := 0,
    busy := none, tries := 0, tiles := 0, spawned := 0, stalls := List.replicate 8 0, rback := 0, acyc := 0, scause := 0,
    acause := 0, freezing := false, cast := false, resuming := false, told := false, banks := [], after := after }

/-- A walk appended to an engine's intake, its count recorded there (R265, R286). -/
def appendWalk (m : Mach) (ctx kern : Nat) (poster : Option Nat) (addr : Dword) (r : WalkRec) (eng : Nat)
    (after : List EngineEntry) : Mach × Nat :=
  let e := m.engine eng
  let id := walkId eng e.posted
  let w := newWalk ctx kern poster addr r eng m.nextId after
  let m1 := m.setEngine eng { e with intake := e.intake ++ [id], posted := e.posted + 1 }
  ({ m1.setWalk id w with nextId := m.nextId + 1 }, id)

/-- Whether an engine's intake has a free entry. -/
def intakeFree (m : Mach) (eng : Nat) : Bool := (m.engine eng).intake.length < 32

/-- Whether a group serves a summons of a walk on one of the engines named (R265, R278). -/
def servesOn (m : Mach) (g : Group) (eng n : Nat) : Bool :=
  match (g.serving.bind (aget m.summons ·)).bind fun s => aget m.walks s.walk with
  | some w => w.engines.any fun e => eng ≤ e && e < eng + n
  | none => false

/-- The FP64 matrix mode of an engine's cluster (R259, R101). -/
def engineHasF64 (m : Mach) (eng : Nat) : Bool := (m.features (8 * eng)).getLsbD 0

/-- The end of a WALK.POST whose count is taken (R265): it waits until the engine's intake has a free entry, and appends. -/
def appendPosted (m : Mach) (gid : Nat) (g : Group) (sd : Sreg) (addr : Dword) (r : WalkRec) (eng : Nat) : Mach :=
  if !intakeFree m eng then wait m gid g
  else
    let (m1, id) := appendWalk m g.ctx g.kern (some gid) addr r eng (g.orderedAfter 2)
    retire m1 gid (g.setS sd (BitVec.ofNat 64 id)) (scalarCode 0x23 0)

/-- A WALK.POST that passed its checks (R265): its count is taken, before it waits for the intake. One whose group has
another WALK.POST interrupted in that wait takes its count with the entry. (DEDUCED, log 70.) -/
def takePost (m : Mach) (gid : Nat) (g : Group) (sd : Sreg) (addr : Dword) (r : WalkRec) (eng : Nat) : Mach :=
  if !rootHasRoom m g.ctx r.node r.stamp || (g.posting.isSome && !intakeFree m eng) then wait m gid g
  else
    let m1 := takeFrom m (homeUnit m g) eng g.ctx r.node r.stamp
    let g1 := if g.posting.isSome then g else { g with posting := some { spc := g.spc, addr := addr, wrec := r, eng := eng } }
    appendPosted m1 gid g1 sd addr r eng

/-- The post of a record that was read: its checks in order, or the walk's count taken and the walk appended (R265). -/
def postWalk (m : Mach) (gid : Nat) (g : Group) (c : Context) (sd : Sreg) (addr : Dword) (eng : Nat) (bs : List Byte) :
    Mach :=
  let r := WalkRec.ofBytes bs
  match aget m.kerns g.kern with
  | none => scalarTrap m gid .walkRecord
  | some k =>
    if !walkValid c k.lrec r bs (justified m g r.node r.stamp) then scalarTrap m gid .walkRecord
    else if r.accfmt = 3 && !engineHasF64 m eng then scalarTrap m gid .featureAbsent
    else if eng % r.width_ != 0 then scalarTrap m gid .walkRecord
    else if servesOn m g eng r.width_ then scalarTrap m gid .reentrantWalk
    else takePost m gid g sd addr r eng

/-- The WALK.POST of a group that waits for the intake at its PC, its count taken (R265). -/
def Group.postHere (g : Group) : Option Posting := g.posting.filter fun p => p.spc = g.spc

/-- WALK.POST (R265). -/
def execWalkPost (sd sa sb : Sreg) (s : State) : Host.Outcome State Fault Refusal :=
  groupStep s fun gid g =>
    let addr := g.s sa
    let sel := (g.s sb).toNat
    match g.postHere, aget s.m.ctxs g.ctx with
    | some p, _ => appendPosted s.m gid g sd p.addr p.wrec p.eng
    | none, none => s.m
    | none, some c =>
      if 0 < g.depth then scalarTrap s.m gid .publishInRegion
      else if addr.toNat % 256 != 0 then scalarTrapAt s.m gid .misaligned addr
      else if 128 < sel then scalarTrap s.m gid .operandRange
      else
        onGot gid (recordLoad gid g 32 s.m addr.toNat) fun m bs =>
          postWalk m gid g c sd addr (if sel = 0 then clusterOf g.core else sel - 1) bs

/-! Status and abort (R280, R281). -/

/-- The status word that a walk identifier gives to a context: state 15 if it is retired or another context's. -/
def walkStatus (m : Mach) (ctx id : Nat) : Dword :=
  match aget m.walks id with
  | some w => if w.ctx = ctx then w.status else 15
  | none =>
    match (m.engines.flatMap fun ke => ke.2.ended).find? fun x => x.1 = id with
    | some (_, c, st) => if c = ctx then st else 15
    | none => 15

/-- Whether a status word's state makes WALK.STAT an acquire. -/
def statusEnded (st : Dword) : Bool :=
  let x := bits st.toNat 0 4
  x = 6 || x = 7 || x = 15

/-- WALK.STAT (R281). -/
def execWalkStat (sd sa : Sreg) (s : State) : Host.Outcome State Fault Refusal :=
  groupStep s fun gid g =>
    let id := (g.s sa).toNat
    if 2 ^ 32 ≤ id then scalarTrap s.m gid .operandRange
    else
      let st := walkStatus s.m g.ctx id
      retire (if statusEnded st then acquireAt s.m g .dev else s.m) gid (g.setS sd st) (scalarCode 0x23 1)

/-- WALK.ABORT (R280). -/
def execWalkAbort (sa : Sreg) (s : State) : Host.Outcome State Fault Refusal :=
  groupStep s fun gid g =>
    let id := (g.s sa).toNat
    if 2 ^ 32 ≤ id then scalarTrap s.m gid .operandRange
    else if 0 < g.depth then scalarTrap s.m gid .publishInRegion
    else
      let m1 := retire s.m gid g (scalarCode 0x23 2)
      match aget m1.walks id with
      | some w => if w.ctx = g.ctx then abortWalk m1 id 1 else m1
      | none => m1

/-! Walks between their summonses. -/

/-- A walk with nothing left to do for its state: a freeze at a tile boundary completes (R282), and a draining walk whose
drains have all returned is done, its result written and its count dropped (R267, R286). -/
def settleWalk (m : Mach) (wid : Nat) : Mach :=
  match aget m.walks wid with
  | none => m
  | some w =>
    if w.acause != 0 || w.over then finishAbort m wid
    else if w.st = .draining && w.atBoundary then
      let w1 := { w with st := .done, scause := 0 }
      let m1 := retireWalk (writeResult m w1) wid w1
      let m2 := dropAt m1 w.eng w.ctx w.wrec.node w.wrec.stamp
      settleKernel (endPackets m2 0x04 wid (statusWord 0 0)) w.kern
    else if w.freezing && w.atBoundary then m.setWalk wid { w with prior := w.st, st := .frozen, freezing := false }
    else m

/-! Parking and the end of a service (R271, R272). -/

/-- A group as it parks: a trap that it was in ends, with its pending traps and the queues set aside (R81, R272). -/
def Group.park (g : Group) (pool since : Nat) : Group :=
  { g with st := .parked since, pool := pool, traps := [], aside := none, asideWait := none, serving := none, own := false,
           posting := none }

/-- What follows a park: spawned groups with nothing left to serve end (R269), and so does their kernel (R352).
(DEDUCED, log 27.) -/
def afterPark (m : Mach) (g : Group) : Mach := settleKernel (sweepSpawned m g.ctx (clusterOf g.core)) g.kern

/-- A group parks on a pool, its own count dropped (R271). -/
def parkOn (m : Mach) (gid : Nat) (g : Group) (pool : Nat) : Mach :=
  let m1 := dropOwn (retire m gid g (scalarCode 0x23 8)) gid
  let g1 := (regrp m1 gid g).park pool m1.nextId
  afterPark { m1.setGrp gid g1 with nextId := m1.nextId + 1 } g

/-- HNDL.PARK (R271): a group's count covers the copy-ring entries that it published, so that it parks once they are performed
(R250); the states of a Trapped group name no such event, so that it completes there and leaves the state as it is (R81).
(DEDUCED, log 27.) -/
def execHndlPark (sa : Sreg) (s : State) : Host.Outcome State Fault Refusal :=
  groupStep s fun gid g =>
    let pool := (g.s sa).toNat
    if 255 < pool then scalarTrap s.m gid .operandRange
    else if g.serving.isSome || g.kind = .task then scalarTrap s.m gid .handlerState
    else if 0 < g.depth then scalarTrap s.m gid .publishInRegion
    else
      awaitLanes s.m gid g fun _ =>
        if g.isTrapped then retire s.m gid g (scalarCode 0x23 8)
        else if publishedOpen s.m gid g then wait s.m gid g
        else parkOn s.m gid g pool

/-- A slot of a list filled. -/
def fillSlot (l : List ASlot) (i : Nat) : List ASlot := update l i fun x => { x with filled := true }

/-- A summons that is not cancelled returned to its walk: its slot is filled, or its bank is free (R272). -/
def Walk.serviceDone (w : Walk) (s : Summons) : Walk :=
  let w1 := { w with parts := update w.parts s.part fun p =>
    match s.kind with
    | .a => { p with aslots := fillSlot p.aslots s.slot }
    | .b => { p with bslots := fillSlot p.bslots s.slot }
    | .init => { p with islot := p.islot.map fun x => { x with filled := true } }
    | .drain => { p with drains := p.drains.erase s.tile } }
  let all := w1.parts.all fun p => !p.drains.contains s.tile && !p.toDrain.any fun d => d.1 = s.tile
  if s.kind = .drain && all then { w1 with tiles := w1.tiles + 1 } else w1

/-- The bank of a drain freed. -/
def freeBank (m : Mach) (eng bank : Nat) : Mach :=
  let e := m.engine eng
  m.setEngine eng { e with banks := update e.banks bank fun _ => Bank.empty }

/-- A summons returned by the group that served it (R272). -/
def returnSummons (m : Mach) (sid : Nat) (s : Summons) : Mach :=
  let m1 := { m with summons := adel m.summons sid }
  match aget m1.walks s.walk with
  | none => m1
  | some w =>
    if s.cancelled then settleWalk m1 s.walk
    else
      let m2 := m1.setWalk s.walk (w.serviceDone s)
      settleWalk (if s.kind = .drain then freeBank m2 (w.eng + s.part) s.slot else m2) s.walk

/-- HNDL.DONE (R272). -/
def execHndlDone (s : State) : Host.Outcome State Fault Refusal :=
  groupStep s fun gid g =>
    match g.serving.bind fun sid => (aget s.m.summons sid).map fun x => (sid, x) with
    | none => scalarTrap s.m gid .handlerState
    | some (sid, x) =>
      if 0 < g.depth then scalarTrap s.m gid .publishInRegion
      else
        awaitLanes s.m gid g fun _ =>
          let m1 := retire s.m gid g (scalarCode 0x23 9)
          let g1 := (regrp m1 gid g).park g.pool m1.nextId
          let m2 := progress { m1.setGrp gid g1 with nextId := m1.nextId + 1 } g.ctx
          afterPark (returnSummons m2 sid x) g

/-! ACC.LD (R276). -/

/-- The accumulator's type by its code (R258). -/
def accTy : Nat → Ty
  | 0 => .f32
  | 1 => .f16
  | 2 => .bf16
  | _ => .f64

/-- The bank that a drain reads, if its summons still stands: its walk's record, the piece it drains and the bank. -/
structure DrainOf where
  r     : WalkRec
  piece : Piece
  bank  : Bank
  held  : Bool
  deriving DecidableEq, Repr

/-- What a group that serves a drain summons reads. (DEDUCED, log 28.) -/
def drainOf (m : Mach) (g : Group) : Option DrainOf :=
  match g.serving.bind (aget m.summons ·) with
  | none => none
  | some s =>
    match aget m.walks s.walk with
    | none => none
    | some w =>
      if s.kind != .drain then none
      else
        let b := (m.engine (w.eng + s.part)).banks.getD s.slot Bank.empty
        some { r := w.wrec, piece := w.wrec.piece s.tile s.part, bank := b,
               held := !s.cancelled && b.st = .draining && b.walk = s.walk && b.tile = s.tile }

/-- Whether a row and column lie in the piece. -/
def DrainOf.inside (d : DrainOf) (r c : Nat) : Bool := r < d.piece.prows && c < d.piece.pcols

/-- An accumulator as ACC.LD reads it: +0 outside the piece; a free value in a bank that a cancelled drain has lost.
(DEDUCED, log 28.) -/
def DrainOf.read (d : DrainOf) (free r c : Nat) : Nat :=
  if !d.inside r c then 0
  else if d.held then ((aget d.bank.acc (r * 1024 + c)).getD 0).toNat
  else (Config.freeDword (free + r * 1024 + c)).toNat

/-- The row and column of a lane. (DEDUCED, log 28.) -/
def LaneIn.accAt (x : LaneIn) (l : Nat) : Nat × Nat :=
  ((x.raw 0 x.w.a 0).toNat + l / 32, (x.raw 1 x.w.b 0).toNat + l % 32)

/-- ACC.LD (R276): an element whose check bits disagree is a detected error of source 4. (DEDUCED, log 28.) -/
def execAccLd (w : LaneWord) (s : State) : Host.Outcome State Fault Refusal :=
  laneStep s (.accLd w) w fun gid x =>
    match drainOf s.m x.g with
    | none => laneTrap s.m gid x.g x.e .handlerState 0
    | some d =>
      if w.t != accTy d.r.accfmt then laneTrap s.m gid x.g x.e .accumulatorType 0
      else
        let wrong (l : Nat) : Bool :=
          let (r, c) := x.accAt l
          d.held && d.inside r c && d.bank.bad.contains (r * 1024 + c)
        if x.lanes.any wrong then detectedError s.m gid 4
        else
          let rs := x.lanes.map fun l => (l, d.read x.free (x.accAt l).1 (x.accAt l).2 % 2 ^ w.t.bits)
          let m1 := if d.held then s.m else { s.m with free := s.m.free + 2 ^ 20 }
          laneFinish m1 gid (x.write false w.t.regs rs) x.e (.accLd w) w (x.capture rs (x.g.chain.getD Chain.empty))

end Sys2Proof.Machine
end

