-- ==== Sys2Proof/Machine/Engine.lean ====
section
/-! DEFINITION. The walk engine: places and reservations (R266), summonses (R268 to R270), tiles, k-steps and their
arithmetic (R76, R274, R275, R285), and its cycles with the stall causes (R277).
-/

namespace Sys2Proof.Machine

/-! Places and reservations (R266). -/

/-- Whether a walk stands before another: higher priority, or posted earlier. -/
def Walk.before (a b : Walk) : Bool := b.wrec.prio < a.wrec.prio || (a.wrec.prio = b.wrec.prio && a.seq ≤ b.seq)

/-- The first of some walks in that order. -/
def firstWalk : List (Nat × Walk) → Option (Nat × Walk)
  | [] => none
  | x :: r =>
    match firstWalk r with
    | none => some x
    | some y => if x.2.before y.2 then some x else some y

/-- Whether an engine has a free place and is in service. -/
def placeFree (m : Mach) (e : Nat) : Bool := !(m.cluster e).fenced && (m.engine e).places.contains none

/-- Whether a context is active, so that its walks and teams go on. -/
def ctxActive (m : Mach) (ctx : Nat) : Bool := ((aget m.ctxs ctx).map Context.st) = some .active

/-- Whether the groups of a context issue: until it is saving, a context that is suspended lets them reach the end of
their tiles and drains (R282, R375). (DEDUCED, log 29.) -/
def ctxRuns (m : Mach) (ctx : Nat) : Bool :=
  match (aget m.ctxs ctx).map Context.st with
  | some .active | some .resident | some .suspending => true
  | _ => false

/-- Whether frozen walks of a context may resume where they were: it is active, and no PREEMPT of it is under way. -/
def mayResume (m : Mach) (ctx : Nat) : Bool :=
  match aget m.ctxs ctx with
  | some c => c.st = .active && c.vacating.isNone
  | none => false

/-- A walk's lowest-numbered free place taken on one engine. -/
def takePlace (wid : Nat) (m : Mach) (e : Nat) : Mach :=
  let x := m.engine e
  m.setEngine e { x with places := x.places.set (x.places.findIdx fun p => p = none) (some wid),
                         intake := x.intake.filter fun i => i != wid }

/-- Whether the banks that a walk's casts reload are free on its engines (R284). -/
def castFits (m : Mach) (w : Walk) : Bool :=
  w.banks.all fun b => ((m.engine (w.eng + b.part)).banks.getD b.ix Bank.empty).st = .free

/-- A bank reloaded from a cast (R284). -/
def loadBank (w : Walk) (m : Mach) (b : SavedBank) : Mach :=
  let e := w.eng + b.part
  let x := m.engine e
  m.setEngine e { x with banks := x.banks.set b.ix b.bank }

/-- A context without the casts of a walk in its save area. -/
def Context.dropCasts (c : Context) (wid : Nat) : Context :=
  { c with images := c.images.filter fun i => !(i.kind = 3 && i.ref = wid) }

/-- Whether an image in memory is as it was written: its version, its valid bit, its check value and the body that this
covers (R283, R375). (DESIGN CHOICE, log 16.) -/
def imageGood (m : Mach) (i : SavedImage) : Bool :=
  let lo := (Loc.dev (i.addr + 64)).key
  let hi := (Loc.dev (i.addr + i.size)).key
  readNat m (.dev i.addr) 4 = Config.version.toNat && bit (readNat m (.dev (i.addr + 8)) 8) 0
    && readNat m (.dev (i.addr + 0x20)) 8 = i.check.toNat
    && (i.size = 64 || (m.indet.find? fun d => d.lo < hi && lo < d.hi) = some { lo := lo, hi := hi, seed := i.seed, by_ := none })

/-- Whether every cast of a walk may be resumed (R283). -/
def castsGood (m : Mach) (wid : Nat) (w : Walk) : Bool :=
  match aget m.ctxs w.ctx with
  | some c => (c.images.filter fun i => i.kind = 3 && i.ref = wid).all (imageGood m)
  | none => true

/-- Whether a walk may be placed on an engine and the ones after it (R284). (DEDUCED, log 34.) -/
def engineSuits (m : Mach) (w : Walk) (eng : Nat) : Bool :=
  let es := (List.range w.wrec.width_).map (eng + ·)
  eng % w.wrec.width_ = 0 && es.all fun e => e < 128 && !(m.cluster e).fenced && (w.wrec.accfmt != 3 || engineHasF64 m e)

/-- The host is told, once, that a frozen walk may not resume: no engine suits it, or a cast of it is not good (R283, R284).
(DEDUCED, log 52.) -/
def tellWalk (m : Mach) (wid : Nat) (w : Walk) : Mach :=
  if w.told then m
  else (report m w.ctx (if castsGood m wid w then Report.plain 7 0 else Report.plain 5 103)).setWalk wid { w with told := true }

/-- A frozen walk that takes places again and reloads its banks: it goes on once it has its reservation (R284).
(DEDUCED, log 36.) -/
def resumeAt (m : Mach) (wid : Nat) (w : Walk) : Mach :=
  let m1 := w.banks.foldl (loadBank w) (w.engines.foldl (takePlace wid) m)
  let w1 := { w with placed := true, cast := false, banks := [] }
  let m2 := m1.setWalk wid (if w.prior = .queued then { w1 with st := .queued } else { w1 with resuming := true })
  match aget m2.ctxs w.ctx with
  | some c => m2.setCtx w.ctx (c.dropCasts wid)
  | none => m2

/-- Whether a walk is frozen and may resume on its engines. -/
def Walk.thaws (w : Walk) (m : Mach) : Bool :=
  w.st = .frozen && !w.resuming && w.acause = 0 && mayResume m w.ctx

/-- Whether a frozen walk may resume where it was: its engines suit it and its casts are good (R283, R284). -/
def Walk.fit (w : Walk) (m : Mach) (wid : Nat) : Bool := engineSuits m w w.eng && castsGood m wid w

/-- Whether a frozen walk needs no place to resume: it kept them, or stands in the intake (R282). -/
def Walk.kept (w : Walk) : Bool := w.placed || w.prior = .posted

/-- Whether a walk waits for places that are free on all of its engines: a posted one once what a QFENCE orders before it is
performed (R186, R202). -/
def Walk.wantsPlace (w : Walk) (m : Mach) : Bool :=
  ((w.st = .posted && w.acause = 0 && ctxActive m w.ctx && w.after.all (EngineEntry.performed m))
    || (w.thaws m && !w.kept && castFits m w)) && w.engines.all (placeFree m)

/-- WALK_PLACE (R266): the first walk that needs this engine and finds places free on all of its engines takes them in one
step; a walk frozen by a pre-emption goes on from here, without a place where it kept its own, unless it may not resume,
of which the host is told (R283, R284). -/
def execWalkPlace (eng : Nat) (s : State) : Host.Outcome State Fault Refusal :=
  event s fun m =>
    let here := m.walks.filter fun kw => kw.2.engines.contains eng
    match firstWalk (here.filter fun kw => kw.2.thaws m && !kw.2.told && !kw.2.fit m kw.1) with
    | some (id, w) => tellWalk m id w
    | none =>
      let fit := here.filter fun kw => kw.2.st != .frozen || kw.2.fit m kw.1
      match firstWalk (fit.filter fun kw => kw.2.thaws m && kw.2.kept) with
      | some (id, w) => m.setWalk id { w with st := w.prior }
      | none =>
        match firstWalk (fit.filter fun kw => kw.2.wantsPlace m) with
        | none => m
        | some (id, w) =>
          if w.st = .frozen then resumeAt m id w
          else (w.engines.foldl (takePlace id) m).setWalk id { w with st := .queued, placed := true }

/-- The launch record of a walk's kernel. -/
def walkLaunch (m : Mach) (w : Walk) : Option LaunchRec := (aget m.kerns w.kern).map Kernel.lrec

/-- The slots of a walk's part with their sizes. -/
def partSlots (sizes : List Nat) (p : Part) : List (Nat × Nat) :=
  (p.aslots.map ASlot.off ++ p.bslots.map ASlot.off ++ (p.islot.map ASlot.off).toList).zip sizes

/-- The slots that walks hold on an engine, those of a walk with a summons in service included (R263). -/
def heldSlots (m : Mach) (e : Nat) : List (Nat × Nat) :=
  m.walks.flatMap fun kw =>
    let w := kw.2
    if w.engines.contains e && (w.placed || inService m kw.1) then
      match w.parts[e - w.eng]?, walkLaunch m w with
      | some p, some l => partSlots (w.wrec.slotSizes ((w.wrec.cls l).map WalkClass.eb |>.getD 0)) p
      | _, _ => []
    else []

/-- Whether slots lie where a reservation may: aligned, inside the armature, and disjoint from each other and from those
held. -/
def slotsFit : List (Nat × Nat) → List (Nat × Nat) → Bool
  | [], _ => true
  | (o, n) :: r, held =>
    o % 256 = 0 && o + n ≤ 2 ^ 20 && !held.any (fun h => rangesMeet h.1 h.2 o n) && slotsFit r ((o, n) :: held)

/-- A part whose slots lie at the offsets given. -/
def Part.reserve (p : Part) (r : WalkRec) (offs : List Nat) : Part :=
  let mk (o : Nat) : ASlot := { off := o, pair := none, filled := false }
  { p with aslots := (offs.take r.depth).map mk, bslots := ((offs.drop r.depth).take r.depth).map mk,
           islot := (offs[2 * r.depth]?).map mk }

/-- Whether offsets fit as the reservation of a walk on each of its engines. (DEDUCED, log 25.) -/
def reservationFits (m : Mach) (w : Walk) (sizes : List Nat) (offs : List (List Nat)) : Bool :=
  offs.length = w.wrec.width_ && (w.engines.zip offs).all fun eo =>
    eo.2.length = sizes.length && slotsFit (eo.2.zip sizes) (heldSlots m eo.1)

/-- The first queued walk on an engine. (DEDUCED, log 25.) -/
def firstQueued (m : Mach) (e : Nat) : Option (Nat × Walk) :=
  firstWalk (m.walks.filter fun kw => (kw.2.st = .queued || kw.2.resuming) && kw.2.acause = 0 && kw.2.engines.contains e)

/-- WALK_RESERVE (R266): the first walk in its place gets its reservation, where it fits on all of its engines; a walk
frozen before goes on from its state then (R284). (DEDUCED, log 25.) -/
def execWalkReserve (eng : Nat) (offs : List (List Nat)) (s : State) : Host.Outcome State Fault Refusal :=
  event s fun m =>
    match firstQueued m eng with
    | none => m
    | some (id, w) =>
      match walkLaunch m w with
      | none => m
      | some l =>
        let sizes := w.wrec.slotSizes ((w.wrec.cls l).map WalkClass.eb |>.getD 0)
        let mine (e : Nat) : Bool := (firstQueued m e).map Prod.fst = some id
        if w.engines.all mine && !inService m id && ctxActive m w.ctx && reservationFits m w sizes offs then
          let parts := (w.parts.zip offs).map fun po => po.1.reserve w.wrec po.2
          m.setWalk id { w with st := if w.resuming then w.prior else .walking, resuming := false, parts := parts }
        else m

/-! Summonses (R268). -/

/-- Whether a walk issues summonses: it walks, stalls or drains, with no abort pending. -/
def Walk.running (w : Walk) : Bool := (w.st = .walking || w.st = .stalled || w.st = .draining) && w.acause = 0

/-- The tile before which pairs are summoned: all of them, or those started where a freeze is under way (R282). -/
def Walk.limit (w : Walk) : Nat := if w.freezing then w.nextTile else w.wrec.tilesNo

/-- A summons in service on a slot of a part, cancelled but not yet returned. -/
def slotBusy (m : Mach) (wid part : Nat) (k : SKind) (slot : Nat) : Bool :=
  aany (fun _ s => s.walk = wid && s.part = part && s.kind = k && s.slot = slot) m.summons

/-- Whether an A or B slot of a part is free. -/
def slotIsFree (m : Mach) (wid part : Nat) (k : SKind) (l : List ASlot) (i : Nat) : Bool :=
  match l[i]? with
  | some x => x.pair.isNone && !slotBusy m wid part k i
  | none => false

/-- A summons issued. -/
def issue (m : Mach) (s : Summons) : Mach :=
  { m with summons := aput m.summons m.nextId s, nextId := m.nextId + 1 }

/-- What a part of a walk does next in its engine: a drain, an init, a pair, or passing over what it need not summon. -/
inductive Due where
  | drain (tile bank : Nat)
  | init (tile : Nat)
  | pair (p : Nat)
  | passPair (next : Nat)
  | passInit
  deriving DecidableEq, Repr

/-- Whether a slot holds a pair. -/
def holdsPair (l : List ASlot) (p : Nat) : Bool := l.any fun x => x.pair = some p

/-- What a part has ready, in the order of R268: drains first, then the init of a tile with its pair or later, then the
next pair while fewer than pd are summoned and not consumed. -/
def partDue (m : Mach) (wid : Nat) (w : Walk) (part slotA slotB : Nat) (p : Part) : Option Due :=
  let r := w.wrec
  let nk := r.nk
  let t := p.nextPair / nk
  let window := p.nextPair < w.limit * nk && (p.aslots.countP fun x => x.pair.isSome) < r.pd
    && slotIsFree m wid part .a p.aslots slotA && slotIsFree m wid part .b p.bslots slotB
  let initFree := match p.islot with
    | some x => x.pair.isNone && !slotBusy m wid part .init 0
    | none => false
  match p.toDrain with
  | d :: _ => some (.drain d.1 d.2)
  | [] =>
    if r.init && p.nextInit < w.limit && (r.piece p.nextInit part).empty then some .passInit
    else if r.init && p.nextInit < w.limit && initFree
        && (p.nextInit * nk < p.nextPair || (window && p.nextPair = p.nextInit * nk)) then some (.init p.nextInit)
    else if p.nextPair < w.limit * nk && (r.piece t part).empty then some (.passPair ((t + 1) * nk))
    else if p.nextPair < w.limit * nk && holdsPair p.aslots p.nextPair then some (.passPair (p.nextPair + 1))
    else if window then some (.pair p.nextPair)
    else none

/-- A slot taken for a pair. -/
def takeSlot (l : List ASlot) (i p : Nat) : List ASlot := update l i fun x => { x with pair := some p, filled := false }

/-- A part of a walk changed. -/
def setPart (m : Mach) (wid : Nat) (w : Walk) (part : Nat) (f : Part → Part) : Mach :=
  m.setWalk wid { w with parts := update w.parts part f }

/-- What is due done: the summonses issued, an A before its B. -/
def issueDue (m : Mach) (wid : Nat) (w : Walk) (part slotA slotB : Nat) (d : Due) : Mach :=
  let nk := w.wrec.nk
  let base : Summons := { walk := wid, part := part, kind := .a, tile := 0, kstep := 0, slot := slotA, group := none,
                          cancelled := false }
  match d with
  | .drain t b =>
    issue (setPart m wid w part fun p => { p with toDrain := p.toDrain.drop 1, drains := p.drains ++ [t] })
      { base with kind := .drain, tile := t, slot := b }
  | .init t =>
    issue (setPart m wid w part fun p =>
      { p with nextInit := t + 1, islot := p.islot.map fun x => { x with pair := some t, filled := false } })
      { base with kind := .init, tile := t, slot := 0 }
  | .pair q =>
    let m1 := setPart m wid w part fun p =>
      { p with nextPair := q + 1, aslots := takeSlot p.aslots slotA q, bslots := takeSlot p.bslots slotB q }
    issue (issue m1 { base with tile := q / nk, kstep := q % nk })
      { base with kind := .b, tile := q / nk, kstep := q % nk, slot := slotB }
  | .passPair n => setPart m wid w part fun p => { p with nextPair := n }
  | .passInit => setPart m wid w part fun p => { p with nextInit := p.nextInit + 1 }

/-- The walks with something due on an engine. -/
def dueOn (m : Mach) (eng slotA slotB : Nat) : List (Nat × Walk × Due) :=
  m.walks.filterMap fun kw =>
    let w := kw.2
    if w.running && w.placed && w.engines.contains eng then
      match w.parts[eng - w.eng]? with
      | some p => (partDue m kw.1 w (eng - w.eng) slotA slotB p).map fun d => (kw.1, w, d)
      | none => none
    else none

/-- SUMMONS_ISSUE (R268): the next summonses that one of an engine's walks has ready, in the order of R268. -/
def execSummonsIssue (eng slotA slotB : Nat) (s : State) : Host.Outcome State Fault Refusal :=
  event s fun m =>
    let l := dueOn m eng slotA slotB
    match l[m.pick l.length]? with
    | none => m
    | some (id, w, d) => issueDue m.bump id w (eng - w.eng) slotA slotB d

/-! Delivery (R269, R270). -/

/-- The place of a group parked, for the choice of R269: the time it parked, its core, its slot. -/
def parkedKey (g : Group) : Option (Nat × Nat × Nat) :=
  match g.st with
  | .parked t => if g.saved then none else some (t, g.core, g.slot)
  | _ => none

/-- Whether a key comes first. -/
def keyLt (a b : Nat × Nat × Nat) : Bool :=
  a.1 < b.1 || (a.1 = b.1 && (a.2.1 < b.2.1 || (a.2.1 = b.2.1 && a.2.2 < b.2.2)))

/-- The group that a summons of a walk goes to on an engine: of those parked on its pool, the one parked longest. -/
def parkedFor (m : Mach) (w : Walk) (eng : Nat) : Option Nat :=
  (m.groups.foldl (fun best kg =>
    let g := kg.2
    match parkedKey g with
    | none => best
    | some k =>
      if g.pool = w.wrec.pool && g.ctx = w.ctx && g.kern = w.kern && g.kind != .compacted && clusterOf g.core = eng then
        match best with
        | some (_, k') => if keyLt k k' then some (kg.1, k) else best
        | none => some (kg.1, k)
      else best) none).map Prod.fst

/-- The slot address that a handler gets in s4, or the bank (R264, R270). -/
def Walk.slotAddress (w : Walk) (s : Summons) : Dword :=
  let p := w.parts.getD s.part Part.empty
  let at_ (o : Option Nat) : Dword := BitVec.ofNat 64 (0x00FF000300000000 + o.getD 0)
  match s.kind with
  | .a => at_ ((p.aslots[s.slot]?).map ASlot.off)
  | .b => at_ ((p.bslots[s.slot]?).map ASlot.off)
  | .init => at_ (p.islot.map ASlot.off)
  | .drain => BitVec.ofNat 64 s.slot

/-- The code of a summons kind (R270). -/
def SKind.code : SKind → Nat
  | .a => 0
  | .b => 1
  | .drain => 2
  | .init => 3

/-- The entry offset of a summons kind (R258). -/
def WalkRec.entry (r : WalkRec) : SKind → Nat
  | .a => r.aent
  | .b => r.bent
  | .drain => r.dent
  | .init => r.ient

/-- s1 at a delivery (R270). -/
def Walk.word1 (w : Walk) (s : Summons) (pc : Piece) : Nat :=
  let pk := w.wrec.pk s.kstep
  let (lo, hi) := match s.kind with
    | .a => (pc.prows, pk)
    | .b => (pc.pcols, pk)
    | _ => (pc.prows, pc.pcols)
  s.kind.code + s.part * 2 ^ 4 + (lo % 2 ^ 12) * 2 ^ 8 + (hi % 2 ^ 12) * 2 ^ 20 + w.wrec.tag.toNat * 2 ^ 32

/-- The group as the summons reaches it (R270). -/
def Group.summoned (g : Group) (core : Core) (l : LaunchRec) (wid : Nat) (w : Walk) (sid : Nat) (s : Summons) : Group :=
  let pc := w.wrec.piece s.tile s.part
  let k0 := s.kstep * w.wrec.tk
  let nat (x : Nat) : Dword := BitVec.ofNat 64 x
  let g1 := (((g.setS 1 (nat (w.word1 s pc))).setS 2 (nat (if s.kind = .b then k0 else pc.i0))).setS 3
    (nat (if s.kind = .a then k0 else pc.j0)))
  let g2 := ((g1.setS 4 (w.slotAddress s)).setS 5 w.wrec.stamp).setS 6 (nat wid)
  { g2 with spc := l.sbase + nat (w.wrec.entry s.kind), node := w.wrec.node, stamp := w.wrec.stamp, st := .ready,
            readyAt := core.cyc, serving := some sid, pool := w.wrec.pool }

/-- The bytes of the slot that a summons fills, over all engines: none for a drain. (DEDUCED, log 29.) -/
def summonsSlot (m : Mach) (w : Walk) (s : Summons) : Option (Nat × Nat) :=
  match walkLaunch m w, w.parts[s.part]? with
  | some l, some p =>
    let eb := ((w.wrec.cls l).map WalkClass.eb).getD 0
    let base := (w.eng + s.part) * 2 ^ 20
    match s.kind with
    | .a => (p.aslots[s.slot]?).map fun x => (base + x.off, slotBytes (w.wrec.tm * w.wrec.opStride eb))
    | .b => (p.bslots[s.slot]?).map fun x => (base + x.off, slotBytes (w.wrec.tn * w.wrec.opStride eb))
    | .init => p.islot.map fun x => (base + x.off, slotBytes (w.wrec.tm * w.wrec.initStride))
    | .drain => none
  | _, _ => none

/-- A summons delivered to a group, which sees what the walk's poster did before its post (R204): a slot's bytes are
indeterminate from now on (R264), and a drain's bank is draining (R275). (DESIGN CHOICE, log 17; DEDUCED, log 29.) -/
def deliverTo (m : Mach) (sid gid : Nat) (g : Group) (l : LaunchRec) (wid : Nat) (w : Walk) (s : Summons) : Mach :=
  let m1 := (acquireAt m g .dev).setGrp gid (g.summoned (m.core g.core) l wid w sid s)
  let m2 := { m1 with summons := aput m1.summons sid { s with group := some gid } }
  match summonsSlot m2 w s with
  | some (a, n) => makeIndet m2 (.arm a) n
  | none =>
    let e := m2.engine (w.eng + s.part)
    m2.setEngine (w.eng + s.part) { e with banks := update e.banks s.slot fun b => { b with st := .draining } }

/-- SUMMONS_DELIVER (R269): to the group parked longest, else to a group spawned for it where the walk may spawn one and its
context admits groups (R375). -/
def execSummonsDeliver (sid : Nat) (at_ : Slot) (s : State) : Host.Outcome State Fault Refusal :=
  event s fun m =>
    match aget m.summons sid with
    | none => m
    | some x =>
      match aget m.walks x.walk with
      | none => m
      | some w =>
        match walkLaunch m w with
        | none => m
        | some l =>
          let eng := w.eng + x.part
          if x.group.isSome || x.cancelled || !ctxRuns m w.ctx then m
          else
            match parkedFor m w eng with
            | some gid =>
              match m.grp? gid with
              | some g => deliverTo m sid gid g l x.walk w x
              | none => m
            | none =>
              if w.wrec.spawn && w.spawned < w.wrec.spmax && clusterOf at_.core = eng && ctxActive m w.ctx then
                match admitOne m w.ctx w.kern .handler at_ w.wrec.width (8 * l.regs) l.reqfeat (some l) with
                | none => m
                | some (m1, gid, g) =>
                  deliverTo (m1.setWalk x.walk { w with spawned := w.spawned + 1 }) sid gid g l x.walk w x
              else m

/-! Tiles (R274). -/

/-- Whether a walk accumulates a tile on an engine. -/
def accumulating (m : Mach) (e : Nat) : Bool := aany (fun _ w => w.inTile && w.engines.contains e) m.walks

/-- Whether a slot list holds a pair filled. -/
def pairFilled (l : List ASlot) (p : Nat) : Bool := l.any fun x => x.pair = some p && x.filled

/-- Whether the operands of a part's k-step are there: nothing is needed of an empty piece. -/
def stepFilled (w : Walk) (part : Nat) (p : Part) (t s : Nat) : Bool :=
  (w.wrec.piece t part).empty || (pairFilled p.aslots (t * w.wrec.nk + s) && pairFilled p.bslots (t * w.wrec.nk + s))

/-- Whether the init slot of a part is filled for a tile, where the walk has one. -/
def initFilled (w : Walk) (part : Nat) (p : Part) (t : Nat) : Bool :=
  !w.wrec.init || (w.wrec.piece t part).empty || (match p.islot with
    | some x => x.pair = some t && x.filled
    | none => false)

/-- Whether one engine part of a walk can start its next tile, but for a bank. -/
def partReady (m : Mach) (w : Walk) (part : Nat) : Bool :=
  match w.parts[part]? with
  | some p => !accumulating m (w.eng + part) && stepFilled w part p w.tile 0 && initFilled w part p w.tile
  | none => false

/-- Whether an engine has a bank free. -/
def bankFree (m : Mach) (e : Nat) : Bool := (m.engine e).banks.any fun b => b.st = .free

/-- Whether the budget of tile starts of a context on an engine is not spent (R429). (DESIGN CHOICE, log 56.) -/
def tileRoom (m : Mach) (ctx e : Nat) : Bool :=
  match aget m.tileBudget ctx with
  | some b => (aget (m.engine e).starts ctx).getD 0 < b
  | none => true

/-- Whether a walk has a tile to start next. -/
def Walk.awaitsTile (w : Walk) : Bool :=
  (w.st = .walking || w.st = .stalled) && w.acause = 0 && w.placed && !w.freezing && !w.inTile && w.tile < w.wrec.tilesNo

/-- Whether one engine part of a walk meets the conditions to start its next tile (R274, R429). -/
def partStarts (m : Mach) (w : Walk) (part : Nat) : Bool :=
  partReady m w part && bankFree m (w.eng + part) && tileRoom m w.ctx (w.eng + part)

/-- Whether a walk can start its next tile on all of its engines (R274). -/
def canStart (m : Mach) (w : Walk) : Bool := w.awaitsTile && (List.range w.wrec.width_).all (partStarts m w)

/-- Whether engines 4j to 4j + 3 share their round-robin pointer (R274). (DEDUCED, log 24.) -/
def quadShares (m : Mach) (e : Nat) : Bool :=
  aany (fun _ w => w.placed && 0 < w.wrec.cw && w.eng / 4 = e / 4) m.walks

/-- The place after which an engine's search starts. (DEDUCED, log 24.) -/
def rrOf (m : Mach) (e : Nat) : Nat := (m.engine (if quadShares m e then e / 4 * 4 else e)).rr

/-- The places of an engine in the order of its search (R274). (DEDUCED, log 24.) -/
def searchOrder (rr : Nat) : List Nat := (List.range 4).map fun i => (rr + 1 + i) % 4

/-- The co-walk for whose tile an engine is chosen, while it still has that tile to start (R274). -/
def turnOf (m : Mach) (e : Nat) : Option Nat :=
  (m.engine e).turn.filter fun wid => ((aget m.walks wid).map Walk.awaitsTile).getD false

/-- Whether a walk may have its turn on an engine that is part of it: none of its engines is chosen for another co-walk's
tile, and this one meets its conditions (R274). -/
def mayTurn (m : Mach) (e wid : Nat) (w : Walk) : Bool :=
  w.awaitsTile && (w.engines.all fun x => ((turnOf m x).map fun t => decide (t = wid)).getD true) && partStarts m w (e - w.eng)

/-- The walk whose turn it is on an engine: the first in its search that the engine can start. (DEDUCED, log 24.) -/
def nextTurn (m : Mach) (e : Nat) : Option (Nat × Walk × Nat) :=
  (searchOrder (rrOf m e)).findSome? fun i =>
    match ((m.engine e).places[i]?).bind id with
    | none => none
    | some wid =>
      match aget m.walks wid with
      | some w => if mayTurn m e wid w then some (wid, w, i) else none
      | none => none

/-- The walk that starts a tile on an engine now: the one whose turn it is, once all of its engines can (R274). -/
def nextStart (m : Mach) (e : Nat) : Option (Nat × Walk × Nat) := (nextTurn m e).filter fun x => canStart m x.2.1

/-- The engines of the co-walk whose turn has come are chosen for its tile (R274). -/
def chooseTurn (m : Mach) (e : Nat) : Mach :=
  match nextTurn m e with
  | some (wid, w, _) => w.engines.foldl (fun m x => m.setEngine x { m.engine x with turn := some wid }) m
  | none => m

/-- The round-robin pointer moved to a place. (DEDUCED, log 24.) -/
def setRr (m : Mach) (e place : Nat) (w : Walk) : Mach :=
  let es := if quadShares m e then (List.range 4).map (e / 4 * 4 + ·) else w.engines
  es.foldl (fun m x => m.setEngine x { m.engine x with rr := place }) m

/-- The value of an element of the init slot, row r and column c (R263). -/
def initValue (m : Mach) (w : Walk) (eng off r c : Nat) : Dword :=
  let n := w.wrec.accBytes
  BitVec.ofNat 64 (readNat m (.arm (eng * 2 ^ 20 + off + r * w.wrec.initStride + c * n)) n)

/-- The accumulators of a piece at its start: +0, which is not listed, or the init values (R76). -/
def startAcc (m : Mach) (w : Walk) (eng : Nat) (p : Part) (pc : Piece) : AMap Dword :=
  match w.wrec.init, p.islot with
  | true, some x =>
    (List.range pc.prows).foldl (fun acc r =>
      (List.range pc.pcols).foldl (fun acc c => aput acc (r * 1024 + c) (initValue m w eng x.off r c)) acc) []
  | _, _ => []

/-- A part with its init slot free again. -/
def Part.freeInit (p : Part) : Part := { p with islot := p.islot.map ASlot.clear }

/-- The free banks of an engine. -/
def freeBanks (m : Mach) (e : Nat) : List Nat := (List.range 2).filter fun b => ((m.engine e).banks.getD b Bank.empty).st = .free

/-- A part's tile started in one of its engine's free banks. -/
def startPart (wid : Nat) (w : Walk) (m : Mach) (part : Nat) : Mach :=
  let e := w.eng + part
  let pc := w.wrec.piece w.tile part
  let frees := freeBanks m e
  let b := frees.getD (m.pick frees.length) 0
  match aget m.walks wid with
  | none => m
  | some w1 =>
    let p := w1.parts.getD part Part.empty
    let bank : Bank := { st := .accumulating, walk := wid, tile := w.tile, rows := pc.prows, cols := pc.pcols,
                         acc := if pc.empty then [] else startAcc m w e p pc, bad := [] }
    let x := m.engine e
    setPart (m.setEngine e { x with banks := x.banks.set b bank }) wid w1 part fun p =>
      { (if pc.empty then p else p.freeInit) with bank := some b }

/-- An engine that starts a tile of a context: no turn stands any more, and the start is counted (R274, R429). -/
def Engine.started (x : Engine) (ctx : Nat) : Engine :=
  { x with turn := none, starts := aput x.starts ctx ((aget x.starts ctx).getD 0 + 1) }

/-- A tile of a walk started on all of its engines (R274). -/
def startTile (m : Mach) (wid : Nat) (w : Walk) (e place : Nat) : Mach :=
  let m0 := setRr (m.setWalk wid { w with inTile := true, kstep := 0, busy := none, tries := 0 }) e place w
  let m1 := w.engines.foldl (fun m x => m.setEngine x ((m.engine x).started w.ctx)) m0
  progress (((List.range w.wrec.width_).foldl (startPart wid w) m1).bump) w.ctx

/-- TILE_START (R274): the tile of the walk whose turn it is starts, or the engine is chosen for it. -/
def execTileStart (eng : Nat) (s : State) : Host.Outcome State Fault Refusal :=
  event s fun m =>
    match nextStart m eng with
    | none => chooseTurn m eng
    | some (wid, w, place) => startTile m wid w eng place

/-! K-steps. -/

/-- Whether a walk's next k-step can start: its slots are filled on every engine, and after a rollback the init slots
too (R274, R285). (DEDUCED, log 23.) -/
def canStep (w : Walk) : Bool :=
  (w.st = .walking || w.st = .stalled) && w.acause = 0 && w.inTile && w.busy.isNone && w.kstep < w.wrec.nk
    && (List.range w.wrec.width_).all fun i =>
      match w.parts[i]? with
      | some p => stepFilled w i p w.tile w.kstep && (w.tries = 0 || w.kstep != 0 || initFilled w i p w.tile)
      | none => false

/-- After a rollback a part's bank is loaded again from its init slot (R285). -/
def reloadPart (wid : Nat) (w : Walk) (m : Mach) (part : Nat) : Mach :=
  let e := w.eng + part
  let pc := w.wrec.piece w.tile part
  match aget m.walks wid with
  | none => m
  | some w1 =>
    let p := w1.parts.getD part Part.empty
    if pc.empty || !w.wrec.init then m
    else
      let x := m.engine e
      let acc := startAcc m w e p pc
      setPart (m.setEngine e { x with banks := update x.banks (p.bank.getD 0) fun b => { b with acc := acc } }) wid w1 part
        Part.freeInit

/-- The cycles of a k-step of a walk (R259). -/
def stepCycles (m : Mach) (w : Walk) : Nat :=
  (((walkLaunch m w).bind w.wrec.cls).map WalkClass.cycles).getD 0

/-- A k-step started: the array is occupied for its cycles. -/
def startStep (m : Mach) (wid : Nat) (w : Walk) : Mach :=
  let m1 := m.setWalk wid { w with busy := some (stepCycles m w) }
  if 0 < w.tries && w.kstep = 0 then
    match aget m1.walks wid with
    | some w1 => (List.range w.wrec.width_).foldl (reloadPart wid w1) m1
    | none => m1
  else m1

/-- KSTEP_START (R274). -/
def execKstepStart (walk : Nat) (s : State) : Host.Outcome State Fault Refusal :=
  event s fun m =>
    match aget m.walks walk with
    | some w => if canStep w then startStep m walk w else m
    | none => m

/-! The arithmetic of a k-step (R76). -/

/-- The format of an operand's elements by efmt (R62). -/
def elemFmt (efmt : Nat) : Fmt :=
  match efmt with
  | 0 => .fp64
  | 1 => .fp32
  | 2 => .fp16
  | 3 => .bf16
  | 4 => .e4m3
  | 5 => .e5m2
  | _ => .e2m1

/-- Element e of row r of a slot (R61, R263). -/
def slotElem (m : Mach) (base swz stride eb r e : Nat) : Nat :=
  if eb = 4 then
    bits (readByte m (.arm (base + slotOffset swz stride r (e / 2)))).toNat (4 * (e % 2)) 4
  else
    ofBytes ((List.range (eb / 8)).map fun i => readByte m (.arm (base + slotOffset swz stride r (e * (eb / 8) + i))))

/-- A fault of a scale read: the machine that it leaves, its cause, level and address (R279). -/
structure ScaleFault where
  mach  : Mach
  cause : Cause
  level : Nat
  addr  : Nat
  deriving DecidableEq, Repr

/-- A scale of a walk's operand, read as a relaxed .dev load in the posting context (R259). -/
def walkScale (core ctx : Nat) (f : Fmt) (size va : Nat) (m : Mach) : Except ScaleFault (Mach × FVal) :=
  match locateFor m core ctx va .read with
  | .error (m1, c, l) => .error { mach := m1, cause := c, level := l, addr := va }
  | .ok (m1, l) =>
    let (m2, bs) := farRead m1 l size
    .ok (m2, decodeF f (ofBytes bs))

/-- What an operand of a k-step is read with: its core for translation, context, descriptor, scale base, reduction length,
slot base, swizzle, stride, and element width. -/
structure OperandOf where
  core   : Nat
  ctx    : Nat
  d      : SlotDesc
  sbase  : Nat
  len    : Nat
  slot   : Nat
  swz    : Nat
  stride : Nat
  eb     : Nat
  deriving DecidableEq, Repr

/-- The scaled value of an element: row r of its slot, which is row i of the operand, at k position kk, which is element e of
the slot's row (R59, R64). -/
def OperandOf.value (o : OperandOf) (m : Mach) (r i e kk : Nat) : Except ScaleFault (Mach × FVal) :=
  let el := decodeF (elemFmt o.d.efmt) (slotElem m o.slot o.swz o.stride o.eb r e)
  let one : FVal := .fin false 1 0
  match (if o.d.blk = 0 then .ok (m, one)
      else walkScale o.core o.ctx .e3m5 1 (o.d.scaleAt o.sbase i kk o.len) m) with
  | .error f => .error f
  | .ok (m1, blk) =>
    match (if o.d.band then walkScale o.core o.ctx .bf16 2 (o.d.bandAt o.sbase i) m1 else .ok (m1, one)) with
    | .error f => .error f
    | .ok (m2, band) => .ok (m2, (scaledValue el blk band).1)

/-- The values of a row over the k positions of a k-step. -/
def OperandOf.row (o : OperandOf) (r i k0 : Nat) : Nat → Mach → Except ScaleFault (Mach × List FVal)
  | 0, m => .ok (m, [])
  | n + 1, m =>
    match o.row r i k0 n m with
    | .error f => .error f
    | .ok (m1, vs) =>
      match o.value m1 r i n (k0 + n) with
      | .error f => .error f
      | .ok (m2, v) => .ok (m2, vs ++ [v])

/-- The values of some rows. -/
def OperandOf.rows (o : OperandOf) (i0 k0 pk : Nat) : Nat → Mach → Except ScaleFault (Mach × List (List FVal))
  | 0, m => .ok (m, [])
  | n + 1, m =>
    match o.rows i0 k0 pk n m with
    | .error f => .error f
    | .ok (m1, rs) =>
      match o.row n (i0 + n) k0 pk m1 with
      | .error f => .error f
      | .ok (m2, r) => .ok (m2, rs ++ [r])

/-- The granules of a k-step accumulated in increasing k, each summed exactly and added with one rounding (R76). -/
def granules (f : Fmt) (granule : Nat) (a b : List FVal) : Nat → Nat → Nat
  | 0, acc => acc
  | n + 1, acc =>
    let acc1 := granules f granule a b n acc
    let ps := ((a.drop (n * granule)).take granule).zip ((b.drop (n * granule)).take granule)
    accumulate f acc1 (granuleSum (ps.map fun p => p.1.mul p.2))

/-- A bank with a k-step accumulated. -/
def Bank.step (b : Bank) (f : Fmt) (granule : Nat) (as_ bs : List (List FVal)) : Bank :=
  let n := ceilDiv ((as_.headD []).length) granule
  let acc := (List.range as_.length).foldl (fun acc r =>
    (List.range bs.length).foldl (fun acc c =>
      let x := ((aget acc (r * 1024 + c)).getD 0).toNat
      aput acc (r * 1024 + c) (BitVec.ofNat 64 (granules f granule (as_.getD r []) (bs.getD c []) n x))) acc) b.acc
  { b with acc := acc }

/-- The slot's offset that holds a pair. -/
def pairOff (l : List ASlot) (p : Nat) : Nat := ((l.find? fun x => x.pair = some p).map ASlot.off).getD 0

/-- A part's k-step accumulated into its bank; or the fault of a scale read. -/
def accumulatePart (m : Mach) (w : Walk) (l : LaunchRec) (part : Nat) : Except ScaleFault Mach :=
  let r := w.wrec
  let pc := r.piece w.tile part
  match w.parts[part]?, r.cls l with
  | some p, some c =>
    if pc.empty then .ok m
    else
      let e := w.eng + part
      let pair := w.tile * r.nk + w.kstep
      let k0 := w.kstep * r.tk
      let mk (slot swz off : Nat) : OperandOf :=
        { core := 8 * e, ctx := w.ctx, d := slotDesc l slot, sbase := l.scale.toNat, len := r.k,
          slot := e * 2 ^ 20 + off, swz := swz, stride := r.opStride c.eb, eb := c.eb }
      match (mk r.aslot r.aswz (pairOff p.aslots pair)).rows pc.i0 k0 (r.pk w.kstep) pc.prows m with
      | .error f => .error f
      | .ok (m1, as_) =>
        match (mk r.bslot r.bswz (pairOff p.bslots pair)).rows pc.j0 k0 (r.pk w.kstep) pc.pcols m1 with
        | .error f => .error f
        | .ok (m2, bs) =>
          let x := m2.engine e
          .ok (m2.setEngine e { x with banks := update x.banks (p.bank.getD 0) fun b => b.step r.accFmt c.granule as_ bs })
  | _, _ => .ok m

/-- Every part's k-step accumulated. -/
def accumulateAll (w : Walk) (l : LaunchRec) : Nat → Mach → Except ScaleFault Mach
  | 0, m => .ok m
  | n + 1, m =>
    match accumulateAll w l n m with
    | .error f => .error f
    | .ok m1 => accumulatePart m1 w l n

/-- A slot freed when the k-step that used it ends (R268). -/
def freePair (l : List ASlot) (p : Nat) : List ASlot := l.map fun x => if x.pair = some p then x.clear else x

/-- An engine's bank at the end of the tile's last k-step: it awaits its drain, or is free where the piece is empty
(R275). -/
def endBank (wid : Nat) (w : Walk) (m : Mach) (part : Nat) : Mach :=
  let e := w.eng + part
  let x := m.engine e
  match aget m.walks wid with
  | none => m
  | some w1 =>
    match w1.parts[part]? with
    | none => m
    | some p =>
      let b := p.bank.getD 0
      if (w.wrec.piece w.tile part).empty then
        setPart (m.setEngine e { x with banks := update x.banks b fun _ => Bank.empty }) wid w1 part fun p => { p with bank := none }
      else
        setPart (m.setEngine e { x with banks := update x.banks b fun k => { k with st := .awaiting } }) wid w1 part
          fun p => { p with bank := none, toDrain := p.toDrain ++ [(w.tile, b)] }

/-- The tile in accumulation ends on every engine (R267, R275): after the last tile the walk drains. -/
def endTile (m : Mach) (wid : Nat) (w : Walk) : Mach :=
  let m1 := (List.range w.wrec.width_).foldl (endBank wid w) m
  match aget m1.walks wid with
  | none => m1
  | some w1 =>
    let last := w.tile + 1 = w.wrec.tilesNo
    settleWalk (m1.setWalk wid { w1 with inTile := false, kstep := 0, tile := w.tile + 1, tries := 0,
                                         st := if last then .draining else w1.st,
                                         scause := if last then 0 else w1.scause }) wid

/-- A k-step that ended with no error: its slots are free, and after the tile's last one the tile ends. -/
def endStep (m : Mach) (wid : Nat) (w : Walk) : Mach :=
  let pair := w.tile * w.wrec.nk + w.kstep
  let parts := w.parts.map fun p => { p with aslots := freePair p.aslots pair, bslots := freePair p.bslots pair }
  let w1 := { w with parts := parts, busy := none, kstep := w.kstep + 1 }
  let m1 := m.setWalk wid w1
  if w1.kstep = w.wrec.nk then endTile m1 wid w1 else m1

/-- Whether a summons belongs to the tile that is rolled back, or is an init for a tile after it. (DEDUCED, log 26.) -/
def Summons.rolled (s : Summons) (wid tile : Nat) : Bool :=
  s.walk = wid && (match s.kind with
    | .a | .b => s.tile = tile
    | .init => true
    | .drain => false)

/-- A part as a rollback leaves it: the tile's slots are discarded, and its summonses start again (R285).
(DEDUCED, log 26.) -/
def Part.rollback (p : Part) (tile nk : Nat) : Part :=
  let drop (l : List ASlot) : List ASlot := l.map fun x =>
    match x.pair with
    | some q => if q / nk = tile then x.clear else x
    | none => x
  { p with aslots := drop p.aslots, bslots := drop p.bslots, islot := p.islot.map ASlot.clear, nextPair := tile * nk,
           nextInit := tile }

/-- A walk's banks in accumulation set to +0 on an engine. (DEDUCED, log 26.) -/
def zeroBank (wid : Nat) (m : Mach) (e : Nat) : Mach :=
  let x := m.engine e
  m.setEngine e { x with rback := x.rback + 1, banks := x.banks.map fun b =>
    if b.walk = wid && b.st = .accumulating then { b with acc := [], bad := [] } else b }

/-- The cluster of one of a walk's engines reported to its region and containment controller (R285). -/
def reportCluster (m : Mach) (w : Walk) : Mach :=
  { m.bump with fjarul := .accumulator (w.eng + m.pick w.wrec.width_) :: m.fjarul }

/-- An accumulator error (R285): the tile is rolled back on every engine; at the fourth in the same tile the walk aborts with
cause 5 and the cluster is reported. (DEDUCED, log 26.) -/
def rollTile (m : Mach) (wid : Nat) (w : Walk) : Mach :=
  if 3 ≤ w.tries then abortWalk (reportCluster m w) wid 5
  else
    let kept := afilter (fun _ s => !(s.rolled wid w.tile && s.group.isNone)) m.summons
    let m1 := { m with summons := amap (fun _ s => if s.rolled wid w.tile then { s with cancelled := true } else s) kept }
    let m2 := w.engines.foldl (zeroBank wid) m1
    m2.setWalk wid { w with parts := w.parts.map fun p => p.rollback w.tile w.wrec.nk, kstep := 0, busy := none,
                            tries := w.tries + 1, rback := w.rback + 1 }

/-- A scale read that faulted: it is reported, and the walk aborts with cause 4 (R279, R379). (DEDUCED, log 52.) -/
def scaleFault (wid : Nat) (w : Walk) (f : ScaleFault) : Mach :=
  let m1 := report f.mach w.ctx { Report.plain 9 f.cause.num with
    where_ := (if 16 ≤ f.cause.num && f.cause.num ≤ 19 then f.level else 0) * 2 ^ 24, addr := BitVec.ofNat 64 f.addr,
    extra := BitVec.ofNat 64 wid }
  abortWalk m1 wid 4

/-- An element of a part's bank whose check bits do not agree with it any more (R276, R285). -/
def spoil (m : Mach) (w : Walk) (part row col : Nat) : Mach :=
  match w.parts[part]? with
  | none => m
  | some p =>
    let x := m.engine (w.eng + part)
    m.setEngine (w.eng + part) { x with banks := update x.banks (p.bank.getD 0) fun b => { b with bad := (row * 1024 + col) :: b.bad } }

/-- A k-step whose cycles are over ends (R275, R285): what it adds is in the bank, or an error the engine finds rolls the tile
back; an error that only ACC.LD finds comes after the check of the tile's last k-step. -/
def finishStep (m : Mach) (walk : Nat) (err : AccError) : Mach :=
  match aget m.walks walk with
  | none => m
  | some w =>
    match walkLaunch m w with
    | none => m
    | some l =>
      if w.busy != some 0 || w.acause != 0 then m
      else if err = .found then rollTile m walk w
      else
        match accumulateAll w l w.wrec.width_ m with
        | .error f => scaleFault walk w f
        | .ok m1 =>
          match err with
          | .latent part row col => endStep (if w.kstep + 1 = w.wrec.nk then spoil m1 w part row col else m1) walk w
          | _ => endStep m1 walk w

/-- KSTEP_END (R275, R285). -/
def execKstepEnd (walk : Nat) (err : AccError) (s : State) : Host.Outcome State Fault Refusal :=
  event s fun m => finishStep m walk err

/-! A cycle of an engine (R277). -/

/-- Whether a summons is served by a group that is Trapped or Held. (DEDUCED, log 23.) -/
def troubled (m : Mach) (s : Summons) : Bool :=
  match s.group.bind m.grp? with
  | some g =>
    match g.st with
    | .trapped _ | .held _ | .heldHost => true
    | _ => false
  | none => false

/-- The cause charged to a walk that does not accumulate, on one of its engine parts, for the step it needs next (R277).
(DEDUCED, log 22; DEDUCED, log 23.) -/
def stallCause (m : Mach) (wid : Nat) (w : Walk) (part : Nat) : Nat :=
  let r := w.wrec
  let pair := w.tile * r.nk + (if w.inTile then w.kstep else 0)
  let p := w.parts.getD part Part.empty
  let needInit := r.init && (!w.inTile || (0 < w.tries && w.kstep = 0))
  let mine (s : Summons) : Bool := s.walk = wid && s.part = part && !s.cancelled && (match s.kind with
    | .a | .b => s.tile * r.nk + s.kstep = pair
    | .init => needInit && s.tile = w.tile
    | .drain => false)
  let empty := (r.piece w.tile part).empty
  let others := (List.range r.width_).filter (· != part)
  let slotsIn := (holdsPair p.aslots pair && holdsPair p.bslots pair
    && (!needInit || (match p.islot with
      | some x => x.pair = some w.tile
      | none => false))) || empty
  let bank (i : Nat) : Bool := w.inTile || bankFree m (w.eng + i)
  let ready (i : Nat) : Bool :=
    match w.parts[i]? with
    | some q => stepFilled w i q w.tile (if w.inTile then w.kstep else 0) && (!needInit || initFilled w i q w.tile)
        && (w.inTile || !accumulating m (w.eng + i)) && bank i
    | none => false
  if w.st = .frozen then 5
  else if aany (fun _ s => mine s && troubled m s) m.summons then 6
  else if ready part && others.any (fun i => !ready i) then 8
  else if !slotsIn then 7
  else if !empty && (!pairFilled p.aslots pair || (needInit && !initFilled w part p w.tile)) then 1
  else if !empty && !pairFilled p.bslots pair then 2
  else if !w.inTile && !bank part then 3
  else 4

/-- A charge added to an engine; 0 stands for a cycle in which it accumulates. (DEDUCED, log 22; DESIGN CHOICE, log 57.) -/
def chargeEngine (m : Mach) (e cause : Nat) : Mach :=
  let x := m.engine e
  if cause = 0 then m.setEngine e { x with acyc := x.acyc + 1 }
  else m.setEngine e { x with causes := update x.causes (cause - 1) (· + 1) }

/-- A walk that accumulates in this cycle on each of its engines. -/
def Walk.accumulates (w : Walk) (left : Nat) : Walk :=
  { w with busy := some left, acyc := w.acyc + w.wrec.width_, scause := 0, st := if w.st = .stalled then .walking else w.st }

/-- A walk that is charged a cause on each of its engines (R267, R277): an abort that waits keeps the state before it
(R267). -/
def Walk.charge (w : Walk) (cs : List Nat) : Walk :=
  let stalls := cs.foldl (fun s c => update s (c - 1) (· + 1)) w.stalls
  let st := if w.st = .frozen || w.acause != 0 then w.st else if cs.any (· != 4) then .stalled else .walking
  { w with stalls := stalls, st := st, scause := cs.headD 0 }

/-- One cycle of a walk in walking, stalled or frozen state: its array advances, or each of its engines is charged a cause
(R277). -/
def walkCycle (m : Mach) (wid : Nat) : Mach :=
  match aget m.walks wid with
  | none => m
  | some w =>
    match w.busy with
    | some (n + 1) => (w.engines.foldl (fun m e => chargeEngine m e 0) m).setWalk wid (w.accumulates n)
    | _ =>
      if !w.placed || !w.st.charged then m
      else
        let cs := (List.range w.wrec.width_).map (stallCause m wid w)
        let m1 := (w.engines.zip cs).foldl (fun m c => chargeEngine m c.1 c.2) m
        m1.setWalk wid (w.charge cs)

/-- A walk's next k-step started, where it can. -/
def stepWalk (m : Mach) (wid : Nat) : Mach :=
  match aget m.walks wid with
  | some w => if canStep w then startStep m wid w else m
  | none => m

/-- The walks in places whose lowest engine is this one. -/
def walksAt (m : Mach) (eng : Nat) : List Nat := (m.walks.filter fun kw => kw.2.placed && kw.2.eng = eng).map Prod.fst

/-- One arithmetic cycle of an engine (R274, R277): the k-steps whose cycles are over end, the tile and the k-steps that can
start do, and then every walk whose lowest engine it is takes its cycle. (DESIGN CHOICE, log 66.) -/
def engineCycle (m : Mach) (eng : Nat) : Mach :=
  let m0 := (walksAt m eng).foldl (fun m wid => finishStep m wid .clean) m
  let m1 := match nextStart m0 eng with
    | some (wid, w, place) => startTile m0 wid w eng place
    | none => chooseTurn m0 eng
  (walksAt m1 eng).foldl walkCycle ((walksAt m1 eng).foldl stepWalk m1)

end Sys2Proof.Machine
end

