-- ==== Sys2Proof/Machine/Place.lean ====
section
/-! DEFINITION. The saving of a team and its placement after (R79, R208, R252, R353, R374 to R376).
-/

namespace Sys2Proof.Machine

/-! Saving a team. -/

/-- A scratchpad byte beneath the slots, ring headers and log areas that stand over it. -/
def plainByte (m : Mach) (a : Nat) : Byte :=
  let l : Loc := .spad a
  match indetAt m.indet l.key with
  | some seed => Config.freeByte seed l.key
  | none => memRead m.mem l.key

/-- A core that a group leaves (R99, R94). -/
def Core.leave (c : Core) (gid : Nat) : Core :=
  { c.endChain gid with memset := adel c.memset gid }

/-- A group whose chain under way is interrupted by a save: SCR_TLPC is its first member's lane PC, and SCR_LXREM counts from
there (R95), but in a handler, whose trap these registers report. (DEDUCED, log 44.) -/
def Group.markChain (g : Group) : Group :=
  match (g.chain.bind fun c => c.issued.head?).filter fun _ => !g.isTrapped with
  | some e => { g with tlpc := e.lpc, lxrem := e.left }
  | none => g

/-- A group as it is saved (R79, R81): a chain under way goes back to its restart point (R95), a WAITA restarts (R187), and a
BAR.WAIT resumes at the instruction (R241). -/
def Group.save (g : Group) : Group :=
  { g.markChain.restartChain with saved := true, stuck := false, waitedFrom := none, bar := none }

/-- A group of a team that is saved: what it did before is released to what it does after (R208). -/
def saveGroup (m : Mach) (kg : Nat × Group) : Mach :=
  let m1 := (releaseBy m kg.1 kg.2).setGrp kg.1 kg.2.save
  m1.setCore kg.2.core ((m1.core kg.2.core).leave kg.1)

/-- The groups of a team, in group order. -/
def groupsOf (m : Mach) (tid : Nat) : List (Nat × Group) := m.groups.filter fun kg => kg.2.team = tid

/-- A team that holds a core, saved (R375): its groups, its share's bytes and its live slots. -/
def saveResident (m : Mach) (tid : Nat) (t : Team) : Mach :=
  let live := m.slots.filter fun kv => kv.2.team = tid
  let bytes := (List.range t.size).map fun i => plainByte m (t.share + i)
  let held := live.map fun kv => (kv.1 - t.share, kv.2)
  let m1 := (groupsOf m tid).foldl saveGroup m
  { m1 with teams := aput m1.teams tid { (aget m1.teams tid).getD t with saved := true, bytes := bytes, held := held },
            slots := afilter (fun _ b => b.team != tid) m1.slots }

/-- A team saved (R375), its ring quiesced first (R252); it holds no core any more. -/
def saveTeam (m : Mach) (tid : Nat) : Mach :=
  let m1 := quiesceRing m tid
  match aget m1.teams tid with
  | none => m1
  | some t => if t.saved then m1 else saveResident m1 tid t

/-! Placing it again. -/

/-- What a saved team needs of the cores it is placed on: its groups that have not ended, with the features given. -/
def savedNeed (m : Mach) (tid : Nat) (t : Team) (feat : Nat) : Need :=
  let gs := groupsOf m tid
  let one := gs.head?.map Prod.snd
  { groups := gs.length, width := (one.map Group.width).getD 32, nregs := (one.map Group.nregs).getD 8, share := t.size,
    feat := feat }

/-- A lane at the compactor follows its group to another die (R371). (DEDUCED, log 36.) -/
def moveLanes (m : Mach) (gid src dst : Nat) : Mach :=
  if src = dst then m
  else
    let d := m.die src
    let mine := d.lanes.filter fun l => l.origin.group = gid
    if mine.isEmpty then m
    else
      let m1 := m.setDie src { d with lanes := d.lanes.filter fun l => l.origin.group != gid }
      let d1 := m1.die dst
      m1.setDie dst { d1 with lanes := d1.lanes ++ mine }

/-- A group placed in a slot: its new core's L1 is invalidated, and it starts outside the memory set (R99, R208). -/
def placeGroup (m : Mach) (gid : Nat) (g : Group) (x : Slot) : Mach :=
  let c := m.core x.core
  let g1 := { g with core := x.core, slot := x.slot, saved := false, readyAt := c.cyc, issuedAt := c.cyc, throttledAt := none,
                     ready := [] }
  moveLanes ((m.setCore x.core { c with l1 := [] }).setGrp gid g1) gid (dieOf g.core) (dieOf x.core)

/-- Saved bytes put back. -/
def pokeBytes (m : Mach) (l : Loc) : List Byte → Mach
  | [] => m
  | b :: bs => pokeBytes (pokeByte m l b) (l.plus 1) bs

/-- A kernel whose queries of some groups name answer slots in a share that has moved. (DEDUCED, log 36.) -/
def Kernel.moveQueries (k : Kernel) (gids : List Nat) (old new : Nat) : Kernel :=
  let move (q : Nat × Dword) : Nat × Dword :=
    if gids.contains q.1 then (q.1, BitVec.ofNat 64 (q.2.toNat - old + new)) else q
  { k with queries := k.queries.map move, parked := k.parked.map move }

/-- A saved team as it is placed again: on another cluster no completion of its name 0 is timed yet (R255). -/
def Team.placed (t : Team) (p : Placement) (share : Nat) (old : Option Nat) : Team :=
  { t with saved := false, share := share, bytes := [], held := [], spans := onTwoCores p,
           timed := t.timed && old = p.slots.head?.map fun x => clusterOf x.core }

/-- A saved team put where a placement says, without the check that it fits (R375): its share's bytes and live slots are
put back at its new place. (DEDUCED, log 36.) -/
def unsaveTeam (m : Mach) (tid : Nat) (t : Team) (p : Placement) : Mach :=
  let share := if t.size = 0 then 0 else p.core * spadSize + p.off
  let gs := groupsOf m tid
  let m1 := (gs.zip p.slots).foldl (fun m x => placeGroup m x.1.1 x.1.2 x.2) m
  let m2 := pokeBytes m1 (.spad share) t.bytes
  let m3 := { m2 with slots := t.held.foldl (fun s (kv : Nat × BSlot) => aput s (share + kv.1) kv.2) m2.slots }
  let m4 := match aget m3.kerns t.kern with
    | some k => m3.setKern t.kern (k.moveQueries (gs.map Prod.fst) t.share share)
    | none => m3
  m4.setTeam tid (((aget m4.teams tid).getD t).placed p share (gs.head?.map fun kg => clusterOf kg.2.core))

/-- A context without the image of a team in its save area. -/
def Context.dropTeamImage (c : Context) (tid : Nat) : Context :=
  { c with images := c.images.filter fun i => !(i.kind = 2 && i.ref = tid) }

/-- A saved team of a context placed again, on cores that hold the features given; none where it does not fit.
(DEDUCED, log 36.) -/
def placeSaved (m : Mach) (ctx tid feat : Nat) (p : Placement) : Option Mach :=
  match aget m.teams tid, aget m.ctxs ctx with
  | some t, some c =>
    if t.saved && t.ctx = ctx && needFits m ctx (savedNeed m tid t feat) p then
      some (unsaveTeam (m.setCtx ctx (c.dropTeamImage tid)) tid t p)
    else none
  | _, _ => none

/-- The first saved team of a context that belongs to a kernel. -/
def firstSaved (m : Mach) (ctx kern : Nat) : Option Nat :=
  (m.teams.find? fun kt => kt.2.ctx = ctx && kt.2.kern = kern && kt.2.saved).map Prod.fst

end Sys2Proof.Machine
end

