-- ==== Sys2Proof/Machine/Kernel.lean ====
section
/-! DEFINITION. The admission of teams (R352, R353) and the work distributor (R355 to R358). -/

namespace Sys2Proof.Machine

/-! Admission. -/

/-- The number of a grid's teams. -/
def LaunchRec.teams (r : LaunchRec) : Nat := r.gx * r.gy * r.gz

/-- Whether a kernel is the first of its context that still admits teams (R353); a pre-empted team is placed before. -/
def firstAdmitting (m : Mach) (kid : Nat) (k : Kernel) : Bool :=
  !aany (fun i x => i < kid && x.ctx = k.ctx && x.st = .admitting) m.kerns
    && !aany (fun _ t => t.ctx = k.ctx && t.saved) m.teams

/-- Teams from number t on admitted one after another where the placements put them; none if one of them does not fit
(R353). (DEDUCED, log 54.) -/
def admitAll (ctx kid : Nat) (r : LaunchRec) : List Placement → Nat → Mach → Option Mach
  | [], _, m => some m
  | p :: rest, t, m =>
    if teamFits m ctx kid r p then admitAll ctx kid r rest (t + 1) (admitTeam m ctx kid t r p) else none

/-- A kernel whose last team was admitted is resident: its kernel count drops once every group's own count has been
applied at the root (R302, R352). -/
def dropKernelCount (m : Mach) (kid : Nat) (k : Kernel) : Mach :=
  let m1 := (flushAll m).setKern kid { k with st := .resident }
  settleKernel (progress (countRoot m1 k.ctx k.lrec.node k.lrec.stamp (-1)) k.ctx) kid

/-- New teams of a kernel admitted (R353): the next one, or every team of a cooperative one in one step. -/
def admitNext (m : Mach) (kern : Nat) (k : Kernel) (ats : List Placement) : Mach :=
  let n := if k.lrec.coop then k.lrec.teams else 1
  if k.st != .admitting || ats.length != n || !firstAdmitting m kern k then m
  else
    match admitAll k.ctx kern k.lrec ats k.nextTeam m with
    | none => m
    | some m1 =>
      let k1 := { k with nextTeam := k.nextTeam + n }
      if k1.nextTeam = k.lrec.teams then dropKernelCount m1 kern k1 else m1.setKern kern k1

/-- The active context that a kernel, or the team of a compacted group, belongs to. -/
def admitCtx (m : Mach) (kern : Nat) : Option Nat :=
  let ctx : Option Nat := match aget m.kerns kern with
    | some k => some k.ctx
    | none => (m.teams.find? fun kt => kt.2.kern = kern).map fun kt => kt.2.ctx
  ctx.filter fun c => mayResume m c

/-- TEAM_ADMIT (R353, R376): a pre-empted team is placed ahead of every team not yet admitted; else the next team of the
kernel is admitted where it fits. -/
def execTeamAdmit (kern : Nat) (ats : List Placement) (s : State) : Host.Outcome State Fault Refusal :=
  event s fun m =>
    match admitCtx m kern with
    | none => m
    | some ctx =>
      match firstSaved m ctx kern, ats with
      | some tid, [p] => (placeSaved m ctx tid (featOf m kern) p).getD m
      | some _, _ => m
      | none, _ =>
        match aget m.kerns kern with
        | some k => admitNext m kern k ats
        | none => m

/-! The distributor. -/

/-- The queries of a group that are outstanding. -/
def Kernel.asked (k : Kernel) (gid : Nat) : Nat := k.queries.countP fun q => q.1 = gid

/-- The answer slot of a query: its place over all scratchpads, if it lies inside the team's share (R357). -/
def answerSlot (m : Mach) (g : Group) (va : Nat) : Option Nat :=
  match spadOf g va, aget m.teams g.team with
  | some a, some t => if t.share ≤ a && a + 16 ≤ t.share + t.size then some a else none
  | _, _ => none

/-- A query posted: word 3 of the answer slot is cleared first (R357). -/
def postQuery (m : Mach) (gid : Nat) (g : Group) (k : Kernel) (a : Nat) : Mach :=
  let m1 := writeNat m (.spad (a + 12)) 4 0
  retire (m1.setKern g.kern { k with queries := k.queries ++ [(gid, BitVec.ofNat 64 a)] }) gid g (scalarCode 0x2C 0)

/-- WDQ.NEXT (R357). -/
def execWdqNext (sa : Sreg) (s : State) : Host.Outcome State Fault Refusal :=
  groupStep s fun gid g =>
    if 0 < g.depth then scalarTrap s.m gid .workQueryInRegion
    else if (g.s sa).toNat % 16 != 0 then scalarTrapAt s.m gid .misaligned (g.s sa)
    else
      match answerSlot s.m g (g.s sa).toNat, aget s.m.kerns g.kern with
      | some a, some k => if 4 ≤ k.asked gid then wait s.m gid g else postQuery s.m gid g k a
      | _, _ => scalarTrap s.m gid .workAnswer

/-- A work item (R355, R356). -/
structure WorkItem where
  index : Nat
  yx    : Nat
  tag   : Nat
  deriving DecidableEq, Repr

/-- The end-of-work token. -/
def WorkItem.token : WorkItem := { index := 0xFFFFFFFF, yx := 0, tag := 0 }

/-- The record at the head of a kernel's work queue. (DEDUCED, log 54.) -/
def queuedItem (m : Mach) (base ix : Nat) : WorkItem :=
  let l : Loc := .chip (base + 16 * ix)
  { index := readNat m l 4, yx := readNat m (l.plus 4) 4, tag := readNat m (l.plus 8) 4 }

/-- The next item with the kernel after it, the token, or nothing where the query waits for a feed (R356).
(DEDUCED, log 54.) -/
def Kernel.next (m : Mach) (k : Kernel) : Option (WorkItem × Kernel) :=
  let r := k.lrec
  if k.nextItem < r.wx * r.wy then
    let i := k.nextItem
    some ({ index := i, yx := i % r.wx + i / r.wx * 2 ^ 16, tag := 0 }, { k with nextItem := i + 1 })
  else
    match k.wqBase with
    | some b =>
      if 0 < k.wqCount then
        some (queuedItem m b k.wqHead, { k with wqHead := (k.wqHead + 1) % 2 ^ r.wqlog, wqCount := k.wqCount - 1 })
      else if r.wq && !k.closed then none
      else some (WorkItem.token, k)
    | none => some (WorkItem.token, k)

/-- A list without its first element that passes a test. -/
def dropFirst {α : Type} (p : α → Bool) : List α → List α
  | [] => []
  | x :: r => if p x then r else x :: dropFirst p r

/-- Whether a group's answers may be written: its team holds its share (R358). -/
def mayAnswer (m : Mach) (gid : Nat) : Bool :=
  (((m.grp? gid).bind fun g => aget m.teams g.team).map fun t => !t.saved).getD true

/-- A query answered with an item, as the oldest of its group (R357). (DEDUCED, log 54.) -/
def giveItem (m : Mach) (kid gid addr : Nat) (it : WorkItem) (k : Kernel) : Mach :=
  let mine (q : Nat × Dword) : Bool := q.1 = gid
  let m1 := m.setKern kid { k with queries := dropFirst mine k.queries, parked := dropFirst mine k.parked }
  let bs := toBytes 4 it.index ++ toBytes 4 it.yx ++ toBytes 4 it.tag ++ toBytes 4 1
  progress (agentWrite m1 (.spad addr) bs) k.ctx

/-- The oldest query of a group that does not yet wait at the distributor waits there (R356). -/
def Kernel.park (k : Kernel) (gid : Nat) : Kernel :=
  let waiting := k.parked.countP fun q => q.1 = gid
  { k with parked := k.parked ++ ((k.queries.filter fun q => q.1 = gid).drop waiting).take 1 }

/-- The distributor serves the oldest query of a group (R356): it takes the next item, unless none is there or others have
waited longer; then it waits behind them.  An answer is written where the team holds its share (R358). (DEDUCED, log 54.) -/
def answerQuery (m : Mach) (kid gid : Nat) (k : Kernel) : Mach :=
  let first := ((k.parked.head?).map fun p => decide (p.1 = gid)).getD true
  match k.queries.find? (fun q => q.1 = gid), k.next m with
  | some q, some (it, k1) =>
    if !first then m.setKern kid (k.park gid)
    else if mayAnswer m gid then giveItem m kid gid q.2.toNat it k1
    else m
  | _, _ => m.setKern kid (k.park gid)

/-- WORK_ANSWER (R357): the kernel whose query of the group is outstanding answers it. -/
def execWorkAnswer (g : Nat) (s : State) : Host.Outcome State Fault Refusal :=
  event s fun m =>
    match m.kerns.find? fun kk => kk.2.queries.any fun q => q.1 = g with
    | some (kid, k) => answerQuery m kid g k
    | none => m

end Sys2Proof.Machine
end

