-- ==== Sys2Proof/Machine/Traps.lean ====
section
/-! DEFINITION. The delivery of traps (R366, R367), the compactor (R371, R372), WAITA's rereading (R187) and the
throttling of memory instructions (R99).
-/

namespace Sys2Proof.Machine

/-! Delivery. -/

/-- The trap registers set from a queue entry (R367); a copy fault, which comes from the engine, resumes where the group
stands (R248). -/
def Group.loadTrap (g : Group) (t : TrapRec) : Group :=
  let g1 := { g with tcause := t.tcause, tspc := t.tspc, tlpc := t.tlpc, taddr := t.taddr, tmemb := t.tmemb,
                     lxrem := t.lxrem, folded := t.folded }
  if t.tcause.toNat % 256 = 48 then { g1 with tspc := g.spc, tlpc := g.lpc } else g1

/-- The report of a trap that the group's trap registers hold (R366, R379). -/
def heldReport (kind : Nat) (g : Group) : Report :=
  let cause := g.tcause.toNat % 256
  { kind := kind, src := 0, cause := cause, where_ := originOf g + levelOf cause g.taddr * 2 ^ 24, spc := g.tspc,
    lpc := BitVec.ofNat 64 g.tlpc,
    addr := if 16 ≤ cause && cause ≤ 19 then BitVec.ofNat 64 (bits g.taddr.toNat 0 57) else g.taddr, extra := 0 }

/-- A group whose instruction a trap interrupts: a wait of it is over, and it goes on from its start after the trap. -/
def Group.interrupted (g : Group) : Group :=
  { g with asideWait := g.phaseWait, stuck := false, waitedFrom := none, bar := none }

/-- A group that enters its handler (R367): its queues are set aside, and its PC is the handler's. -/
def Group.enterHandler (g : Group) (tsbase target : Nat) : Group :=
  { g with st := .trapped .running, spc := BitVec.ofNat 64 (tsbase + target), aside := some g.qs, qs := Queues.empty }

/-- Whether the group stands between two instructions, ready for a trap: Ready or Waiting, with nothing half done. -/
def Group.betweenInstrs (g : Group) : Bool :=
  (match g.st with
    | .ready | .waiting _ => true
    | _ => false) && g.fabric = .none && g.lx.isNone && g.chain.isNone && !g.saved

/-- The head of a group's trap queue delivered by its disposition (R366, R367). -/
def deliverTrap (m : Mach) (gid : Nat) (g : Group) (c : Context) (t : TrapRec) : Mach :=
  let g1 := { (g.loadTrap t).interrupted with traps := g.traps.drop 1 }
  match t.disp with
  | 1 => m.setGrp gid (g1.enterHandler c.desc.tsbase t.target)
  | 2 => report (m.setGrp gid { g1 with st := .trapped .host }) g.ctx (heldReport 1 g1)
  | _ => stopContext (report (m.setGrp gid { g1 with st := .trapped .stopped }) g.ctx (heldReport 2 g1)) g.ctx

/-- TRAP_DELIVERY (R367). -/
def execTrapDelivery (g : Nat) (s : State) : Host.Outcome State Fault Refusal :=
  event s fun m =>
    match m.grp? g with
    | none => m
    | some x =>
      match x.traps.head?, aget m.ctxs x.ctx with
      | some t, some c => if x.betweenInstrs && ctxRuns m x.ctx then deliverTrap m g x c t else m
      | _, _ => m

/-! The compactor (R371). -/

/-- The lanes at a compactor that a group of one lane's context and cause takes: the first 32, in order of arrival. -/
def FaultLane.batch (f : FaultLane) (ls : List FaultLane) : List FaultLane :=
  (ls.filter fun x => x.ctx = f.ctx && x.cause = f.cause).take 32

/-- The lanes with which a batch that is to be emitted begins: a full one, or, once its oldest lane has waited 256
cycles, any. -/
def emissions (ls : List FaultLane) (late : Bool) : List FaultLane :=
  ls.filter fun f => late || (f.batch ls).length = 32

/-- A compacted group's state (R371, R372). -/
def Group.startLanes (g : Group) (pc cause : Nat) (b : List FaultLane) : Group :=
  let mask : Dword := BitVec.ofNat 64 (2 ^ b.length - 1)
  let v := ((List.range b.length).zip b).foldl (fun v x =>
    (List.range 4).foldl (fun v n => putV v (n * 128 + x.1) (x.2.tag.getD n 0)) v) g.v
  { ((g.setS 1 mask).setS 61 mask).setS 2 (BitVec.ofNat 64 cause) with
    spc := BitVec.ofNat 64 pc, st := .trapped .running, v := v, origins := b.map FaultLane.origin }

/-- The lanes of a batch leave the compactor. -/
def takeLanes (f : FaultLane) (b ls : List FaultLane) : List FaultLane :=
  let mine := ls.filter fun x => x.ctx = f.ctx && x.cause = f.cause
  ls.filter (fun x => !(x.ctx = f.ctx && x.cause = f.cause)) ++ mine.drop b.length

/-- A batch emitted as a group of 32 lanes in a team of its own, where it fits on the die; its handler's offset is the one
that its oldest lane brought (R366). (DESIGN CHOICE, log 17; DEDUCED, log 53.) -/
def emitLanes (m : Mach) (die : Nat) (at_ : Slot) (f : FaultLane) (c : Context) : Mach :=
  let d := m.die die
  let b := f.batch d.lanes
  match admitOne m f.ctx m.nextId .compacted at_ 32 (8 * c.desc.hregs) 0 none with
  | none => m
  | some (m1, gid, g) =>
    let pc := c.desc.tsbase + (b.headD f).loff
    let m2 := m1.setDie die { m1.die die with lanes := takeLanes f b d.lanes }
    m2.setGrp gid (g.startLanes pc f.cause b)

/-- COMPACTOR_EMIT (R371). -/
def execCompactorEmit (die : Nat) (late : Bool) (at_ : Slot) (s : State) : Host.Outcome State Fault Refusal :=
  event s fun m =>
    let es := emissions (m.die die).lanes late
    match es[m.pick es.length]? with
    | none => m
    | some f =>
      match aget m.ctxs f.ctx with
      | some c => if c.st = .active && dieOf at_.core = die then emitLanes m.bump die at_ f c else m
      | none => m

/-! WAITA (R187). -/

/-- A group's WAITA reads its location again, after so many control cycles of its core. (DESIGN CHOICE, log 12.) -/
def recheck (s : State) (g cycles : Nat) (x : Group) : Host.Outcome State Fault Refusal :=
  let c := s.m.core x.core
  let m1 := { s.m.setCore x.core { c with clk := c.clk + cycles } with cur := g }
  match nextScalar m1 x with
  | (m2, .waita cc sd sa sb) => execWaita cc sd sa sb { s with m := m2 }
  | _ => .next s

/-- WAITA_RECHECK (R187): a group that waits at a WAITA reads again. -/
def execWaitaRecheck (g cycles : Nat) (s : State) : Host.Outcome State Fault Refusal :=
  match s.m.grp? g with
  | none => .next s
  | some x =>
    if x.waitedFrom.isSome && x.fabric = .none && !x.saved && ctxRuns s.m x.ctx && x.traps.isEmpty then recheck s g cycles x
    else .next s

/-! Throttling (R99). -/

/-- Whether lane instructions of a group in this state issue. (DEDUCED, log 13.) -/
def GState.lanesIssue : GState → Bool
  | .ready | .waiting _ | .trapped .running => true
  | _ => false

/-- The members of a core's memory set: the groups on it that are in it. (DEDUCED, log 51.) -/
def members (m : Mach) (core : Nat) : AMap Nat :=
  afilter (fun gid _ => ((m.grp? gid).map fun g => decide (g.core = core) && !g.saved).getD false) (m.core core).memset

/-- The member that issued a memory instruction least recently. (DEDUCED, log 51.) -/
def leastRecent : AMap Nat → Option (Nat × Nat)
  | [] => none
  | x :: r =>
    match leastRecent r with
    | none => some x
    | some y => if x.2 ≤ y.2 then some x else some y

/-- The least recent members leave until the set fits. (DEDUCED, log 51.) -/
def trimSet (limit : Nat) : Nat → AMap Nat → AMap Nat
  | 0, l => l
  | n + 1, l =>
    if l.length ≤ limit then l
    else
      match leastRecent l with
      | none => l
      | some x => trimSet limit n (adel l x.1)

/-- THROTTLE_WINDOW (R99): the core's score over its last 1024 misses sets the limit. -/
def execThrottleWindow (core hits : Nat) (s : State) : Host.Outcome State Fault Refusal :=
  event s fun m =>
    if 1024 < hits then m
    else
      let limit := max 4 (64 - hits / 16)
      let set_ := members m core
      m.setCore core { m.core core with hits := hits, limit := limit, memset := trimSet limit set_.length set_ }

/-- Whether the head of a group's lane issue queue is a memory instruction (R99). -/
def Group.headMemory (g : Group) : Bool :=
  match g.qs.liq.head? with
  | some e => e.bad.isNone && (e.ins.map isMemory).getD false
  | none => false

/-- Whether a group is throttled (R99): one whose lanes issue, with a memory instruction at its head, outside a set that
is full, with no chain under way and no summons to serve. (DEDUCED, log 51.) -/
def throttled (m : Mach) (gid : Nat) (g : Group) : Bool :=
  g.st.lanesIssue && !g.saved && g.headMemory && g.chain.isNone && g.serving.isNone
    && (aget (members m g.core) gid).isNone && (m.core g.core).limit ≤ (members m g.core).length

/-- A group with the cycle since which it has been throttled, if it is (R99). -/
def Group.markThrottled (g : Group) (m : Mach) (gid : Nat) : Group :=
  { g with throttledAt := if throttled m gid g then some (g.throttledAt.getD (m.core g.core).cyc) else none }

/-- The groups of a core marked, as its lane issue looks at them (R99). -/
def markThrottled (m : Mach) (core : Nat) : Mach :=
  { m with groups := amap (fun gid g => if g.core = core then g.markThrottled m gid else g) m.groups }

/-- A group that has left Ready leaves its core's memory set (R99). -/
def leaveSet (before m : Mach) (gid : Nat) (g : Group) : Mach :=
  if ((before.grp? gid).map Group.st) = some .ready && g.st != .ready then
    m.setCore g.core { m.core g.core with memset := adel (m.core g.core).memset gid }
  else m

/-- The groups that have left Ready in a step leave the memory sets (R99). -/
def leaveSets (before m : Mach) : Mach := m.groups.foldl (fun m kg => leaveSet before m kg.1 kg.2) m

/-- THROTTLE_DISPLACE (R99): a group that has been throttled for 512 cycles takes the place of the least recent member.
(DEDUCED, log 51.) -/
def execThrottleDisplace (g : Nat) (s : State) : Host.Outcome State Fault Refusal :=
  event s fun m =>
    match m.grp? g with
    | none => m
    | some x =>
      let c := m.core x.core
      match leastRecent (members m x.core) with
      | some y =>
        if throttled m g x && ((x.throttledAt.map fun t => decide (t + 512 ≤ c.cyc)).getD false) then
          m.setCore x.core { c with memset := aput (adel (members m x.core) y.1) g c.cyc }
        else m
      | none => m

/-- MEMORY_SET_LEAVE (R99): a member that has issued no memory instruction for 64 cycles leaves. -/
def execMemorySetLeave (g : Nat) (s : State) : Host.Outcome State Fault Refusal :=
  event s fun m =>
    match m.grp? g with
    | none => m
    | some x =>
      let c := m.core x.core
      match aget c.memset g with
      | some last => if last + 64 ≤ c.cyc then m.setCore x.core { c with memset := adel c.memset g } else m
      | none => m

end Sys2Proof.Machine
end

