-- ==== Sys2Proof/Machine/Save.lean ====
section
/-! DEFINITION. Save images and casts (R283, R375), the immediate freeze of a walk (R282), the suspension, saving and
restoring of a context (R363, R374, R375), and pre-emption (R376).
-/

namespace Sys2Proof.Machine

/-! Images. -/

/-- A size rounded up to a multiple of 64. -/
def round64 (n : Nat) : Nat := 64 * ceilDiv n 64

/-- Where a context's next image begins in its save area. -/
def nextImage (c : Context) : Nat := c.images.foldl (fun a i => max a (round64 (i.addr + i.size))) c.desc.savebase

/-- What an image is of and what its header says: its kind (1 context, 2 team, 3 cast), the team or walk, the engine part,
the size of its body, and the header's own fields (R283, R375). -/
structure ImageOf where
  kind : Nat
  ref  : Nat
  part : Nat
  body : Nat
  hi   : Nat
  w2   : Nat
  w3   : Nat
  deriving DecidableEq, Repr

/-- The header's words but for its valid bit (R283, R375). -/
def ImageOf.words (i : ImageOf) (check : Dword) : List Nat :=
  [Config.version.toNat + i.hi * 2 ^ 32, 0, i.w2, i.w3, check.toNat, 0, 0, 0]

/-- An image written after a context's other images, its valid bit last of all; an image that does not fit the save area is
not written. (DESIGN CHOICE, log 16.) -/
def writeImage (m : Mach) (ctx : Nat) (valid : Bool) (i : ImageOf) : Mach :=
  match aget m.ctxs ctx with
  | none => m
  | some c =>
    let a := nextImage c
    if c.desc.savebase + c.desc.savesize < a + 64 + i.body then m
    else
      let check := Config.checkValue [m.free]
      let m1 := makeIndet m (.dev (a + 64)) i.body
      let m2 := writeBytes m1 (.dev a) ((i.words check).flatMap (toBytes 8))
      let m3 := if valid then writeNat m2 (.dev (a + 8)) 8 1 else m2
      m3.setCtx ctx { c with images := c.images ++
        [{ kind := i.kind, ref := i.ref, part := i.part, addr := a, size := 64 + i.body, check := check, seed := m.free }] }

/-- The valid bits of a context's images written. -/
def setValid (m : Mach) (c : Context) (v : Nat) : Mach :=
  c.images.foldl (fun m i => writeNat m (.dev (i.addr + 8)) 8 v) m

/-- The image of a team (R375). (DESIGN CHOICE, log 16.) -/
def teamImage (m : Mach) (ctx tid : Nat) (t : Team) : ImageOf :=
  let n := savedNeed m tid t 0
  let body := Config.bodySize [2, n.groups, n.width, n.nregs, n.share]
  { kind := 2, ref := tid, part := 0, body := body, hi := ctx, w2 := 64 + body, w3 := 2 }

/-- The image of a context (R375). (DESIGN CHOICE, log 16.) -/
def contextImage (m : Mach) (ctx : Nat) (c : Context) : ImageOf :=
  let n {α : Type} (l : AMap α) (p : α → Bool) : Nat := l.countP fun kv => p kv.2
  let body := Config.bodySize [1, c.desc.poolsize, n m.teams fun t => t.ctx = ctx, n m.walks fun w => w.ctx = ctx,
    n m.kerns fun k => k.ctx = ctx]
  { kind := 1, ref := ctx, part := 0, body := body, hi := ctx, w2 := 64 + body, w3 := 1 }

/-- The body of a cast in bytes (R283). -/
def castBody : Nat := 512 * 1024

/-- The code of a bank's state in a cast (R283). -/
def bankCode (bs : List SavedBank) (part ix : Nat) : Nat :=
  match bs.find? fun b => b.part = part && b.ix = ix with
  | some b =>
    match b.bank.st with
    | .free => 0
    | .accumulating => 1
    | _ => 2
  | none => 0

/-- The cast of one of a walk's engines (R283). (DESIGN CHOICE, log 16.) -/
def castImage (wid : Nat) (w : Walk) (part : Nat) : ImageOf :=
  { kind := 3, ref := wid, part := part, body := castBody, hi := wid, w2 := w.tile,
    w3 := (if w.inTile then w.kstep else 0) + bankCode w.banks part 0 * 2 ^ 16 + bankCode w.banks part 1 * 2 ^ 18
      + w.ctx * 2 ^ 32 }

/-! Freezing at once (R282). -/

/-- The banks that a walk holds on its engines: one under drain awaits its drain again (R284). -/
def castBanks (m : Mach) (wid : Nat) (w : Walk) : List SavedBank :=
  (List.range w.wrec.width_).flatMap fun part =>
    let bs := (m.engine (w.eng + part)).banks
    (List.range bs.length).filterMap fun ix =>
      let b := bs.getD ix Bank.empty
      if b.st != .free && b.walk = wid then
        some { part := part, ix := ix, bank := if b.st = .draining then { b with st := .awaiting } else b }
      else none

/-- The drains that a part's banks await, the earlier tile first. -/
def awaited (bs : List SavedBank) (part : Nat) : List (Nat × Nat) :=
  match (bs.filter fun b => b.part = part && b.bank.st = .awaiting).map fun b => (b.bank.tile, b.ix) with
  | [x, y] => if y.1 < x.1 then [y, x] else [x, y]
  | l => l

/-- A part of a walk that is frozen at once: its slots are discarded, and its summonses start again from the k-step that
the tile in accumulation had reached, or from the next tile (R284). -/
def Part.recast (p : Part) (w : Walk) (due : List (Nat × Nat)) : Part :=
  { p with aslots := p.aslots.map ASlot.clear, bslots := p.bslots.map ASlot.clear, islot := p.islot.map ASlot.clear,
           nextPair := w.tile * w.wrec.nk + (if w.inTile then w.kstep else 0),
           nextInit := if w.inTile && !(0 < w.tries && w.kstep = 0) then w.tile + 1 else w.tile,
           toDrain := due, drains := [] }

/-- The parts of a walk with an index each. -/
def recastParts (w : Walk) (bs : List SavedBank) : List Part :=
  ((List.range w.parts.length).zip w.parts).map fun x => x.2.recast w (awaited bs x.1)

/-- A walk leaves its engines and their intake; spawned groups with nothing left to serve there end (R269). -/
def leaveEngines (m : Mach) (wid : Nat) (w : Walk) : Mach :=
  let m1 := w.engines.foldl (fun m e => m.setEngine e (releaseEngine wid (m.engine e))) m
  w.engines.foldl (fun m e => sweepSpawned m w.ctx e) m1

/-- A cast written for each engine of a walk (R282, R283). -/
def writeCasts (valid : Bool) (m : Mach) (wid : Nat) (w : Walk) : Mach :=
  (List.range w.wrec.width_).foldl (fun m part => writeImage m w.ctx valid (castImage wid w part)) m

/-- A walk frozen at once (R282): its summonses in service are cancelled, a cast of each engine is to be written, and its
places and armature are released. A k-step under way starts again at the resume. -/
def freezeNow (m : Mach) (wid : Nat) : Mach :=
  match aget m.walks wid with
  | none => m
  | some w =>
    if w.over || w.acause != 0 || w.st = .frozen then m
    else if w.st = .posted || w.st = .queued then freezeTile m wid
    else
      let kept := afilter (fun _ s => s.walk != wid || s.group.isSome) m.summons
      let bs := castBanks m wid w
      let w1 := { w with prior := w.st, st := .frozen, freezing := false, cast := true, placed := false, busy := none,
                         told := false, banks := bs, parts := recastParts w bs }
      let m1 := { m with summons := amap (fun _ s => s.cancel wid) kept }
      leaveEngines (m1.setWalk wid w1) wid w

/-- A walk frozen in the commanded mode (R282). -/
def freezeAs (now : Bool) (m : Mach) (wid : Nat) : Mach := if now then freezeNow m wid else freezeTile m wid

/-- The walks of a context. -/
def walksOf (m : Mach) (ctx : Nat) : List (Nat × Walk) := m.walks.filter fun kw => kw.2.ctx = ctx

/-- The teams of a context. -/
def teamsOf (m : Mach) (ctx : Nat) : List (Nat × Team) := m.teams.filter fun kt => kt.2.ctx = ctx

/-! SUSPEND. -/

/-- Whether an image of a kind and a team or walk stands in the save area. -/
def Context.hasImage (c : Context) (kind ref : Nat) : Bool := c.images.any fun i => i.kind = kind && i.ref = ref

/-- The casts of a context that are still to be written. -/
def writeNewCasts (valid : Bool) (m : Mach) (ctx : Nat) : Mach :=
  (walksOf m ctx).foldl (fun m kw =>
    if kw.2.cast && ((aget m.ctxs ctx).map fun c => c.hasImage 3 kw.1) = some false then writeCasts valid m kw.1 kw.2 else m) m

/-- Whether a freeze at once would cast a walk. -/
def Walk.casts (w : Walk) : Bool :=
  !w.over && w.acause = 0 && w.st != .frozen && w.st != .posted && w.st != .queued

/-- The bytes that the images of a context need in its save area (R375). -/
def imageBytes (m : Mach) (ctx : Nat) (c : Context) (now : Bool) : Nat :=
  let teams := (teamsOf m ctx).filter fun kt => !c.hasImage 2 kt.1
  let walks := (walksOf m ctx).filter fun kw => (now && kw.2.casts) || (kw.2.cast && !c.hasImage 3 kw.1)
  nextImage c - c.desc.savebase + (teams.map fun kt => round64 (64 + (teamImage m ctx kt.1 kt.2).body)).sum
    + (walks.map fun kw => kw.2.wrec.width_ * (64 + castBody)).sum + 64 + (contextImage m ctx c).body

/-- A context suspended (R363, R375): its save watchdog starts, its queues are suspended, and its walks are frozen in the
commanded mode. -/
def suspendNow (m : Mach) (ctx : Nat) (c : Context) (now : Bool) : Mach :=
  let m1 := m.setCtx ctx { c with st := .suspending, svCount := 0, castNow := now, vacating := none }
  (walksOf m1 ctx).foldl (fun m kw => freezeAs now m kw.1) (suspendQueues m1 ctx)

/-- Whether a walk has come to rest. -/
def Walk.rests (w : Walk) : Bool := w.over || (w.st = .frozen && w.acause = 0)

/-- Whether no answer of a kernel that could be written is outstanding for some groups (R358). -/
def answered (m : Mach) (mine : Nat → Bool) : Bool :=
  m.kerns.all fun kk => !(kk.2.queries.any fun q => mine q.1) || (kk.2.next m).isNone

/-- Whether every group, walk and answer of a context has come to rest (R375, steps 2 to 4). -/
def quiet (m : Mach) (ctx : Nat) : Bool :=
  let mine (gid : Nat) : Bool := ((m.grp? gid).map Group.ctx) = some ctx
  (walksOf m ctx).all (fun kw => kw.2.rests)
    && !aany (fun _ g => g.ctx = ctx && g.fabric.isOut) m.groups
    && answered m mine

/-- A frozen walk gives up its places and armature as its context is saved (R282); banks that it had just reloaded go back
into a cast. -/
def releaseFrozen (m : Mach) (wid : Nat) : Mach :=
  match aget m.walks wid with
  | none => m
  | some w =>
    if w.over then m
    else
      let bs := w.banks ++ castBanks m wid w
      leaveEngines (m.setWalk wid { w with placed := false, resuming := false, banks := bs, cast := w.cast || !bs.isEmpty }) wid w

/-- The images of a context that are still to be written (R375, step 5). -/
def writeImages (m : Mach) (ctx : Nat) : Mach :=
  let m1 := (teamsOf m ctx).foldl (fun m kt =>
    if ((aget m.ctxs ctx).map fun c => c.hasImage 2 kt.1) = some false then writeImage m ctx false (teamImage m ctx kt.1 kt.2)
    else m) m
  let m2 := writeNewCasts false m1 ctx
  match aget m2.ctxs ctx with
  | some c => writeImage m2 ctx false (contextImage m2 ctx c)
  | none => m2

/-- A kernel with its work queue's bytes kept, as its context's reserved bytes are given up (R355, R375). (DEDUCED, log
33.) -/
def Kernel.keepQueue (k : Kernel) (m : Mach) : Kernel :=
  match k.wqBase with
  | some b => { k with wqBytes := readBytes m (.chip b) (16 * 2 ^ k.lrec.wqlog) }
  | none => k

/-- The work queues of a context kept. -/
def keepQueues (m : Mach) (ctx : Nat) : Mach :=
  { m with kerns := amap (fun _ k => if k.ctx = ctx then k.keepQueue m else k) m.kerns }

/-- The work queues of a context put back. -/
def putQueues (m : Mach) (ctx : Nat) : Mach :=
  let m1 := m.kerns.foldl (fun m kk =>
    match kk.2.wqBase with
    | some b => if kk.2.ctx = ctx then pokeBytes m (.chip b) kk.2.wqBytes else m
    | none => m) m
  { m1 with kerns := amap (fun _ k => if k.ctx = ctx then { k with wqBytes := [] } else k) m1.kerns }

/-- Steps 3 to 5 of R375 once the context is quiet: its copy rings are quiesced, every delta goes to the root, every team
and walk leaves its core or engine, its translations leave every cache (R388), and the images are written. (DESIGN CHOICE,
log 16; DEDUCED, log 33.) -/
def saveContext (m : Mach) (ctx : Nat) : Mach :=
  let m0 := flushAll ((teamsOf m ctx).foldl (fun m kt => quiesceRing m kt.1) m)
  let m1 := (teamsOf m0 ctx).foldl (fun m kt => saveTeam m kt.1) m0
  let m2 := keepQueues ((walksOf m1 ctx).foldl (fun m kw => releaseFrozen m kw.1) m1) ctx
  let m3 := writeImages (dropContextCaches m2 ctx) ctx
  match aget m3.ctxs ctx with
  | some c => m3.setCtx ctx { c with st := .saving }
  | none => m3

/-- CONTEXT_SAVED (R363): a suspending context that is quiet is saving, with its images written; a saving one is saved once
their valid bits are written. -/
def execContextSaved (ctx : Nat) (s : State) : Host.Outcome State Fault Refusal :=
  event s fun m =>
    match aget m.ctxs ctx with
    | none => m
    | some c =>
      match c.st with
      | .suspending => if quiet m ctx && imageBytes m ctx c false ≤ c.desc.savesize then saveContext m ctx else m
      | .saving => report ((setValid m c 1).setCtx ctx { c with st := .saved }) ctx (Report.plain 6 0)
      | _ => m

/-! RESTORE. -/

/-- The features that every live kernel of a context requires (R374). (DEDUCED, log 34.) -/
def featsOf (m : Mach) (ctx : Nat) : Nat :=
  (m.kerns.filter fun kk => kk.2.ctx = ctx && kk.2.live).foldl (fun f kk => f ||| kk.2.lrec.reqfeat) 0

/-- Whether some core that a context is granted is in service and holds the features given (R374). -/
def someCore (m : Mach) (c : Context) (feat : Nat) : Bool :=
  match c.quota with
  | none => false
  | some q => (List.range 1024).any fun core =>
      q.clusters.getLsbD (clusterOf core) && !(m.cluster (clusterOf core)).fenced && (m.features core).toNat &&& feat = feat

/-- A frozen walk put on an engine again (R284): a posted one in its intake, any other in places of its own. -/
def restoreWalk (m : Mach) (ctx wid eng : Nat) : Option Mach :=
  match aget m.walks wid with
  | none => none
  | some w =>
    let w1 := { w with eng := eng }
    if w.ctx != ctx || w.st != .frozen || !engineSuits m w eng then none
    else if w.prior = .posted then
      let e := m.engine eng
      if intakeFree m eng then
        some ((m.setEngine eng { e with intake := e.intake ++ [wid] }).setWalk wid { w1 with st := .posted })
      else none
    else if w1.engines.all (placeFree m) && castFits m w1 then some (resumeAt m wid w1)
    else none

/-- Every saved team placed where the event says. -/
def restoreTeams (ctx feat : Nat) : List (Nat × Placement) → Mach → Option Mach
  | [], m => some m
  | (tid, p) :: r, m =>
    match placeSaved m ctx tid feat p with
    | none => none
    | some m1 => restoreTeams ctx feat r m1

/-- Every frozen walk placed where the event says. (DEDUCED, log 34.) -/
def restoreWalks (ctx : Nat) : List (Nat × Nat) → Mach → Option Mach
  | [], m => some m
  | (wid, eng) :: r, m =>
    match restoreWalk m ctx wid eng with
    | none => none
    | some m1 => restoreWalks ctx r m1

/-- The walks of a context that no engine of the module suits: they stay frozen, and the host is told (R284).
(DEDUCED, log 34.) -/
def unsuited (m : Mach) (ctx : Nat) : List Nat :=
  ((walksOf m ctx).filter fun kw => !kw.2.over && !(List.range 128).any (engineSuits m kw.2)).map Prod.fst

/-- Whether the lists name every saved team, and every frozen walk that some engine suits. -/
def namesAll (m : Mach) (ctx : Nat) (teams : List (Nat × Placement)) (walks : List (Nat × Nat)) : Bool :=
  let skip := unsuited m ctx
  (teamsOf m ctx).all (fun kt => (teams.map Prod.fst).contains kt.1)
    && (walksOf m ctx).all fun kw => kw.2.over || skip.contains kw.1 || (walks.map Prod.fst).contains kw.1

/-- Queues that were suspended with their context are unmapped again (R404). -/
def unsuspendQueues (m : Mach) (ctx : Nat) : Mach :=
  { m with nextId := m.nextId + 1, queues := amap (fun _ q =>
      if q.ctx = ctx && q.st = .suspended then { q with st := .unmapped, since := 0, told := false } else q) m.queues }

/-- A context back in service after its teams and walks are placed (R363). -/
def backInService (m : Mach) (ctx : Nat) : Mach :=
  match aget m.ctxs ctx with
  | none => m
  | some c =>
    let live := aany (fun _ k => k.ctx = ctx && k.live) m.kerns
    let m1 := putQueues (m.setCtx ctx { c with st := if live then .active else .resident, images := [] }) ctx
    let told := (unsuited m1 ctx).foldl (fun m wid => ((aget m.walks wid).map (tellWalk m wid)).getD m) m1
    unsuspendQueues told ctx

/-- RESTORE_COMPLETE (R363, R374): every team and walk of a restoring context with good images is placed again. -/
def execRestoreComplete (ctx : Nat) (teams : List (Nat × Placement)) (walks : List (Nat × Nat)) (s : State) :
    Host.Outcome State Fault Refusal :=
  event s fun m =>
    match aget m.ctxs ctx with
    | none => m
    | some c =>
      if c.st != .restoring || !c.images.all (imageGood m) || !namesAll m ctx teams walks then m
      else
        match (restoreTeams ctx (featsOf m ctx) teams m).bind (restoreWalks ctx walks) with
        | none => m
        | some m1 => backInService m1 ctx

/-- RESTORE_FAULT (R363, R375): an image that is not good is refused with cause 103, and a fault while an image is read
gives cause 102; the context is saved as before. -/
def execRestoreFault (ctx : Nat) (badImage : Bool) (s : State) : Host.Outcome State Fault Refusal :=
  event s fun m =>
    match aget m.ctxs ctx with
    | none => m
    | some c =>
      if c.st != .restoring || (badImage && c.images.all (imageGood m)) then m
      else report (m.setCtx ctx { c with st := .saved }) ctx (Report.plain 5 (if badImage then 103 else 102))

/-! PREEMPT. -/

/-- Whether a core is named by a PREEMPT. -/
def Vacate.names (v : Vacate) (core : Nat) : Bool := v.first ≤ core && core < v.first + v.count

/-- Whether every core of a cluster is named. -/
def Vacate.whole (v : Vacate) (cluster : Nat) : Bool := (List.range 8).all fun i => v.names (8 * cluster + i)

/-- The walks of a context that have a place or an intake entry on a cluster all of whose cores are named. -/
def vacatedWalks (m : Mach) (ctx : Nat) (v : Vacate) : List (Nat × Walk) :=
  (walksOf m ctx).filter fun kw => !kw.2.over && kw.2.engines.any v.whole

/-- Whether a group may be saved by a PREEMPT (R376): nothing of it is outstanding, and it serves no summons, but where its
whole cluster is vacated and its walks there have come to rest. -/
def mayVacate (m : Mach) (ctx : Nat) (v : Vacate) (gid : Nat) (g : Group) : Bool :=
  let e := clusterOf g.core
  let rest := (vacatedWalks m ctx v).all fun kw => !kw.2.engines.contains e || kw.2.rests
  !g.fabric.isOut && answered m (· = gid) && (if v.whole e then rest else g.serving.isNone)

/-- The teams that a PREEMPT names and that still hold a core. -/
def namedTeams (m : Mach) (ctx : Nat) (v : Vacate) : List (Nat × Team) :=
  (teamsOf m ctx).filter fun kt => !kt.2.saved && (groupsOf m kt.1).any fun kg => v.names kg.2.core

/-- A team saved whole by a PREEMPT, with its image; where no core that the context is granted holds the features that it
requires, the host is told (R374, R376). -/
def vacateTeam (ctx : Nat) (m : Mach) (kt : Nat × Team) : Mach :=
  let m1 := flushAll (saveTeam m kt.1)
  let m2 := writeImage m1 ctx true (teamImage m1 ctx kt.1 kt.2)
  match aget m2.ctxs ctx with
  | some c => if someCore m2 c (featOf m2 kt.2.kern) then m2 else report m2 ctx (Report.plain 7 0)
  | none => m2

/-- A PREEMPT under way goes on (R376): the teams that can be saved are, and with the last of them and its walks at rest it
ends.  A stop of the context ends it too. (DEDUCED, log 31.) -/
def vacateMore (m : Mach) (ctx : Nat) (c : Context) (v : Vacate) : Mach :=
  let can := (namedTeams m ctx v).filter fun kt => (groupsOf m kt.1).all fun kg => mayVacate m ctx v kg.1 kg.2
  let m1 := can.foldl (vacateTeam ctx) (if can.isEmpty then m else flushAll m)
  let done := (namedTeams m1 ctx v).isEmpty && (vacatedWalks m1 ctx v).all fun kw => kw.2.rests
  if done || c.st != .active then
    match aget m1.ctxs ctx with
    | some c1 => m1.setCtx ctx { c1 with vacating := none }
    | none => m1
  else m1

/-- A PREEMPT begun: the walks of clusters that are vacated whole freeze in the commanded mode (R376); the deltas go to
the root before a cast becomes valid (R302). -/
def vacateFirst (m : Mach) (ctx : Nat) (c : Context) (v : Vacate) : Mach :=
  let m1 := m.setCtx ctx { c with vacating := some v }
  let m2 := (vacatedWalks m1 ctx v).foldl (fun m kw => freezeAs v.cast m kw.1) m1
  if v.cast then writeNewCasts true (flushAll m2) ctx else m2

end Sys2Proof.Machine
end

