-- ==== Sys2Proof/Machine/Context.lean ====
section
/-! DEFINITION. The context descriptor (R361), the context commands (R362, R441), the life of a context (R363, R364), its
watchdogs (R377, R378), its root (R382) and the invalidation of translations (R391).
-/

namespace Sys2Proof.Machine

/-! Command processors. -/

/-- A command processor's registers. -/
def Mach.cp (m : Mach) (i : Nat) : CmdProc := (m.cps[i]?).getD CmdProc.reset

/-- A command processor's registers changed. -/
def setCp (m : Mach) (i : Nat) (f : CmdProc → CmdProc) : Mach := { m with cps := updateAt m.cps i f }

/-- The result of a context command (R362). -/
def cxDone (m : Mach) (cp ctx res : Nat) : Mach := setCp m cp fun x => { x with cxctx := ctx, cxres := res }

/-- Whether a command to a context waits: SUSPEND, RESTORE or PREEMPT of it is under way (R362). (DEDUCED, log 31.) -/
def Context.busy (c : Context) : Bool :=
  c.st = .suspending || c.st = .saving || c.st = .restoring || c.vacating.isSome

/-- A command to a context (R362): refused where the context does not exist; while another is under way, or others wait, it
waits behind them. (DEDUCED, log 31.) -/
def command (m : Mach) (cp ctx absent : Nat) (x : CtxCommand) (f : CtxCommand → Context → Mach) : Mach :=
  match aget m.ctxs ctx with
  | none => cxDone m cp ctx absent
  | some c => if c.busy || !c.waits.isEmpty then m.setCtx ctx { c with waits := c.waits ++ [x] } else f x c

/-- The command that a write of CXCMD with a code gives, with CXARG as it stands (R362). -/
def newCommand (m : Mach) (cp code : Nat) : CtxCommand := { cp := cp, code := code, arg := (m.cp cp).cxarg }

/-! CREATE (R361). -/

/-- Whether a range of physical addresses lies in device memory. -/
def inDevice (a n : Nat) : Bool := a + n ≤ devTop

/-- A descriptor from its 256 bytes. -/
def CtxDesc.ofBytes (bs : List Byte) : CtxDesc :=
  let w (o : Nat) : Nat := Machine.ofBytes ((bs.drop o).take 8)
  { vtab := w 0, tsbase := w 0x08, tllen := bits (w 0x10) 32 22, tslen := bits (w 0x10) 0 32, tlbase := w 0x18,
    savebase := w 0x20, savesize := w 0x28, poolbase := w 0x30, poolsize := bits (w 0x38) 0 40, summ := w 0x40,
    rqbase := w 0x48, rqlog := bits (w 0x50) 0 5, npl := w 0x58, svl := w 0x60, hregs := bits (w 0x68) 0 8 }

/-- Whether the reserved bits of a descriptor are zero. -/
def descReservedZero (bs : List Byte) : Bool :=
  let w (o : Nat) : Nat := Machine.ofBytes ((bs.drop o).take 8)
  bits (w 0x10) 54 10 = 0 && bits (w 0x38) 40 24 = 0 && bits (w 0x50) 5 59 = 0 && bits (w 0x68) 8 56 = 0
    && ((bs.take 256).drop 0x70).all (· = 0)

/-- Whether every field of a descriptor is aligned, in its range, and names device memory (R361). -/
def CtxDesc.valid (d : CtxDesc) : Bool :=
  (d.vtab = 0 || (d.vtab % 2048 = 0 && inDevice d.vtab 2048))
    && d.tsbase % 4 = 0 && d.tslen % 4 = 0 && inDevice d.tsbase d.tslen
    && d.tlbase % 64 = 0 && inDevice d.tlbase (12 * d.tllen)
    && d.savebase % 4096 = 0 && inDevice d.savebase d.savesize
    && d.poolbase % 4096 = 0 && inDevice d.poolbase (320 * d.poolsize)
    && d.rqbase % 4096 = 0 && 4 ≤ d.rqlog && d.rqlog ≤ 16 && inDevice d.rqbase (64 * 2 ^ d.rqlog)
    && 1 ≤ d.svl && 1 ≤ d.hregs && d.hregs ≤ 32

/-- The summary image of a descriptor, loaded under the checks of R296 (R361); node 0 alone where it names none. -/
def firstImage (m : Mach) (summ : Nat) : Option SummImage :=
  if summ = 0 then some { depths := [1], sums := closureOf [] [1] }
  else if summ % 64 != 0 || !inDevice summ 0x40 then none
  else
    match imageHeader (readBytes m (.dev summ) 0x40) with
    | none => none
    | some (nn, ne) =>
      if inDevice summ (imageSize nn ne) then
        (readImage (readBytes m (.dev summ) (imageSize nn ne)) nn ne [] 0).toOption
      else none

/-- A context as CREATE leaves it (R300, R309, R315, R363, R382). -/
def Context.fresh (d : CtxDesc) (i : SummImage) : Context :=
  { desc := d, st := .created, quota := none, root := none, nodes := i.depths, sums := i.sums,
    floors := i.depths.map fun x => .at_ (zeroStamp x), frozen := false, copies := [], input := some (0, zeroStamp 1),
    holds := List.replicate 256 { gen := 0, pair := none }, pool := [], snap := false, npCount := 0, svCount := 0,
    rqIndex := 0, castNow := false, vacating := none, images := [], granted := 0, waits := [] }

/-- The lowest context number that is free (R362). -/
def freeCtx (m : Mach) : Option Nat := (List.range 4096).find? fun i => (aget m.ctxs i).isNone

/-- The context that a descriptor in device memory describes, if it is valid (R361). -/
def readDescriptor (m : Mach) (addr : Nat) : Option Context :=
  if addr % 256 != 0 || !inDevice addr 256 then none
  else
    let bs := readBytes m (.dev addr) 256
    let d := CtxDesc.ofBytes bs
    if descReservedZero bs && d.valid then (firstImage m d.summ).map (Context.fresh d) else none

/-- CREATE performed (R361, R362): the number that it names where it creates none is 0. -/
def createContext (m : Mach) (cp : Nat) : Mach :=
  match readDescriptor m (m.cp cp).cxarg.toNat with
  | none => cxDone m cp 0 1
  | some c =>
    match freeCtx m with
    | none => cxDone m cp 0 2
    | some i => cxDone (m.setCtx i c) cp i 0

/-- CREATE (R361, R362). -/
def execCreate (cp : Nat) (s : State) : Host.Outcome State Fault Refusal := event s fun m => createContext m cp

/-! QUOTA (R441). -/

/-- A quota record from its 64 bytes. -/
def Quota.ofBytes (bs : List Byte) : Quota :=
  let w (o : Nat) : Nat := Machine.ofBytes ((bs.drop o).take 8)
  { clusters := BitVec.ofNat 128 (w 0 + w 8 * 2 ^ 64), regs := bits (w 0x10) 16 7, lanes := bits (w 0x10) 8 7,
    gslots := bits (w 0x10) 0 7, spsize := bits (w 0x18) 8 7, spbase := bits (w 0x18) 0 6, cpsize := bits (w 0x20) 8 9,
    cpbase := bits (w 0x20) 0 8 }

/-- Whether the reserved fields of a quota record are zero. -/
def quotaReservedZero (bs : List Byte) : Bool :=
  let w (o : Nat) : Nat := Machine.ofBytes ((bs.drop o).take 8)
  bits (w 0x10) 23 41 = 0 && !bit (w 0x10) 15 && !bit (w 0x10) 7 && bits (w 0x18) 15 49 = 0 && bits (w 0x18) 6 2 = 0
    && bits (w 0x20) 17 47 = 0 && ((bs.take 64).drop 0x28).all (· = 0)

/-- Whether every field of a quota record is in its range. -/
def Quota.inRange (q : Quota) : Bool :=
  q.regs ≤ 64 && q.lanes ≤ 64 && q.gslots ≤ 64 && q.spsize ≤ 64 && q.cpsize ≤ 256 && q.spbase + q.spsize ≤ 64
    && q.cpbase + q.cpsize ≤ 256

/-- Whether two quotas reserve a common byte. (DEDUCED, log 33.) -/
def Quota.clashes (a b : Quota) : Bool :=
  (a.clusters &&& b.clusters != 0 && 0 < a.spsize && 0 < b.spsize && rangesMeet a.spbase a.spsize b.spbase b.spsize)
    || (0 < a.cpsize && 0 < b.cpsize && rangesMeet a.cpbase a.cpsize b.cpbase b.cpsize)

/-- Whether every share and work queue of a context lies in the bytes it has reserved; its log areas lie in its shares. -/
def keepsInside (m : Mach) (ctx : Nat) : Bool :=
  (m.teams.all fun kt => kt.2.ctx != ctx || kt.2.saved || kt.2.size = 0
      || spadRangeReserved m ctx kt.2.share kt.2.size)
    && m.kerns.all fun kk => kk.2.ctx != ctx || (match kk.2.wqBase with
      | some b => chipReserved m ctx b (16 * 2 ^ kk.2.lrec.wqlog)
      | none => true)

/-- Whether a byte that a quota reserves is reserved to another context: a saved one holds none (R363, R441).
(DEDUCED, log 33.) -/
def clashesAny (m : Mach) (ctx : Nat) (q : Quota) : Bool :=
  aany (fun i x => i != ctx && x.st != .saved && ((x.quota.map q.clashes).getD false)) m.ctxs

/-- QUOTA performed: the partitioning controller grants the record, or refuses it with result 3 (R441).
(DEDUCED, log 32.) -/
def quotaContext (m : Mach) (ctx : Nat) (x : CtxCommand) (c : Context) : Mach :=
  let cp := x.cp
  let addr := x.arg.toNat
  let bs := readBytes m (.dev addr) 64
  let q := Quota.ofBytes bs
  let m1 := m.setCtx ctx { c with quota := some q, granted := c.granted ||| q.clusters,
                                  st := if c.st = .created then .resident else c.st }
  if (c.st = .created || c.st = .resident || c.st = .active) && addr % 64 = 0 && inDevice addr 64 && quotaReservedZero bs
      && q.inRange && !clashesAny m ctx q && keepsInside m1 ctx then cxDone m1 cp ctx 0
  else cxDone m cp ctx 3

/-- QUOTA (R441). -/
def execQuota (cp ctx : Nat) (s : State) : Host.Outcome State Fault Refusal :=
  event s fun m => command m cp ctx 3 (newCommand m cp 0x02) (quotaContext m ctx)

/-! SUSPEND, RESTORE, PREEMPT, CONTINUE (R362, R363, R369, R374 to R376). -/

/-- SUSPEND performed (R375). -/
def suspendContext (m : Mach) (ctx : Nat) (x : CtxCommand) (c : Context) : Mach :=
  let cp := x.cp
  let now := x.arg.toNat % 2 = 1
  if !(c.st = .resident || c.st = .active || c.st = .faulted) then cxDone m cp ctx 5
  else if c.desc.savesize < imageBytes m ctx c now then cxDone m cp ctx 4
  else suspendNow (cxDone m cp ctx 0) ctx c now

/-- SUSPEND (R362, R375). -/
def execSuspend (cp ctx : Nat) (s : State) : Host.Outcome State Fault Refusal :=
  event s fun m => command m cp ctx 5 (newCommand m cp 0x03) (suspendContext m ctx)

/-- Whether the bytes that a saved context had reserved are free for it (R363, R441). (DEDUCED, log 33.) -/
def bytesFree (m : Mach) (ctx : Nat) (c : Context) : Bool := !((c.quota.map (clashesAny m ctx)).getD false)

/-- RESTORE performed (R374): where no core qualifies the context stays saved, and the host is told.
(DEDUCED, log 33; DEDUCED, log 34.) -/
def restoreContext (m : Mach) (ctx : Nat) (x : CtxCommand) (c : Context) : Mach :=
  let cp := x.cp
  if c.st != .saved then cxDone m cp ctx 5
  else if someCore m c (featsOf m ctx) && bytesFree m ctx c then (cxDone m cp ctx 0).setCtx ctx { c with st := .restoring }
  else report (cxDone m cp ctx 6) ctx (Report.plain 7 0)

/-- RESTORE (R362, R374). -/
def execRestore (cp ctx : Nat) (s : State) : Host.Outcome State Fault Refusal :=
  event s fun m => command m cp ctx 5 (newCommand m cp 0x04) (restoreContext m ctx)

/-- PREEMPT performed (R376). -/
def preemptContext (m : Mach) (ctx : Nat) (x : CtxCommand) (c : Context) : Mach :=
  let cp := x.cp
  let a := x.arg.toNat
  let v : Vacate := { first := bits a 0 10, count := bits a 10 11, cast := bit a 21 }
  if c.st != .active then cxDone m cp ctx 5
  else if 1024 < v.first + v.count then cxDone m cp ctx 7
  else
    let m1 := vacateFirst (cxDone m cp ctx 0) ctx c v
    match aget m1.ctxs ctx with
    | some c1 => vacateMore m1 ctx c1 v
    | none => m1

/-- PREEMPT (R362, R376): the command, or, while one of the context is under way, its going on. (DEDUCED, log 31.) -/
def execPreempt (cp ctx : Nat) (s : State) : Host.Outcome State Fault Refusal :=
  event s fun m =>
    match aget m.ctxs ctx with
    | none => cxDone m cp ctx 5
    | some c =>
      match c.vacating with
      | some v => vacateMore m ctx c v
      | none => command m cp ctx 5 (newCommand m cp 0x05) (preemptContext m ctx)

/-- A walk that was frozen by the stop of its context goes on from its state before (R369). -/
def Walk.thaw (w : Walk) (ctx : Nat) : Walk :=
  if w.ctx = ctx && !w.over then
    if w.freezing then { w with freezing := false }
    else if w.st = .frozen && w.kept && !w.resuming then { w with st := w.prior }
    else w
  else w

/-- CONTINUE performed (R369). -/
def continueContext (m : Mach) (ctx : Nat) (x : CtxCommand) (c : Context) : Mach :=
  let cp := x.cp
  if c.st != .faulted then cxDone m cp ctx 5
  else
    let m1 := (cxDone m cp ctx 0).setCtx ctx { c with st := .active }
    unsuspendQueues { m1 with walks := amap (fun _ w => w.thaw ctx) m1.walks } ctx

/-- CONTINUE (R362, R369). -/
def execContinueCtx (cp ctx : Nat) (s : State) : Host.Outcome State Fault Refusal :=
  event s fun m => command m cp ctx 5 (newCommand m cp 0x06) (continueContext m ctx)

/-! ANSWER (R366). -/

/-- The group of a context that an origin number names, if it waits for the host. -/
def awaitingHost (m : Mach) (ctx origin : Nat) : Option (Nat × Group) :=
  m.groups.find? fun kg => kg.2.ctx = ctx && !kg.2.saved && originOf kg.2 = origin
    && (kg.2.st = .trapped .host || kg.2.st = .heldHost)

/-- A group resumed: one in a trap as TRET leaves it, one whose lanes faulted executing its instruction again. -/
def answerResume (m : Mach) (gid : Nat) (g : Group) : Mach :=
  if g.st = .heldHost then m.setGrp gid { g with st := .ready, readyAt := (m.core g.core).cyc } else trapReturn m gid g

/-- ANSWER performed (R366). (DEDUCED, log 32.) -/
def answerContext (m : Mach) (ctx : Nat) (x : CtxCommand) (c : Context) : Mach :=
  let cp := x.cp
  let a := x.arg.toNat
  match awaitingHost m ctx (bits a 0 16) with
  | none => cxDone m cp ctx 8
  | some (gid, g) =>
    if c.st != .active then cxDone m cp ctx 8
    else
      let m1 := cxDone m cp ctx 0
      if bit a 16 then killGroup m1 gid 104 0 else answerResume m1 gid g

/-- ANSWER (R362, R366). -/
def execAnswer (cp ctx : Nat) (s : State) : Host.Outcome State Fault Refusal :=
  event s fun m => command m cp ctx 8 (newCommand m cp 0x07) (answerContext m ctx)

/-! Commands that waited (R362). -/

/-- A command of a context performed by its code. -/
def perform (m : Mach) (ctx : Nat) (x : CtxCommand) (c : Context) : Mach :=
  match x.code with
  | 0x02 => quotaContext m ctx x c
  | 0x03 => suspendContext m ctx x c
  | 0x04 => restoreContext m ctx x c
  | 0x05 => preemptContext m ctx x c
  | 0x06 => continueContext m ctx x c
  | 0x07 => answerContext m ctx x c
  | _ => cxDone m x.cp ctx 9

/-- The first of the commands that wait for a context performed, once none is under way (R362). -/
def performWait (m : Mach) (ctx : Nat) : Mach :=
  match aget m.ctxs ctx with
  | none => m
  | some c =>
    match c.waits with
    | [] => m
    | x :: r => if c.busy then m else perform (m.setCtx ctx { c with waits := r }) ctx x { c with waits := r }

/-- One command performed of every context that has some waiting and none under way (R362). -/
def performWaits (m : Mach) : Mach :=
  ((m.ctxs.filter fun kc => !kc.2.waits.isEmpty).map Prod.fst).foldl performWait m

/-! DESTROY and the loss of a context (R267, R364, R376, R378). -/

/-- A walk of a context that is destroyed or lost is aborted with cause 7 (R279). -/
def endWalk (m : Mach) (wid : Nat) : Mach :=
  match aget m.walks wid with
  | none => m
  | some w =>
    if w.over then { m with walks := adel m.walks wid }
    else
      let w1 := { w with st := .aborted, acause := if w.acause = 0 then 7 else w.acause }
      retireWalk (writeResult m w1) wid w1

/-- The bytes that a quota reserves wiped to zero (R376, R441). (DEDUCED, log 33.) -/
def wipeReserved (m : Mach) (q : Quota) : Mach :=
  let cores := (List.range 1024).filter fun c => q.clusters.getLsbD (clusterOf c)
  let m1 := cores.foldl (fun m c =>
    let a := (Loc.spad (c * spadSize + 4096 * q.spbase)).key
    wipeRange m a (a + 4096 * q.spsize)) m
  (List.range 8).foldl (fun m d =>
    let a := (Loc.chip (d * 2 ^ 24 + 65536 * q.cpbase)).key
    wipeRange m a (a + 65536 * q.cpsize)) m1

/-- The L1s of the cores of some clusters invalidated: those that any quota of a context granted, where it may have held lines
(R376). -/
def wipeL1s (m : Mach) (granted : BitVec 128) : Mach :=
  { m with cores := amap (fun i c => if granted.getLsbD (clusterOf i) then { c with l1 := [] } else c) m.cores }

/-- The posted peer stores of a context that are under way, performed: each reaches its peer once, unless its port fences
(R413, R415). (DEDUCED, log 47.) -/
def deliverPsts (m : Mach) (ctx : Nat) : Mach :=
  (m.psts.filter fun kp => kp.2.ctx = ctx && !kp.2.lost).foldl (fun m kp =>
    kp.2.left.foldl (fun m b => writeBytes m (.ext kp.2.port b.1) b.2) m) m

/-- Everything that a context holds but its counts and its own record is discarded and wiped (R376, R378). -/
def wipeContext (m : Mach) (ctx : Nat) : Mach :=
  let gone := (m.groups.filter fun kg => kg.2.ctx = ctx).map Prod.fst
  let tids := (teamsOf m ctx).map Prod.fst
  let m1 := (walksOf m ctx).foldl (fun m kw => endWalk m kw.1) (deliverPsts m ctx)
  let m2 := { m1 with
    groups := afilter (fun _ g => g.ctx != ctx) m1.groups, teams := afilter (fun _ t => t.ctx != ctx) m1.teams,
    slots := afilter (fun _ b => !tids.contains b.team) m1.slots, kerns := afilter (fun _ k => k.ctx != ctx) m1.kerns,
    psts := afilter (fun _ p => p.ctx != ctx) m1.psts, queues := afilter (fun _ q => q.ctx != ctx) m1.queues,
    cores := amap (fun _ c => gone.foldl Core.leave c) m1.cores,
    dies := amap (fun _ d => { d with lanes := d.lanes.filter fun l => l.ctx != ctx }) m1.dies }
  let m3 := dropContextCaches m2 ctx
  match aget m.ctxs ctx with
  | some c => wipeL1s ((c.quota.map (wipeReserved m3)).getD m3) c.granted
  | none => m3

/-- The counts of a context discarded wherever they stand, and what an engine remembers of its walks (R310, R376). -/
def dropCounts (m : Mach) (ctx : Nat) : Mach :=
  let keep (l : List Count) : List Count := l.filter fun c => c.ctx != ctx
  { m with root := keep m.root,
           clusters := amap (fun _ c => { c with deltas := keep c.deltas, window := keep c.window,
                                                 counted := c.counted.filter fun i => i != ctx,
                                                 psts := c.psts.filter fun p => p.1 != ctx }) m.clusters,
           dies := amap (fun _ d => { d with deltas := keep d.deltas }) m.dies,
           engines := amap (fun _ e => { e with ended := e.ended.filter fun x => x.2.1 != ctx }) m.engines }

/-- DESTROY performed: the number is free again (R362, R376). -/
def destroyContext (m : Mach) (cp ctx : Nat) : Mach :=
  match aget m.ctxs ctx with
  | none => cxDone m cp ctx 5
  | some _ =>
    let m1 := dropCounts (wipeContext m ctx) ctx
    cxDone { m1 with ctxs := adel m1.ctxs ctx } cp ctx 0

/-- DESTROY (R376): it waits for no other command. -/
def execDestroy (cp ctx : Nat) (s : State) : Host.Outcome State Fault Refusal :=
  event s fun m => destroyContext m cp ctx

/-! The watchdogs. -/

/-- NO_PROGRESS_WATCHDOG (R377): so many more cycles without progress; at the limit an active context is suspended.
(DEDUCED, log 35.) -/
def execNoProgressWatchdog (ctx cycles : Nat) (s : State) : Host.Outcome State Fault Refusal :=
  event s fun m =>
    match aget m.ctxs ctx with
    | none => m
    | some c =>
      let c1 := { c with npCount := c.npCount + cycles }
      if c.desc.npl != 0 && c.desc.npl ≤ c1.npCount && c.st = .active then
        let m1 := report (m.setCtx ctx c1) ctx (Report.plain 4 101)
        suspendNow m1 ctx ((aget m1.ctxs ctx).getD c1) false
      else m.setCtx ctx c1

/-- The walks of a context that are still to reach their tile boundary frozen at once, with casts that are not valid (R267,
R378). -/
def freezeAll (m : Mach) (ctx : Nat) : Mach :=
  writeNewCasts false (((walksOf m ctx).filter fun kw => kw.2.freezing).foldl (fun m kw => freezeNow m kw.1) m) ctx

/-- A context lost (R364, R378): a freeze at a tile boundary becomes an immediate one (R267), its images are invalid, its
resources are wiped, and its floors are frozen. -/
def loseContext (m : Mach) (ctx : Nat) (c0 : Context) : Mach :=
  let m0 := freezeAll (m.setCtx ctx c0) ctx
  let c := (aget m0.ctxs ctx).getD c0
  let m1 := wipeContext (flushAll (setValid m0 c 0)) ctx
  report (m1.setCtx ctx { c with st := .lost, frozen := true, images := [], vacating := none }) ctx (Report.plain 5 102)

/-- SAVE_WATCHDOG (R378): so many more cycles since suspending began; at the limit the context is lost. -/
def execSaveWatchdog (ctx cycles : Nat) (s : State) : Host.Outcome State Fault Refusal :=
  event s fun m =>
    match aget m.ctxs ctx with
    | none => m
    | some c =>
      if !(c.st = .suspending || c.st = .saving) then m
      else
        let c1 := { c with svCount := c.svCount + cycles }
        if c.desc.svl ≤ c1.svCount then loseContext m ctx c1 else m.setCtx ctx c1

/-! The root (R382) and the invalidation of translations (R391). -/

/-- A write of TRROOT: the root of a context that is created, resident or saved changes; of any other the write is refused,
and err is set (R382). -/
def writeRoot (m : Mach) (cp : Nat) (val : Dword) : Mach :=
  let v := val.toNat
  let kept := val &&& 0xFFFFFFFFFFFFF001
  match aget m.ctxs (bits v 52 12) with
  | some c =>
    if c.st = .created || c.st = .resident || c.st = .saved then
      setCp (m.setCtx (bits v 52 12) { c with root := if bit v 0 then some (bits v 12 40 * 4096) else none }) cp
        fun x => { x with trroot := kept }
    else setCp m cp fun x => { x with trroot := kept ||| 2 }
  | none => setCp m cp fun x => { x with trroot := kept ||| 2 }

/-- TRROOT_WRITE (R382). -/
def execTrrootWrite (cp : Nat) (val : BitVec 64) (s : State) : Host.Outcome State Fault Refusal :=
  event s fun m => writeRoot m cp val

/-- An invalidation begun: a write while one is under way is ignored (R391). -/
def startInval (m : Mach) (i : Inval) : Mach := if m.busy.isSome then m else { m with busy := some i }

/-- INVALIDATE_ADDRESS (R391): the page is the one in TRINVA. -/
def execInvalidateAddress (cp ctx : Nat) (s : State) : Host.Outcome State Fault Refusal :=
  event s fun m => startInval m { kind := 1, ctx := ctx, vpn := bits (m.cp cp).trinva.toNat 12 45 }

/-- INVALIDATE_CONTEXT (R391). -/
def execInvalidateContext (_ ctx : Nat) (s : State) : Host.Outcome State Fault Refusal :=
  event s fun m => startInval m { kind := 2, ctx := ctx, vpn := 0 }

/-- INVALIDATE_ALL (R391). -/
def execInvalidateAll (_ : Nat) (s : State) : Host.Outcome State Fault Refusal :=
  event s fun m => startInval m { kind := 3, ctx := 0, vpn := 0 }

/-- Whether an invalidation removes a cached leaf. -/
def Inval.hitsLeaf (i : Inval) (t : TlbEntry) : Bool :=
  match i.kind with
  | 1 => t.covers i.ctx (i.vpn * 4096)
  | 2 => t.ctx = i.ctx
  | _ => true

/-- Whether an invalidation removes a cached table pointer. -/
def Inval.hitsTable (i : Inval) (w : WalkEntry) : Bool :=
  match i.kind with
  | 1 => w.ctx = i.ctx && w.pre = tableTag (i.vpn * 4096) w.level
  | 2 => w.ctx = i.ctx
  | _ => true

/-- Whether an access that may have been translated with a removed entry is still outstanding. -/
def Inval.pending (i : Inval) (m : Mach) : Bool :=
  aany (fun _ g => (i.kind = 3 || g.ctx = i.ctx) && g.fabric.isOut) m.groups

/-- INVALIDATION_COMPLETE (R391): once every access translated with a removed entry has been performed, no cache holds one
and busy is 0 again. -/
def execInvalidationComplete (_ : Nat) (s : State) : Host.Outcome State Fault Refusal :=
  event s fun m =>
    match m.busy with
    | none => m
    | some i =>
      if i.pending m then m
      else { filterCaches m (fun t => !i.hitsLeaf t) (fun w => !i.hitsTable w) with busy := none }

end Sys2Proof.Machine
end

