-- ==== Sys2Proof/Machine/LaneMove.lean ====
section
/-! DEFINITION. Moves, broadcasts, shuffles and reductions (R155 to R158), the shadow check (R159, R335) and the hint
space (R51).
-/

namespace Sys2Proof.Machine

/-- MOV (R155). -/
def execMov (w : LaneWord) (s : State) : Host.Outcome State Fault Refusal :=
  lanePure s (.mov w) w w.t.regs fun x l => x.a w.t l

/-- The lane that BCAST reads (R156): idx is the same in every lane.  It is taken as an unsigned number of 32 bits, of which
R156 says nothing: −1 in a group of 96 lanes names lane 63. (DESIGN CHOICE, log 69.) -/
def LaneIn.bcastLane (x : LaneIn) : Nat := (x.raw 1 x.w.b 0).toNat % x.g.width

/-- BCAST (R156): the lane is read whether or not it is in E. -/
def execBcast (w : LaneWord) (s : State) : Host.Outcome State Fault Refusal :=
  if w.dst = 0x145 then
    lanePush s (.bcast w) w (fun x => [x.bcastLane])
      fun x => ([BitVec.ofNat 32 (x.a w.t x.bcastLane)], .clear)
  else
    laneStep s (.bcast w) w fun gid x =>
      if x.g.readFails (sourceRegs (.bcast w)) [x.bcastLane] then detectedError s.m gid 1
      else
        let vals := x.lanes.map fun l => (l, x.a w.t x.bcastLane)
        laneFinish s.m gid (x.write false w.t.regs vals) x.e (.bcast w) w (x.capture vals (x.g.chain.getD Chain.empty))

/-- The lane that SHFL reads for lane l (R157). -/
def shflLane (mode seg l x : Nat) : Nat :=
  let g := 2 ^ seg
  let r := l % g
  let base := l - r
  match mode with
  | 0 => base + x % g
  | 1 => if x ≤ r then l - x else l
  | 2 => if r + x < g then l + x else l
  | _ => base + (r ^^^ x) % g

/-- The lane that lane l's SHFL reads. -/
def LaneIn.shflFrom (x : LaneIn) (l : Nat) : Nat := shflLane (x.w.sub % 8) (x.w.sub / 8) l (x.raw 1 x.w.b l).toNat

/-- SHFL (R157): the lanes read are checked whether or not they are in E. -/
def execShfl (w : LaneWord) (s : State) : Host.Outcome State Fault Refusal :=
  laneStep s (.shfl w) w fun gid x =>
    if x.g.readFails ((SrcKind.typed w.t).vregs w.b) x.lanes
        || x.g.readFails ((SrcKind.typed w.t).vregs w.a) (x.lanes.map x.shflFrom) then detectedError s.m gid 1
    else
      let vals := x.lanes.map fun l => (l, x.a w.t (x.shflFrom l))
      let shadow := isShadowed (s.m.features x.g.core) (.shfl w) w && w.nw = 0
      let c := x.capture vals (x.g.chain.getD Chain.empty)
      let kept : ShadowResult :=
        { reg := w.dst.toNat, wide := w.t.regs = 2, vals := vals.map fun v => (v.1, BitVec.ofNat 64 v.2) }
      let c1 := if shadow && w.dst.toNat < 256 then { c with shadows := kept :: c.shadows } else c
      laneFinish s.m gid (x.write shadow w.t.regs vals) x.e (.shfl w) w c1

/-! REDQ (R158). -/

/-- The identity of a reduction. -/
def redIdentity (t : Ty) (op : Nat) : Nat :=
  match op with
  | 0 => if t = .f32 then 0x80000000 else 0
  | 1 => if t = .f32 then 0x7F800000 else unsigned 32 t.maxOf
  | 2 => if t = .f32 then 0xFF800000 else unsigned 32 t.minOf
  | 3 => 0xFFFFFFFF
  | _ => 0

/-- One step of a reduction, with its flags. -/
def redStep (t : Ty) (op : Nat) (r : Rnd) (fsat isat : Bool) (a b : Nat × FFlags) : Nat × FFlags :=
  let res : Nat × FFlags :=
    match op with
    | 0 => if t = .f32 then fAdd .fp32 r fsat false a.1 b.1 else (t.deliver isat (t.read a.1 + t.read b.1), .clear)
    | 1 => if t = .f32 then fMinMax .fp32 false a.1 b.1
      else (unsigned 32 (Min.min (t.read a.1) (t.read b.1)), .clear)
    | 2 => if t = .f32 then fMinMax .fp32 true a.1 b.1
      else (unsigned 32 (Max.max (t.read a.1) (t.read b.1)), .clear)
    | 3 => (a.1 &&& b.1, .clear)
    | 4 => (a.1 ||| b.1, .clear)
    | _ => (a.1 ^^^ b.1, .clear)
  (res.1, (a.2.or b.2).or res.2)

/-- One level of the tree: neighbours combined. -/
def pairUp {α : Type} (f : α → α → α) : List α → List α
  | a :: b :: r => f a b :: pairUp f r
  | l => l

/-- The tree over 2^n values. -/
def treeReduce {α : Type} (f : α → α → α) : Nat → List α → List α
  | 0, l => l
  | n + 1, l => treeReduce f n (pairUp f l)

/-- REDQ (R158). -/
def execRedq (w : LaneWord) (s : State) : Host.Outcome State Fault Refusal :=
  lanePush s (.redq w) w LaneIn.lanes fun x =>
    let leaf (l : Nat) : Nat × FFlags :=
      (if l < x.g.width && x.inE l then x.a w.t l else redIdentity w.t w.sub, .clear)
    let f := redStep w.t w.sub (x.rndOf .fp32) (x.satOf .fp32) w.sat
    let res := (treeReduce f 7 ((List.range 128).map leaf)).headD (0, .clear)
    ([BitVec.ofNat 32 res.1], res.2)

/-! The shadow check (R159, R335, R344). -/

/-- The residue of a register's own 32 bits of a recomputed value. -/
def checkCode (y : Dword) (half : Nat) : Nat := bits y.toNat (32 * half) 32 % 63

/-- Whether SHDW's comparison fails in some lane (R335). -/
def shadowMismatch (g : Group) (r : ShadowResult) : Bool :=
  r.vals.any fun v =>
    (List.range (if r.wide then 2 else 1)).any fun h =>
      (g.vreg (r.reg + h) v.1).toNat % 63 != checkCode v.2 h

/-- The check fields that SHDW writes. -/
def shadowCheck (g : Group) (r : ShadowResult) : AMap Check :=
  r.vals.foldl (fun m v =>
    (List.range (if r.wide then 2 else 1)).foldl
      (fun m h => aput m ((r.reg + h) * 128 + v.1) (.valid (checkCode v.2 h))) m) g.chk

/-- An injection of kind 1 that was armed for a SHDW flips a bit of vN in the lowest lane of the member's effective set
(R344). -/
def injectFlip (g : Group) (inject : Option (Nat × Nat)) (r : ShadowResult) : Group :=
  match inject, r.vals with
  | some (1, arg), v :: _ =>
    { g with v := putV g.v (r.reg * 128 + v.1) (g.vreg r.reg v.1 ^^^ BitVec.ofNat 32 (2 ^ (arg % 32))) }
  | _, _ => g

/-- Whether an injection of kind 2 was armed for a SHDW. -/
def LiqEntry.forcesMismatch (e : LiqEntry) : Bool :=
  match e.inject with
  | some (2, _) => true
  | _ => false

/-- The registers that a SHDW's recomputation reads: those of its shadowed member, the latest of its chain that writes vN
(R159). -/
def shadowSources (c : Chain) (n : Nat) : List Nat :=
  ((c.issued.reverse.find? (shadowsReg n)).bind LiqEntry.ins).map sourceRegs |>.getD []

/-- The group as a SHDW leaves its queue, whose injection has fired: it is not armed again. -/
def Group.fired (g : Group) : Group :=
  match g.qs.liq with
  | e :: r => { g with qs := { g.qs with liq := { e with inject := none } :: r } }
  | [] => g

/-- SHDW: the recomputed value is that of the shadowed member, since results are deterministic (R134); a difference, or
an injected one, is a detected error of source 2 (R335, R344), and a check that fails on a register that the recomputation
reads one of source 1 (R334). -/
def execShdw (w : LaneWord) (s : State) : Host.Outcome State Fault Refusal :=
  laneStep s (.shdw w) w fun gid x =>
    let c := x.g.chain.getD Chain.empty
    match c.shadows.find? fun r => r.reg = w.dst.toNat with
    | none => laneFinish s.m gid x.g x.e (.shdw w) w c
    | some r =>
      if x.g.readFails (shadowSources c w.dst.toNat) (r.vals.map Prod.fst) then detectedError s.m gid 1
      else if x.e.forcesMismatch then detectedError (s.m.setGrp gid x.g.fired) gid 2
      else if shadowMismatch x.g r then detectedError s.m gid 2
      else laneFinish s.m gid (injectFlip { x.g with chk := shadowCheck x.g r } x.e.inject r) x.e (.shdw w) w c

/-- A hint: no effect but its place in the stream (R51). -/
def execLaneHint (h : BitVec 4) (w : LaneWord) (s : State) : Host.Outcome State Fault Refusal :=
  laneStep s (.laneHint h w) w fun gid x =>
    laneFinish s.m gid x.g x.e (.laneHint h w) w (x.g.chain.getD Chain.empty)

end Sys2Proof.Machine
end

