-- ==== Sys2Proof/Machine/LanePred.lean ====
section
/-! DEFINITION. The compares, the predicate logic and the pushes of predicates (R144 to R147). -/

namespace Sys2Proof.Machine

/-- The conditions of ICMP (R144). -/
def intCond (cc : Nat) (a b : Int) : Bool :=
  match cc with
  | 0 => a = b
  | 1 => a != b
  | 2 => a < b
  | 3 => a ≤ b
  | 4 => b < a
  | _ => b ≤ a

/-- ICMP (R144). -/
def execIcmp (w : LaneWord) (s : State) : Host.Outcome State Fault Refusal :=
  lanePred s (.icmp w) w fun x l => (intCond w.sub (x.ai l 0) (x.bi l 0), .clear)

/-- FCMP (R144). -/
def execFcmp (w : LaneWord) (s : State) : Host.Outcome State Fault Refusal :=
  lanePred s (.fcmp w) w fun x l => fCompare w.t.fmt w.sub (x.ar l 0) (x.br l 0)

/-- A predicate source in a lane (R145). -/
def LaneIn.pa (x : LaneIn) (l : Nat) : Bool := x.g.pred x.w.a.toNat l
def LaneIn.pb (x : LaneIn) (l : Nat) : Bool := x.g.pred x.w.b.toNat l

/-- PAND (R145). -/
def execPand (w : LaneWord) (s : State) : Host.Outcome State Fault Refusal :=
  lanePred s (.pand w) w fun x l => (x.pa l && x.pb l, .clear)

/-- POR (R145). -/
def execPor (w : LaneWord) (s : State) : Host.Outcome State Fault Refusal :=
  lanePred s (.por w) w fun x l => (x.pa l || x.pb l, .clear)

/-- PXOR (R145). -/
def execPxor (w : LaneWord) (s : State) : Host.Outcome State Fault Refusal :=
  lanePred s (.pxor w) w fun x l => (x.pa l != x.pb l, .clear)

/-- PNOT (R145). -/
def execPnot (w : LaneWord) (s : State) : Host.Outcome State Fault Refusal :=
  lanePred s (.pnot w) w fun x l => (!x.pa l, .clear)

/-- PMOV (R145). -/
def execPmov (w : LaneWord) (s : State) : Host.Outcome State Fault Refusal :=
  lanePred s (.pmov w) w fun x l => (x.pa l, .clear)

/-- PSUM: one FQ entry, all in bit 1 and any in bit 0; with E empty, all is 1 and any is 0 (R146). -/
def execPsum (w : LaneWord) (s : State) : Host.Outcome State Fault Refusal :=
  laneStep s (.psum w) w fun gid x =>
    let ps := x.lanes.map x.pa
    let entry : BitVec 2 := BitVec.ofNat 2 ((if ps.all id then 2 else 0) + (if ps.any id then 1 else 0))
    let g1 := { x.g with qs := { x.g.qs with fq := x.g.qs.fq ++ [entry] } }
    laneFinish s.m gid g1 x.e (.psum w) w (x.g.chain.getD Chain.empty)

/-- The lanes of beat b that are in E with their predicate set, as a mask (R147). -/
def LaneIn.beatMask (x : LaneIn) (b : Nat) : Word :=
  BitVec.ofNat 32 ((List.range 32).foldl
    (fun m j => m + (if x.inE (32 * b + j) && x.pa (32 * b + j) then 2 ^ j else 0)) 0)

/-- PTOQ: one LQ entry for each beat (R147). -/
def execPtoq (w : LaneWord) (s : State) : Host.Outcome State Fault Refusal :=
  lanePush s (.ptoq w) w (fun _ => []) fun x => ((List.range x.g.beats).map x.beatMask, .clear)

end Sys2Proof.Machine
end

