-- ==== Sys2Proof/Machine/Launch.lean ====
section
/-! DEFINITION. The launch record (R350), its checks (R351), the start of a kernel (R352) and its work queue (R355).
-/

namespace Sys2Proof.Machine

/-! The record. -/

/-- A launch record from its 256 bytes (R350). -/
def LaunchRec.ofBytes (bs : List Byte) : LaunchRec :=
  let w (o : Nat) : Nat := Machine.ofBytes ((bs.drop o).take 8)
  let d (o : Nat) : Dword := BitVec.ofNat 64 (w o)
  let f := w 0x30
  { sbase := d 0, lbase := d 0x08, llen := bits (w 0x10) 32 22, slen := bits (w 0x10) 0 32, entry := bits (w 0x18) 0 32,
    gx := bits (w 0x20) 0 32, gy := bits (w 0x20) 32 32, gz := bits (w 0x28) 0 32, scratch := bits f 32 32,
    regs := bits f 16 8, coop := bit f 10, wcode := bits f 8 2, tgroups := bits f 0 8, node := bits (w 0x38) 32 10,
    reqfeat := bits (w 0x38) 0 2, stamp := d 0x40, args := d 0x48, scale := d 0x50, priv := d 0x58,
    frames := bits (w 0x60) 32 32, slice := bits (w 0x60) 0 32, wq := bit (w 0x68) 40, wqlog := bits (w 0x68) 36 4,
    wx := bits (w 0x68) 0 16, wy := bits (w 0x68) 16 16, slots := (List.range 8).map fun i => d (0x80 + 8 * i) }

/-- Whether the reserved bits of a record are zero. -/
def launchReservedZero (bs : List Byte) : Bool :=
  let w (o : Nat) : Nat := Machine.ofBytes ((bs.drop o).take 8)
  bits (w 0x10) 54 10 = 0 && bits (w 0x18) 32 32 = 0 && bits (w 0x28) 32 32 = 0 && bits (w 0x30) 24 8 = 0
    && bits (w 0x30) 11 5 = 0 && bits (w 0x38) 42 22 = 0 && bits (w 0x38) 2 30 = 0 && bits (w 0x68) 41 23 = 0
    && bits (w 0x68) 32 4 = 0 && w 0x70 = 0 && w 0x78 = 0 && ((bs.take 256).drop 0xC0).all (· = 0)

/-- Whether every field of a record is aligned and in its range (R350, R351). -/
def LaunchRec.rangesOk (r : LaunchRec) : Bool :=
  let dim (x : Nat) : Bool := 1 ≤ x && x ≤ 2 ^ 31
  r.sbase.toNat % 4 = 0 && r.lbase.toNat % 64 = 0 && r.slen != 0 && r.slen % 4 = 0 && r.entry % 4 = 0 && r.entry < r.slen
    && dim r.gx && dim r.gy && dim r.gz
    && (r.scratch = 0 || (r.scratch % 256 = 0 && 0x900 ≤ r.scratch && r.scratch ≤ 0x80000))
    && 1 ≤ r.regs && r.regs ≤ 32 && r.wcode ≤ 2 && 1 ≤ r.tgroups && r.need.groups * r.need.width ≤ 3072
    && r.slice % 16 = 0 && (r.slice = 0 || 1 ≤ r.frames) && (r.wqlog = 0 || 4 ≤ r.wqlog) && (!r.wq || r.wqlog != 0)
    && ((r.wx = 0) = (r.wy = 0))

/-- Whether a format slot's descriptor is valid (R63). -/
def slotValid (d : Dword) : Bool :=
  let n := d.toNat
  let efmt := bits n 0 4
  let blk := bits n 4 4
  let sfmt := bits n 8 4
  efmt ≤ 8 && blk ≤ 4 && sfmt ≤ 1 && bits n 13 3 = 0 && ((sfmt = 0) = (blk = 0)) && (efmt != 6 || 1 ≤ blk)
    && (blk = 0 || (4 ≤ efmt && efmt ≤ 6)) && (!bit n 12 || efmt = 6)

/-! Sizes. -/

/-- How many groups of a shape fit within groups, lanes and lane registers. -/
def groupsWithin (n : Need) (groups lanes regs : Nat) : Nat :=
  min groups (min (lanes / n.width) (regs / (n.width * n.nregs)))

/-- Whether an empty core, or an empty pair where R15 asks for one, could hold a team (R18, R23, R351). -/
def teamSizeOk (m : Mach) (ctx : Nat) (n : Need) : Bool :=
  let one := groupsWithin n 64 2048 65536
  let mine := reservedBytes m ctx
  if needsPair m ctx n then n.groups ≤ 2 * one && n.share ≤ (if mine = spadSize then 2 * spadSize else mine)
  else n.groups ≤ one && n.share ≤ mine

/-- How many shares fit in so many reserved bytes; any number where there is no share. -/
def sharesIn (n : Need) (bytes : Nat) : Nat := if n.share = 0 then 2048 else bytes / n.share

/-- How many teams the quotas of a context hold at once on one core, or on one pair (R351, R441). -/
def teamsOn (m : Mach) (ctx : Nat) (q : Quota) (n : Need) : Nat :=
  let one := groupsWithin n (min 64 q.gslots) (min 2048 (32 * q.lanes)) (min 65536 (1024 * q.regs))
  let mine := reservedBytes m ctx
  if needsPair m ctx n then
    min (2 * one / n.groups) (if mine = spadSize then sharesIn n (2 * spadSize) else 2 * sharesIn n mine)
  else min (one / n.groups) (sharesIn n mine)

/-- Whether a core is granted by a quota, in service, and holds some features. -/
def coreServes (m : Mach) (q : Quota) (feat core : Nat) : Bool :=
  q.clusters.getLsbD (clusterOf core) && !(m.cluster (clusterOf core)).fenced && (m.features core).toNat &&& feat = feat

/-- How many teams the quotas of a context hold at once on all its cores (R351). -/
def capacity (m : Mach) (ctx : Nat) (n : Need) : Nat :=
  match (aget m.ctxs ctx).bind Context.quota with
  | none => 0
  | some q =>
    let cores := (List.range 1024).filter (coreServes m q n.feat)
    let places := if needsPair m ctx n then cores.countP fun c => c % 2 = 0 && cores.contains (c + 1) else cores.length
    places * teamsOn m ctx q n

/-! The work queue (R355). -/

/-- The chip-scratchpad ranges that the work queues of kernels hold. -/
def heldQueues (m : Mach) : List (Nat × Nat) :=
  m.kerns.filterMap fun kk => kk.2.wqBase.map fun b => (b, 16 * 2 ^ kk.2.lrec.wqlog)

/-- The lowest range of a size, aligned to it, that is free in a context's reserved bytes of a die. -/
def freeQueue (m : Mach) (ctx die size : Nat) : Option Nat :=
  ((List.range (2 ^ 24 / size)).map fun i => die * 2 ^ 24 + i * size).find? fun a =>
    chipReserved m ctx a size && !(heldQueues m).any fun h => rangesMeet h.1 h.2 a size

/-! The checks and the start of a kernel (R351, R352). -/

/-- Whether a count at (n, t) is justified by a context's input hold (R299, R300). -/
def inputJustifies (c : Context) (n : Nat) (t : Dword) : Bool :=
  match c.input with
  | some (i, s) => (summaryIn c.sums i n s).le t
  | none => false

/-- The cause of a refused launch, by its number in R401: the first failing row of R351; 0 where it passes.
(DEDUCED, log 37.) -/
def launchCause (m : Mach) (ctx die : Nat) (c : Context) (addr : Nat) (bs : List Byte) : Nat :=
  let r := LaunchRec.ofBytes bs
  if addr % 256 != 0 || !launchReservedZero bs || !r.rangesOk || !c.declares r.node || !c.accepts r.node r.stamp then 1
  else if !r.slots.all slotValid then 2
  else if !teamSizeOk m ctx r.need then 3
  else if r.coop && capacity m ctx r.need < r.teams then 4
  else if r.wqlog != 0 && (freeQueue m ctx die (16 * 2 ^ r.wqlog)).isNone then 5
  else if !inputJustifies c r.node r.stamp then 6
  else 0

/-- A kernel as its launch leaves it (R352, R355). -/
def newKernel (ctx queue pos die : Nat) (addr : Dword) (r : LaunchRec) (wqBase : Option Nat) : Kernel :=
  { ctx := ctx, queue := queue, pos := pos, die := die, addr := addr, lrec := r, st := .admitting, nextTeam := 0,
    killed := 0, wqBase := wqBase, wqHead := 0, wqCount := 0, closed := false, nextItem := 0, queries := [], parked := [],
    wqBytes := [] }

/-- A launch that passed its checks: the kernel count is taken at the root, the work queue is set up, and the context is
active (R352, R363). -/
def startKernel (m : Mach) (ctx queue pos die : Nat) (c : Context) (addr : Dword) (r : LaunchRec) : Mach × Nat :=
  let wqBase := if r.wqlog = 0 then none else freeQueue m ctx die (16 * 2 ^ r.wqlog)
  let (kid, m1) := (countRoot m ctx r.node r.stamp 1).newId
  let m2 := m1.setKern kid (newKernel ctx queue pos die addr r wqBase)
  (m2.setCtx ctx { c with st := .active }, kid)

end Sys2Proof.Machine
end

