-- ==== Sys2Proof/Machine/Queue.lean ====
section
/-! DEFINITION. Host-visible queues: their commands (R394 to R396), the ring and the checks of a packet's header (R396 to
R398, R402), and slots and classes (R403, R404).
-/

namespace Sys2Proof.Machine

/-! Places. -/

/-- The core through whose caches the command processor of a slot translates; the first die's where a queue has none. -/
def slotCore (slot : Option Nat) : Nat := 128 * (slot.getD 0 / 32)

/-- A queue's translating core. -/
def Queue.core (q : Queue) : Nat := slotCore q.slot

/-- The code of a queue's state (R404). -/
def QState.code : QState → Nat
  | .unmapped => 1
  | .mapped => 2
  | .blocked => 3
  | .halted => 4
  | .suspended => 5
  | .draining => 6

/-- The address of a unit count in a queue's ring (R396). -/
def Queue.at_ (q : Queue) (u : Nat) : Nat := q.rbase.toNat + 16 * u % 2 ^ q.szlog

/-- The second word of a status line (R396). -/
def Queue.statusWord (q : Queue) : Nat := q.st.code + q.hcause * 2 ^ 8

/-- A queue halted with a cause: it leaves its slot (R402). -/
def Queue.halt (q : Queue) (cause : Nat) : Queue := { q with st := .halted, hcause := cause, slot := none, told := false }

/-- A queue's status line written as one store; where it faults the queue halts with cause 6, which is then seen through
QCMD alone (R396). -/
def tell (m : Mach) (qn : Nat) : Mach :=
  match aget m.queues qn with
  | none => m
  | some q =>
    match writeVirtual q.core q.ctx [toBytes 8 q.head, toBytes 8 q.statusWord] m q.saddr.toNat with
    | .ok m1 => m1.setQueue qn { q with told := true }
    | .error (m1, _) => m1.setQueue qn { q.halt 6 with told := true }

/-- A queue changed, and its status line with it. -/
def retell (m : Mach) (qn : Nat) (q : Queue) : Mach := tell (m.setQueue qn q) qn

/-- The status lines of every queue that changed with its context. (DEDUCED, log 39.) -/
def tellAll (m : Mach) : Mach :=
  ((m.queues.filter fun kq => !kq.2.told).map Prod.fst).foldl tell m

/-! Reading the ring. -/

/-- The tail word of a queue, read as an acquire at .sys (R397); or the machine that a fault leaves. -/
def readTail (m : Mach) (q : Queue) : Except Mach (Mach × Nat) :=
  match readVirtual q.core q.ctx 1 m q.taddr.toNat [] with
  | .ok (m1, bs) => .ok (m1, ofBytes bs)
  | .error (m1, _) => .error m1

/-- Units of a queue's ring read from a count on; or the machine that a fault leaves. -/
def readUnits (m : Mach) (q : Queue) (u n : Nat) : Except Mach (Mach × List Byte) :=
  match readVirtual q.core q.ctx (2 * n) m (q.at_ u) [] with
  | .ok r => .ok r
  | .error (m1, _) => .error m1

/-- A packet's header (R398). -/
structure Header where
  kind  : Nat
  bar   : Bool
  cpl   : Bool
  len   : Nat
  node  : Nat
  res   : Nat
  stamp : Dword
  deriving DecidableEq, Repr

/-- A header from its 16 bytes. -/
def Header.ofBytes (bs : List Byte) : Header :=
  let w := Machine.ofBytes (bs.take 8)
  { kind := bits w 0 8, bar := bit w 8, cpl := bit w 9, len := bits w 16 9, node := bits w 32 10,
    res := bits w 10 6 + bits w 25 7 + bits w 42 22, stamp := BitVec.ofNat 64 (Machine.ofBytes ((bs.drop 8).take 8)) }

/-- The least length of a packet of a type in units (R399); n is the record count of a FEED. -/
def minLen (kind n : Nat) : Nat :=
  match kind with
  | 0x02 => 2
  | 0x03 => 2 + n
  | 0x04 | 0x05 | 0x06 | 0x08 => 3
  | 0x07 => 2
  | _ => 1

/-- The units that a packet takes: PAD takes every unit to the ring's end (R399). -/
def Header.units (h : Header) (q : Queue) : Nat :=
  if h.kind = 1 then 2 ^ q.szlog / 16 - q.head % (2 ^ q.szlog / 16) else h.len

/-- Whether a packet has a completion block: PAD ignores the bit (R398). -/
def Header.hasCpl (h : Header) : Bool := h.cpl && h.kind != 1

/-- The causes for which a queue halts at a packet, of those seen in its first units (R402): n is the record count of a
FEED, and cpa the completion address.  Oversize is tested before straddle. (DEDUCED, log 37.) -/
def haltCauses (q : Queue) (h : Header) (n cpa : Nat) : List Nat :=
  let ring := 2 ^ q.szlog
  let oversize := h.kind != 1 && (256 < h.len || ring < 16 * h.len)
  let straddle := h.kind != 1 && !oversize && ring < 16 * q.head % ring + 16 * h.len
  (if straddle then [1] else []) ++ (if oversize then [2] else []) ++ (if 9 < h.kind then [3] else [])
    ++ (if h.res != 0 || (h.hasCpl && cpa % 16 != 0) then [4] else [])
    ++ (if h.kind != 1 && h.len < minLen h.kind n + (if h.cpl then 1 else 0) then [7] else [])

/-- A packet that is a WAIT whose condition does not hold yet. -/
def Packet.waits (p : Packet) : Bool := p.kind = 5 && p.st = .waiting

/-- Whether the packet at head may start now (R400): a WAIT before it has completed, and every packet before it where it
has the barrier bit. -/
def mayStart (q : Queue) (h : Header) : Bool :=
  q.packets.length < 64 && (if h.bar then q.packets.isEmpty else !q.packets.any fun p => p.kind = 5)

/-- What a slot finds at head: nothing to start yet, a cause to halt, or a packet that starts. -/
inductive AtHead where
  | empty (m : Mach)
  | halt (m : Mach) (cause : Nat)
  | packet (m : Mach) (h : Header) (bytes : List Byte)
  deriving DecidableEq, Repr

/-- The record count of a FEED among a packet's first bytes. -/
def feedCount (h : Header) (bs : List Byte) : Nat :=
  if h.kind = 3 then ofBytes ((bs.drop (if h.hasCpl then 40 else 24)).take 2) else 0

/-- The completion address among a packet's first bytes. -/
def cplAddr (h : Header) (bs : List Byte) : Nat := if h.hasCpl then ofBytes ((bs.drop 16).take 8) else 0

/-- One of the causes that apply halts the queue (R402); else it goes on. (DEDUCED, log 37.) -/
def haltElse (m : Mach) (cs : List Nat) (go : AtHead) : AtHead :=
  match cs[m.pick cs.length]? with
  | some c => .halt m.bump c
  | none => go

/-- The packet at head by its header: the header is checked, and the rest of the packet is read, and checked, as the packet
starts (R400, R402). -/
def checkHeader (m : Mach) (q : Queue) (avail : Nat) (h : Header) (wanted : Bool) : AtHead :=
  haltElse m (haltCauses q h 0 0)
    (if avail < h.units q || !mayStart q h || !wanted then .empty m
     else
      match readUnits m q q.head (if h.kind = 1 then 1 else h.len) with
      | .error m1 => .halt m1 6
      | .ok (m1, bs) => haltElse m1 (haltCauses q h (feedCount h bs) (cplAddr h bs)) (.packet m1 h bs))

/-- What a slot finds at head (R397, R402), where it looks for packets of the types that a test asks for. -/
def atHead (m : Mach) (q : Queue) (wants : Nat → Bool) : AtHead :=
  match readTail m q with
  | .error m1 => .halt m1 6
  | .ok (m1, tail) =>
    let ahead := signed 64 ((tail + 2 ^ 64 - q.head % 2 ^ 64) % 2 ^ 64)
    if ahead < 0 || (2 ^ q.szlog / 16 : Int) < ahead then .halt m1 5
    else if ahead = 0 then .empty m1
    else
      match readUnits m1 q q.head 1 with
      | .error m2 => .halt m2 6
      | .ok (m2, bs) => checkHeader m2 q ahead.toNat (Header.ofBytes bs) (wants (Header.ofBytes bs).kind)

/-! Queue commands (R394, R395, R404). -/

/-- The result of a queue command (R394). -/
def qDone (m : Mach) (cp qn res : Nat) : Mach := setCp m cp fun x => { x with qnum := qn, qres := res }

/-- A queue from its descriptor's 64 bytes, if it is valid (R395): a queue has no head yet. -/
def readQueue (bs : List Byte) : Option Queue :=
  let w (o : Nat) : Nat := Machine.ofBytes ((bs.drop o).take 8)
  let f := w 0x18
  let szlog := bits f 0 5
  if bits f 28 36 = 0 && bits f 10 6 = 0 && bits f 5 3 = 0 && ((bs.take 64).drop 0x20).all (· = 0) && 12 ≤ szlog && szlog ≤ 24
      && w 0 % 2 ^ szlog = 0 && w 8 % 8 = 0 && w 0x10 % 16 = 0 then
    some { ctx := bits f 16 12, cls := bits f 8 2, rbase := BitVec.ofNat 64 (w 0), taddr := BitVec.ofNat 64 (w 8),
           saddr := BitVec.ofNat 64 (w 0x10), szlog := szlog, head := 0, st := .unmapped, hcause := 0, slot := none, since := 0,
           told := true, packets := [], launches := [] }
  else none

/-- The lowest queue number that is free (R394). -/
def freeQueueNo (m : Mach) : Option Nat := (List.range 4096).find? fun i => (aget m.queues i).isNone

/-- Whether a queue may be made for a context (R395). -/
def ctxTakesQueues (m : Mach) (ctx : Nat) : Bool :=
  match (aget m.ctxs ctx).map Context.st with
  | some .created | some .resident | some .active => true
  | _ => false

/-- A queue with its head at the tail, its status line written; or the machine that a fault of one of the two accesses
leaves (R396). -/
def openQueue (m : Mach) (q : Queue) : Except Mach (Mach × Queue) :=
  match readTail m q with
  | .error m1 => .error m1
  | .ok (m1, tail) =>
    let q1 := { q with head := tail }
    match writeVirtual q1.core q1.ctx [toBytes 8 q1.head, toBytes 8 q1.statusWord] m1 q1.saddr.toNat with
    | .ok m2 => .ok (m2, q1)
    | .error (m2, _) => .error m2

/-- The queue whose descriptor lies at a physical address, which may be device memory or lie behind a port (R164, R395):
none where the address has no target or the descriptor is not valid. -/
def describedQueue (m : Mach) (addr : Nat) : Mach × Option Queue :=
  match (target m addr).filter fun _ => addr % 64 = 0 with
  | none => (m, none)
  | some l =>
    let (m1, bs) := farRead m l 64
    (m1, (readQueue bs).filter fun q => ctxTakesQueues m q.ctx)

/-- QCREATE performed (R394 to R396). -/
def createQueue (m : Mach) (cp : Nat) : Mach :=
  match describedQueue m (m.cp cp).qarg.toNat with
  | (m1, none) => qDone m1 cp 0 1
  | (m1, some q) =>
    match freeQueueNo m1 with
    | none => qDone m1 cp 0 2
    | some i =>
      match openQueue m1 q with
      | .error m2 => qDone m2 cp 0 1
      | .ok (m2, q1) => qDone (m2.setQueue i q1) cp i 0

/-- QCREATE (R394). -/
def execQcreate (cp : Nat) (s : State) : Host.Outcome State Fault Refusal := event s fun m => createQueue m cp

/-- A queue unmapped: it waits for a slot from now on (R403, R404). -/
def unmapQueue (m : Mach) (qn : Nat) (q : Queue) : Mach :=
  retell m qn { q with st := .unmapped, hcause := 0, slot := none, since := 0 }

/-- QRESUME performed (R402, R404). -/
def resumeQueue (m : Mach) (cp qn : Nat) : Mach :=
  match aget m.queues qn with
  | some q => if q.st = .halted then unmapQueue (qDone m cp qn 0) qn q else qDone m cp qn 5
  | none => qDone m cp qn 5

/-- QRESUME (R394). -/
def execQresume (cp q : Nat) (s : State) : Host.Outcome State Fault Refusal := event s fun m => resumeQueue m cp q

/-- A draining queue with no started packet left is absent: its number is free (R404). -/
def settleQueue (m : Mach) (qn : Nat) : Mach :=
  match aget m.queues qn with
  | some q => if q.st = .draining && q.packets.isEmpty then { m with queues := adel m.queues qn } else m
  | none => m

/-- QDESTROY performed (R404): the queue drains, and is absent at once where no started packet is left. -/
def destroyQueue (m : Mach) (cp qn : Nat) : Mach :=
  match aget m.queues qn with
  | some q =>
    if q.st = .draining then qDone m cp qn 5
    else
      let m1 := retell (qDone m cp qn 0) qn { q with st := .draining, hcause := 0, slot := none }
      if q.packets.isEmpty then { m1 with queues := adel m1.queues qn } else m1
  | none => qDone m cp qn 5

/-- QDESTROY (R394). -/
def execQdestroy (cp q : Nat) (s : State) : Host.Outcome State Fault Refusal := event s fun m => destroyQueue m cp q

/-! Slots and classes (R403). -/

/-- Whether the queues of a context are served: it is resident or active. -/
def ctxServed (m : Mach) (ctx : Nat) : Bool :=
  match (aget m.ctxs ctx).map Context.st with
  | some .resident | some .active => true
  | _ => false

/-- Whether a queue is pending (R403): it has something to read, or a WAIT to test again. (DEDUCED, log 39.) -/
def pendingQueue (m : Mach) (q : Queue) : Bool :=
  q.st = .unmapped && ctxServed m q.ctx
    && (q.packets.any Packet.waits || (match readTail m q with
      | .ok (_, tail) => tail % 2 ^ 64 != q.head % 2 ^ 64
      | .error _ => true))

/-- The queues that are pending. -/
def pendings (m : Mach) : List (Nat × Queue) := m.queues.filter fun kq => pendingQueue m kq.2

/-- Queues that have become pending are numbered after those that were, and a queue that is not pending has no number: the
order in which queues have been pending (R403). -/
def agePending (m : Mach) : Mach :=
  m.queues.foldl
    (fun m kq =>
      if !pendingQueue m kq.2 then if kq.2.since = 0 then m else m.setQueue kq.1 { kq.2 with since := 0 }
      else if kq.2.since = 0 then
        m.setQueue kq.1 { kq.2 with since := (m.queues.foldl (fun n x => max n x.2.since) 0) + 1 }
      else m)
    m

/-- Whether a queue has been pending longer than another of its class. -/
def Queue.longer (q x : Queue) : Bool := q.since != 0 && (x.since = 0 || q.since < x.since)

/-- Whether a pending queue is served before every other: the lowest class first, and in it the one pending longest
(R403). -/
def servedFirst (m : Mach) (x : Queue) : Bool :=
  (pendings m).all fun kq => x.cls < kq.2.cls || (x.cls = kq.2.cls && !kq.2.longer x)

/-- The class whose reserve a slot belongs to; none for the common pool. -/
def slotClass (s : Nat) : Option Nat := if s % 32 < 16 then some (s % 32 / 4) else none

/-- Whether a slot serves no queue. -/
def slotIdle (m : Mach) (s : Nat) : Bool := s < 256 && !aany (fun _ q => q.slot = some s) m.queues

/-- Whether some slot of a kind is idle. -/
def anyIdle (m : Mach) (p : Option Nat → Bool) : Bool := (List.range 256).any fun s => p (slotClass s) && slotIdle m s

/-- Whether a queue of a class may take an idle slot: one of its own reserve, else a common one, else another's.
(DEDUCED, log 39.) -/
def slotAllowed (m : Mach) (cls s : Nat) : Bool :=
  slotIdle m s
    && (if anyIdle m (· = some cls) then slotClass s = some cls
        else if anyIdle m (· = none) then (slotClass s).isNone else true)

/-- QUEUE_MAP (R403): the pending queue that is served first takes a slot. -/
def execQueueMap (q slot : Nat) (s : State) : Host.Outcome State Fault Refusal :=
  event s fun m =>
    match aget m.queues q with
    | none => m
    | some x =>
      if pendingQueue m x && slotAllowed m x.cls slot && servedFirst m x then
        retell m q { x with st := .mapped, slot := some slot, since := 0 }
      else m

/-- The slots that queues of a class hold. -/
def slotsHeld (m : Mach) (cls : Nat) : Nat := m.queues.countP fun kq => kq.2.cls = cls && kq.2.slot.isSome

/-- Whether a queue's slot is reclaimed: it is borrowed from a class that holds fewer than 32 slots and has a queue
pending (R403). -/
def reclaimed (m : Mach) (q : Queue) : Bool :=
  match q.slot.bind slotClass with
  | none => false
  | some k => k != q.cls && slotsHeld m k < 32 && (pendings m).any fun kq => kq.2.cls = k

/-- Whether a mapped queue is parked with no unstarted packet. -/
def parkedQueue (m : Mach) (q : Queue) : Bool :=
  match readTail m q with
  | .ok (_, tail) => tail % 2 ^ 64 = q.head % 2 ^ 64
  | .error _ => false

/-- QUEUE_IDLE_UNMAP (R403): with a queue pending and no slot idle, a queue parked for 4096 cycles is unmapped, and so is
one whose slot is reclaimed. -/
def execQueueIdleUnmap (q cycles : Nat) (s : State) : Host.Outcome State Fault Refusal :=
  event s fun m =>
    match aget m.queues q with
    | none => m
    | some x =>
      let idle := x.st = .mapped && 4096 ≤ cycles && parkedQueue m x
      if (x.st = .mapped || x.st = .blocked) && !(pendings m).isEmpty && !anyIdle m (fun _ => true)
          && (idle || reclaimed m x) then unmapQueue m q x
      else m

end Sys2Proof.Machine
end

