-- ==== Sys2Proof/Machine/Packet.lean ====
section
/-! DEFINITION. The packets of a queue: how they start and complete (R398 to R401), and what each type does (R355, R399).
-/

namespace Sys2Proof.Machine

/-! Completion (R398). -/

/-- A packet without its place in the list of those started. -/
def Queue.drop (q : Queue) (pos : Nat) : Queue := { q with packets := q.packets.filter fun p => p.pos != pos }

/-- The packet that started at a position. -/
def Queue.packet (q : Queue) (pos : Nat) : Option Packet := q.packets.find? fun p => p.pos = pos

/-- A queue's packet changed. -/
def Queue.put (q : Queue) (p : Packet) : Queue :=
  { q with packets := q.packets.map fun x => if x.pos = p.pos then p else x }

/-- The report of a completion block whose store faulted (R379). (DEDUCED, log 52.) -/
def cplReport (qn : Nat) (p : Packet) (cause level : Nat) (cpa : Dword) : Report :=
  { Report.plain 10 cause with where_ := qn % 4096 + level * 2 ^ 24, spc := BitVec.ofNat 64 p.pos, addr := cpa }

/-- The level that a report of a translation fault carries (R387). (DEDUCED, log 52.) -/
def levelFor (c : Cause) (level : Nat) : Nat := if 16 ≤ c.num && c.num ≤ 19 then level else 0

/-- The completion block stored: the status first, then the value as a release (R398); the first fault ends it with a
report. -/
def storeCpl (m : Mach) (qn : Nat) (q : Queue) (p : Packet) (status : Dword) : Mach :=
  match p.cpl with
  | none => m
  | some (cpa, cval) =>
    match writeVirtual q.core q.ctx [toBytes 8 status.toNat] m ((cpa + 8).toNat) with
    | .error (m1, c, l, _) => report m1 q.ctx (cplReport qn p c.num (levelFor c l) cpa)
    | .ok m1 =>
      match writeVirtual q.core q.ctx [toBytes 8 cval.toNat] m1 cpa.toNat with
      | .error (m2, c, l, _) => report m2 q.ctx (cplReport qn p c.num (levelFor c l) cpa)
      | .ok m2 => m2

/-- A packet that is done completes: its completion block is stored, a count that it holds is dropped, and the context has
made progress (R377, R398). -/
def finishPacket (m : Mach) (qn : Nat) (q : Queue) (p : Packet) (status : Dword) : Mach :=
  let m1 := storeCpl (m.setQueue qn (q.drop p.pos)) qn q p status
  let m2 := if p.held then countRoot m1 q.ctx p.node p.stamp (-1) else m1
  settleQueue (progress m2 q.ctx) qn

/-- Whether the packets of a context complete: not while it is being saved, is saved or is being restored (R404). -/
def ctxCompletes (m : Mach) (ctx : Nat) : Bool :=
  match (aget m.ctxs ctx).map Context.st with
  | some .saving | some .saved | some .restoring | some .lost | none => false
  | _ => true

/-- The status with which a packet completes now: a FENCE does once every earlier packet has (R399).
(DEDUCED, log 39.) -/
def Packet.ready (p : Packet) (q : Queue) : Option Dword :=
  match p.st with
  | .done st => some st
  | _ => if p.kind = 9 && (q.packets.head?.map Packet.pos) = some p.pos then some 0 else none

/-- PACKET_COMPLETE (R398). -/
def execPacketComplete (q : Nat) (pos : Nat) (s : State) : Host.Outcome State Fault Refusal :=
  event s fun m =>
    match aget m.queues q with
    | none => m
    | some x =>
      match x.packet pos with
      | none => m
      | some p =>
        match p.ready x with
        | some st => if ctxCompletes m x.ctx then finishPacket m q x p st else m
        | none => m

/-! Starting (R400, R401). -/

/-- A packet as it starts, from its header and bytes. -/
def newPacket (q : Queue) (h : Header) (bs : List Byte) : Packet :=
  let w (o : Nat) : Dword := BitVec.ofNat 64 (ofBytes ((bs.drop o).take 8))
  let b := if h.hasCpl then 32 else 16
  { pos := q.head % 2 ^ 64, kind := h.kind, bar := h.bar, node := h.node, stamp := h.stamp,
    cpl := if h.hasCpl then some (w 16, w 24) else none,
    body := (List.range ((bs.length - b) / 8)).map fun i => w (b + 8 * i), st := .running, ref := none, held := false }

/-- A word of a packet's body. -/
def Packet.word (p : Packet) (i : Nat) : Nat := (p.body.getD i 0).toNat

/-- Head advanced past a packet that starts, which joins those in flight (R400). -/
def Queue.start (q : Queue) (units : Nat) (p : Packet) : Queue :=
  { q with head := (q.head + units) % 2 ^ 64, packets := q.packets ++ [p] }

/-- What a packet needs to know of where it starts: its queue's number, the queue, and the context. -/
structure At where
  qn : Nat
  q  : Queue
  c  : Context

/-- A packet started as it stands, in a machine. -/
def At.begin_ (a : At) (m : Mach) (units : Nat) (p : Packet) : Mach :=
  match aget m.queues a.qn with
  | some q => retell m a.qn (q.start units p)
  | none => m

/-- A packet started with its status: it has failed its checks, or has nothing more to do (R401). -/
def At.settle (a : At) (m : Mach) (units : Nat) (p : Packet) (status : Nat) : Mach :=
  a.begin_ m units { p with st := .done (statusWord status 0) }

/-- Whether a packet's stamp fails (R401): invalid at its node, or, for a count, not justified by the input hold.
(DEDUCED, log 37.) -/
def At.stampFails (a : At) (p : Packet) (count : Bool) : Bool :=
  !a.c.declares p.node || !a.c.accepts p.node p.stamp || (count && !inputJustifies a.c p.node p.stamp)

/-- The kernel that a LAUNCH of a queue at a position started. -/
def Queue.launched (q : Queue) (p : Nat) : Option Nat := (q.launches.find? fun l => l.1 = p).map Prod.snd

/-! LAUNCH (R351, R352). -/

/-- A LAUNCH started: its record is read and checked, and its kernel begins; or it is refused (R351, R401). -/
def startLaunch (a : At) (m : Mach) (units : Nat) (p : Packet) : Mach :=
  let addr := p.word 0
  if a.stampFails p false then a.settle m units p 20
  else
    match readVirtual a.q.core a.q.ctx 32 m addr [] with
    | .error (m1, _) => a.settle m1 units p (if addr % 256 != 0 then 1 else 21)
    | .ok (m1, bs) =>
      let die := a.q.slot.getD 0 / 32
      let r := LaunchRec.ofBytes bs
      match launchCause m1 a.q.ctx die a.c addr bs with
      | 0 =>
        if !rootHasRoom m1 a.q.ctx r.node r.stamp then m1
        else
          let (m2, kid) := startKernel m1 a.q.ctx a.qn p.pos die a.c (BitVec.ofNat 64 addr) r
          let m3 := a.begin_ m2 units { p with ref := some kid }
          match aget m3.queues a.qn with
          | some q => m3.setQueue a.qn { q with launches := (p.pos, kid) :: q.launches }
          | none => m3
      | c => a.settle m1 units p c

/-! FEED (R355). -/

/-- The kernel that takes a FEED, if it still does. -/
def feedTarget (m : Mach) (q : Queue) (p : Packet) : Option (Nat × Kernel) :=
  match q.launched (p.word 0) with
  | none => none
  | some kid => ((aget m.kerns kid).filter fun k => k.lrec.wq && k.live && !k.closed).map fun k => (kid, k)

/-- The records of a FEED: 16 bytes each. -/
def feedBytes (p : Packet) (n : Nat) : List Byte := ((p.body.drop 2).take (2 * n)).flatMap fun w => toBytes 8 w.toNat

/-- Records appended to a kernel's work queue, one after another (R355). -/
def appendRecords (base log : Nat) : List Byte → Nat → Nat → Mach → Mach
  | _, _, 0, m => m
  | bs, at_, n + 1, m =>
    appendRecords base log (bs.drop 16) (at_ + 1) n (writeBytes m (.chip (base + 16 * (at_ % 2 ^ log))) (bs.take 16))

/-- Whether an earlier FEED of a queue to the same kernel still waits. -/
def feedAhead (q : Queue) (p : Packet) : Bool :=
  (q.packets.takeWhile fun x => x.pos != p.pos).any fun x => x.kind = 3 && x.st = .waiting && x.word 0 = p.word 0

/-- What becomes of a FEED now: its status, or none while the room is short. -/
def feedNow (m : Mach) (q : Queue) (p : Packet) : Mach × Option Nat :=
  let n := p.word 1 % 2 ^ 16
  match feedTarget m q p with
  | none => (m, some 19)
  | some (kid, k) =>
    if 2 ^ k.lrec.wqlog < n then (m, some 18)
    else if 2 ^ k.lrec.wqlog < k.wqCount + n || feedAhead q p then (m, none)
    else
      let m1 := appendRecords (k.wqBase.getD 0) k.lrec.wqlog (feedBytes p n) (k.wqHead + k.wqCount) n m
      (m1.setKern kid { k with wqCount := k.wqCount + n, closed := bit (p.word 1) 16 }, some 0)

/-- A FEED started: it appends its records, is refused, or waits for room (R355). (DEDUCED, log 37.) -/
def startFeed (a : At) (m : Mach) (units : Nat) (p : Packet) : Mach :=
  if a.stampFails p false then a.settle m units p 20
  else
    match feedNow m a.q p with
    | (m1, some st) => a.settle m1 units p st
    | (m1, none) => a.begin_ m1 units { p with st := .waiting }

/-- A FEED that waited tries again. -/
def retryFeed (m : Mach) (qn : Nat) (q : Queue) (p : Packet) : Mach :=
  match feedNow m q p with
  | (m1, some st) => m1.setQueue qn (q.put { p with st := .done (statusWord st 0) })
  | (m1, none) => m1

/-! WALK (R265, R399). -/

/-- The kernel that a WALK packet names, if it is in flight. -/
def walkKernel (m : Mach) (q : Queue) (p : Packet) : Option (Nat × Kernel) :=
  match q.launched (p.word 1) with
  | none => none
  | some kid => ((aget m.kerns kid).filter Kernel.live).map fun k => (kid, k)

/-- The status of a WALK packet's checks on its record, in the order of R265; 0 where it passes. (DEDUCED, log 37.) -/
def walkCause (m : Mach) (c : Context) (k : Kernel) (addr eng : Nat) (bs : List Byte) : Nat :=
  let r := WalkRec.ofBytes bs
  if addr % 256 != 0 || !walkValid c k.lrec r bs (inputJustifies c r.node r.stamp) then 16
  else if r.accfmt = 3 && !engineHasF64 m eng then 17
  else if eng % r.width_ != 0 then 16
  else 0

/-- The bytes of a record that a waiting WALK packet keeps in its body. -/
def recordWords (bs : List Byte) : List Dword :=
  (List.range 32).map fun i => BitVec.ofNat 64 (ofBytes ((bs.drop (8 * i)).take 8))

/-- A walk whose count is taken posted for a packet: at once, or when the intake has an entry free. -/
def postPacketWalk (m : Mach) (ctx kid : Nat) (p : Packet) (eng : Nat) (bs : List Byte) : Mach × Packet :=
  if intakeFree m eng then
    let (m1, id) := appendWalk m ctx kid none (p.body.getD 0 0) (WalkRec.ofBytes bs) eng []
    (m1, { p with st := .running, ref := some id })
  else (m, { p with st := .waiting, ref := some kid, body := p.body.take 4 ++ recordWords bs })

/-- The count of a WALK packet's walk: the unit of the cluster of its lowest engine records it, and the root applies it
before the packet has an effect (R298, R302, R400). -/
def takeWalk (m : Mach) (ctx node : Nat) (stamp : Dword) (eng : Nat) : Mach :=
  flushUnit (countAt m eng ctx node stamp 1) eng

/-- A WALK packet started (R399). -/
def startWalk (a : At) (m : Mach) (units : Nat) (p : Packet) : Mach :=
  let eng := p.word 2 % 256
  if a.stampFails p false then a.settle m units p 20
  else if eng = 0 || 128 < eng then a.settle m units p 16
  else
    match walkKernel m a.q p with
    | none => a.settle m units p 16
    | some (kid, k) =>
      match readVirtual a.q.core a.q.ctx 32 m (p.word 0) [] with
      | .error (m1, _) => a.settle m1 units p (if p.word 0 % 256 != 0 then 16 else 21)
      | .ok (m1, bs) =>
        match walkCause m1 a.c k (p.word 0) (eng - 1) bs with
        | 0 =>
          let r := WalkRec.ofBytes bs
          if !rootHasRoom m1 a.q.ctx r.node r.stamp then m1
          else
            let (m2, p1) := postPacketWalk (takeWalk m1 a.q.ctx r.node r.stamp (eng - 1)) a.q.ctx kid p (eng - 1) bs
            a.begin_ m2 units p1
        | c => a.settle m1 units p c

/-- A WALK packet that waited for the intake tries again. -/
def retryWalk (m : Mach) (qn : Nat) (q : Queue) (p : Packet) : Mach :=
  match p.ref with
  | none => m
  | some kid =>
    let bs := (p.body.drop 4).flatMap fun w => toBytes 8 w.toNat
    let (m1, p1) := postPacketWalk m q.ctx kid p (p.word 2 % 256 - 1) bs
    if p1.st = .waiting then m else m1.setQueue qn (q.put p1)

/-! WAIT (R399). -/

/-- Whether a WAIT is valid. -/
def waitValid (p : Packet) : Bool :=
  match p.word 0 % 4 with
  | 0 => bits (p.word 0) 8 3 < 6 && p.word 1 % 8 = 0
  | 1 => true
  | _ => false

/-- A WAIT started: the queue is blocked until its condition holds (R404). -/
def startWait (a : At) (m : Mach) (units : Nat) (p : Packet) : Mach :=
  if a.stampFails p false then a.settle m units p 20
  else if !waitValid p then a.settle m units p 24
  else retell m a.qn { a.q.start units { p with st := .waiting } with st := .blocked }

/-- A WAIT's condition tested once: whether it holds, or the status with which it ends. -/
def testWait (m : Mach) (q : Queue) (c : Context) (p : Packet) : Mach × Option Nat :=
  if p.word 0 % 4 = 1 then (m, if (c.floorAt p.node).above p.stamp then some 0 else none)
  else
    match readVirtual q.core q.ctx 1 m (p.word 1) [] with
    | .error (m1, _) => (m1, some 21)
    | .ok (m1, bs) =>
      let v : Dword := BitVec.ofNat 64 (ofBytes bs)
      (m1, if waitCond (bits (p.word 0) 8 3) v (BitVec.ofNat 64 (p.word 2)) then some 0 else none)

/-- Whether a WAIT of a queue is tested now: its thread waits, or the queue has stopped and the packets that it started run
on (R402 to R404); an unmapped queue's is tested when it is mapped again. -/
def Queue.testsWait (q : Queue) : Bool := q.st = .mapped || q.st = .blocked || q.st = .halted || q.st = .draining

/-- The state in which a queue goes on from a WAIT that has completed (R404). -/
def Queue.pastWait (q : Queue) : Queue := if q.st = .blocked then { q with st := .mapped } else q

/-- WAIT_PACKET_SATISFIED (R404): a WAIT's condition is tested; where it holds the WAIT completes and the queue goes on. -/
def execWaitPacketSatisfied (q : Nat) (pos : Nat) (s : State) : Host.Outcome State Fault Refusal :=
  event s fun m =>
    match aget m.queues q with
    | none => m
    | some x =>
      match x.packet pos, aget m.ctxs x.ctx with
      | some p, some c =>
        if p.waits && x.testsWait && ctxServed m x.ctx then
          match testWait m x c p with
          | (m1, some st) =>
            let done := { p with st := .done (statusWord st 0) }
            let m2 := retell m1 q (x.put done).pastWait
            match aget m2.queues q with
            | some y => finishPacket m2 q y done (statusWord st 0)
            | none => m2
          | (m1, none) => if x.st = .mapped then retell m1 q { x with st := .blocked } else m1
        else m
      | _, _ => m

/-! SIGNAL, FRONT, COPY (R300, R399). -/

/-- The access of a SIGNAL at .sys, or the machine that its fault leaves. -/
def signalAccess (m : Mach) (q : Queue) (va val op : Nat) : Except Mach Mach :=
  match locateFor m q.core q.ctx va (if op = 1 then .atomic else .write) with
  | .error (m1, _) => .error m1
  | .ok (m1, l) => .ok (agentWrite m1 l (toBytes 8 (if op = 1 then readNat m1 l 8 + val else val)))

/-- A packet started that holds a count: it is taken at the root before the packet's effects (R400). -/
def At.take (a : At) (m : Mach) (p : Packet) : Mach := countRoot m a.q.ctx p.node p.stamp 1

/-- A packet that holds a count started, with its effect: none where it meets an access fault (R401). -/
def startCounted (a : At) (m : Mach) (units : Nat) (p : Packet) (valid : Bool) (f : Mach → Mach × Nat) : Mach :=
  if a.stampFails p true then a.settle m units p 20
  else if !rootHasRoom m a.q.ctx p.node p.stamp then m
  else
    let m1 := a.take m p
    let (m2, st) := if valid then f m1 else (m1, 24)
    a.settle m2 units { p with held := true } st

/-- A SIGNAL started. -/
def startSignal (a : At) (m : Mach) (units : Nat) (p : Packet) : Mach :=
  startCounted a m units p (p.word 0 % 8 = 0 && p.word 2 ≤ 1) fun m =>
    match signalAccess m a.q (p.word 0) (p.word 1) (p.word 2) with
    | .ok m1 => (m1, 0)
    | .error m1 => (m1, 21)

/-- Whether a move of the input hold would place it below a floor already announced for a node it reaches (R300). -/
def moveRegresses (c : Context) (n : Nat) (t : Dword) : Bool :=
  (List.range c.nodes.length).any fun m => (summaryIn c.sums n m t).ltF (c.floorAt m)

/-- A FRONT started: the root moves or removes the input hold, or refuses (R300). (DEDUCED, log 37.) -/
def startFront (a : At) (m : Mach) (units : Nat) (p : Packet) : Mach :=
  if a.stampFails p false then a.settle m units p 20
  else if p.word 0 % 2 = 1 then a.settle (m.setCtx a.q.ctx { a.c with input := none }) units p 0
  else if a.c.input.isNone || moveRegresses a.c p.node p.stamp then a.settle m units p 23
  else a.settle (m.setCtx a.q.ctx { a.c with input := some (p.node, p.stamp) }) units p 0

/-- The places of a COPY's words, source and destination; or the machine that the first fault leaves, in which nothing is
copied (R401). -/
def copyPlaces (core ctx : Nat) : Nat → Nat → Nat → Mach → List (Loc × Loc) → Except Mach (Mach × List (Loc × Loc))
  | 0, _, _, m, acc => .ok (m, acc.reverse)
  | n + 1, src, dst, m, acc =>
    match locateFor m core ctx src .read with
    | .error (m1, _) => .error m1
    | .ok (m1, l) =>
      match locateFor m1 core ctx dst .write with
      | .error (m2, _) => .error m2
      | .ok (m2, k) => copyPlaces core ctx n (src + 4) (dst + 4) m2 ((l, k) :: acc)

/-- One word copied. -/
def copyWord (m : Mach) (lk : Loc × Loc) : Mach :=
  let (m1, bs) := farRead m lk.1 4
  agentWrite m1 lk.2 bs

/-- The words of a COPY moved one after another, once every access is known to pass. (DESIGN CHOICE, log 38.) -/
def copyWords (core ctx n src dst : Nat) (m : Mach) : Mach × Nat :=
  match copyPlaces core ctx n src dst m [] with
  | .error m1 => (m1, 21)
  | .ok (m1, places) => (places.foldl copyWord m1, 0)

/-- Whether a COPY's fields are valid. -/
def copyValid (p : Packet) : Bool :=
  let n := p.word 2 % 2 ^ 24
  p.word 0 % 4 = 0 && p.word 1 % 4 = 0 && n % 4 = 0

/-- A COPY started. -/
def startCopy (a : At) (m : Mach) (units : Nat) (p : Packet) : Mach :=
  startCounted a m units p (copyValid p) fun m => copyWords a.q.core a.q.ctx (p.word 2 % 2 ^ 24 / 4) (p.word 0) (p.word 1) m

/-! The packet at head. -/

/-- A NOP completes as it starts (R399). -/
def startNop (a : At) (m : Mach) (units : Nat) (p : Packet) : Mach :=
  let st := if a.stampFails p false then statusWord 20 0 else 0
  let m1 := a.begin_ m units { p with st := .done st }
  match aget m1.queues a.qn with
  | some q => finishPacket m1 a.qn q { p with st := .done st } st
  | none => m1

/-- A PAD completes as it starts, taking every unit to the ring's end (R399). -/
def startPad (a : At) (m : Mach) (units : Nat) : Mach :=
  retell (progress m a.q.ctx) a.qn { a.q with head := (a.q.head + units) % 2 ^ 64 }

/-- A FENCE started: it completes once every earlier packet has (R399). -/
def startFence (a : At) (m : Mach) (units : Nat) (p : Packet) : Mach :=
  if a.stampFails p false then a.settle m units p 20 else a.begin_ m units p

/-- A packet started by its type (R399). -/
def startPacket (a : At) (m : Mach) (h : Header) (p : Packet) : Mach :=
  let n := h.units a.q
  match h.kind with
  | 0x00 => startNop a m n p
  | 0x01 => startPad a m n
  | 0x02 => startLaunch a m n p
  | 0x03 => startFeed a m n p
  | 0x04 => startWalk a m n p
  | 0x05 => startWait a m n p
  | 0x06 => startSignal a m n p
  | 0x07 => startFront a m n p
  | 0x08 => startCopy a m n p
  | _ => startFence a m n p

/-- A mapped queue's slot looks at head, once a WAIT that it kept has been tested (R403): it halts there for a cause, or
starts the packet that it may start, if the test asks for its type (R397, R400, R402). -/
def lookAtHead (m : Mach) (qn : Nat) (wants : Nat → Nat → Bool) : Mach :=
  match aget m.queues qn with
  | none => m
  | some q =>
    match aget m.ctxs q.ctx with
    | none => m
    | some c =>
      if q.st != .mapped || !ctxServed m q.ctx || q.packets.any Packet.waits then m
      else
        match atHead m q fun k => wants k (q.head % 2 ^ 64) with
        | .empty m1 => m1
        | .halt m1 cause => retell m1 qn (q.halt cause)
        | .packet m1 h bs => startPacket { qn := qn, q := q, c := c } m1 h (newPacket q h bs)

/-- Whether a tail word is watched where it lies: in device memory, or cached behind a CXL port (R397). -/
def tailWatched (m : Mach) (q : Queue) : Bool :=
  match locateFor m q.core q.ctx q.taddr.toNat .read with
  | .error _ => true
  | .ok (_, .ext p _) => ((m.ports[p]?).map fun x => x.inUse) = some true
  | .ok _ => true

/-- TAIL_WAKE (R397): the slot wakes on a write of the tail's line and reads the packet at head. -/
def execTailWake (q : Nat) (s : State) : Host.Outcome State Fault Refusal :=
  event s fun m =>
    match aget m.queues q with
    | some x => if tailWatched m x then lookAtHead m q fun _ _ => true else m
    | none => m

/-- TAIL_POLL (R397): a tail behind a Brixolink port is read again every 1024 cycles. -/
def execTailPoll (q cycles : Nat) (s : State) : Host.Outcome State Fault Refusal :=
  event s fun m =>
    match aget m.queues q with
    | some x => if !tailWatched m x && 1024 ≤ cycles then lookAtHead m q fun _ _ => true else m
    | none => m

/-- The event of a packet's start: the packet of that type at a position starts, if it is the one at head. -/
def packetEvent (s : State) (q pos kind : Nat) : Host.Outcome State Fault Refusal :=
  event s fun m => lookAtHead m q fun k u => k = kind && u = pos

/-- The event of a packet that may have started and wait: it starts, or tries again what it waits for. -/
def retryEvent (s : State) (q pos kind : Nat) (retry : Mach → Queue → Packet → Mach) : Host.Outcome State Fault Refusal :=
  event s fun m =>
    match aget m.queues q with
    | none => m
    | some x =>
      match x.packet pos with
      | some p => if p.kind = kind && p.st = .waiting && ctxServed m x.ctx then retry m x p else m
      | none => lookAtHead m q fun k u => k = kind && u = pos

/-- NOP_PACKET (R399). -/
def execNopPacket (q : Nat) (pos : Nat) (s : State) : Host.Outcome State Fault Refusal := packetEvent s q pos 0x00

/-- PAD (R399). -/
def execPad (q : Nat) (pos : Nat) (s : State) : Host.Outcome State Fault Refusal := packetEvent s q pos 0x01

/-- LAUNCH (R351, R352). -/
def execLaunch (q : Nat) (pos : Nat) (s : State) : Host.Outcome State Fault Refusal := packetEvent s q pos 0x02

/-- FEED (R355): a FEED that waits for room tries again. -/
def execFeed (q : Nat) (pos : Nat) (s : State) : Host.Outcome State Fault Refusal :=
  retryEvent s q pos 0x03 fun m x p => retryFeed m q x p

/-- WALK_PACKET (R399): one that waits for an intake entry tries again. -/
def execWalkPacket (q : Nat) (pos : Nat) (s : State) : Host.Outcome State Fault Refusal :=
  retryEvent s q pos 0x04 fun m x p => retryWalk m q x p

/-- WAIT_PACKET (R399). -/
def execWaitPacket (q : Nat) (pos : Nat) (s : State) : Host.Outcome State Fault Refusal := packetEvent s q pos 0x05

/-- SIGNAL (R399). -/
def execSignal (q : Nat) (pos : Nat) (s : State) : Host.Outcome State Fault Refusal := packetEvent s q pos 0x06

/-- FRONT_PACKET (R300, R399). -/
def execFrontPacket (q : Nat) (pos : Nat) (s : State) : Host.Outcome State Fault Refusal := packetEvent s q pos 0x07

/-- COPY_PACKET (R399). -/
def execCopyPacket (q : Nat) (pos : Nat) (s : State) : Host.Outcome State Fault Refusal := packetEvent s q pos 0x08

/-- FENCE_PACKET (R399). -/
def execFencePacket (q : Nat) (pos : Nat) (s : State) : Host.Outcome State Fault Refusal := packetEvent s q pos 0x09

end Sys2Proof.Machine
end

