-- ==== Sys2Proof/Machine/Links.lean ====
section
/-! DEFINITION. The fabric ports (R406 to R417): their states, traffic that is outstanding, acknowledgements, accesses from
outside, and the control window (R393, R394, R408 to R411).
-/

namespace Sys2Proof.Machine

/-! Ports. -/

/-- A port. -/
def Mach.port (m : Mach) (p : Nat) : Port := (m.ports[p]?).getD Port.reset

/-- A port changed. -/
def setPort (m : Mach) (p : Nat) (f : Port → Port) : Mach := { m with ports := updateAt m.ports p f }

/-- A count of 16 bits that saturates (R410). -/
def sat16 (n : Nat) : Nat := min n (2 ^ 16 - 1)

/-- Whether a port carries traffic. -/
def Port.carries (p : Port) : Bool := p.st = .up || p.st = .degraded

/-- The CXL ports other than one that are not down (R406). -/
def otherCxl (m : Mach) (p : Nat) : Nat :=
  ((List.range 18).filter fun q => q != p && (m.port q).inUse && (m.port q).st != .down).length

/-- en written 1 (R413): a port that is down trains with the personality that pers names, unless it would be a fifth CXL
port; in every other state nothing changes. (DEDUCED, log 65.) -/
def enablePort (m : Mach) (p : Nat) : Mach :=
  let x := m.port p
  if x.st != .down then setPort m p fun x => { x with en := true }
  else if x.pers && 4 ≤ otherCxl m p then setPort m p fun x => { x with en := true, cause := 2 }
  else setPort m p fun x => { x with en := true, st := .training, inUse := x.pers }

/-! Traffic outstanding on a port (R415, R417). -/

/-- The accesses of an instruction on a port ended, and how many they were. (DEDUCED, log 46.) -/
def Fabric.endOn (f : Fabric) (p : Nat) : Fabric × Nat :=
  match f with
  | .pending ws failed =>
    let mine := ws.filter fun w => w.1 = p
    let rest := ws.filter fun w => w.1 != p
    if mine.isEmpty then (f, 0)
    else ((if rest.isEmpty then .done (p :: failed) else .pending rest (p :: failed)), (mine.map Prod.snd).sum)
  | _ => (f, 0)

/-- The accesses of one group on a port ended without a completion (R417). -/
def endAccess (m : Mach) (p gid : Nat) : Mach :=
  match m.grp? gid with
  | none => m
  | some g =>
    let (f, n) := g.fabric.endOn p
    setPort (m.setGrp gid { g with fabric := f }) p fun x => { x with tmo := sat16 (x.tmo + n) }

/-- A posted peer store that will not be acknowledged: each granule that was not performed may or may not have been
(R415, R417). (DEDUCED, log 47.) -/
def endPst (m : Mach) (id : Nat) : Mach :=
  match aget m.psts id with
  | none => m
  | some x =>
    let m1 := x.left.foldl (sendGranule id x.port) m
    match aget m1.psts id with
    | none => m1
    | some x1 => { m1 with psts := aput m1.psts id { x1 with lost := true, left := [] } }

/-- A posted peer store lost at a fence or a disable (R415).  On a CXL port it is a non-posted write, and ends as one too
(R417). (DEDUCED, log 47.) -/
def losePst (m : Mach) (p id : Nat) : Mach :=
  setPort (endPst m id) p fun y =>
    { y with lost := sat16 (y.lost + 1), tmo := if y.inUse then sat16 (y.tmo + 1) else y.tmo }

/-- The posted peer stores outstanding on a port. -/
def pstsOn (m : Mach) (p : Nat) : List Nat := (m.psts.filter fun kp => kp.2.port = p && !kp.2.lost).map Prod.fst

/-- The lines of memory behind a port leave this module's L2 (R407). (DESIGN CHOICE, log 6.) -/
def dropLines (m : Mach) (p : Nat) (f : Nat → Bool) : Mach :=
  { m with dies := amap (fun _ d => { d with cxl := d.cxl.filter fun l => !(l / 2 ^ 48 = p && f l) }) m.dies }

/-- Every outstanding access of a port ended: non-posted ones without their completion, posted ones lost (R415, R417); no
line behind it stays in the L2. (DEDUCED, log 47.) -/
def endTraffic (m : Mach) (p : Nat) : Mach :=
  let m1 := (m.groups.map Prod.fst).foldl (fun m g => endAccess m p g) m
  dropLines ((pstsOn m1 p).foldl (fun m id => losePst m p id) m1) p fun _ => true

/-- A fence, or a disable that loses posted stores, reported over Fjarul (R415). (DEDUCED, log 47.) -/
def reportFence (m : Mach) (p : Nat) : Mach := { m with fjarul := .portFenced p :: m.fjarul }

/-- en written 0 (R413): a port in service ends its traffic first. (DEDUCED, log 65.) -/
def disablePort (m : Mach) (p : Nat) : Mach :=
  let off (m : Mach) : Mach := setPort m p fun x => { x with en := false }
  let down (m : Mach) : Mach := setPort m p fun x => { x with en := false, st := .down, cause := 5 }
  match (m.port p).st with
  | .down => off m
  | .training => down m
  | .fenced => setPort m p fun x => { x with en := false, st := .down }
  | _ =>
    let told := if (pstsOn m p).isEmpty then m else reportFence m p
    down (endTraffic told p)

/-- LINK_ENABLE (R413): LNKCTL written with en = 1. -/
def execLinkEnable (port : Nat) (pers : Bool) (s : State) : Host.Outcome State Fault Refusal :=
  event s fun m => enablePort (setPort m port fun x => { x with pers := pers }) port

/-- LINK_DISABLE (R413): LNKCTL written with en = 0. -/
def execLinkDisable (port : Nat) (s : State) : Host.Outcome State Fault Refusal := event s fun m => disablePort m port

/-- LINK_TRAINED (R413): up on 8 good lanes, degraded on 4 to 7. -/
def execLinkTrained (port lanes : Nat) (s : State) : Host.Outcome State Fault Refusal :=
  event s fun m =>
    if (m.port port).st != .training || lanes < 4 || 8 < lanes then m
    else setPort m port fun x => { x with st := if lanes = 8 then .up else .degraded, w4 := decide (lanes < 8) }

/-- TRAINING_TIMEOUT (R413). -/
def execTrainingTimeout (port cycles : Nat) (s : State) : Host.Outcome State Fault Refusal :=
  event s fun m =>
    if (m.port port).st = .training && 2 ^ 24 ≤ cycles then setPort m port fun x => { x with st := .down, cause := 1 } else m

/-- A port on which some lanes stay good and some flits were replayed (R410, R413): with fewer than 8 it goes on with
those. -/
def Port.retrained (p : Port) (good replays : Nat) : Port :=
  let q := { p with replay := sat16 (p.replay + replays) }
  if good < 8 then { q with st := .degraded, w4 := true } else q

/-- LANE_ERRORS (R413): the port goes on with the lanes that stay good, and the flits it holds are replayed; with all 8 good
there are only the replays. (DESIGN CHOICE, log 63.) -/
def execLaneErrors (port good replays : Nat) (s : State) : Host.Outcome State Fault Refusal :=
  event s fun m =>
    if (m.port port).carries && 4 ≤ good && good ≤ 8 then setPort m port fun x => x.retrained good replays else m

/-- A port fenced for a cause (R413): where a flit has failed 8 replays, those are counted (R410). -/
def Port.fence (p : Port) (cause : Nat) : Port :=
  { p with st := .fenced, cause := cause, replay := if cause = 3 then sat16 (p.replay + 8) else p.replay }

/-- LINK_FENCE (R413, R415, R417): replays exhausted, too few lanes, or the partner. -/
def execLinkFence (port cause : Nat) (s : State) : Host.Outcome State Fault Refusal :=
  event s fun m =>
    if (m.port port).carries && (cause = 3 || cause = 4 || cause = 6) then
      endTraffic (setPort (reportFence m port) port fun x => x.fence cause) port
    else m

/-! Completions, timeouts and acknowledgements. -/

/-- The first port on which an instruction's accesses wait after so many others, completed. (DEDUCED, log 46.) -/
def Fabric.complete (f : Fabric) (i : Nat) : Fabric :=
  match f with
  | .pending ws failed =>
    let rest := ws.eraseIdx i
    if rest.isEmpty then .done failed else .pending rest failed
  | _ => f

/-- The ports on which an instruction's accesses wait. -/
def Fabric.ports (f : Fabric) : List Nat :=
  match f with
  | .pending ws _ => ws.map Prod.fst
  | _ => []

/-- Whether a group's accesses on a port may complete: its context's budget of flits there is not spent in either direction
(R418), and no posted store that it must follow is held back (R196). -/
def mayComplete (m : Mach) (gid : Nat) (g : Group) (port : Nat) : Bool :=
  flitRoom m g.ctx port 0 && flitRoom m g.ctx port 1 && !pstHolds m gid port

/-- The places, among the ports on which an instruction's accesses wait, of those that may complete. -/
def completing (m : Mach) (gid : Nat) (g : Group) : List Nat :=
  (List.range g.fabric.ports.length).filter fun i => mayComplete m gid g (g.fabric.ports.getD i 0)

/-- The flits of the accesses at a place, counted in both directions of their port (R418). -/
def countAccess (m : Mach) (g : Group) (i : Nat) : Mach :=
  match g.fabric with
  | .pending ws _ =>
    match ws[i]? with
    | some w => countFlits (countFlits m g.ctx w.1 0 w.2) g.ctx w.1 1 w.2
    | none => m
  | _ => m

/-- NON_POSTED_COMPLETION (R414): the accesses of a group's instruction on one of its ports complete. -/
def execNonPostedCompletion (g : Nat) (s : State) : Host.Outcome State Fault Refusal :=
  event s fun m =>
    match m.grp? g with
    | none => m
    | some x =>
      let l := completing m g x
      match l[m.pick l.length]? with
      | some i => ((countAccess m x i).setGrp g { x with fabric := x.fabric.complete i }).bump
      | none => m

/-- The posted peer stores of a group that are non-posted writes, since their port is a CXL port (R415). -/
def cxlPsts (m : Mach) (g : Nat) : List (Nat × Pst) :=
  m.psts.filter fun kp => kp.2.group = g && !kp.2.lost && (m.port kp.2.port).inUse

/-- A posted peer store on a CXL port ended by its timeout (R415, R417): no completion acknowledges it.
(DEDUCED, log 47.) -/
def timeoutPst (m : Mach) (id port : Nat) : Mach := countEnded (endPst m id) port

/-- NONPOSTED_TIMEOUT (R417): the accesses of a group's instruction on one of its ports, or one of its posted stores on a CXL
port, have been outstanding for 2^24 control cycles of the port, and end. (DEDUCED, log 46; DESIGN CHOICE, log 63.) -/
def execNonpostedTimeout (g cycles : Nat) (s : State) : Host.Outcome State Fault Refusal :=
  event s fun m =>
    let ports := ((m.grp? g).map fun x => x.fabric.ports).getD []
    let psts := cxlPsts m g
    let i := m.pick (ports.length + psts.length)
    if cycles < 2 ^ 24 then m
    else
      match ports[i]?, psts[i - ports.length]? with
      | some p, _ => endAccess m.bump p g
      | none, some kp => timeoutPst m.bump kp.1 kp.2.port
      | none, none => m

/-- Whether another lane's store of the same PST is not acknowledged. -/
def batchOpen (m : Mach) (batch : Nat) : Bool := aany (fun _ p => p.batch = batch) m.psts

/-- The count of a PST dropped (R206): in the unit that took it, or at the root once its cluster is fenced. -/
def dropPst (m : Mach) (p : Pst) : Mach :=
  if (m.cluster p.unit).fenced then countRoot m p.ctx p.node p.stamp (-1) else dropAt m p.unit p.ctx p.node p.stamp

/-- Whether every granule of a posted peer store is performed. -/
def pstLanded (m : Mach) (id : Nat) : Bool := ((aget m.psts id).map fun p => p.left.isEmpty) = some true

/-- PST_ACK (R415): the store is performed, once it may be (R202, R418), and with the last lane's acknowledgement the count
of its PST is dropped. (DEDUCED, log 47.) -/
def execPstAck (id : Nat) (s : State) : Host.Outcome State Fault Refusal :=
  event s fun m =>
    match aget m.psts id with
    | none => m
    | some p =>
      let m1 := landPsts m (.ext p.port p.far) p.size id
      if p.lost || !pstLanded m1 id then m
      else
        let m2 := { m1 with psts := adel m1.psts id }
        settleKernel (if batchOpen m2 p.batch then m2 else dropPst m2 p) p.kern

/-! The control window. -/

/-- The code of a context's state (R363); an absent one has 0. -/
def ctxCode (m : Mach) (ctx : Nat) : Nat :=
  match (aget m.ctxs ctx).map Context.st with
  | none => 0
  | some .created => 1
  | some .resident => 2
  | some .active => 3
  | some .suspending => 4
  | some .saving => 5
  | some .saved => 6
  | some .restoring => 7
  | some .faulted => 8
  | some .lost => 9

/-- A read of CXCMD (R362, R393). -/
def cxWord (m : Mach) (x : CmdProc) : Nat :=
  let ix := ((aget m.ctxs x.cxctx).map Context.rqIndex).getD 0
  x.cxres % 256 + x.cxctx % 4096 * 2 ^ 16 + ctxCode m x.cxctx * 2 ^ 32 + ix % 2 ^ 16 * 2 ^ 48

/-- A read of QCMD (R394). -/
def qWord (m : Mach) (x : CmdProc) : Nat :=
  let (st, hc) := match aget m.queues x.qnum with
    | some q => (q.st.code, if q.st = .halted then q.hcause else 0)
    | none => (0, 0)
  x.qres % 256 + x.qnum % 4096 * 2 ^ 16 + st * 2 ^ 32 + hc * 2 ^ 40

/-- A register of a command processor's block as read (R393). -/
def cpWord (m : Mach) (x : CmdProc) (reg : Nat) : Nat :=
  match reg with
  | 0x000 => cxWord m x
  | 0x008 => x.cxarg.toNat
  | 0x010 => x.trroot.toNat
  | 0x018 => x.trinva.toNat
  | 0x020 => if m.busy.isSome then 2 ^ 63 else 0
  | 0x028 => qWord m x
  | 0x030 => x.qarg.toNat
  | _ => 0

/-- The code of a port's state (R410). -/
def LState.code : LState → Nat
  | .down => 0
  | .training => 1
  | .up => 2
  | .degraded => 3
  | .fenced => 4

/-- LNKCTL as read (R409). -/
def Port.ctl (p : Port) : Nat := (if p.en then 1 else 0) + (if p.pers then 2 else 0)

/-- LNKSTAT as read (R410). -/
def Port.stat (p : Port) : Nat :=
  p.st.code + (if p.w4 then 8 else 0) + (if p.inUse then 16 else 0) + p.cause % 16 * 2 ^ 8 + p.replay % 2 ^ 16 * 2 ^ 16
    + p.tmo % 2 ^ 16 * 2 ^ 32 + p.lost % 2 ^ 16 * 2 ^ 48

/-- A naturally aligned 8-byte read of the control window (R408). -/
def readWindow (m : Mach) (off : Nat) : Nat :=
  if off < 0x8000 then cpWord m (m.cp (off / 0x1000)) (off % 0x1000)
  else if off < 0x8000 + 16 * 18 then
    let p := m.port ((off - 0x8000) / 16)
    if off % 16 = 0 then p.ctl else p.stat
  else if 0x9000 ≤ off && off < 0x9000 + 8 * 64 then ((m.routes[(off - 0x9000) / 8]?).getD 0).toNat
  else 0

/-- A field whose written ones are cleared (R410). -/
def w1c (old new : Nat) : Nat := (BitVec.ofNat 16 old &&& ~~~(BitVec.ofNat 16 new)).toNat

/-- CXCMD written: the command that it names (R362). (DEDUCED, log 31.) -/
def writeCxcmd (m : Mach) (cp v : Nat) : Mach :=
  let ctx := bits v 16 12
  let x := newCommand m cp (v % 256)
  match v % 256 with
  | 0x01 => createContext m cp
  | 0x02 => command m cp ctx 3 x (quotaContext m ctx)
  | 0x03 => command m cp ctx 5 x (suspendContext m ctx)
  | 0x04 => command m cp ctx 5 x (restoreContext m ctx)
  | 0x05 => command m cp ctx 5 x (preemptContext m ctx)
  | 0x06 => command m cp ctx 5 x (continueContext m ctx)
  | 0x07 => command m cp ctx 8 x (answerContext m ctx)
  | 0x08 => destroyContext m cp ctx
  | _ => cxDone m cp ctx 9

/-- QCMD written (R394). -/
def writeQcmd (m : Mach) (cp v : Nat) : Mach :=
  let q := bits v 16 12
  match v % 256 with
  | 0x01 => createQueue m cp
  | 0x02 => resumeQueue m cp q
  | 0x03 => destroyQueue m cp q
  | _ => qDone m cp q 9

/-- TRINV written (R391): kind 0 does nothing. -/
def writeTrinv (m : Mach) (cp v : Nat) : Mach :=
  match v % 4 with
  | 0 => m
  | 1 => startInval m { kind := 1, ctx := bits v 16 12, vpn := bits (m.cp cp).trinva.toNat 12 45 }
  | 2 => startInval m { kind := 2, ctx := bits v 16 12, vpn := 0 }
  | _ => startInval m { kind := 3, ctx := 0, vpn := 0 }

/-- A register of a command processor's block written (R393). -/
def writeCp (m : Mach) (cp reg : Nat) (val : Dword) : Mach :=
  match reg with
  | 0x000 => writeCxcmd m cp val.toNat
  | 0x008 => setCp m cp fun x => { x with cxarg := val }
  | 0x010 => writeRoot m cp val
  | 0x018 => setCp m cp fun x => { x with trinva := BitVec.ofNat 64 (bits val.toNat 12 45 * 2 ^ 12) }
  | 0x020 => writeTrinv m cp val.toNat
  | 0x028 => writeQcmd m cp val.toNat
  | 0x030 => setCp m cp fun x => { x with qarg := val }
  | _ => m

/-- LNKCTL written (R409, R413). (DEDUCED, log 65.) -/
def writeCtl (m : Mach) (p : Nat) (v : Nat) : Mach :=
  let m1 := setPort m p fun x => { x with pers := bit v 1 }
  if bit v 0 then enablePort m1 p else disablePort m1 p

/-- LNKSTAT written: a 1 clears a bit of its counts (R410). (DEDUCED, log 65.) -/
def writeStat (m : Mach) (p : Nat) (v : Nat) : Mach :=
  setPort m p fun x => { x with lost := w1c x.lost (bits v 48 16), tmo := w1c x.tmo (bits v 32 16),
                                replay := w1c x.replay (bits v 16 16) }

/-- The fields of a route entry; its reserved bits stay 0 (R411). -/
def routeKept (val : Dword) : Dword := val &&& 0x80000000007F001F

/-- A naturally aligned 8-byte write of the control window (R408). -/
def writeWindow (m : Mach) (off : Nat) (val : Dword) : Mach :=
  if off < 0x8000 then writeCp m (off / 0x1000) (off % 0x1000) val
  else if off < 0x8000 + 16 * 18 then
    let p := (off - 0x8000) / 16
    if off % 16 = 0 then writeCtl m p val.toNat else writeStat m p val.toNat
  else if 0x9000 ≤ off && off < 0x9000 + 8 * 64 then
    { m with routes := updateAt m.routes ((off - 0x9000) / 8) fun _ => routeKept val }
  else m

/-- Whether an access of the control window reaches a register: 8 bytes, naturally aligned, in the window of a module that
is in service (R408, R422). -/
def windowAccess (s : State) (off size : Nat) : Bool :=
  s.mg.boot = .ready && size = 8 && off % 8 = 0 && off < 0x10000

/-- REGISTER_WRITE (R393, R408): a write to the control window. -/
def execRegisterWrite (off size : Nat) (val : BitVec 64) (s : State) : Host.Outcome State Fault Refusal :=
  if windowAccess s off size then event s fun m => writeWindow m off val else .next s

/-! Accesses from outside (R414). -/

/-- A reply of the module to an access from outside. -/
def Mach.reply (m : Mach) (r : Reply) : Mach := { m with replies := r :: m.replies }

/-- An atomic from outside: its size in bytes, whether it returns the old value, and what it stores, from the old value;
none where no instruction has its type or operation (R116, R178 to R180, R414). -/
def farAtomic (op : FarAtomic) (old val cmp : Nat) : Option (Nat × Bool × Option Nat) :=
  let typed (ty : BitVec 5) (l : List Ty) (f : Ty → Nat × Bool × Option Nat) : Option (Nat × Bool × Option Nat) :=
    ((Ty.ofCode ty).filter fun t => l.contains t).map f
  let ints : List Ty := [.i32, .n32, .i64, .n64]
  let floats : List Ty := [.f64, .f32, .f16x2, .bf16x2]
  let low (t : Ty) (x : Nat) : Nat := x % 2 ^ t.bits
  match op with
  | .atom ty k =>
    if k ≤ 6 then typed ty ints fun t => (t.bits / 8, true, some (low t (atomNew t k (low t old) (low t val)))) else none
  | .cas ty => typed ty [.x32, .x64] fun t => (t.bits / 8, true, if low t old = low t cmp then some (low t val) else none)
  | .fatom ty k => if k ≤ 2 then typed ty floats fun t => (t.bits / 8, true, some (fatomNew t k (low t old) (low t val))) else none
  | .red ty k => if k ≤ 2 then typed ty floats fun t => (t.bits / 8, false, some (fatomNew t k (low t old) (low t val))) else none
  | .satom k =>
    if k ≤ 9 then
      some (8, true, (satomNew k (BitVec.ofNat 64 old) (BitVec.ofNat 64 cmp) (BitVec.ofNat 64 val)).map BitVec.toNat)
    else none

/-- An atomic from outside performed at the home L2 (R414): a misaligned one does not arrive. -/
def incomingAtomic (m : Mach) (pa : Nat) (op : FarAtomic) (val cmp : Nat) : Mach :=
  match farAtomic op (readNat m (.dev pa) 8) val cmp with
  | none => m
  | some (size, returns, new) =>
    if pa % size = 0 && inDevice pa size then
      let old := readBytes m (.dev pa) size
      let m1 := match new with
        | some x => agentWrite m (.dev pa) (toBytes size x)
        | none => m
      m1.reply (if returns then .data old else .ack 0)
    else m

/-- The one behind a port writes its own memory, whatever the state of the link: this module's L2 gives up its copies of the
lines (R167, R210, R407, R420). -/
def writeBehind (m : Mach) (port far : Nat) (bs : List Byte) : Mach :=
  if port < 18 && far + bs.length ≤ 2 ^ 52 then
    dropLines (writeBytes m (.ext port far) bs) port fun l => (cxlLines port far bs.length).contains l
  else m

/-- An access to device memory that arrives on a port in service, performed at the home L2 (R210, R414); one that misses
device memory has no home and changes nothing.  The sender has split what it sends at granules of 8 bytes (R170), each an
access of its own. -/
def incoming (m : Mach) (acc : Incoming) : Mach :=
  match acc with
  | .read pa size => if inDevice pa size then m.reply (.data (readBytes m (.dev pa) size)) else m
  | .write pa bs => if inDevice pa bs.length then (agentWrite m (.dev pa) bs).reply (.ack 0) else m
  | .posted pa bs tag => if inDevice pa bs.length then (agentWrite m (.dev pa) bs).reply (.ack tag) else m
  | .atomicAdd pa val =>
    if pa % 8 = 0 && inDevice pa 8 then
      let old := readBytes m (.dev pa) 8
      (agentWrite m (.dev pa) (toBytes 8 (ofBytes old + val.toNat))).reply (.data old)
    else m
  | .atomic pa op val cmp => incomingAtomic m pa op val.toNat cmp.toNat
  | .window _ _ | .behind _ _ => m

/-- INCOMING_ACCESS (R414): traffic of a peer or the host to this module's memory, over a port in service, a read of its
control window (R408), or a write of the host or a peer to the memory behind the port (R420). (DESIGN CHOICE, log 63.) -/
def execIncomingAccess (port : Nat) (acc : Incoming) (s : State) : Host.Outcome State Fault Refusal :=
  match acc with
  | .window off size =>
    event s fun m => m.reply (.word (BitVec.ofNat 64 (if windowAccess s off size then readWindow m off else 0)))
  | .behind far bs => event s fun m => writeBehind m port far bs
  | _ => event s fun m => if (m.port port).carries then incoming m acc else m

end Sys2Proof.Machine
end

