-- ==== Sys2Proof/Machine/Manage.lean ====
section
/-! DEFINITION. Reset and bring-up (R422, R423), firmware, life cycle and attestation (R424 to R426), the Fjarul port (R427
to R431), and the in-field test with the fencing of a cluster (R26, R311, R342, R346, R347, R428).
-/

namespace Sys2Proof.Machine

/-! Fjarul (R427). -/

/-- A reply over Fjarul. -/
def State.answer (s : State) (r : FReply) : State := { s with mg := { s.mg with replies := r :: s.mg.replies } }

/-- A Fjarul request served by a module in service; in the refused state it is refused, and during a reset the answer is
"not ready" (R424, R427). -/
def fjarul (s : State) (f : State → State) : Host.Outcome State Fault Refusal :=
  match s.mg.boot with
  | .ready => .next (f s)
  | .refused => .next (s.answer .refused)
  | .inReset => .next (s.answer .notReady)

/-- A setting that is taken if it is in range, and refused otherwise. -/
def setting (s : State) (ok : Bool) (f : Mgmt → Mgmt) : Host.Outcome State Fault Refusal :=
  fjarul s fun s => if ok then ({ s with mg := f s.mg } : State).answer .done else s.answer .refused

/-! Reset and firmware. -/

/-- Whether an image or a token is accepted: both signatures verify and its version reaches the fused minimum (R424).
(DEDUCED, log 55.) -/
def accepted (f : Firmware) : Bool :=
  Config.rsaVerifies f.digest f.rsa && Config.slhVerifies f.digest f.slh && Config.minVersion.ule f.version

/-- The first key of the memory behind the fabric, which is no part of the module. -/
def extKey : Nat := 2 ^ 60

/-- Every block wiped and at its reset state (R423): what lies outside the module stays, posted stores that were under way
to it may or may not have been performed, and the fused feature masks stay. (DESIGN CHOICE, log 2; DEDUCED, log 55.) -/
def wipeModule (m : Mach) : Mach :=
  let m1 := (List.range 18).foldl (fun m p => (pstsOn m p).foldl (fun m id => losePst m p id) m) m
  { Mach.reset with mem := m1.mem.filter (fun c => decide (extKey ≤ c.1)), indet := m1.indet.filter fun d => extKey ≤ d.lo,
                    free := m1.free, nextId := m1.nextId, feat := m1.feat, replies := m1.replies, fjarul := m1.fjarul }

/-- The management side after a reset: its settings are at their reset values, and the life cycle is fused.
(DEDUCED, log 55.) -/
def Mgmt.afterReset (g : Mgmt) (boot : Boot) : Mgmt :=
  { Mgmt.reset with boot := boot, life := g.life, asked := g.asked, replies := g.replies }

/-- Clusters fenced at bring-up, with no suspect window (R422, step 5). -/
def fenceAtReset (m : Mach) (failing : List Nat) : Mach :=
  (failing.filter (· < 128)).foldl (fun m c => m.setCluster c { m.cluster c with fenced := true }) m

/-- Steps 3 to 6 of R422 after a wipe: the image is verified, the stacks are trained, the clusters are tested, and the
module is ready. (DEDUCED, log 55.) -/
def bringUp (s : State) (img : Firmware) (failing : List Nat) (stacksOk : Bool) : State :=
  if !accepted img then { s with mg := s.mg.afterReset .refused }
  else if !stacksOk then
    { s with m := { s.m with fjarul := .stackFault :: s.m.fjarul }, mg := s.mg.afterReset .inReset }
  else
    let m1 := fenceAtReset s.m failing
    { s with m := { m1 with fjarul := .ready :: m1.fjarul },
             mg := { s.mg.afterReset .ready with version := img.version, digest := img.digest } }

/-- A whole reset (R422). (DEDUCED, log 55.) -/
def resetModule (s : State) (img : Firmware) (failing : List Nat) (stacksOk : Bool) : State :=
  bringUp { s with m := wipeModule s.m } img failing stacksOk

/-- MODULE_RESET (R422). -/
def execModuleReset (img : Firmware) (failing : List Nat) (stacksOk : Bool) (s : State) :
    Host.Outcome State Fault Refusal := .next (resetModule s img failing stacksOk)

/-- The clusters that fail their tests at a bring-up whose event does not name them: any. -/
def anyFailing (m : Mach) : List Nat := (List.range 128).filter fun c => Config.choice (m.free + 1 + c) % 2 = 1

/-- A bring-up whose stack training and tests end in any way. -/
def bringUpFree (s : State) (img : Firmware) : State :=
  bringUp { s with m := { s.m with free := s.m.free + 129 } } img (anyFailing s.m) (decide (s.m.pick 2 = 0))

/-- FIRMWARE_LOAD (R424): a refused module goes on with its bring-up once an image is accepted; a module in service has the
image replaced. (DEDUCED, log 55.) -/
def execFirmwareLoad (img : Firmware) (s : State) : Host.Outcome State Fault Refusal :=
  match s.mg.boot with
  | .inReset => .next (s.answer .notReady)
  | .refused => .next (if accepted img then (bringUpFree s img).answer .done else s.answer .refused)
  | .ready =>
    .next (if accepted img then
        ({ s with mg := { s.mg with version := img.version, digest := img.digest } } : State).answer .done
      else s.answer .refused)

/-- The order of the life-cycle states (R425). -/
def lifeCode : LifeCycle → Nat
  | .blank => 0
  | .provisioned => 1
  | .deployed => 2
  | .returned => 3

/-- LIFE_CYCLE_TOKEN (R425): with a good token the state advances, every context is destroyed, every memory is wiped, and
the module is brought up again. (DEDUCED, log 55.) -/
def execLifeCycleToken (target : LifeCycle) (tok img : Firmware) (s : State) : Host.Outcome State Fault Refusal :=
  fjarul s fun s =>
    if accepted tok && lifeCode s.mg.life < lifeCode target then
      let s1 : State := { s with m := wipeModule s.m, mg := { s.mg with life := target } }
      (bringUpFree s1 img).answer .done
    else s.answer .refused

/-- The clusters that are fenced. -/
def fencedClusters (m : Mach) : List Nat := (List.range 128).filter fun c => (m.cluster c).fenced

/-- The content of an attestation report as the two signatures cover it (R426). -/
def attestContent (s : State) (nonce : BitVec 256) : List Nat :=
  [nonce.toNat, s.mg.digest.toNat, s.mg.version.toNat, lifeCode s.mg.life]
    ++ (List.range 1024).map (fun c => (s.m.features c).toNat) ++ (fencedClusters s.m)
    ++ s.m.ports.toList.map fun p => if p.inUse then 1 else 0

/-- ATTESTATION (R426). -/
def execAttestation (nonce : BitVec 256) (s : State) : Host.Outcome State Fault Refusal :=
  fjarul s fun s =>
    let c := attestContent s nonce
    s.answer (.attestation nonce s.mg.digest s.mg.version s.mg.life s.m.feat (fencedClusters s.m) (s.m.ports.toList.map Port.inUse)
      (Config.rsaSign c) (Config.slhSign c))

/-! Telemetry, schedule, budgets and power (R427 to R430). -/

/-- The readings that telemetry returns: the power, 12 die temperatures, the coolant flow, and the corrected errors of 12
HBM stacks (R427). -/
def readingCount : Nat := 26

/-- TELEMETRY (R427). (DESIGN CHOICE, log 56.) -/
def execTelemetry (s : State) : Host.Outcome State Fault Refusal :=
  fjarul s fun s =>
    ({ s with mg := { s.mg with asked := s.mg.asked + 1 } } : State).answer
      (.telemetry ((List.range readingCount).map (Config.sensor s.mg.asked)))

/-- TEST_SCHEDULE (R428): an interval from 2^20 to 2^40 for one die. -/
def execTestSchedule (die interval : Nat) (s : State) : Host.Outcome State Fault Refusal :=
  setting s (die < 8 && 2 ^ 20 ≤ interval && interval ≤ 2 ^ 40) fun g =>
    { g with interval := updateAt g.interval die fun _ => interval }

/-- A budget set for an activity and a partition. -/
def putBudget (l : List (Budgeted × Nat × Nat)) (act : Budgeted) (part amount : Nat) : List (Budgeted × Nat × Nat) :=
  (act, part, amount) :: l.filter fun b => !(b.1 = act && b.2.1 = part)

/-- The module with a budget as the unit that counts the activity holds it: the ports for flits, the walk engines for tile
starts (R418, R429); a partition is a context. (DESIGN CHOICE, log 56.) -/
def holdBudget (m : Mach) (act : Budgeted) (part amount : Nat) : Mach :=
  match act with
  | .link => { m with flitBudget := aput m.flitBudget part amount }
  | .tiles => { m with tileBudget := aput m.tileBudget part amount }
  | _ => m

/-- BUDGET_SET (R429): the period of the module, from 2^10 to 2^24 cycles, or a budget. (DESIGN CHOICE, log 56.) -/
def execBudgetSet (act : Budgeted) (part amount : Nat) (s : State) : Host.Outcome State Fault Refusal :=
  match act with
  | .period => setting s (2 ^ 10 ≤ amount && amount ≤ 2 ^ 24) fun g => { g with period := amount }
  | _ =>
    fjarul s fun s =>
      ({ s with m := holdBudget s.m act part amount,
                mg := { s.mg with budgets := putBudget s.mg.budgets act part amount } } : State).answer .done

/-- The budgets of a block renewed: blocks 0 to 17 are the ports, which count flits, and 18 to 145 the walk engines, which
count tile starts (R418, R429). (DESIGN CHOICE, log 56.) -/
def renewBudgets (m : Mach) (block : Nat) : Mach :=
  if block < 18 then setPort m block fun p => { p with flits := [] }
  else if block < 146 then m.setEngine (block - 18) { m.engine (block - 18) with starts := [] }
  else m

/-- BUDGET_PERIOD (R418, R429): a block's period ends on its own clock, and its budgets renew. (DESIGN CHOICE, log 56.) -/
def execBudgetPeriod (block cycles : Nat) (s : State) : Host.Outcome State Fault Refusal :=
  if cycles < s.mg.period then .next s else event s fun m => renewBudgets m block

/-- POWER_CAP (R430): from 1.0 to 3.2 kW. (DESIGN CHOICE, log 56.) -/
def execPowerCap (watts : Nat) (s : State) : Host.Outcome State Fault Refusal :=
  setting s (1000 ≤ watts && watts ≤ 3200) fun g => { g with cap := watts }

/-- THERMAL_TRIP (R430): a die at its trip point is reported. -/
def execThermalTrip (die : Nat) (s : State) : Host.Outcome State Fault Refusal :=
  .next { s with m := { s.m with fjarul := .thermalTrip die :: s.m.fjarul },
                 mg := { s.mg with tripped := die :: s.mg.tripped } }

/-- THERMAL_RESET (R430): 2^24 cycles after a trip the module resets itself. -/
def execThermalReset (cycles : Nat) (img : Firmware) (s : State) : Host.Outcome State Fault Refusal :=
  if s.mg.tripped.isEmpty || cycles < 2 ^ 24 then .next s
  else
    let s1 : State := { s with m := { s.m with free := s.m.free + 129 } }
    .next (resetModule s1 img (anyFailing s.m) (decide (s.m.pick 2 = 0)))

/-! Counters (R431). -/

/-- So many counters that have each moved on by some count since they were last read: the model does not count what depends
on timing. (DESIGN CHOICE, log 57.) -/
def moveOn (f n : Nat) (old : List Nat) : List Nat :=
  (List.range n).map fun i => old.getD i 0 + Config.choice (f + i)

/-- A snapshot of one block instance, and the machine with the counts that it showed (R431): none for a block that does not
exist. (DESIGN CHOICE, log 57.) -/
def snapshot (m : Mach) (kind : BlockKind) (ix : Nat) : Option (Mach × List Nat) :=
  match kind with
  | .core =>
    if ix < 1024 then
      let c := moveOn m.free 16 (m.core ix).counts
      some ({ m.setCore ix { m.core ix with counts := c } with free := m.free + 16 }, c)
    else none
  | .copyEngine =>
    if ix < 128 then
      let c := moveOn m.free 6 (m.cluster ix).copies
      some ({ m.setCluster ix { m.cluster ix with copies := c } with free := m.free + 6 }, c)
    else none
  | .walkEngine =>
    if ix < 128 then some (m, (m.engine ix).causes ++ [(m.engine ix).acyc, (m.engine ix).rback]) else none
  | .commandProcessor =>
    if ix < 8 then
      let c := moveOn m.free 6 (m.cp ix).counts
      some ({ setCp m ix fun x => { x with counts := c } with free := m.free + 6 }, c)
    else none

/-- COUNTER_SNAPSHOT (R431). (DESIGN CHOICE, log 57.) -/
def execCounterSnapshot (kind : BlockKind) (ix : Nat) (s : State) : Host.Outcome State Fault Refusal :=
  fjarul s fun s =>
    match snapshot s.m kind ix with
    | some (m, c) => ({ s with m := m } : State).answer (.counters c)
    | none => s.answer .refused

/-! Fencing a cluster (R26, R342, R346, R347). -/

/-- A group of a cluster that is fenced: every open region is rolled back, innermost first, and the group stands again at
the outermost RGN.OPEN; where a restore write faults it is killed, what was written back before staying (R340 to R342). -/
def fenceGroup (m : Mach) (gid : Nat) : Mach :=
  match m.grp? gid with
  | none => m
  | some g =>
    match g.rgn.getLast? with
    | none => m
    | some o =>
      match restoreKeeps gid g (g.rgn.flatMap Region.keeps) m with
      | .error m1 => killGroup m1 gid 97 0
      | .ok m1 =>
        let g1 := o.restore ((m1.grp? gid).getD g).stopStreams
        let c := m1.core g.core
        let m2 := (retireLog m1 g).setCore g.core (c.endChain gid)
        m2.setGrp gid { g1 with rgn := [], log := none, spc := o.spc - 4, lpc := o.lpc, st := .ready, readyAt := c.cyc }

/-- The teams that hold a core of a cluster. -/
def clusterTeams (m : Mach) (cluster : Nat) : List (Nat × Team) :=
  m.teams.filter fun kt => !kt.2.saved && (groupsOf m kt.1).any fun kg => clusterOf kg.2.core = cluster

/-- The teams of a cluster saved whole (R376), their groups first rolled back if the cluster is fenced.
(DEDUCED, log 58.) -/
def clearCluster (m : Mach) (cluster : Nat) (fenced : Bool) : Mach :=
  let m1 := if fenced then
      ((m.groups.filter fun kg => !kg.2.saved && clusterOf kg.2.core = cluster).map Prod.fst).foldl fenceGroup m
    else m
  (clusterTeams m1 cluster).foldl (fun m kt => vacateTeam kt.2.ctx m kt) (flushAll m1)

/-- The walks that have a place or an intake entry on a cluster's engine. -/
def walksOn (m : Mach) (cluster : Nat) : List (Nat × Walk) :=
  m.walks.filter fun kw => !kw.2.over && kw.2.engines.contains cluster
    && kw.2.engines.any fun e => (m.engine e).intake.contains kw.1 || (m.engine e).places.contains (some kw.1)

/-- The entries of a suspect window (R347): one for each context and node that had a count taken. (DEDUCED, log 58.) -/
def windowEntries (c : Cluster) (frozen : Nat → Bool) : List WindowEntry :=
  let pairs := (c.window.map fun x => (x.ctx, x.node)).dedup
  pairs.map fun p =>
    let ss := (c.window.filter fun x => x.ctx = p.1 && x.node = p.2).map Count.stamp
    let first := ss.headD 0
    { ctx := p.1, node := p.2, slo := ss.foldl (fun a b => if stampLe b a then b else a) first,
      shi := ss.foldl (fun a b => if stampLe a b then b else a) first,
      npst := min (c.psts.filter fun x => x = p).length (2 ^ 32 - 1), frozen := frozen p.1 }

/-- Words of 8 bytes written one after another to device memory. -/
def writeWords (m : Mach) (pa : Nat) : List Nat → Mach
  | [] => m
  | w :: r => writeWords (writeNat m (.dev pa) 8 w) (pa + 8) r

/-- The words of an entry of a suspect-window report (R347). -/
def WindowEntry.words (e : WindowEntry) : List Nat :=
  [e.ctx * 2 ^ 32 + e.node % 2 ^ 10, e.slo.toNat, e.shi.toNat, e.npst % 2 ^ 32 * 2 ^ 32 + (if e.frozen then 1 else 0)]

/-- A suspect-window report written to device memory, its valid word last (R347). -/
def writeWindowReport (m : Mach) (pa cluster tstart tfail : Nat) (es : List WindowEntry) : Mach :=
  let m1 := writeWords m pa ([es.length % 2 ^ 16 * 2 ^ 16 + cluster % 128, tstart, tfail, 0] ++ es.flatMap WindowEntry.words)
  writeNat m1 (.dev (pa + 0x18)) 8 1

/-- Where a suspect-window report lies: at any address of device memory that holds it, since the spec names none.
(DESIGN CHOICE, log 69.) -/
def windowPlace (m : Mach) (es : List WindowEntry) : Nat :=
  8 * ((Config.freeDword m.free).toNat % (devTop / 8 - 4 * (es.length + 1)))

/-- A suspect window reported (R347, R379): the report itself, and the reports of kind 8 that tell its contexts where it
lies. -/
def windowReports (m : Mach) (cluster tstart tfail : Nat) (es : List WindowEntry) : Mach :=
  let pa := windowPlace m es
  (es.map WindowEntry.ctx).dedup.foldl (fun m ctx => report m ctx { Report.plain 8 0 with extra := BitVec.ofNat 64 pa })
    (writeWindowReport m.bump pa cluster tstart tfail es)

/-- The count unit of a cluster that is fenced (R311): its deltas go to the root; or they are lost, and every floor of the
contexts that had counts in the unit stays where it is. (DEDUCED, log 58.) -/
def settleUnit (m : Mach) (cluster : Nat) (sent : Bool) : Mach :=
  let u := m.cluster cluster
  if sent then flushUnit m cluster
  else
    { m.setCluster cluster { u with deltas := [] } with
        ctxs := amap (fun i c => if u.counted.contains i then { c with frozen := true } else c) m.ctxs }

/-- A cluster fenced (R346): its groups are saved, its walks abort with cause 6, its count unit is settled, and the suspect
window is reported. (DEDUCED, log 58.) -/
def fenceCluster (m : Mach) (cluster tfail : Nat) (sent : Bool) : Mach :=
  let lost := (m.cluster cluster).counted
  let m0 := settleUnit m cluster sent
  let m1 := (walksOn m0 cluster).foldl (fun m kw => abortWalk m kw.1 6) (clearCluster m0 cluster true)
  let c := m1.cluster cluster
  let es := windowEntries c fun ctx => !sent && lost.contains ctx
  let m2 := m1.setCluster cluster { c with fenced := true, deltas := [] }
  windowReports { applyRoot m2 c.deltas with fjarul := .window cluster c.tested tfail es :: m2.fjarul } cluster c.tested tfail es

/-! The in-field test (R428). -/

/-- The next cluster of a die that a test is due for, from a number on: clusters that are fenced are out of service. -/
def nextCluster (m : Mach) (die from_ : Nat) : Option Nat :=
  ((List.range 16).map fun i => 16 * die + (from_ + i) % 16).find? fun c => !(m.cluster c).fenced

/-- The contexts that hold something of a cluster. -/
def ctxsOn (m : Mach) (cluster : Nat) : List Nat :=
  ((clusterTeams m cluster).map (fun kt => kt.2.ctx) ++ (walksOn m cluster).map fun kw => kw.2.ctx).dedup

/-- What a PREEMPT of a cluster's cores with walks frozen at a tile boundary would name. -/
def vacateOf (cluster : Nat) : Vacate := { first := 8 * cluster, count := 8, cast := false }

/-- Whether a cluster is skipped: a context on it is suspending, saving or restoring. (DEDUCED, log 58.) -/
def skipped (m : Mach) (cluster : Nat) : Bool :=
  (ctxsOn m cluster).any fun i => ((aget m.ctxs i).map fun c =>
    c.st = .suspending || c.st = .saving || c.st = .restoring) = some true

/-- Whether everything on a cluster has come to rest, so that its teams can be saved. -/
def atRest (m : Mach) (cluster : Nat) : Bool :=
  (walksOn m cluster).all (fun kw => kw.2.rests)
    && (clusterTeams m cluster).all fun kt => (groupsOf m kt.1).all fun kg => mayVacate m kt.2.ctx (vacateOf cluster) kg.1 kg.2

/-- The walks of a cluster begin to freeze, where no PREEMPT of their context is under way. (DEDUCED, log 58.) -/
def beginVacate (m : Mach) (cluster : Nat) : Mach :=
  (ctxsOn m cluster).foldl (fun m i =>
    match aget m.ctxs i with
    | some c => if c.st = .active && c.vacating.isNone then vacateFirst m i c (vacateOf cluster) else m
    | none => m) m

/-- The vacating of a cluster ends. (DEDUCED, log 58.) -/
def endVacate (m : Mach) (cluster : Nat) : Mach :=
  { m with ctxs := amap (fun _ c => if c.vacating = some (vacateOf cluster) then { c with vacating := none } else c) m.ctxs }

/-- A test of a cluster that is at rest, started at a count of its controller's clock and ended as the verdict says: a pass
restarts its window; one over budget counts for neither. (DEDUCED, log 58.) -/
def testCluster (m : Mach) (cluster clock : Nat) (verdict : Verdict) : Mach :=
  match verdict with
  | .pass =>
    let m1 := clearCluster m cluster false
    m1.setCluster cluster { m1.cluster cluster with tested := clock, window := [], psts := [] }
  | .overBudget => clearCluster m cluster false
  | .fail sent => fenceCluster m cluster clock sent

/-- IN_FIELD_TEST (R428): the controller's interval has passed; its next cluster is vacated, and then tested. -/
def execInFieldTest (die cycles : Nat) (verdict : Verdict) (s : State) : Host.Outcome State Fault Refusal :=
  event s fun m =>
    let d := m.die die
    match nextCluster m die d.nextTest with
    | none => m
    | some c =>
      if 8 ≤ die || cycles < (s.mg.interval[die]?).getD (2 ^ 20) || skipped m c then m
      else if atRest m c then
        let clock := d.clock + cycles
        let m1 := endVacate (testCluster m c clock verdict) c
        m1.setDie die { m1.die die with clock := clock, nextTest := (c % 16 + 1) % 16 }
      else beginVacate m c

end Sys2Proof.Machine
end

