-- ==== Sys2Proof/Machine/Scalar.lean ====
section
/-! DEFINITION. The scalar integer, logic, address, compare and select instructions (R107 to R112). -/

namespace Sys2Proof.Machine

/-- A scalar instruction that writes one register from the group's registers and flags, and goes on to the next
(R106). -/
def aluStep (s : State) (major func : Nat) (sd : Sreg) (f : Group → Dword) : Host.Outcome State Fault Refusal :=
  groupStep s fun gid g => retire s.m gid (g.setS sd (f g)) (scalarCode major func)

/-- A scalar instruction that writes the flags and nothing else (R105, R111). -/
def flagStep (s : State) (major func : Nat) (f : Group → Flags) : Host.Outcome State Fault Refusal :=
  groupStep s fun gid g => retire s.m gid { g with flags := f g } (scalarCode major func)

/-- A shift or rotate amount: bits 5 to 0 of the register (R107). -/
def shiftOf (b : Dword) : Nat := b.toNat % 64

/-- The signed quotient, truncated toward zero (R107, R108). -/
def divS (a b : Dword) : Dword := if b = 0 then BitVec.allOnes 64 else BitVec.ofInt 64 (a.toInt.tdiv b.toInt)

/-- The unsigned quotient (R107, R108). -/
def divU (a b : Dword) : Dword := if b = 0 then BitVec.allOnes 64 else BitVec.ofNat 64 (a.toNat / b.toNat)

/-- The signed remainder, with the sign of a (R107, R108). -/
def remS (a b : Dword) : Dword := if b = 0 then a else BitVec.ofInt 64 (a.toInt.tmod b.toInt)

/-- The unsigned remainder (R107, R108). -/
def remU (a b : Dword) : Dword := if b = 0 then a else BitVec.ofNat 64 (a.toNat % b.toNat)

/-- SignExtend of a 14-bit immediate (R109). -/
def imm14 (imm : BitVec 14) : Dword := imm.signExtend 64

/-- ADD (R107). -/
def execAdd (sd sa sb : Sreg) (s : State) : Host.Outcome State Fault Refusal :=
  aluStep s 0x01 0x00 sd fun g => g.s sa + g.s sb

/-- SUB (R107). -/
def execSub (sd sa sb : Sreg) (s : State) : Host.Outcome State Fault Refusal :=
  aluStep s 0x01 0x01 sd fun g => g.s sa - g.s sb

/-- AND (R107). -/
def execAnd (sd sa sb : Sreg) (s : State) : Host.Outcome State Fault Refusal :=
  aluStep s 0x01 0x02 sd fun g => g.s sa &&& g.s sb

/-- OR (R107). -/
def execOr (sd sa sb : Sreg) (s : State) : Host.Outcome State Fault Refusal :=
  aluStep s 0x01 0x03 sd fun g => g.s sa ||| g.s sb

/-- XOR (R107). -/
def execXor (sd sa sb : Sreg) (s : State) : Host.Outcome State Fault Refusal :=
  aluStep s 0x01 0x04 sd fun g => g.s sa ^^^ g.s sb

/-- ANDN (R107). -/
def execAndn (sd sa sb : Sreg) (s : State) : Host.Outcome State Fault Refusal :=
  aluStep s 0x01 0x05 sd fun g => g.s sa &&& ~~~(g.s sb)

/-- ORN (R107). -/
def execOrn (sd sa sb : Sreg) (s : State) : Host.Outcome State Fault Refusal :=
  aluStep s 0x01 0x06 sd fun g => g.s sa ||| ~~~(g.s sb)

/-- XNOR (R107). -/
def execXnor (sd sa sb : Sreg) (s : State) : Host.Outcome State Fault Refusal :=
  aluStep s 0x01 0x07 sd fun g => ~~~(g.s sa ^^^ g.s sb)

/-- SHL (R107). -/
def execShl (sd sa sb : Sreg) (s : State) : Host.Outcome State Fault Refusal :=
  aluStep s 0x01 0x08 sd fun g => g.s sa <<< shiftOf (g.s sb)

/-- SHR (R107). -/
def execShr (sd sa sb : Sreg) (s : State) : Host.Outcome State Fault Refusal :=
  aluStep s 0x01 0x09 sd fun g => g.s sa >>> shiftOf (g.s sb)

/-- SAR (R107). -/
def execSar (sd sa sb : Sreg) (s : State) : Host.Outcome State Fault Refusal :=
  aluStep s 0x01 0x0A sd fun g => (g.s sa).sshiftRight (shiftOf (g.s sb))

/-- ROL (R107). -/
def execRol (sd sa sb : Sreg) (s : State) : Host.Outcome State Fault Refusal :=
  aluStep s 0x01 0x0B sd fun g => (g.s sa).rotateLeft (shiftOf (g.s sb))

/-- ROR (R107). -/
def execRor (sd sa sb : Sreg) (s : State) : Host.Outcome State Fault Refusal :=
  aluStep s 0x01 0x0C sd fun g => (g.s sa).rotateRight (shiftOf (g.s sb))

/-- MUL (R107). -/
def execMul (sd sa sb : Sreg) (s : State) : Host.Outcome State Fault Refusal :=
  aluStep s 0x01 0x10 sd fun g => g.s sa * g.s sb

/-- MULH (R107). -/
def execMulh (sd sa sb : Sreg) (s : State) : Host.Outcome State Fault Refusal :=
  aluStep s 0x01 0x11 sd fun g => BitVec.ofInt 64 ((g.s sa).toInt * (g.s sb).toInt / 2 ^ 64)

/-- MULHU (R107). -/
def execMulhu (sd sa sb : Sreg) (s : State) : Host.Outcome State Fault Refusal :=
  aluStep s 0x01 0x12 sd fun g => BitVec.ofNat 64 ((g.s sa).toNat * (g.s sb).toNat / 2 ^ 64)

/-- DIV (R107). -/
def execDiv (sd sa sb : Sreg) (s : State) : Host.Outcome State Fault Refusal :=
  aluStep s 0x01 0x14 sd fun g => divS (g.s sa) (g.s sb)

/-- DIVU (R107). -/
def execDivu (sd sa sb : Sreg) (s : State) : Host.Outcome State Fault Refusal :=
  aluStep s 0x01 0x15 sd fun g => divU (g.s sa) (g.s sb)

/-- REM (R107). -/
def execRem (sd sa sb : Sreg) (s : State) : Host.Outcome State Fault Refusal :=
  aluStep s 0x01 0x16 sd fun g => remS (g.s sa) (g.s sb)

/-- REMU (R107). -/
def execRemu (sd sa sb : Sreg) (s : State) : Host.Outcome State Fault Refusal :=
  aluStep s 0x01 0x17 sd fun g => remU (g.s sa) (g.s sb)

/-- MIN (R107). -/
def execMin (sd sa sb : Sreg) (s : State) : Host.Outcome State Fault Refusal :=
  aluStep s 0x01 0x18 sd fun g => if (g.s sb).slt (g.s sa) then g.s sb else g.s sa

/-- MAX (R107). -/
def execMax (sd sa sb : Sreg) (s : State) : Host.Outcome State Fault Refusal :=
  aluStep s 0x01 0x19 sd fun g => if (g.s sa).slt (g.s sb) then g.s sb else g.s sa

/-- MINU (R107). -/
def execMinu (sd sa sb : Sreg) (s : State) : Host.Outcome State Fault Refusal :=
  aluStep s 0x01 0x1A sd fun g => if (g.s sb).ult (g.s sa) then g.s sb else g.s sa

/-- MAXU (R107). -/
def execMaxu (sd sa sb : Sreg) (s : State) : Host.Outcome State Fault Refusal :=
  aluStep s 0x01 0x1B sd fun g => if (g.s sa).ult (g.s sb) then g.s sb else g.s sa

/-- CMP (R111). -/
def execCmp (sa sb : Sreg) (s : State) : Host.Outcome State Fault Refusal :=
  flagStep s 0x01 0x20 fun g => flagsSub (g.s sa) (g.s sb)

/-- TST (R111). -/
def execTst (sa sb : Sreg) (s : State) : Host.Outcome State Fault Refusal :=
  flagStep s 0x01 0x21 fun g => flagsAnd (g.s sa) (g.s sb)

/-- POPC (R107). -/
def execPopc (sd sa : Sreg) (s : State) : Host.Outcome State Fault Refusal :=
  aluStep s 0x01 0x28 sd fun g => BitVec.ofNat 64 (popCount 64 (g.s sa).toNat)

/-- CLZ (R107). -/
def execClz (sd sa : Sreg) (s : State) : Host.Outcome State Fault Refusal :=
  aluStep s 0x01 0x29 sd fun g => BitVec.ofNat 64 (64 - bitLength 64 (g.s sa).toNat)

/-- CTZ (R107). -/
def execCtz (sd sa : Sreg) (s : State) : Host.Outcome State Fault Refusal :=
  aluStep s 0x01 0x2A sd fun g => BitVec.ofNat 64 (trailingZeros 64 (g.s sa).toNat)

/-- BREV (R107). -/
def execBrev (sd sa : Sreg) (s : State) : Host.Outcome State Fault Refusal :=
  aluStep s 0x01 0x2B sd fun g => BitVec.ofNat 64 (reverseBits 64 (g.s sa).toNat)

/-- SCADD (R107): n is 0 to 4, as its decoding says (R45). -/
def execScadd (n : BitVec 3) (sd sa sb : Sreg) (s : State) : Host.Outcome State Fault Refusal :=
  aluStep s 0x01 (0x30 + n.toNat) sd fun g => g.s sa + g.s sb <<< n.toNat

/-- SEL (R112); the reserved condition is an illegal instruction. -/
def execSel (cc : BitVec 4) (sd sa sb : Sreg) (s : State) : Host.Outcome State Fault Refusal :=
  if cc = 15 then groupStep s fun gid _ => scalarTrap s.m gid .illegal
  else aluStep s 0x01 (0x40 + cc.toNat) sd fun g => if condTrue cc g.flags then g.s sa else g.s sb

/-- ADDI (R109). -/
def execAddi (sd sa : Sreg) (imm : BitVec 14) (s : State) : Host.Outcome State Fault Refusal :=
  aluStep s 0x02 0 sd fun g => g.s sa + imm14 imm

/-- ANDI (R109). -/
def execAndi (sd sa : Sreg) (imm : BitVec 14) (s : State) : Host.Outcome State Fault Refusal :=
  aluStep s 0x03 0 sd fun g => g.s sa &&& imm14 imm

/-- ORI (R109). -/
def execOri (sd sa : Sreg) (imm : BitVec 14) (s : State) : Host.Outcome State Fault Refusal :=
  aluStep s 0x04 0 sd fun g => g.s sa ||| imm14 imm

/-- XORI (R109). -/
def execXori (sd sa : Sreg) (imm : BitVec 14) (s : State) : Host.Outcome State Fault Refusal :=
  aluStep s 0x05 0 sd fun g => g.s sa ^^^ imm14 imm

/-- MULI (R109). -/
def execMuli (sd sa : Sreg) (imm : BitVec 14) (s : State) : Host.Outcome State Fault Refusal :=
  aluStep s 0x0B 0 sd fun g => g.s sa * imm14 imm

/-- SHLI (R109). -/
def execShli (sd sa : Sreg) (n : BitVec 6) (s : State) : Host.Outcome State Fault Refusal :=
  aluStep s 0x06 0 sd fun g => g.s sa <<< n.toNat

/-- SHRI (R109). -/
def execShri (sd sa : Sreg) (n : BitVec 6) (s : State) : Host.Outcome State Fault Refusal :=
  aluStep s 0x07 0 sd fun g => g.s sa >>> n.toNat

/-- SARI (R109). -/
def execSari (sd sa : Sreg) (n : BitVec 6) (s : State) : Host.Outcome State Fault Refusal :=
  aluStep s 0x08 0 sd fun g => (g.s sa).sshiftRight n.toNat

/-- CMPI (R109, R111). -/
def execCmpi (sa : Sreg) (imm : BitVec 14) (s : State) : Host.Outcome State Fault Refusal :=
  flagStep s 0x09 0 fun g => flagsSub (g.s sa) (imm14 imm)

/-- CMPUI (R109, R111). -/
def execCmpui (sa : Sreg) (imm : BitVec 14) (s : State) : Host.Outcome State Fault Refusal :=
  flagStep s 0x0A 0 fun g => flagsSub (g.s sa) (imm.zeroExtend 64)

/-- LIH (R110). -/
def execLih (sd : Sreg) (imm : BitVec 20) (s : State) : Host.Outcome State Fault Refusal :=
  aluStep s 0x0C 0 sd fun _ => (imm ++ (0 : BitVec 12)).signExtend 64

/-- ADDPC (R110). -/
def execAddpc (sd : Sreg) (imm : BitVec 20) (s : State) : Host.Outcome State Fault Refusal :=
  aluStep s 0x0D 0 sd fun g => g.spc + imm.signExtend 64

end Sys2Proof.Machine
end

