-- ==== Sys2Proof/Machine/Dispatch.lean ====
section
/-! DEFINITION. The meaning of every instruction and event, one arm each. -/

namespace Sys2Proof.Machine

open Sys2Proof

/-- What an instruction or an event does to the machine. -/
def exec (i : Instr) (s : State) : Host.Outcome State Fault Refusal :=
  match i with
  | .add sd sa sb => Sys2Proof.Machine.execAdd sd sa sb s
  | .sub sd sa sb => Sys2Proof.Machine.execSub sd sa sb s
  | .and sd sa sb => Sys2Proof.Machine.execAnd sd sa sb s
  | .or sd sa sb => Sys2Proof.Machine.execOr sd sa sb s
  | .xor sd sa sb => Sys2Proof.Machine.execXor sd sa sb s
  | .andn sd sa sb => Sys2Proof.Machine.execAndn sd sa sb s
  | .orn sd sa sb => Sys2Proof.Machine.execOrn sd sa sb s
  | .xnor sd sa sb => Sys2Proof.Machine.execXnor sd sa sb s
  | .shl sd sa sb => Sys2Proof.Machine.execShl sd sa sb s
  | .shr sd sa sb => Sys2Proof.Machine.execShr sd sa sb s
  | .sar sd sa sb => Sys2Proof.Machine.execSar sd sa sb s
  | .rol sd sa sb => Sys2Proof.Machine.execRol sd sa sb s
  | .ror sd sa sb => Sys2Proof.Machine.execRor sd sa sb s
  | .mul sd sa sb => Sys2Proof.Machine.execMul sd sa sb s
  | .mulh sd sa sb => Sys2Proof.Machine.execMulh sd sa sb s
  | .mulhu sd sa sb => Sys2Proof.Machine.execMulhu sd sa sb s
  | .div sd sa sb => Sys2Proof.Machine.execDiv sd sa sb s
  | .divu sd sa sb => Sys2Proof.Machine.execDivu sd sa sb s
  | .rem sd sa sb => Sys2Proof.Machine.execRem sd sa sb s
  | .remu sd sa sb => Sys2Proof.Machine.execRemu sd sa sb s
  | .min sd sa sb => Sys2Proof.Machine.execMin sd sa sb s
  | .max sd sa sb => Sys2Proof.Machine.execMax sd sa sb s
  | .minu sd sa sb => Sys2Proof.Machine.execMinu sd sa sb s
  | .maxu sd sa sb => Sys2Proof.Machine.execMaxu sd sa sb s
  | .cmp sa sb => Sys2Proof.Machine.execCmp sa sb s
  | .tst sa sb => Sys2Proof.Machine.execTst sa sb s
  | .popc sd sa => Sys2Proof.Machine.execPopc sd sa s
  | .clz sd sa => Sys2Proof.Machine.execClz sd sa s
  | .ctz sd sa => Sys2Proof.Machine.execCtz sd sa s
  | .brev sd sa => Sys2Proof.Machine.execBrev sd sa s
  | .scadd n sd sa sb => Sys2Proof.Machine.execScadd n sd sa sb s
  | .sel cc sd sa sb => Sys2Proof.Machine.execSel cc sd sa sb s
  | .addi sd sa imm => Sys2Proof.Machine.execAddi sd sa imm s
  | .andi sd sa imm => Sys2Proof.Machine.execAndi sd sa imm s
  | .ori sd sa imm => Sys2Proof.Machine.execOri sd sa imm s
  | .xori sd sa imm => Sys2Proof.Machine.execXori sd sa imm s
  | .shli sd sa n => Sys2Proof.Machine.execShli sd sa n s
  | .shri sd sa n => Sys2Proof.Machine.execShri sd sa n s
  | .sari sd sa n => Sys2Proof.Machine.execSari sd sa n s
  | .cmpi sa imm => Sys2Proof.Machine.execCmpi sa imm s
  | .cmpui sa imm => Sys2Proof.Machine.execCmpui sa imm s
  | .muli sd sa imm => Sys2Proof.Machine.execMuli sd sa imm s
  | .lih sd imm => Sys2Proof.Machine.execLih sd imm s
  | .addpc sd imm => Sys2Proof.Machine.execAddpc sd imm s
  | .sldb sd sa imm => Sys2Proof.Machine.execSldb sd sa imm s
  | .sldh sd sa imm => Sys2Proof.Machine.execSldh sd sa imm s
  | .sldw sd sa imm => Sys2Proof.Machine.execSldw sd sa imm s
  | .sldd sd sa imm => Sys2Proof.Machine.execSldd sd sa imm s
  | .sldbx sd sa imm => Sys2Proof.Machine.execSldbx sd sa imm s
  | .sldhx sd sa imm => Sys2Proof.Machine.execSldhx sd sa imm s
  | .sldwx sd sa imm => Sys2Proof.Machine.execSldwx sd sa imm s
  | .sstb sd sa imm => Sys2Proof.Machine.execSstb sd sa imm s
  | .ssth sd sa imm => Sys2Proof.Machine.execSsth sd sa imm s
  | .sstw sd sa imm => Sys2Proof.Machine.execSstw sd sa imm s
  | .sstd sd sa imm => Sys2Proof.Machine.execSstd sd sa imm s
  | .satom scope op sd sa sb => Sys2Proof.Machine.execSatom scope op sd sa sb s
  | .b cc off => Sys2Proof.Machine.execB cc off s
  | .bm nz sel off => Sys2Proof.Machine.execBm nz sel off s
  | .bf cc off => Sys2Proof.Machine.execBf cc off s
  | .call off => Sys2Proof.Machine.execCall off s
  | .lx n1 lidx => Sys2Proof.Machine.execLx n1 lidx s
  | .lj lidx => Sys2Proof.Machine.execLj lidx s
  | .sqPush sa => Sys2Proof.Machine.execSqPush sa s
  | .lqPop sd => Sys2Proof.Machine.execLqPop sd s
  | .fqPop sd => Sys2Proof.Machine.execFqPop sd s
  | .msplit sd sa => Sys2Proof.Machine.execMsplit sd sa s
  | .mjoin sd sa => Sys2Proof.Machine.execMjoin sd sa s
  | .fence scope => Sys2Proof.Machine.execFence scope s
  | .qfence sa => Sys2Proof.Machine.execQfence sa s
  | .waita cc sd sa sb => Sys2Proof.Machine.execWaita cc sd sa sb s
  | .walkPost sd sa sb => Sys2Proof.Machine.execWalkPost sd sa sb s
  | .walkStat sd sa => Sys2Proof.Machine.execWalkStat sd sa s
  | .walkAbort sa => Sys2Proof.Machine.execWalkAbort sa s
  | .hndlPark sa => Sys2Proof.Machine.execHndlPark sa s
  | .hndlDone => Sys2Proof.Machine.execHndlDone s
  | .taskAlloc sd sa sb => Sys2Proof.Machine.execTaskAlloc sd sa sb s
  | .taskPub sa sb => Sys2Proof.Machine.execTaskPub sa sb s
  | .taskSig sa => Sys2Proof.Machine.execTaskSig sa s
  | .taskSpawn sd sa => Sys2Proof.Machine.execTaskSpawn sd sa s
  | .taskExit sa => Sys2Proof.Machine.execTaskExit sa s
  | .stampSet sa sb => Sys2Proof.Machine.execStampSet sa sb s
  | .stampGet sd sa sb => Sys2Proof.Machine.execStampGet sd sa sb s
  | .stampInc sd sa sb => Sys2Proof.Machine.execStampInc sd sa sb s
  | .stampEnter sd sa => Sys2Proof.Machine.execStampEnter sd sa s
  | .stampLeave sd sa => Sys2Proof.Machine.execStampLeave sd sa s
  | .frontWait sa sb => Sys2Proof.Machine.execFrontWait sa sb s
  | .frontTest sd sa sb => Sys2Proof.Machine.execFrontTest sd sa sb s
  | .frontHold sd sa sb => Sys2Proof.Machine.execFrontHold sd sa sb s
  | .frontDrop sa => Sys2Proof.Machine.execFrontDrop sa s
  | .summLd sa => Sys2Proof.Machine.execSummLd sa s
  | .rgnKeep sa sb => Sys2Proof.Machine.execRgnKeep sa sb s
  | .rgnClose => Sys2Proof.Machine.execRgnClose s
  | .rgnOpen sd rmask => Sys2Proof.Machine.execRgnOpen sd rmask s
  | .sigChk imm => Sys2Proof.Machine.execSigChk imm s
  | .barInit sa sb => Sys2Proof.Machine.execBarInit sa sb s
  | .barBind name sa => Sys2Proof.Machine.execBarBind name sa s
  | .barExpect name sa => Sys2Proof.Machine.execBarExpect name sa s
  | .barArrive name sd => Sys2Proof.Machine.execBarArrive name sd s
  | .barWait name sa => Sys2Proof.Machine.execBarWait name sa s
  | .barTry name sd sa => Sys2Proof.Machine.execBarTry name sd sa s
  | .barDrop sa => Sys2Proof.Machine.execBarDrop sa s
  | .copyq sd sa => Sys2Proof.Machine.execCopyq sd sa s
  | .yieldBar name par off => Sys2Proof.Machine.execYieldBar name par off s
  | .wdqNext sa => Sys2Proof.Machine.execWdqNext sa s
  | .pipeLim sa sb => Sys2Proof.Machine.execPipeLim sa sb s
  | .scrRd sd n => Sys2Proof.Machine.execScrRd sd n s
  | .scrWr n sa => Sys2Proof.Machine.execScrWr n sa s
  | .nop => Sys2Proof.Machine.execNop s
  | .trap n => Sys2Proof.Machine.execTrap n s
  | .tret => Sys2Proof.Machine.execTret s
  | .exit => Sys2Proof.Machine.execExit s
  | .brk => Sys2Proof.Machine.execBrk s
  | .jr sa => Sys2Proof.Machine.execJr sa s
  | .callr sa => Sys2Proof.Machine.execCallr sa s
  | .iadd w => Sys2Proof.Machine.execIadd w s
  | .isub w => Sys2Proof.Machine.execIsub w s
  | .imul w => Sys2Proof.Machine.execImul w s
  | .imulh w => Sys2Proof.Machine.execImulh w s
  | .imad w => Sys2Proof.Machine.execImad w s
  | .imin w => Sys2Proof.Machine.execImin w s
  | .imax w => Sys2Proof.Machine.execImax w s
  | .iabs w => Sys2Proof.Machine.execIabs w s
  | .ineg w => Sys2Proof.Machine.execIneg w s
  | .laneShl w => Sys2Proof.Machine.execLaneShl w s
  | .laneShr w => Sys2Proof.Machine.execLaneShr w s
  | .laneSar w => Sys2Proof.Machine.execLaneSar w s
  | .lanePopc w => Sys2Proof.Machine.execLanePopc w s
  | .laneClz w => Sys2Proof.Machine.execLaneClz w s
  | .laneBrev w => Sys2Proof.Machine.execLaneBrev w s
  | .laneAnd w => Sys2Proof.Machine.execLaneAnd w s
  | .laneOr w => Sys2Proof.Machine.execLaneOr w s
  | .laneXor w => Sys2Proof.Machine.execLaneXor w s
  | .not w => Sys2Proof.Machine.execNot w s
  | .lop3 w => Sys2Proof.Machine.execLop3 w s
  | .bfe w => Sys2Proof.Machine.execBfe w s
  | .bfi w => Sys2Proof.Machine.execBfi w s
  | .laneSel w => Sys2Proof.Machine.execLaneSel w s
  | .fadd w => Sys2Proof.Machine.execFadd w s
  | .fsub w => Sys2Proof.Machine.execFsub w s
  | .fmul w => Sys2Proof.Machine.execFmul w s
  | .fma w => Sys2Proof.Machine.execFma w s
  | .fmin w => Sys2Proof.Machine.execFmin w s
  | .fmax w => Sys2Proof.Machine.execFmax w s
  | .fabs w => Sys2Proof.Machine.execFabs w s
  | .fneg w => Sys2Proof.Machine.execFneg w s
  | .icmp w => Sys2Proof.Machine.execIcmp w s
  | .fcmp w => Sys2Proof.Machine.execFcmp w s
  | .pand w => Sys2Proof.Machine.execPand w s
  | .por w => Sys2Proof.Machine.execPor w s
  | .pxor w => Sys2Proof.Machine.execPxor w s
  | .pnot w => Sys2Proof.Machine.execPnot w s
  | .pmov w => Sys2Proof.Machine.execPmov w s
  | .psum w => Sys2Proof.Machine.execPsum w s
  | .ptoq w => Sys2Proof.Machine.execPtoq w s
  | .cvt w => Sys2Proof.Machine.execCvt w s
  | .cvts w => Sys2Proof.Machine.execCvts w s
  | .cvtp w => Sys2Proof.Machine.execCvtp w s
  | .frnd w => Sys2Proof.Machine.execFrnd w s
  | .rcp w => Sys2Proof.Machine.execRcp w s
  | .rsq w => Sys2Proof.Machine.execRsq w s
  | .sqrt w => Sys2Proof.Machine.execSqrt w s
  | .exp2 w => Sys2Proof.Machine.execExp2 w s
  | .log2 w => Sys2Proof.Machine.execLog2 w s
  | .sin w => Sys2Proof.Machine.execSin w s
  | .cos w => Sys2Proof.Machine.execCos w s
  | .tanh w => Sys2Proof.Machine.execTanh w s
  | .dot2 w => Sys2Proof.Machine.execDot2 w s
  | .dot4 w => Sys2Proof.Machine.execDot4 w s
  | .dot8 w => Sys2Proof.Machine.execDot8 w s
  | .mov w => Sys2Proof.Machine.execMov w s
  | .bcast w => Sys2Proof.Machine.execBcast w s
  | .shfl w => Sys2Proof.Machine.execShfl w s
  | .redq w => Sys2Proof.Machine.execRedq w s
  | .ld w => Sys2Proof.Machine.execLd w s
  | .st w => Sys2Proof.Machine.execSt w s
  | .pref w => Sys2Proof.Machine.execPref w s
  | .discard w => Sys2Proof.Machine.execDiscard w s
  | .pst w => Sys2Proof.Machine.execPst w s
  | .atom w => Sys2Proof.Machine.execAtom w s
  | .atomcas w => Sys2Proof.Machine.execAtomcas w s
  | .fatom w => Sys2Proof.Machine.execFatom w s
  | .red w => Sys2Proof.Machine.execRed w s
  | .shdw w => Sys2Proof.Machine.execShdw w s
  | .accLd w => Sys2Proof.Machine.execAccLd w s
  | .laneHint h w => Sys2Proof.Machine.execLaneHint h w s
  | .illegalScalarInstruction word => Sys2Proof.Machine.execIllegalScalarInstruction word s
  | .scalarPcRange => Sys2Proof.Machine.execScalarPcRange s
  | .instructionFetchFault cause level addr => Sys2Proof.Machine.execInstructionFetchFault cause level addr s
  | .trapDelivery g => Sys2Proof.Machine.execTrapDelivery g s
  | .compactorEmit die late at_ => Sys2Proof.Machine.execCompactorEmit die late at_ s
  | .taskGather die late at_ => Sys2Proof.Machine.execTaskGather die late at_ s
  | .teamAdmit kern ats => Sys2Proof.Machine.execTeamAdmit kern ats s
  | .copyEntryPerform team lat => Sys2Proof.Machine.execCopyEntryPerform team lat s
  | .copyRingResume team => Sys2Proof.Machine.execCopyRingResume team s
  | .walkPlace eng => Sys2Proof.Machine.execWalkPlace eng s
  | .walkReserve eng offs => Sys2Proof.Machine.execWalkReserve eng offs s
  | .summonsIssue eng slotA slotB => Sys2Proof.Machine.execSummonsIssue eng slotA slotB s
  | .summonsDeliver sid at_ => Sys2Proof.Machine.execSummonsDeliver sid at_ s
  | .tileStart eng => Sys2Proof.Machine.execTileStart eng s
  | .kstepStart walk => Sys2Proof.Machine.execKstepStart walk s
  | .kstepEnd walk err => Sys2Proof.Machine.execKstepEnd walk err s
  | .waitaRecheck g cycles => Sys2Proof.Machine.execWaitaRecheck g cycles s
  | .countBatchSend unit => Sys2Proof.Machine.execCountBatchSend unit s
  | .snapshotStart ctx => Sys2Proof.Machine.execSnapshotStart ctx s
  | .floorAnnounce ctx lagging => Sys2Proof.Machine.execFloorAnnounce ctx lagging s
  | .workAnswer g => Sys2Proof.Machine.execWorkAnswer g s
  | .throttleWindow core hits => Sys2Proof.Machine.execThrottleWindow core hits s
  | .throttleDisplace g => Sys2Proof.Machine.execThrottleDisplace g s
  | .memorySetLeave g => Sys2Proof.Machine.execMemorySetLeave g s
  | .create cp => Sys2Proof.Machine.execCreate cp s
  | .quota cp ctx => Sys2Proof.Machine.execQuota cp ctx s
  | .suspend cp ctx => Sys2Proof.Machine.execSuspend cp ctx s
  | .contextSaved ctx => Sys2Proof.Machine.execContextSaved ctx s
  | .restore cp ctx => Sys2Proof.Machine.execRestore cp ctx s
  | .restoreComplete ctx teams walks => Sys2Proof.Machine.execRestoreComplete ctx teams walks s
  | .preempt cp ctx => Sys2Proof.Machine.execPreempt cp ctx s
  | .continueCtx cp ctx => Sys2Proof.Machine.execContinueCtx cp ctx s
  | .answer cp ctx => Sys2Proof.Machine.execAnswer cp ctx s
  | .destroy cp ctx => Sys2Proof.Machine.execDestroy cp ctx s
  | .noProgressWatchdog ctx cycles => Sys2Proof.Machine.execNoProgressWatchdog ctx cycles s
  | .saveWatchdog ctx cycles => Sys2Proof.Machine.execSaveWatchdog ctx cycles s
  | .trrootWrite cp val => Sys2Proof.Machine.execTrrootWrite cp val s
  | .invalidateAddress cp ctx => Sys2Proof.Machine.execInvalidateAddress cp ctx s
  | .invalidateContext cp ctx => Sys2Proof.Machine.execInvalidateContext cp ctx s
  | .invalidateAll cp => Sys2Proof.Machine.execInvalidateAll cp s
  | .invalidationComplete cp => Sys2Proof.Machine.execInvalidationComplete cp s
  | .qcreate cp => Sys2Proof.Machine.execQcreate cp s
  | .qresume cp q => Sys2Proof.Machine.execQresume cp q s
  | .qdestroy cp q => Sys2Proof.Machine.execQdestroy cp q s
  | .queueMap q slot => Sys2Proof.Machine.execQueueMap q slot s
  | .queueIdleUnmap q cycles => Sys2Proof.Machine.execQueueIdleUnmap q cycles s
  | .tailWake q => Sys2Proof.Machine.execTailWake q s
  | .tailPoll q cycles => Sys2Proof.Machine.execTailPoll q cycles s
  | .nopPacket q pos => Sys2Proof.Machine.execNopPacket q pos s
  | .pad q pos => Sys2Proof.Machine.execPad q pos s
  | .launch q pos => Sys2Proof.Machine.execLaunch q pos s
  | .feed q pos => Sys2Proof.Machine.execFeed q pos s
  | .walkPacket q pos => Sys2Proof.Machine.execWalkPacket q pos s
  | .waitPacket q pos => Sys2Proof.Machine.execWaitPacket q pos s
  | .waitPacketSatisfied q pos => Sys2Proof.Machine.execWaitPacketSatisfied q pos s
  | .signal q pos => Sys2Proof.Machine.execSignal q pos s
  | .frontPacket q pos => Sys2Proof.Machine.execFrontPacket q pos s
  | .copyPacket q pos => Sys2Proof.Machine.execCopyPacket q pos s
  | .fencePacket q pos => Sys2Proof.Machine.execFencePacket q pos s
  | .packetComplete q pos => Sys2Proof.Machine.execPacketComplete q pos s
  | .linkEnable port pers => Sys2Proof.Machine.execLinkEnable port pers s
  | .linkDisable port => Sys2Proof.Machine.execLinkDisable port s
  | .linkTrained port lanes => Sys2Proof.Machine.execLinkTrained port lanes s
  | .trainingTimeout port cycles => Sys2Proof.Machine.execTrainingTimeout port cycles s
  | .laneErrors port good replays => Sys2Proof.Machine.execLaneErrors port good replays s
  | .linkFence port cause => Sys2Proof.Machine.execLinkFence port cause s
  | .pstAck id => Sys2Proof.Machine.execPstAck id s
  | .nonpostedTimeout g cycles => Sys2Proof.Machine.execNonpostedTimeout g cycles s
  | .incomingAccess port acc => Sys2Proof.Machine.execIncomingAccess port acc s
  | .budgetPeriod block cycles => Sys2Proof.Machine.execBudgetPeriod block cycles s
  | .moduleReset img failing stacksOk => Sys2Proof.Machine.execModuleReset img failing stacksOk s
  | .firmwareLoad img => Sys2Proof.Machine.execFirmwareLoad img s
  | .lifeCycleToken target tok img => Sys2Proof.Machine.execLifeCycleToken target tok img s
  | .attestation nonce => Sys2Proof.Machine.execAttestation nonce s
  | .telemetry => Sys2Proof.Machine.execTelemetry s
  | .testSchedule die interval => Sys2Proof.Machine.execTestSchedule die interval s
  | .budgetSet act part amount => Sys2Proof.Machine.execBudgetSet act part amount s
  | .powerCap watts => Sys2Proof.Machine.execPowerCap watts s
  | .counterSnapshot kind ix => Sys2Proof.Machine.execCounterSnapshot kind ix s
  | .inFieldTest die cycles verdict => Sys2Proof.Machine.execInFieldTest die cycles verdict s
  | .thermalTrip die => Sys2Proof.Machine.execThermalTrip die s
  | .thermalReset cycles img => Sys2Proof.Machine.execThermalReset cycles img s
  | .registerWrite off size val => Sys2Proof.Machine.execRegisterWrite off size val s
  | .nonPostedCompletion g => Sys2Proof.Machine.execNonPostedCompletion g s
  | .restoreFault ctx badImage => Sys2Proof.Machine.execRestoreFault ctx badImage s

end Sys2Proof.Machine
end

