-- ==== Sys2Proof/Machine/Sched.lean ====
section
/-! DEFINITION. What a move of the machine does (R20, R39, R97 to R99, R123, R370): the lane and scalar issue of a core, an
arithmetic cycle of a walk engine, and the events of the table.
-/

namespace Sys2Proof.Machine

/-! Which groups may issue. -/

/-- Whether a group takes part in issue at all: it is not saved, and its context runs. -/
def Group.runs (g : Group) (m : Mach) : Bool := !g.saved && ctxRuns m g.ctx

/-- Whether a pending trap is to be delivered before the group starts anything new (R367). -/
def Group.trapDue (g : Group) : Bool := !g.traps.isEmpty && !g.isTrapped && g.betweenInstrs

/-- Whether a QFENCE that names the group's own accesses stalls them (R186). (DEDUCED, log 42.) -/
def Group.stalled (g : Group) (m : Mach) : Bool :=
  g.joins.any fun j => j.own && !j.waits.all (EngineEntry.performed m)

/-- The places of `Group.ready` beside those of the v registers: the cycle up to which a group's scalar side is held by what
it issued last there, and that of its lane side. -/
def scalarKey : Nat := 256

def laneKey : Nat := 257

/-- Whether a side of a group is held by what it issued last: how long a fetch, a result or a check takes is not stated, and
is free. (DESIGN CHOICE, log 5.) -/
def Group.heldFor (g : Group) (cyc key : Nat) : Bool := cyc < (aget g.ready key).getD 0

/-- A side of a group held for a free time from now on. (DESIGN CHOICE, log 5.) -/
def holdSide (key : Nat) (m : Mach) (gid : Nat) : Mach :=
  match m.grp? gid with
  | none => m
  | some g => (m.setGrp gid { g with ready := aput g.ready key ((m.core g.core).cyc + Config.choice m.free) }).bump

/-- Whether the head of a group's lane issue queue may issue: it lacks no queue entry or slot (R86), its wait count has
passed and no register that it names awaits a result (R39), no QFENCE stalls it (R186), and it is not throttled (R99).  One
that traps always may. -/
def headMayIssue (m : Mach) (gid : Nat) (g : Group) (e : LiqEntry) : Bool :=
  match e.bad, e.ins with
  | some _, _ => true
  | none, none => false
  | none, some i =>
    let cyc := (m.core g.core).cyc
    let w := ((laneWord? i).map LaneWord.wait).getD 0
    !g.blockedOn i && g.issuedAt + w ≤ cyc && !g.interlocked cyc i && !(mayFault i && g.stalled m) && !throttled m gid g

/-- Whether a group's next lane instruction may issue. (DEDUCED, log 13.) -/
def mayIssueLane (m : Mach) (gid : Nat) (g : Group) : Bool :=
  match g.qs.liq with
  | [] => false
  | e :: _ =>
    g.runs m && g.st.lanesIssue && !g.trapDue && !g.fabric.isOut && (g.fabric = .none || g.heldBack)
      && !g.heldFor (m.core g.core).cyc laneKey && headMayIssue m gid g e

/-- Whether a group is the older of two: it has been Ready for longer, or as long in a lower slot (R97, R98). -/
def Group.olderThan (a b : Group) : Bool := a.readyAt < b.readyAt || (a.readyAt = b.readyAt && a.slot < b.slot)

/-- Whether a group stands before another in the order of R97: groups that serve a summons first, each sort by age. -/
def Group.before (a b : Group) : Bool :=
  if a.serving.isSome = b.serving.isSome then a.olderThan b else a.serving.isSome

/-- A group put into its place among others. -/
def insertOrdered (x : Nat × Group) : List (Nat × Group) → List (Nat × Group)
  | [] => [x]
  | y :: r => if x.2.before y.2 then x :: y :: r else y :: insertOrdered x r

/-- Some groups in the order of R97. -/
def issueOrder (l : List (Nat × Group)) : List (Nat × Group) := l.foldr insertOrdered []

/-- The groups of a core. -/
def groupsOn (m : Mach) (core : Nat) : List (Nat × Group) := m.groups.filter fun kg => kg.2.core = core

/-- The group whose stick chain is under way on a core (R94), if it runs. (DEDUCED, log 40.) -/
def chainOwner (m : Mach) (core : Nat) : Option (Nat × Group) :=
  match (m.core core).chainOf with
  | none => none
  | some gid => ((m.grp? gid).filter fun g => g.runs m && g.chain.isSome).map fun g => (gid, g)

/-- The groups whose lane instruction may issue on a core: the one of an unfinished chain, else those that may, in the order
of R97, one that yielded last (R39). (DEDUCED, log 13.) -/
def laneChoices (m : Mach) (core : Nat) : List (Nat × Group) :=
  match chainOwner m core with
  | some x => if mayIssueLane m x.1 x.2 then [x] else []
  | none =>
    let l := issueOrder ((groupsOn m core).filter fun kg => mayIssueLane m kg.1 kg.2)
    let yielder (kg : Nat × Group) : Bool := (m.core core).yielded = some kg.1
    l.filter (fun kg => !yielder kg) ++ l.filter yielder

/-- One of some choices taken, with the choice used up where there was one. (DESIGN CHOICE, log 12.) -/
def State.chosen (s : State) (n : Nat) : State := if n ≤ 1 then s else { s with m := s.m.bump }

/-! What follows an issue. -/

/-- Whether an instruction is a release at some scope wider than the group (R177, R185, R186, R206). -/
def isRelease (i : Instr) : Bool :=
  match i with
  | .fence _ | .qfence _ | .copyq _ _ | .barArrive _ _ | .exit | .taskExit _ | .taskPub _ _ | .taskSig _ | .taskSpawn _ _
  | .walkPost _ _ _ | .hndlPark _ | .hndlDone | .stampSet _ _ | .frontDrop _ => true
  | .st w | .pst w | .atom w | .atomcas w | .fatom w | .red w => releases w
  | _ => false

/-- Whether the scalar instruction that a group issued has completed: its PC has moved on and not into a handler, or the group
is gone. -/
def scalarDone (g : Group) (after : Option Group) : Bool :=
  match after with
  | none => true
  | some x => x.spc != g.spc && (!x.isTrapped || g.isTrapped)

/-- Whether the lane instruction that a group issued has completed: it has left the queue, and the group is in the state in
which it was. -/
def laneDone (g : Group) (after : Option Group) : Bool :=
  match after with
  | none => false
  | some x => x.qs.liq.length + 1 = g.qs.liq.length && x.st = g.st

/-- A release that has completed has its effect on what others see (R183, R237). -/
def afterRelease (m : Mach) (gid : Nat) (g : Group) (i : Instr) (done : Bool) : Mach :=
  if done && isRelease i then releaseBy m gid g else m

/-! Lane issue. -/

/-- An arithmetic cycle of a core in which nothing issues. (DESIGN CHOICE, log 8.) -/
def idleCycle (m : Mach) (core : Nat) : Mach := m.setCore core { m.core core with cyc := (m.core core).cyc + 1 }

/-- The machine with a group current, and the joins of it that are met taken off (R186). -/
def focus (m : Mach) (gid : Nat) (g : Group) : Mach := { settleJoins m gid g with cur := gid }

/-- The head of a group's lane issue queue issues: an instruction, or the trap it stands for. -/
def issueLane (s : State) (gid : Nat) (g : Group) : Host.Outcome State Fault Refusal :=
  match g.qs.liq with
  | [] => .next s
  | e :: _ =>
    let m1 := focus s.m gid g
    match e.bad, e.ins with
    | some (c, a), _ => .next { s with m := laneTrap m1 gid (regrp m1 gid g) e c a }
    | none, some i => exec i { s with m := m1 }
    | none, none => .next s

/-- What follows a lane issue: a release is seen, groups that have left Ready leave the memory set (R99), and the group's lane
side is held for a while. -/
def afterLane (before : Mach) (gid : Nat) (g : Group) (s : State) : State :=
  let m1 := match g.qs.liq.head?.bind LiqEntry.ins with
    | some i => afterRelease s.m gid g i (laneDone g (s.m.grp? gid))
    | none => s.m
  { s with m := holdSide laneKey (leaveSets before m1) gid }

/-- A meaning's outcome with what follows it. -/
def onward (o : Host.Outcome State Fault Refusal) (f : State → State) : Host.Outcome State Fault Refusal :=
  match o with
  | .next s => .next (f s)
  | .fault x => .fault x
  | .refused x => .refused x

/-- The lane issue of a core (R97): the first of the groups that may issue. -/
def laneMove (s : State) (core : Nat) : Host.Outcome State Fault Refusal :=
  let s1 : State := { s with m := markThrottled s.m core }
  match laneChoices s1.m core with
  | (gid, g) :: _ => onward (issueLane s1 gid g) (afterLane s.m gid g)
  | [] => .next { s1 with m := idleCycle s1.m core }

/-! Scalar issue. -/

/-- The scalar instructions that a QFENCE with bit 0 stalls: those that reach memory (R186, R370). (DEDUCED, log 42.) -/
def reachesMemory (i : Instr) : Bool :=
  match i with
  | .sldb _ _ _ | .sldh _ _ _ | .sldw _ _ _ | .sldd _ _ _ | .sldbx _ _ _ | .sldhx _ _ _ | .sldwx _ _ _ | .sstb _ _ _
  | .ssth _ _ _ | .sstw _ _ _ | .sstd _ _ _ | .satom _ _ _ _ _ | .waita _ _ _ _ | .walkPost _ _ _ | .taskSpawn _ _
  | .taskPub _ _ | .summLd _ | .rgnKeep _ _ | .copyq _ _ | .wdqNext _ | .barInit _ _ | .barArrive _ _ | .barExpect _ _
  | .barDrop _ | .barWait _ _ | .barTry _ _ _ | .barBind _ _ => true
  | _ => false

/-- Whether a group may start a scalar instruction now: nothing that its lanes may raise holds it back (R48, R339, R370),
and its own fabric access, if it has one, is no longer outstanding. (DEDUCED, log 40.) -/
def Group.scalarFree (g : Group) : Bool := !g.heldBack && !(g.hazard && !g.qs.liq.isEmpty) && !g.fabric.isOut

/-- Whether a YIELD.BAR waits for its phase, and so for the group's lanes (R253). -/
def yieldWaits (m : Mach) (g : Group) (name par : Nat) : Bool :=
  match resolveName m g name with
  | .ok (_, _, b) => b.phase % 2 = par
  | .error _ => false

/-- Whether a scalar instruction issues although lane instructions that may fault stand behind a head that waits for a
queue entry or a slot: it is an EXIT, which discards them (R125), or it finds one of the conditions of R89 and traps.
(DEDUCED, log 40.) -/
def Group.endsWait (m : Mach) (g : Group) (i : Instr) : Bool :=
  match i with
  | .yieldBar name par _ => yieldWaits m g name.toNat par.toNat
  | .exit | .hndlPark _ | .hndlDone | .stampSet _ _ | .frontDrop _ | .taskExit _ | .rgnOpen _ _
  | .rgnClose => true
  | .lx _ _ => 16 ≤ g.qs.liq.length
  | .sqPush _ => 8 ≤ g.qs.sq.length && !g.queued sqNeeds
  | .lqPop _ => g.qs.lq.isEmpty && !g.queued fun i => lqPushes i g.beats
  | .fqPop _ | .bf _ _ => g.qs.fq.isEmpty && !g.queued fqPushes
  | _ => false

/-- Whether the next scalar instruction of a group issues behind such a head. (DEDUCED, log 40.) -/
def Group.mayEndWait (m : Mach) (g : Group) : Bool :=
  g.headBlocked && !g.fabric.isOut && g.endsWait m (nextScalar m g).2

/-- Whether a group goes on with a run that its LX is still taking (R83). -/
def Group.takesRun (g : Group) : Bool := g.lx.isSome

/-- Whether nothing but its own state keeps a group's scalar side from going on. -/
def Group.scalarGoes (m : Mach) (g : Group) : Bool :=
  g.runs m && !g.trapDue && (g.takesRun || g.scalarFree || g.mayEndWait m)

/-- Whether a group that is Ready, or runs its handler, may issue. -/
def readyScalar (m : Mach) (g : Group) : Bool :=
  g.scalarGoes m && (g.st = .ready || g.st = .trapped .running) && !g.stuck && !g.heldFor (m.core g.core).cyc scalarKey

/-- Whether a group's instruction has issued and waits, and may find its condition met: it is no candidate of R97. A WAITA
reads again only by its own event (R187). (DESIGN CHOICE, log 12.) -/
def waitingScalar (m : Mach) (g : Group) : Bool :=
  g.scalarGoes m && (g.st.isWaiting || g.stuck) && !(g.waitedFrom.isSome && g.fabric = .none)

/-- The groups that may issue on a core, in the order of R97. -/
def scalarChoices (m : Mach) (core : Nat) : List (Nat × Group) :=
  issueOrder ((groupsOn m core).filter fun kg => readyScalar m kg.2)

/-- The groups on a core whose issued instruction waits. -/
def waiters (m : Mach) (core : Nat) : List (Nat × Group) := (groupsOn m core).filter fun kg => waitingScalar m kg.2

/-- What the scalar side of a core does: the first of the groups that may issue does; or a Waiting group looks whether its
condition is met, which takes no issue (R81). Which of them, and when, is free. (DESIGN CHOICE, log 12.) -/
def scalarTurns (m : Mach) (core : Nat) : List (Nat × Group) := (scalarChoices m core).take 1 ++ waiters m core

/-- The scalar instruction at a group's PC issues; it stands where a QFENCE stalls it. -/
def issueNext (s : State) (gid : Nat) (g : Group) : Host.Outcome State Fault Refusal :=
  let (m1, i) := nextScalar s.m g
  let s1 : State := { s with m := m1 }
  if reachesMemory i && g.stalled m1 then .next { s1 with m := wait m1 gid g } else exec i s1

/-- A group issues on the scalar side: it goes on after the phase of its YIELD.BAR (R253), with its run (R83), or with its
next instruction. -/
def issueScalar (s : State) (gid : Nat) (g0 : Group) : Host.Outcome State Fault Refusal :=
  let m1 := focus s.m gid g0
  let g := regrp m1 gid g0
  let s1 : State := { s with m := m1 }
  match g.st with
  | .waiting (.phase off ph) => .next { s1 with m := continueYield m1 gid g off ph }
  | _ =>
    match g.lx with
    | some p => .next { s1 with m := continueRun m1 gid g p }
    | none => issueNext s1 gid g

/-- The scalar instruction that a group has at its PC, where it is one of its own and no run or phase goes on. -/
def Group.scalarInstr (m : Mach) (g : Group) : Option Instr :=
  match g.st, g.lx with
  | .waiting (.phase _ _), _ => none
  | _, some _ => none
  | _, none => some (nextScalar m g).2

/-- What follows a scalar issue: a release is seen, groups that have left Ready leave the memory set (R99), and the group's
scalar side is held for a while. -/
def afterScalar (before : Mach) (gid : Nat) (g : Group) (s : State) : State :=
  let m1 := match g.scalarInstr before with
    | some i => afterRelease s.m gid g i (scalarDone g (s.m.grp? gid))
    | none => s.m
  { s with m := holdSide scalarKey (leaveSets before m1) gid }

/-- The scalar side of a core (R81, R97). (DESIGN CHOICE, log 12.) -/
def scalarMove (s : State) (core : Nat) : Host.Outcome State Fault Refusal :=
  let l := scalarTurns s.m core
  match l[s.m.pick l.length]? with
  | none => .next s
  | some (gid, g) =>
    let s1 := s.chosen l.length
    onward (issueScalar s1 gid g) (afterScalar (focus s1.m gid g) gid (regrp (focus s1.m gid g) gid g))

/-! Moves. -/

/-- Whether an entry of the table is an event that can happen of itself, and no instruction of a group.
(DESIGN CHOICE, log 63.) -/
def isEvent (i : Instr) : Bool :=
  match i with
  | .trapDelivery _ | .compactorEmit _ _ _ | .taskGather _ _ _ | .teamAdmit _ _ | .copyEntryPerform _ _
  | .copyRingResume _ | .walkPlace _ | .walkReserve _ _ | .summonsIssue _ _ _ | .summonsDeliver _ _ | .tileStart _
  | .kstepStart _ | .kstepEnd _ _ | .waitaRecheck _ _ | .countBatchSend _ | .snapshotStart _ | .floorAnnounce _ _
  | .workAnswer _ | .throttleWindow _ _ | .throttleDisplace _ | .memorySetLeave _ | .create _ | .quota _ _
  | .suspend _ _ | .contextSaved _ | .restore _ _ | .restoreComplete _ _ _ | .preempt _ _ | .continueCtx _ _
  | .answer _ _ | .destroy _ _ | .noProgressWatchdog _ _ | .saveWatchdog _ _ | .trrootWrite _ _
  | .invalidateAddress _ _ | .invalidateContext _ _ | .invalidateAll _ | .invalidationComplete _ | .qcreate _
  | .qresume _ _ | .qdestroy _ _ | .queueMap _ _ | .queueIdleUnmap _ _ | .tailWake _ | .tailPoll _ _ | .nopPacket _ _
  | .pad _ _ | .launch _ _ | .feed _ _ | .walkPacket _ _ | .waitPacket _ _ | .waitPacketSatisfied _ _ | .signal _ _
  | .frontPacket _ _ | .copyPacket _ _ | .fencePacket _ _ | .packetComplete _ _ | .linkEnable _ _ | .linkDisable _
  | .linkTrained _ _ | .trainingTimeout _ _ | .laneErrors _ _ _ | .linkFence _ _ | .pstAck _ | .nonpostedTimeout _ _
  | .incomingAccess _ _ | .budgetPeriod _ _ | .thermalTrip _ | .thermalReset _ _ | .inFieldTest _ _ _
  | .registerWrite _ _ _ | .nonPostedCompletion _ | .restoreFault _ _ => true
  | _ => false

/-- Whether an event is a reset or a request over Fjarul, which is served in every state of the module (R422, R427).
(DEDUCED, log 55.) -/
def isRequest (i : Instr) : Bool :=
  match i with
  | .moduleReset _ _ _ | .firmwareLoad _ | .lifeCycleToken _ _ _ | .attestation _ | .telemetry | .testSchedule _ _
  | .budgetSet _ _ _ | .powerCap _ | .counterSnapshot _ _ => true
  | _ => false

/-- The state with no group current, for what no group does (R183). -/
def State.noGroup (s : State) : State := { s with m := { s.m with cur := s.m.nextId } }

/-- What a move does; until a module is ready it serves requests alone (R422, R424). (DESIGN CHOICE, log 5.) -/
def runMove (mv : Move) (s : State) : Host.Outcome State Fault Refusal :=
  match mv with
  | .event i =>
    if isRequest i || (isEvent i && s.mg.boot = .ready) then
      onward (exec i s.noGroup) fun t => { t with m := leaveSets s.m t.m }
    else .next s
  | .lane core => if s.mg.boot = .ready && core < 1024 then laneMove s core else .next s
  | .scalar core => if s.mg.boot = .ready && core < 1024 then scalarMove s core else .next s
  | .engine eng =>
    if s.mg.boot = .ready && eng < 128 && !(s.m.cluster eng).fenced then .next { s with m := engineCycle s.noGroup.m eng }
    else .next s

/-- The move that comes next, and the state without it: one that stands on the agenda, else a free one.
(DESIGN CHOICE, log 5.) -/
def nextMove (s : State) : Move × State :=
  match s.m.agenda with
  | mv :: r => (mv, { s with m := { s.m with agenda := r } })
  | [] => (Config.nextMove s.tick, { s with tick := s.tick + 1 })

/-- What follows every move: full batches of counts are sent (R301), commands that waited for a context are performed
(R362), queues that have become pending take their place (R403), and the status lines of queues that changed with their
contexts are written (R396). -/
def settleMach (m : Mach) : Mach := tellAll (agePending (performWaits (sendFull m)))

/-- A step's outcome with what follows every move. -/
def settleStep (o : Host.Outcome State Fault Refusal) : Host.Outcome State Fault Refusal :=
  onward o fun s => { s with m := settleMach s.m }

end Sys2Proof.Machine
end

