-- ==== Sys2Proof/Machine/Step.lean ====
section
/-! DEFINITION. The step of the machine, and a state whose next step runs a given instruction. -/

namespace Sys2Proof.Machine

/-- One step: the next move, and what follows it. (DESIGN CHOICE, log 5.) -/
def step (s : State) : Host.Outcome State Fault Refusal :=
  let (mv, s1) := nextMove s
  settleStep (runMove mv s1)

/-! A program of one instruction.  It stands for what the host does before a program runs: a context, a quota, a root, a
LAUNCH and the admission of a team (R352, R361, R382, R441). -/

/-- Where the scalar and the lane section of the program stand: addresses below 1 GiB are mapped to themselves. -/
def fetchScalarAt : Nat := 0x10000

def fetchLaneAt : Nat := 0x20000

/-- A descriptor that names nothing but a trap section that is empty (R361). -/
def fetchDesc : CtxDesc :=
  { vtab := 0, tsbase := 0, tllen := 0, tslen := 0, tlbase := 0, savebase := 0, savesize := 0, poolbase := 0x40000,
    poolsize := 16, summ := 0, rqbase := 0x50000, rqlog := 4, npl := 0, svl := 1, hregs := 1 }

/-- A quota of cluster 0 whole (R441). -/
def fetchQuota : Quota :=
  { clusters := 1, regs := 64, lanes := 64, gslots := 64, spsize := 64, spbase := 0, cpsize := 1, cpbase := 0 }

/-- The context of the program (R363): active, its root at 0x1000. (DEDUCED, log 1.) -/
def fetchContext : Context :=
  { desc := fetchDesc, st := .active, quota := some fetchQuota, root := some 0x1000, nodes := [1], sums := closureOf [] [1],
    floors := [.at_ 0], frozen := false, copies := [], input := some (0, 0),
    holds := List.replicate 256 { gen := 0, pair := none }, pool := [], snap := false, npCount := 0, svCount := 0,
    rqIndex := 0, castNow := false, vacating := none, images := [], granted := fetchQuota.clusters, waits := [] }

/-- The launch record of the program (R350): one team of one group of 32 lanes with 256 v registers. -/
def fetchRecord : LaunchRec :=
  { sbase := BitVec.ofNat 64 fetchScalarAt, lbase := BitVec.ofNat 64 fetchLaneAt, llen := 16, slen := 64, entry := 0, gx := 1,
    gy := 1, gz := 1, scratch := 0x1000, regs := 32, coop := false, wcode := 0, tgroups := 1, node := 0, reqfeat := 0,
    stamp := 0, args := 0, scale := 0, priv := 0, frames := 1, slice := 0, wq := false, wqlog := 0, wx := 0, wy := 0,
    slots := List.replicate 8 0 }

/-- The kernel of the program (R352). -/
def fetchKernel : Kernel :=
  { ctx := 0, queue := 0, pos := 0, die := 0, addr := 0, lrec := fetchRecord, st := .resident, nextTeam := 1, killed := 0,
    wqBase := none, wqHead := 0, wqCount := 0, closed := false, nextItem := 0, queries := [], parked := [], wqBytes := [] }

/-- The group of the program at its first instruction (R353). -/
def fetchGroup (kern team : Nat) : Group :=
  { freshGroup 0 kern team .kernel 0 0 0 32 256 0 with spc := BitVec.ofNat 64 fetchScalarAt, own := true }

/-- The entry of the lane issue queue for a lane word that an LX has taken (R83, R85). (DEDUCED, log 1.) -/
def fetchEntry (w : Nat) : LiqEntry :=
  let x : LaneBits := BitVec.ofNat 96 w
  let (ins, bad) : Option Instr × Option (Cause × Dword) := match decodeLane x with
    | .ok i => if laneLegal i then (some i, none) else (some i, some (.illegal, 0))
    | .error _ => (none, some (.illegal, 0))
  { ins := ins, bad := bad, m0 := 0xFFFFFFFF, m1 := 0, m2 := 0, mode := 0,
    svals := ((ins.map scalarSources).getD []).map fun r => (r.toNat, (fetchGroup 0 0).s r), lpc := 0, left := 1,
    resume := BitVec.ofNat 64 (fetchScalarAt + 4), fold := true, again := false, inject := none }

/-- The core of the program, so long after the last lane issue that no wait count holds the next one back (R39). -/
def fetchCore : Core := { Core.empty with cyc := 64 }

/-- The bytes of the program: three page tables that map the first GiB to itself, and the instruction's words.
(DEDUCED, log 1.) -/
def fetchMemory (m : Mach) (nbits w : Nat) : Mach :=
  let m1 := writeNat m (.dev 0x1000) 8 0x2001
  let m2 := writeNat m1 (.dev 0x2000) 8 0x3001
  let m3 := writeNat m2 (.dev 0x3000) 8 0x7F
  if nbits = 96 then writeNat m3 (.dev fetchLaneAt) 12 w else writeNat m3 (.dev fetchScalarAt) 8 w

/-- The group of the program with what stands before its first step: for a lane instruction, the LX that took it has
issued. (DEDUCED, log 1.) -/
def fetchStart (kern team nbits w : Nat) : Group :=
  let g := fetchGroup kern team
  if nbits = 96 then
    { g with qs := { g.qs with liq := [fetchEntry w] }, lpc := 1, sigq := [.hole], spc := BitVec.ofNat 64 (fetchScalarAt + 4) }
  else g

/-- The module with a program of one instruction resident on core 0, whose group holds its own count (R298) and whose move
comes next. (DEDUCED, log 1.) -/
def fetchModule (m : Mach) (nbits w : Nat) : Mach :=
  let n := m.nextId
  let m1 := fetchMemory { m with indet := [], slots := [] } nbits w
  { m1 with
    nextId := n + 3, groups := [(n + 2, fetchStart n (n + 1) nbits w)],
    teams := [(n + 1, freshTeam n 0 0 0 0x1000 0)], kerns := [(n, fetchKernel)],
    root := addCount (m1.root.filter fun c => c.ctx != 0) 0 0 0 1,
    ctxs := aput m1.ctxs 0 fetchContext, cores := aput m1.cores 0 fetchCore, clusters := aput m1.clusters 0 Cluster.empty,
    dies := aput m1.dies 0 Die.empty, agenda := [if nbits = 96 then .lane 0 else .scalar 0] }

/-- The state with an instruction stored where the next step fetches it: a module in service whose first group is at that
instruction. (DEDUCED, log 1.) -/
def State.withFetchWord (s : State) (nbits w : Nat) : State :=
  { s with m := fetchModule s.m nbits w, mg := { s.mg with boot := .ready } }

end Sys2Proof.Machine
end

