-- ==== Sys2Proof/Machine/Ordering.lean ====
section
/-! DEFINITION. The memory model of R189 to R210: executions, their relations, and the axioms that say which are allowed.

An execution is finite: its events, numbered from 0, with what each read takes from which write and the order of the writes
to each location.  The machine of Machine/Step.lean performs the accesses of one group at once and in order, which is one
of the ways the axioms allow; what else they allow is said here.
-/

namespace Sys2Proof.Machine.MemOrder

/-- An agent (R190). -/
inductive Agent where
  | group (gid : Nat)
  | copyEngine (cluster : Nat)
  | walkEngine (cluster : Nat)
  | host
  | peer (port : Nat)
  deriving DecidableEq, Repr

/-- What an event is (R189): a read, a write, an atomic, a FENCE, a QFENCE, or an event without a location (an MSPLIT or
MJOIN, an arrival, a completion, a count drop, a return). -/
inductive EvKind where
  | read
  | write
  | rmw
  | fence
  | qfence (set : BitVec 5)
  | mark
  deriving DecidableEq, Repr

/-- An event (R189): its agent, its instruction's place in program order (the events of one instruction share it, R171),
its scope and order, whether it is a posted store, and the locations it accesses, each a byte or a run of bytes that every
event of the execution accesses whole or not at all. -/
structure Ev where
  agent : Agent
  seq   : Nat
  kind  : EvKind
  scope : Scope
  acq   : Bool
  rel   : Bool
  pst   : Bool
  locs  : List Nat
  deriving DecidableEq, Repr

/-- An edge with its label: a scope relative to an agent (R195). -/
structure Arrow where
  src   : Nat
  dst   : Nat
  scope : Scope
  base  : Agent
  deriving DecidableEq, Repr

/-- Where a group is: its team and its cluster. -/
structure Place where
  gid     : Nat
  team    : Nat
  cluster : Nat
  deriving DecidableEq, Repr

/-- An execution: where its groups are, its events, the dependences of R193, the edges jo (R193) and those of R202 to R208,
and which write each read takes each location from (none: its initial value), with each location's writes in their order. -/
structure Execution where
  places  : List Place
  evs     : List Ev
  dep     : List (Nat × Nat)
  jo      : List (Nat × Nat)
  effects : List Arrow
  rf      : List (Nat × Nat × Option Nat)
  co      : List (Nat × List Nat)
  deriving DecidableEq, Repr

/-! Scopes (R191, R192). -/

/-- The team of an agent, if it is a group. -/
def Execution.teamOf (x : Execution) (a : Agent) : Option Nat :=
  match a with
  | .group g => (x.places.find? fun p => p.gid = g).map Place.team
  | _ => none

/-- The cluster of an agent, if it has one. -/
def Execution.clusterOf (x : Execution) (a : Agent) : Option Nat :=
  match a with
  | .group g => (x.places.find? fun p => p.gid = g).map Place.cluster
  | .copyEngine c | .walkEngine c => some c
  | _ => none

/-- Whether an agent is of this module. -/
def Agent.ofModule (a : Agent) : Bool :=
  match a with
  | .host | .peer _ => false
  | _ => true

/-- Whether the engine that serves the copy rings of a team is that of a cluster. -/
def Execution.serves (x : Execution) (cluster team : Nat) : Bool := x.places.any fun p => p.team = team && p.cluster = cluster

/-- Whether an agent lies in a scope taken relative to another (R191). (DEDUCED, log 59.) -/
def Execution.inScope (x : Execution) (s : Scope) (base a : Agent) : Bool :=
  match s with
  | .grp => a = base
  | .team =>
    a = base || match x.teamOf base, a with
      | some t, .group _ => x.teamOf a = some t
      | some t, .copyEngine c => x.serves c t
      | none, _ | some _, _ => false
  | .clu => a = base || ((x.clusterOf base).isSome && x.clusterOf a = x.clusterOf base)
  | .dev => a.ofModule
  | .sys => true

/-- Whether two events are scope-matched (R192). (DEDUCED, log 59.) -/
def Execution.matched (x : Execution) (a b : Ev) : Bool := x.inScope a.scope a.agent b.agent && x.inScope b.scope b.agent a.agent

/-! Relations (R193). -/

/-- An event by its number. -/
def Execution.ev (x : Execution) (i : Nat) : Option Ev := x.evs[i]?

/-- Whether a property holds of two events, by number. -/
def Execution.both (x : Execution) (i j : Nat) (p : Ev → Ev → Bool) : Bool :=
  match x.ev i, x.ev j with
  | some a, some b => p a b
  | _, _ => false

/-- The numbers of events. -/
def Execution.ids (x : Execution) : List Nat := List.range x.evs.length

/-- Every pair of numbers of events. -/
def Execution.pairs (x : Execution) : List (Nat × Nat) := x.ids.flatMap fun i => x.ids.map fun j => (i, j)

/-- Whether an event reads, writes. -/
def Ev.reads (e : Ev) : Bool := e.kind = .read || e.kind = .rmw

def Ev.writes (e : Ev) : Bool := e.kind = .write || e.kind = .rmw

/-- Whether an agent's events have a program order: a group of this module or of a peer, and the host, whose releases and
acquires order as its architecture has them (R210). -/
def Agent.inOrder (a : Agent) : Bool :=
  match a with
  | .group _ | .peer _ | .host => true
  | _ => false

/-- Program order (R193). -/
def Ev.io (a b : Ev) : Bool := a.agent = b.agent && a.agent.inOrder && a.seq < b.seq

/-- Whether two events access a location in common. -/
def Ev.overlaps (a b : Ev) : Bool := a.locs.any fun l => b.locs.contains l

/-- The writes of a location, in their order. -/
def Execution.coOf (x : Execution) (l : Nat) : List Nat := ((x.co.find? fun c => c.1 = l).map Prod.snd).getD []

/-- Where a read takes a location from. -/
def Execution.rfOf (x : Execution) (l r : Nat) : Option Nat := ((x.rf.find? fun f => f.1 = l && f.2.1 = r).map fun f => f.2.2).join

/-- The locations of an execution. -/
def Execution.locs (x : Execution) : List Nat := (x.evs.flatMap Ev.locs).dedup

/-- rf of a location. -/
def Execution.rfAt (x : Execution) (l : Nat) : List (Nat × Nat) :=
  x.rf.filterMap fun f => if f.1 = l then f.2.2.map fun w => (w, f.2.1) else none

/-- Every pair of a list, the earlier one first. -/
def orderedPairs : List Nat → List (Nat × Nat)
  | [] => []
  | a :: r => r.map (fun b => (a, b)) ++ orderedPairs r

/-- co of a location. -/
def Execution.coAt (x : Execution) (l : Nat) : List (Nat × Nat) := orderedPairs (x.coOf l)

/-- The elements after one in a list; all of them after none. -/
def after (l : List Nat) (w : Option Nat) : List Nat :=
  match w with
  | none => l
  | some w => (l.dropWhile (· != w)).drop 1

/-- fr of a location: from a read to the writes after the one it takes. -/
def Execution.frAt (x : Execution) (l : Nat) : List (Nat × Nat) :=
  x.rf.flatMap fun f => if f.1 = l then ((after (x.coOf l) f.2.2).filter (· != f.2.1)).map fun w => (f.2.1, w) else []

/-- eco of a location, without its closure. -/
def Execution.ecoAt (x : Execution) (l : Nat) : List (Nat × Nat) := x.rfAt l ++ x.coAt l ++ x.frAt l

/-! Preserved program order (R194). -/

/-- A FENCE between two events, of whose scopes the condition holds. -/
def Execution.fencesBetween (x : Execution) (a b : Ev) : List Scope :=
  x.evs.filterMap fun f => if f.kind = .fence && a.io f && f.io b && (!a.pst || f.scope = .sys) then some f.scope else none

/-- Whether a QFENCE with bit 0 stands between two events. -/
def Execution.joinBetween (x : Execution) (a b : Ev) : Bool :=
  x.evs.any fun f => match f.kind with
    | .qfence set => set.getLsbD 0 && a.io f && f.io b
    | _ => false

/-- The labels of the edges of ppo between two events. -/
def Execution.ppoLabels (x : Execution) (i j : Nat) (a b : Ev) : List Scope :=
  if !a.io b then []
  else
    (if a.overlaps b then [.sys] else [])
      ++ (if a.acq || a.kind = .fence then [a.scope] else [])
      ++ (if (b.rel || b.kind = .fence) && !a.pst then [b.scope] else [])
      ++ x.fencesBetween a b
      ++ (if x.dep.contains (i, j) && b.writes then [.sys] else [])
      ++ (if x.dep.contains (i, j) && b.kind = .read then [b.scope] else [])
      ++ (if x.joinBetween a b && (a.reads || a.writes) && b.writes then [a.scope] else [])
      ++ (if x.joinBetween a b && b.reads then [.grp] else [])

/-- ppo (R194). (DEDUCED, log 59.) -/
def Execution.ppo (x : Execution) : List Arrow :=
  x.pairs.flatMap fun p => match x.ev p.1, x.ev p.2 with
    | some a, some b => (x.ppoLabels p.1 p.2 a b).map fun s => { src := p.1, dst := p.2, scope := s, base := a.agent }
    | _, _ => []

/-! Synchronisation (R193). -/

/-- A release sequence of a location, after its head: the longest run of atomics that each read from the one before. -/
def Execution.chain (x : Execution) (l : Nat) : Nat → List Nat → List Nat
  | _, [] => []
  | w, u :: r =>
    if ((x.ev u).map Ev.kind = some .rmw) && x.rfOf l u = some w then u :: x.chain l u r else []

/-- The release sequence of a write at a location. -/
def Execution.releaseSeq (x : Execution) (l w : Nat) : List Nat := w :: x.chain l w (after (x.coOf l) (some w))

/-- sw. -/
def Execution.sw (x : Execution) : List (Nat × Nat) :=
  x.pairs.filter fun p => x.both p.1 p.2 fun w r =>
    w.writes && w.rel && r.reads && r.acq && x.matched w r
      && r.locs.any fun l => match x.rfOf l p.2 with
        | some v => (x.releaseSeq l p.1).contains v
        | none => false

/-- The effects of R202 to R208 that synchronise: those whose events lie in the scope of their label. -/
def Execution.synced (x : Execution) : List (Nat × Nat) :=
  (x.effects.filter fun e => x.both e.src e.dst fun a b => x.inScope e.scope e.base a.agent && x.inScope e.scope e.base b.agent).map
    fun e => (e.src, e.dst)

/-- hb, without its closure. (DEDUCED, log 59.) -/
def Execution.hb (x : Execution) : List (Nat × Nat) := x.ppo.map (fun e => (e.src, e.dst)) ++ x.sw ++ x.jo ++ x.synced

/-- ob (R195). -/
def Execution.ob (x : Execution) : List Arrow :=
  let sysEdge (p : Nat × Nat) : Arrow := { src := p.1, dst := p.2, scope := .sys, base := .host }
  let ext := (x.locs.flatMap x.ecoAt).filter fun p => x.both p.1 p.2 fun a b => a.agent != b.agent
  let jo := x.jo.filterMap fun p => (x.ev p.1).map fun a => ({ src := p.1, dst := p.2, scope := .grp, base := a.agent } : Arrow)
  x.ppo ++ ext.map sysEdge ++ jo ++ x.effects

/-! The axioms. -/

/-- What stays of some events when those without an edge from another that stays are taken away, so many times. -/
def peel (es : List (Nat × Nat)) : Nat → List Nat → List Nat
  | 0, ns => ns
  | k + 1, ns => peel es k (ns.filter fun n => es.any fun e => e.2 = n && ns.contains e.1)

/-- Whether some edges over events make no cycle. -/
def acyclic (n : Nat) (es : List (Nat × Nat)) : Bool := (peel es n (List.range n)).isEmpty

/-- What is reached from some events in at most so many edges. -/
def reach (es : List (Nat × Nat)) : Nat → List Nat → List Nat
  | 0, s => s
  | k + 1, s => reach es k (s ++ ((es.filter fun e => s.contains e.1 && !s.contains e.2).map Prod.snd))

/-- What is reached from an event in one edge or more. -/
def reachFrom (es : List (Nat × Nat)) (n a : Nat) : List Nat := reach es n ((es.filter fun e => e.1 = a).map Prod.snd)

/-- R196, first condition: each location by itself is coherent. -/
def Execution.coherent (x : Execution) : Bool :=
  x.locs.all fun l => acyclic x.evs.length
    ((x.pairs.filter fun p => x.both p.1 p.2 fun a b => a.io b && a.locs.contains l && b.locs.contains l) ++ x.ecoAt l)

/-- R196, second condition: nothing that happens before is seen to be later. -/
def Execution.ordered (x : Execution) : Bool :=
  x.ids.all fun a => (reachFrom x.hb x.evs.length a).all fun b =>
    b != a && x.locs.all fun l => !(reachFrom (x.ecoAt l) x.evs.length b).contains a

/-- R197: no write stands between an atomic's read and its write. -/
def Execution.atomic (x : Execution) : Bool :=
  x.ids.all fun u => match x.ev u with
    | some e => e.kind != .rmw || e.locs.all fun l => (after (x.coOf l) (x.rfOf l u)).head? = some u
    | none => true

/-- The agents of an execution. -/
def Execution.agents (x : Execution) : List Agent := (x.evs.map Ev.agent).dedup

/-- R198: no cycle of ob all of whose agents lie in the scope of each of its labels. -/
def Execution.observed (x : Execution) : Bool :=
  x.agents.sublists.all fun as => acyclic x.evs.length
    ((x.ob.filter fun e => as.all (x.inScope e.scope e.base) && x.both e.src e.dst fun a b => as.contains a.agent && as.contains b.agent).map
      fun e => (e.src, e.dst))

/-- R196 to R198; what R199 asks of values beside them is `obeys` of Machine/Trace.lean. (DESIGN CHOICE, log 4.) -/
def Execution.allowed (x : Execution) : Bool := x.coherent && x.ordered && x.atomic && x.observed

/-! Outcomes. -/

/-- The orders of some writes. -/
def orders : List Nat → List (List Nat)
  | [] => [[]]
  | a :: r => (orders r).flatMap fun l => (List.range (l.length + 1)).map fun k => l.take k ++ a :: l.drop k

/-- Every way to choose one of some choices for each of some things. -/
def choices {α β : Type} (f : α → List β) : List α → List (List β)
  | [] => [[]]
  | a :: r => (f a).flatMap fun b => (choices f r).map fun l => b :: l

/-- The writes of a location, by number. -/
def Execution.writers (x : Execution) (l : Nat) : List Nat :=
  x.ids.filter fun i => match x.ev i with
    | some e => e.writes && e.locs.contains l
    | none => false

/-- The executions of some events: every choice of what each read takes, and of the order of each location's writes. -/
def Execution.candidates (x : Execution) : List Execution :=
  let rs := x.ids.flatMap fun i => match x.ev i with
    | some e => if e.reads then e.locs.map fun l => (l, i) else []
    | none => []
  let rfs := choices (fun (p : Nat × Nat) => (none :: ((x.writers p.1).filter (· != p.2)).map some).map fun w => (p.1, p.2, w)) rs
  let cos := choices (fun l => (orders (x.writers l)).map fun o => (l, o)) x.locs
  rfs.flatMap fun rf => cos.map fun co => { x with rf := rf, co := co }

/-- Whether some allowed execution of these events has an outcome. (DESIGN CHOICE, log 4.) -/
def Execution.allows (x : Execution) (outcome : Execution → Bool) : Bool := x.candidates.any fun c => outcome c && c.allowed

end Sys2Proof.Machine.MemOrder
end

