-- ==== Sys2Proof/Machine/Trace.lean ====
section
/-! DEFINITION. From what groups and engines did to an execution of Machine/Ordering.lean: the events of each instruction
(R189), the relations dep, jo and qo (R193, R202), the edges of engines, tasks, counts, barriers and moves (R202 to R208),
and the values that each instruction's description gives its events (R199).
-/

namespace Sys2Proof.Machine.MemOrder

/-! What an instruction did. -/

/-- One access of an instruction: its lane, or none for the scalar unit; the bytes it names, each a location; whether they
are fabric memory; and its data operand and its comparand. -/
structure Touch where
  lane   : Option Nat
  at_    : Nat
  size   : Nat
  fabric : Bool
  data   : Nat
  cmp    : Nat
  deriving DecidableEq, Repr

/-- An instruction as a group executed it: its place in program order (R82); how many beats the group has; its effective
set (R37); its accesses; the value before and after of the mask register that an MSPLIT or MJOIN changes, or the set of a
QFENCE after it; and the location of the binding that it resolves or binds (R237). -/
structure Did where
  gid     : Nat
  seq     : Nat
  ins     : Instr
  beats   : Nat
  lanes   : List Nat
  touches : List Touch
  was     : Nat
  now     : Nat
  binding : Option Nat
  deriving DecidableEq, Repr

/-! Events (R189). -/

/-- What the accesses of an instruction are: their kind, scope and order; none for an instruction without one. -/
def accessKind (i : Instr) : Option (EvKind × Scope × Bool × Bool) :=
  let lane (k : EvKind) (w : LaneWord) : Option (EvKind × Scope × Bool × Bool) :=
    some (k, Scope.ofCode w.scope, acquires w, releases w)
  match i with
  | .ld w => lane .read w
  | .st w | .pst w => lane .write w
  | .atom w | .atomcas w | .fatom w | .red w => lane .rmw w
  | .discard _ => some (.write, .grp, false, false)
  | .sldb _ _ _ | .sldh _ _ _ | .sldw _ _ _ | .sldd _ _ _ | .sldbx _ _ _ | .sldhx _ _ _ | .sldwx _ _ _ =>
    some (.read, .grp, false, false)
  | .sstb _ _ _ | .ssth _ _ _ | .sstw _ _ _ | .sstd _ _ _ => some (.write, .grp, false, false)
  | .satom s _ _ _ _ => some (.rmw, Scope.ofCode s.toNat, false, false)
  | .waita _ _ _ _ => some (.read, .sys, false, false)
  | .walkPost _ _ _ | .summLd _ | .taskAlloc _ _ _ | .taskPub _ _ | .taskSig _ | .taskSpawn _ _ | .taskExit _ =>
    some (.read, .dev, false, false)
  | _ => none

/-- Whether an instruction's accesses are posted stores. -/
def isPosted (i : Instr) : Bool :=
  match i with
  | .pst _ => true
  | _ => false

/-- The locations of so many bytes. -/
def bytesFrom (at_ n : Nat) : List Nat := (List.range n).map (at_ + ·)

/-- The runs of locations that an access accesses at once: 16 bytes of fabric memory are two (R170). -/
def Touch.runs (t : Touch) : List (List Nat) :=
  if t.fabric && t.size = 16 then [bytesFrom t.at_ 8, bytesFrom (t.at_ + 8) 8] else [bytesFrom t.at_ t.size]

/-- The access events of an instruction, each with its access. -/
def Did.accesses (d : Did) : List (Touch × Ev) :=
  match accessKind d.ins with
  | none => []
  | some (k, s, acq, rel) =>
    d.touches.flatMap fun t => t.runs.map fun ls =>
      (t, { agent := .group d.gid, seq := d.seq, kind := k, scope := s, acq := acq, rel := rel, pst := isPosted d.ins, locs := ls })

/-- The order that an instruction without an access gives: FENCE, QFENCE, MSPLIT and MJOIN are events (R189), a count drop and
a publication are releases, a frontier that passes and a wait that returns acquires (R204 to R207). -/
def markOf (d : Did) : Option (EvKind × Scope × Bool × Bool) :=
  match d.ins with
  | .fence s => some (.fence, Scope.ofCode s.toNat, false, false)
  | .qfence _ => some (.qfence (BitVec.ofNat 5 d.now), .grp, false, false)
  | .msplit _ _ | .mjoin _ _ => some (.mark, .grp, false, false)
  | .barArrive _ _ => some (.mark, .clu, false, true)
  | .barWait _ _ | .barTry _ _ _ | .yieldBar _ _ _ => some (.mark, .clu, true, false)
  | .copyq _ _ => some (.mark, .team, false, true)
  | .walkPost _ _ _ | .hndlPark _ | .hndlDone | .taskPub _ _ | .taskSig _ | .taskSpawn _ _ | .taskExit _ | .stampSet _ _
  | .frontDrop _ | .exit => some (.mark, .dev, false, true)
  | .walkStat _ _ | .frontWait _ _ | .frontTest _ _ _ => some (.mark, .dev, true, false)
  | _ => none

/-- The event of a binding: BAR.BIND writes it at .team, and every other instruction that names one reads it (R237). -/
def Did.bound (d : Did) : List Ev :=
  match d.binding with
  | none => []
  | some l =>
    let k : EvKind := match d.ins with
      | .barBind _ _ => .write
      | _ => .read
    [{ agent := .group d.gid, seq := d.seq, kind := k, scope := .team, acq := false, rel := false, pst := false, locs := [l] }]

/-- The events of an instruction (R189): those of one instruction have no order among themselves, and share its place. -/
def Did.events (d : Did) : List Ev :=
  d.accesses.map Prod.snd ++ d.bound ++ match markOf d with
    | none => []
    | some (k, s, acq, rel) =>
      [{ agent := .group d.gid, seq := d.seq, kind := k, scope := s, acq := acq, rel := rel, pst := false, locs := [] }]

/-- Instructions with the number of the first event of each. -/
def numbered : List Did → Nat → List (Nat × Did)
  | [], _ => []
  | d :: r, n => (n, d) :: numbered r (n + d.events.length)

/-! Dependences (R193). -/

/-- What carries a value from one instruction of a group to another, beside the queues. -/
inductive Res where
  | s (r : Nat)
  | flags
  | v (r lane : Nat)
  | p (k lane : Nat)
  | latch (k lane : Nat)
  deriving DecidableEq, Repr

/-- The reads whose values a group's registers, queues and branches were computed from, so far. -/
structure Taint where
  regs : List (Res × List Nat)
  sq   : List (List Nat)
  lq   : List (List Nat)
  fq   : List (List Nat)
  ctl  : List Nat

/-- The reads that some registers were computed from. -/
def Taint.of (t : Taint) (rs : List Res) : List Nat :=
  (rs.flatMap fun r => ((t.regs.find? fun x => x.1 = r).map Prod.snd).getD []).dedup

/-- Registers computed from some reads. -/
def Taint.set (t : Taint) (rs : List Res) (x : List Nat) : Taint :=
  { t with regs := rs.map (fun r => (r, x)) ++ t.regs.filter fun y => !rs.contains y.1 }

/-- What a scalar instruction computes from (its address first, then the rest), and what it computes. -/
structure ScalarFlow where
  addr : List Res
  ins  : List Res
  outs : List Res

/-- The scalar register of a number: s0 carries nothing (R104). -/
def sreg (r : Sreg) : List Res := if r = 0 then [] else [.s r.toNat]

/-- The flow of a scalar instruction (R104 to R126). -/
def scalarFlow (i : Instr) : ScalarFlow :=
  match i with
  | .add d a b | .sub d a b | .and d a b | .or d a b | .xor d a b | .andn d a b | .orn d a b | .xnor d a b | .shl d a b
  | .shr d a b | .sar d a b | .rol d a b | .ror d a b | .mul d a b | .mulh d a b | .mulhu d a b | .div d a b | .divu d a b
  | .rem d a b | .remu d a b | .min d a b | .max d a b | .minu d a b | .maxu d a b | .scadd _ d a b
  | .stampGet d a b | .stampInc d a b => { addr := [], ins := sreg a ++ sreg b, outs := sreg d }
  | .msplit d a | .mjoin d a => { addr := [], ins := sreg d ++ sreg a, outs := sreg d }
  | .sel _ d a b => { addr := [], ins := .flags :: (sreg a ++ sreg b), outs := sreg d }
  | .cmp a b | .tst a b => { addr := [], ins := sreg a ++ sreg b, outs := [.flags] }
  | .cmpi a _ | .cmpui a _ => { addr := [], ins := sreg a, outs := [.flags] }
  | .popc d a | .clz d a | .ctz d a | .brev d a | .addi d a _ | .andi d a _ | .ori d a _ | .xori d a _ | .shli d a _
  | .shri d a _ | .sari d a _ | .muli d a _ | .stampEnter d a | .stampLeave d a => { addr := [], ins := sreg a, outs := sreg d }
  | .sldb d a _ | .sldh d a _ | .sldw d a _ | .sldd d a _ | .sldbx d a _ | .sldhx d a _ | .sldwx d a _ =>
    { addr := sreg a, ins := [], outs := sreg d }
  | .sstb d a _ | .ssth d a _ | .sstw d a _ | .sstd d a _ => { addr := sreg a, ins := sreg d, outs := [] }
  | .satom _ _ d a b => { addr := sreg a, ins := sreg d ++ sreg b, outs := sreg d }
  | .waita _ d a b => { addr := sreg a, ins := sreg d ++ sreg b, outs := sreg d }
  | .walkPost d a _ | .taskSpawn d a | .taskAlloc d a _ => { addr := sreg a, ins := [], outs := sreg d }
  | .taskPub _ a | .summLd a => { addr := sreg a, ins := [], outs := [] }
  | .lih d _ | .addpc d _ | .scrRd d _ | .walkStat d _ | .frontTest d _ _ | .frontHold d _ _ | .rgnOpen d _ | .barArrive _ d
  | .barTry _ d _ | .copyq d _ => { addr := [], ins := [], outs := sreg d }
  | .call _ | .callr _ => { addr := [], ins := [], outs := [.s 60] }
  | _ => { addr := [], ins := [], outs := [] }

/-- What the condition of a branch is computed from: the flags, or the masks in s61 to s63 (R120); an FQ entry is popped
apart. -/
def branchFlow (i : Instr) : List Res :=
  match i with
  | .b cc _ => if cc = 0xE then [] else [.flags]
  | .bm _ sel _ => if sel = 3 then [.s 61, .s 62, .s 63] else [.s (61 + sel.toNat)]
  | _ => []

/-- Whether a lane instruction computes a lane's result from every lane's operands (R147, R156 to R158). -/
def crossesLanes (i : Instr) : Bool :=
  match i with
  | .psum _ | .ptoq _ | .redq _ | .shfl _ | .bcast _ => true
  | _ => false

/-- The registers that one source of a lane instruction reads in some lanes. -/
def sourceFlow (k : SrcKind) (c : BitVec 9) (lanes : List Nat) : List Res :=
  let regs := lanes.flatMap fun l => (k.vregs c).map fun r => Res.v r l
  match k with
  | .pred => lanes.map fun l => Res.p (c.toNat % 8) l
  | .unused | .number _ => []
  | _ =>
    match Operand.ofCode c with
    | .s r => sreg r
    | .latch n => lanes.map fun l => Res.latch n l
    | _ => regs

/-- The registers that give a lane instruction its address, in a lane: those of its base and offset. -/
def laneAddr (i : Instr) (l : Nat) : List Res :=
  match shapeOf i, laneWord? i, accessKind i with
  | some s, some w, some _ => sourceFlow s.a w.a [l] ++ sourceFlow s.b w.b [l]
  | _, _, _ => []

/-- The registers that give a lane instruction its result or its data, in a lane. -/
def laneIns (i : Instr) (lanes : List Nat) (l : Nat) : List Res :=
  match shapeOf i, laneWord? i with
  | some s, some w =>
    let ls := if crossesLanes i then lanes else [l]
    let data := sourceFlow s.c w.c ls ++ sourceFlow s.d w.d ls
    let chosen := match i with
      | .laneSel w => [Res.p (w.sub % 8) l]
      | _ => []
    if (accessKind i).isSome then data else sourceFlow s.a w.a ls ++ sourceFlow s.b w.b ls ++ data ++ chosen
  | _, _ => []

/-- The registers that a lane instruction writes in a lane (R36 to R38). -/
def laneOuts (i : Instr) (l : Nat) : List Res :=
  match shapeOf i, laneWord? i with
  | some s, some w =>
    (destRegs i).map (fun r => Res.v r l)
      ++ (if s.dst = .pred && w.dst.toNat < 7 then [Res.p w.dst.toNat l] else [])
      ++ (if 4 ≤ w.cap.toNat then [Res.latch (w.cap.toNat - 4) l] else [])
  | _, _ => []

/-- The reads among an instruction's access events, for a lane or the scalar unit: its results are computed from them. -/
def Did.readsOf (d : Did) (base : Nat) (lane : Option Nat) : List Nat :=
  (d.accesses.zipIdx.filter fun x => x.1.2.reads && x.1.1.lane = lane).map fun x => base + x.2

/-- A lane instruction's effect on what its group's registers were computed from. -/
def Taint.afterLane (t : Taint) (d : Did) (base : Nat) : Taint :=
  let n := sqNeeds d.ins
  let popped := (t.sq.take n).flatten
  let result (l : Nat) : List Nat :=
    if (accessKind d.ins).isSome then d.readsOf base (some l) else (t.of (laneIns d.ins d.lanes l) ++ popped).dedup
  let t1 := d.lanes.foldl (fun t1 l => t1.set (laneOuts d.ins l) (result l)) t
  let all := (d.lanes.flatMap result).dedup
  { t1 with sq := t.sq.drop n, lq := t.lq ++ List.replicate (lqPushes d.ins d.beats) all,
            fq := t.fq ++ List.replicate (fqPushes d.ins) all }

/-- A scalar instruction's effect on the same. -/
def Taint.afterScalar (t : Taint) (d : Did) (base : Nat) : Taint :=
  let f := scalarFlow d.ins
  let from_ := if (accessKind d.ins).isSome then d.readsOf base none else t.of f.ins
  match d.ins with
  | .sqPush a => { t with sq := t.sq ++ [t.of (sreg a)] }
  | .lqPop r => { t.set (sreg r) (t.lq.headD []) with lq := t.lq.drop 1 }
  | .fqPop r => { t.set (sreg r) (t.fq.headD []) with fq := t.fq.drop 1 }
  | .bf _ _ => { t with ctl := (t.ctl ++ t.fq.headD []).dedup, fq := t.fq.drop 1 }
  | .b _ _ | .bm _ _ _ => { t with ctl := (t.ctl ++ t.of (branchFlow d.ins)).dedup }
  | _ => t.set f.outs from_

/-- The reads that an access of an instruction depends on: its address, its data, and every branch before it. -/
def Taint.into (t : Taint) (d : Did) (x : Touch) : List Nat :=
  match x.lane with
  | some l => t.ctl ++ t.of (laneAddr d.ins l ++ laneIns d.ins d.lanes l) ++ (t.sq.take (sqNeeds d.ins)).flatten
  | none => t.ctl ++ t.of ((scalarFlow d.ins).addr ++ (scalarFlow d.ins).ins)

/-- dep of one group's instructions, in program order. -/
def depFrom : List (Nat × Did) → Taint → List (Nat × Nat)
  | [], _ => []
  | (base, d) :: r, t =>
    let mine := d.accesses.zipIdx.flatMap fun x => (t.into d x.1.1).map fun e => (e, base + x.2)
    let t1 := if (laneWord? d.ins).isSome then t.afterLane d base else t.afterScalar d base
    mine ++ depFrom r t1

/-- The groups of some instructions. -/
def groupsIn (ds : List Did) : List Nat := (ds.map Did.gid).dedup

/-- dep (R193): what each group's accesses depend on. -/
def depOf (ds : List Did) : List (Nat × Nat) :=
  let ns := numbered ds 0
  (groupsIn ds).flatMap fun g => depFrom (ns.filter fun x => x.2.gid = g) { regs := [], sq := [], lq := [], fq := [], ctl := [] }

/-! Divergence and reconvergence (R92, R193). -/

/-- The bits that an MSPLIT takes from a mask register, with the register; none for another instruction. -/
def Did.narrows (d : Did) : Option (Nat × Nat) :=
  match d.ins with
  | .msplit sd _ => if 61 ≤ sd.toNat then some (sd.toNat - 61, d.was &&& (2 ^ 32 - 1 - d.now % 2 ^ 32)) else none
  | _ => none

/-- The bits that an MJOIN gives back to a mask register. -/
def Did.restores (d : Did) : Option (Nat × Nat) :=
  match d.ins with
  | .mjoin sd _ => if 61 ≤ sd.toNat then some (sd.toNat - 61, d.now &&& (2 ^ 32 - 1 - d.was % 2 ^ 32)) else none
  | _ => none

/-- Whether an MJOIN restores bits that an MSPLIT took. -/
def joins (s j : Did) : Bool :=
  match s.narrows, j.restores with
  | some (r, x), some (q, y) => r = q && x &&& y != 0
  | _, _ => false

/-- The accesses of an instruction in the lanes of a mask register. -/
def Did.inBlock (d : Did) (base block : Nat) : List Nat :=
  (d.accesses.zipIdx.filter fun x => (x.1.1.lane.map fun l => l / 32) = some block).map fun x => base + x.2

/-- The accesses of an instruction. -/
def Did.all (d : Did) (base : Nat) : List Nat := (List.range d.accesses.length).map (base + ·)

/-- jo of one group's instructions, in program order. -/
def joFrom : List (Nat × Did) → List (Nat × Nat)
  | [] => []
  | (_, s) :: r =>
    (match r.dropWhile (fun x => !joins s x.2) with
      | [] => []
      | _ :: later =>
        let narrowed := (r.takeWhile fun x => !joins s x.2).flatMap fun x => x.2.inBlock x.1 ((s.narrows.map Prod.fst).getD 0)
        narrowed.flatMap fun a => (later.flatMap fun x => x.2.all x.1).map fun b => (a, b)) ++ joFrom r

/-- jo (R193). -/
def joOf (ds : List Did) : List (Nat × Nat) :=
  let ns := numbered ds 0
  (groupsIn ds).flatMap fun g => joFrom (ns.filter fun x => x.2.gid = g)

/-- The execution of what some groups did, in places, with the events of engines and of agents outside after them, and no
edges of R202 to R208 yet. -/
def Execution.ofTrace (places : List Place) (ds : List Did) (others : List Ev) : Execution :=
  { places := places, evs := ds.flatMap Did.events ++ others, dep := depOf ds, jo := joOf ds, effects := [], rf := [], co := [] }

/-! Events before and after one (R193). -/

/-- The events of an event's agent that stand before it in program order. -/
def Execution.earlier (x : Execution) (i : Nat) : List Nat := x.ids.filter fun j => x.both j i Ev.io

/-- The events of an event's agent that stand after it in program order. -/
def Execution.later (x : Execution) (i : Nat) : List Nat := x.ids.filter fun j => x.both i j Ev.io

/-- The agent of an event. -/
def Execution.agentOf (x : Execution) (i : Nat) : Agent := ((x.ev i).map Ev.agent).getD .host

/-- The edges from some events to others, with a label relative to an agent. -/
def arrows (src dst : List Nat) (s : Scope) (base : Agent) : List Arrow :=
  src.flatMap fun a => dst.map fun b => { src := a, dst := b, scope := s, base := base }

/-! Engine queues (R202). -/

/-- An entry of one of a group's five queues: the queue's bit, the place of the instruction that made it, the entry's first
events and those with which it is performed, its reads and its writes. -/
structure QEntry where
  gid    : Nat
  seq    : Nat
  queue  : Nat
  starts : List Nat
  ends   : List Nat
  reads  : List Nat
  writes : List Nat
  deriving DecidableEq, Repr

/-- A group's own accesses as entries of its queue 0. -/
def ownEntries (x : Execution) : List QEntry :=
  x.ids.filterMap fun i =>
    match x.ev i with
    | some e =>
      match e.agent with
      | .group g =>
        if e.kind = .read || e.kind = .write || e.kind = .rmw then
          some { gid := g, seq := e.seq, queue := 0, starts := [i], ends := [i], reads := [], writes := [] }
        else none
      | _ => none
    | none => none

/-- qo between two entries of one queue, the first published earlier: only copy entries and tasks have one (R202). -/
def queueArrows (x : Execution) (a b : QEntry) : List Arrow :=
  if a.gid != b.gid || a.queue != b.queue then []
  else
    let base : Agent := .group a.gid
    match a.queue with
    | 1 =>
      arrows a.writes b.writes .sys base
        ++ (a.writes.flatMap fun w => (b.reads.filter fun r => x.both w r Ev.overlaps).flatMap fun r => arrows [w] [r] .sys base)
    | 4 => arrows a.writes b.writes .sys base
    | _ => []

/-- The edges that a QFENCE adds between two entries of queues that it names (R202). -/
def qfenceArrows (f : Ev) (a b : QEntry) : List Arrow :=
  match f.kind, f.agent with
  | .qfence set, .group g =>
    if a.gid = g && b.gid = g && a.seq < f.seq && f.seq < b.seq && set.getLsbD a.queue && set.getLsbD b.queue then
      arrows a.ends b.starts (if set.getLsbD 3 then .sys else .dev) (.group g)
    else []
  | _, _ => []

/-- Every pair of entries, the earlier of a list first. -/
def entryPairs : List QEntry → List (QEntry × QEntry)
  | [] => []
  | a :: r => r.map (fun b => (a, b)) ++ entryPairs r

/-- qo (R202): of the entries of engines, as they were published, and the groups' own accesses. -/
def qoOf (x : Execution) (es : List QEntry) : List Arrow :=
  let all := es ++ ownEntries x
  ((entryPairs es).flatMap fun p => queueArrows x p.1 p.2)
    ++ x.evs.flatMap fun f => all.flatMap fun a => all.flatMap fun b => qfenceArrows f a b

/-! Copies, walks, tasks, frontiers, barriers, moves (R203 to R208). -/

/-- A copy-ring entry performed: the publishing release, the entry's reads and writes, its arrival and the completion that
counts it (R203). -/
structure CopyDone where
  pub    : Nat
  reads  : List Nat
  writes : List Nat
  arrive : List Nat
  done   : List Nat
  deriving DecidableEq, Repr

/-- The edges of a copy-ring entry (R203). -/
def CopyDone.edges (x : Execution) (c : CopyDone) : List Arrow :=
  let base := x.agentOf c.pub
  arrows [c.pub] (c.reads ++ c.writes) .team base ++ arrows c.writes c.arrive .sys base ++ arrows c.arrive c.done .sys base

/-- A phase completed: the arrivals of groups that it counts, its completion, and the acquires of it (R207). -/
structure PhaseDone where
  arrivals : List Nat
  done     : Nat
  wakes    : List Nat
  deriving DecidableEq, Repr

/-- The edges of a phase (R207). -/
def PhaseDone.edges (x : Execution) (p : PhaseDone) : List Arrow :=
  (p.arrivals.flatMap fun a => arrows [a] [p.done] .clu (x.agentOf a))
    ++ p.wakes.flatMap fun w => arrows [p.done] [w] .clu (x.agentOf w)

/-- A walk: its post; its events; each HNDL.DONE with the engine's reads, or the freeing of a bank, that follow it; each last
accumulation with the ACC.LDs of the drain it summons; the drains' HNDL.DONEs; its done; and the QFENCEs with bits 0 and 2
and the WALK.STATs that tell the poster of it (R204). -/
structure WalkDone where
  post   : Nat
  events : List Nat
  fills  : List (Nat × List Nat)
  accs   : List (Nat × List Nat)
  drains : List Nat
  done   : Nat
  told   : List Nat
  deriving DecidableEq, Repr

/-- The edges of a walk (R204). -/
def WalkDone.edges (x : Execution) (w : WalkDone) : List Arrow :=
  let base := x.agentOf w.post
  arrows (x.earlier w.post) w.events .dev base
    ++ (w.fills.flatMap fun f => arrows (x.earlier f.1) f.2 .clu (x.agentOf f.1))
    ++ (w.accs.flatMap fun a => arrows [a.1] a.2 .sys base)
    ++ (w.drains.flatMap fun d => arrows (x.earlier d) [w.done] .dev base)
    ++ w.told.flatMap fun q => arrows [w.done] (x.later q) .dev base

/-- A publication or a signal of a task, and the events of the task that it publishes or makes ready (R205). -/
structure TaskDone where
  from_  : Nat
  events : List Nat
  deriving DecidableEq, Repr

/-- The edges of a task (R205). -/
def TaskDone.edges (x : Execution) (t : TaskDone) : List Arrow := arrows (x.earlier t.from_) t.events .dev (x.agentOf t.from_)

/-- What held a count that is dropped (R206): other work, a posted store with its write, a SIGNAL or COPY packet with its
writes, the input hold with the tail release that carried its FRONT packet, or a kernel. -/
inductive Holder where
  | work
  | pst (write : Nat)
  | packet (writes : List Nat)
  | input (release : Nat)
  | kernel
  deriving DecidableEq, Repr

/-- A count dropped at (node, stamp), by an event (R206). -/
structure DropDone where
  holder : Holder
  at_    : Nat
  node   : Nat
  stamp  : Dword
  deriving DecidableEq, Repr

/-- A frontier that passed: the FRONT.WAIT that returned or the FRONT.TEST that reported it met (R206). -/
structure Passed where
  at_   : Nat
  node  : Nat
  stamp : Dword
  deriving DecidableEq, Repr

/-- Whether a frontier covers a drop under the summaries of the context (R206). -/
def covers (sums : List PairSum) (d : DropDone) (p : Passed) : Bool := (summaryIn sums d.node p.node d.stamp).le p.stamp

/-- The edges from a drop to what follows a frontier that covers it (R206): the kernel count's orders no event of a group. -/
def DropDone.edges (x : Execution) (sums : List PairSum) (d : DropDone) (p : Passed) : List Arrow :=
  if !covers sums d p then []
  else
    let after := x.later p.at_
    let base := x.agentOf d.at_
    match d.holder with
    | .work => arrows (x.earlier d.at_) after .dev base
    | .pst w => arrows [w] after .sys base
    | .packet ws => arrows ws after .sys base
    | .input r => arrows (x.earlier r) after .sys base
    | .kernel => []

/-- A group that was saved and resumed, or returned from a handler elsewhere: the events at which it was (R208). -/
structure MoveDone where
  save   : Nat
  resume : Nat
  deriving DecidableEq, Repr

/-- The narrowest scope that contains two cores (R208). -/
def moveScope (a b : Nat) : Scope := if a = b then .grp else if Machine.clusterOf a = Machine.clusterOf b then .clu else .dev

/-- The release and acquire that a move makes, as an event of the group (R208). -/
def moveEv (gid seq a b : Nat) : Ev :=
  { agent := .group gid, seq := seq, kind := .fence, scope := moveScope a b, acq := false, rel := false, pst := false, locs := [] }

/-- The edges of a move (R208). -/
def MoveDone.edges (x : Execution) (m : MoveDone) : List Arrow :=
  arrows (x.earlier m.save) (x.later m.resume) .grp (x.agentOf m.save)

/-- What engines, tasks, counts, barriers and moves did in an execution. -/
structure Deeds where
  sums   : List PairSum
  queue  : List QEntry
  copies : List CopyDone
  phases : List PhaseDone
  walks  : List WalkDone
  tasks  : List TaskDone
  drops  : List DropDone
  passed : List Passed
  moves  : List MoveDone

/-- Nothing done. -/
def Deeds.none : Deeds :=
  { sums := [], queue := [], copies := [], phases := [], walks := [], tasks := [], drops := [], passed := [], moves := [] }

/-- Every edge of R202 to R208. -/
def Deeds.edges (x : Execution) (d : Deeds) : List Arrow :=
  qoOf x d.queue ++ d.copies.flatMap (CopyDone.edges x) ++ d.phases.flatMap (PhaseDone.edges x) ++ d.walks.flatMap (WalkDone.edges x)
    ++ d.tasks.flatMap (TaskDone.edges x) ++ (d.drops.flatMap fun y => d.passed.flatMap fun p => y.edges x d.sums p)
    ++ d.moves.flatMap (MoveDone.edges x)

/-- An execution with the edges of what was done in it. -/
def Execution.with_ (x : Execution) (d : Deeds) : Execution := { x with effects := x.effects ++ d.edges x }

/-! Values (R199). -/

/-- What each event read and wrote, as numbers of its bytes, the lowest first, and what the locations held before. -/
structure Vals where
  got  : List (Nat × Nat)
  put  : List (Nat × Nat)
  init : List (Nat × Nat)

/-- The number that a table gives an event or a location; 0 where it gives none. -/
def lookUp (l : List (Nat × Nat)) (i : Nat) : Nat := ((l.find? fun x => x.1 = i).map Prod.snd).getD 0

/-- The byte of a number at a location of an event. -/
def byteAt (e : Ev) (n l : Nat) : Nat := n / 2 ^ (8 * e.locs.idxOf l) % 256

/-- Whether every read takes the bytes that the write it reads from wrote, or the initial ones (R193). -/
def Execution.readsRight (x : Execution) (v : Vals) : Bool :=
  x.ids.all fun i => match x.ev i with
    | some e => !e.reads || e.locs.all fun l =>
        byteAt e (lookUp v.got i) l = match x.rfOf l i with
          | some w => match x.ev w with
            | some u => byteAt u (lookUp v.put w) l
            | none => 0
          | none => lookUp v.init l
    | none => true

/-- What an atomic writes, of a size in bits, from the value it read and its operands; a compare that fails writes it back
(R116, R178 to R180, R189). -/
def atomicPut (i : Instr) (old data cmp : Nat) : Option Nat :=
  match i with
  | .atom w => some (atomNew w.t w.d.toNat old data % 2 ^ w.t.bits)
  | .atomcas w => some (if old = cmp then data % 2 ^ w.t.bits else old)
  | .fatom w | .red w => some (fatomNew w.t w.d.toNat old data)
  | .satom _ op _ _ _ => some (((satomNew op.toNat (BitVec.ofNat 64 old) (BitVec.ofNat 64 cmp) (BitVec.ofNat 64 data)).map BitVec.toNat).getD old)
  | _ => none

/-- The part of an access's data that one of its runs stores. -/
def Touch.part (t : Touch) (e : Ev) : Nat := t.data / 2 ^ (8 * (e.locs.headD t.at_ - t.at_)) % 2 ^ (8 * e.locs.length)

/-- Whether an event's written value is what its instruction's description gives: a store's data, what an atomic computes;
a DISCARD writes anything (R183, R199). -/
def putRight (d : Did) (t : Touch) (e : Ev) (got put : Nat) : Bool :=
  match d.ins with
  | .discard _ => true
  | _ =>
    if e.kind = .write then put = t.part e
    else if e.kind = .rmw then some put = atomicPut d.ins got t.data t.cmp
    else true

/-- Whether every event's value obeys its instruction's description (R199). -/
def Execution.obeys (x : Execution) (ds : List Did) (v : Vals) : Bool :=
  x.readsRight v && (numbered ds 0).all fun nd => nd.2.accesses.zipIdx.all fun y =>
    putRight nd.2 y.1.1 y.1.2 (lookUp v.got (nd.1 + y.2)) (lookUp v.put (nd.1 + y.2))

/-- R199: the axioms, and every value as its instruction's description gives it. -/
def Execution.allowedWith (x : Execution) (ds : List Did) (v : Vals) : Bool := x.allowed && x.obeys ds v

end Sys2Proof.Machine.MemOrder
end

