-- ==== Sys2Proof/Machine/Litmus.lean ====
section
/-! DEFINITION. The programs of the litmus catalogue (R211 to R231) and of the host's command ring (R421), as events of
Machine/Ordering.lean.

Location 0 is x, 1 is y, 2 is z; a scope that is none stands for the column rlx of R211.
-/

namespace Sys2Proof.Machine.Litmus

open MemOrder

/-- An event of a group with nothing but its place. -/
def plain (g seq : Nat) (kind : EvKind) (locs : List Nat) : Ev :=
  { agent := .group g, seq := seq, kind := kind, scope := .grp, acq := false, rel := false, pst := false, locs := locs }

/-- A relaxed store, and a relaxed load. -/
def st (g seq l : Nat) : Ev := plain g seq .write [l]

def ld (g seq l : Nat) : Ev := plain g seq .read [l]

/-- A store-release and a load-acquire of a scope, relaxed at .grp without one. -/
def stRel (g seq l : Nat) (s : Option Scope) : Ev := { st g seq l with scope := s.getD .grp, rel := s.isSome }

def ldAcq (g seq l : Nat) (s : Option Scope) : Ev := { ld g seq l with scope := s.getD .grp, acq := s.isSome }

/-- A FENCE of a scope; none is no fence, which orders nothing. -/
def fence (g seq : Nat) (s : Option Scope) : Ev :=
  match s with
  | some s => { plain g seq .fence [] with scope := s }
  | none => plain g seq .mark []

/-- An event without a location, with a release or an acquire of a scope. -/
def mark (a : Agent) (seq : Nat) (s : Scope) (acq rel : Bool) : Ev :=
  { agent := a, seq := seq, kind := .mark, scope := s, acq := acq, rel := rel, pst := false, locs := [] }

/-- The placements of R212. -/
inductive Where where
  | oneCore
  | paired
  | oneCluster
  | apart
  deriving DecidableEq, Repr

/-- Parties 0 to 3 placed. -/
def places (w : Where) : List Place :=
  (List.range 4).map fun g => match w with
    | .oneCore => { gid := g, team := 0, cluster := 0 }
    | .paired => { gid := g, team := 0, cluster := 0 }
    | .oneCluster => { gid := g, team := g, cluster := 0 }
    | .apart => { gid := g, team := g, cluster := g }

/-- Events with no dependences and no effects of engines. -/
def test (w : Where) (evs : List Ev) : Execution :=
  { places := places w, evs := evs, dep := [], jo := [], effects := [], rf := [], co := [] }

/-- Which write event r takes location l from. -/
def from_ (l r : Nat) (w : Option Nat) (x : Execution) : Bool := x.rfOf l r = w

/-- Whether a write is the last to a location. -/
def last (l w : Nat) (x : Execution) : Bool := (x.coOf l).getLast? = some w

/-- MP (R212, R213). -/
def mp (w : Where) (rel acq : Option Scope) : Execution := test w [st 0 0 0, stRel 0 1 1 rel, ldAcq 1 0 1 acq, ld 1 1 0]

def mpStale (x : Execution) : Bool := from_ 1 2 (some 1) x && from_ 0 3 none x

/-- SB with fences (R214). -/
def sb (s : Option Scope) : Execution := test .apart [st 0 0 0, fence 0 1 s, ld 0 2 1, st 1 0 1, fence 1 1 s, ld 1 2 0]

/-- SB with a store-release and a load-acquire in the fences' place. -/
def sbRel (s : Option Scope) : Execution := test .apart [stRel 0 0 0 s, plain 0 1 .mark [], ldAcq 0 2 1 s, stRel 1 0 1 s, plain 1 1 .mark [], ldAcq 1 2 0 s]

def sbBoth0 (x : Execution) : Bool := from_ 1 2 none x && from_ 0 5 none x

/-- LB (R215), and LB with data dependences (R216). -/
def lb (s : Option Scope) : Execution := test .apart [ld 0 0 0, stRel 0 1 1 s, ld 1 0 1, stRel 1 1 0 s]

def lbDep : Execution := { test .apart [ld 0 0 0, st 0 1 1, ld 1 0 1, st 1 1 0] with dep := [(0, 1), (2, 3)] }

def lbBoth (x : Execution) : Bool := from_ 0 0 (some 3) x && from_ 1 2 (some 1) x

/-- IRIW (R217). -/
def iriw (s : Option Scope) : Execution := test .apart [st 0 0 0, st 1 0 1, ldAcq 2 0 0 s, ld 2 1 1, ldAcq 3 0 1 s, ld 3 1 0]

def iriwSplit (x : Execution) : Bool := from_ 0 2 (some 0) x && from_ 1 3 none x && from_ 1 4 (some 1) x && from_ 0 5 none x

/-- WRC (R218). -/
def wrc (s : Option Scope) : Execution := test .apart [st 0 0 0, ld 1 0 0, stRel 1 1 1 s, ldAcq 2 0 1 s, ld 2 1 0]

def wrcStale (x : Execution) : Bool := from_ 0 1 (some 0) x && from_ 1 3 (some 2) x && from_ 0 4 none x

/-- 2+2W (R219). -/
def twoTwoW (s : Option Scope) : Execution := test .apart [st 0 0 0, stRel 0 1 1 s, st 1 0 1, stRel 1 1 0 s]

def twoTwoWFirst (x : Execution) : Bool := last 0 0 x && last 1 2 x

/-- CoRR (R220), CoWR (R221) and CoWW (R222: two instructions, or two lanes of one). -/
def coRR (s1 s2 : Scope) : Execution := test .apart [st 0 0 0, { ld 1 0 0 with scope := s1 }, { ld 1 1 0 with scope := s2 }]

def coWR : Execution := test .apart [st 0 0 0, ld 0 1 0, st 1 0 0]

def coWW (lanes : Bool) : Execution := test .apart [st 0 0 0, st 0 (if lanes then 0 else 1) 0]

/-- Two atomics on one location (R223). -/
def atoms (w : Where) (s : Scope) : Execution :=
  test w [{ plain 0 0 .rmw [0] with scope := s }, { plain 1 0 .rmw [0] with scope := s }]

/-- Tearing of 16 bytes, in words 0 to 3 (R224): one event in device memory, two over the fabric. -/
def wide (kind : EvKind) (g : Nat) (fabric : Bool) : List Ev :=
  if fabric then [plain g 0 kind [0, 1], plain g 0 kind [2, 3]] else [plain g 0 kind [0, 1, 2, 3]]

def tearA (fabric : Bool) : Execution := test .apart (wide .write 0 fabric ++ [ldAcq 1 0 0 (some .dev), ld 1 1 3])

def tearB (fabric : Bool) : Execution := test .apart (wide .write 0 fabric ++ wide .read 1 fabric)

/-- Scope transitivity (R225): T0 and T1 are one team on one core, T2 another team in their cluster. -/
def transitive : Execution :=
  { test .apart [st 0 0 0, stRel 0 1 1 (some .team), ldAcq 1 0 1 (some .team), stRel 1 1 2 (some .clu), ldAcq 2 0 2 (some .clu), ld 2 1 0] with
    places := [{ gid := 0, team := 0, cluster := 0 }, { gid := 1, team := 0, cluster := 0 }, { gid := 2, team := 1, cluster := 0 }] }

/-- The copy engine's test (R226, R227): the store to src (x), the COPYQ and T0's arrival, T1's arrival, its wait and its
load of dst (y), the engine's read, write and arrival, the phase's completion, and a later store to src. -/
def copy (waits later : Bool) : Execution :=
  let e : Agent := .copyEngine 0
  (test .paired ([st 0 0 0, mark (.group 0) 1 .team false true, mark (.group 0) 3 .clu false true, mark (.group 1) 0 .clu false true,
      mark (.group 1) 1 .clu waits false, ld 1 2 1, { plain 0 0 .read [0] with agent := e }, { plain 0 0 .write [1] with agent := e },
      mark e 0 .clu false false, mark e 0 .clu false false] ++ if later then [st 0 2 0] else [])).with_
    { Deeds.none with
      copies := [{ pub := 1, reads := [6], writes := [7], arrive := [8], done := [9] }],
      phases := [{ arrivals := [2, 3], done := 9, wakes := if waits then [4] else [] }] }

/-- T1 loads dst as the engine wrote it, and the engine read a given store of src. -/
def copied (w : Option Nat) (x : Execution) : Bool := from_ 1 5 (some 7) x && from_ 0 6 w x

/-- The walk engine's test (R228): d is x, r is y; the poster's store, its post, its QFENCE and its load; the A handler's
load; the drain handler's store; the walk's done; and the drain handler's HNDL.DONE. -/
def walk (m : BitVec 5) : Execution :=
  let tells := m.getLsbD 0 && m.getLsbD 2
  (test .paired [st 0 0 0, mark (.group 0) 1 .dev false true, plain 0 2 (.qfence m) [], ld 0 3 1, ld 1 0 0, st 2 0 1,
      mark (.walkEngine 0) 0 .dev false false, mark (.group 2) 1 .dev false true]).with_
    { Deeds.none with
      queue := [{ gid := 0, seq := 1, queue := 2, starts := [4, 5], ends := [6], reads := [], writes := [] }],
      walks := [{ post := 1, events := [4, 5, 6], fills := [], accs := [], drains := [7], done := 6, told := if tells then [2] else [] }] }

/-- Migration (R208, R229): T1's load, T0's store, its move to another cluster and, after it, its load. -/
def migrated : Execution :=
  (test .apart [ld 1 0 0, st 0 0 0, ld 0 2 0, moveEv 0 1 0 8]).with_ { Deeds.none with moves := [{ save := 3, resume := 3 }] }

/-- Frontiers (R206, R230): T0 stores and exits, dropping its count; T1's FRONT.WAIT covers it and passes, and T1 loads. -/
def frontier : Execution :=
  (test .apart [st 0 0 0, ld 1 1 0, mark (.group 0) 1 .dev false true, mark (.group 1) 0 .dev true false]).with_
    { Deeds.none with
      sums := closureOf [] [1], drops := [{ holder := .work, at_ := 2, node := 0, stamp := 0 }],
      passed := [{ at_ := 3, node := 0, stamp := 0 }] }

/-- A task (R205): T0 stores and publishes it, and T1, which runs it, loads. -/
def task : Execution :=
  (test .apart [st 0 0 0, ld 1 0 0, mark (.group 0) 1 .dev false true]).with_
    { Deeds.none with tasks := [{ from_ := 2, events := [1] }] }

/-- Posted peer stores (R231): a release, or FENCE.sys, between the PST and the store; the observer is a group of the peer. -/
def posted (fenced : Bool) : Execution :=
  let o : Agent := .peer 0
  test .apart [{ st 0 0 0 with scope := .sys, pst := true }, fence 0 1 (if fenced then some .sys else none),
    { st 0 2 1 with scope := .sys, rel := !fenced }, { ldAcq 0 0 1 (some .sys) with agent := o }, { ld 0 1 0 with agent := o }]

def postedStale (x : Execution) : Bool := from_ 1 3 (some 2) x && from_ 0 4 none x

/-! The command ring of the host (R420, R421): location 0 is a slot or a result, location 1 the tail or a completion word. -/

/-- An event of the host. -/
def hostEv (seq : Nat) (kind : EvKind) (l : Nat) (acq rel : Bool) : Ev :=
  { agent := .host, seq := seq, kind := kind, scope := .sys, acq := acq, rel := rel, pst := false, locs := [l] }

/-- The host writes a command and then the tail, as a release or relaxed (H1 and H3); the group's WAITA reads the tail, a
FENCE.sys follows, and it reads the command. -/
def command (released : Bool) : Execution :=
  test .apart [hostEv 0 .write 0 false false, hostEv 1 .write 1 false released, { ld 0 0 1 with scope := .sys },
    fence 0 1 (some .sys), ld 0 2 0]

/-- The tail as the host wrote it, and the slot as it was before. -/
def commandStale (x : Execution) : Bool := from_ 1 2 (some 1) x && from_ 0 4 none x

/-- The group stores a result, or an earlier completion word, and after a FENCE.sys a completion word; the host reads the
completion word, as an acquire or relaxed, and then the result. -/
def completion (acquired : Bool) : Execution :=
  test .apart [st 0 0 0, fence 0 1 (some .sys), st 0 2 1, hostEv 0 .read 1 acquired false, hostEv 1 .read 0 false false]

/-- The completion word as the group wrote it, and the result as it was before. -/
def completionStale (x : Execution) : Bool := from_ 1 3 (some 2) x && from_ 0 4 none x

/-- The same with the host reading the result first. -/
def resultFirst : Execution :=
  test .apart [st 0 0 0, fence 0 1 (some .sys), st 0 2 1, hostEv 0 .read 0 true false, hostEv 1 .read 1 false false]

/-- The result as the group wrote it, and the completion word as it was before. -/
def resultEarly (x : Execution) : Bool := from_ 0 3 (some 0) x && from_ 1 4 none x

end Sys2Proof.Machine.Litmus
end

