-- ==== Sys2Proof/Safety.lean ====
section
/-! DEFINITION. What counts as a safe run, in the terms that claims use: a step that goes on, a state whose memory is
canonical, and management settings in their ranges.
-/

namespace Sys2Proof

open Machine

/-- A step, or an instruction, that answers a next state. -/
def GoesOn (o : Host.Outcome State Fault Refusal) : Prop := ∃ t, o = .next t

/-- Memory in its canonical form. -/
def MemoryCanonical (s : State) : Prop := Memory.wf s.m.mem = true

/-- The settings of Fjarul in their ranges (R428 to R430): every die's test interval, the budget period and the power
cap. -/
def SettingsInRange (g : Mgmt) : Prop :=
  (∀ i ∈ g.interval.toList, 2 ^ 20 ≤ i ∧ i ≤ 2 ^ 40) ∧ (2 ^ 10 ≤ g.period ∧ g.period ≤ 2 ^ 24)
    ∧ (1000 ≤ g.cap ∧ g.cap ≤ 3200)

/-- Every keyed collection of the module has strictly rising keys. -/
def MapsRise (m : Mach) : Prop :=
  amapWf m.groups = true ∧ amapWf m.teams = true ∧ amapWf m.slots = true ∧ amapWf m.kerns = true ∧ amapWf m.walks = true
    ∧ amapWf m.summons = true ∧ amapWf m.engines = true ∧ amapWf m.cores = true ∧ amapWf m.clusters = true ∧ amapWf m.dies = true
    ∧ amapWf m.ctxs = true ∧ amapWf m.psts = true ∧ amapWf m.queues = true ∧ amapWf m.feat = true ∧ amapWf m.touched = true
    ∧ amapWf m.flitBudget = true ∧ amapWf m.tileBudget = true

/-- What an open region has saved of the v registers: rising keys, of registers in its mask (R322). -/
def Region.SavedInMask (r : Region) : Prop :=
  amapWf r.vregs = true ∧ ∀ kv ∈ r.vregs, r.mask.getLsbD (kv.1 / 128 / 16) = true

/-- Every entry that a group holds for its lane issue queue, in it, set aside or issued in a chain, is a lane instruction
(R83). -/
def Group.QueuesLanes (g : Group) : Prop :=
  ∀ e ∈ g.qs.liq ++ (g.aside.map Queues.liq).getD [] ++ (g.chain.map Chain.issued).getD [], ∀ i, e.ins = some i →
    (laneWord? i).isSome = true

/-- The form that every step keeps: memory canonical, keyed collections rising, lane instructions alone in the lane issue
queues, and the fields of LNKSTAT in their widths (R410). -/
def Kept (s : State) : Prop :=
  MemoryCanonical s ∧ MapsRise s.m ∧ (∀ kc ∈ s.m.ctxs, amapWf kc.2.pool = true)
    ∧ (∀ kg ∈ s.m.groups, Group.QueuesLanes kg.2 ∧ amapWf kg.2.v = true ∧ ∀ r ∈ kg.2.rgn, Region.SavedInMask r)
    ∧ ∀ p ∈ s.m.ports.toList, p.cause < 16 ∧ p.replay < 2 ^ 16 ∧ p.tmo < 2 ^ 16 ∧ p.lost < 2 ^ 16

/-- The numbers of groups and teams have been given out before, so that a new one names nothing (R353).
(DESIGN CHOICE, log 5.) -/
def NumbersFresh (m : Mach) : Prop :=
  (∀ kg ∈ m.groups, kg.1 < m.nextId ∧ kg.2.team < m.nextId) ∧ ∀ kt ∈ m.teams, kt.1 < m.nextId

/-! Words that the statements share. -/

/-- The current group is gid, and g is its record. -/
def Here (s : State) (gid : Nat) (g : Group) : Prop := s.m.cur = gid ∧ s.m.grp? gid = some g

/-- An instruction answers a next state, of which something holds. -/
def Completes (i : Instr) (s : State) (post : State → Prop) : Prop := ∃ t, exec i s = .next t ∧ post t

/-- The frame of an instruction that touches one group alone: nothing else of the state differs (no other group, no team,
no kernel, no context, no special register of a unit, no management setting), and every byte of memory reads as before. -/
def OnlyGroup (s t : State) (gid : Nat) : Prop :=
  t = { s with m := { s.m with groups := t.m.groups } } ∧ (∀ k, k ≠ gid → t.m.grp? k = s.m.grp? k)
    ∧ ∀ l, readByte t.m l = readByte s.m l

/-- The signature after an instruction of a given fold code (R336): it is folded where the group is not Trapped and no lane
instruction taken earlier is still to be folded before it. -/
def Folded (g g' : Group) (code : Dword) : Prop :=
  (g.isTrapped → g'.sig = g.sig) ∧ (¬ g.isTrapped → g.sigq = [] → g'.sig = (g.sig.rotateLeft 5) ^^^ code)

/-- How a scalar instruction completes (R81, R106): g1 is the group with what the instruction itself wrote, and every other
field of its record is as before, but that it goes on at pc, that it is Ready if it waited and nothing of its wait or its
accesses is left, and its signature. -/
def ScalarDone (g1 g' : Group) (pc code : Dword) : Prop :=
  g' = { g1 with spc := pc, st := g1.st.woken, sig := g'.sig, sigq := g'.sigq, readyAt := g'.readyAt, stuck := false,
                 waitedFrom := none, bar := none, fabric := .none, flight := none, posting := g1.posting.filter fun p => p.spc != g1.spc }
  ∧ Folded g1 g' code

/-- An instruction of the current group that writes one scalar register and goes on to the next one: sd reads x after it,
unless it is s0, every other register is as before, no flag changes, and nothing outside the group does (R104 to R106). -/
def WritesReg (i : Instr) (s : State) (gid : Nat) (g : Group) (sd : Sreg) (x : Dword) (code : Dword) : Prop :=
  Completes i s fun t => OnlyGroup s t gid ∧ ∃ g', t.m.grp? gid = some g'
    ∧ (∀ r, g'.s r = if r = sd ∧ sd ≠ 0 then x else g.s r)
    ∧ ScalarDone { g with regs := g'.regs } g' (g.spc + 4) code

/-- An instruction of the current group that completes, leaving the group as g1 and going on at pc, and changes nothing
outside its group. -/
def Leaves (i : Instr) (s : State) (gid : Nat) (g1 : Group) (pc code : Dword) : Prop :=
  Completes i s fun t => OnlyGroup s t gid ∧ ∃ g', t.m.grp? gid = some g' ∧ ScalarDone g1 g' pc code

/-- An instruction of the current group that completes, leaving the group as g1 and going on at pc, in a module that is m1
but for the group's record: what the instruction does besides is the difference between m1 and the module before. -/
def LeavesIn (i : Instr) (s : State) (gid : Nat) (m1 : Mach) (g1 : Group) (pc code : Dword) : Prop :=
  ∃ g', exec i s = .next { s with m := m1.setGrp gid g' } ∧ ScalarDone g1 g' pc code

/-- The current group traps with a cause at the instruction, reporting no address (R123, R367). -/
def Traps (i : Instr) (s : State) (gid : Nat) (cause : Cause) : Prop :=
  exec i s = .next { s with m := scalarTrap s.m gid cause }

/-- A group whose instruction waits: Waiting, unless it is in a trap handler, where it stays and tries again (R81). -/
def heldGroup (g : Group) (why : WaitWhy) : Group :=
  if g.isTrapped then { g with stuck := true } else { g with st := .waiting why }

/-- The current group's instruction waits: nothing changes but that the group is held. -/
def Waits (i : Instr) (s : State) (gid : Nat) (g : Group) : Prop :=
  exec i s = .next { s with m := s.m.setGrp gid (heldGroup g .retry) }

/-- An instruction of the current group that writes one scalar register with a value of which something holds. -/
def Yields (i : Instr) (s : State) (gid : Nat) (g : Group) (sd : Sreg) (code : Dword) (p : Dword → Prop) : Prop :=
  ∃ x, p x ∧ WritesReg i s gid g sd x code

/-! Lane instructions. -/

/-- The head of the current group's lane issue queue is the entry e of the instruction i, it traps for no reason of its own,
it lacks no queue entry or slot (R86), and the group has at most the 96 lanes that R22 gives it. -/
def Issues (s : State) (gid : Nat) (g : Group) (e : LiqEntry) (i : Instr) : Prop :=
  Here s gid g ∧ g.qs.liq.head? = some e ∧ e.bad = none ∧ g.blockedOn i = false ∧ g.width ≤ 96

/-- The frame of a lane instruction that touches its group and its core alone: nothing else of the state differs but the
counter of free values, and every byte of memory reads as before, unless it lies in a live log area, where every read is
indeterminate (R325). -/
def OnlyGroupAndCore (s t : State) (gid core : Nat) : Prop :=
  t = { s with m := { s.m with groups := t.m.groups, cores := t.m.cores, free := t.m.free } }
    ∧ (∀ k, k ≠ gid → t.m.grp? k = s.m.grp? k) ∧ (∀ k, k ≠ core → t.m.core k = s.m.core k)
    ∧ ∀ l, (∀ a, l = .spad a → logAt s.m a = false) → readByte t.m l = readByte s.m l

/-- A core after a lane instruction of the group gid has issued (R39, R94, R99). -/
def coreAfter (c : Core) (gid : Nat) (g : Group) (i : Instr) (w : LaneWord) : Core :=
  { c with cyc := c.cyc + g.beats, chainOf := if w.stick then some gid else none,
           yielded := if w.yield && !w.stick then some gid else none,
           memset := if isMemory i then aput c.memset gid c.cyc else c.memset }

/-- How a lane instruction completes (R40, R86, R336): g1 is the group g with what the instruction itself wrote (its queues
before the instruction leaves them), and every other field of its record is as before, but that the entry e and the SQ
entries it pops are gone, that a stick chain holds it, the signature at its place, and the cycles up to which the registers
that it writes await their results. -/
def LaneDone (i : Instr) (w : LaneWord) (g g1 g' : Group) (e : LiqEntry) (cyc : Nat) : Prop :=
  g' = { g1 with sig := g'.sig, sigq := g'.sigq, chain := g'.chain, issuedAt := cyc, fabric := .none, flight := none,
                 ready := g'.ready,
                 qs := { g1.qs with liq := g1.qs.liq.drop 1, sq := g1.qs.sq.drop (sqNeeds i) } }
  ∧ (∀ r, r ∉ destRegs i → aget g'.ready r = aget g1.ready r)
  ∧ (w.stick = false → g'.chain = none)
  ∧ (w.stick = true → ∃ c, g'.chain = some c ∧ c.issued = (g.chain.getD Chain.empty).issued ++ [{ e with inject := none }]
      ∧ c.popped = (g.chain.getD Chain.empty).popped ++ g.qs.sq.take (sqNeeds i))
  ∧ (e.fold = false → g'.sig = g.sig ∧ g'.sigq = g.sigq)
  ∧ (e.fold = true → g.sigq = [.hole] →
      g'.sig = (g.sig.rotateLeft 5) ^^^ laneCode (laneOpcode i).toNat w.ty.toNat ∧ g'.sigq = [])

/-- A lane instruction that completes, leaving the group as g1, of which more holds then, and changing nothing else. -/
def LaneLeaves (i : Instr) (w : LaneWord) (s : State) (gid : Nat) (g : Group) (e : LiqEntry) (g1 : Group)
    (more : Group → Prop) : Prop :=
  Completes i s fun t => OnlyGroupAndCore s t gid g.core ∧ t.m.core g.core = coreAfter (s.m.core g.core) gid g i w
    ∧ ∃ g', t.m.grp? gid = some g' ∧ LaneDone i w g g1 g' e (s.m.core g.core).cyc ∧ more g'

/-- Whether lane l is in the effective set of an entry: in the mask it sampled, and passing both guards (R37). -/
def effective (g : Group) (e : LiqEntry) (w : LaneWord) (l : Nat) : Prop :=
  l < g.width ∧ (e.mask (l / 32)).getLsbD (l % 32) = true
    ∧ (g.pred (w.g1.toNat % 8) l != w.g1.getLsbD 3) = true ∧ (g.pred (w.g2.toNat % 8) l != w.g2.getLsbD 3) = true

/-- The group g1 is g with results of n registers written: in each lane l of the effective set the value f l to the register
that the word names and those after it, unless it names none; every other register keeps its value and its check; the sticky
flags gather the conditions of those lanes (R36 to R38, R73). -/
def Wrote (g g1 : Group) (e : LiqEntry) (w : LaneWord) (n : Nat) (f : Nat → Nat × FFlags) : Prop :=
  g1 = { g with v := g1.v, chk := g1.chk, fpstat := g1.fpstat }
  ∧ (∀ r l, l < 128 → w.dst.toNat < 256 → effective g e w l → w.dst.toNat ≤ r → r < w.dst.toNat + n →
      g1.vreg r l = BitVec.ofNat 32 ((f l).1 / 2 ^ (32 * (r - w.dst.toNat)))
      ∧ (w.shadowed = false → aget g1.chk (r * 128 + l) = none))
  ∧ (∀ r l, l < 128 → ¬ (w.dst.toNat < 256 ∧ effective g e w l ∧ w.dst.toNat ≤ r ∧ r < w.dst.toNat + n) →
      g1.vreg r l = g.vreg r l ∧ aget g1.chk (r * 128 + l) = aget g.chk (r * 128 + l))
  ∧ ∃ fl : FFlags, g1.fpstat = g.fpstat ||| fl.word ∧ (fl.ov = true ↔ ∃ l, effective g e w l ∧ (f l).2.ov = true)
    ∧ (fl.dz = true ↔ ∃ l, effective g e w l ∧ (f l).2.dz = true)
    ∧ (fl.iv = true ↔ ∃ l, effective g e w l ∧ (f l).2.iv = true)

/-- The latch that the word captures into holds, in the chain that goes on, the results of the lanes of the effective
set (R38). -/
def Captured (g g' : Group) (e : LiqEntry) (w : LaneWord) (f : Nat → Nat × FFlags) : Prop :=
  w.stick = true → 4 ≤ w.cap.toNat → ∃ c, g'.chain = some c
    ∧ ∀ l, effective g e w l → aget c.latches ((w.cap.toNat - 4) * 128 + l) = some (BitVec.ofNat 64 (f l).1)

/-- The registers that an instruction reads in some lanes have no check that fails (R334). -/
def ReadsPass (i : Instr) (g : Group) (lanes : List Nat) : Prop := g.readFails (sourceRegs i) lanes = false

/-- A lane instruction that computes in each lane of its effective set a result of n registers and conditions, of which P
holds, completes with them written and captured, and with nothing else changed. -/
def LaneWrites (i : Instr) (w : LaneWord) (s : State) (gid : Nat) (g : Group) (e : LiqEntry) (n : Nat)
    (P : Nat → Nat → FFlags → Prop) : Prop :=
  ∃ f : Nat → Nat × FFlags, (∀ l, effective g e w l → P l (f l).1 (f l).2)
    ∧ ∃ g1, Wrote g g1 e w n f ∧ LaneLeaves i w s gid g e g1 fun g' => Captured g g' e w f

/-- `LaneWrites` for a well-formed instruction that issues, with no check of what it reads in its lanes failing. -/
def LaneComputes (i : Instr) (w : LaneWord) (s : State) (gid : Nat) (g : Group) (e : LiqEntry) (n : Nat)
    (P : Nat → Nat → FFlags → Prop) : Prop :=
  i.wf = true → Issues s gid g e i → ReadsPass i g (laneIn s.m g e i w).lanes → LaneWrites i w s gid g e n P

/-- A well-formed lane instruction that computes a predicate in each lane of its effective set completes with it written to
the predicate that the word names, unless that is p7, and with nothing else changed but the sticky flags (R37, R144, R145). -/
def LaneDecides (i : Instr) (w : LaneWord) (s : State) (gid : Nat) (g : Group) (e : LiqEntry)
    (P : Nat → Bool → FFlags → Prop) : Prop :=
  i.wf = true → Issues s gid g e i → ReadsPass i g (laneIn s.m g e i w).lanes →
  ∃ f : Nat → Bool × FFlags, (∀ l, effective g e w l → P l (f l).1 (f l).2)
    ∧ ∃ g1, g1 = { g with preds := g1.preds, fpstat := g1.fpstat }
      ∧ (∀ l, w.dst.toNat < 7 → effective g e w l → g1.pred w.dst.toNat l = (f l).1)
      ∧ (∀ k l, l < 96 → ¬ (k = w.dst.toNat ∧ effective g e w l) → g1.pred k l = g.pred k l)
      ∧ (∃ fl : FFlags, g1.fpstat = g.fpstat ||| fl.word ∧ (fl.iv = true ↔ ∃ l, effective g e w l ∧ (f l).2.iv = true)
        ∧ (fl.ov = true ↔ ∃ l, effective g e w l ∧ (f l).2.ov = true)
        ∧ (fl.dz = true ↔ ∃ l, effective g e w l ∧ (f l).2.dz = true))
      ∧ LaneLeaves i w s gid g e g1 fun _ => True

/-- The same, in a module that is m1 but for the group's record, its core and the counter of free values: what the
instruction does besides is the difference between m1 and the module before. -/
def LaneLeavesIn (i : Instr) (w : LaneWord) (s : State) (gid : Nat) (m1 : Mach) (g : Group) (e : LiqEntry) (g1 : Group)
    (more : Group → Prop) : Prop :=
  ∃ g' fr, exec i s = .next { s with m :=
      { (m1.setGrp gid g').setCore g.core (coreAfter (m1.core g.core) gid g i w) with free := fr } }
    ∧ LaneDone i w g g1 g' e (m1.core g.core).cyc ∧ more g'

/-! Memory. -/

/-- Nothing differs but what the caches hold and the counter of free values: the L1s, the TLBs and the walk caches. -/
def OnlyCaches (m m' : Mach) : Prop :=
  m' = { m with cores := m'.cores, clusters := m'.clusters, dies := m'.dies, free := m'.free }

/-- Whether n bytes from a location are ordinary memory of the module, each holding what was last written: no live barrier
slot, copy-ring header, live log area or work queue (R233, R242, R325, R355). -/
def plainAt (m : Mach) (l : Loc) (n : Nat) : Prop :=
  match l with
  | .dev pa => pa + n ≤ devTop
  | .arm _ => True
  | .chip a => workQueueAt m a = none
  | .spad a => ∀ k, k < n → aget m.slots ((a + k) / 16 * 16) = none ∧ ringAt m (a + k) = none ∧ logAt m (a + k) = false
  | .ext _ _ => False

/-- Whether no live log area holds a location, where every read is indeterminate (R325). -/
def unlogged (m : Mach) (l : Loc) : Prop := ∀ a, l = .spad a → logAt m a = false

/-- The frame of memory: every byte whose place is none of some stored ones reads as before, unless it lies in a live log
area, where every read is indeterminate (R325). -/
def SameOutside (m m' : Mach) (stored : Nat → Prop) : Prop :=
  ∀ l, ¬ stored l.key → unlogged m l → readByte m' l = readByte m l

/-- Some bytes are stored at a location, and every other byte of memory reads as before. -/
def StoredAt (m m' : Mach) (l : Loc) (bs : List Byte) : Prop :=
  (∀ k b, bs[k]? = some b → readByte m' (l.plus k) = b)
    ∧ SameOutside m m' fun key => ∃ k, k < bs.length ∧ key = (l.plus k).key

/-- The bytes of a number, lowest first (R5). -/
def bytesOf (n x : Nat) : List Byte := (List.range n).map fun k => BitVec.ofNat 8 (x / 2 ^ (8 * k))

/-- The number that bytes make, lowest first (R5). -/
def numberOf : List Byte → Nat
  | [] => 0
  | b :: r => b.toNat + 256 * numberOf r

/-- The virtual address at which an access of a lane is translated, if it is: its own, or the one that the lane-private
window stands for (R161, R162). -/
def translatedAt (m : Mach) (g : Group) (lane va : Nat) : Option Nat :=
  if isLocal va = false then some va
  else if 0x100 ≤ bits va 32 16 then privateVa m g lane (va - 0x00FF010000000000) else none

/-- Where the leaf entry that a walk finds for an address stands in device memory (R386, R388). -/
def leafEntry (m : Mach) (core ctx va : Nat) : Option Nat :=
  match (aget m.ctxs ctx).bind Context.root with
  | none => none
  | some root =>
    match walkTables m ctx va (startOf m (dieOf core) ctx va root).1 (startOf m (dieOf core) ctx va root).2 [] with
    | .ok (t, _) => some t.pteAt
    | .error _ => none

/-- Looking an address up changes what the caches of translations hold and the counter of free values, and sets a, or a and
d, in the leaf entry of the address, if it is translated; every other byte of memory reads as before (R388, R389). -/
def LookedUp (m m' : Mach) (core ctx : Nat) (va : Option Nat) : Prop :=
  m' = { m with mem := m'.mem, indet := m'.indet, touched := m'.touched, cores := m'.cores, clusters := m'.clusters,
                dies := m'.dies, free := m'.free }
    ∧ (∀ c, m'.core c = { m.core c with tlb := (m'.core c).tlb }) ∧ (∀ c, m'.cluster c = { m.cluster c with tlb := (m'.cluster c).tlb })
    ∧ (∀ d, m'.die d = { m.die d with wcache := (m'.die d).wcache })
    ∧ ∀ l, unlogged m l → readByte m' l = readByte m l ∨ ∃ v pa, va = some v ∧ leafEntry m core ctx v = some pa ∧ l = .dev pa
        ∧ (readByte m' l = readByte m l ||| 0x20 ∨ readByte m' l = readByte m l ||| 0x60)

/-- Several addresses looked up one after another. -/
def LookedUpAll (core ctx : Nat) : List (Option Nat) → Mach → Mach → Prop
  | [], m, m' => m' = m
  | va :: r, m, m' => ∃ m1, LookedUp m m1 core ctx va ∧ LookedUpAll core ctx r m1 m'

/-- What a load may give: each byte as it stands in memory or, of device memory at a scope that allows it, as the core's L1
held it (R168, R176); a byte of a live log area is indeterminate (R325). -/
def MayLoad (m : Mach) (g : Group) (l : Loc) (s : Scope) (bs : List Byte) : Prop :=
  ∀ k b, bs[k]? = some b → b = readByte m (l.plus k)
    ∨ (∃ pa, l = .dev pa ∧ mayHit m g s = true ∧ aget (m.core g.core).l1 (pa + k) = some b) ∨ ¬ unlogged m (l.plus k)

/-- What a load may leave: nothing differs but the L1 of its core and the counter of free values. -/
def OnlyL1 (m m' : Mach) (core : Nat) : Prop :=
  m' = { m with cores := m'.cores, free := m'.free } ∧ (∀ c, c ≠ core → m'.core c = m.core c)
    ∧ m'.core core = { m.core core with l1 := (m'.core core).l1 }

/-- What an access to plain memory may leave: nothing differs but memory, the L1 of its core, the counter of free values,
and the task pools, where it stores to one (R361). -/
def OnlyMemory (m m' : Mach) (core : Nat) : Prop :=
  m' = { m with mem := m'.mem, indet := m'.indet, touched := m'.touched, cores := m'.cores, ctxs := m'.ctxs, free := m'.free }
    ∧ (∀ c, c ≠ core → m'.core c = m.core c) ∧ m'.core core = { m.core core with l1 := (m'.core core).l1 }

/-- Some accesses of a group sent over the fabric (R411, R414): each is outstanding on its port, and keeps the route table as
it was sent; of those of 16 bytes a half may have been performed early (R170). -/
def SentOver (g g' : Group) (m : Mach) (ports : List Nat) : Prop :=
  ∃ f, g' = { g with fabric := Fabric.sent ports, flight := some f } ∧ f.routes = m.routes

/-- An instruction whose access leaves through a port: it is sent, and outstanding until it completes or is ended (R414). -/
def CrossesFabric (i : Instr) (s : State) (gid : Nat) (g : Group) (m1 : Mach) (p : Nat) : Prop :=
  (g.fabric = .none → ∃ g', SentOver g g' m1 [p] ∧ exec i s = .next { s with m := { m1.setGrp gid g' with free := m1.free + 1 } })
    ∧ ∀ ws lost, g.fabric = .pending ws lost → exec i s = .next { s with m := m1 }

/-- A lane instruction whose accesses leave through ports: they are sent together, and outstanding until all have completed or
ended (R414).  A half of one of 16 bytes may be performed as it is sent (R170); the module's own memory reads as before. -/
def SendsLanes (i : Instr) (s : State) (gid : Nat) (g : Group) (m1 : Mach) (size : Nat) (ports : List Nat) : Prop :=
  (g.fabric = .none → ∃ g', SentOver g g' m1 ports
    ∧ (size < 16 → exec i s = .next { s with m := { m1.setGrp gid g' with free := m1.free + 1 } })
    ∧ (size = 16 → Completes i s fun t => t.m.grp? gid = some g'
        ∧ ∀ l, l.key < 2 ^ 60 → unlogged m1 l → readByte t.m l = readByte m1 l))
    ∧ ∀ ws lost, g.fabric = .pending ws lost → exec i s = .next { s with m := m1 }

/-- Accesses of lanes performed one after another: P says what one does. -/
def InTurn (P : Mach → LaneAccess → Nat → Mach → Prop) : List (LaneAccess × Nat) → Mach → Mach → Prop
  | [], m, m' => m' = { m with free := m'.free }
  | (a, v) :: r, m, m' => ∃ m1, P m a v m1 ∧ InTurn P r m1 m'

/-- The module with the L1 of a core invalidated (R169). -/
def invalidated (m : Mach) (core : Nat) : Mach := m.setCore core { m.core core with l1 := [] }

/-- The bindings that a group's team has replaced, as an acquire of the group leaves them: what has been released since, it
sees no more (R237). -/
def seenBinds (t : Team) (g : Group) : Team :=
  { t with olds := t.olds.map fun o => if o.released then { o with seen := originOf g :: o.seen } else o }

/-- The module after an acquire of a group at .team: what its team has rebound it sees so (R237). -/
def boundSeen (m : Mach) (g : Group) : Mach :=
  match aget m.teams g.team with
  | some t => if t.olds = [] then m else m.setTeam g.team (seenBinds t g)
  | none => m

/-- The module after an acquire of a group at .clu or wider: the L1 of its core is invalidated as well (R169). -/
def acquired (m : Mach) (g : Group) : Mach := invalidated (boundSeen m g) g.core

/-- What a name of a group's team stands for as the group resolves it (R236, R237): its binding, or, where another group has
replaced a binding and the group has not come to see that, any of the two. (DEDUCED, log 68.) -/
def resolution (m : Mach) (t : Team) (g : Group) (name : Nat) : Option Nat :=
  let l := t.resolutions (originOf g) name
  (l[m.pick l.length]?).bind id

/-- A name of the group's team stands for a live slot b, off bytes into the share, whose bytes stand at key (R236). -/
def Named (m : Mach) (g : Group) (name off key : Nat) (b : BSlot) : Prop :=
  ∃ t, aget m.teams g.team = some t ∧ resolution m t g name = some off ∧ key = t.share + off ∧ aget m.slots key = some b

/-- A group waits on the slot off bytes into its team's share: at a BAR.WAIT, or for the phase of a YIELD.BAR, also one that a
trap set aside (R235, R253). -/
def WaitsOn (g : Group) (off : Nat) : Prop :=
  (∃ p, g.bar = some (.on off p)) ∨ (∃ p, g.st = .waiting (.phase off p))
    ∨ ((∀ o p, g.st ≠ .waiting (.phase o p)) ∧ ∃ p, g.asideWait = some (.phase off p))

/-- What the end of a phase of a slot, off bytes into the share of a team, does to a group (R234, R253): of the team's
groups a BAR.WAIT on the slot is over, in a handler too, and the continuation of a YIELD.BAR on it is resumed, or is gone
where a trap has set it aside; a group that waited is Ready at cycle now of its core. Every other group is as before. -/
def WokenBy (tid off now : Nat) (g g1 : Group) : Prop :=
  let waits := ∃ p, g.bar = some (.on off p)
  let goesOn := (∃ p, g.st = .waiting (.phase off p)) ∨ ((∀ o p, g.st ≠ .waiting (.phase o p)) ∧ ∃ p, g.asideWait = some (.phase off p))
  (g.team ≠ tid ∨ (¬ waits ∧ ¬ goesOn) → g1 = g)
    ∧ g1 = { g with bar := g1.bar, st := g1.st, readyAt := g1.readyAt, stuck := g1.stuck, asideWait := g1.asideWait }
    ∧ (g.team = tid → waits → g1.bar = some .over)
    ∧ (g.team = tid → waits → (∃ n, g.st = .waiting (.barrier n)) → g1.st = .ready ∧ g1.readyAt = now)
    ∧ (g.team = tid → waits → (∀ n, g.st ≠ .waiting (.barrier n)) → g1.stuck = false ∧ (¬ goesOn → g1.st = g.st ∧ g1.readyAt = g.readyAt))
    ∧ (g.team = tid → goesOn → (∃ y, g.st = .waiting y) → ¬ waits → g1 = { g with st := .ready, readyAt := now })
    ∧ (g.team = tid → goesOn → (∀ y, g.st ≠ .waiting y) → g1.asideWait = none ∧ g1.st = g.st)

/-- A slot has been updated to b at its bank and its completion evaluated. The phase ends where every arrival is in and,
if the copy engine is a member, no byte is owed (R234): then what waits on the slot is woken, a continuation acquiring on
its core as it is resumed, the team's pipeline depth may move and the context's no-progress count restarts (R255, R377).
Every byte outside the slot reads as before. -/
def SlotUpdated (m m1 : Mach) (key : Nat) (b : BSlot) : Prop :=
  let ends := b.arr = b.mem ∧ (b.cm = false ∨ b.pend = 0)
  (¬ ends → m1 = { m with slots := aput m.slots key b })
    ∧ (ends → aget m1.slots key = some { b with phase := (b.phase + 1) % 2 ^ 30, arr := 0, pend := b.xbytes })
    ∧ (∀ k, k ≠ key → aget m1.slots k = aget m.slots k)
    ∧ m1 = { m with slots := m1.slots, groups := m1.groups, cores := m1.cores, teams := m1.teams, ctxs := m1.ctxs, free := m1.free }
    ∧ (aget m.teams b.team = none → m1 = { m with slots := m1.slots })
    ∧ (∀ k, k ≠ b.team → aget m1.teams k = aget m.teams k)
    ∧ (∀ t, aget m.teams b.team = some t →
        (∃ u, aget m1.teams b.team = some u ∧ u =
          { t with depth := u.depth, dmin := u.dmin, dmax := u.dmax, limits := u.limits, timed := u.timed, lats := u.lats, olds := u.olds })
        ∧ (ends → amapWf m.groups = true → ∀ gid g, m.grp? gid = some g →
            ∃ g1, m1.grp? gid = some g1 ∧ WokenBy b.team (key - t.share) (m.core g.core).cyc g g1))
    ∧ (∀ c, m1.core c = { m.core c with l1 := (m1.core c).l1 } ∧ ((m1.core c).l1 = (m.core c).l1 ∨ (m1.core c).l1 = []))
    ∧ (∀ c x, aget m.ctxs c = some x → ∃ n, aget m1.ctxs c = some { x with npCount := n })
    ∧ SameOutside m m1 fun k => ∃ a, k = (Loc.spad a).key ∧ a / 16 * 16 = key

/-! Fairness. -/

/-- What a claim that something happens in the end takes as a premise (R24): the turns of every core and of every walk engine
recur among the free moves.  No safety statement needs it. (DESIGN CHOICE, log 5.) -/
def Fair : Prop :=
  (∀ n core, core < 1024 → (∃ k, n ≤ k ∧ Config.nextMove k = .lane core) ∧ ∃ k, n ≤ k ∧ Config.nextMove k = .scalar core)
    ∧ ∀ n eng, eng < 128 → ∃ k, n ≤ k ∧ Config.nextMove k = .engine eng

/-! Conditions. -/

/-- The condition codes of R32, in the words of the rule. -/
def condition (cc : BitVec 4) (f : Flags) : Prop :=
  match cc.toNat with
  | 0x0 => f.z = true
  | 0x1 => f.z = false
  | 0x2 => f.n ≠ f.v
  | 0x3 => f.n = f.v
  | 0x4 => f.z = false ∧ f.n = f.v
  | 0x5 => f.z = true ∨ f.n ≠ f.v
  | 0x6 => f.c = false
  | 0x7 => f.c = true
  | 0x8 => f.c = true ∧ f.z = false
  | 0x9 => f.c = false ∨ f.z = true
  | 0xA => f.n = true
  | 0xB => f.n = false
  | 0xC => f.v = true
  | 0xD => f.v = false
  | 0xE => True
  | _ => False

/-- The state after an outcome, where there is one. -/
def after? (o : Host.Outcome State Fault Refusal) : Option State :=
  match o with
  | .next t => some t
  | _ => none

end Sys2Proof
end

