-- ==== Sys2Proof/Certificates/Slice0/Obligations.lean ====
section
/-! DEFINITION. The statements for the provers, in the words of Sys2Proof/Safety.lean. -/

open Sys2Proof Sys2Proof.Machine

/-! The scalar instructions (05_scalar.md). -/

/-- The table of R107 but for the divisions and the flags, R109 but for its two compares, and R110: each form's result, as bits
or as integers.  Shift and rotate instructions use bits 5 to 0 of sb alone. -/
def Obligations.ScalarResults : Prop :=
  (∀ (s : State) (gid : Nat) (g : Group), Here s gid g → ∀ sd sa sb : Sreg,
    let a := g.s sa
    let b := g.s sb
    let n := b.toNat % 64
    Yields (.add sd sa sb) s gid g sd (scalarCode 0x01 0x00) (fun x => x.toNat = (a.toNat + b.toNat) % 2 ^ 64)
    ∧ Yields (.sub sd sa sb) s gid g sd (scalarCode 0x01 0x01) (fun x => (x.toNat + b.toNat) % 2 ^ 64 = a.toNat)
    ∧ Yields (.and sd sa sb) s gid g sd (scalarCode 0x01 0x02) (fun x => ∀ i, x.getLsbD i = (a.getLsbD i && b.getLsbD i))
    ∧ Yields (.or sd sa sb) s gid g sd (scalarCode 0x01 0x03) (fun x => ∀ i, x.getLsbD i = (a.getLsbD i || b.getLsbD i))
    ∧ Yields (.xor sd sa sb) s gid g sd (scalarCode 0x01 0x04) (fun x => ∀ i, x.getLsbD i = (a.getLsbD i != b.getLsbD i))
    ∧ Yields (.andn sd sa sb) s gid g sd (scalarCode 0x01 0x05) (fun x => ∀ i, x.getLsbD i = (a.getLsbD i && !b.getLsbD i))
    ∧ Yields (.orn sd sa sb) s gid g sd (scalarCode 0x01 0x06)
        (fun x => ∀ i, i < 64 → x.getLsbD i = (a.getLsbD i || !b.getLsbD i))
    ∧ Yields (.xnor sd sa sb) s gid g sd (scalarCode 0x01 0x07)
        (fun x => ∀ i, i < 64 → x.getLsbD i = (a.getLsbD i == b.getLsbD i))
    ∧ Yields (.shl sd sa sb) s gid g sd (scalarCode 0x01 0x08) (fun x => x.toNat = a.toNat * 2 ^ n % 2 ^ 64)
    ∧ Yields (.shr sd sa sb) s gid g sd (scalarCode 0x01 0x09) (fun x => x.toNat = a.toNat / 2 ^ n)
    ∧ Yields (.sar sd sa sb) s gid g sd (scalarCode 0x01 0x0A) (fun x => x.toInt = a.toInt / 2 ^ n)
    ∧ Yields (.rol sd sa sb) s gid g sd (scalarCode 0x01 0x0B) (fun x => ∀ i, i < 64 → x.getLsbD ((i + n) % 64) = a.getLsbD i)
    ∧ Yields (.ror sd sa sb) s gid g sd (scalarCode 0x01 0x0C) (fun x => ∀ i, i < 64 → x.getLsbD i = a.getLsbD ((i + n) % 64))
    ∧ Yields (.mul sd sa sb) s gid g sd (scalarCode 0x01 0x10) (fun x => x.toNat = a.toNat * b.toNat % 2 ^ 64)
    ∧ Yields (.mulh sd sa sb) s gid g sd (scalarCode 0x01 0x11) (fun x => x.toInt = a.toInt * b.toInt / 2 ^ 64)
    ∧ Yields (.mulhu sd sa sb) s gid g sd (scalarCode 0x01 0x12) (fun x => x.toNat = a.toNat * b.toNat / 2 ^ 64)
    ∧ Yields (.min sd sa sb) s gid g sd (scalarCode 0x01 0x18) (fun x => x.toInt = min a.toInt b.toInt)
    ∧ Yields (.max sd sa sb) s gid g sd (scalarCode 0x01 0x19) (fun x => x.toInt = max a.toInt b.toInt)
    ∧ Yields (.minu sd sa sb) s gid g sd (scalarCode 0x01 0x1A) (fun x => x.toNat = min a.toNat b.toNat)
    ∧ Yields (.maxu sd sa sb) s gid g sd (scalarCode 0x01 0x1B) (fun x => x.toNat = max a.toNat b.toNat)
    ∧ Yields (.popc sd sa) s gid g sd (scalarCode 0x01 0x28) (fun x => x.toNat = ((List.range 64).filter a.getLsbD).length)
    ∧ Yields (.clz sd sa) s gid g sd (scalarCode 0x01 0x29)
        (fun x => x.toNat ≤ 64 ∧ a.toNat < 2 ^ (64 - x.toNat) ∧ (x.toNat < 64 → 2 ^ (63 - x.toNat) ≤ a.toNat))
    ∧ Yields (.ctz sd sa) s gid g sd (scalarCode 0x01 0x2A)
        (fun x => x.toNat ≤ 64 ∧ (∀ i, i < x.toNat → a.getLsbD i = false) ∧ (x.toNat < 64 → a.getLsbD x.toNat = true))
    ∧ Yields (.brev sd sa) s gid g sd (scalarCode 0x01 0x2B) (fun x => ∀ i, i < 64 → x.getLsbD i = a.getLsbD (63 - i))
    ∧ ∀ k : BitVec 3, k.toNat ≤ 4 →
        Yields (.scadd k sd sa sb) s gid g sd (scalarCode 0x01 (0x30 + k.toNat))
          (fun x => x.toNat = (a.toNat + b.toNat * 2 ^ k.toNat) % 2 ^ 64))
  ∧ ∀ (s : State) (gid : Nat) (g : Group), Here s gid g → ∀ (sd sa : Sreg) (imm : BitVec 14) (n : BitVec 6) (imm20 : BitVec 20),
    let a := g.s sa
    Yields (.addi sd sa imm) s gid g sd (scalarCode 0x02 0) (fun x => x = BitVec.ofInt 64 (a.toInt + imm.toInt))
    ∧ Yields (.andi sd sa imm) s gid g sd (scalarCode 0x03 0)
        (fun x => ∀ i, i < 64 → x.getLsbD i = (a.getLsbD i && imm.getLsbD (min i 13)))
    ∧ Yields (.ori sd sa imm) s gid g sd (scalarCode 0x04 0)
        (fun x => ∀ i, i < 64 → x.getLsbD i = (a.getLsbD i || imm.getLsbD (min i 13)))
    ∧ Yields (.xori sd sa imm) s gid g sd (scalarCode 0x05 0)
        (fun x => ∀ i, i < 64 → x.getLsbD i = (a.getLsbD i != imm.getLsbD (min i 13)))
    ∧ Yields (.muli sd sa imm) s gid g sd (scalarCode 0x0B 0) (fun x => x = BitVec.ofInt 64 (a.toInt * imm.toInt))
    ∧ Yields (.shli sd sa n) s gid g sd (scalarCode 0x06 0) (fun x => x.toNat = a.toNat * 2 ^ n.toNat % 2 ^ 64)
    ∧ Yields (.shri sd sa n) s gid g sd (scalarCode 0x07 0) (fun x => x.toNat = a.toNat / 2 ^ n.toNat)
    ∧ Yields (.sari sd sa n) s gid g sd (scalarCode 0x08 0) (fun x => x.toInt = a.toInt / 2 ^ n.toNat)
    ∧ Yields (.lih sd imm20) s gid g sd (scalarCode 0x0C 0) (fun x => x.toInt = imm20.toInt * 4096)
    ∧ Yields (.addpc sd imm20) s gid g sd (scalarCode 0x0D 0) (fun x => x = BitVec.ofInt 64 (g.spc.toInt + imm20.toInt))

/-- R108 whole, with the ordinary division of R107 beside it. -/
def Obligations.DivisionNeverTraps : Prop :=
  ∀ (s : State) (gid : Nat) (g : Group), Here s gid g → ∀ sd sa sb : Sreg,
    let a := g.s sa
    let b := g.s sb
    let corner := a = BitVec.intMin 64 ∧ b = BitVec.allOnes 64
    Yields (.div sd sa sb) s gid g sd (scalarCode 0x01 0x14)
      (fun x => (b = 0 → x = BitVec.allOnes 64) ∧ (corner → x = BitVec.intMin 64)
        ∧ (b ≠ 0 → ¬ corner → x.toInt = a.toInt.tdiv b.toInt))
    ∧ Yields (.divu sd sa sb) s gid g sd (scalarCode 0x01 0x15)
      (fun x => (b = 0 → x = BitVec.allOnes 64) ∧ (b ≠ 0 → x.toNat = a.toNat / b.toNat))
    ∧ Yields (.rem sd sa sb) s gid g sd (scalarCode 0x01 0x16)
      (fun x => (b = 0 → x = a) ∧ (corner → x = 0) ∧ (b ≠ 0 → x.toInt = a.toInt.tmod b.toInt))
    ∧ Yields (.remu sd sa sb) s gid g sd (scalarCode 0x01 0x17)
      (fun x => (b = 0 → x = a) ∧ (b ≠ 0 → x.toNat = a.toNat % b.toNat))

/-- R111 whole: the flags of the three subtractions and of TST, with its table. -/
def Obligations.CompareFlags : Prop :=
  (∀ (s : State) (gid : Nat) (g : Group), Here s gid g → ∀ (sa sb : Sreg) (imm : BitVec 14),
    let subtracted (b : Dword) (f : Flags) : Prop :=
      let a := g.s sa
      (f.n = (a - b).getLsbD 63) ∧ (f.z = true ↔ a.toNat = b.toNat) ∧ (f.c = true ↔ b.toNat ≤ a.toNat)
        ∧ (f.v = true ↔ a.getLsbD 63 ≠ b.getLsbD 63 ∧ (a - b).getLsbD 63 ≠ a.getLsbD 63)
    (∃ f, subtracted (g.s sb) f ∧ Leaves (.cmp sa sb) s gid { g with flags := f } (g.spc + 4) (scalarCode 0x01 0x20))
    ∧ (∃ f, subtracted (BitVec.ofInt 64 imm.toInt) f
        ∧ Leaves (.cmpi sa imm) s gid { g with flags := f } (g.spc + 4) (scalarCode 0x09 0))
    ∧ (∃ f, subtracted (BitVec.ofNat 64 imm.toNat) f
        ∧ Leaves (.cmpui sa imm) s gid { g with flags := f } (g.spc + 4) (scalarCode 0x0A 0))
    ∧ ∃ f : Flags, f.n = (g.s sa &&& g.s sb).getLsbD 63 ∧ (f.z = true ↔ g.s sa &&& g.s sb = 0) ∧ f.c = false ∧ f.v = false
        ∧ Leaves (.tst sa sb) s gid { g with flags := f } (g.spc + 4) (scalarCode 0x01 0x21))
  ∧ (∀ cc : BitVec 4, condition cc (flagsSub 1 0xFFFFFFFFFFFFFFFF) ↔ cc.toNat ∈ [0x1, 0x3, 0x4, 0x6, 0x9, 0xB, 0xD, 0xE])
  ∧ ∀ cc : BitVec 4, condition cc (flagsSub 0x8000000000000000 1) ↔ cc.toNat ∈ [0x1, 0x2, 0x5, 0x7, 0x8, 0xB, 0xC, 0xE]

/-- R112 whole. -/
def Obligations.SelectByCondition : Prop :=
  (∀ (cc : BitVec 4) (sd sa sb : Sreg),
    decodeScalar ((0x01 : BitVec 6) ++ sd ++ sa ++ sb ++ (0x4 : BitVec 4) ++ cc) 0
      = if cc = 15 then .error .reservedFunc else .ok (.sel cc sd sa sb))
  ∧ ∀ (s : State) (gid : Nat) (g : Group), Here s gid g → ∀ (cc : BitVec 4) (sd sa sb : Sreg),
    (cc = 15 → Traps (.sel cc sd sa sb) s gid .illegal)
    ∧ (cc ≠ 15 → Yields (.sel cc sd sa sb) s gid g sd (scalarCode 0x01 (0x40 + cc.toNat))
        fun x => (condition cc g.flags → x = g.s sa) ∧ (¬ condition cc g.flags → x = g.s sb))
    ∧ (cc = 14 → condition cc g.flags)

/-- R118 whole, with the target of R117. -/
def Obligations.BranchOnCondition : Prop :=
  (∀ (cc : BitVec 4) (off : BitVec 22), decodeScalar ((0x1A : BitVec 6) ++ cc ++ off) 0
      = if cc = 15 then .error .reservedValue else .ok (.b cc off))
  ∧ ∀ (s : State) (gid : Nat) (g : Group), Here s gid g → ∀ (cc : BitVec 4) (off : BitVec 22),
    (cc = 15 → Traps (.b cc off) s gid .illegal)
    ∧ (cc ≠ 15 → condition cc g.flags
        → Leaves (.b cc off) s gid g (g.spc + BitVec.ofInt 64 (4 * off.toInt)) (scalarCode 0x1A 0))
    ∧ (cc ≠ 15 → ¬ condition cc g.flags → Leaves (.b cc off) s gid g (g.spc + 4) (scalarCode 0x1A 0))

/-- R119, R121, with LJ (R84) and NOP (R122). -/
def Obligations.MaskBranchesAndJumps : Prop :=
  (∀ (s : State) (gid : Nat) (g : Group), Here s gid g → ∀ (nz : BitVec 1) (sel : BitVec 3) (off : BitVec 22),
    (4 ≤ sel.toNat → Traps (.bm nz sel off) s gid .illegal)
    ∧ (sel.toNat < 4 →
        let zero : Prop :=
          if sel = 3 then ∀ b j, b < g.width / 32 → j < 32 → (g.s (BitVec.ofNat 6 (61 + b))).getLsbD j = false
          else ∀ j, j < 32 → (g.s (BitVec.ofNat 6 (61 + sel.toNat))).getLsbD j = false
        ((nz = 0 ∧ zero) ∨ (nz = 1 ∧ ¬ zero)
          → Leaves (.bm nz sel off) s gid g (g.spc + BitVec.ofInt 64 (4 * off.toInt)) (scalarCode 0x1B 0))
        ∧ ((nz = 0 ∧ ¬ zero) ∨ (nz = 1 ∧ zero) → Leaves (.bm nz sel off) s gid g (g.spc + 4) (scalarCode 0x1B 0))))
  ∧ ∀ (s : State) (gid : Nat) (g : Group), Here s gid g →
    (∀ off : BitVec 22, Leaves (.call off) s gid (g.setS 60 (g.spc + 4)) (g.spc + BitVec.ofInt 64 (4 * off.toInt)) (scalarCode 0x1D 0))
    ∧ (∀ sa : Sreg, (g.s sa).toNat % 4 = 0 →
        Leaves (.jr sa) s gid g (g.s sa) (scalarCode 0x30 0)
        ∧ Leaves (.callr sa) s gid (g.setS 60 (g.spc + 4)) (g.s sa) (scalarCode 0x30 1))
    ∧ (∀ sa : Sreg, (g.s sa).toNat % 4 ≠ 0 →
        exec (.jr sa) s = .next { s with m := scalarTrapAt s.m gid .misalignedPc (g.s sa) }
        ∧ exec (.callr sa) s = .next { s with m := scalarTrapAt s.m gid .misalignedPc (g.s sa) })
    ∧ (∀ lidx : BitVec 22, Leaves (.lj lidx) s gid { g with lpc := lidx.toNat } (g.spc + 4) (scalarCode 0x1F 0))
    ∧ Leaves .nop s gid g (g.spc + 4) (scalarCode 0x2F 0)

/-- R120 whole: the pop, the four forms, the wait of R86 and the deadlock of R89, and the reserved values. -/
def Obligations.BranchOnFlagQueue : Prop :=
  (∀ (cc : BitVec 4) (off : BitVec 22), decodeScalar ((0x1C : BitVec 6) ++ cc ++ off) 0
      = if 4 ≤ cc.toNat then .error .reservedValue else .ok (.bf cc off))
  ∧ ∀ (s : State) (gid : Nat) (g : Group), Here s gid g → ∀ (cc : BitVec 4) (off : BitVec 22),
    (4 ≤ cc.toNat → Traps (.bf cc off) s gid .illegal)
    ∧ (cc.toNat < 4 → ∀ e rest, g.qs.fq = e :: rest →
        let any := e.getLsbD 0 = true
        let all := e.getLsbD 1 = true
        let taken : Prop := (cc = 0 ∧ ¬ any) ∨ (cc = 1 ∧ any) ∨ (cc = 2 ∧ all) ∨ (cc = 3 ∧ ¬ all)
        let g1 := { g with qs := { g.qs with fq := rest } }
        (taken → Leaves (.bf cc off) s gid g1 (g.spc + BitVec.ofInt 64 (4 * off.toInt)) (scalarCode 0x1C 0))
        ∧ (¬ taken → Leaves (.bf cc off) s gid g1 (g.spc + 4) (scalarCode 0x1C 0)))
    ∧ (cc.toNat < 4 → g.qs.fq = [] →
        ((∃ e ∈ g.qs.liq, e.bad = none ∧ ∃ w, e.ins = some (.psum w)) → Waits (.bf cc off) s gid g)
        ∧ ((∀ e ∈ g.qs.liq, e.bad = none → ∀ w, e.ins ≠ some (.psum w))
          → exec (.bf cc off) s = .next { s with m := queueDeadlock s.m gid g 2 g.spc 0 }))

/-- R87 with the capacities of R86 and the deadlocks of R89, and R92. -/
def Obligations.QueueAndMaskMoves : Prop :=
  (∀ (s : State) (gid : Nat) (g : Group), Here s gid g →
    let held := ((g.chain.map Chain.popped).getD []).length
    let queued (moves : Instr → Nat) : Prop := ∃ e ∈ g.qs.liq, e.bad = none ∧ ∃ i, e.ins = some i ∧ 0 < moves i
    (∀ sa : Sreg,
      (g.qs.sq.length + held < 8 →
        Leaves (.sqPush sa) s gid { g with qs := { g.qs with sq := g.qs.sq ++ [(g.s sa).truncate 32] } } (g.spc + 4) (scalarCode 0x20 0))
      ∧ (8 ≤ g.qs.sq.length + held → g.qs.sq.length < 8 ∨ queued sqNeeds → Waits (.sqPush sa) s gid g)
      ∧ (8 ≤ g.qs.sq.length → ¬ queued sqNeeds →
        exec (.sqPush sa) s = .next { s with m := queueDeadlock s.m gid g 0 g.spc 0 }))
    ∧ (∀ (sd : Sreg) (x : Word) (rest : List Word), g.qs.lq = x :: rest →
        Leaves (.lqPop sd) s gid ({ g with qs := { g.qs with lq := rest } }.setS sd (x.zeroExtend 64)) (g.spc + 4) (scalarCode 0x20 1))
    ∧ (∀ (sd : Sreg) (x : BitVec 2) (rest : List (BitVec 2)), g.qs.fq = x :: rest →
        Leaves (.fqPop sd) s gid ({ g with qs := { g.qs with fq := rest } }.setS sd (x.zeroExtend 64)) (g.spc + 4) (scalarCode 0x20 2))
    ∧ ∀ sd : Sreg,
      (g.qs.lq = [] → queued (fun i => lqPushes i g.beats) → Waits (.lqPop sd) s gid g)
      ∧ (g.qs.lq = [] → ¬ queued (fun i => lqPushes i g.beats) →
          exec (.lqPop sd) s = .next { s with m := queueDeadlock s.m gid g 1 g.spc 0 })
      ∧ (g.qs.fq = [] → queued fqPushes → Waits (.fqPop sd) s gid g)
      ∧ (g.qs.fq = [] → ¬ queued fqPushes →
          exec (.fqPop sd) s = .next { s with m := queueDeadlock s.m gid g 2 g.spc 0 }))
  ∧ ∀ (s : State) (gid : Nat) (g : Group) (sd sa : Sreg), Here s gid g →
    let named := 61 ≤ sd.toNat ∧ sd.toNat - 61 < g.width / 32
    (named → Leaves (.msplit sd sa) s gid ((g.setS sd (g.s sd &&& g.s sa)).fold (scalarCode 0x21 0)) (g.spc + 4) 0x30001
      ∧ Leaves (.mjoin sd sa) s gid ((g.setS sd (g.s sd ||| g.s sa)).fold (scalarCode 0x21 1)) (g.spc + 4) 0x30002)
    ∧ (¬ named → Traps (.msplit sd sa) s gid .illegal ∧ Traps (.mjoin sd sa) s gid .illegal)

/-! The lane stream, the masks, the special registers and the system instructions (04_group.md, 05_scalar.md). -/

/-- R39, R48, R50, R83, R85 and R390. -/
def Obligations.LaneRunTaken : Prop :=
  (∀ (s : State) (gid : Nat) (g : Group) (n1 : BitVec 4) (lidx : BitVec 22), Here s gid g →
    let n := n1.toNat + 1
    let old := g.qs.liq.length
    let k := min n (16 - old)
    let start := if lidx = BitVec.allOnes 22 then g.lpc else lidx.toNat
    let pcAt (j : Nat) : Nat := if j = 0 then start else (start + j) % 2 ^ 32
    let sameMemory (m : Mach) : Prop :=
      ∀ l, unlogged s.m l → readByte m l = readByte s.m l ∨ ∃ pa, l = .dev pa ∧ readByte m l = readByte s.m l ||| 0x20
    Completes (.lx n1 lidx) s fun t => ∃ g', t.m.grp? gid = some g'
      ∧ g' = { g with
          spc := g.spc + 4, lpc := pcAt k, lx := if n = k then none else some { left := n - k, resume := g.spc + 4 },
          qs := { g.qs with liq := g'.qs.liq }, inject := g'.inject, folded := (0, 0), sig := g'.sig, sigq := g'.sigq,
          st := g.st.woken, readyAt := g'.readyAt, stuck := false, waitedFrom := none, bar := none, fabric := .none,
          flight := none, posting := g.posting.filter fun p => p.spc != g.spc }
      ∧ Folded g g' (scalarCode 0x1E 0)
      ∧ (g'.inject = g.inject ∨ g'.inject = none)
      ∧ g'.qs.liq.length = old + k ∧ g'.qs.liq.take old = g.qs.liq
      ∧ (∀ j e, j < k → g'.qs.liq[old + j]? = some e →
          e.lpc = pcAt j ∧ e.m0 = g.mask 0 ∧ e.m1 = g.mask 1 ∧ e.m2 = g.mask 2 ∧ e.mode = g.mode
          ∧ e.svals = ((e.ins.map scalarSources).getD []).map (fun r => (r.toNat, g.s r))
          ∧ e.resume = g.spc + 4 ∧ e.left = n - j
          ∧ ∃ mk gk, e = (takeEntry mk gk (n - j) (g.spc + 4)).2 ∧ sameMemory mk ∧ mk.kerns = s.m.kerns ∧ mk.ctxs = s.m.ctxs
            ∧ gk = { g with spc := gk.spc, lpc := pcAt j, qs := { g.qs with liq := g'.qs.liq.take (old + j) },
                            lx := gk.lx, inject := gk.inject, folded := (0, 0), sig := gk.sig, sigq := gk.sigq, st := gk.st,
                            readyAt := gk.readyAt, stuck := gk.stuck, waitedFrom := gk.waitedFrom, bar := gk.bar,
                            fabric := gk.fabric, flight := gk.flight, posting := gk.posting })
      ∧ (∀ j, j ≠ gid → t.m.grp? j = s.m.grp? j) ∧ sameMemory t.m)
  ∧ ∀ (m : Mach) (g : Group) (left : Nat) (resume : Dword),
    let sec := sections m g
    let older := ((g.chain.map Chain.issued).getD [] ++ g.qs.liq).reverse
    let e := (takeEntry m g left resume).2
    (sec.llen ≤ g.lpc → e.ins = none ∧ e.bad = some (.lanePcRange, 0))
    ∧ (∀ m1 c l va, g.lpc < sec.llen → fetchWords m g sec.physical (sec.lbase + 12 * g.lpc) 3 = .error (m1, c, l, va) →
        e.ins = none ∧ e.bad = some (c, reportAddr c l va))
    ∧ ∀ m1 w0 w1 w2, g.lpc < sec.llen → fetchWords m g sec.physical (sec.lbase + 12 * g.lpc) 3 = .ok (m1, [w0, w1, w2]) →
      match decodeLane (w2 ++ w1 ++ w0) with
      | .error _ => e.ins = none ∧ e.bad = some (.illegal, 0)
      | .ok i => e.ins = some i
        ∧ (e.bad = some (.illegal, 0) ↔ takenLegal m1 g left (chainBefore resume left older) i = false)
        ∧ (takenLegal m1 g left (chainBefore resume left older) i = true →
            e.bad = match i with
              | .shdw _ => if (m1.features g.core).getLsbD 1 then none else some (.featureAbsent, 0)
              | _ => none)

/-- R126 to R130: the value that each number reads. -/
def Obligations.SpecialRegisterReads : Prop :=
  ∀ (s : State) (gid : Nat) (g : Group) (sd : Sreg), Here s gid g →
    let code := scalarCode 0x2D 0
    let reads (n : BitVec 12) (x : Nat) : Prop := WritesReg (.scrRd sd n) s gid g sd (BitVec.ofNat 64 x) code
    let core := s.m.core g.core
    reads 0x000 (g.core / 128) ∧ reads 0x001 (g.core / 8) ∧ reads 0x002 g.core ∧ reads 0x003 g.slot ∧ reads 0x004 g.width
    ∧ reads 0x010 g.gidx ∧ reads 0x016 g.ctx ∧ reads 0x020 (s.m.features g.core).toNat ∧ reads 0x021 (core.limit + core.hits * 2 ^ 7)
    ∧ reads 0x040 g.mode.toNat ∧ reads 0x043 g.lxrem ∧ reads 0x048 g.node ∧ reads 0x049 g.stamp.toNat
    ∧ (let q := g.aside.getD g.qs
       reads 0x042 (q.sq.length + q.lq.length * 2 ^ 7 + q.fq.length * 2 ^ 11 + q.liq.length * 2 ^ 15 + g.dlq * 2 ^ 20))
    ∧ reads 0x04D g.rgnWord ∧ reads 0x080 g.tcause.toNat ∧ reads 0x081 g.tspc.toNat ∧ reads 0x082 g.tlpc ∧ reads 0x083 g.taddr.toNat
    ∧ reads 0x084 g.tmemb ∧ reads 0x0F0 0 ∧ (∀ t, aget s.m.teams g.team = some t → reads 0x050 t.depth)
    ∧ (g.qs.liq = [] → reads 0x041 g.fpstat.toNat ∧ reads 0x04C g.sig.toNat)
    ∧ (g.qs.liq ≠ [] → Waits (.scrRd sd 0x041) s gid g ∧ Waits (.scrRd sd 0x04C) s gid g)
    ∧ (∀ k, aget s.m.kerns g.kern = some k →
        (g.kind = .kernel → reads 0x011 k.lrec.tgroups) ∧ (g.kind ≠ .kernel → reads 0x011 1)
        ∧ (g.kind ≠ .compacted → reads 0x00C k.lrec.gx ∧ reads 0x00D k.lrec.gy ∧ reads 0x00E k.lrec.gz
          ∧ reads 0x014 k.addr.toNat ∧ reads 0x015 k.lrec.args.toNat)
        ∧ ∀ t, g.kind = .kernel → aget s.m.teams g.team = some t →
          reads 0x008 (t.t % k.lrec.gx) ∧ reads 0x009 (t.t / k.lrec.gx % k.lrec.gy) ∧ reads 0x00A (t.t / k.lrec.gx / k.lrec.gy))
    ∧ (∃ clk, core.clk ≤ clk ∧ LeavesIn (.scrRd sd 0x0C0) s gid { s.m with cores := aput s.m.cores g.core { core with clk := clk }, free := s.m.free + 1 }
        (g.setS sd (BitVec.ofNat 64 clk)) (g.spc + 4) code)
    ∧ (∀ n : BitVec 12, n.toNat ∈ [0x008, 0x009, 0x00A, 0x00C, 0x00D, 0x00E, 0x014, 0x015] →
        ∃ x fr, LeavesIn (.scrRd sd n) s gid { s.m with free := fr } (g.setS sd x) (g.spc + 4) code)
    ∧ ∀ n : BitVec 12, n.toNat ∉ [0x000, 0x001, 0x002, 0x003, 0x004, 0x008, 0x009, 0x00A, 0x00C, 0x00D, 0x00E, 0x010, 0x011, 0x014, 0x015,
          0x016, 0x020, 0x021, 0x040, 0x041, 0x042, 0x043, 0x048, 0x049, 0x04C, 0x04D, 0x050, 0x080, 0x081, 0x082, 0x083, 0x084, 0x0C0, 0x0F0] →
        Traps (.scrRd sd n) s gid .illegal

/-- R126 to R128 and the access columns of R68, R73 and R344. -/
def Obligations.SpecialRegisterWrites : Prop :=
  ∀ (s : State) (gid : Nat) (g : Group) (sa : Sreg), Here s gid g →
    let x := g.s sa
    let writes (n : BitVec 12) (g1 : Group) : Prop := Leaves (.scrWr n sa) s gid g1 (g.spc + 4) (scalarCode 0x2E 0)
    (∀ mode : Word, (∀ j, j < 32 → mode.getLsbD j = (decide (j < 15) && x.getLsbD j)) → writes 0x040 { g with mode := mode })
    ∧ (g.qs.liq = [] → ∀ f : Word, (∀ j, j < 32 → f.getLsbD j = (g.fpstat.getLsbD j && !x.getLsbD j)) → writes 0x041 { g with fpstat := f })
    ∧ (g.qs.liq ≠ [] → Waits (.scrWr 0x041 sa) s gid g)
    ∧ writes 0x043 { g with lxrem := min (x.toNat % 32) 16 }
    ∧ (g.isTrapped = true → writes 0x081 { g with tspc := x } ∧ writes 0x082 { g with tlpc := x.toNat % 2 ^ 32 })
    ∧ (g.isTrapped = false → writes 0x081 g ∧ writes 0x082 g)
    ∧ (let kind := x.toNat / 2 ^ 8 % 16
       (3 < kind ∨ (∃ r ∈ g.rgn, 0 < r.retry) → writes 0x0F0 g)
       ∧ (kind ≤ 3 → (∀ r ∈ g.rgn, r.retry = 0) →
          writes 0x0F0 { g with inject := if kind = 0 then none else some (kind, x.toNat % 256) }))
    ∧ (∀ n : BitVec 12, n.toNat ∈ [0x000, 0x001, 0x002, 0x003, 0x004, 0x008, 0x009, 0x00A, 0x00C, 0x00D, 0x00E, 0x010, 0x011, 0x014, 0x015,
          0x016, 0x020, 0x021, 0x042, 0x048, 0x049, 0x04C, 0x04D, 0x050, 0x080, 0x083, 0x084, 0x0C0] → writes n g)
    ∧ ∀ n : BitVec 12, scrNumbers.contains n.toNat = false → Traps (.scrWr n sa) s gid .illegal

/-- R366 to R368 for the traps of scalar instructions. -/
def Obligations.TakingATrap : Prop :=
  ∀ (s : State) (gid : Nat) (g : Group) (c : Context) (cause : Cause) (code : Nat) (addr resume : Dword),
    s.m.grp? gid = some g → aget s.m.ctxs g.ctx = some c →
    let t := scalarTrapTo s.m gid cause code addr resume
    let v := readVector s.m c cause.num
    let d := effectiveDisp c v.disp v.goff
    let word (n k : Nat) : Word := BitVec.ofNat 32 (n + k % 64 * 2 ^ 8)
    let held (st : GState) : Group := { g with fabric := .none, flight := none, stuck := false, st := st, asideWait := g.phaseWait }
    let written (st : GState) : Group :=
      { held st with tcause := word cause.num code, tspc := resume, tlpc := g.lpc, taddr := addr, tmemb := 0, lxrem := 0, folded := (0, 0) }
    let stops (n : Nat) (g1 : Group) : Prop :=
      t.grp? gid = some g1.restartChain
      ∧ (MemoryCanonical s → readByte t (.dev (c.desc.rqbase + 64 * (c.rqIndex % 2 ^ c.desc.rqlog))) = BitVec.ofNat 8 n)
      ∧ ∃ c', aget t.ctxs g.ctx = some c' ∧ c'.rqIndex = c.rqIndex + 1 ∧ (c.st = .active → c'.st = .faulted)
    (g.qs.liq ≠ [] → t = s.m.setGrp gid { g with stuck := true })
    ∧ (g.qs.liq = [] → g.isTrapped = true → stops 99 (held (.trapped .stopped)))
    ∧ (g.qs.liq = [] → g.isTrapped = false → 8 ≤ g.traps.length → stops 98 (held (.trapped .stopped)))
    ∧ (g.qs.liq = [] → g.isTrapped = false → g.traps.length < 8 →
        (d = 1 ∨ g.traps ≠ [] →
          t.grp? gid = some { g with fabric := .none, flight := none, stuck := false, traps := g.traps ++
            [{ tcause := word cause.num code, tspc := resume, tlpc := g.lpc, taddr := addr, tmemb := 0, lxrem := 0, folded := (0, 0),
               disp := d, target := v.goff }] }
          ∧ t = { s.m with groups := t.groups })
        ∧ (d = 2 → g.traps = [] → t.grp? gid = some (written (.trapped .host))
            ∧ aget t.ctxs g.ctx = some { c with rqIndex := c.rqIndex + 1 })
        ∧ (d = 0 → g.traps = [] → stops cause.num (written (.trapped .stopped))))

/-- R367: delivery to a handler, and the return of R124. -/
def Obligations.TrapDeliveryAndReturn : Prop :=
  (∀ (s : State) (gid : Nat) (g : Group) (c : Context) (t : TrapRec) (rest : List TrapRec),
    s.m.grp? gid = some g → aget s.m.ctxs g.ctx = some c → ctxRuns s.m g.ctx = true → g.betweenInstrs = true →
    g.traps = t :: rest → t.disp = 1 → t.tcause.toNat % 256 ≠ 48 →
    ∃ q, exec (.trapDelivery gid) s = .next q ∧ q = { s with m := { s.m with groups := q.m.groups } }
      ∧ (∀ k, k ≠ gid → q.m.grp? k = s.m.grp? k)
      ∧ q.m.grp? gid = some { g with
          tcause := t.tcause, tspc := t.tspc, tlpc := t.tlpc, taddr := t.taddr, tmemb := t.tmemb, lxrem := t.lxrem, folded := t.folded,
          traps := rest, st := .trapped .running, spc := BitVec.ofNat 64 (c.desc.tsbase + t.target), aside := some g.qs,
          asideWait := g.phaseWait, qs := Queues.empty, stuck := false, waitedFrom := none, bar := none })
  ∧ ∀ (s : State) (gid : Nat) (g : Group), Here s gid g →
    (g.isTrapped = false → Traps .tret s gid .illegal)
    ∧ (g.isTrapped = true → g.kind ≠ .compacted → g.lxrem = 0 → g.lx = none →
      Completes .tret s fun t => OnlyGroup s t gid
        ∧ t.m.grp? gid = some { g with
            st := (match g.asideWait with | some w => GState.waiting w | none => .ready),
            readyAt := (s.m.core g.core).cyc, qs := g.aside.getD g.qs, aside := none, asideWait := none,
            spc := g.tspc &&& ~~~(3 : Dword), folded := (0, 0) })

/-- R123, with the pseudo-instructions of R28, R47 and R390, and R125. -/
def Obligations.TrapsAndExit : Prop :=
  (∀ (s : State) (gid : Nat) (g : Group), Here s gid g →
    let raised (func : Nat) (cause : Cause) (code : Nat) : Mach :=
      scalarTrapTo (s.m.setGrp gid (g.fold (scalarCode 0x2F func))) gid cause code 0 (g.spc + 4)
    (g.qs.liq = [] → ∀ n : BitVec 6, exec (.trap n) s = .next { s with m := raised 1 .software n.toNat }
      ∧ exec .brk s = .next { s with m := raised 4 .breakpoint 0 })
    ∧ (∀ word, Traps (.illegalScalarInstruction word) s gid .illegal) ∧ Traps .scalarPcRange s gid .scalarPcRange
    ∧ (∀ (n : BitVec 8) (level : Nat) (addr : Dword), exec (.instructionFetchFault n level addr) s
        = .next { s with m := scalarTrapAt s.m gid (fetchCause n.toNat) (reportAddr (fetchCause n.toNat) level addr.toNat) })
    ∧ (g.qs.liq ≠ [] →
        let waits := s.m.setGrp gid { g with stuck := true }
        (∀ n : BitVec 6, exec (.trap n) s = .next { s with m := waits }) ∧ exec .brk s = .next { s with m := waits }
        ∧ ∀ cause code addr resume, scalarTrapTo s.m gid cause code addr resume = waits))
  ∧ ∀ (s : State) (gid : Nat) (g : Group), Here s gid g →
    (g.rgn ≠ [] → Traps .exit s gid .exitInRegion)
    ∧ (g.rgn = [] → g.kind = .task → g.tasks ≠ [] → Traps .exit s gid .tasksOpen)
    ∧ (g.rgn = [] → ¬ (g.kind = .task ∧ g.tasks ≠ []) →
      (g.qs.liq ≠ [] → g.headBlocked = false → Waits .exit s gid g)
      ∧ (g.qs.liq = [] ∨ g.headBlocked = true → (∀ t, aget s.m.teams g.team = some t → ∀ p ∈ t.pubs, p.group ≠ gid) →
        Completes .exit s fun t => t.m.grp? gid = none))

/-! The lane instructions (06_lane.md). -/

/-- R135 whole: the exact result of each opcode, delivered modulo 2^w or clamped. -/
def Obligations.LaneIntegerResults : Prop :=
  (∀ w : LaneWord,
    let row (i : Instr) (op : BitVec 8) (types : List Ty) (sat : Bool) : Prop :=
      decodeLaneOp op w = .ok i ∧ (i.wf = true → w.isOf types = true ∧ w.sub = 0 ∧ w.rnd = 0 ∧ (sat = false → w.sat = false))
    let all := [Ty.i32, .n32, .i64, .n64, .i16x2, .n16x2, .i8x4, .n8x4]
    let wide := [Ty.i32, .n32, .i64, .n64]
    let signed := [Ty.i32, .i64, .i16x2, .i8x4]
    row (.iadd w) 0x00 all true ∧ row (.isub w) 0x01 all true ∧ row (.imul w) 0x02 all true ∧ row (.imulh w) 0x03 wide false
    ∧ row (.imad w) 0x04 all true ∧ row (.imin w) 0x05 all false ∧ row (.imax w) 0x06 all false ∧ row (.iabs w) 0x07 signed true
    ∧ row (.ineg w) 0x08 signed true)
  ∧ ∀ (s : State) (gid : Nat) (g : Group) (e : LiqEntry) (w : LaneWord),
    let t := w.t
    let lo : Int := if t.isSigned then -(2 ^ (t.ew - 1) : Int) else 0
    let hi : Int := if t.isSigned then 2 ^ (t.ew - 1) - 1 else 2 ^ t.ew - 1
    let delivers (x : LaneIn) (exact : LaneIn → Nat → Nat → Int) (l v : Nat) (fl : FFlags) : Prop :=
      fl = .clear ∧ ∀ k, k < t.count →
        let d := t.read (elem t.ew v k)
        if w.sat then d = max lo (min hi (exact x l k)) else lo ≤ d ∧ d ≤ hi ∧ (d - exact x l k) % 2 ^ t.ew = 0
    let computes (i : Instr) (exact : LaneIn → Nat → Nat → Int) : Prop :=
      LaneComputes i w s gid g e t.regs (delivers (laneIn s.m g e i w) exact)
    computes (.iadd w) (fun x l k => x.ai l k + x.bi l k) ∧ computes (.isub w) (fun x l k => x.ai l k - x.bi l k)
    ∧ computes (.imul w) (fun x l k => x.ai l k * x.bi l k) ∧ computes (.imulh w) (fun x l k => x.ai l k * x.bi l k / 2 ^ t.ew)
    ∧ computes (.imad w) (fun x l k => x.ai l k * x.bi l k + x.ci l k) ∧ computes (.imin w) (fun x l k => min (x.ai l k) (x.bi l k))
    ∧ computes (.imax w) (fun x l k => max (x.ai l k) (x.bi l k)) ∧ computes (.iabs w) (fun x l k => |x.ai l k|)
    ∧ computes (.ineg w) (fun x l k => -x.ai l k)

/-- R136 and R137, element by element, as naturals and as bits. -/
def Obligations.LaneShiftAndLogicResults : Prop :=
  ∀ (s : State) (gid : Nat) (g : Group) (e : LiqEntry) (w : LaneWord),
    let t := w.t
    let computes (i : Instr) (is : LaneIn → Nat → Nat → Nat → Prop) : Prop :=
      LaneComputes i w s gid g e t.regs fun l v fl =>
        fl = .clear ∧ ∀ k, k < t.count → is (laneIn s.m g e i w) l k (elem t.ew v k)
    let amount (x : LaneIn) (l k : Nat) : Nat := x.br l k % t.ew
    computes (.laneShl w) (fun x l k r => r = x.ar l k * 2 ^ amount x l k % 2 ^ t.ew)
    ∧ computes (.laneShr w) (fun x l k r => r = x.ar l k / 2 ^ amount x l k)
    ∧ computes (.laneSar w) (fun x l k r => signed t.ew r = signed t.ew (x.ar l k) / 2 ^ amount x l k)
    ∧ computes (.lanePopc w) (fun x l k r => r = ((List.range t.ew).filter (x.ar l k).testBit).length)
    ∧ computes (.laneClz w) (fun x l k r => r ≤ t.ew ∧ x.ar l k < 2 ^ (t.ew - r) ∧ (r < t.ew → 2 ^ (t.ew - 1 - r) ≤ x.ar l k))
    ∧ computes (.laneBrev w) (fun x l k r => ∀ j, j < t.ew → r.testBit j = (x.ar l k).testBit (t.ew - 1 - j))
    ∧ computes (.laneAnd w) (fun x l k r => ∀ j, r.testBit j = ((x.ar l k).testBit j && (x.br l k).testBit j))
    ∧ computes (.laneOr w) (fun x l k r => ∀ j, r.testBit j = ((x.ar l k).testBit j || (x.br l k).testBit j))
    ∧ computes (.laneXor w) (fun x l k r => ∀ j, r.testBit j = ((x.ar l k).testBit j != (x.br l k).testBit j))
    ∧ computes (.not w) (fun x l k r => ∀ j, j < t.ew → r.testBit j = !(x.ar l k).testBit j)
    ∧ LaneComputes (.lop3 w) w s gid g e t.regs fun l v fl =>
        let x := laneIn s.m g e (.lop3 w) w
        fl = .clear ∧ ∀ j, j < t.bits →
          v.testBit j = w.sub.testBit (4 * (x.a t l / 2 ^ j % 2) + 2 * (x.b t l / 2 ^ j % 2) + x.c t l / 2 ^ j % 2)

/-- R138, R139 and R155 to R157 with a register for a destination. -/
def Obligations.LaneFieldAndMoveResults : Prop :=
  ∀ (s : State) (gid : Nat) (g : Group) (e : LiqEntry) (w : LaneWord),
    let t := w.t
    let field (pos len : Nat) : Option (Nat × Nat) :=
      if len % 256 = 0 ∨ t.ew ≤ pos % 256 then none else some (pos % 256, min (len % 256) (t.ew - pos % 256))
    LaneComputes (.bfe w) w s gid g e t.regs (fun l v fl =>
      let x := laneIn s.m g e (.bfe w) w
      fl = .clear ∧ match field (x.b t l) (x.c t l) with
        | none => v = 0
        | some (p, n) => ∀ j, j < t.ew → v.testBit j =
            if j < n then (x.a t l).testBit (p + j) else t.isSigned && (x.a t l).testBit (p + n - 1))
    ∧ LaneComputes (.bfi w) w s gid g e t.regs (fun l v fl =>
      let x := laneIn s.m g e (.bfi w) w
      fl = .clear ∧ match field (x.c t l) (x.d t l) with
        | none => v = x.b t l
        | some (p, n) => ∀ j, v.testBit j = if p ≤ j ∧ j < p + n then (x.a t l).testBit (j - p) else (x.b t l).testBit j)
    ∧ LaneComputes (.laneSel w) w s gid g e t.regs (fun l v fl =>
      let x := laneIn s.m g e (.laneSel w) w
      fl = .clear ∧ v = if g.pred (w.sub % 8) l = w.sub.testBit 3 then x.b t l else x.a t l)
    ∧ LaneComputes (.mov w) w s gid g e t.regs (fun l v fl => fl = .clear ∧ v = (laneIn s.m g e (.mov w) w).a t l)
    ∧ ((Instr.bcast w).wf = true → w.dst ≠ 0x145 → Issues s gid g e (.bcast w) →
        let x := laneIn s.m g e (.bcast w) w
        let from_ := (x.raw 1 w.b 0).toNat % g.width
        ReadsPass (.bcast w) g [from_] → LaneWrites (.bcast w) w s gid g e t.regs fun _ v fl => fl = .clear ∧ v = x.a t from_)
    ∧ ((Instr.shfl w).wf = true → Issues s gid g e (.shfl w) →
        let x := laneIn s.m g e (.shfl w) w
        let idx (l : Nat) : Nat := (x.raw 1 w.b l).toNat
        let seg := 2 ^ (w.sub / 8)
        let from_ (l : Nat) : Nat :=
          if w.sub % 8 = 0 then l / seg * seg + idx l % seg
          else if w.sub % 8 = 1 then (if idx l ≤ l % seg then l - idx l else l)
          else if w.sub % 8 = 2 then (if l % seg + idx l < seg then l + idx l else l)
          else l / seg * seg + (l % seg ^^^ idx l) % seg
        g.readFails ((SrcKind.typed t).vregs w.b) x.lanes = false
        → g.readFails ((SrcKind.typed t).vregs w.a) (x.lanes.map from_) = false
        → LaneWrites (.shfl w) w s gid g e t.regs fun l v fl => fl = .clear ∧ v = x.a t (from_ l))

/-- R140 to R143, R150 and R152, element by element; what the element functions do is stated of them. -/
def Obligations.LaneFloatResults : Prop :=
  ∀ (s : State) (gid : Nat) (g : Group) (e : LiqEntry) (w : LaneWord),
    let t := w.t
    let f := t.fmt
    let computes (i : Instr) (op : LaneIn → Nat → Nat → Rnd → Bool → Nat × FFlags) : Prop :=
      LaneComputes i w s gid g e t.regs fun l v fl =>
        let x := laneIn s.m g e i w
        let el (k : Nat) : Nat × FFlags := op x l k (x.rndOf f) (x.satOf f)
        (∀ k, k < t.count → elem t.ew v k = (el k).1 % 2 ^ t.ew)
        ∧ (fl.ov = true ↔ ∃ k, k < t.count ∧ (el k).2.ov = true) ∧ (fl.dz = true ↔ ∃ k, k < t.count ∧ (el k).2.dz = true)
        ∧ (fl.iv = true ↔ ∃ k, k < t.count ∧ (el k).2.iv = true)
    computes (.fadd w) (fun x l k r sat => fAdd f r sat false (x.ar l k) (x.br l k))
    ∧ computes (.fsub w) (fun x l k r sat => fAdd f r sat true (x.ar l k) (x.br l k))
    ∧ computes (.fmul w) (fun x l k r sat => fMul f r sat (x.ar l k) (x.br l k))
    ∧ computes (.fma w) (fun x l k r sat => fMulAdd f r sat (x.ar l k) (x.br l k) (x.cr l k))
    ∧ computes (.fmin w) (fun x l k _ _ => fMinMax f false (x.ar l k) (x.br l k))
    ∧ computes (.fmax w) (fun x l k _ _ => fMinMax f true (x.ar l k) (x.br l k))
    ∧ computes (.fabs w) (fun x l k _ _ => fSign f false (x.ar l k))
    ∧ computes (.fneg w) (fun x l k _ _ => fSign f true (x.ar l k))
    ∧ computes (.frnd w) (fun x l k r _ => fRound f r (x.ar l k))
    ∧ computes (.rcp w) (fun x l k r sat => fRcp f r sat (x.ar l k))
    ∧ computes (.rsq w) (fun x l k _ sat => fRsq f sat (x.ar l k))
    ∧ computes (.sqrt w) (fun x l k r sat => fSqrt f r sat (x.ar l k))
    ∧ computes (.exp2 w) (fun x l k _ sat => fExp2 f sat (x.ar l k))
    ∧ computes (.log2 w) (fun x l k _ _ => fLog2 f (x.ar l k))
    ∧ computes (.sin w) (fun x l k _ _ => fTrig f false (x.ar l k))
    ∧ computes (.cos w) (fun x l k _ _ => fTrig f true (x.ar l k))
    ∧ computes (.tanh w) (fun x l k _ _ => fTanh f (x.ar l k))

/-- R142 and R143 whole, of the element functions. -/
def Obligations.MinMaxAndSignElements : Prop :=
  (∀ (f : Fmt) (a b : Nat), f.hasSign = true → a < 2 ^ f.width → b < 2 ^ f.width →
    let x := decodeF f a
    let y := decodeF f b
    let sig := x.isSignalling || y.isSignalling
    ∀ isMax : Bool, (fMinMax f isMax a b).2 = { FFlags.clear with iv := sig }
      ∧ (x.isNaN = true → y.isNaN = true → (fMinMax f isMax a b).1 = canonicalNaN f)
      ∧ (x.isNaN = true → y.isNaN = false → (fMinMax f isMax a b).1 = b)
      ∧ (x.isNaN = false → y.isNaN = true → (fMinMax f isMax a b).1 = a)
      ∧ (x.isNaN = false → y.isNaN = false →
        let r := (fMinMax f isMax a b).1
        (r = a ∨ r = b) ∧ (if isMax then x.below y = true → r = b else x.below y = true → r = a)
        ∧ (if isMax then y.below x = true → r = a else y.below x = true → r = b)))
  ∧ (∀ (f : Fmt) (a : Nat), f.hasSign = true → a < 2 ^ f.width →
    let x := decodeF f a
    let top := f.ew + f.mw
    ∀ isNeg : Bool, (fSign f isNeg a).2 = { FFlags.clear with iv := x.isSignalling }
      ∧ (x.isNaN = true → (fSign f isNeg a).1 = canonicalNaN f)
      ∧ (x.isNaN = false → ∀ j, (fSign f isNeg a).1.testBit j =
          if j = top then isNeg && !a.testBit top else a.testBit j))
  ∧ (fSign .e2m1 true 0x0).1 = 0x8 ∧ (fSign .e4m3 false 0xFF).1 = 0x7F

/-- R153 whole, of the element functions. -/
def Obligations.SpecialOperands : Prop :=
  ∀ (f : Fmt) (r : Rnd) (sat : Bool) (a : Nat), f ∈ [Fmt.fp64, .fp32, .fp16, .bf16] →
    let zero (neg : Bool) := signBit f neg
    let inf (neg : Bool) := infCode f neg
    let one (neg : Bool) := signBit f neg + f.bias * 2 ^ f.mw
    let nan := canonicalNaN f
    let ok (x : Nat) : Nat × FFlags := (x, .clear)
    let dz (x : Nat) : Nat × FFlags := (x, { FFlags.clear with dz := true })
    match decodeF f a with
    | .nan s =>
      let quiet : Nat × FFlags := (nan, { FFlags.clear with iv := s })
      fRcp f r sat a = quiet ∧ fRsq f sat a = quiet ∧ fSqrt f r sat a = quiet ∧ fExp2 f sat a = quiet
      ∧ fLog2 f a = quiet ∧ fTrig f false a = quiet ∧ fTrig f true a = quiet ∧ fTanh f a = quiet
    | .inf n =>
      fRcp f r sat a = ok (zero n) ∧ fRsq f sat a = (if n then (nan, .invalid) else ok (zero false))
      ∧ fSqrt f r sat a = (if n then (nan, .invalid) else ok a)
      ∧ (f ≠ .fp64 → fExp2 f sat a = ok (if n then zero false else inf false)
          ∧ fLog2 f a = (if n then (nan, .invalid) else ok (inf false)) ∧ fTrig f false a = (nan, .invalid)
          ∧ fTrig f true a = (nan, .invalid) ∧ fTanh f a = ok (one n))
    | .fin n m e =>
      (m = 0 → fRcp f r sat a = dz (inf n) ∧ fRsq f sat a = dz (inf n) ∧ fSqrt f r sat a = ok a
        ∧ (f ≠ .fp64 → fExp2 f sat a = ok (one false) ∧ fLog2 f a = dz (inf true) ∧ fTrig f false a = ok a
            ∧ fTrig f true a = ok (one false) ∧ fTanh f a = ok a))
      ∧ (m ≠ 0 → fRcp f r sat a = roundTo f r sat n 1 m (-e)
        ∧ (n = true → fRsq f sat a = (nan, .invalid) ∧ fSqrt f r sat a = (nan, .invalid) ∧ fLog2 f a = (nan, .invalid)))

/-- R68's directions over exact fractions, and that representable values round to themselves. -/
def Obligations.RoundingDirections : Prop :=
  (∀ (r : Rnd) (neg : Bool) (n d : Nat) (e q : Int), 0 < d →
    let num := scaleUp n (e - q)
    let den := scaleUp d (q - e)
    let i := roundUnits r neg n d e q
    (i * den ≤ num → num < (i + 1) * den) ∧ (num < i * den → (i - 1) * den < num)
    ∧ (r = .rtz → i * den ≤ num) ∧ (r = .rdn → if neg then num ≤ i * den else i * den ≤ num)
    ∧ (r = .rup → if neg then i * den ≤ num else num ≤ i * den)
    ∧ (r = .rne → 2 * (i * den) ≤ 2 * num + den ∧ 2 * num ≤ 2 * (i * den) + den
        ∧ (2 * (i * den) = 2 * num + den ∨ 2 * num = 2 * (i * den) + den → i % 2 = 0)))
  ∧ ∀ (f : Fmt) (r : Rnd) (sat : Bool) (a : Nat) (neg : Bool) (m : Nat) (e : Int), a < 2 ^ f.width →
    decodeF f a = .fin neg m e → roundTo f r sat neg m 1 e = (a, .clear)

/-- R148, R149 and R154. -/
def Obligations.LaneConvertAndDotResults : Prop :=
  ∀ (s : State) (gid : Nat) (g : Group) (e : LiqEntry) (w : LaneWord),
    let t := w.t
    let st := w.srcType.getD .i32
    LaneComputes (.cvt w) w s gid g e t.regs (fun l v fl =>
      let x := laneIn s.m g e (.cvt w) w
      let a := elem st.ew (x.val st 0 w.a l) 0
      let c := convertTo t (if t.isInt then x.rndAt 12 else x.rndAt t.fmt.modeField)
        (if t.isInt then x.satAt 12 else x.satAt t.fmt.modeField)
        (if st.isInt then .fin (decide (st.read a < 0)) (st.read a).natAbs 0 else decodeF st.fmt a)
      v = c.1 % 2 ^ t.ew ∧ fl = c.2)
    ∧ LaneComputes (.cvtp w) w s gid g e t.regs (fun l v fl =>
      let x := laneIn s.m g e (.cvtp w) w
      let el (k : Nat) : Nat × FFlags :=
        if w.sub < 128 then
          convertF t.fmt (x.rndOf t.fmt) (x.satOf t.fmt) (decodeF st.fmt (elem st.ew (x.source st (k / st.count) l) (k % st.count)))
        else convertF t.fmt .rne false (decodeF st.fmt (elem st.ew (x.a st l) (bits w.sub 5 2 * t.count + k)))
      (∀ k, k < t.count → elem t.ew v k = (el k).1 % 2 ^ t.ew)
      ∧ (fl.ov = true ↔ ∃ k, k < t.count ∧ (el k).2.ov = true) ∧ (fl.iv = true ↔ ∃ k, k < t.count ∧ (el k).2.iv = true))
    ∧ ∀ i ∈ [Instr.dot2 w, .dot4 w, .dot8 w], LaneComputes i w s gid g e 1 fun l v fl =>
      let x := laneIn s.m g e i w
      (t.isInt = true → fl = .clear ∧
        let exact : Int := (dotAcc t).read (x.c (dotAcc t) l)
          + ((List.range t.count).map fun k => t.read (elem t.ew (x.a t l) k) * t.read (elem t.ew (x.b t l) k)).sum
        v = (dotAcc t).deliver w.sat exact)
      ∧ (t.isInt = false → (v, fl) = dotF t (if w.sub % 2 = 1 then otherFp8 t else t) (x.rndOf .fp32) (x.satOf .fp32) (x.a t l)
          (x.b (if w.sub % 2 = 1 then otherFp8 t else t) l) (x.c .f32 l))

/-- R144 and R145. -/
def Obligations.PredicateResults : Prop :=
  ∀ (s : State) (gid : Nat) (g : Group) (e : LiqEntry) (w : LaneWord),
    let p (c : BitVec 9) (l : Nat) : Prop := c.toNat = 7 ∨ g.pred c.toNat l = true
    let logic (i : Instr) (is : Nat → Prop) : Prop :=
      LaneDecides i w s gid g e fun l b fl => fl = .clear ∧ (b = true ↔ is l)
    LaneDecides (.icmp w) w s gid g e (fun l b fl =>
      let x := laneIn s.m g e (.icmp w) w
      let a := x.ai l 0
      let c := x.bi l 0
      fl = .clear ∧ (w.sub = 0 → (b = true ↔ a = c)) ∧ (w.sub = 1 → (b = true ↔ a ≠ c)) ∧ (w.sub = 2 → (b = true ↔ a < c))
        ∧ (w.sub = 3 → (b = true ↔ a ≤ c)) ∧ (w.sub = 4 → (b = true ↔ a > c)) ∧ (w.sub = 5 → (b = true ↔ a ≥ c)))
    ∧ LaneDecides (.fcmp w) w s gid g e (fun l b fl =>
      let x := laneIn s.m g e (.fcmp w) w
      let a := decodeF w.t.fmt (x.ar l 0)
      let c := decodeF w.t.fmt (x.br l 0)
      let un := a.isNaN = true ∨ c.isNaN = true
      fl = { FFlags.clear with iv := a.isSignalling || c.isSignalling }
        ∧ (un → (b = true ↔ w.sub = 1 ∨ w.sub = 6))
        ∧ (¬ un → a.isZero = true → c.isZero = true → (b = true ↔ w.sub ∈ [0, 3, 5, 7]))
        ∧ (¬ un → ¬ (a.isZero = true ∧ c.isZero = true) → a.below c = true → (b = true ↔ w.sub ∈ [1, 2, 3, 7]))
        ∧ (¬ un → ¬ (a.isZero = true ∧ c.isZero = true) → a.below c = false → c.below a = true → (b = true ↔ w.sub ∈ [1, 4, 5, 7]))
        ∧ (¬ un → a.below c = false → c.below a = false → (b = true ↔ w.sub ∈ [0, 3, 5, 7])))
    ∧ logic (.pand w) (fun l => p w.a l ∧ p w.b l) ∧ logic (.por w) (fun l => p w.a l ∨ p w.b l)
    ∧ logic (.pxor w) (fun l => ¬ (p w.a l ↔ p w.b l)) ∧ logic (.pnot w) (fun l => ¬ p w.a l) ∧ logic (.pmov w) (fun l => p w.a l)

/-- R146, R147, the lq form of R156, R158, SHDW (R159, R335, R344) and the hint space of R51. -/
def Obligations.QueuePushResults : Prop :=
  ∀ (s : State) (gid : Nat) (g : Group) (e : LiqEntry) (w : LaneWord),
    let p (l : Nat) : Prop := w.a.toNat = 7 ∨ g.pred w.a.toNat l = true
    let pushes (i : Instr) (es : List Word) (fl : FFlags) : Prop :=
      LaneLeaves i w s gid g e { g with qs := { g.qs with lq := g.qs.lq ++ es }, fpstat := g.fpstat ||| fl.word } fun _ => True
    ((Instr.psum w).wf = true → Issues s gid g e (.psum w) →
      ∃ q : BitVec 2, (q.getLsbD 0 = true ↔ ∃ l, effective g e w l ∧ p l) ∧ (q.getLsbD 1 = true ↔ ∀ l, effective g e w l → p l)
        ∧ LaneLeaves (.psum w) w s gid g e { g with qs := { g.qs with fq := g.qs.fq ++ [q] } } fun _ => True)
    ∧ ((Instr.ptoq w).wf = true → Issues s gid g e (.ptoq w) →
      ∃ es : List Word, es.length = g.width / 32
        ∧ (∀ (b : Nat) (x : Word), es[b]? = some x → ∀ j, j < 32 → (x.getLsbD j = true ↔ effective g e w (32 * b + j) ∧ p (32 * b + j)))
        ∧ pushes (.ptoq w) es .clear)
    ∧ ((Instr.bcast w).wf = true → w.dst = 0x145 → Issues s gid g e (.bcast w) →
      let x := laneIn s.m g e (.bcast w) w
      let from_ := (x.raw 1 w.b 0).toNat % g.width
      ReadsPass (.bcast w) g [from_] → pushes (.bcast w) [BitVec.ofNat 32 (x.a w.t from_)] .clear)
    ∧ ((Instr.redq w).wf = true → Issues s gid g e (.redq w) →
      let x := laneIn s.m g e (.redq w) w
      ReadsPass (.redq w) g x.lanes → ∃ tree : Nat → Nat → Nat × FFlags,
        (∀ l, effective g e w l → tree 0 l = (x.a w.t l, .clear))
        ∧ (∀ l, l < 128 → ¬ effective g e w l → tree 0 l = (redIdentity w.t w.sub, .clear))
        ∧ (∀ n k, n < 7 → k < 2 ^ (6 - n) → tree (n + 1) k
            = redStep w.t w.sub (x.rndOf .fp32) (x.satOf .fp32) w.sat (tree n (2 * k)) (tree n (2 * k + 1)))
        ∧ pushes (.redq w) [BitVec.ofNat 32 (tree 7 0).1] (tree 7 0).2)
    ∧ ((Instr.shdw w).wf = true → Issues s gid g e (.shdw w) →
      let c := g.chain.getD Chain.empty
      let found := c.shadows.find? fun r => r.reg = w.dst.toNat
      (found = none → LaneLeaves (.shdw w) w s gid g e g fun _ => True)
      ∧ ∀ r, found = some r →
        let halves := if r.wide then 2 else 1
        let residue (y : Dword) (h : Nat) : Nat := y.toNat / 2 ^ (32 * h) % 2 ^ 32 % 63
        let differs : Prop := ∃ v ∈ r.vals, ∃ h, h < halves ∧ (g.vreg (r.reg + h) v.1).toNat % 63 ≠ residue v.2 h
        let forced : Prop := ∃ a, e.inject = some (2, a)
        let stale := g.readFails (shadowSources c w.dst.toNat) (r.vals.map Prod.fst)
        (stale = true → exec (.shdw w) s = .next { s with m := detectedError s.m gid 1 })
        ∧ (stale = false → forced →
            let fired := { g with qs := { g.qs with liq := { e with inject := none } :: g.qs.liq.drop 1 } }
            exec (.shdw w) s = .next { s with m := detectedError (s.m.setGrp gid fired) gid 2 })
        ∧ (stale = false → ¬ forced → differs → exec (.shdw w) s = .next { s with m := detectedError s.m gid 2 })
        ∧ (stale = false → ¬ forced → ¬ differs → ∃ g1, g1 = { g with v := g1.v, chk := g1.chk }
            ∧ (∀ v ∈ r.vals, ∀ h, h < halves → ∃ v' ∈ r.vals, ∃ h', h' < halves ∧ (r.reg + h') * 128 + v'.1 = (r.reg + h) * 128 + v.1
                ∧ aget g1.chk ((r.reg + h) * 128 + v.1) = some (.valid (residue v'.2 h')))
            ∧ (∀ k, (∀ v ∈ r.vals, ∀ h, h < halves → k ≠ (r.reg + h) * 128 + v.1) → aget g1.chk k = aget g.chk k)
            ∧ (∀ a v rest, e.inject = some (1, a) → r.vals = v :: rest →
                g1.vreg r.reg v.1 = g.vreg r.reg v.1 ^^^ BitVec.ofNat 32 (2 ^ (a % 32))
                ∧ ∀ n l, n * 128 + l ≠ r.reg * 128 + v.1 → g1.vreg n l = g.vreg n l)
            ∧ ((∀ a, e.inject ≠ some (1, a)) ∨ r.vals = [] → g1.v = g.v)
            ∧ LaneLeaves (.shdw w) w s gid g e g1 fun _ => True))
    ∧ ∀ h : BitVec 4, (Instr.laneHint h w).wf = true → Issues s gid g e (.laneHint h w) → LaneLeaves (.laneHint h w) w s gid g e g fun _ => True

/-! Memory: scalar and lane accesses, atomics, fences and waits (05_scalar.md, 07_memory.md). -/

/-- R113 and R114 for the loads. -/
def Obligations.ScalarLoads : Prop :=
  ∀ (s : State) (gid : Nat) (g : Group) (sd sa : Sreg) (imm : BitVec 14), Here s gid g →
    let va := (g.s sa + BitVec.ofInt 64 imm.toInt).toNat
    let loads (i : Instr) (major size : Nat) (ext : Nat → Dword) : Prop :=
      let gives (m1 : Mach) (v : Nat) : Prop := LeavesIn i s gid m1 (g.setS sd (ext v)) (g.spc + 4) (scalarCode major 0)
      (va % size ≠ 0 → exec i s = .next { s with m := scalarTrapAt s.m gid .misaligned (BitVec.ofNat 64 va) })
      ∧ (∀ c a, va % size = 0 → locate s.m g 0 va size .read true = .error (c, a) →
          exec i s = .next { s with m := scalarTrapAt (afterLocate s.m g 0 va .read) gid c a })
      ∧ ∀ l, va % size = 0 → locate s.m g 0 va size .read true = .ok l →
          LookedUp s.m l.m g.core g.ctx (translatedAt s.m g 0 va)
          ∧ (∀ p, l.port = some p → CrossesFabric i s gid g l.m p)
          ∧ (∀ p lost, l.port = some p → g.fabric = .done lost → p ∈ lost → gives l.m (2 ^ (8 * size) - 1))
          ∧ ((∀ port far, l.loc ≠ .ext port far) →
              ∃ m1 bs, OnlyL1 l.m m1 g.core ∧ bs.length = size ∧ MayLoad l.m g l.loc .grp bs ∧ gives m1 (numberOf bs))
          ∧ ∀ port far, l.loc = .ext port far → l.port = none ∨ (∃ p lost, l.port = some p ∧ g.fabric = .done lost ∧ p ∉ lost) →
              let m1 := landAll (useLine l.m l.loc size) l.loc size
              gives m1 (numberOf ((List.range size).map fun k => readByte m1 (l.loc.plus k)))
    loads (.sldb sd sa imm) 0x0E 1 (fun v => BitVec.ofNat 64 v) ∧ loads (.sldh sd sa imm) 0x0F 2 (fun v => BitVec.ofNat 64 v)
    ∧ loads (.sldw sd sa imm) 0x10 4 (fun v => BitVec.ofNat 64 v) ∧ loads (.sldd sd sa imm) 0x11 8 (fun v => BitVec.ofNat 64 v)
    ∧ loads (.sldbx sd sa imm) 0x12 1 (fun v => (BitVec.ofNat 8 v).signExtend 64)
    ∧ loads (.sldhx sd sa imm) 0x13 2 (fun v => (BitVec.ofNat 16 v).signExtend 64)
    ∧ loads (.sldwx sd sa imm) 0x14 4 (fun v => (BitVec.ofNat 32 v).signExtend 64)

/-- R113 and R114 for the stores. -/
def Obligations.ScalarStores : Prop :=
  ∀ (s : State) (gid : Nat) (g : Group) (sd sa : Sreg) (imm : BitVec 14), Here s gid g →
    let va := (g.s sa + BitVec.ofInt 64 imm.toInt).toNat
    let stores (i : Instr) (major size : Nat) : Prop :=
      (va % size ≠ 0 → exec i s = .next { s with m := scalarTrapAt s.m gid .misaligned (BitVec.ofNat 64 va) })
      ∧ (∀ c a, va % size = 0 → locate s.m g 0 va size .write true = .error (c, a) →
          exec i s = .next { s with m := scalarTrapAt (afterLocate s.m g 0 va .write) gid c a })
      ∧ ∀ l, va % size = 0 → locate s.m g 0 va size .write true = .ok l →
          LookedUp s.m l.m g.core g.ctx (translatedAt s.m g 0 va)
          ∧ (∀ p, l.port = some p → CrossesFabric i s gid g l.m p)
          ∧ (plainAt l.m l.loc size → ∃ m1, OnlyMemory l.m m1 g.core ∧ StoredAt l.m m1 l.loc (bytesOf size (g.s sd).toNat)
              ∧ LeavesIn i s gid m1 g (g.spc + 4) (scalarCode major 0))
          ∧ ∀ port far, l.loc = .ext port far → l.port = none ∨ g.fabric = .done [] → ∃ m1,
              (∀ k, k < size → readByte m1 (l.loc.plus k) = BitVec.ofNat 8 ((g.s sd).toNat / 2 ^ (8 * k)))
              ∧ (∀ x, x.key < 2 ^ 60 → unlogged l.m x → readByte m1 x = readByte l.m x)
              ∧ LeavesIn i s gid m1 g (g.spc + 4) (scalarCode major 0)
    stores (.sstb sd sa imm) 0x15 1 ∧ stores (.ssth sd sa imm) 0x16 2 ∧ stores (.sstw sd sa imm) 0x17 4
    ∧ stores (.sstd sd sa imm) 0x18 8

/-- R116: its operations and its illegal uses. -/
def Obligations.ScalarAtomics : Prop :=
  ∀ (s : State) (gid : Nat) (g : Group) (scope : BitVec 3) (op : BitVec 5) (sd sa sb : Sreg), Here s gid g →
    let i : Instr := .satom scope op sd sa sb
    let va := (g.s sa).toNat
    let b := g.s sb
    let new (old : Dword) : Dword :=
      if op = 0 then old + b else if op = 1 then old &&& b else if op = 2 then old ||| b else if op = 3 then old ^^^ b
      else if op = 4 then BitVec.ofInt 64 (min old.toInt b.toInt) else if op = 5 then BitVec.ofInt 64 (max old.toInt b.toInt)
      else if op = 6 then BitVec.ofNat 64 (min old.toNat b.toNat) else if op = 7 then BitVec.ofNat 64 (max old.toNat b.toNat) else b
    (5 ≤ scope.toNat ∨ 10 ≤ op.toNat → Traps i s gid .illegal)
    ∧ (scope.toNat < 5 → op.toNat < 10 →
      (g.rgn ≠ [] → scope ≠ 0 → Traps i s gid .publishInRegion)
      ∧ (g.rgn = [] ∨ scope = 0 →
        (va % 8 ≠ 0 → exec i s = .next { s with m := scalarTrapAt s.m gid .misaligned (g.s sa) })
        ∧ (∀ c a, va % 8 = 0 → locate s.m g 0 va 8 .atomic false = .error (c, a) →
            exec i s = .next { s with m := scalarTrapAt (afterLocate s.m g 0 va .atomic) gid c a })
        ∧ ∀ l, va % 8 = 0 → locate s.m g 0 va 8 .atomic false = .ok l →
            LookedUp s.m l.m g.core g.ctx (translatedAt s.m g 0 va)
            ∧ (∀ p, l.port = some p → CrossesFabric i s gid g l.m p)
            ∧ (plainAt l.m l.loc 8 → ∃ m1,
              let old := BitVec.ofNat 64 (numberOf ((List.range 8).map fun k => readByte l.m (l.loc.plus k)))
              OnlyMemory l.m m1 g.core
              ∧ (if op = 9 ∧ old ≠ g.s sd then SameOutside l.m m1 (fun _ => False) else StoredAt l.m m1 l.loc (bytesOf 8 (new old).toNat))
              ∧ LeavesIn i s gid m1 (g.setS sd old) (g.spc + 4) (scalarCode 0x19 (scope.toNat * 32 + op.toNat)))))

/-- R185 to R187 with R169. -/
def Obligations.FencesAndWaits : Prop :=
  (∀ (s : State) (gid : Nat) (g : Group), Here s gid g →
    let spread := ∃ t, aget s.m.teams g.team = some t ∧ t.spans = true
    (∀ scope : BitVec 3, let i : Instr := .fence scope
      (5 ≤ scope.toNat → Traps i s gid .illegal)
      ∧ (scope.toNat < 5 → g.rgn ≠ [] → scope ≠ 0 → Traps i s gid .publishInRegion)
      ∧ (scope.toNat < 5 → g.rgn = [] ∨ scope = 0 →
        let held := g.heldBack = true ∨ (scope = 4 ∧ ∃ kp ∈ s.m.psts, kp.2.group = gid)
        (held → Waits i s gid g)
        ∧ (¬ held → (2 ≤ scope.toNat ∨ (scope = 1 ∧ spread) → LeavesIn i s gid (acquired s.m g) g (g.spc + 4) (scalarCode 0x22 scope.toNat))
          ∧ (scope = 1 → ¬ spread → LeavesIn i s gid (boundSeen s.m g) g (g.spc + 4) (scalarCode 0x22 1))
          ∧ (scope = 0 → Leaves i s gid g (g.spc + 4) (scalarCode 0x22 0)))))
    ∧ ∀ sa : Sreg, let i : Instr := .qfence sa
      let set : BitVec 5 := (g.s sa).truncate 5
      let own := ∃ kw ∈ s.m.walks, kw.2.poster = some gid ∧ kw.2.over = false
      (g.rgn ≠ [] → set ≠ 0 → Traps i s gid .publishInRegion)
      ∧ (g.rgn = [] ∨ set = 0 →
        let stuck := set.getLsbD 2 = true ∧ g.serving ≠ none ∧ own
        (stuck → Traps i s gid .handlerWait)
        ∧ (¬ stuck → ∃ waits : List EngineEntry,
          (∀ team ix, EngineEntry.copy team ix ∈ waits ↔ set.getLsbD 1 = true ∧ team = g.team
            ∧ ∃ t, aget s.m.teams g.team = some t ∧ ∃ p ∈ t.pubs, p.group = gid ∧ p.ix = ix)
          ∧ (∀ id, EngineEntry.walk id ∈ waits ↔ set.getLsbD 2 = true ∧ ∃ w, (id, w) ∈ s.m.walks ∧ w.poster = some gid ∧ w.over = false)
          ∧ (∀ id, EngineEntry.pst id ∈ waits ↔ set.getLsbD 3 = true ∧ ∃ p, (id, p) ∈ s.m.psts ∧ p.group = gid)
          ∧ (waits ≠ [] → Leaves i s gid { g with joins := g.joins ++ [{ set := set, waits := waits }] } (g.spc + 4) (scalarCode 0x22 8))
          ∧ (waits = [] → LeavesIn i s gid (if set.getLsbD 0 = true ∧ set.toNat / 2 ≠ 0 then acquired s.m g else s.m) g (g.spc + 4) (scalarCode 0x22 8)))))
  ∧ ∀ (s : State) (gid : Nat) (g : Group) (cc : BitVec 3) (sd sa sb : Sreg), Here s gid g →
    let i : Instr := .waita cc sd sa sb
    let va := (g.s sa).toNat
    (6 ≤ cc.toNat → Traps i s gid .illegal)
    ∧ (cc.toNat < 6 →
      (va % 8 ≠ 0 → exec i s = .next { s with m := scalarTrapAt s.m gid .misaligned (g.s sa) })
      ∧ (∀ c a, va % 8 = 0 → locate s.m g 0 va 8 .read false = .error (c, a) →
          exec i s = .next { s with m := scalarTrapAt (afterLocate s.m g 0 va .read) gid c a })
      ∧ ∀ l, va % 8 = 0 → locate s.m g 0 va 8 .read false = .ok l →
        LookedUp s.m l.m g.core g.ctx (translatedAt s.m g 0 va)
        ∧ (∀ p, l.port = some p → CrossesFabric i s gid g l.m p)
        ∧ ((∀ port far, l.loc ≠ .ext port far) → ∃ m1, OnlyL1 l.m m1 g.core ∧
          let v := BitVec.ofNat 64 (numberOf ((List.range 8).map fun k => readByte l.m (l.loc.plus k)))
          let b := g.s sb
          let now := (s.m.core g.core).clk
          let from_ := g.waitedFrom.getD now
          let holds := (cc = 0 ∧ v = b) ∨ (cc = 1 ∧ v ≠ b) ∨ (cc = 2 ∧ v.toInt < b.toInt) ∨ (cc = 3 ∧ b.toInt ≤ v.toInt)
            ∨ (cc = 4 ∧ v.toNat < b.toNat) ∨ (cc = 5 ∧ b.toNat ≤ v.toNat)
          let ends := holds ∨ (g.s sd).toNat ≤ now - from_
          let waits : Group := heldGroup { g with waitedFrom := some from_, fabric := .none, flight := none } .retry
          (ends → LeavesIn i s gid m1 (g.setS sd v) (g.spc + 4) (scalarCode 0x22 (0x10 + cc.toNat)))
          ∧ (¬ ends → exec i s = .next { s with m := m1.setGrp gid waits })))

/-- R173, R174 and R176. -/
def Obligations.LaneLoads : Prop :=
  ∀ (s : State) (gid : Nat) (g : Group) (e : LiqEntry) (w : LaneWord),
    let i : Instr := .ld w
    i.wf = true → Issues s gid g e i → ReadsPass i g (laneIn s.m g e i w).lanes →
    let x := laneIn s.m g e i w
    let size := sizeBytes w.size
    let scope := Scope.ofCode w.scope
    ∀ m1 as_ fs, checkLanes (fun m l => checkLane m g l (x.ea l) size .read true) x.lanes s.m = (m1, as_, fs) →
      (fs ≠ [] → exec i s = .next { s with m := laneFaults m1 gid g e fs })
      ∧ (fs = [] → as_.map LaneAccess.lane = x.lanes
        ∧ LookedUpAll g.core g.ctx (x.lanes.map fun l => translatedAt s.m g l (x.ea l)) s.m m1
        ∧ (portsOf size as_ ≠ [] →
          SendsLanes i s gid g m1 size (portsOf size as_))
        ∧ ((portsOf size as_ = [] ∨ ∃ lost, g.fabric = .done lost) →
          ∃ (m2 : Mach) (f : Nat → Nat × FFlags) (g1 : Group),
            ((∀ a ∈ as_, ∀ port far, a.loc.loc ≠ .ext port far) → OnlyL1 m1 { m2 with teams := m1.teams } g.core)
            ∧ m2.teams = (if acquires w = true ∧ w.scope ≠ 0 then boundSeen m1 g else m1).teams
            ∧ (acquires w = true → 2 ≤ w.scope → (m2.core g.core).l1 = [])
            ∧ (∀ a ∈ as_, (f a.lane).2 = .clear ∧ ∃ v,
              (if w.t = .i32 then (f a.lane).1 = ((BitVec.ofNat (8 * size) v).signExtend 32).toNat else (f a.lane).1 = v)
              ∧ (∀ p lost, a.loc.port = some p → g.fabric = .done lost → p ∈ lost → a.early g = none → v = 2 ^ (8 * size) - 1)
              ∧ ((∀ port far, a.loc.loc ≠ .ext port far) → a.early g = none →
                  ∃ bs, bs.length = size ∧ v = numberOf bs ∧ MayLoad m1 g a.loc.loc scope bs))
            ∧ Wrote g g1 e w (if size = 16 then 4 else if size = 8 then 2 else 1) f
            ∧ LaneLeavesIn i w s gid m2 g e g1 fun g' => Captured g g' e w f))

/-- R173, R174 and R177. -/
def Obligations.LaneStores : Prop :=
  ∀ (s : State) (gid : Nat) (g : Group) (e : LiqEntry) (w : LaneWord),
    let i : Instr := .st w
    i.wf = true → Issues s gid g e i → ReadsPass i g (laneIn s.m g e i w).lanes →
    let x := laneIn s.m g e i w
    let size := sizeBytes w.size
    (g.rgn ≠ [] → releases w = true → exec i s = .next { s with m := laneTrap s.m gid g e .publishInRegion 0 })
    ∧ (g.rgn = [] ∨ releases w = false →
      ∀ m1 as_ fs, checkLanes (fun m l => checkLane m g l (x.ea l) size .write true) x.lanes s.m = (m1, as_, fs) →
      (fs ≠ [] → exec i s = .next { s with m := laneFaults m1 gid g e fs })
      ∧ (fs = [] → as_.map LaneAccess.lane = x.lanes
        ∧ LookedUpAll g.core g.ctx (x.lanes.map fun l => translatedAt s.m g l (x.ea l)) s.m m1
        ∧ (portsOf size as_ ≠ [] → SendsLanes i s gid g m1 size (portsOf size as_))
        ∧ ((∀ a ∈ as_, plainAt m1 a.loc.loc size) → ∃ (order : List LaneAccess) (m2 : Mach),
          order.Perm as_ ∧ (anyOverlap size as_ = false → order = as_)
          ∧ InTurn (fun m a _ m' => StoredAt m m' a.loc.loc (bytesOf size (x.dataOf size a.lane))) (order.map fun a => (a, 0)) m1 m2
          ∧ OnlyMemory m1 m2 g.core
          ∧ SameOutside m1 m2 (fun key => ∃ a ∈ as_, ∃ k, k < size ∧ key = (a.loc.loc.plus k).key)
          ∧ LaneLeavesIn i w s gid m2 g e g fun _ => True)))

/-- R178 to R180. -/
def Obligations.LaneAtomics : Prop :=
  ∀ (s : State) (gid : Nat) (g : Group) (e : LiqEntry) (w : LaneWord),
    let t := w.t
    let op := w.d.toNat
    let applies (i : Instr) (new : LaneIn → Nat → Nat → Option Nat → Prop) : Prop :=
      i.wf = true → Issues s gid g e i → ReadsPass i g (laneIn s.m g e i w).lanes →
      let x := laneIn s.m g e i w
      let size := sizeBytes w.size
      let wide := releases w = true ∨ w.scope ≠ 0
      (g.rgn ≠ [] → wide → exec i s = .next { s with m := laneTrap s.m gid g e .publishInRegion 0 })
      ∧ (g.rgn = [] ∨ ¬ wide →
        ∀ m1 as_ fs, checkLanes (fun m l => checkLane m g l (x.ea l) size .atomic false) x.lanes s.m = (m1, as_, fs) →
        (fs ≠ [] → exec i s = .next { s with m := laneFaults m1 gid g e fs })
        ∧ (fs = [] → as_.map LaneAccess.lane = x.lanes
          ∧ LookedUpAll g.core g.ctx (x.lanes.map fun l => translatedAt s.m g l (x.ea l)) s.m m1
          ∧ (portsOf size as_ ≠ [] → SendsLanes i s gid g m1 size (portsOf size as_))
          ∧ ((∀ a ∈ as_, plainAt m1 a.loc.loc size) →
            ∃ (order : List (LaneAccess × Nat)) (m2 m3 : Mach) (f : Nat → Nat × FFlags) (g1 : Group),
            (order.map Prod.fst).Perm as_ ∧ (anyOverlap size as_ = false → order.map Prod.fst = as_)
            ∧ InTurn (fun m a old m' => old = numberOf ((List.range size).map fun k => readByte m (a.loc.loc.plus k))
                ∧ ∃ n, new x a.lane old n ∧ match n with
                  | some v => StoredAt m m' a.loc.loc (bytesOf size v)
                  | none => SameOutside m m' fun _ => False) order m1 m2
            ∧ (∀ a old, (a, old) ∈ order → f a.lane = (old, .clear))
            ∧ SameOutside m1 m2 (fun key => ∃ a ∈ as_, ∃ k, k < size ∧ key = (a.loc.loc.plus k).key)
            ∧ OnlyL1 m2 { m3 with teams := m2.teams } g.core ∧ OnlyMemory m1 { m3 with teams := m1.teams } g.core
            ∧ m3.teams = (if acquires w = true ∧ w.scope ≠ 0 then boundSeen m1 g else m1).teams ∧ Wrote g g1 e w t.regs f
            ∧ LaneLeavesIn i w s gid m3 g e g1 fun g' => Captured g g' e w f)))
    applies (.atom w) (fun x l old n =>
      let a := x.c t l
      n = some ((if op = 0 then old + a else if op = 1 then old &&& a else if op = 2 then old ||| a
        else if op = 3 then old ^^^ a else if op = 6 then a
        else if op = 4 then (if t.read a < t.read old then a else old) else (if t.read old < t.read a then a else old)) % 2 ^ t.bits))
    ∧ applies (.atomcas w) (fun x l old n => n = if old = x.c t l then some (x.d t l) else none)
    ∧ ∀ i ∈ [Instr.fatom w, .red w], applies i (fun x l old n => ∃ v, n = some v ∧ v < 2 ^ t.bits ∧ ∀ k, k < t.count →
        elem t.ew v k = (if op = 0 then fAdd t.fmt .rne false false (elem t.ew old k) (elem t.ew (x.c t l) k)
          else fMinMax t.fmt (decide (op ≠ 1)) (elem t.ew old k) (elem t.ew (x.c t l) k)).1 % 2 ^ t.ew)

/-- R182 to R184 as they issue. -/
def Obligations.PrefetchDiscardPost : Prop :=
  ∀ (s : State) (gid : Nat) (g : Group) (e : LiqEntry) (w : LaneWord),
    let ready (i : Instr) : Prop := i.wf = true ∧ Issues s gid g e i ∧ ReadsPass i g (laneIn s.m g e i w).lanes
    (ready (.pref w) → ∃ m1, OnlyL1 s.m m1 g.core ∧ LaneLeavesIn (.pref w) w s gid m1 g e g fun _ => True)
    ∧ (ready (.discard w) →
      let x := laneIn s.m g e (.discard w) w
      ∀ m1 ps fs, discardLanes x x.lanes s.m = (m1, ps, fs) →
      (fs ≠ [] → exec (.discard w) s = .next { s with m := laneFaults m1 gid g e fs })
      ∧ (fs = [] → LookedUpAll g.core g.ctx (x.lanes.flatMap fun l =>
            (rangePieces (x.ea l) (x.raw 2 w.c l).toNat).map fun p => translatedAt s.m g l p.1) s.m m1
        ∧ ∃ m2, OnlyMemory m1 m2 g.core ∧ LaneLeavesIn (.discard w) w s gid m2 g e g (fun _ => True)
        ∧ (∀ p ∈ ps, ∀ pa k, p.1.loc = .dev pa → k < p.2 → ∃ seed, indetAt m2.indet (pa + k) = some seed)
        ∧ SameOutside m1 m2 fun key => ∃ p ∈ ps, ∃ pa, p.1.loc = .dev pa ∧ pa ≤ key ∧ key < pa + p.2))
    ∧ (ready (.pst w) →
      let i : Instr := .pst w
      let x := laneIn s.m g e i w
      let size := sizeBytes w.size
      (g.rgn ≠ [] → exec i s = .next { s with m := laneTrap s.m gid g e .publishInRegion 0 })
      ∧ (g.rgn = [] → ∀ m1 as_ fs, checkLanes (checkPst x size) x.lanes s.m = (m1, as_, fs) →
        (fs ≠ [] → exec i s = .next { s with m := laneFaults m1 gid g e fs })
        ∧ (fs = [] → LookedUpAll g.core g.ctx (x.lanes.map fun l => translatedAt s.m g l (x.ea l)) s.m m1
          ∧ ∃ m2 order, LaneLeavesIn i w s gid m2 g e g (fun _ => True) ∧ List.Perm order as_
          ∧ m2.nextId = m1.nextId + as_.length
          ∧ (∀ k a, order[k]? = some a → ∃ port far p, a.loc.loc = .ext port far ∧ aget m2.psts (m1.nextId + k) = some p
              ∧ p.ctx = g.ctx ∧ p.node = g.node ∧ p.stamp = g.stamp ∧ p.group = gid ∧ p.port = port ∧ p.far = far
              ∧ p.batch = m1.nextId ∧ p.size = size ∧ p.lost = false
              ∧ (let v := x.dataOf size a.lane
                 p.left.Sublist (if size = 16 then [(far, bytesOf 8 v), (far + 8, bytesOf 8 (v / 2 ^ 64))] else [(far, bytesOf size v)])))
          ∧ (let held := if as_ = [] then m1 else takeHere m1 g g.node g.stamp
             m2.root = held.root ∧ m2.ctxs = held.ctxs ∧ ∀ c, (m2.cluster c).deltas = (held.cluster c).deltas)
          ∧ ∀ l, l.key < 2 ^ 60 → unlogged m1 l → readByte m2 l = readByte m1 l)))

/-! Barriers, the copy ring, regions, stamps, frontiers and tasks (09_barrier.md, 15_region.md, 13_time.md, 14_task.md). -/

/-- R233 to R241 for the instructions that change a slot or a binding. -/
def Obligations.BarrierUpdates : Prop :=
  ∀ (s : State) (gid : Nat) (g : Group), Here s gid g →
    let code (op name : Nat) : Dword := scalarCode 0x29 (op * 16 + name)
    let trapsAt (i : Instr) (c : Cause) (a : Dword) : Prop := exec i s = .next { s with m := scalarTrapAt s.m gid c a }
    let checked (i : Instr) (sa : Sreg) (ok : Nat → Team → Prop) : Prop :=
      let va := g.s sa
      (va.toNat % 16 ≠ 0 → trapsAt i .misaligned va)
      ∧ (va.toNat % 16 = 0 → spadOf g va.toNat = none → trapsAt i .barrierWindow va)
      ∧ ∀ a, va.toNat % 16 = 0 → spadOf g va.toNat = some a →
        (spadReserved s.m g.ctx a 16 = false → trapsAt i .windowProtection va)
        ∧ (spadReserved s.m g.ctx a 16 = true → ∀ t, aget s.m.teams g.team = some t →
          (a < t.share ∨ t.share + t.size < a + 16 → trapsAt i .barrierWindow va)
          ∧ (t.share ≤ a → a + 16 ≤ t.share + t.size → ok a t))
    let named (i : Instr) (name : Nat) (ok : Nat → BSlot → Prop) : Prop :=
      (∀ t, aget s.m.teams g.team = some t → resolution s.m t g name = none → Traps i s gid .barrierUnbound)
      ∧ (∀ t off, aget s.m.teams g.team = some t → resolution s.m t g name = some off → aget s.m.slots (t.share + off) = none
          → Traps i s gid .barrierNotLive)
      ∧ ∀ off key b, Named s.m g name off key b → ok key b
    (∀ (t : Team) (name : Nat),
      let r := resolution s.m t g name
      r = (t.binds[name]?).bind id ∨ ∃ o ∈ t.olds, o.name = name ∧ o.by_ ≠ originOf g ∧ originOf g ∉ o.seen ∧ r = o.old)
    ∧ (∀ sa sb : Sreg, let i : Instr := .barInit sa sb
      (g.rgn ≠ [] → Traps i s gid .publishInRegion)
      ∧ (g.rgn = [] → checked i sa fun a _ =>
        let cfg := (g.s sb).toNat
        let bad := cfg % 2 ^ 16 = 0 ∨ 2 ^ 24 < cfg / 2 ^ 32 ∨ cfg / 2 ^ 17 % 2 ^ 15 ≠ 0
        (bad → Traps i s gid .barrierRange) ∧ (¬ bad → (∃ b, aget s.m.slots a = some b) → trapsAt i .barrierLive (g.s sa))
        ∧ (¬ bad → aget s.m.slots a = none →
          let b : BSlot := { team := g.team, pend := cfg / 2 ^ 32, xbytes := cfg / 2 ^ 32, arr := 0, mem := cfg % 2 ^ 16, cm := cfg.testBit 16, phase := 0 }
          let m1 := { s.m with slots := aput s.m.slots a b }
          LeavesIn i s gid m1 g (g.spc + 4) (code 0 0) ∧ (a % 16 = 0 → SameOutside s.m m1 fun k => ∃ x, k = (Loc.spad x).key ∧ a ≤ x ∧ x < a + 16))))
    ∧ (∀ (name : BitVec 4) (sa : Sreg), checked (.barBind name sa) sa fun a t =>
        let was := (t.binds[name.toNat]?).bind id
        let new := some (a - t.share)
        let t1 : Team := if was = new then t else { t with
          binds := t.binds.set name.toNat new,
          olds := { name := name.toNat, old := was, by_ := originOf g, released := false, seen := [] } :: t.olds }
        (aget s.m.slots a = none → trapsAt (.barBind name sa) .barrierNotLive (g.s sa))
        ∧ (aget s.m.slots a ≠ none → LeavesIn (.barBind name sa) s gid { s.m with teams := aput s.m.teams g.team t1 } g
            (g.spc + 4) (code 1 name.toNat)))
    ∧ (∀ (name : BitVec 4) (sa : Sreg), let i : Instr := .barExpect name sa
      (g.rgn ≠ [] → Traps i s gid .publishInRegion)
      ∧ (g.rgn = [] → let n := (g.s sa).toNat
        (2 ^ 24 < n → Traps i s gid .barrierRange)
        ∧ (n ≤ 2 ^ 24 → named i name.toNat fun key b =>
          (2 ^ 31 - 1 < b.pend + n → Traps i s gid .barrierRange)
          ∧ (b.pend + n ≤ 2 ^ 31 - 1 → ∃ m1 g1, SlotUpdated s.m m1 key { b with pend := b.pend + n } ∧ m1.grp? gid = some g1
              ∧ LeavesIn i s gid m1 g1 (g.spc + 4) (code 2 name.toNat)))))
    ∧ (∀ (name : BitVec 4) (sd : Sreg), let i : Instr := .barArrive name sd
      (g.rgn ≠ [] → Traps i s gid .publishInRegion)
      ∧ (g.rgn = [] → named i name.toNat fun key b =>
        (b.arr = b.mem → Traps i s gid .barrierOverArrival)
        ∧ (b.arr ≠ b.mem → ∃ m1 g1, SlotUpdated s.m m1 key { b with arr := b.arr + 1 } ∧ m1.grp? gid = some g1
            ∧ LeavesIn i s gid m1 (g1.setS sd (BitVec.ofNat 64 b.phase)) (g.spc + 4) (code 3 name.toNat))))
    ∧ ∀ sa : Sreg, let i : Instr := .barDrop sa
      (g.rgn ≠ [] → Traps i s gid .publishInRegion)
      ∧ (g.rgn = [] → checked i sa fun a t =>
        let off := a - t.share
        let counts (p : Publication) : Prop :=
          (p.ix = t.head ∧ ∃ r, t.run = some r ∧ r.slot = some a)
          ∨ ((p.ix ≠ t.head ∨ t.run = none) ∧ (ringEntry s.m t p.ix).counted = true
            ∧ t.binds[(ringEntry s.m t p.ix).name]? = some (some off))
        let busy := (∃ kg ∈ s.m.groups, kg.2.team = g.team ∧ WaitsOn kg.2 off) ∨ ∃ p ∈ t.pubs, counts p
        (aget s.m.slots a = none → trapsAt i .barrierNotLive (g.s sa))
        ∧ (aget s.m.slots a ≠ none → busy → trapsAt i .barrierBusy (g.s sa))
        ∧ ∀ b, aget s.m.slots a = some b → ¬ busy → (∀ k, k < 16 → ringAt s.m (a + k) = none) → ∃ m1, LeavesIn i s gid m1 g (g.spc + 4) (code 6 0)
          ∧ aget m1.slots a = none ∧ (∀ k, k ≠ a → aget m1.slots k = aget s.m.slots k) ∧ (∀ k, k ≠ g.team → aget m1.teams k = aget s.m.teams k)
          ∧ aget m1.teams g.team = some { t with
              binds := t.binds.map (fun x => if x = some off then none else x),
              olds := t.olds.map fun o => if o.old = some off then { o with old := none } else o }
          ∧ (a % 16 = 0 → (∀ k, k < 16 → logAt s.m (a + k) = false →
              readByte m1 (.spad (a + k)) = BitVec.ofNat 8 ((slotImage b - 2 ^ 31) / 2 ^ (8 * k)))
            ∧ SameOutside s.m m1 fun k => ∃ x, k = (Loc.spad x).key ∧ a ≤ x ∧ x < a + 16))

/-- R241, R247, R253 and R254 as they issue. -/
def Obligations.BarrierWaits : Prop :=
  ∀ (s : State) (gid : Nat) (g : Group), Here s gid g →
    let acq := acquired s.m g
    (∀ (name : BitVec 4) (sa : Sreg) off key b, Named s.m g name.toNat off key b →
      let current := (g.s sa).toNat % 2 ^ 30 = b.phase
      let held : Group := heldGroup { g with bar := some (.on off b.phase) } (.barrier off)
      (g.bar = none → current → exec (.barWait name sa) s = .next { s with m := s.m.setGrp gid held })
      ∧ (g.bar = none → ¬ current → LeavesIn (.barWait name sa) s gid acq g (g.spc + 4) (scalarCode 0x29 (4 * 16 + name.toNat)))
      ∧ ∀ sd : Sreg, let code := scalarCode 0x29 (5 * 16 + name.toNat)
        (current → LeavesIn (.barTry name sd sa) s gid s.m (g.setS sd 0) (g.spc + 4) code)
        ∧ (¬ current → LeavesIn (.barTry name sd sa) s gid acq (g.setS sd 1) (g.spc + 4) code))
    ∧ (∀ (name : BitVec 4) (sa : Sreg) (t : Team), aget s.m.teams g.team = some t →
      let i : Instr := .barWait name sa
      let goesOn := LeavesIn i s gid acq g (g.spc + 4) (scalarCode 0x29 (4 * 16 + name.toNat))
      (g.bar = some .over → goesOn)
      ∧ ∀ off ph, g.bar = some (.on off ph) →
        let same := ∃ b, aget s.m.slots (t.share + off) = some b ∧ b.phase = ph
        (same → exec i s = .next { s with m := s.m.setGrp gid (heldGroup g (.barrier off)) }) ∧ (¬ same → goesOn))
    ∧ (∀ (name : BitVec 4) (sa sd : Sreg) (p : BitVec 1) (lab : BitVec 21) (t : Team), aget s.m.teams g.team = some t →
      let r := resolution s.m t g name.toNat
      let all (c : Cause) : Prop := (g.bar = none → Traps (.barWait name sa) s gid c)
        ∧ Traps (.barTry name sd sa) s gid c ∧ Traps (.yieldBar name p lab) s gid c
      (r = none → all .barrierUnbound) ∧ ∀ off, r = some off → aget s.m.slots (t.share + off) = none → all .barrierNotLive)
    ∧ (∀ (name : BitVec 4) (p : BitVec 1) (lab : BitVec 21) off key b, Named s.m g name.toNat off key b →
      let label := g.spc + BitVec.ofInt 64 (4 * lab.toInt)
      (b.phase % 2 ≠ p.toNat → LeavesIn (.yieldBar name p lab) s gid acq g label (scalarCode 0x2B 0))
      ∧ (b.phase % 2 = p.toNat → g.qs.liq = [] → g.isTrapped = false → ∃ g', Folded g g' (scalarCode 0x2B 0)
        ∧ g' = { g with spc := label, st := .waiting (.phase off b.phase), chain := none, waitedFrom := none, bar := none,
                        fabric := .none, flight := none, stuck := false, sig := g'.sig, sigq := g'.sigq }
        ∧ exec (.yieldBar name p lab) s = .next { s with m :=
            (s.m.setCore g.core { s.m.core g.core with memset := adel (s.m.core g.core).memset gid }).setGrp gid g' }))
    ∧ (∀ sd sa : Sreg, let i : Instr := .copyq sd sa
      (sa.toNat = 0 ∨ 57 < sa.toNat → Traps i s gid .illegal)
      ∧ (1 ≤ sa.toNat → sa.toNat ≤ 57 →
        let e : CopyEntry := { w0 := g.s sa, w1 := g.s (sa + 1), w2 := g.s (sa + 2), w3 := g.s (sa + 3) }
        (g.rgn ≠ [] → Traps i s gid .publishInRegion) ∧ (g.rgn = [] → e.valid = false → Traps i s gid .copyEntry)
        ∧ ∀ t, g.rgn = [] → e.valid = true → aget s.m.teams g.team = some t →
          (t.size = 0 → Traps i s gid .windowProtection)
          ∧ (0 < t.size → t.notify - t.head = 64 → Waits i s gid g)
          ∧ (0 < t.size → t.notify - t.head ≠ 64 →
            let at_ : Loc := .spad (t.share + 64 + 32 * (t.notify.toNat % 64))
            plainAt s.m at_ 32 → ∃ m1, LeavesIn i s gid m1 (g.setS sd ((t.notify + 1).zeroExtend 64)) (g.spc + 4) (scalarCode 0x2A 0)
              ∧ m1 = { s.m with mem := m1.mem, indet := m1.indet, teams := m1.teams }
              ∧ (∀ k, k ≠ g.team → aget m1.teams k = aget s.m.teams k)
              ∧ (∃ after, aget m1.teams g.team = some { t with notify := t.notify + 1, pubs := t.pubs ++ [{ ix := t.notify, group := gid, after := after }] })
              ∧ (∀ k, k < 32 → readByte m1 (at_.plus k)
                  = BitVec.ofNat 8 ([g.s sa, g.s (sa + 1), g.s (sa + 2), g.s (sa + 3)].getD (k / 8) 0 >>> (8 * (k % 8))).toNat)
              ∧ SameOutside s.m m1 fun key => (∃ k, k < 32 ∧ key = (at_.plus k).key) ∨ ∃ k, k < 64 ∧ key = (Loc.spad (t.share + k)).key)))
    ∧ ∀ sa sb : Sreg, let i : Instr := .pipeLim sa sb
      let lo := (g.s sa).toNat
      let hi := (g.s sb).toNat
      (¬ (1 ≤ lo ∧ lo ≤ hi ∧ hi ≤ 8) → Traps i s gid .operandRange)
      ∧ ∀ t, 1 ≤ lo → lo ≤ hi → hi ≤ 8 → aget s.m.teams g.team = some t →
        LeavesIn i s gid { s.m with teams := aput s.m.teams g.team { t with limits := some (lo, hi) } } g (g.spc + 4) (scalarCode 0x2C 1)

/-- R243, R244, R248 and R249. -/
def Obligations.CopyEngine : Prop :=
  (∀ e : CopyEntry,
    let w0 := e.w0.toNat
    let w1 := e.w1.toNat
    let w2 := e.w2.toNat
    let w3 := e.w3.toNat
    let bytes := w0 / 2 ^ 32 % 2 ^ 24
    let span := 16 * 2 ^ (w0 / 2 ^ 14 % 8)
    e.valid = true ↔ w0 / 2 ^ 56 = 0 ∧ w0 / 2 ^ 17 % 2 ^ 15 = 0 ∧ w0 % 256 ≤ 2 ∧ (w0 % 256 ≠ 0 →
      (w0 % 256 = 1 → w1 % 4 = 0 ∧ inOwnWindow e.w1 = false) ∧ (w0 % 256 = 2 → w1 / 2 ^ 32 = 0) ∧ w2 % 4 = 0 ∧ inOwnWindow e.w2 = false
      ∧ 4 ≤ bytes ∧ bytes % 4 = 0 ∧ w3 / 2 ^ 16 % 2 ^ 24 % 4 = 0 ∧ w3 / 2 ^ 40 % 4 = 0 ∧ (w3 % 2 ^ 16 + 1) * bytes ≤ 2 ^ 24
      ∧ (w0.testBit 13 = true → w2 % span = 0 ∧ w3 / 2 ^ 40 % span = 0 ∧ bytes % span = 0)))
  ∧ (∀ (s : State) (tid lat : Nat) (t : Team), aget s.m.teams tid = some t →
    (∃ m1, exec (.copyRingResume tid) s = .next { s with m := m1 } ∧ m1 = { s.m with teams := m1.teams }
      ∧ aget m1.teams tid = some { t with resuming := false } ∧ ∀ k, k ≠ tid → aget m1.teams k = aget s.m.teams k)
    ∧ (0 < t.size → t.saved = false → t.halt = false → t.resuming = false → t.head ≠ t.notify →
      ∀ p, t.pubs.find? (fun p => p.ix = t.head) = some p →
      let e := ringEntry s.m t t.head
      let met := ∀ x ∈ p.after, x.performed s.m = true
      let runs (m1 : Mach) : Prop := exec (.copyEntryPerform tid lat) s = .next { s with m := m1 }
      let halted (m : Mach) (cause : Nat) : Mach :=
        { m with teams := aput m.teams tid { (aget m.teams tid).getD t with halt := true, cause := cause, run := none } }
      let begun (r : CopyRun) : Mach := { s.m with teams := aput s.m.teams tid { t with run := some r } }
      let performed (m : Mach) (u : Team) : Mach :=
        let u1 := { u with head := u.head + 1, pubs := u.pubs.filter (fun q => q.ix != u.head), lats := u.lats ++ [lat], run := none }
        settleKernel { m with teams := aput m.teams tid u1 } u.kern
      (s.m.grp? p.group = none → runs (halted s.m 9))
      ∧ (s.m.grp? p.group ≠ none →
        (t.run = none → ¬ met → runs s.m)
        ∧ (t.run = none → met →
          (e.valid = false → runs (copyFault (halted s.m 3) p.group 0))
          ∧ (e.valid = true → e.w0.getLsbD 12 = true → (∀ off, t.binds[e.name]? ≠ some (some off)) → runs (copyFault (halted s.m 4) p.group 0))
          ∧ (e.valid = true → e.w0.getLsbD 12 = true → ∀ off, t.binds[e.name]? = some (some off) →
              (∀ b, aget s.m.slots (t.share + off) = some b → b.cm = false) → runs (copyFault (halted s.m 5) p.group 0))
          ∧ ∀ sl, e.valid = true → (e.w0.getLsbD 12 = false → sl = none) →
              (e.w0.getLsbD 12 = true → ∃ off b, t.binds[e.name]? = some (some off) ∧ sl = some (t.share + off)
                ∧ aget s.m.slots (t.share + off) = some b ∧ b.cm = true) →
              let r : CopyRun := { words := [e.w0, e.w1, e.w2, e.w3], slot := sl, rows := 0 }
              (e.op ≠ 0 → runs (begun r)) ∧ (e.op = 0 → runs (performed (begun r) { t with run := some r })))
        ∧ ∀ r, t.run = some r →
          let f := r.entry
          (f.op = 0 ∨ f.rows ≤ r.rows → runs (performed s.m t))
          ∧ (f.op ≠ 0 → r.rows < f.rows →
            let row := performRow s.m (t.share / spadSize) t.ctx f r.slot r.rows
            (∀ m1 cause a, row = .error (m1, cause, a) → runs (copyFault (halted m1 cause) p.group a))
            ∧ ∀ m1 u, row = .ok m1 → aget m1.teams tid = some u →
              let v : Team := { u with run := some { r with rows := r.rows + 1 } }
              let m2 : Mach := { m1 with teams := aput m1.teams tid v }
              (r.rows + 1 < f.rows → runs m2) ∧ (f.rows ≤ r.rows + 1 → runs (performed m2 v))))))
  ∧ ∀ (m m1 m2 : Mach) (core ctx : Nat) (e : CopyEntry) (slot : Option Nat) (r : Nat) (src dst : List Loc),
    e.valid = true → e.op ≠ 0 →
    let n := e.rowbytes / 4
    let apart (a b : Loc) : Prop := a.key + 4 ≤ b.key ∨ b.key + 4 ≤ a.key
    (if e.op = 1 then locateRow core ctx .read 1 n m ((e.w1.toNat + r * e.sstride) % 2 ^ 64) = .ok (m1, src) else m1 = m ∧ src = []) →
    locateRow core ctx .write 2 n m1 ((e.w2.toNat + r * e.dstride) % 2 ^ 64) = .ok (m2, dst) →
    (∀ l ∈ dst, plainAt m2 l 4) → (∀ l ∈ src, ∀ port far, l ≠ .ext port far) → dst.Pairwise apart → (∀ a ∈ src, ∀ b ∈ dst, apart a b) → (∀ a ∈ src, ∀ k, k < 4 → unlogged m2 (a.plus k)) →
    ∃ m3, m3 = { m2 with mem := m3.mem, indet := m3.indet, touched := m3.touched, ctxs := m3.ctxs, free := m3.free }
      ∧ SameOutside m2 m3 (fun key => ∃ l ∈ dst, l.key ≤ key ∧ key < l.key + 4)
      ∧ (∀ i b, i < n → b < 4 → ∃ l,
          let o := 4 * i
          let c := o % e.span
          let d := if e.swz then o - c + ((c / 16) ^^^ (r % (e.span / 16))) * 16 + c % 16 else o
          dst[d / 4]? = some l ∧ readByte m3 (l.plus b) = match src[i]? with
            | some x => readByte m2 (x.plus b)
            | none => BitVec.ofNat 8 (e.w1.toNat % 2 ^ 32 / 2 ^ (8 * b)))
      ∧ (slot = none → performRow m core ctx e slot r = .ok m3)
      ∧ ∀ key b, slot = some key → aget m3.slots key = some b →
        (-(2 ^ 31 : Int) ≤ b.pend - e.rowbytes → ∃ m4, performRow m core ctx e slot r = .ok m4
          ∧ SlotUpdated m3 m4 key { b with pend := b.pend - e.rowbytes })
        ∧ (b.pend - e.rowbytes < -(2 ^ 31 : Int) → performRow m core ctx e slot r = .error (m3, 8, 0))

/-- R322 to R327, R330 and R337. -/
def Obligations.RegionInstructions : Prop :=
  ∀ (s : State) (gid : Nat) (g : Group), Here s gid g →
    (∀ (sd : Sreg) (mask : BitVec 20), let i : Instr := .rgnOpen sd mask
      let legal := mask.toNat < 2 ^ 18 ∧ ∀ b, b < 16 → mask.getLsbD b = true → 16 * b < g.nregs
      let need := 64 + ((List.range 16).map fun b => if mask.getLsbD b then 4 * g.width * min 16 (g.nregs - 16 * b) else 0).sum
        + (if mask.getLsbD 16 then 512 else 0) + (if mask.getLsbD 17 then g.width else 0)
      (¬ legal → Traps i s gid .illegal) ∧ (legal → 4 ≤ g.rgn.length → Traps i s gid .regionDepth)
      ∧ (legal → g.rgn.length < 4 → g.qs.liq = [] →
        (¬ (g.qs.sq = [] ∧ g.qs.lq = [] ∧ g.qs.fq = []) → Traps i s gid .regionQueue)
        ∧ (g.qs.sq = [] → g.qs.lq = [] → g.qs.fq = [] →
          let opens (l : LogArea) : Prop :=
            (l.size < l.top + need → Traps i s gid .keepLogFull)
            ∧ (l.top + need ≤ l.size → ∃ r g', exec i s = .next { s with m := s.m.setGrp gid g' }
              ∧ g' = { g with rgn := r :: g.rgn, log := some { l with top := l.top + need }, sig := 0, sigq := [], spc := g.spc + 4,
                              st := g.st.woken, readyAt := g'.readyAt, waitedFrom := none, fabric := .none, flight := none,
                              stuck := false, bar := none, posting := g.posting.filter fun p => p.spc != g.spc }
              ∧ r.spc = g.spc + 4 ∧ r.lpc = g.lpc ∧ r.mask = mask ∧ r.retry = 0 ∧ r.prevTop = l.top ∧ r.shadTop = l.top + need ∧ r.keeps = []
              ∧ r.mode = g.mode ∧ r.fpstat = g.fpstat ∧ r.scalars = g.regs ∧ r.flags = g.flags ∧ r.preds = g.preds
              ∧ (∀ q k, k < 128 → aget r.vregs (q * 128 + k) = if mask.getLsbD (q / 16) then aget g.v (q * 128 + k) else none)
              ∧ ∀ x, unlogged (s.m.setGrp gid g') x → readByte (s.m.setGrp gid g') x = readByte s.m x)
          let lsize := 1024 * ((g.s sd).toNat / 2 ^ 57)
          let lbase := (g.s sd).toNat % 2 ^ 57
          (g.rgn ≠ [] → ∀ l, g.log = some l → opens l)
          ∧ (g.rgn = [] → sd = 0 ∨ lsize = 0 → Traps i s gid .keepLogFull)
          ∧ (g.rgn = [] → sd ≠ 0 → lsize ≠ 0 →
            let at_ := BitVec.ofNat 64 lbase
            let refuses (c : Cause) : Prop := exec i s = .next { s with m := scalarTrapAt s.m gid c at_ }
            (lbase % 16 ≠ 0 → refuses .misaligned) ∧ (lbase % 16 = 0 → spadOf g lbase = none → refuses .regionLog)
            ∧ ∀ a t, lbase % 16 = 0 → spadOf g lbase = some a → aget s.m.teams g.team = some t →
              let inside := lsize ≤ 2 ^ 16 ∧ t.share ≤ a ∧ a + lsize ≤ t.share + t.size ∧ spadOf g (lbase + lsize - 1) ≠ none
              (¬ inside → refuses .regionLog) ∧ (inside → spadRangeReserved s.m g.ctx a lsize = false → refuses .windowProtection)
              ∧ (inside → spadRangeReserved s.m g.ctx a lsize = true → opens { off := a - t.share, size := lsize, top := 0 })))))
    ∧ (∀ sa sb : Sreg, let i : Instr := .rgnKeep sa sb
      let n := (g.s sb).toNat
      let ps := rangePieces (g.s sa).toNat n
      let at_ := ps.map fun p => translatedAt s.m g 0 p.1
      (g.rgn = [] → Traps i s gid .regionState)
      ∧ (g.rgn ≠ [] → 2 ^ 16 < n → exec i s = .next { s with m := scalarTrapAt s.m gid .operandRange (g.s sa) })
      ∧ (g.rgn ≠ [] → n = 0 → Leaves i s gid g (g.spc + 4) (scalarCode 0x26 1))
      ∧ (g.rgn ≠ [] → 0 < n → n ≤ 2 ^ 16 →
        (∀ c a, locatePieces g 0 .read true ps s.m = .error (c, a) →
          exec i s = .next { s with m := scalarTrapAt (failingPiece g 0 .read true ps s.m).1 gid c a })
        ∧ ∀ m1 l0, locatePieces g 0 .read true ps s.m = .ok (m1, l0) →
          (∀ c a, locatePieces g 0 .write true ps m1 = .error (c, a) →
            exec i s = .next { s with m := scalarTrapAt (failingPiece g 0 .write true ps m1).1 gid c a })
          ∧ ∀ m2 ls l r rest, locatePieces g 0 .write true ps m1 = .ok (m2, ls) → g.log = some l → g.rgn = r :: rest →
            LookedUpAll g.core g.ctx (at_ ++ at_) s.m m2
            ∧ (l.size < l.top + 16 + (n + 15) / 16 * 16 → exec i s = .next { s with m := scalarTrapAt m2 gid .keepLogFull (g.s sa) })
            ∧ (l.top + 16 + (n + 15) / 16 * 16 ≤ l.size → (∀ p ∈ ls, ∀ port far, p.1.loc ≠ .ext port far) → ∃ m3 bss, OnlyL1 m2 m3 g.core
              ∧ List.Forall₂ (fun p bs => bs.length = p.2 ∧ MayLoad m2 g p.1.loc .grp bs) ls bss
              ∧ LeavesIn i s gid m3 { g with
                  rgn := { r with keeps := { addr := g.s sa, bytes := bss.flatten } :: r.keeps } :: rest,
                  log := some { l with top := l.top + 16 + (n + 15) / 16 * 16 } } (g.spc + 4) (scalarCode 0x26 1))))
    ∧ (g.rgn = [] → Traps .rgnClose s gid .regionState)
    ∧ (∀ r r2 rest l, g.rgn = r :: r2 :: rest → g.log = some l → g.qs.liq = [] →
        LeavesIn .rgnClose s gid s.m { g with rgn := r2 :: rest, log := some { l with top := r.prevTop } } (g.spc + 4) (scalarCode 0x26 2))
    ∧ (∀ r l t, g.rgn = [r] → g.log = some l → aget s.m.teams g.team = some t → g.qs.liq = [] → ∃ m1,
        LeavesIn .rgnClose s gid m1 { g with rgn := [], log := none } (g.spc + 4) (scalarCode 0x26 2)
        ∧ m1 = { s.m with indet := m1.indet, free := m1.free }
        ∧ (∀ k, k < l.size → ∃ seed, indetAt m1.indet (Loc.spad (t.share + l.off + k)).key = some seed)
        ∧ SameOutside s.m m1 fun key => ∃ k, k < l.size ∧ key = (Loc.spad (t.share + l.off + k)).key)
    ∧ ∀ imm : BitVec 32, let i : Instr := .sigChk imm
      let fired : Group := match g.inject with
        | some (3, arg) => { g with sig := g.sig ^^^ BitVec.ofNat 64 (2 ^ (arg % 64)), inject := none }
        | _ => g
      let word := fired.sig.toNat % 2 ^ 32 ^^^ fired.sig.toNat / 2 ^ 32
      (g.qs.liq ≠ [] → Waits i s gid g)
      ∧ (g.qs.liq = [] → word ≠ imm.toNat → exec i s = .next { s with m := detectedError (s.m.setGrp gid fired) gid 3 })
      ∧ (g.qs.liq = [] → word = imm.toNat → ∃ n, exec i s = .next { s with m := s.m.setGrp gid { fired with
          sig := 0, sigq := [], spc := g.spc + 8, st := g.st.woken, waitedFrom := none, fabric := .none, flight := none,
          stuck := false, bar := none, posting := g.posting.filter (fun p => p.spc != g.spc), readyAt := n } })

/-- R340 and R341, and who consumes a failed check. -/
def Obligations.RegionRollback : Prop :=
  (∀ (s : State) (gid : Nat) (g : Group) (e : LiqEntry) (w : LaneWord),
    ∀ i ∈ [Instr.iadd w, .fma w, .mov w, .icmp w, .ptoq w, .dot4 w, .ld w, .st w, .atom w, .pst w],
      Issues s gid g e i → ¬ ReadsPass i g (laneIn s.m g e i w).lanes → exec i s = .next { s with m := detectedError s.m gid 1 })
  ∧ ∀ (m : Mach) (gid : Nat) (g : Group) (src : Nat), m.grp? gid = some g →
    let stopped : Group := { g with qs := Queues.empty, aside := none, asideWait := none, traps := [], chain := none, lx := none, sigq := [],
                                    waitedFrom := none, fabric := .none, flight := none, stuck := false, bar := none, posting := none,
                                    inject := (match g.inject with | some k => some k | none => (g.qs.liq.filterMap LiqEntry.inject).head?),
                                    src := src, rolls := min 31 (g.rolls + 1) }
    let core := m.core g.core
    let m0 := (m.setGrp gid stopped).setCore g.core { core with chainOf := if core.chainOf = some gid then none else core.chainOf }
    (g.rgn = [] → (detectedError m gid src).grp? gid = none)
    ∧ ∀ r rest, g.rgn = r :: rest →
      (∀ m1, restoreKeeps gid stopped r.keeps m0 = .error m1 → (detectedError m gid src).grp? gid = none)
      ∧ ∀ m1, restoreKeeps gid stopped r.keeps m0 = .ok m1 →
        (r.keeps = [] → m1 = m0) ∧ m1.grp? gid = some stopped
        ∧ (3 ≤ r.retry → detectedError m gid src = rollback gid src rest (m1.setGrp gid { stopped with rgn := rest }))
        ∧ (3 ≤ r.retry → rest = [] → (detectedError m gid src).grp? gid = none)
        ∧ (r.retry < 3 → amapWf r.vregs = true → (∀ kv ∈ r.vregs, r.mask.getLsbD (kv.1 / 128 / 16) = true) →
          ∃ g', detectedError m gid src = m1.setGrp gid g'
            ∧ g' = { stopped with v := g'.v, chk := g'.chk, regs := g'.regs, flags := g'.flags, preds := g'.preds, mode := r.mode, fpstat := r.fpstat,
                                  rgn := { r with retry := r.retry + 1, keeps := [] } :: rest, sig := 0, spc := r.spc, lpc := r.lpc,
                                  log := g.log.map (fun l => { l with top := r.shadTop }), st := .ready, readyAt := g'.readyAt }
            ∧ (∀ q k, k < 128 → (r.mask.getLsbD (q / 16) = true → g'.vreg q k = (aget r.vregs (q * 128 + k)).getD 0 ∧ aget g'.chk (q * 128 + k) = none)
              ∧ (r.mask.getLsbD (q / 16) = false → g'.vreg q k = g.vreg q k ∧ aget g'.chk (q * 128 + k) = aget g.chk (q * 128 + k)))
            ∧ (∀ n : Fin 64, g'.regs[n] = if 61 ≤ n.val ∨ (r.mask.getLsbD 16 = true ∧ 1 ≤ n.val) then r.scalars[n] else g.regs[n])
            ∧ g'.flags = (if r.mask.getLsbD 16 then r.flags else g.flags) ∧ g'.preds = (if r.mask.getLsbD 17 then r.preds else g.preds))

/-! Stamps, frontiers and tasks (13_time.md, 14_task.md). -/

/-- R290, R291 and R306. -/
def Obligations.StampArithmetic : Prop :=
  let counter (t i : Nat) : Nat := t / 2 ^ (45 - 15 * i) % 2 ^ 15
  let depth (t : Nat) : Nat := t / 2 ^ 62 + 1
  let valid (t : Dword) : Prop := t.toNat / 2 ^ 60 % 4 = 0 ∧ ∀ i, i < 4 → depth t.toNat ≤ i → counter t.toNat i = 0
  (∀ t : Dword, stampValid t = true ↔ valid t)
  ∧ ∀ (s : State) (gid : Nat) (g : Group) (sd sa sb : Sreg), Here s gid g →
    let t := (g.s sa).toNat
    let n := (g.s sb).toNat
    let last := depth t - 1
    let code (func : Nat) : Dword := scalarCode 0x25 func
    (¬ valid (g.s sa) → ∀ i ∈ [Instr.stampGet sd sa sb, .stampInc sd sa sb, .stampEnter sd sa, .stampLeave sd sa], Traps i s gid .invalidStamp)
    ∧ (valid (g.s sa) →
      (3 < n → Traps (.stampGet sd sa sb) s gid .operandRange)
      ∧ (n ≤ 3 → WritesReg (.stampGet sd sa sb) s gid g sd (BitVec.ofNat 64 (if n < depth t then counter t n else 0)) (code 1))
      ∧ (2 ^ 15 - 1 < n → Traps (.stampInc sd sa sb) s gid .operandRange)
      ∧ (n < 2 ^ 15 → 2 ^ 15 - 1 < counter t last + n → Traps (.stampInc sd sa sb) s gid .stampOverflow)
      ∧ (n < 2 ^ 15 → counter t last + n < 2 ^ 15 →
          WritesReg (.stampInc sd sa sb) s gid g sd (BitVec.ofNat 64 (t + n * 2 ^ (45 - 15 * last))) (code 2))
      ∧ (depth t = 4 → Traps (.stampEnter sd sa) s gid .stampOverflow)
      ∧ (depth t < 4 → WritesReg (.stampEnter sd sa) s gid g sd (BitVec.ofNat 64 (t + 2 ^ 62)) (code 3))
      ∧ (depth t = 1 → Traps (.stampLeave sd sa) s gid .operandRange)
      ∧ (1 < depth t → WritesReg (.stampLeave sd sa) s gid g sd
          (BitVec.ofNat 64 (t - 2 ^ 62 - counter t last * 2 ^ (45 - 15 * last))) (code 4)))

/-- R292, R297, R299 and R307 to R309. -/
def Obligations.FrontierInstructions : Prop :=
  ∀ (s : State) (gid : Nat) (g : Group) (c : Context) (sd sa sb : Sreg), Here s gid g → aget s.m.ctxs g.ctx = some c →
    let n := (g.s sa).toNat
    let t := g.s sb
    let unit := clusterOf g.core
    let code (func : Nat) : Dword := scalarCode 0x25 func
    let known := n < c.nodes.length ∧ n < 2 ^ 10
    let fits := stampValid t = true ∧ stampDepth t = c.nodes.getD n 0
    let move := summaryIn c.sums g.node n g.stamp
    let barred := g.serving ≠ none ∨ g.kind = .task
    let floor := c.floorCopy unit n
    (g.rgn ≠ [] → ∀ i ∈ [Instr.stampSet sa sb, .frontHold sd sa sb, .frontDrop sa, .summLd sa], Traps i s gid .publishInRegion)
    ∧ (g.rgn = [] → barred → Traps (.stampSet sa sb) s gid .handlerState)
    ∧ (¬ known → (∀ i ∈ [Instr.frontWait sa sb, .frontTest sd sa sb], Traps i s gid .undeclaredNode)
        ∧ (g.rgn = [] → Traps (.frontHold sd sa sb) s gid .undeclaredNode ∧ (¬ barred → Traps (.stampSet sa sb) s gid .undeclaredNode)))
    ∧ (known → ¬ fits → (∀ i ∈ [Instr.frontWait sa sb, .frontTest sd sa sb], Traps i s gid .invalidStamp)
        ∧ (g.rgn = [] → Traps (.frontHold sd sa sb) s gid .invalidStamp ∧ (¬ barred → Traps (.stampSet sa sb) s gid .invalidStamp)))
    ∧ (known → fits →
      (g.rgn = [] → ¬ barred →
        (¬ (g.own = true ∧ move.le t = true) → Traps (.stampSet sa sb) s gid .stampRegress)
        ∧ (g.own = true → move.le t = true → n = g.node → t = g.stamp → Leaves (.stampSet sa sb) s gid g (g.spc + 4) (code 0))
        ∧ (g.own = true → move.le t = true → ¬ (n = g.node ∧ t = g.stamp) → g.qs.liq = [] →
          (rootHasRoom s.m g.ctx n t = false → Waits (.stampSet sa sb) s gid g)
          ∧ (rootHasRoom s.m g.ctx n t = true → ∃ m1, LeavesIn (.stampSet sa sb) s gid m1 { g with node := n, stamp := t } (g.spc + 4) (code 0)
            ∧ m1 = { s.m with clusters := m1.clusters } ∧ (∀ k, k ≠ unit → m1.cluster k = s.m.cluster k)
            ∧ (m1.cluster unit).deltas = (s.m.cluster unit).deltas
                ++ [{ ctx := g.ctx, node := n, stamp := t, n := 1 }, { ctx := g.ctx, node := g.node, stamp := g.stamp, n := -1 }])))
      ∧ (g.own = true → move.le t = true → Traps (.frontWait sa sb) s gid .frontierSelfWait)
      ∧ (¬ (g.own = true ∧ move.le t = true) →
        (floor.le t = false → LeavesIn (.frontWait sa sb) s gid (acquired s.m g) g (g.spc + 4) (code 8))
        ∧ (floor.le t = true → Waits (.frontWait sa sb) s gid g))
      ∧ (floor.le t = false → LeavesIn (.frontTest sd sa sb) s gid (acquired s.m g) (g.setS sd 1) (g.spc + 4) (code 9))
      ∧ (floor.le t = true → LeavesIn (.frontTest sd sa sb) s gid s.m (g.setS sd 0) (g.spc + 4) (code 9))
      ∧ (g.rgn = [] →
        let free (i : Nat) : Prop := ∃ gen, c.holds[i]? = some { gen := gen, pair := none }
        (justified s.m g n t = false → Traps (.frontHold sd sa sb) s gid .stampRegress)
        ∧ (justified s.m g n t = true → (∀ i, ¬ free i) → Traps (.frontHold sd sa sb) s gid .holdLimit)
        ∧ (justified s.m g n t = true → (∃ i, free i) → rootHasRoom s.m g.ctx n t = false → Waits (.frontHold sd sa sb) s gid g)
        ∧ (justified s.m g n t = true → (∃ i, free i) → rootHasRoom s.m g.ctx n t = true → ∃ i gen m1,
          c.holds[i]? = some { gen := gen, pair := none }
          ∧ LeavesIn (.frontHold sd sa sb) s gid m1 (g.setS sd (BitVec.ofNat 64 (gen % 2 ^ 24 * 256 + i))) (g.spc + 4) (code 10)
          ∧ m1 = { s.m with ctxs := m1.ctxs, clusters := m1.clusters, dies := m1.dies, root := m1.root, free := m1.free }
          ∧ (∃ c', aget m1.ctxs g.ctx = some c'
              ∧ c' = { c with holds := c.holds.set i { gen := gen, pair := some (n, t) }, npCount := c'.npCount })
          ∧ (∀ k, k ≠ unit → m1.cluster k = s.m.cluster k)
          ∧ (homeUnit s.m g = unit → m1.root = s.m.root ∧ m1.dies = s.m.dies
              ∧ (m1.cluster unit).deltas = (s.m.cluster unit).deltas ++ [{ ctx := g.ctx, node := n, stamp := t, n := 1 }])
          ∧ (homeUnit s.m g ≠ unit → (m1.cluster unit).deltas = []))))
    ∧ (g.rgn = [] → (2 ^ 32 ≤ n → Traps (.frontDrop sa) s gid .operandRange)
      ∧ (n < 2 ^ 32 → (∀ pr, c.holds[n % 256]? ≠ some { gen := n / 256, pair := some pr }) → Traps (.frontDrop sa) s gid .holdHandle)
      ∧ ∀ hn ht, n < 2 ^ 32 → c.holds[n % 256]? = some { gen := n / 256, pair := some (hn, ht) } → g.qs.liq = [] → ∃ m1,
        LeavesIn (.frontDrop sa) s gid m1 g (g.spc + 4) (code 11)
        ∧ m1 = { s.m with ctxs := m1.ctxs, clusters := m1.clusters }
        ∧ aget m1.ctxs g.ctx = some { c with holds := c.holds.set (n % 256) { gen := (n / 256 + 1) % 2 ^ 24, pair := none } }
        ∧ (∀ k, k ≠ g.ctx → aget m1.ctxs k = aget s.m.ctxs k) ∧ (∀ k, k ≠ unit → m1.cluster k = s.m.cluster k)
        ∧ (m1.cluster unit).deltas = (s.m.cluster unit).deltas ++ [{ ctx := g.ctx, node := hn, stamp := ht, n := -1 }])
    ∧ (g.rgn = [] → n % 64 ≠ 0 → exec (.summLd sa) s = .next { s with m := scalarTrapAt s.m gid .misaligned (g.s sa) })
    ∧ ∀ m2 bs, g.rgn = [] → n % 64 = 0 → recordLoadMore gid g 8 imageLoads s.m n = .done m2 bs →
      (imageHeader bs = none → exec (.summLd sa) s = .next { s with m := scalarTrapAt m2 gid .summaryImage (g.s sa) })
      ∧ ∀ nn ne, (imageHeader bs = some (nn, ne) →
        (∀ off, readImage bs nn ne c.nodes (Config.choice m2.free) = .error off →
          exec (.summLd sa) s = .next { s with m := scalarTrapAt m2 gid .summaryImage (g.s sa + BitVec.ofNat 64 off) })
        ∧ ∀ im, readImage bs nn ne c.nodes (Config.choice m2.free) = .ok im →
          (regresses (flushAll m2) g.ctx c im = true → exec (.summLd sa) s = .next { s with m := scalarTrap m2 gid .summaryRegress })
          ∧ (regresses (flushAll m2) g.ctx c im = false → ∃ fr,
            let c2 := (aget (flushAll m2).ctxs g.ctx).getD c
            let fl := c2.floors ++ (im.depths.drop c2.floors.length).map fun d => Floor.at_ (zeroStamp d)
            let c3 : Context := { c2 with nodes := im.depths, sums := im.sums, floors := fl }
            LeavesIn (.summLd sa) s gid { (flushAll m2) with ctxs := aput (flushAll m2).ctxs g.ctx c3, free := fr } g (g.spc + 4) (code 16)))

/-- R314 to R320. -/
def Obligations.TaskInstructions : Prop :=
  (∀ (s : State) (gid : Nat) (g : Group) (c : Context) (sd sa sb : Sreg), Here s gid g → aget s.m.ctxs g.ctx = some c →
    let a := (g.s sa).toNat
    let code (func : Nat) : Dword := scalarCode 0x24 func
    let none_ : TaskRec :=
      { gen := 1, st := none, c := 0, node := 0, stamp := 0, kern := 0, entry := 0, solo := false, payload := [], succs := [],
        die := 0, order := 0 }
    let record (i : Nat) : TaskRec := (aget c.pool i).getD none_
    let free (i : Nat) : Prop := i < c.desc.poolsize ∧ (record i).st = none
    let handle (i : Nat) : Dword := BitVec.ofNat 64 ((record i).gen * 2 ^ 40 + i)
    let live (i : Nat) : Prop := i = a % 2 ^ 40 ∧ i < c.desc.poolsize ∧ (record i).st ≠ none ∧ (record i).gen = a / 2 ^ 40
    let put (m : Mach) (i : Nat) (r : TaskRec) : Mach :=
      { m with ctxs := aput m.ctxs g.ctx { c with pool := aput c.pool i r }, nextId := m.nextId + 1 }
    let readied (m : Mach) (r : TaskRec) : TaskRec := { r with st := some .ready, c := 0, die := g.core / 128, order := m.nextId }
    let taken (m : Mach) (n : Nat) (t : Dword) (fr : Nat) : Mach :=
      { flushUnit (countAt m (clusterOf g.core) g.ctx n t 1) (clusterOf g.core) with free := fr }
    let traps (i : Instr) (m : Mach) (c : Cause) : Prop := exec i s = .next { s with m := scalarTrap m gid c }
    let trapsAt (i : Instr) (c : Cause) (x : Dword) : Prop := exec i s = .next { s with m := scalarTrapAt s.m gid c x }
    (g.rgn ≠ [] → ∀ i ∈ [Instr.taskAlloc sd sa sb, .taskPub sa sb, .taskSig sa, .taskSpawn sd sa, .taskExit sa], Traps i s gid .publishInRegion)
    ∧ (g.rgn = [] →
      (let i : Instr := .taskAlloc sd sa sb
       let bad := a / 2 ^ 42 ≠ 0 ∨ a / 2 ^ 24 % 2 ^ 8 ≠ 0 ∨ 0xFFFFFE < a % 2 ^ 24
       let n := a / 2 ^ 32 % 2 ^ 10
       let t := g.s sb
       let fits := stampValid t = true ∧ stampDepth t = c.nodes.getD n 0
       (bad → Traps i s gid .operandRange) ∧ (¬ bad → c.nodes.length ≤ n → Traps i s gid .undeclaredNode)
       ∧ (¬ bad → n < c.nodes.length → ¬ fits → Traps i s gid .invalidStamp)
       ∧ (¬ bad → n < c.nodes.length → fits →
         (justified s.m g n t = false → Traps i s gid .stampRegress)
         ∧ (justified s.m g n t = true → (∀ k, ¬ free k) → Traps i s gid .taskPool)
         ∧ (justified s.m g n t = true → (∃ k, free k) → rootHasRoom s.m g.ctx n t = false → Waits i s gid g)
         ∧ (justified s.m g n t = true → (∃ k, free k) →
             rootHasRoom s.m g.ctx n t = true → ∃ k fr, free k
           ∧ LeavesIn i s gid (taken (put s.m k { record k with st := some .unpublished, c := a % 2 ^ 24 + 1, node := n, stamp := t, kern := g.kern }) n t fr)
               (g.setS sd (handle k)) (g.spc + 4) (code 0))))
      ∧ (let i : Instr := .taskPub sa sb
         ((g.s sb).toNat % 16 ≠ 0 → trapsAt i .misaligned (g.s sb))
         ∧ ((g.s sb).toNat % 16 = 0 → (∀ k, ¬ live k) → trapsAt i .staleHandle (g.s sa))
         ∧ ∀ k, (g.s sb).toNat % 16 = 0 → live k →
           ((record k).st ≠ some .unpublished → Traps i s gid .taskState)
           ∧ ∀ m p, (record k).st = some .unpublished → readPacket s.m gid g (g.s sb).toNat = .done m p → m.ctxs = s.m.ctxs →
             let ok := ∃ kn, aget m.kerns (record k).kern = some kn ∧ p.valid c kn.lrec = true ∧ p.node = (record k).node ∧ p.stamp = (record k).stamp
             let r1 : TaskRec := { record k with node := p.node, stamp := p.stamp, entry := p.entry, solo := p.solo, payload := p.payload, succs := p.succs }
             let met := ∀ j ∈ g.joins, j.set.getLsbD 4 = true → ∀ x ∈ j.waits, x.performed m = true
             (¬ ok → traps i m .taskPacket)
             ∧ (ok → ¬ met → exec i s = .next { s with m := m.setGrp gid (heldGroup g .retry) })
             ∧ (ok → met → LeavesIn i s gid (put m k (if r1.c = 1 then readied m r1 else { r1 with st := some .published, c := r1.c - 1 })) g (g.spc + 4) (code 1)))
      ∧ (let i : Instr := .taskSig sa
         ((∀ k, ¬ live k) → trapsAt i .staleHandle (g.s sa))
         ∧ ∀ k, live k → let r := record k
           (r.st = some .ready ∨ r.st = some .running ∨ (r.st = some .unpublished ∧ r.c ≤ 1) → Traps i s gid .overSignal)
           ∧ ((r.st = some .unpublished ∨ r.st = some .published) → 1 < r.c → LeavesIn i s gid (put s.m k { r with c := r.c - 1 }) g (g.spc + 4) (code 2))
           ∧ (r.st = some .published → r.c ≤ 1 → LeavesIn i s gid (put s.m k (readied s.m r)) g (g.spc + 4) (code 2)))
      ∧ (let i : Instr := .taskSpawn sd sa
         (a % 16 ≠ 0 → trapsAt i .misaligned (g.s sa))
         ∧ ∀ m p kn, a % 16 = 0 → readPacket s.m gid g a = .done m p → m.ctxs = s.m.ctxs → aget m.kerns g.kern = some kn →
           let met := ∀ j ∈ g.joins, j.set.getLsbD 4 = true → ∀ x ∈ j.waits, x.performed m = true
           (p.valid c kn.lrec = false → traps i m .taskPacket)
           ∧ (p.valid c kn.lrec = true → justified m g p.node p.stamp = true → (∃ k, free k) →
               ¬ met ∨ rootHasRoom m g.ctx p.node p.stamp = false → exec i s = .next { s with m := m.setGrp gid (heldGroup g .retry) })
           ∧ (p.valid c kn.lrec = true → justified m g p.node p.stamp = false → traps i m .stampRegress)
           ∧ (p.valid c kn.lrec = true → justified m g p.node p.stamp = true → (∀ k, ¬ free k) → traps i m .taskPool)
           ∧ (p.valid c kn.lrec = true → justified m g p.node p.stamp = true → (∃ k, free k) →
               met → rootHasRoom m g.ctx p.node p.stamp = true → ∃ k fr, free k
             ∧ (let made : TaskRec :=
                 { record k with kern := g.kern, node := p.node, stamp := p.stamp, entry := p.entry, solo := p.solo
                                 payload := p.payload, succs := p.succs }
               LeavesIn i s gid (taken (put m k (readied m made)) p.node p.stamp fr) (g.setS sd (handle k)) (g.spc + 4) (code 3))))
      ∧ (let i : Instr := .taskExit sa
         (g.kind ≠ .task → Traps i s gid .taskState) ∧ (g.kind = .task → 2 ^ 32 ≤ a → Traps i s gid .operandRange)
         ∧ (g.kind = .task → a < 2 ^ 32 → g.qs.liq = [] →
           let kept := g.tasks.filter fun t => !a.testBit t.1
           ∀ m1, endTasks g (g.tasks.filter fun t => a.testBit t.1) (s.m, none) = (m1, none) → ∃ m2 st,
             LeavesIn i s gid m2 { g with tasks := kept, stamp := st } (g.spc + 4) (code 4)
             ∧ m2 = { m1 with ctxs := m2.ctxs } ∧ (∀ k x, aget m1.ctxs k = some x → ∃ n, aget m2.ctxs k = some { x with npCount := n })
             ∧ (kept = [] → st = g.stamp)
             ∧ (kept ≠ [] → (∃ x ∈ kept, st = (record x.2).stamp) ∧ ∀ x ∈ kept, st.toNat % 2 ^ 60 ≤ (record x.2).stamp.toNat % 2 ^ 60)))))
  ∧ (∀ (m : Mach) (g : Group) (c : Context) (lane ix : Nat) (rest : List (Nat × Nat)) (r : TaskRec), aget m.ctxs g.ctx = some c →
      aget c.pool ix = some r → r.succs = [] →
      let gone : TaskRec :=
        { gen := if (r.gen + 1) % 2 ^ 24 = 0 then 1 else (r.gen + 1) % 2 ^ 24, st := none, c := 0, node := 0, stamp := 0, kern := 0,
          entry := 0, solo := false, payload := [], succs := [], die := 0, order := 0 }
      let m1 := countAt m (clusterOf g.core) g.ctx r.node r.stamp (-1)
      endTasks g ((lane, ix) :: rest) (m, none) = endTasks g rest
        ({ m1 with ctxs := aput m1.ctxs g.ctx { c with pool := aput c.pool ix gone }, nextId := m1.nextId + 1 }, none))
  ∧ ∀ (s : State) (die : Nat) (late : Bool) (at_ : Slot) (t : ReadyTask) (k : Kernel) (c : Context),
    let all := readyTasks s.m die
    let batch := gatheredWith all t
    all.filter (fun t => emits late (gatheredWith all t)) = [t] → aget s.m.kerns t.r.kern = some k → aget s.m.ctxs t.ctx = some c →
    amapWf s.m.ctxs = true → amapWf c.pool = true → c.st = .active → dieOf at_.core = die → k.lrec.slice = 0 → coreTakes s.m t.ctx at_.core k.lrec.reqfeat [at_.slot] 32 (8 * k.lrec.regs) = true →
    batch ≠ [] ∧ batch.length ≤ 32 ∧ Completes (.taskGather die late at_) s fun q => ∃ g, q.m.grp? s.m.nextId = some g
      ∧ g.ctx = t.ctx ∧ g.kern = t.r.kern ∧ g.kind = .task ∧ g.core = at_.core ∧ g.slot = at_.slot ∧ g.width = 32 ∧ g.st = .ready ∧ g.node = t.r.node
      ∧ (g.s 61).toNat = 2 ^ batch.length - 1 ∧ g.tasks = ((List.range batch.length).zip batch).map (fun (x : Nat × ReadyTask) => (x.1, x.2.ix))
      ∧ (∀ (l : Nat) (u : ReadyTask) (n : Nat), batch[l]? = some u → n < u.r.payload.length → g.vreg n l = u.r.payload.getD n 0)
      ∧ ∀ (l : Nat) (u : ReadyTask) (c' : Context), batch[l]? = some u → aget q.m.ctxs t.ctx = some c' → ∃ r, aget c'.pool u.ix = some r ∧ r.st = some .running

/-! Walks, summonses and their handlers (11_walk.md). -/

/-- R260, R265, R271, R272, R280 and R281. -/
def Obligations.WalkInstructions : Prop :=
  ∀ (s : State) (gid : Nat) (g : Group) (c : Context) (sd sa sb : Sreg), Here s gid g → aget s.m.ctxs g.ctx = some c →
    let a := (g.s sa).toNat
    let sel := (g.s sb).toNat
    let code (func : Nat) : Dword := scalarCode 0x23 func
    let post : Instr := .walkPost sd sa sb
    let eng := if sel = 0 then g.core / 8 else sel - 1
    let fresh := ∀ p, g.posting = some p → p.spc ≠ g.spc
    let appends (m2 : Mach) (addr : Dword) (r : WalkRec) (eng : Nat) : Prop := ∃ m1, let id := eng * 2 ^ 25 + (m2.engine eng).posted % 2 ^ 25
      LeavesIn post s gid m1 (g.setS sd (BitVec.ofNat 64 id)) (g.spc + 4) (code 0)
      ∧ m1 = { m2 with walks := m1.walks, engines := m1.engines, nextId := m2.nextId + 1 }
      ∧ (∀ j, j ≠ id → aget m1.walks j = aget m2.walks j) ∧ (∀ j, j ≠ eng → m1.engine j = m2.engine j)
      ∧ m1.engine eng = { m2.engine eng with intake := (m2.engine eng).intake ++ [id], posted := (m2.engine eng).posted + 1 }
      ∧ ∃ w, aget m1.walks id = some w ∧ w.ctx = g.ctx ∧ w.kern = g.kern ∧ w.poster = some gid ∧ w.addr = addr ∧ w.wrec = r
        ∧ w.eng = eng ∧ w.st = .posted ∧ w.acause = 0 ∧ w.tiles = 0 ∧ w.tile = 0 ∧ w.inTile = false ∧ w.spawned = 0
        ∧ w.parts.length = 2 ^ r.cw
    (∀ p, g.posting = some p → p.spc = g.spc →
      (32 ≤ (s.m.engine p.eng).intake.length → Waits post s gid g)
      ∧ ((s.m.engine p.eng).intake.length < 32 → appends s.m p.addr p.wrec p.eng))
    ∧ (fresh → g.rgn ≠ [] → ∀ i ∈ [post], Traps i s gid .publishInRegion)
    ∧ (fresh → g.rgn = [] → a % 256 ≠ 0 → exec post s = .next { s with m := scalarTrapAt s.m gid .misaligned (g.s sa) })
    ∧ (fresh → g.rgn = [] → a % 256 = 0 → 128 < sel → Traps post s gid .operandRange)
    ∧ (fresh → g.rgn = [] → a % 256 = 0 → sel ≤ 128 → ∀ m bs k, recordLoad gid g 32 s.m a = .done m bs → aget m.kerns g.kern = some k →
      let r := WalkRec.ofBytes bs
      let valid := walkReservedZero bs = true ∧ r.rangesOk k.lrec = true ∧ r.node < c.nodes.length ∧ stampValid r.stamp = true
        ∧ stampDepth r.stamp = c.nodes.getD r.node 0 ∧ justified m g r.node r.stamp = true
      let traps (x : Cause) : Prop := exec post s = .next { s with m := scalarTrap m gid x }
      (¬ valid → traps .walkRecord)
      ∧ (valid → r.accfmt = 3 → (m.features (8 * eng)).getLsbD 0 = false → traps .featureAbsent)
      ∧ (valid → (r.accfmt = 3 → (m.features (8 * eng)).getLsbD 0 = true) →
        (eng % 2 ^ r.cw ≠ 0 → traps .walkRecord)
        ∧ (eng % 2 ^ r.cw = 0 → servesOn m g eng (2 ^ r.cw) = true → traps .reentrantWalk)
        ∧ (eng % 2 ^ r.cw = 0 → servesOn m g eng (2 ^ r.cw) = false →
          let full := 32 ≤ (m.engine eng).intake.length
          let held (m1 : Mach) (g1 : Group) : Prop := exec post s = .next { s with m := m1.setGrp gid (heldGroup g1 .retry) }
          let taken := takeFrom m (homeUnit m g) eng g.ctx r.node r.stamp
          (rootHasRoom m g.ctx r.node r.stamp = false → held m g)
          ∧ (rootHasRoom m g.ctx r.node r.stamp = true → full → g.posting ≠ none → held m g)
          ∧ (rootHasRoom m g.ctx r.node r.stamp = true → full → g.posting = none →
              held taken { g with posting := some { spc := g.spc, addr := g.s sa, wrec := r, eng := eng } })
          ∧ (rootHasRoom m g.ctx r.node r.stamp = true → ¬ full → appends taken (g.s sa) r eng))))
    ∧ (2 ^ 32 ≤ a → ∀ i ∈ [Instr.walkStat sd sa, .walkAbort sa], Traps i s gid .operandRange)
    ∧ (a < 2 ^ 32 →
      let gives (st : Dword) : Prop :=
        LeavesIn (.walkStat sd sa) s gid (if st.toNat % 16 ∈ [6, 7, 15] then acquired s.m g else s.m) (g.setS sd st) (g.spc + 4) (code 1)
      (∀ w, aget s.m.walks a = some w →
        (w.ctx ≠ g.ctx → gives 15)
        ∧ (w.ctx = g.ctx → gives (BitVec.ofNat 64 (w.st.code + (if w.st ∈ [.walking, .stalled, .frozen] then w.scause % 16 else 0) * 2 ^ 4
            + w.acause % 256 * 2 ^ 8 + min w.tiles (2 ^ 32 - 1) * 2 ^ 16))))
      ∧ (aget s.m.walks a = none → (∀ ke ∈ s.m.engines, ∀ x ∈ ke.2.ended, x.1 ≠ a) → gives 15)
      ∧ (g.rgn ≠ [] → Traps (.walkAbort sa) s gid .publishInRegion)
      ∧ (g.rgn = [] → (∀ w, aget s.m.walks a = some w → w.ctx ≠ g.ctx ∨ w.over = true) → Leaves (.walkAbort sa) s gid g (g.spc + 4) (code 2))
      ∧ (g.rgn = [] → ∀ w, aget s.m.walks a = some w → w.ctx = g.ctx → w.over = false → (∀ ks ∈ s.m.summons, ks.2.walk = a → ks.2.group = none) →
        ∃ g', ScalarDone g g' (g.spc + 4) (code 2) ∧ Completes (.walkAbort sa) s fun t => t.m = abortWalk (s.m.setGrp gid g') a 1
          ∧ aget t.m.walks a = none ∧ (∀ ks ∈ t.m.summons, ks.2.walk ≠ a)
          ∧ (t.m.engine w.eng).ended.head? = some (a, w.ctx, BitVec.ofNat 64 (7 + (if w.acause = 0 then 1 else w.acause) % 256 * 2 ^ 8
              + min w.tiles (2 ^ 32 - 1) * 2 ^ 16))))
    ∧ (let i : Instr := .hndlPark sa
      let barred := g.serving ≠ none ∨ g.kind = .task
      (255 < a → Traps i s gid .operandRange) ∧ (a ≤ 255 → barred → Traps i s gid .handlerState)
      ∧ (a ≤ 255 → ¬ barred → g.rgn ≠ [] → Traps i s gid .publishInRegion)
      ∧ (a ≤ 255 → ¬ barred → g.rgn = [] → g.qs.liq = [] → g.isTrapped → Leaves i s gid g (g.spc + 4) (code 8))
      ∧ (a ≤ 255 → ¬ barred → g.rgn = [] → g.qs.liq = [] → ¬ g.isTrapped →
        (∃ t, aget s.m.teams g.team = some t ∧ ∃ p ∈ t.pubs, p.group = gid) → Waits i s gid g)
      ∧ (a ≤ 255 → ¬ barred → g.rgn = [] → g.qs.liq = [] → ¬ g.isTrapped →
        (∀ t, aget s.m.teams g.team = some t → ∀ p ∈ t.pubs, p.group ≠ gid) → ∃ g1 g', ScalarDone g g1 (g.spc + 4) (code 8)
        ∧ g' = { g1 with st := .parked s.m.nextId, pool := a, traps := [], aside := none, asideWait := none, serving := none, own := false
                         posting := none }
        ∧ ∃ m1, m1 = { s.m with clusters := m1.clusters, groups := m1.groups, nextId := s.m.nextId + 1 } ∧ m1.grp? gid = some g'
          ∧ (∀ k, k ≠ gid → m1.grp? k = s.m.grp? k) ∧ (g.own = false → m1.clusters = s.m.clusters)
          ∧ (g.own = true → (m1.cluster (g.core / 8)).deltas = (s.m.cluster (g.core / 8)).deltas
              ++ [{ ctx := g.ctx, node := g.node, stamp := g.stamp, n := -1 }])
          ∧ exec i s = .next { s with m := afterPark m1 g }))
    ∧ ((g.serving = none ∨ ∃ sid, g.serving = some sid ∧ aget s.m.summons sid = none) → Traps .hndlDone s gid .handlerState)
    ∧ (∀ sid x, g.serving = some sid → aget s.m.summons sid = some x →
      (g.rgn ≠ [] → Traps .hndlDone s gid .publishInRegion)
      ∧ (g.rgn = [] → g.qs.liq = [] → ∃ g1 g', ScalarDone g g1 (g.spc + 4) (code 9)
        ∧ g' = { g1 with st := .parked s.m.nextId, traps := [], aside := none, asideWait := none, serving := none, own := false
                         posting := none }
        ∧ ∃ m1, m1 = { s.m with ctxs := m1.ctxs, groups := m1.groups, nextId := s.m.nextId + 1 } ∧ m1.grp? gid = some g'
          ∧ (∀ k, k ≠ gid → m1.grp? k = s.m.grp? k)
          ∧ aget m1.ctxs g.ctx = some { c with npCount := 0 } ∧ (∀ k, k ≠ g.ctx → aget m1.ctxs k = aget s.m.ctxs k)
          ∧ exec .hndlDone s = .next { s with m := afterPark (returnSummons m1 sid x) g }))
    ∧ ∀ (m : Mach) (sid : Nat) (x : Summons) (w : Walk) (p : Part), aget m.walks x.walk = some w → w.parts[x.part]? = some p →
      w.acause = 0 → w.over = false → w.st ≠ .draining → w.freezing = false →
      let m1 := returnSummons m sid x
      aget m1.summons sid = none ∧ (∀ k, k ≠ sid → aget m1.summons k = aget m.summons k)
      ∧ (x.cancelled = true → m1.walks = m.walks)
      ∧ (x.cancelled = false → ∃ w1 p1, aget m1.walks x.walk = some w1 ∧ w1.parts[x.part]? = some p1
        ∧ (x.kind = .a → ∀ y, p.aslots[x.slot]? = some y → p1 = { p with aslots := p.aslots.set x.slot { y with filled := true } })
        ∧ (x.kind = .b → ∀ y, p.bslots[x.slot]? = some y → p1 = { p with bslots := p.bslots.set x.slot { y with filled := true } })
        ∧ (x.kind = .init → p1 = { p with islot := p.islot.map fun y => { y with filled := true } })
        ∧ (x.kind = .drain → p1 = { p with drains := p.drains.erase x.tile }
            ∧ ∀ bk, (m.engine (w.eng + x.part)).banks[x.slot]? = some bk → (m1.engine (w.eng + x.part)).banks[x.slot]? = some Bank.empty))

/-- R263 and R266 to R270, for the events of the engine. -/
def Obligations.WalkPlacementAndSummons : Prop :=
  (∀ (s : State) (eng id : Nat) (w : Walk),
    let here := s.m.walks.filter fun kw => kw.2.engines.contains eng
    (∀ kw ∈ here, kw.2.st ≠ .frozen) → (id, w) ∈ here → w.st = .posted → w.wantsPlace s.m = true →
    (∀ kw ∈ here, kw.2.wantsPlace s.m = true → kw = (id, w) ∨ kw.2.before w = false) →
    (∀ e ∈ w.engines, e < 128 ∧ (s.m.engine e).places.length = 4) →
    Completes (.walkPlace eng) s fun t => aget t.m.walks id = some { w with st := .queued, placed := true }
      ∧ (∀ k, k ≠ id → aget t.m.walks k = aget s.m.walks k) ∧ t = { s with m := { s.m with walks := t.m.walks, engines := t.m.engines } }
      ∧ (∀ e, e ∉ w.engines → t.m.engine e = s.m.engine e)
      ∧ ∀ e ∈ w.engines, ∃ k, (s.m.engine e).places[k]? = some none ∧ (∀ j, j < k → (s.m.engine e).places[j]? ≠ some none)
          ∧ t.m.engine e = { s.m.engine e with places := (s.m.engine e).places.set k (some id)
                                               intake := (s.m.engine e).intake.filter fun i => i != id })
  ∧ (∀ (s : State) (eng id : Nat) (w : Walk) (l : LaunchRec) (cls : WalkClass) (offs : List (List Nat)),
    (∀ e ∈ w.engines, firstQueued s.m e = some (id, w)) → eng ∈ w.engines → walkLaunch s.m w = some l → w.wrec.cls l = some cls →
    w.resuming = false → inService s.m id = false → ctxActive s.m w.ctx = true → w.parts.length = 2 ^ w.wrec.cw →
    let sizes := w.wrec.slotSizes cls.eb
    offs.length = 2 ^ w.wrec.cw → (∀ o ∈ offs, o.length = sizes.length) →
    (∀ i o, offs[i]? = some o → (∀ x ∈ o.zip sizes, x.1 % 256 = 0 ∧ x.1 + x.2 ≤ 2 ^ 20
        ∧ ∀ h ∈ heldSlots s.m (w.eng + i), h.1 + h.2 ≤ x.1 ∨ x.1 + x.2 ≤ h.1)
      ∧ (o.zip sizes).Pairwise fun x y => x.1 + x.2 ≤ y.1 ∨ y.1 + y.2 ≤ x.1) →
    Completes (.walkReserve eng offs) s fun t => t = { s with m := { s.m with walks := t.m.walks } }
      ∧ (∀ k, k ≠ id → aget t.m.walks k = aget s.m.walks k)
      ∧ ∃ w1, aget t.m.walks id = some w1 ∧ w1 = { w with st := .walking, parts := w1.parts } ∧ w1.parts.length = 2 ^ w.wrec.cw
        ∧ ∀ (i : Nat) (o : List Nat) (p p1 : Part), offs[i]? = some o → w.parts[i]? = some p → w1.parts[i]? = some p1 →
          let slots (os : List Nat) : List ASlot := os.map fun x => { off := x, pair := none, filled := false }
          p1 = { p with aslots := slots (o.take w.wrec.depth), bslots := slots ((o.drop w.wrec.depth).take w.wrec.depth), islot := p1.islot }
          ∧ (w.wrec.init = true → p1.islot = (o[2 * w.wrec.depth]?).map fun x => { off := x, pair := none, filled := false }))
  ∧ (∀ (s : State) (eng slotA slotB id : Nat) (w : Walk) (d : Due), dueOn s.m eng slotA slotB = [(id, w, d)] → aget s.m.walks id = some w →
    let part := eng - w.eng
    ∀ p, w.parts[part]? = some p → Completes (.summonsIssue eng slotA slotB) s fun t => ∃ w1 p1, aget t.m.walks id = some w1
      ∧ w1 = { w with parts := w.parts.set part p1 } ∧ (∀ k, k ≠ id → aget t.m.walks k = aget s.m.walks k)
      ∧ t = { s with m := { s.m with walks := t.m.walks, summons := t.m.summons, nextId := t.m.nextId, free := t.m.free } }
      ∧ (∀ tile bank rest, p.toDrain = (tile, bank) :: rest → p1 = { p with toDrain := rest, drains := p.drains ++ [tile] }
        ∧ aget t.m.summons s.m.nextId = some { walk := id, part := part, kind := .drain, tile := tile, kstep := 0, slot := bank, group := none, cancelled := false })
      ∧ (∀ q, d = .pair q → q = p.nextPair ∧ p1.nextPair = q + 1 ∧ (p.aslots.countP fun x => x.pair.isSome) < w.wrec.pd
        ∧ p1.aslots = p.aslots.modify slotA (fun x => { x with pair := some q, filled := false })
        ∧ p1.bslots = p.bslots.modify slotB (fun x => { x with pair := some q, filled := false })
        ∧ aget t.m.summons s.m.nextId = some { walk := id, part := part, kind := .a, tile := q / w.wrec.nk, kstep := q % w.wrec.nk, slot := slotA, group := none, cancelled := false }
        ∧ aget t.m.summons (s.m.nextId + 1) = some { walk := id, part := part, kind := .b, tile := q / w.wrec.nk, kstep := q % w.wrec.nk, slot := slotB, group := none, cancelled := false }))
  ∧ ∀ (s : State) (sid gid : Nat) (at_ : Slot) (x : Summons) (w : Walk) (l : LaunchRec) (g : Group), aget s.m.summons sid = some x →
    aget s.m.walks x.walk = some w → walkLaunch s.m w = some l → x.group = none → x.cancelled = false → ctxRuns s.m w.ctx = true →
    let takes (h : Group) : Prop := h.saved = false ∧ h.pool = w.wrec.pool ∧ h.ctx = w.ctx ∧ h.kern = w.kern ∧ h.kind ≠ .compacted ∧ h.core / 8 = w.eng + x.part
    ∀ since, s.m.grp? gid = some g → g.st = .parked since → takes g → amapWf s.m.groups = true →
    (∀ k h n, s.m.grp? k = some h → k ≠ gid → h.st = .parked n → takes h → since < n) →
    Completes (.summonsDeliver sid at_) s fun t => ∃ g', t.m.grp? gid = some g' ∧ (∀ k, k ≠ gid → t.m.grp? k = s.m.grp? k)
      ∧ aget t.m.summons sid = some { x with group := some gid } ∧ (∀ k, k ≠ sid → aget t.m.summons k = aget s.m.summons k)
      ∧ t = { s with m := { acquired s.m g with groups := t.m.groups, summons := t.m.summons, engines := t.m.engines, indet := t.m.indet, free := t.m.free } }
      ∧ g' = { g with regs := g'.regs, spc := l.sbase + BitVec.ofNat 64 (w.wrec.entry x.kind), node := w.wrec.node,
                      stamp := w.wrec.stamp, st := .ready, readyAt := g'.readyAt, serving := some sid, pool := w.wrec.pool }
      ∧ (let pc := w.wrec.piece x.tile x.part
         let k0 := x.kstep * w.wrec.tk
         let pk := min w.wrec.tk (w.wrec.k - k0)
         let kind := match x.kind with | .a => 0 | .b => 1 | .drain => 2 | .init => 3
         let lo := if x.kind = .b then pc.pcols else pc.prows
         let hi := if x.kind = .a ∨ x.kind = .b then pk else pc.pcols
         g'.s 1 = BitVec.ofNat 64 (kind + x.part * 2 ^ 4 + lo % 2 ^ 12 * 2 ^ 8 + hi % 2 ^ 12 * 2 ^ 20 + w.wrec.tag.toNat * 2 ^ 32)
         ∧ g'.s 2 = BitVec.ofNat 64 (if x.kind = .b then k0 else pc.i0) ∧ g'.s 3 = BitVec.ofNat 64 (if x.kind = .a then k0 else pc.j0)
         ∧ g'.s 5 = w.wrec.stamp ∧ g'.s 6 = BitVec.ofNat 64 x.walk ∧ (∀ r : Sreg, 6 < r.toNat → g'.s r = g.s r)
         ∧ (x.kind = .drain → g'.s 4 = BitVec.ofNat 64 x.slot ∧ ∀ b, (s.m.engine (w.eng + x.part)).banks[x.slot]? = some b →
             (t.m.engine (w.eng + x.part)).banks[x.slot]? = some { b with st := .draining })
         ∧ ∀ p, w.parts[x.part]? = some p →
           let filled (o n : Nat) : Prop := g'.s 4 = BitVec.ofNat 64 (0x00FF000300000000 + o)
             ∧ ∀ k, k < n → ∃ seed, indetAt t.m.indet (Loc.arm ((w.eng + x.part) * 2 ^ 20 + o + k)).key = some seed
           let eb := ((w.wrec.cls l).map WalkClass.eb).getD 0
           (∀ y, x.kind = .a → p.aslots[x.slot]? = some y → filled y.off (round256 (w.wrec.tm * w.wrec.opStride eb)))
           ∧ (∀ y, x.kind = .b → p.bslots[x.slot]? = some y → filled y.off (round256 (w.wrec.tn * w.wrec.opStride eb)))
           ∧ (∀ y, x.kind = .init → p.islot = some y → filled y.off (round256 (w.wrec.tm * w.wrec.initStride))))

/-- R76, R261, R263, R267, R274, R275, R279 and R285. -/
def Obligations.WalkTilesAndSteps : Prop :=
  let filled (l : List ASlot) (q : Nat) : Prop := ∃ x ∈ l, x.pair = some q ∧ x.filled = true
  let empty (w : Walk) (i : Nat) : Prop := (w.wrec.piece w.tile i).prows = 0 ∨ (w.wrec.piece w.tile i).pcols = 0
  let fed (w : Walk) (i k : Nat) (p : Part) : Prop :=
    ¬ empty w i → filled p.aslots (w.tile * w.wrec.nk + k) ∧ filled p.bslots (w.tile * w.wrec.nk + k)
  let seeded (w : Walk) (i : Nat) (p : Part) : Prop :=
    w.wrec.init = true → ¬ empty w i → ∃ x, p.islot = some x ∧ x.pair = some w.tile ∧ x.filled = true
  let going (w : Walk) : Prop := (w.st = .walking ∨ w.st = .stalled) ∧ w.acause = 0
  let initial (m : Mach) (w : Walk) (e off r c : Nat) : Dword :=
    let n := w.wrec.accBytes
    let at_ := e * 2 ^ 20 + off + r * w.wrec.initStride + c * n
    BitVec.ofNat 64 (numberOf ((List.range n).map fun k => readByte m (.arm (at_ + k))))
  let starts (m : Mach) (w : Walk) (i : Nat) (p : Part) (acc : AMap Dword) : Prop :=
    ∀ r c, r < (w.wrec.piece w.tile i).prows → c < (w.wrec.piece w.tile i).pcols →
      (w.wrec.init = false → (aget acc (r * 1024 + c)).getD 0 = 0)
      ∧ ∀ x, w.wrec.init = true → p.islot = some x → (aget acc (r * 1024 + c)).getD 0 = initial m w (w.eng + i) x.off r c
  let clear (x : ASlot) : ASlot := { x with pair := none, filled := false }
  let awaits (w : Walk) : Prop := going w ∧ w.placed = true ∧ w.freezing = false ∧ w.inTile = false ∧ w.tile < w.wrec.tilesNo
  let startable (m : Mach) (w : Walk) (i : Nat) : Prop := (∃ p, w.parts[i]? = some p ∧ fed w i 0 p ∧ seeded w i p)
    ∧ (∃ b ∈ (m.engine (w.eng + i)).banks, b.st = .free) ∧ (∀ kw ∈ m.walks, kw.2.inTile = true → w.eng + i ∉ kw.2.engines)
    ∧ ∀ b, aget m.tileBudget w.ctx = some b → (aget (m.engine (w.eng + i)).starts w.ctx).getD 0 < b
  let unchosen (m : Mach) (id : Nat) (w : Walk) : Prop :=
    ∀ e ∈ w.engines, ∀ o v, (m.engine e).turn = some o → aget m.walks o = some v → awaits v → o = id
  let first (s : State) (eng d id : Nat) (w : Walk) : Prop :=
    let place (j : Nat) : Nat := (rrOf s.m eng + 1 + j) % 4
    d < 4 ∧ (s.m.engine eng).places[place d]? = some (some id) ∧ aget s.m.walks id = some w ∧ awaits w ∧ unchosen s.m id w
    ∧ ∀ j k v, j < d → (s.m.engine eng).places[place j]? = some (some k) → aget s.m.walks k = some v →
        ¬ (awaits v ∧ unchosen s.m k v ∧ startable s.m v (eng - v.eng))
  (∀ (m : Mach) (w : Walk), canStart m w = true ↔ awaits w ∧ ∀ i, i < 2 ^ w.wrec.cw → startable m w i)
  ∧ (∀ (s : State) (eng d id : Nat) (w : Walk), first s eng d id w → eng ∈ w.engines → startable s.m w (eng - w.eng) →
    (∃ i, i < 2 ^ w.wrec.cw ∧ ¬ startable s.m w i) →
    Completes (.tileStart eng) s fun t => t = { s with m := { s.m with engines := t.m.engines } }
      ∧ (∀ e ∈ w.engines, t.m.engine e = { s.m.engine e with turn := some id }) ∧ ∀ e, e ∉ w.engines → t.m.engine e = s.m.engine e)
  ∧ (∀ (s : State) (eng d id : Nat) (w : Walk), first s eng d id w → (∀ i, i < 2 ^ w.wrec.cw → startable s.m w i) →
    eng ∈ w.engines → w.parts.length = 2 ^ w.wrec.cw → w.wrec.tn ≤ 320 → (∀ e ∈ w.engines, (s.m.engine e).banks.length = 2) →
    Completes (.tileStart eng) s fun t => ∃ w1, aget t.m.walks id = some w1
      ∧ w1 = { w with inTile := true, kstep := 0, busy := none, tries := 0, parts := w1.parts }
      ∧ (∀ k, k ≠ id → aget t.m.walks k = aget s.m.walks k) ∧ rrOf t.m eng = (rrOf s.m eng + 1 + d) % 4
      ∧ (∀ e ∈ w.engines, ∃ x, t.m.engine e = x ∧ x = { s.m.engine e with rr := x.rr, banks := x.banks, turn := none, starts := x.starts }
        ∧ aget x.starts w.ctx = some ((aget (s.m.engine e).starts w.ctx).getD 0 + 1))
      ∧ (∀ e, e ∉ w.engines → t.m.engine e = { s.m.engine e with rr := (t.m.engine e).rr })
      ∧ t = { s with m := { s.m with walks := t.m.walks, engines := t.m.engines, ctxs := t.m.ctxs, free := t.m.free } }
      ∧ (∀ k c, aget s.m.ctxs k = some c → aget t.m.ctxs k = some (if k = w.ctx then { c with npCount := 0 } else c))
      ∧ ∀ i p, i < 2 ^ w.wrec.cw → w.parts[i]? = some p → ∃ (b : Nat) (bk bk1 : Bank) (p1 : Part),
        (s.m.engine (w.eng + i)).banks[b]? = some bk ∧ bk.st = .free
        ∧ (t.m.engine (w.eng + i)).banks = (s.m.engine (w.eng + i)).banks.set b bk1
        ∧ bk1.st = .accumulating ∧ bk1.walk = id ∧ bk1.tile = w.tile ∧ bk1.bad = [] ∧ starts s.m w i p bk1.acc
        ∧ w1.parts[i]? = some p1 ∧ (empty w i → p1 = { p with bank := some b })
        ∧ (¬ empty w i → p1 = { p with bank := some b, islot := p.islot.map clear }))
  ∧ (∀ w : Walk, canStep w = true ↔ going w ∧ w.inTile = true ∧ w.busy = none ∧ w.kstep < w.wrec.nk
      ∧ ∀ i, i < 2 ^ w.wrec.cw → ∃ p, w.parts[i]? = some p ∧ fed w i w.kstep p ∧ (0 < w.tries → w.kstep = 0 → seeded w i p))
  ∧ (∀ (s : State) (id : Nat) (w : Walk) (l : LaunchRec) (cls : WalkClass), aget s.m.walks id = some w → walkLaunch s.m w = some l →
    w.wrec.cls l = some cls → going w → w.inTile = true → w.busy = none → w.kstep < w.wrec.nk →
    (∀ i, i < 2 ^ w.wrec.cw → ∃ p, w.parts[i]? = some p ∧ fed w i w.kstep p ∧ (0 < w.tries → w.kstep = 0 → seeded w i p)) →
    (w.tries = 0 ∨ w.kstep ≠ 0 → exec (.kstepStart id) s = .next { s with m := s.m.setWalk id { w with busy := some cls.cycles } })
    ∧ (0 < w.tries → w.kstep = 0 → w.wrec.tn ≤ 320 → Completes (.kstepStart id) s fun t => ∃ w1, aget t.m.walks id = some w1
      ∧ w1 = { w with busy := some cls.cycles, parts := w1.parts } ∧ (∀ k, k ≠ id → aget t.m.walks k = aget s.m.walks k)
      ∧ t = { s with m := { s.m with walks := t.m.walks, engines := t.m.engines } }
      ∧ ∀ (i : Nat) (p : Part) (b : Nat) (bk : Bank), i < 2 ^ w.wrec.cw → w.parts[i]? = some p → w.wrec.init = true → ¬ empty w i → p.bank = some b →
        (s.m.engine (w.eng + i)).banks[b]? = some bk → w1.parts[i]? = some { p with islot := p.islot.map clear }
        ∧ ∃ bk1, (t.m.engine (w.eng + i)).banks[b]? = some bk1 ∧ bk1 = { bk with acc := bk1.acc } ∧ starts s.m w i p bk1.acc))
  ∧ (∀ (m m1 : Mach) (w : Walk) (l : LaunchRec) (cls : WalkClass) (i : Nat) (p : Part) (b : Nat) (bk : Bank),
    accumulateAll w l (2 ^ w.wrec.cw) m = .ok m1 → w.wrec.cls l = some cls → 0 < cls.granule → w.wrec.tn ≤ 320 →
    i < 2 ^ w.wrec.cw → w.parts[i]? = some p → ¬ empty w i → p.bank = some b → (m.engine (w.eng + i)).banks[b]? = some bk →
    let pc := w.wrec.piece w.tile i
    let k0 := w.kstep * w.wrec.tk
    let pk := min w.wrec.tk (w.wrec.k - k0)
    let side (slot swz : Nat) (slots : List ASlot) : OperandOf :=
      { core := 8 * (w.eng + i), ctx := w.ctx, d := slotDesc l slot, sbase := l.scale.toNat, len := w.wrec.k,
        slot := (w.eng + i) * 2 ^ 20 + pairOff slots (w.tile * w.wrec.nk + w.kstep), swz := swz, stride := w.wrec.opStride cls.eb, eb := cls.eb }
    let values (o : OperandOf) (n first : Nat) (xs : List (List FVal)) : Prop := xs.length = n ∧ ∀ (r : Nat) (row : List FVal), xs[r]? = some row →
      row.length = pk ∧ ∀ e v, row[e]? = some v → ∃ m2 m3, o.value m2 r (first + r) e (k0 + e) = .ok (m3, v)
    ∃ (xs ys : List (List FVal)) (bk1 : Bank), values (side w.wrec.aslot w.wrec.aswz p.aslots) pc.prows pc.i0 xs
      ∧ values (side w.wrec.bslot w.wrec.bswz p.bslots) pc.pcols pc.j0 ys
      ∧ (m1.engine (w.eng + i)).banks[b]? = some bk1 ∧ bk1 = { bk with acc := bk1.acc }
      ∧ ∀ (r c : Nat) (x y : List FVal), xs[r]? = some x → ys[c]? = some y → ∃ chain : List Nat, chain.length = ceilDiv pk cls.granule + 1
        ∧ chain[0]? = some ((aget bk.acc (r * 1024 + c)).getD 0).toNat
        ∧ chain[ceilDiv pk cls.granule]?.map (BitVec.ofNat 64) = some ((aget bk1.acc (r * 1024 + c)).getD 0)
        ∧ ∀ j u v, chain[j]? = some u → chain[j + 1]? = some v →
            let products := ((x.zip y).drop (j * cls.granule)).take cls.granule
            v = accumulate w.wrec.accFmt u (granuleSum (products.map fun q => q.1.mul q.2)))
  ∧ (∀ (o : OperandOf) (m : Mach) (r i e kk : Nat), o.d.blk = 0 → o.d.band = false →
    o.value m r i e kk = .ok (m, (scaledValue (decodeF (elemFmt o.d.efmt) (slotElem m o.slot o.swz o.stride o.eb r e)) (.fin false 1 0) (.fin false 1 0)).1))
  ∧ ∀ (s : State) (id : Nat) (w : Walk) (l : LaunchRec) (err : AccError), aget s.m.walks id = some w → walkLaunch s.m w = some l →
    w.busy = some 0 → w.acause = 0 → w.freezing = false → (w.st = .walking ∨ w.st = .stalled) → w.parts.length = 2 ^ w.wrec.cw →
    (∀ e ∈ w.engines, (s.m.engine e).banks.length = 2) → (∀ p ∈ w.parts, ∃ b, p.bank = some b ∧ b < 2) →
    let i : Instr := .kstepEnd id err
    let pair := w.tile * w.wrec.nk + w.kstep
    let freed (l : List ASlot) : List ASlot := l.map fun x => if x.pair = some pair then clear x else x
    (err ≠ .found → ∀ f, accumulateAll w l (2 ^ w.wrec.cw) s.m = .error f → ∃ r : Report,
        r.kind = 9 ∧ r.cause = f.cause.num ∧ r.addr = BitVec.ofNat 64 f.addr ∧ r.extra = BitVec.ofNat 64 id
        ∧ exec i s = .next { s with m := abortWalk (report f.mach w.ctx r) id 4 })
    ∧ (let ends (m1 : Mach) : Prop :=
      (w.kstep + 1 < w.wrec.nk →
        let parts := w.parts.map fun p => { p with aslots := freed p.aslots, bslots := freed p.bslots }
        exec i s = .next { s with m := m1.setWalk id { w with parts := parts, busy := none, kstep := w.kstep + 1 } })
      ∧ (w.kstep + 1 = w.wrec.nk → (w.tile + 1 = w.wrec.tilesNo → ∃ j, j < 2 ^ w.wrec.cw ∧ ¬ empty w j) →
        (∀ j row col, err = .latent j row col → j < 2 ^ w.wrec.cw) →
        Completes i s fun t => ∃ w1, aget t.m.walks id = some w1 ∧ t = { s with m := { m1 with walks := t.m.walks, engines := t.m.engines } }
          ∧ (let last := w.tile + 1 = w.wrec.tilesNo
             w1 = { w with parts := w1.parts, busy := none, kstep := 0, inTile := false, tile := w.tile + 1, tries := 0
                           st := if last then .draining else w.st, scause := if last then 0 else w.scause })
          ∧ ∀ (j : Nat) (p : Part) (b : Nat) (bk : Bank), w.parts[j]? = some p → p.bank = some b → (m1.engine (w.eng + j)).banks[b]? = some bk →
            ∃ p1 bk1, w1.parts[j]? = some p1 ∧ (t.m.engine (w.eng + j)).banks[b]? = some bk1
            ∧ p1 = { p with aslots := freed p.aslots, bslots := freed p.bslots, bank := none, toDrain := p1.toDrain }
            ∧ (empty w j → p1.toDrain = p.toDrain ∧ bk1 = Bank.empty)
            ∧ (¬ empty w j → p1.toDrain = p.toDrain ++ [(w.tile, b)] ∧ bk1 = { bk with st := .awaiting, bad := bk1.bad }
              ∧ (err = .clean → bk1.bad = bk.bad) ∧ ∀ row col, err = .latent j row col → bk1.bad = (row * 1024 + col) :: bk.bad))
      let unscaled (slot : Nat) : Prop := (slotDesc l slot).blk = 0 ∧ (slotDesc l slot).band = false
      (err ≠ .found → ∀ m1, accumulateAll w l (2 ^ w.wrec.cw) s.m = .ok m1 → ends m1)
      ∧ (err ≠ .found → unscaled w.wrec.aslot → unscaled w.wrec.bslot →
          ∃ m1, accumulateAll w l (2 ^ w.wrec.cw) s.m = .ok m1 ∧ m1 = { s.m with engines := m1.engines } ∧ ends m1))
    ∧ (err = .found → 3 ≤ w.tries → ∃ j, j < 2 ^ w.wrec.cw
      ∧ exec i s = .next { s with m := abortWalk { s.m with fjarul := .accumulator (w.eng + j) :: s.m.fjarul, free := s.m.free + 1 } id 5 })
    ∧ (err = .found → w.tries < 3 → Completes i s fun t => ∃ w1, aget t.m.walks id = some w1
      ∧ w1 = { w with parts := w1.parts, kstep := 0, busy := none, tries := w.tries + 1, rback := w.rback + 1 }
      ∧ t = { s with m := { s.m with walks := t.m.walks, engines := t.m.engines, summons := t.m.summons } }
      ∧ (∀ k u, aget t.m.summons k = some u → u.walk = id → u.kind ≠ .drain → u.tile = w.tile → u.cancelled = true ∧ u.group ≠ none)
      ∧ (∀ e ∈ w.engines, ∀ bk ∈ (t.m.engine e).banks, bk.walk = id → bk.st = .accumulating → bk.acc = [] ∧ bk.bad = [])
      ∧ ∀ (j : Nat) (p1 : Part), w1.parts[j]? = some p1 → p1.nextPair = w.tile * w.wrec.nk ∧ p1.nextInit = w.tile
        ∧ (∀ x ∈ p1.aslots ++ p1.bslots, ∀ q, x.pair = some q → q / w.wrec.nk ≠ w.tile) ∧ ∀ x, p1.islot = some x → x.pair = none ∧ x.filled = false)

/-- R151 and R276, with the frame of R37. -/
def Obligations.AccumulatorsAndScales : Prop :=
  ∀ (s : State) (gid : Nat) (g : Group) (e : LiqEntry) (w : LaneWord),
    (let i : Instr := .accLd w
     let x := laneIn s.m g e i w
     i.wf = true → Issues s gid g e i → ReadsPass i g x.lanes →
     let traps (c : Cause) : Prop := exec i s = .next { s with m := laneTrap s.m gid g e c 0 }
     (g.serving = none → traps .handlerState)
     ∧ ∀ sid u k b, g.serving = some sid → aget s.m.summons sid = some u → aget s.m.walks u.walk = some k →
       (s.m.engine (k.eng + u.part)).banks[u.slot]? = some b →
       let pc := k.wrec.piece u.tile u.part
       let row (l : Nat) : Nat := (x.raw 0 w.a 0).toNat + l / 32
       let col (l : Nat) : Nat := (x.raw 1 w.b 0).toNat + l % 32
       let inside (l : Nat) : Prop := row l < pc.prows ∧ col l < pc.pcols
       let held := u.cancelled = false ∧ b.st = .draining ∧ b.walk = u.walk ∧ b.tile = u.tile
       let spoilt := ∃ l, effective g e w l ∧ inside l ∧ row l * 1024 + col l ∈ b.bad
       (u.kind ≠ .drain → traps .handlerState)
       ∧ (u.kind = .drain → w.t ≠ accTy k.wrec.accfmt → traps .accumulatorType)
       ∧ (u.kind = .drain → w.t = accTy k.wrec.accfmt →
         (held → spoilt → exec i s = .next { s with m := detectedError s.m gid 4 })
         ∧ (¬ (held ∧ spoilt) → LaneWrites i w s gid g e w.t.regs fun l v fl => fl = .clear ∧ (¬ inside l → v = 0)
             ∧ (inside l → held → v = ((aget b.acc (row l * 1024 + col l)).getD 0).toNat % 2 ^ w.t.bits))))
    ∧ (let i : Instr := .cvts w
     let x := laneIn s.m g e i w
     i.wf = true → Issues s gid g e i → ReadsPass i g x.lanes → ∀ r, s.m.lrec? g = some r →
     let d := SlotDesc.of (r.slots.getD w.slot.toNat 0)
     let block := 2 ^ (d.blk + 2)
     let row (l : Nat) : Nat := (x.raw 1 w.b l).toNat
     let pos (l : Nat) : Nat := (x.raw 2 w.c l).toNat
     let len (l : Nat) : Nat := (x.raw 3 w.d l).toNat
     let scales (l : Nat) : List ScaleRead :=
       (if d.blk = 0 then [] else
         [{ lane := l, addr := (r.scale.toNat + 64 * d.blkoff + row l * ceilDiv (len l) block + pos l / block) % 2 ^ 64, size := 1 }])
       ++ (if d.band then [{ lane := l, addr := (r.scale.toNat + 64 * d.bandoff + 2 * (row l / 64)) % 2 ^ 64, size := 2 }] else [])
     ∀ m1 as_ fs, checkScales g (x.lanes.flatMap fun l => if len l ≤ pos l then [] else scales l) s.m = (m1, as_, fs) →
       (fs ≠ [] → exec i s = .next { s with m := laneFaults m1 gid g e fs })
       ∧ (let ports := portsOf 2 (as_.map Prod.snd)
          let near (a : ScaleRead × LaneAccess) : Prop := (∀ port far, a.2.loc.loc ≠ .ext port far) ∧ a.2.early g = none
          (fs = [] → ports ≠ [] → SendsLanes i s gid g m1 2 ports)
          ∧ (fs = [] → ports = [] ∨ (∃ lost, g.fabric = .done lost) → ∃ m2 g1, ((∀ a ∈ as_, near a) → OnlyL1 m1 m2 g.core) ∧ LaneLeavesIn i w s gid m2 g e g1 (fun _ => True)
            ∧ g1 = { g with v := g1.v, chk := g1.chk, fpstat := g1.fpstat }
            ∧ (∀ k l, l < 128 → ¬ (k = w.dst.toNat ∧ effective g e w l) → g1.vreg k l = g.vreg k l ∧ aget g1.chk (k * 128 + l) = aget g.chk (k * 128 + l))
            ∧ (∃ fl : FFlags, g1.fpstat = g.fpstat ||| fl.word ∧ ∀ l, effective g e w l → len l ≤ pos l → fl.iv = true)
            ∧ ∀ l, effective g e w l → w.dst.toNat < 256 →
              let enc := w.sub % 2 = 1
              let old := (g.vreg w.dst.toNat l).toNat
              let new := (g1.vreg w.dst.toNat l).toNat
              let at_ := pos l % d.ty.count
              (len l ≤ pos l → (enc → new = old) ∧ (¬ enc → new = canonicalNaN w.t.fmt))
              ∧ (pos l < len l → ∃ blk band : FVal,
                (d.blk = 0 → blk = .fin false 1 0) ∧ (d.band = false → band = .fin false 1 0)
                ∧ (d.blk ≠ 0 → ∃ a ∈ as_, a.1.lane = l ∧ a.1.size = 1 ∧ ∃ b : Byte, (near a → MayLoad m1 g a.2.loc.loc .grp [b]) ∧ blk = decodeF .e3m5 b.toNat)
                ∧ (d.band = true → ∃ a ∈ as_, a.1.lane = l ∧ a.1.size = 2 ∧ ∃ bs, bs.length = 2 ∧ (near a → MayLoad m1 g a.2.loc.loc .grp bs)
                    ∧ band = decodeF .bf16 (numberOf bs))
                ∧ (¬ enc → new = (deliver w.t.fmt (x.rndOf w.t.fmt) (x.satOf w.t.fmt)
                    (scaledValue (decodeF d.ty.fmt (elem d.ty.ew (x.a d.ty l) at_)) blk band).1).1 % 2 ^ w.t.ew)
                ∧ (enc → ∀ k, k < d.ty.count → (k ≠ at_ → elem d.ty.ew new k = elem d.ty.ew old k)
                  ∧ (k = at_ → ((∀ neg n ex, blk.mul band = .fin neg n ex → n = 0) → elem d.ty.ew new k = 0)
                    ∧ ∀ neg n ex, blk.mul band = .fin neg n ex → n ≠ 0 → elem d.ty.ew new k
                      = (divideTo d.ty.fmt (x.rndOf d.ty.fmt) (x.satOf d.ty.fmt) (decodeF w.t.fmt (elem w.t.ew (x.a w.t l) 0)) (.fin neg n ex)).1))))))

/-! Kernels, the work distributor and the compactor (17_kernel.md, 19_context.md). -/

/-- R353, R357 and R371. -/
def Obligations.TeamsAndWork : Prop :=
  (∀ (s : State) (kid : Nat) (k : Kernel) (p : Placement), aget s.m.kerns kid = some k → k.st = .admitting → k.lrec.coop = false →
    mayResume s.m k.ctx = true → (∀ kt ∈ s.m.teams, kt.2.ctx = k.ctx → kt.2.saved = false) →
    (∀ kk ∈ s.m.kerns, kk.1 < kid → kk.2.ctx = k.ctx → kk.2.st ≠ .admitting) → NumbersFresh s.m → teamFits s.m k.ctx kid k.lrec p = true →
    let r := k.lrec
    let tid := s.m.nextId
    Completes (.teamAdmit kid [p]) s fun t =>
      (∃ tm, aget t.m.teams tid = some tm ∧ tm.kern = kid ∧ tm.ctx = k.ctx ∧ tm.t = k.nextTeam ∧ tm.size = r.scratch ∧ tm.frame = p.frame
        ∧ tm.saved = false ∧ tm.depth = 1 ∧ tm.dmin = 1 ∧ tm.dmax = 1 ∧ (∀ b ∈ tm.binds, b = none) ∧ tm.head = 0 ∧ tm.halt = false
        ∧ tm.share = (if r.scratch = 0 then 0 else p.core * 2 ^ 18 + p.off))
      ∧ (∀ i x, p.slots[i]? = some x → ∃ g, t.m.grp? (tid + 1 + i) = some g ∧ g.ctx = k.ctx ∧ g.kern = kid ∧ g.team = tid ∧ g.core = x.core
        ∧ g.slot = x.slot ∧ g.gidx = i ∧ g.width = 32 * (r.wcode + 1) ∧ g.nregs = 8 * r.regs ∧ g.st = .ready ∧ g.lpc = 0
        ∧ g.spc = r.sbase + BitVec.ofNat 64 r.entry ∧ g.node = r.node ∧ g.stamp = r.stamp ∧ g.own = true ∧ g.v = []
        ∧ (∀ n l, n < 7 → g.pred n l = false)
        ∧ g.s 1 = (if r.scratch = 0 then 0 else BitVec.ofNat 64 (0x00FF000100000000 + (p.core * 2 ^ 18 + p.off) % 2 ^ 21))
        ∧ (∀ j : Sreg, 1 < j.toNat → j.toNat < 61 → g.s j = 0)
        ∧ ∀ j : Sreg, 61 ≤ j.toNat → g.s j = if j.toNat - 61 < r.wcode + 1 then 0xFFFFFFFF else 0)
      ∧ (∀ j, j < tid ∨ tid + p.slots.length < j → t.m.grp? j = s.m.grp? j) ∧ (∀ j, j ≠ tid → aget t.m.teams j = aget s.m.teams j)
      ∧ (∀ j, j ≠ kid → aget t.m.kerns j = aget s.m.kerns j)
      ∧ aget t.m.kerns kid = some { k with nextTeam := k.nextTeam + 1, st := if k.nextTeam + 1 = r.teams then .resident else .admitting }
      ∧ ∀ l, unlogged s.m l → (∀ a, l = .spad a → r.scratch = 0 ∨ a < p.core * 2 ^ 18 + p.off ∨ p.core * 2 ^ 18 + p.off + max 64 r.scratch ≤ a) →
          readByte t.m l = readByte s.m l)
  ∧ (∀ (s : State) (kid : Nat) (k : Kernel) (ats : List Placement), aget s.m.kerns kid = some k → k.lrec.coop = true →
    (∀ kt ∈ s.m.teams, kt.2.ctx = k.ctx → kt.2.saved = false) → (ats.length ≠ k.lrec.teams ∨ admitAll k.ctx kid k.lrec ats k.nextTeam s.m = none) →
    exec (.teamAdmit kid ats) s = .next s)
  ∧ (∀ (s : State) (gid : Nat) (g : Group) (sa : Sreg), Here s gid g →
    let i : Instr := .wdqNext sa
    let a := (g.s sa).toNat
    (g.rgn ≠ [] → Traps i s gid .workQueryInRegion)
    ∧ (g.rgn = [] → a % 16 ≠ 0 → exec i s = .next { s with m := scalarTrapAt s.m gid .misaligned (g.s sa) })
    ∧ (g.rgn = [] → a % 16 = 0 → ∀ t, aget s.m.teams g.team = some t → (∀ b, spadOf g a = some b → b < t.share ∨ t.share + t.size < b + 16) →
        Traps i s gid .workAnswer)
    ∧ (g.rgn = [] → a % 16 = 0 → ∀ t b k, aget s.m.teams g.team = some t → spadOf g a = some b → t.share ≤ b → b + 16 ≤ t.share + t.size →
      aget s.m.kerns g.kern = some k →
      let asked := (k.queries.filter fun q => q.1 = gid).length
      (4 ≤ asked → Waits i s gid g)
      ∧ (asked < 4 → plainAt s.m (.spad (b + 12)) 4 → ∃ m1, StoredAt s.m m1 (.spad (b + 12)) [0, 0, 0, 0]
        ∧ (let qs := k.queries ++ [(gid, BitVec.ofNat 64 b)]
           m1 = { s.m with mem := m1.mem, indet := m1.indet, kerns := aput s.m.kerns g.kern { k with queries := qs } })
        ∧ LeavesIn i s gid m1 g (g.spc + 4) (scalarCode 0x2C 0))))
  ∧ (∀ (s : State) (gid kid : Nat) (k : Kernel) (a : Dword), (s.m.kerns.find? fun kk => kk.2.queries.any fun q => q.1 = gid) = some (kid, k) →
    (k.queries.find? fun q => q.1 = gid) = some (gid, a) → plainAt s.m (.spad a.toNat) 16 →
    let i : Instr := .workAnswer gid
    let r := k.lrec
    let mine (q : Nat × Dword) : Bool := q.1 = gid
    let k1 : Kernel := { k with parked := k.parked ++ ((k.queries.filter mine).drop (k.parked.countP mine)).take 1 }
    let parks : Prop := exec i s = .next { s with m := s.m.setKern kid k1 }
    let first := ∀ p, k.parked.head? = some p → p.1 = gid
    let holds := ∀ h tm, s.m.grp? gid = some h → aget s.m.teams h.team = some tm → tm.saved = false
    let answers (index yx tag : Nat) (k1 : Kernel) : Prop := (¬ first → parks) ∧ (first → ¬ holds → exec i s = .next s)
      ∧ (first → holds → Completes i s fun t =>
      StoredAt s.m t.m (.spad a.toNat) (bytesOf 4 index ++ bytesOf 4 yx ++ bytesOf 4 tag ++ bytesOf 4 1)
      ∧ aget t.m.kerns kid = some { k1 with queries := k.queries.eraseP mine, parked := k.parked.eraseP mine } ∧ (∀ j, j ≠ kid → aget t.m.kerns j = aget s.m.kerns j)
      ∧ t = { s with m := { s.m with mem := t.m.mem, indet := t.m.indet, kerns := t.m.kerns, ctxs := t.m.ctxs } })
    (k.nextItem < r.wx * r.wy → answers k.nextItem (k.nextItem % r.wx + k.nextItem / r.wx * 2 ^ 16) 0 { k with nextItem := k.nextItem + 1 })
    ∧ (r.wx * r.wy ≤ k.nextItem →
      (∀ b, k.wqBase = some b → 0 < k.wqCount →
        let word (n : Nat) : Nat := numberOf ((List.range 4).map fun j => readByte s.m (.chip (b + 16 * k.wqHead + 4 * n + j)))
        answers (word 0) (word 1) (word 2) { k with wqHead := (k.wqHead + 1) % 2 ^ r.wqlog, wqCount := k.wqCount - 1 })
      ∧ (k.wqBase = none ∨ (k.wqCount = 0 ∧ (r.wq = false ∨ k.closed = true)) → answers 0xFFFFFFFF 0 0 k)
      ∧ ∀ b, k.wqBase = some b → k.wqCount = 0 → r.wq = true → k.closed = false → parks))
  ∧ ∀ (s : State) (die : Nat) (late : Bool) (at_ : Slot) (f : FaultLane) (c : Context),
    let ls := (s.m.die die).lanes
    let same (x y : FaultLane) : Bool := y.ctx = x.ctx && y.cause = x.cause
    let batch := (ls.filter (same f)).take 32
    f ∈ ls → (late = true ∨ batch.length = 32) →
    (∀ x ∈ ls, late = true ∨ ((ls.filter (same x)).take 32).length = 32 → same f x = true) →
    aget s.m.ctxs f.ctx = some c → c.st = .active → dieOf at_.core = die →
    coreTakes s.m f.ctx at_.core 0 [at_.slot] 32 (8 * c.desc.hregs) = true →
    Completes (.compactorEmit die late at_) s fun t =>
      (∃ g, t.m.grp? s.m.nextId = some g ∧ g.kind = .compacted ∧ g.ctx = f.ctx ∧ g.core = at_.core ∧ g.slot = at_.slot ∧ g.width = 32
        ∧ g.nregs = 8 * c.desc.hregs ∧ g.st = .trapped .running ∧ g.lpc = 0 ∧ g.own = false
        ∧ (∀ x, batch.head? = some x → g.spc = BitVec.ofNat 64 (c.desc.tsbase + x.loff))
        ∧ g.s 1 = BitVec.ofNat 64 (2 ^ batch.length - 1) ∧ g.s 61 = g.s 1 ∧ g.s 2 = BitVec.ofNat 64 f.cause
        ∧ g.origins = batch.map FaultLane.origin
        ∧ (∀ (l : Nat) (x : FaultLane) (n : Nat), batch[l]? = some x → n < 4 → g.vreg n l = x.tag.getD n 0)
        ∧ ∀ n l, l < 128 → (4 ≤ n ∨ batch.length ≤ l) → g.vreg n l = 0)
      ∧ (∀ j, j ≠ s.m.nextId → t.m.grp? j = s.m.grp? j)
      ∧ ((t.m.die die).lanes.filter (same f) = (ls.filter (same f)).drop 32)
      ∧ (t.m.die die).lanes.filter (fun x => !same f x) = ls.filter fun x => !same f x

/-- R99, R187, R301, R303 and R304. -/
def Obligations.CountsFloorsAndThrottle : Prop :=
  let total (l : List Count) (x n : Nat) (t : Dword) : Int := ((l.filter fun c => c.ctx = x && c.node = n && c.stamp = t).map Count.n).sum
  (∀ (s : State) (unit : Nat), unit < 128 → Completes (.countBatchSend unit) s fun t =>
    t = { s with m := { s.m with clusters := t.m.clusters, dies := t.m.dies } }
    ∧ t.m.cluster unit = { s.m.cluster unit with deltas := [] } ∧ (∀ k, k ≠ unit → t.m.cluster k = s.m.cluster k)
    ∧ t.m.die (unit / 16) = { s.m.die (unit / 16) with deltas := (s.m.die (unit / 16)).deltas ++ (s.m.cluster unit).deltas }
    ∧ ∀ d, d ≠ unit / 16 → t.m.die d = s.m.die d)
  ∧ (∀ (s : State) (die : Nat), die < 8 → Completes (.countBatchSend (128 + die)) s fun t =>
    t = { s with m := { s.m with dies := t.m.dies, root := t.m.root, ctxs := t.m.ctxs } }
    ∧ t.m.die die = { s.m.die die with deltas := [] } ∧ (∀ d, d ≠ die → t.m.die d = s.m.die d)
    ∧ (∀ x n st, total t.m.root x n st = total s.m.root x n st + total (s.m.die die).deltas x n st)
    ∧ ∀ x c, aget s.m.ctxs x = some c → aget t.m.ctxs x = some { c with npCount :=
        if ∃ d ∈ (s.m.die die).deltas, d.ctx = x ∧ d.n < 0 then 0 else c.npCount })
  ∧ (∀ (s : State) (ctx : Nat) (c : Context), aget s.m.ctxs ctx = some c →
    exec (.snapshotStart ctx) s = .next { s with m := s.m.setCtx ctx { c with snap := true } })
  ∧ (∀ (s : State) (ctx : Nat) (lagging : List Nat) (c : Context), aget s.m.ctxs ctx = some c → c.snap = true →
    amapWf s.m.clusters = true → (∀ kd ∈ s.m.clusters, kd.1 < 128) → Completes (.floorAnnounce ctx lagging) s fun t =>
      t = { s with m := { s.m with clusters := t.m.clusters, dies := t.m.dies, root := t.m.root, ctxs := t.m.ctxs } }
      ∧ (∀ k, (t.m.cluster k).deltas = []) ∧ (∀ d, (t.m.die d).deltas = [])
      ∧ ∃ c1, aget t.m.ctxs ctx = some c1 ∧ c1 = { c with snap := false, floors := c1.floors, copies := c1.copies, npCount := c1.npCount }
        ∧ (c.frozen = true ∨ c.st = .lost → c1.floors = c.floors)
        ∧ (c.frozen = false → c.st ≠ .lost → ∀ n, n < c.nodes.length →
          let least := ((t.m.root.filter fun x => x.ctx = ctx).map (fun x => (x.node, x.stamp)) ++ c.input.toList).foldl
            (fun f p => f.min (summaryIn c.sums p.1 n p.2)) .top
          c1.floorAt n = if (c.floorAt n).leF least then least else c.floorAt n)
        ∧ ∀ k, k < 128 → aget c1.copies k = if k ∈ lagging then aget c.copies k else some c1.floors)
  ∧ (∀ (s : State) (core hits : Nat), hits ≤ 1024 → Completes (.throttleWindow core hits) s fun t =>
    t = { s with m := { s.m with cores := t.m.cores } } ∧ (∀ k, k ≠ core → t.m.core k = s.m.core k)
    ∧ t.m.core core = { s.m.core core with hits := hits, limit := max 4 (64 - hits / 16), memset := (t.m.core core).memset }
    ∧ (t.m.core core).memset.Sublist (members s.m core)
    ∧ ((members s.m core).length ≤ max 4 (64 - hits / 16) → (t.m.core core).memset = members s.m core)
    ∧ (amapWf (members s.m core) = true → max 4 (64 - hits / 16) ≤ (members s.m core).length → (t.m.core core).memset.length = max 4 (64 - hits / 16)
      ∧ ∀ x ∈ (t.m.core core).memset, ∀ y ∈ members s.m core, y ∉ (t.m.core core).memset → y.2 ≤ x.2))
  ∧ (∀ (s : State) (gid : Nat) (g : Group) (y : Nat × Nat), s.m.grp? gid = some g →
    let c := s.m.core g.core
    let ms := members s.m g.core
    (∀ since, throttled s.m gid g = true → g.throttledAt = some since → since + 512 ≤ c.cyc → y ∈ ms → (∀ x ∈ ms, x ≠ y → y.2 < x.2) →
      exec (.throttleDisplace gid) s = .next { s with m := s.m.setCore g.core { c with memset := aput (adel ms y.1) gid c.cyc } })
    ∧ (throttled s.m gid g = false ∨ (∀ since, g.throttledAt = some since → c.cyc < since + 512) → exec (.throttleDisplace gid) s = .next s)
    ∧ (throttled s.m gid g = true ↔ (g.st = .ready ∨ (∃ why, g.st = .waiting why) ∨ g.st = .trapped .running) ∧ g.saved = false ∧ g.chain = none ∧ g.serving = none ∧ aget ms gid = none ∧ c.limit ≤ ms.length
        ∧ ∃ e, g.qs.liq.head? = some e ∧ e.bad = none ∧ ∃ j, e.ins = some j ∧ isMemory j = true)
    ∧ ∀ last, aget c.memset gid = some last →
      (last + 64 ≤ c.cyc → exec (.memorySetLeave gid) s = .next { s with m := s.m.setCore g.core { c with memset := adel c.memset gid } })
      ∧ (c.cyc < last + 64 → exec (.memorySetLeave gid) s = .next s))
  ∧ ∀ (s : State) (gid cycles : Nat) (g : Group) (m : Mach) (cc : BitVec 3) (sd sa sb : Sreg), s.m.grp? gid = some g →
    let c := s.m.core g.core
    let m0 := { s.m.setCore g.core { c with clk := c.clk + cycles } with cur := gid }
    nextScalar m0 g = (m, .waita cc sd sa sb) → m.cur = gid → (m.grp? gid).isSome = true →
    (g.waitedFrom.isSome = true → g.fabric = .none → g.saved = false → ctxRuns s.m g.ctx = true → g.traps = [] →
      ∃ t, exec (.waitaRecheck gid cycles) s = .next t ∧ exec (.waita cc sd sa sb) { s with m := m } = .next t)
    ∧ (g.waitedFrom = none → exec (.waitaRecheck gid cycles) s = .next s)

/-! Contexts and pages (19_context.md, 20_page.md). -/

/-- R362, R366, R369, R374 to R376 and R441. -/
def Obligations.ContextCommands : Prop :=
  (∀ (m : Mach) (cp ctx res : Nat), cp < 8 → (cxDone m cp ctx res).cp cp = { m.cp cp with cxctx := ctx, cxres := res }
    ∧ cxDone m cp ctx res = { m with cps := (cxDone m cp ctx res).cps } ∧ ∀ k, k ≠ cp → (cxDone m cp ctx res).cp k = m.cp k)
  ∧ ∀ (s : State) (cp ctx : Nat), cp < 8 →
    let arg := (s.m.cp cp).cxarg.toNat
    let gives (i : Instr) (n res : Nat) : Prop := exec i s = .next { s with m := cxDone s.m cp n res }
    let named : List (Instr × Nat) := [(.quota cp ctx, 2), (.suspend cp ctx, 3), (.restore cp ctx, 4), (.continueCtx cp ctx, 6), (.answer cp ctx, 7)]
    (let bs := readBytes s.m (.dev arg) 256
     let d := CtxDesc.ofBytes bs
     let good := arg % 256 = 0 ∧ arg + 256 ≤ devTop ∧ descReservedZero bs = true ∧ d.valid = true
     (¬ good ∨ firstImage s.m d.summ = none → gives (.create cp) 0 1)
     ∧ ∀ im, good → firstImage s.m d.summ = some im →
       ((∀ n, n < 4096 → (aget s.m.ctxs n).isSome = true) → gives (.create cp) 0 2)
       ∧ ∀ n, n < 4096 → aget s.m.ctxs n = none → (∀ k, k < n → (aget s.m.ctxs k).isSome = true) →
         ∃ c, exec (.create cp) s = .next { s with m := cxDone (s.m.setCtx n c) cp n 0 }
           ∧ c.desc = d ∧ c.st = .created ∧ c.quota = none ∧ c.root = none ∧ c.nodes = im.depths ∧ c.sums = im.sums ∧ c.input = some (0, zeroStamp 1)
           ∧ (∀ j, j < im.depths.length → c.floorAt j = .at_ (zeroStamp (im.depths.getD j 0))) ∧ c.holds.length = 256 ∧ (∀ h ∈ c.holds, h.pair = none)
           ∧ c.pool = [] ∧ c.npCount = 0 ∧ c.rqIndex = 0 ∧ c.images = [] ∧ c.granted = 0 ∧ c.waits = [])
    ∧ (aget s.m.ctxs ctx = none → gives (.quota cp ctx) ctx 3 ∧ gives (.suspend cp ctx) ctx 5 ∧ gives (.restore cp ctx) ctx 5
        ∧ gives (.preempt cp ctx) ctx 5 ∧ gives (.continueCtx cp ctx) ctx 5 ∧ gives (.answer cp ctx) ctx 8 ∧ gives (.destroy cp ctx) ctx 5)
    ∧ ∀ c, aget s.m.ctxs ctx = some c →
      let busy := c.st = .suspending ∨ c.st = .saving ∨ c.st = .restoring ∨ c.vacating ≠ none
      let later (i : Instr) (code : Nat) : Prop :=
        let c1 : Context := { c with waits := c.waits ++ [{ cp := cp, code := code, arg := (s.m.cp cp).cxarg }] }
        exec i s = .next { s with m := s.m.setCtx ctx c1 }
      (busy ∨ c.waits ≠ [] → (∀ ic ∈ named, later ic.1 ic.2) ∧ (c.vacating = none → later (.preempt cp ctx) 5))
      ∧ (∀ x r, c.waits = x :: r → busy → performWait s.m ctx = s.m)
      ∧ (∀ x, c.waits = [x] → ¬ busy → x.cp = cp → x.arg = (s.m.cp cp).cxarg → ∀ ic ∈ (Instr.preempt cp ctx, 5) :: named, ic.2 = x.code →
          exec ic.1 { s with m := s.m.setCtx ctx { c with waits := [] } } = .next { s with m := performWait s.m ctx })
      ∧ (¬ busy → c.waits = [] →
        (let bs := readBytes s.m (.dev arg) 64
         let q := Quota.ofBytes bs
         let c1 := { c with quota := some q, granted := c.granted ||| q.clusters, st := if c.st = .created then .resident else c.st }
         let good := (c.st = .created ∨ c.st = .resident ∨ c.st = .active) ∧ arg % 64 = 0 ∧ arg + 64 ≤ devTop ∧ quotaReservedZero bs = true
           ∧ q.inRange = true ∧ (∀ kc ∈ s.m.ctxs, kc.1 ≠ ctx → kc.2.st ≠ .saved → ∀ p, kc.2.quota = some p → q.clashes p = false)
           ∧ keepsInside (s.m.setCtx ctx c1) ctx = true
         (good → exec (.quota cp ctx) s = .next { s with m := cxDone (s.m.setCtx ctx c1) cp ctx 0 }) ∧ (¬ good → gives (.quota cp ctx) ctx 3))
        ∧ (let now := decide (arg % 2 = 1)
           let legal := c.st = .resident ∨ c.st = .active ∨ c.st = .faulted
           (¬ legal → gives (.suspend cp ctx) ctx 5)
           ∧ (legal → c.desc.savesize < imageBytes s.m ctx c now → gives (.suspend cp ctx) ctx 4)
           ∧ (legal → imageBytes s.m ctx c now ≤ c.desc.savesize → amapWf s.m.walks = true → Completes (.suspend cp ctx) s fun t =>
              (t.m.cp cp).cxres = 0 ∧ (∃ c1, aget t.m.ctxs ctx = some c1 ∧ c1.st = .suspending ∧ c1.svCount = 0 ∧ c1.castNow = now ∧ c1.desc = c.desc ∧ c1.images = c.images)
              ∧ (∀ k q, aget s.m.queues k = some q → ∃ q1, aget t.m.queues k = some q1 ∧ (q.ctx ≠ ctx → q1 = q)
                  ∧ (q.ctx = ctx → q.st ≠ .draining → q1.st = .suspended ∧ (q.st ≠ .suspended → q1.slot = none)) ∧ (q.st = .draining → q1 = q))
              ∧ ∀ k w, aget s.m.walks k = some w → ∃ w1, aget t.m.walks k = some w1 ∧ (w.ctx ≠ ctx → w1 = w)
                ∧ (w.ctx = ctx → w.over = false → w.acause = 0 → (w.freezing = true → w.st ≠ .posted ∧ w.st ≠ .queued) → (w1.st = .frozen ∨ w1.freezing = true)
                  ∧ (now = true → w1.st = .frozen)
                  ∧ (w.st = .posted ∨ w.st = .queued → w1 = { w with prior := w.st, st := .frozen }))))
        ∧ (c.st ≠ .saved → gives (.restore cp ctx) ctx 5)
        ∧ (let free := ∀ q, c.quota = some q → ∀ kc ∈ s.m.ctxs, kc.1 ≠ ctx → kc.2.st ≠ .saved → ∀ p, kc.2.quota = some p → q.clashes p = false
          (c.st = .saved → ¬ (someCore s.m c (featsOf s.m ctx) = true ∧ free) →
            exec (.restore cp ctx) s = .next { s with m := report (cxDone s.m cp ctx 6) ctx (Report.plain 7 0) })
        ∧ (c.st = .saved → someCore s.m c (featsOf s.m ctx) = true → free →
            exec (.restore cp ctx) s = .next { s with m := (cxDone s.m cp ctx 0).setCtx ctx { c with st := .restoring } }))
        ∧ (c.st ≠ .active → gives (.preempt cp ctx) ctx 5)
        ∧ (c.st = .active → let first := arg % 2 ^ 10
           let count := arg / 2 ^ 10 % 2 ^ 11
           let named (core : Nat) : Prop := first ≤ core ∧ core < first + count
           (1024 < first + count → gives (.preempt cp ctx) ctx 7)
           ∧ (first + count ≤ 1024 → (∀ e, ∃ k, k < 8 ∧ ¬ named (8 * e + k)) → amapWf s.m.teams = true → amapWf s.m.groups = true →
              Completes (.preempt cp ctx) s fun t => (t.m.cp cp).cxres = 0
              ∧ ∀ k tm, aget s.m.teams k = some tm → tm.saved = false →
                let mine (gid : Nat) (g : Group) : Prop := s.m.grp? gid = some g ∧ g.team = k
                (tm.ctx ≠ ctx ∨ (∀ gid g, mine gid g → ¬ named g.core) → aget t.m.teams k = some tm ∧ ∀ gid g, mine gid g → t.m.grp? gid = some g)
                ∧ (tm.ctx = ctx → (∃ gid g, mine gid g ∧ named g.core) →
                    (∀ gid g, mine gid g → g.fabric.isOut = false ∧ g.serving = none
                      ∧ ∀ kk ∈ s.m.kerns, kk.2.queries.any (fun q => q.1 = gid) = true → kk.2.next s.m = none) →
                  (∃ tm1, aget t.m.teams k = some tm1 ∧ tm1.saved = true ∧ tm1.t = tm.t ∧ tm1.frame = tm.frame)
                  ∧ ∀ gid g, mine gid g → ∃ g1, t.m.grp? gid = some g1 ∧ g1.saved = true ∧ g1.chain = none ∧ g1.spc = g.spc ∧ g1.regs = g.regs ∧ g1.v = g.v)))
        ∧ (c.st ≠ .faulted → gives (.continueCtx cp ctx) ctx 5)
        ∧ (c.st = .faulted → amapWf s.m.walks = true → Completes (.continueCtx cp ctx) s fun t => (t.m.cp cp).cxres = 0
            ∧ aget t.m.ctxs ctx = some { c with st := .active } ∧ t.m.groups = s.m.groups
            ∧ (∀ k q, aget s.m.queues k = some q → q.ctx = ctx → q.st = .suspended → ∃ q1, aget t.m.queues k = some q1 ∧ q1.st = .unmapped)
            ∧ ∀ k w, aget s.m.walks k = some w → aget t.m.walks k = some (
                if w.ctx = ctx ∧ w.over = false then
                  if w.freezing then { w with freezing := false }
                  else if w.st = .frozen ∧ (w.placed = true ∨ w.prior = .posted) ∧ w.resuming = false then { w with st := w.prior } else w
                else w))
        ∧ (let waits (gid : Nat) (g : Group) : Prop := (gid, g) ∈ s.m.groups ∧ g.ctx = ctx ∧ g.saved = false ∧ originOf g = arg % 2 ^ 16
             ∧ (g.st = .trapped .host ∨ g.st = .heldHost)
           (c.st ≠ .active ∨ (∀ gid g, ¬ waits gid g) → gives (.answer cp ctx) ctx 8)
           ∧ ∀ gid g, c.st = .active → waits gid g → (∀ k h, waits k h → (k, h) = (gid, g)) →
             let m1 := cxDone s.m cp ctx 0
             (arg.testBit 16 = true → exec (.answer cp ctx) s = .next { s with m := killGroup m1 gid 104 0 })
             ∧ (arg.testBit 16 = false → g.st = .heldHost → exec (.answer cp ctx) s
                 = .next { s with m := m1.setGrp gid { g with st := .ready, readyAt := (s.m.core g.core).cyc } })
             ∧ (arg.testBit 16 = false → g.st ≠ .heldHost → exec (.answer cp ctx) s = .next { s with m := trapReturn m1 gid g })))
      ∧ (amapWf s.m.walks = true → Completes (.destroy cp ctx) s fun t => (t.m.cp cp).cxres = 0 ∧ aget t.m.ctxs ctx = none
        ∧ (∀ k, k ≠ ctx → aget t.m.ctxs k = aget s.m.ctxs k)
        ∧ (∀ x ∈ t.m.groups, x.2.ctx ≠ ctx) ∧ (∀ x ∈ t.m.teams, x.2.ctx ≠ ctx) ∧ (∀ x ∈ t.m.kerns, x.2.ctx ≠ ctx) ∧ (∀ x ∈ t.m.walks, x.2.ctx ≠ ctx)
        ∧ (∀ x ∈ t.m.psts, x.2.ctx ≠ ctx) ∧ (∀ x ∈ t.m.queues, x.2.ctx ≠ ctx) ∧ (∀ x ∈ t.m.root, x.ctx ≠ ctx)
        ∧ (∀ x ∈ t.m.clusters, ∀ y ∈ x.2.deltas, y.ctx ≠ ctx) ∧ (∀ x ∈ t.m.cores, ∀ y ∈ x.2.tlb, y.ctx ≠ ctx)
        ∧ (∀ gid g, s.m.grp? gid = some g → amapWf s.m.groups = true → g.ctx ≠ ctx → t.m.grp? gid = some g)
        ∧ (∀ core, core < 1024 → c.granted.getLsbD (core / 8) = true → (t.m.core core).l1 = [])
        ∧ ∀ q core off, c.quota = some q → core < 1024 → q.clusters.getLsbD (core / 8) = true → 4096 * q.spbase ≤ off → off < 4096 * (q.spbase + q.spsize) →
          let a := core * 2 ^ 18 + off
          off < 2 ^ 18 → aget t.m.slots (a / 16 * 16) = none → ringAt t.m a = none → logAt t.m a = false →
            indetAt t.m.indet (Loc.spad a).key = none → readByte t.m (.spad a) = 0)

/-- R363, R364 and R374 to R378. -/
def Obligations.ContextLife : Prop :=
  (∀ (s : State) (ctx : Nat) (c : Context), aget s.m.ctxs ctx = some c →
    (c.st ≠ .suspending → c.st ≠ .saving → exec (.contextSaved ctx) s = .next s)
    ∧ (c.st = .suspending → quiet s.m ctx = false → exec (.contextSaved ctx) s = .next s)
    ∧ (quiet s.m ctx = true ↔ (∀ kw ∈ s.m.walks, kw.2.ctx = ctx → kw.2.over = true ∨ (kw.2.st = .frozen ∧ kw.2.acause = 0))
        ∧ (∀ kg ∈ s.m.groups, kg.2.ctx = ctx → kg.2.fabric.isOut = false)
        ∧ ∀ kk ∈ s.m.kerns, (∃ q ∈ kk.2.queries, ((s.m.grp? q.1).map Group.ctx) = some ctx) → kk.2.next s.m = none)
    ∧ (c.st = .suspending → quiet s.m ctx = true → imageBytes s.m ctx c false ≤ c.desc.savesize → amapWf s.m.teams = true → amapWf s.m.groups = true →
      amapWf s.m.clusters = true → Completes (.contextSaved ctx) s fun t =>
        (∃ c1, aget t.m.ctxs ctx = some c1 ∧ c1.st = .saving ∧ c1.desc = c.desc)
        ∧ (∀ k tm, aget s.m.teams k = some tm → tm.ctx = ctx → ((∃ gid g, s.m.grp? gid = some g ∧ g.team = k ∧ g.kind ≠ .handler) → (aget t.m.teams k).isSome = true)
          ∧ ∀ tm1, aget t.m.teams k = some tm1 → tm1.saved = true ∧ tm1.t = tm.t ∧ tm1.frame = tm.frame
            ∧ ∀ gid g, s.m.grp? gid = some g → g.team = k → tm.saved = false → ∀ g1, t.m.grp? gid = some g1 → g1.saved = true ∧ g1.regs = g.regs ∧ g1.v = g.v)
        ∧ (∀ x ∈ t.m.cores, ∀ y ∈ x.2.tlb, y.ctx ≠ ctx) ∧ (∀ x ∈ t.m.clusters, ∀ y ∈ x.2.tlb, y.ctx ≠ ctx)
        ∧ (∀ k, (t.m.cluster k).deltas = []) ∧ ∀ x ∈ t.m.slots, ∀ tm, aget s.m.teams x.2.team = some tm → tm.saved = false → tm.ctx ≠ ctx)
    ∧ (c.st = .saving → c.images.Pairwise (fun a b => a.addr + 64 ≤ b.addr) → ∃ m1 : Mach,
        (∀ i ∈ c.images, ∀ k, k < 8 → readByte m1 (.dev (i.addr + 8 + k)) = if k = 0 then 1 else 0)
        ∧ (SameOutside s.m m1 fun key => ∃ i ∈ c.images, ∃ k, k < 8 ∧ key = (Loc.dev (i.addr + 8 + k)).key)
        ∧ m1 = { s.m with mem := m1.mem, indet := m1.indet, touched := m1.touched }
        ∧ exec (.contextSaved ctx) s = .next { s with m := report (m1.setCtx ctx { c with st := .saved }) ctx (Report.plain 6 0) })
    ∧ (∀ teams walks m1, c.st = .restoring → c.images.all (imageGood s.m) = true → namesAll s.m ctx teams walks = true →
        (restoreTeams ctx (featsOf s.m ctx) teams s.m).bind (restoreWalks ctx walks) = some m1 →
        Completes (.restoreComplete ctx teams walks) s fun t => ∃ c1 c2, aget m1.ctxs ctx = some c1 ∧ aget t.m.ctxs ctx = some c2
          ∧ (let live := ∃ kk ∈ m1.kerns, kk.2.ctx = ctx ∧ (kk.2.st = .admitting ∨ kk.2.st = .resident ∨ kk.2.st = .draining)
             (live → c2.st = .active) ∧ (¬ live → c2.st = .resident))
          ∧ c2 = { c1 with st := c2.st, images := [], rqIndex := c2.rqIndex }
          ∧ t.m.groups = m1.groups ∧ t.m.teams = m1.teams
          ∧ (∀ k w, aget m1.walks k = some w → ∃ told, aget t.m.walks k = some { w with told := told }) ∧ ∀ x ∈ t.m.queues, x.2.ctx = ctx → x.2.st ≠ .suspended)
    ∧ (∀ teams walks, c.st ≠ .restoring ∨ c.images.all (imageGood s.m) = false → exec (.restoreComplete ctx teams walks) s = .next s)
    ∧ (c.st = .restoring → exec (.restoreFault ctx false) s = .next { s with m := report (s.m.setCtx ctx { c with st := .saved }) ctx (Report.plain 5 102) }
        ∧ (c.images.all (imageGood s.m) = false →
            exec (.restoreFault ctx true) s = .next { s with m := report (s.m.setCtx ctx { c with st := .saved }) ctx (Report.plain 5 103) })
        ∧ (c.images.all (imageGood s.m) = true → exec (.restoreFault ctx true) s = .next s))
    ∧ (∀ cycles, let n := c.npCount + cycles
        let i : Instr := .noProgressWatchdog ctx cycles
        (c.desc.npl = 0 ∨ n < c.desc.npl ∨ c.st ≠ .active → exec i s = .next { s with m := s.m.setCtx ctx { c with npCount := n } })
        ∧ (c.desc.npl ≠ 0 → c.desc.npl ≤ n → c.st = .active → ∃ m1, m1 = report (s.m.setCtx ctx { c with npCount := n }) ctx (Report.plain 4 101)
          ∧ ∃ c1, aget m1.ctxs ctx = some c1 ∧ exec i s = .next { s with m := suspendNow m1 ctx c1 false }))
    ∧ ∀ cycles, let n := c.svCount + cycles
      let i : Instr := .saveWatchdog ctx cycles
      (c.st ≠ .suspending → c.st ≠ .saving → exec i s = .next s)
      ∧ (c.st = .suspending ∨ c.st = .saving →
        (n < c.desc.svl → exec i s = .next { s with m := s.m.setCtx ctx { c with svCount := n } })
        ∧ (c.desc.svl ≤ n → amapWf s.m.walks = true → Completes i s fun t =>
          (∃ c1, aget t.m.ctxs ctx = some c1 ∧ c1.st = .lost ∧ c1.frozen = true ∧ c1.images = [] ∧ c1.floors = c.floors)
          ∧ (∀ x ∈ t.m.groups, x.2.ctx ≠ ctx) ∧ (∀ x ∈ t.m.teams, x.2.ctx ≠ ctx) ∧ (∀ x ∈ t.m.kerns, x.2.ctx ≠ ctx) ∧ (∀ x ∈ t.m.walks, x.2.ctx ≠ ctx)
          ∧ ∀ x ∈ t.m.queues, x.2.ctx ≠ ctx)))
  ∧ ∀ (m m1 : Mach) (ctx tid feat : Nat) (p : Placement) (tm : Team), aget m.teams tid = some tm → placeSaved m ctx tid feat p = some m1 →
    let share := if tm.size = 0 then 0 else p.core * 2 ^ 18 + p.off
    tm.saved = true ∧ tm.ctx = ctx
    ∧ (∃ u, aget m1.teams tid = some u ∧ u = { tm with saved := false, share := share, bytes := [], held := [], spans := u.spans, timed := u.timed }
      ∧ (u.spans = true ↔ ∃ x ∈ p.slots, ∃ y ∈ p.slots, x.core ≠ y.core)
      ∧ ∀ kg x, (m.groups.find? fun kg => kg.2.team = tid) = some kg → p.slots.head? = some x →
          u.timed = (tm.timed && kg.2.core / 8 = x.core / 8))
    ∧ (∀ off b, (off, b) ∈ tm.held → (∀ x, (off, x) ∈ tm.held → x = b) → aget m1.slots (share + off) = some b)
    ∧ (∀ k b, tm.bytes[k]? = some b → memRead m1.mem (Loc.spad (share + k)).key = b)
    ∧ (amapWf m.groups = true → ∀ (k gid : Nat) (g : Group) (x : Slot), (m.groups.filter fun kg => kg.2.team = tid)[k]? = some (gid, g) → p.slots[k]? = some x →
        m1.grp? gid = some { g with core := x.core, slot := x.slot, saved := false, readyAt := (m.core x.core).cyc, issuedAt := (m.core x.core).cyc,
                                     throttledAt := none, ready := [] }
        ∧ (m1.core x.core).l1 = [])

/-- R382 to R388 and R391. -/
def Obligations.TranslationAndInvalidation : Prop :=
  (∀ (s : State) (cp : Nat) (val : BitVec 64), cp < 8 →
    let ctx := val.toNat / 2 ^ 52
    let root := if val.getLsbD 0 then some (val.toNat / 2 ^ 12 % 2 ^ 40 * 4096) else none
    Completes (.trrootWrite cp val) s fun t =>
      (∀ c, aget s.m.ctxs ctx = some c → (c.st = .created ∨ c.st = .resident ∨ c.st = .saved) →
        t = { s with m := { s.m with ctxs := t.m.ctxs, cps := t.m.cps } } ∧ aget t.m.ctxs ctx = some { c with root := root }
        ∧ (∀ k, k ≠ ctx → aget t.m.ctxs k = aget s.m.ctxs k) ∧ (t.m.cp cp).trroot.getLsbD 1 = false)
      ∧ ((∀ c, aget s.m.ctxs ctx = some c → c.st ≠ .created ∧ c.st ≠ .resident ∧ c.st ≠ .saved) →
        t = { s with m := { s.m with cps := t.m.cps } } ∧ (t.m.cp cp).trroot.getLsbD 1 = true))
  ∧ (∀ (s : State) (cp ctx : Nat),
    let starts (i : Instr) (kind c vpn : Nat) : Prop :=
      (s.m.busy = none → exec i s = .next { s with m := { s.m with busy := some { kind := kind, ctx := c, vpn := vpn } } })
      ∧ (s.m.busy ≠ none → exec i s = .next s)
    starts (.invalidateAddress cp ctx) 1 ctx ((s.m.cp cp).trinva.toNat / 2 ^ 12 % 2 ^ 45) ∧ starts (.invalidateContext cp ctx) 2 ctx 0
    ∧ starts (.invalidateAll cp) 3 0 0)
  ∧ (∀ (s : State) (cp : Nat), (s.m.busy = none → exec (.invalidationComplete cp) s = .next s)
    ∧ ∀ i, s.m.busy = some i →
      let out := ∃ kg ∈ s.m.groups, (i.kind = 3 ∨ kg.2.ctx = i.ctx) ∧ kg.2.fabric.isOut = true
      let page := i.vpn * 4096 % 2 ^ 57
      let names (t : TlbEntry) : Prop :=
        (i.kind = 1 ∧ t.ctx = i.ctx ∧ t.base ≤ page ∧ page < t.base + 2 ^ t.log) ∨ (i.kind = 2 ∧ t.ctx = i.ctx) ∨ (i.kind ≠ 1 ∧ i.kind ≠ 2)
      (out → exec (.invalidationComplete cp) s = .next s)
      ∧ (¬ out → Completes (.invalidationComplete cp) s fun t => t.m.busy = none
        ∧ t = { s with m := { s.m with busy := none, cores := t.m.cores, clusters := t.m.clusters, dies := t.m.dies } }
        ∧ (∀ k x, x ∈ (t.m.core k).tlb ↔ x ∈ (s.m.core k).tlb ∧ ¬ names x) ∧ (∀ k x, x ∈ (t.m.cluster k).tlb ↔ x ∈ (s.m.cluster k).tlb ∧ ¬ names x)
        ∧ (∀ k, t.m.core k = { s.m.core k with tlb := (t.m.core k).tlb }) ∧ (∀ k, t.m.cluster k = { s.m.cluster k with tlb := (t.m.cluster k).tlb })
        ∧ ∀ d x, x ∈ (t.m.die d).wcache → x ∈ (s.m.die d).wcache ∧ (i.kind = 2 → x.ctx ≠ i.ctx) ∧ i.kind ≠ 3
          ∧ (i.kind = 1 → x.ctx = i.ctx → x.pre ≠ page / 2 ^ (12 + 9 * (x.level + 1)))))
  ∧ ∀ (m : Mach) (core ctx va : Nat) (k : AKind), va < 2 ^ 64 →
    let canon := va / 2 ^ 56 = 0 ∨ va / 2 ^ 56 = 255
    (¬ canon → translate m core ctx va k = .error (.notPresent, 4))
    ∧ (aget m.ctxs ctx = none → translate m core ctx va k = .error (.notPresent, 4))
    ∧ (∀ c, aget m.ctxs ctx = some c → c.root = none → translate m core ctx va k = .error (.notPresent, 4))
    ∧ (canon → (m.core core).tlb = [] → (m.cluster (core / 8)).tlb = [] → (m.die (core / 128)).wcache = [] →
      ∀ c root, aget m.ctxs ctx = some c → c.root = some root → root < devTop →
        let entry (table level : Nat) : Nat := readNat m (.dev (table + 8 * (va / 2 ^ (12 + 9 * level) % 512))) 8
        let next (e : Nat) : Nat := e / 2 ^ 12 % 2 ^ 40 * 4096
        let fault (x : Cause) (l : Nat) : Prop := translate m core ctx va k = .error (x, l)
        ∀ (level : Nat) (tables : Nat → Nat), level ≤ 4 → tables 4 = root →
          (∀ l, level < l → l ≤ 4 → (entry (tables l) l).testBit 0 = true ∧ (entry (tables l) l).testBit 1 = false
            ∧ pteBroken (entry (tables l) l) l va = false ∧ tables (l - 1) = next (entry (tables l) l)) →
          let e := entry (tables level) level
          (e.testBit 0 = false → fault .notPresent level)
          ∧ (e.testBit 0 = true → pteBroken e level va = true → fault .reservedBit level)
          ∧ (e.testBit 0 = true → pteBroken e level va = false → e.testBit 1 = true →
            let r := e.testBit 2
            let w := e.testBit 3
            let right := match k with | .read => r | .write => w | .atomic => r && w | .fetch => e.testBit 4
            let log := match level with | 0 => (if e / 2 ^ 10 % 4 = 1 then 16 else 12) | 1 => (if e.testBit 9 then 25 else 21) | _ => 30
            let pa := next e / 2 ^ log * 2 ^ log + va % 2 ^ log
            (right = false → fault .permission level)
            ∧ (right = true → (k = .atomic → e.testBit 7 = false) → (k = .fetch → pa.testBit 51 = false) →
              ∃ m1 t, translate m core ctx va k = .ok (m1, pa, t) ∧ LookedUp m m1 core ctx (some va)
                ∧ (∀ j, j < 64 → (numberOf ((List.range 8).map fun b => readByte m1 (.dev (tables level + 8 * (va / 2 ^ (12 + 9 * level) % 512) + b)))).testBit j
                    = (e.testBit j || j == 5 || (j == 6 && (k = .write || k = .atomic))))
                ∧ t.level = level ∧ t.ctx = ctx)))

/-! Queues and packets (21_queue.md). -/

/-- R394 to R404, with R300, R351, R352 and R355. -/
def Obligations.QueuesAndPackets : Prop :=
  let total (l : List Count) (x n : Nat) (t : Dword) : Int := ((l.filter fun c => c.ctx = x && c.node = n && c.stamp = t).map Count.n).sum
  let counted (m m' : Mach) (x n : Nat) (t : Dword) (d : Int) : Prop :=
    ∀ y k u, total m'.root y k u = total m.root y k u + if y = x ∧ k = n ∧ u = t then d else 0
  (∀ (s : State) (cp qn : Nat), cp < 8 →
    let gives (i : Instr) (n res : Nat) : Prop := exec i s = .next { s with m := qDone s.m cp n res }
    let arg := (s.m.cp cp).qarg.toNat
    (qDone s.m cp qn 0).cp cp = { s.m.cp cp with qnum := qn, qres := 0 }
    ∧ (arg % 64 ≠ 0 ∨ target s.m arg = none → gives (.qcreate cp) 0 1)
    ∧ (∀ l m0 bs, arg % 64 = 0 → target s.m arg = some l → farRead s.m l 64 = (m0, bs) →
      let made := readQueue bs
      (made = none ∨ (∃ q, made = some q ∧ ctxTakesQueues s.m q.ctx = false) → exec (.qcreate cp) s = .next { s with m := qDone m0 cp 0 1 })
      ∧ ∀ q, made = some q → ctxTakesQueues s.m q.ctx = true →
        ((∀ n, n < 4096 → (aget s.m.queues n).isSome = true) → exec (.qcreate cp) s = .next { s with m := qDone m0 cp 0 2 })
        ∧ ∀ n, n < 4096 → aget s.m.queues n = none → (∀ k, k < n → (aget s.m.queues k).isSome = true) →
          (∀ m1, openQueue m0 q = .error m1 → exec (.qcreate cp) s = .next { s with m := qDone m1 cp 0 1 })
          ∧ ∀ m1 q1, openQueue m0 q = .ok (m1, q1) → exec (.qcreate cp) s = .next { s with m := qDone (m1.setQueue n q1) cp n 0 }
            ∧ q1 = { q with head := q1.head } ∧ q.st = .unmapped ∧ q.packets = [] ∧ q.hcause = 0
            ∧ ∃ m2, readTail m0 q = .ok (m2, q1.head))
    ∧ (∀ q, aget s.m.queues qn = some q → q.st = .halted →
        exec (.qresume cp qn) s = .next { s with m := retell (qDone s.m cp qn 0) qn { q with st := .unmapped, hcause := 0, slot := none, since := 0 } })
    ∧ ((∀ q, aget s.m.queues qn = some q → q.st ≠ .halted) → gives (.qresume cp qn) qn 5)
    ∧ ((∀ q, aget s.m.queues qn = some q → q.st = .draining) → gives (.qdestroy cp qn) qn 5)
    ∧ ∀ q, aget s.m.queues qn = some q → q.st ≠ .draining → Completes (.qdestroy cp qn) s fun t => (t.m.cp cp).qres = 0
      ∧ (q.packets = [] → aget t.m.queues qn = none) ∧ (∀ k, k ≠ qn → aget t.m.queues k = aget s.m.queues k)
      ∧ (q.packets ≠ [] → ∃ q1, aget t.m.queues qn = some q1 ∧ (q1 = { q with st := .draining, hcause := 0, slot := none, told := true }
          ∨ q1 = { q with st := .halted, hcause := 6, slot := none, told := true })))
  ∧ (∀ (s : State) (qn slot cycles : Nat) (q : Queue), aget s.m.queues qn = some q →
    let idle (k : Nat) : Prop := k < 256 ∧ ∀ kq ∈ s.m.queues, kq.2.slot ≠ some k
    let own (k : Nat) : Prop := k % 32 < 16 ∧ k % 32 / 4 = q.cls
    let pends (x : Queue) : Prop := pendingQueue s.m x = true
    let longer (x y : Queue) : Prop := x.since ≠ 0 ∧ (y.since = 0 ∨ x.since < y.since)
    let maps := pends q ∧ (∀ kq ∈ s.m.queues, pends kq.2 → q.cls < kq.2.cls ∨ (q.cls = kq.2.cls ∧ ¬ longer kq.2 q)) ∧ idle slot
      ∧ ((∃ k, idle k ∧ own k) → own slot) ∧ ((∀ k, idle k → ¬ own k) → (∃ k, idle k ∧ 16 ≤ k % 32) → 16 ≤ slot % 32)
    (maps → exec (.queueMap qn slot) s = .next { s with m := retell s.m qn { q with st := .mapped, slot := some slot, since := 0 } })
    ∧ (¬ maps → exec (.queueMap qn slot) s = .next s)
    ∧ (let parked := q.st = .mapped ∧ 4096 ≤ cycles ∧ ∃ m1 tail, readTail s.m q = .ok (m1, tail) ∧ tail % 2 ^ 64 = q.head % 2 ^ 64
       let leaves := (q.st = .mapped ∨ q.st = .blocked) ∧ (∃ kq ∈ s.m.queues, pends kq.2) ∧ (∀ k, ¬ idle k) ∧ (parked ∨ reclaimed s.m q = true)
       let q1 := { q with st := .unmapped, hcause := 0, slot := none, since := 0 }
       (leaves → exec (.queueIdleUnmap qn cycles) s = .next { s with m := retell s.m qn q1 })
       ∧ (¬ leaves → exec (.queueIdleUnmap qn cycles) s = .next s)))
  ∧ (∀ (s : State) (qn : Nat) (q : Queue) (c : Context) (m1 : Mach) (h : Header) (bs : List Byte), aget s.m.queues qn = some q →
    aget s.m.ctxs q.ctx = some c → q.st = .mapped → ctxServed s.m q.ctx = true → atHead s.m q (fun _ => true) = .packet m1 h bs →
    let pos := q.head % 2 ^ 64
    (∀ x ∈ q.packets, x.pos ≠ pos) →
    let units := if h.kind = 1 then 2 ^ q.szlog / 16 - q.head % (2 ^ q.szlog / 16) else h.len
    let p := newPacket q h bs
    let begins (i : Instr) (m : Mach) (x : Packet) : Prop :=
      exec i s = .next { s with m := retell m qn { q with head := (q.head + units) % 2 ^ 64, packets := q.packets ++ [x] } }
    let ends (i : Instr) (m : Mach) (held : Bool) (st : Nat) : Prop := begins i m { p with held := held, st := .done (BitVec.ofNat 64 st) }
    let stampOk := p.node < c.nodes.length ∧ stampValid p.stamp = true ∧ stampDepth p.stamp = c.nodes.getD p.node 0
    let justified := inputJustifies c p.node p.stamp = true
    let room := rootHasRoom m1 q.ctx p.node p.stamp = true
    let m2 := countRoot m1 q.ctx p.node p.stamp 1
    let starters : List (Nat × Instr) := [(0, .nopPacket qn pos), (1, .pad qn pos), (2, .launch qn pos), (3, .feed qn pos), (4, .walkPacket qn pos),
      (5, .waitPacket qn pos), (6, .signal qn pos), (7, .frontPacket qn pos), (8, .copyPacket qn pos), (9, .fencePacket qn pos)]
    (∀ k i, (k, i) ∈ starters → h.kind = k → ∃ t, exec i s = .next t ∧ (tailWatched s.m q = true → exec (.tailWake qn) s = .next t)
      ∧ ∀ cycles, tailWatched s.m q = false → 1024 ≤ cycles → exec (.tailPoll qn cycles) s = .next t)
    ∧ (∃ m0, atHead s.m q (fun _ => false) = .empty m0 ∧ ∀ k i, (k, i) ∈ starters → h.kind ≠ k → exec i s = .next { s with m := m0 })
    ∧ (h.kind = 0 → Completes (.nopPacket qn pos) s fun t => ∃ q1, aget t.m.queues qn = some q1 ∧ q1.head = (q.head + units) % 2 ^ 64 ∧ q1.packets = q.packets)
    ∧ (h.kind = 1 → exec (.pad qn pos) s = .next { s with m := retell (progress m1 q.ctx) qn { q with head := (q.head + units) % 2 ^ 64 } })
    ∧ (h.kind = 2 → let i : Instr := .launch qn pos
      (¬ stampOk → ends i m1 false 20)
      ∧ (stampOk → ∀ f, readVirtual q.core q.ctx 32 m1 (p.word 0) [] = .error f → ends i f.1 false (if p.word 0 % 256 ≠ 0 then 1 else 21))
      ∧ (stampOk → ∀ m3 rec, readVirtual q.core q.ctx 32 m1 (p.word 0) [] = .ok (m3, rec) →
        let r := LaunchRec.ofBytes rec
        let die := q.slot.getD 0 / 32
        let cause := launchCause m3 q.ctx die c (p.word 0) rec
        (cause ≠ 0 → ends i m3 false cause)
        ∧ (cause = 0 → rootHasRoom m3 q.ctx r.node r.stamp = false → exec i s = .next { s with m := m3 })
        ∧ (cause = 0 → rootHasRoom m3 q.ctx r.node r.stamp = true → Completes i s fun t =>
          (∃ k, aget t.m.kerns m3.nextId = some k ∧ k.ctx = q.ctx ∧ k.queue = qn ∧ k.pos = pos ∧ k.lrec = r ∧ k.st = .admitting ∧ k.nextTeam = 0
            ∧ k.killed = 0 ∧ k.nextItem = 0 ∧ k.closed = false ∧ (r.wqlog = 0 → k.wqBase = none)
            ∧ (r.wqlog ≠ 0 → ∃ b, k.wqBase = some b ∧ b / 2 ^ 24 = die ∧ chipReserved m3 q.ctx b (16 * 2 ^ r.wqlog) = true))
          ∧ (∃ q1, aget t.m.queues qn = some q1 ∧ q1.head = (q.head + units) % 2 ^ 64 ∧ q1.packets = q.packets ++ [{ p with ref := some m3.nextId }]
            ∧ q1.launches = (pos, m3.nextId) :: q.launches)
          ∧ (∃ c1, aget t.m.ctxs q.ctx = some c1 ∧ c1.st = .active) ∧ counted s.m t.m q.ctx r.node r.stamp 1 ∧ t.m.groups = s.m.groups)))
    ∧ (h.kind = 3 → let i : Instr := .feed qn pos
      let n := p.word 1 % 2 ^ 16
      (¬ stampOk → ends i m1 false 20)
      ∧ (stampOk → feedTarget m1 q p = none → ends i m1 false 19)
      ∧ ∀ kid k, stampOk → feedTarget m1 q p = some (kid, k) →
        (2 ^ k.lrec.wqlog < n → ends i m1 false 18)
        ∧ (n ≤ 2 ^ k.lrec.wqlog → 2 ^ k.lrec.wqlog < k.wqCount + n ∨ feedAhead q p = true → begins i m1 { p with st := .waiting })
        ∧ (k.wqCount + n ≤ 2 ^ k.lrec.wqlog → feedAhead q p = false → 2 + 2 * n ≤ p.body.length → ∃ m3, ends i m3 false 0
          ∧ aget m3.kerns kid = some { k with wqCount := k.wqCount + n, closed := (p.word 1).testBit 16 }
          ∧ ∀ b r j, k.wqBase = some b → r < n → j < 16 →
            readByte m3 (.chip (b + 16 * ((k.wqHead + k.wqCount + r) % 2 ^ k.lrec.wqlog) + j))
              = BitVec.ofNat 8 (p.word (2 + 2 * r + j / 8) / 2 ^ (8 * (j % 8)))))
    ∧ (h.kind = 4 → let i : Instr := .walkPacket qn pos
      let eng := p.word 2 % 256
      (¬ stampOk → ends i m1 false 20)
      ∧ (stampOk → eng = 0 ∨ 128 < eng ∨ walkKernel m1 q p = none → ends i m1 false 16)
      ∧ ∀ kid k, stampOk → 0 < eng → eng ≤ 128 → walkKernel m1 q p = some (kid, k) →
        (∀ f, readVirtual q.core q.ctx 32 m1 (p.word 0) [] = .error f → ends i f.1 false (if p.word 0 % 256 ≠ 0 then 16 else 21))
        ∧ ∀ m3 rec, readVirtual q.core q.ctx 32 m1 (p.word 0) [] = .ok (m3, rec) →
          let r := WalkRec.ofBytes rec
          let e := eng - 1
          let cause := walkCause m3 c k (p.word 0) e rec
          (cause ≠ 0 → ends i m3 false cause)
          ∧ (cause = 0 → rootHasRoom m3 q.ctx r.node r.stamp = true → (m3.engine e).intake.length < 32 → Completes i s fun t =>
            let id := e * 2 ^ 25 + (m3.engine e).posted % 2 ^ 25
            (∃ w, aget t.m.walks id = some w ∧ w.ctx = q.ctx ∧ w.kern = kid ∧ w.poster = none ∧ w.addr.toNat = p.word 0 ∧ w.wrec = r ∧ w.eng = e ∧ w.st = .posted)
            ∧ (t.m.engine e).intake = (m3.engine e).intake ++ [id] ∧ (t.m.cluster e).deltas = [] ∧ (t.m.die (e / 16)).deltas = []
            ∧ (∀ y k u, total t.m.root y k u = total s.m.root y k u + total (s.m.die (e / 16)).deltas y k u
                + total (s.m.cluster e).deltas y k u + if y = q.ctx ∧ k = r.node ∧ u = r.stamp then 1 else 0)
            ∧ ∃ q1, aget t.m.queues qn = some q1 ∧ q1.packets = q.packets ++ [{ p with st := .running, ref := some id }]))
    ∧ (h.kind = 5 → let i : Instr := .waitPacket qn pos
      let valid := (p.word 0 % 4 = 0 ∧ p.word 0 / 2 ^ 8 % 2 ^ 3 < 6 ∧ p.word 1 % 8 = 0) ∨ p.word 0 % 4 = 1
      (¬ stampOk → ends i m1 false 20) ∧ (stampOk → ¬ valid → ends i m1 false 24)
      ∧ (stampOk → valid →
        let q1 := { q with head := (q.head + units) % 2 ^ 64, packets := q.packets ++ [{ p with st := .waiting }], st := .blocked }
        exec i s = .next { s with m := retell m1 qn q1 }))
    ∧ (h.kind = 6 → let i : Instr := .signal qn pos
      let add := p.word 2 = 1
      (¬ (stampOk ∧ justified) → ends i m1 false 20)
      ∧ (stampOk → justified → room →
        (p.word 0 % 8 ≠ 0 ∨ 1 < p.word 2 → ends i m2 true 24)
        ∧ (p.word 0 % 8 = 0 → p.word 2 ≤ 1 →
          (∀ f, locateFor m2 q.core q.ctx (p.word 0) (if add then .atomic else .write) = .error f → ends i f.1 true 21)
          ∧ ∀ m3 l, locateFor m2 q.core q.ctx (p.word 0) (if add then .atomic else .write) = .ok (m3, l) → plainAt m3 l 8 →
            let old := numberOf ((List.range 8).map fun k => readByte m3 (l.plus k))
            ∃ m4, ends i m4 true 0 ∧ StoredAt m3 m4 l (bytesOf 8 (if add then old + p.word 1 else p.word 1)))))
    ∧ (h.kind = 7 → let i : Instr := .frontPacket qn pos
      let regress := ∃ n, n < c.nodes.length ∧ (summaryIn c.sums p.node n p.stamp).ltF (c.floorAt n) = true
      (¬ stampOk → ends i m1 false 20)
      ∧ (stampOk → p.word 0 % 2 = 1 → ends i (m1.setCtx q.ctx { c with input := none }) false 0)
      ∧ (stampOk → p.word 0 % 2 = 0 → c.input = none ∨ regress → ends i m1 false 23)
      ∧ (stampOk → p.word 0 % 2 = 0 → c.input ≠ none → ¬ regress → ends i (m1.setCtx q.ctx { c with input := some (p.node, p.stamp) }) false 0))
    ∧ (h.kind = 8 → let i : Instr := .copyPacket qn pos
      let n := p.word 2 % 2 ^ 24
      let valid := p.word 0 % 4 = 0 ∧ p.word 1 % 4 = 0 ∧ n % 4 = 0
      (¬ (stampOk ∧ justified) → ends i m1 false 20)
      ∧ (stampOk → justified → room → (¬ valid → ends i m2 true 24)
        ∧ (valid → let words := (List.range (n / 4)).flatMap fun j => [some (p.word 0 + 4 * j), some (p.word 1 + 4 * j)]
          let places := copyPlaces q.core q.ctx (n / 4) (p.word 0) (p.word 1) m2 []
          (∀ m3, places = .error m3 → ends i m3 true 21 ∧ ∃ j, LookedUpAll q.core q.ctx (words.take j) m2 m3)
          ∧ ∀ m3 ls, places = .ok (m3, ls) → ls.length = n / 4 ∧ LookedUpAll q.core q.ctx words m2 m3
            ∧ ∃ (m4 : Mach) (ms : List Mach), ends i m4 true 0 ∧ ms.length = n / 4 + 1 ∧ ms[0]? = some m3 ∧ ms[n / 4]? = some m4
              ∧ ∀ (j : Nat) (a b : Mach) (l k : Loc), ms[j]? = some a → ms[j + 1]? = some b → ls[j]? = some (l, k) → plainAt a l 4 → plainAt a k 4 →
                  StoredAt a b k (readBytes a l 4))))
    ∧ (h.kind = 9 → (¬ stampOk → ends (.fencePacket qn pos) m1 false 20) ∧ (stampOk → begins (.fencePacket qn pos) m1 p)))
  ∧ (∀ (s : State) (qn : Nat) (q : Queue) (c : Context), aget s.m.queues qn = some q → aget s.m.ctxs q.ctx = some c →
    let looks : List Instr := [.tailWake qn]
    let head := atHead s.m q fun _ => true
    let waiting := ∃ x ∈ q.packets, x.kind = 5 ∧ x.st = .waiting
    q.st = .mapped → ctxServed s.m q.ctx = true → tailWatched s.m q = true →
    (waiting → ∀ i ∈ looks, exec i s = .next s)
    ∧ (∀ m1, ¬ waiting → head = .empty m1 → ∀ i ∈ looks, exec i s = .next { s with m := m1 })
    ∧ (∀ m1 cause, ¬ waiting → head = .halt m1 cause → ∀ i ∈ looks,
        exec i s = .next { s with m := retell m1 qn { q with st := .halted, hcause := cause, slot := none, told := false } })
    ∧ (∀ m1 tail, readTail s.m q = .ok (m1, tail) → tail < 2 ^ 64 → q.head < 2 ^ 64 →
        let ahead := (tail + 2 ^ 64 - q.head) % 2 ^ 64
        (ahead = 0 → head = .empty m1) ∧ (2 ^ q.szlog / 16 < ahead → q.szlog ≤ 24 → head = .halt m1 5))
    ∧ ∀ m1, readTail s.m q = .error m1 → head = .halt m1 6)
  ∧ (∀ (s : State) (qn pos : Nat) (q : Queue) (p : Packet), aget s.m.queues qn = some q → q.packet pos = some p → p.st = .waiting → ctxServed s.m q.ctx = true →
    let put (x : Packet) : List Packet := q.packets.map fun y => if y.pos = x.pos then x else y
    (p.kind = 3 → ∀ m1 r, feedNow s.m q p = (m1, r) → exec (.feed qn pos) s = .next { s with m := match r with
        | some st => m1.setQueue qn { q with packets := put { p with st := .done (statusWord st 0) } }
        | none => m1 })
    ∧ (p.kind = 4 → ∀ kid, p.ref = some kid → let e := p.word 2 % 256 - 1
      (32 ≤ (s.m.engine e).intake.length → exec (.walkPacket qn pos) s = .next s)
      ∧ ((s.m.engine e).intake.length < 32 → Completes (.walkPacket qn pos) s fun t =>
        let id := e * 2 ^ 25 + (s.m.engine e).posted % 2 ^ 25
        (t.m.engine e).intake = (s.m.engine e).intake ++ [id] ∧ (∃ w, aget t.m.walks id = some w ∧ w.kern = kid ∧ w.ctx = q.ctx ∧ w.st = .posted)
        ∧ ∃ q1, aget t.m.queues qn = some q1 ∧ q1 = { q with packets := put { p with st := .running, ref := some id } }))
    ∧ ∀ c, p.kind = 5 → (q.st = .mapped ∨ q.st = .blocked ∨ q.st = .halted ∨ q.st = .draining) → aget s.m.ctxs q.ctx = some c →
      let i : Instr := .waitPacketSatisfied qn pos
      let goesOn (m : Mach) (st : Nat) : Prop :=
        let q1 := { q with packets := put { p with st := .done (BitVec.ofNat 64 st) }, st := if q.st = .blocked then .mapped else q.st }
        exec i s = exec (.packetComplete qn pos) { s with m := retell m qn q1 }
      let waits (m : Mach) : Prop :=
        exec i s = .next { s with m := if q.st = .mapped then retell m qn { q with st := .blocked } else m }
      (p.word 0 % 4 = 1 → ((c.floorAt p.node).above p.stamp = true → goesOn s.m 0) ∧ ((c.floorAt p.node).above p.stamp = false → waits s.m))
      ∧ (p.word 0 % 4 ≠ 1 → (∀ f, readVirtual q.core q.ctx 1 s.m (p.word 1) [] = .error f → goesOn f.1 21)
        ∧ ∀ m1 bs, readVirtual q.core q.ctx 1 s.m (p.word 1) [] = .ok (m1, bs) →
          let holds := waitCond (p.word 0 / 2 ^ 8 % 2 ^ 3) (BitVec.ofNat 64 (numberOf bs)) (BitVec.ofNat 64 (p.word 2))
          (holds = true → goesOn m1 0) ∧ (holds = false → waits m1)))
  ∧ ∀ (s : State) (qn pos : Nat) (q : Queue) (p : Packet) (st : Dword), aget s.m.queues qn = some q → q.packet pos = some p →
    let i : Instr := .packetComplete qn pos
    (p.st = .done st ∨ (p.kind = 9 ∧ (∀ x, p.st ≠ .done x) ∧ st = 0 ∧ q.packets.head?.map Packet.pos = some pos)) → ctxCompletes s.m q.ctx = true →
    q.packets.Pairwise (fun a b => a.pos ≠ b.pos) → Completes i s fun t =>
      (∀ q1, aget t.m.queues qn = some q1 → q1 = { q with packets := q.packets.filter fun x => x.pos != pos })
      ∧ (aget t.m.queues qn = none → q.st = .draining)
      ∧ (p.held = true → counted s.m t.m q.ctx p.node p.stamp (-1)) ∧ (p.held = false → t.m.root = s.m.root)
      ∧ (∀ c, aget s.m.ctxs q.ctx = some c → ∃ c1, aget t.m.ctxs q.ctx = some c1 ∧ c1.npCount = 0 ∧ c1.st = c.st)
      ∧ (p.cpl = none → t.m.mem = s.m.mem) ∧ ∀ cpa cval m1 m2 l1 l2, p.cpl = some (cpa, cval) →
        locateFor (s.m.setQueue qn { q with packets := q.packets.filter fun x => x.pos != pos }) q.core q.ctx (cpa + 8).toNat .write = .ok (m1, l1) →
        locateFor (farWrite m1 l1 (bytesOf 8 st.toNat)) q.core q.ctx cpa.toNat .write = .ok (m2, l2) → (∀ port far, l2 ≠ .ext port far) →
        (∀ k, k < 8 → readByte t.m (l2.plus k) = BitVec.ofNat 8 (cval.toNat / 2 ^ (8 * k)))
        ∧ ∀ k, k < 8 → (∀ j, j < 8 → (l1.plus k).key ≠ (l2.plus j).key) → readByte m2 (l1.plus k) = BitVec.ofNat 8 (st.toNat / 2 ^ (8 * k)) →
          readByte t.m (l1.plus k) = BitVec.ofNat 8 (st.toNat / 2 ^ (8 * k))

/-! Ports and the control window (22_link.md). -/

/-- R391, R393, R394, R408 to R411, R413 to R415 and R417. -/
def Obligations.LinksAndTraffic : Prop :=
  let set (m : Mach) (p : Nat) (x : Port) : Mach := { m with ports := m.ports.setIfInBounds p x }
  let onPort (f : Fabric) (p : Nat) : Nat := match f with
    | .pending ws _ => ((ws.filter fun w => w.1 = p).map Prod.snd).sum
    | _ => 0
  let endedOn (f : Fabric) (p : Nat) : Fabric := match f with
    | .pending ws failed =>
      let rest := ws.filter fun w => w.1 ≠ p
      if rest = ws then f else if rest = [] then .done (p :: failed) else .pending rest (p :: failed)
    | _ => f
  let least (n : Nat) : Nat := min n (2 ^ 16 - 1)
  let unacked (p : Nat) (x : Pst) : Prop := x.port = p ∧ x.lost = false
  let due (m : Mach) (p key : Nat) : Prop := ∃ id x b k, aget m.psts id = some x ∧ unacked p x ∧ b ∈ x.left ∧ k < b.2.length ∧ key = (Loc.ext p (b.1 + k)).key
  let spent (m : Mach) (ctx p dir : Nat) : Prop := ∃ b, aget m.flitBudget ctx = some b ∧ b ≤ (aget (m.port p).flits (2 * ctx + dir)).getD 0
  let mayLand (m : Mach) (x : Pst) : Prop := x.lost = false ∧ (∀ e ∈ x.after, e.performed m = true) ∧ ¬ spent m x.ctx x.port 0
  let trafficEnded (m m1 : Mach) (p : Nat) : Prop :=
    m1 = { m with groups := m1.groups, ports := m1.ports, psts := m1.psts, mem := m1.mem, indet := m1.indet, dies := m1.dies, free := m1.free }
    ∧ (∀ gid g, m.grp? gid = some g → m1.grp? gid = some { g with fabric := endedOn g.fabric p })
    ∧ (∀ q, q ≠ p → m1.port q = m.port q) ∧ m1.port p = { m.port p with tmo := (m1.port p).tmo, lost := (m1.port p).lost, flits := (m1.port p).flits }
    ∧ least (m1.port p).tmo = least ((m.port p).tmo + (m.groups.map fun kg => onPort kg.2.fabric p).sum
        + if (m.port p).inUse then (m.psts.filter fun kx => kx.2.port = p && !kx.2.lost).length else 0)
    ∧ least (m1.port p).lost = least ((m.port p).lost + (m.psts.filter fun kx => kx.2.port = p && !kx.2.lost).length)
    ∧ (∀ id x, aget m.psts id = some x → (¬ unacked p x → aget m1.psts id = some x)
        ∧ (unacked p x → aget m1.psts id = some { x with lost := true, left := [] }))
    ∧ (∀ d, m1.die d = { m.die d with cxl := (m.die d).cxl.filter fun l => l / 2 ^ 48 ≠ p }) ∧ SameOutside m m1 (due m p)
  let pstEnded (m m1 : Mach) (id : Nat) (x : Pst) : Prop :=
    m1 = { m with ports := m1.ports, psts := m1.psts, mem := m1.mem, indet := m1.indet, free := m1.free }
    ∧ aget m1.psts id = some { x with lost := true, left := [] }
    ∧ (∀ k y, k ≠ id → aget m.psts k = some y → ∃ left, aget m1.psts k = some { y with left := left })
    ∧ (∀ q, q ≠ x.port → m1.port q = m.port q)
    ∧ m1.port x.port = { m.port x.port with tmo := least ((m.port x.port).tmo + 1), flits := (m1.port x.port).flits } ∧ SameOutside m m1 (due m x.port)
  (∀ (s : State) (p : Nat), p < 18 → amapWf s.m.groups = true → amapWf s.m.psts = true →
    let x := s.m.port p
    let becomes (i : Instr) (y : Port) : Prop := exec i s = .next { s with m := set s.m p y }
    let same (i : Instr) : Prop := exec i s = .next s
    let serves := x.st = .up ∨ x.st = .degraded
    let cxl := ((List.range 18).filter fun q => q != p && (s.m.port q).inUse && (s.m.port q).st != .down).length
    let ends (i : Instr) (m0 : Mach) (f : Port → Port) : Prop :=
      ∃ m1, trafficEnded m0 m1 p ∧ exec i s = .next { s with m := set m1 p (f (m1.port p)) }
    let told := { s.m with fjarul := FReport.portFenced p :: s.m.fjarul }
    (∀ pers, (x.st ≠ .down → becomes (.linkEnable p pers) { x with pers := pers, en := true })
      ∧ (x.st = .down → pers = true → 4 ≤ cxl → becomes (.linkEnable p pers) { x with pers := true, en := true, cause := 2 })
      ∧ (x.st = .down → (pers = false ∨ cxl < 4) → becomes (.linkEnable p pers) { x with pers := pers, en := true, st := .training, inUse := pers }))
    ∧ (x.st = .down → becomes (.linkDisable p) { x with en := false })
    ∧ (x.st = .training → becomes (.linkDisable p) { x with en := false, st := .down, cause := 5 })
    ∧ (x.st = .fenced → becomes (.linkDisable p) { x with en := false, st := .down })
    ∧ (serves → (∀ id y, aget s.m.psts id = some y → ¬ unacked p y) →
        ends (.linkDisable p) s.m fun y => { y with en := false, st := .down, cause := 5 })
    ∧ (serves → (∃ id y, aget s.m.psts id = some y ∧ unacked p y) →
        ends (.linkDisable p) told fun y => { y with en := false, st := .down, cause := 5 })
    ∧ (∀ lanes, (x.st ≠ .training ∨ lanes < 4 ∨ 8 < lanes → same (.linkTrained p lanes))
      ∧ (x.st = .training → lanes = 8 → becomes (.linkTrained p lanes) { x with st := .up, w4 := false })
      ∧ (x.st = .training → 4 ≤ lanes → lanes < 8 → becomes (.linkTrained p lanes) { x with st := .degraded, w4 := true }))
    ∧ (∀ cycles, (x.st ≠ .training ∨ cycles < 2 ^ 24 → same (.trainingTimeout p cycles))
      ∧ (x.st = .training → 2 ^ 24 ≤ cycles → becomes (.trainingTimeout p cycles) { x with st := .down, cause := 1 }))
    ∧ (∀ good n, (¬ serves ∨ good < 4 ∨ 8 < good → same (.laneErrors p good n))
      ∧ (serves → good = 8 → becomes (.laneErrors p good n) { x with replay := least (x.replay + n) })
      ∧ (serves → 4 ≤ good → good < 8 → becomes (.laneErrors p good n) { x with st := .degraded, w4 := true, replay := least (x.replay + n) }))
    ∧ ∀ cause, (¬ serves ∨ (cause ≠ 3 ∧ cause ≠ 4 ∧ cause ≠ 6) → same (.linkFence p cause))
      ∧ (serves → cause = 3 ∨ cause = 4 ∨ cause = 6 → ∃ m1, trafficEnded (set told p { x with st := .fenced, cause := cause, replay := if cause = 3 then least (x.replay + 8) else x.replay }) m1 p
          ∧ exec (.linkFence p cause) s = .next { s with m := m1 }))
  ∧ (∀ (s : State) (gid : Nat) (g : Group), s.m.grp? gid = some g →
      (∀ cycles, cycles < 2 ^ 24 → exec (.nonpostedTimeout gid cycles) s = .next s)
      ∧ (let late (id : Nat) (x : Pst) : Prop := aget s.m.psts id = some x ∧ x.group = gid ∧ x.lost = false ∧ (s.m.port x.port).inUse = true
        let may (w : Nat × Nat) : Prop := ¬ spent s.m g.ctx w.1 0 ∧ ¬ spent s.m g.ctx w.1 1
          ∧ ∀ id x, aget s.m.psts id = some x → x.group = gid → x.port = w.1 → x.lost = false → x.left ≠ [] → mayLand s.m x
        (g.fabric.isOut = false → (∀ id x, ¬ late id x) → ∀ cycles, exec (.nonpostedTimeout gid cycles) s = .next s)
        ∧ (∀ ws failed, g.fabric = .pending ws failed → (∀ w ∈ ws, w.1 < 18) →
          ((∀ w ∈ ws, ¬ may w) → exec (.nonPostedCompletion gid) s = .next s)
          ∧ ((∃ w ∈ ws, may w) → ∃ k w y, ws[k]? = some w ∧ may w ∧ y = { s.m.port w.1 with flits := y.flits }
            ∧ (∀ d, d < 2 → aget y.flits (2 * g.ctx + d) = some ((aget (s.m.port w.1).flits (2 * g.ctx + d)).getD 0 + w.2))
            ∧ exec (.nonPostedCompletion gid) s = .next { s with m := { set (s.m.setGrp gid
                { g with fabric := if ws.length = 1 then .done failed else .pending (ws.eraseIdx k) failed }) w.1 y with free := s.m.free + 1 } }))
        ∧ ∀ cycles, 2 ^ 24 ≤ cycles → (∀ ws failed, g.fabric = .pending ws failed → ∀ w ∈ ws, w.1 < 18) →
          (∃ w ws failed, g.fabric = .pending ws failed ∧ w ∈ ws) ∨ (∃ id x, late id x) →
          (∃ w ws failed n, g.fabric = .pending ws failed ∧ w ∈ ws ∧ least n = least ((s.m.port w.1).tmo + onPort g.fabric w.1)
            ∧ exec (.nonpostedTimeout gid cycles) s = .next { s with m :=
              { set (s.m.setGrp gid { g with fabric := endedOn g.fabric w.1 }) w.1 { s.m.port w.1 with tmo := n } with free := s.m.free + 1 } })
          ∨ ∃ id x m1, late id x ∧ pstEnded s.m m1 id x ∧ exec (.nonpostedTimeout gid cycles) s = .next { s with m := m1 }))
  ∧ (∀ (s : State) (id : Nat) (x : Pst), aget s.m.psts id = some x → amapWf s.m.psts = true → x.port < 18 →
      (x.lost = true ∨ (x.left ≠ [] ∧ ¬ mayLand s.m x) → exec (.pstAck id) s = .next s)
      ∧ (x.lost = false → x.left = [] ∨ mayLand s.m x → (∀ b ∈ x.left, x.far ≤ b.1 ∧ b.1 + b.2.length ≤ x.far + x.size ∧ b.2 ≠ []) →
        x.left.Pairwise (fun a b => a.1 + a.2.length ≤ b.1 ∨ b.1 + b.2.length ≤ a.1) → ∃ m1 m2,
        m1 = { s.m with psts := m1.psts, ports := m1.ports, mem := m1.mem, indet := m1.indet } ∧ aget m1.psts id = none
        ∧ (∀ q, m1.port q = { s.m.port q with flits := (m1.port q).flits })
        ∧ (∀ k y, k ≠ id → aget s.m.psts k = some y → ∃ left, aget m1.psts k = some { y with left := left })
        ∧ (∀ b ∈ x.left, ∀ k v, b.2[k]? = some v → readByte m1 (.ext x.port (b.1 + k)) = v)
        ∧ (let others := ∃ k y, k ≠ id ∧ aget s.m.psts k = some y ∧ y.batch = x.batch
           (others → m2 = m1)
           ∧ (¬ others → m2 = if (s.m.cluster x.unit).fenced then countRoot m1 x.ctx x.node x.stamp (-1)
                else countAt m1 x.unit x.ctx x.node x.stamp (-1)))
        ∧ exec (.pstAck id) s = .next { s with m := settleKernel m2 x.kern }))
  ∧ (∀ (s : State) (p : Nat) (acc : Incoming),
      let serves := (s.m.port p).st = .up ∨ (s.m.port p).st = .degraded
      let answered (r : Reply) (pa : Nat) (bs : List Byte) : Prop := Completes (.incomingAccess p acc) s fun t =>
        t = { s with m := { s.m with mem := t.m.mem, indet := t.m.indet, touched := t.m.touched, ctxs := t.m.ctxs, free := t.m.free,
                                     replies := r :: s.m.replies } } ∧ StoredAt s.m t.m (.dev pa) bs
      let same := exec (.incomingAccess p acc) s = .next s
      let bytesAt (pa n : Nat) : List Byte := (List.range n).map fun k => readByte s.m (.dev (pa + k))
      match acc with
      | .read pa n => (serves → pa + n ≤ devTop → exec (.incomingAccess p acc) s
            = .next { s with m := { s.m with replies := .data (bytesAt pa n) :: s.m.replies } }) ∧ (¬ serves ∨ devTop < pa + n → same)
      | .write pa bs => (serves → pa + bs.length ≤ devTop → answered (.ack 0) pa bs) ∧ (¬ serves ∨ devTop < pa + bs.length → same)
      | .posted pa bs tag => (serves → pa + bs.length ≤ devTop → answered (.ack tag) pa bs) ∧ (¬ serves ∨ devTop < pa + bs.length → same)
      | .atomicAdd pa v => (serves → pa % 8 = 0 → pa + 8 ≤ devTop →
            answered (.data (bytesAt pa 8)) pa (bytesOf 8 (numberOf (bytesAt pa 8) + v.toNat)))
          ∧ (¬ serves ∨ pa % 8 ≠ 0 ∨ devTop < pa + 8 → same)
      | .atomic pa op val cmp =>
        let does := farAtomic op (readNat s.m (.dev pa) 8) val.toNat cmp.toNat
        (does = none → same) ∧ ∀ size returns new, does = some (size, returns, new) →
          let r : Reply := if returns then .data (bytesAt pa size) else .ack 0
          (serves → pa % size = 0 → pa + size ≤ devTop → (∀ x, new = some x → answered r pa (bytesOf size x))
            ∧ (new = none → exec (.incomingAccess p acc) s = .next { s with m := { s.m with replies := r :: s.m.replies } }))
          ∧ (¬ serves ∨ pa % size ≠ 0 ∨ devTop < pa + size → same)
      | .behind far bs =>
        (p < 18 → far + bs.length ≤ 2 ^ 52 → Completes (.incomingAccess p acc) s fun t =>
          t = { s with m := { s.m with mem := t.m.mem, indet := t.m.indet, dies := t.m.dies } } ∧ StoredAt s.m t.m (.ext p far) bs
          ∧ ∀ d, t.m.die d = { s.m.die d with cxl := (t.m.die d).cxl }
            ∧ ∀ l, l ∈ (t.m.die d).cxl ↔ l ∈ (s.m.die d).cxl ∧ ¬ (l / 2 ^ 48 = p ∧ l ∈ cxlLines p far bs.length))
        ∧ (18 ≤ p ∨ 2 ^ 52 < far + bs.length → same)
      | .window off n =>
        let gives (v : Nat) : Prop := exec (.incomingAccess p acc) s = .next { s with m := { s.m with replies := .word (BitVec.ofNat 64 v) :: s.m.replies } }
        let cp := s.m.cp (off / 0x1000)
        let block (r : Nat) : Prop := off < 0x8000 ∧ off % 0x1000 = r
        (s.mg.boot ≠ .ready ∨ n ≠ 8 ∨ off % 8 ≠ 0 ∨ 0x10000 ≤ off → gives 0)
        ∧ (s.mg.boot = .ready → n = 8 → off % 8 = 0 → off < 0x10000 →
          (block 0 → gives (cp.cxres % 256 + cp.cxctx % 4096 * 2 ^ 16 + ctxCode s.m cp.cxctx * 2 ^ 32
              + ((aget s.m.ctxs cp.cxctx).map Context.rqIndex).getD 0 % 2 ^ 16 * 2 ^ 48))
          ∧ (block 0x008 → gives cp.cxarg.toNat) ∧ (block 0x010 → gives cp.trroot.toNat) ∧ (block 0x018 → gives cp.trinva.toNat)
          ∧ (block 0x020 → gives (if s.m.busy.isSome then 2 ^ 63 else 0)) ∧ (block 0x030 → gives cp.qarg.toNat)
          ∧ (block 0x028 → (aget s.m.queues cp.qnum = none → gives (cp.qres % 256 + cp.qnum % 4096 * 2 ^ 16))
            ∧ ∀ q, aget s.m.queues cp.qnum = some q → gives (cp.qres % 256 + cp.qnum % 4096 * 2 ^ 16 + q.st.code * 2 ^ 32
                + (if q.st = .halted then q.hcause else 0) * 2 ^ 40))
          ∧ (∀ k, k < 18 → let y := s.m.port k
            (off = 0x8000 + 16 * k → gives ((if y.en then 1 else 0) + (if y.pers then 2 else 0)))
            ∧ (off = 0x8008 + 16 * k → y.cause < 16 → y.replay < 2 ^ 16 → y.tmo < 2 ^ 16 → y.lost < 2 ^ 16 →
              gives (y.st.code + (if y.w4 then 2 ^ 3 else 0) + (if y.inUse then 2 ^ 4 else 0) + y.cause * 2 ^ 8 + y.replay * 2 ^ 16
                + y.tmo * 2 ^ 32 + y.lost * 2 ^ 48)))
          ∧ (∀ r v, s.m.routes[r]? = some v → off = 0x9000 + 8 * r → gives v.toNat)
          ∧ (off < 0x8000 → 0x038 ≤ off % 0x1000 → gives 0)
          ∧ ((0x8120 ≤ off ∧ off < 0x9000) ∨ 0x9200 ≤ off → gives 0)))
  ∧ (∀ (ty : BitVec 5) (t : Ty) (old val cmp : Nat), Ty.ofCode ty = some t →
      (t ∈ [.i32, .n32, .i64, .n64] → farAtomic (.atom ty 0) old val cmp = some (t.bits / 8, true, some ((old + val) % 2 ^ t.bits)))
      ∧ (t ∈ [.x32, .x64] → farAtomic (.cas ty) old val cmp
          = some (t.bits / 8, true, if old % 2 ^ t.bits = cmp % 2 ^ t.bits then some (val % 2 ^ t.bits) else none)))
  ∧ ∀ (s : State) (off n : Nat) (v : Dword),
      let i : Instr := .registerWrite off n v
      let acts (j : Instr) : Prop := exec i s = exec j s
      let same := exec i s = .next s
      let k := off / 0x1000
      let block (r : Nat) : Prop := off < 0x8000 ∧ off % 0x1000 = r
      let ctx := v.toNat / 2 ^ 16 % 2 ^ 12
      let cpIs (x : CmdProc) : Prop := exec i s = .next { s with m := { s.m with cps := s.m.cps.setIfInBounds k x } }
      (s.mg.boot ≠ .ready ∨ n ≠ 8 ∨ off % 8 ≠ 0 ∨ 0x10000 ≤ off → same)
      ∧ (s.mg.boot = .ready → n = 8 → off % 8 = 0 → off < 0x10000 →
        (block 0 → (v.toNat % 256 = 1 → acts (.create k)) ∧ (v.toNat % 256 = 2 → acts (.quota k ctx)) ∧ (v.toNat % 256 = 3 → acts (.suspend k ctx))
          ∧ (v.toNat % 256 = 4 → acts (.restore k ctx)) ∧ (v.toNat % 256 = 6 → acts (.continueCtx k ctx)) ∧ (v.toNat % 256 = 7 → acts (.answer k ctx))
          ∧ (v.toNat % 256 = 5 → (∀ c, aget s.m.ctxs ctx = some c → c.vacating = none) → acts (.preempt k ctx))
          ∧ (v.toNat % 256 = 5 → ∀ c, aget s.m.ctxs ctx = some c → c.vacating ≠ none →
              let c1 : Context := { c with waits := c.waits ++ [{ cp := k, code := 5, arg := (s.m.cp k).cxarg }] }
              exec i s = .next { s with m := s.m.setCtx ctx c1 })
          ∧ (v.toNat % 256 = 8 → acts (.destroy k ctx))
          ∧ (v.toNat % 256 = 0 ∨ 9 ≤ v.toNat % 256 → exec i s = .next { s with m := cxDone s.m k ctx 9 }))
        ∧ (block 0x008 → cpIs { s.m.cp k with cxarg := v }) ∧ (block 0x010 → acts (.trrootWrite k v))
        ∧ (block 0x018 → cpIs { s.m.cp k with trinva := BitVec.ofNat 64 (v.toNat / 2 ^ 12 % 2 ^ 45 * 2 ^ 12) })
        ∧ (block 0x020 → (v.toNat % 4 = 0 → same) ∧ (v.toNat % 4 = 1 → acts (.invalidateAddress k ctx))
          ∧ (v.toNat % 4 = 2 → acts (.invalidateContext k ctx)) ∧ (v.toNat % 4 = 3 → acts (.invalidateAll k)))
        ∧ (block 0x028 → (v.toNat % 256 = 1 → acts (.qcreate k)) ∧ (v.toNat % 256 = 2 → acts (.qresume k ctx)) ∧ (v.toNat % 256 = 3 → acts (.qdestroy k ctx))
          ∧ (v.toNat % 256 = 0 ∨ 4 ≤ v.toNat % 256 → exec i s = .next { s with m := qDone s.m k ctx 9 }))
        ∧ (block 0x030 → cpIs { s.m.cp k with qarg := v })
        ∧ (∀ p, p < 18 → let y := s.m.port p
          (off = 0x8000 + 16 * p → v.getLsbD 0 = true → acts (.linkEnable p (v.getLsbD 1)))
          ∧ (off = 0x8000 + 16 * p → v.getLsbD 0 = false →
              exec i s = exec (.linkDisable p) { s with m := set s.m p { y with pers := v.getLsbD 1 } })
          ∧ (off = 0x8008 + 16 * p → y.replay < 2 ^ 16 → y.tmo < 2 ^ 16 → y.lost < 2 ^ 16 → ∃ a b c,
              exec i s = .next { s with m := set s.m p { y with replay := a, tmo := b, lost := c } }
              ∧ ∀ j, j < 16 → a.testBit j = (y.replay.testBit j && !v.getLsbD (16 + j)) ∧ b.testBit j = (y.tmo.testBit j && !v.getLsbD (32 + j))
                ∧ c.testBit j = (y.lost.testBit j && !v.getLsbD (48 + j))))
        ∧ (∀ r, r < 64 → off = 0x9000 + 8 * r → ∃ w : Dword, exec i s = .next { s with m := { s.m with routes := s.m.routes.setIfInBounds r w } }
            ∧ ∀ j, w.getLsbD j = (v.getLsbD j && (j == 63 || (decide (16 ≤ j) && decide (j ≤ 22)) || decide (j ≤ 4))))
        ∧ (off < 0x8000 → 0x038 ≤ off % 0x1000 → same)
        ∧ ((0x8120 ≤ off ∧ off < 0x9000) ∨ 0x9200 ≤ off → same))

/-! Reset, firmware, Fjarul, power, counters and the in-field test (15_region.md, 24_device.md). -/

/-- R311, R346, R347 and R422 to R431. -/
def Obligations.Management : Prop :=
  let good (f : Firmware) : Prop := Config.rsaVerifies f.digest f.rsa = true ∧ Config.slhVerifies f.digest f.slh = true
    ∧ Config.minVersion.toNat ≤ f.version.toNat
  let life (l : LifeCycle) : Nat := match l with | .blank => 0 | .provisioned => 1 | .deployed => 2 | .returned => 3
  let wiped (s t : State) : Prop :=
    (∀ l, l.key < 2 ^ 60 → readByte t.m l = 0)
    ∧ (∀ p far, p < 18 → far < 2 ^ 52 → (∀ kx ∈ s.m.psts, kx.2.port = p → kx.2.lost = true ∨ ∀ b ∈ kx.2.left, far < b.1 ∨ b.1 + b.2.length ≤ far) →
        (∀ kx ∈ s.m.psts, kx.2.port < 18 ∧ ∀ b ∈ kx.2.left, b.1 + b.2.length ≤ 2 ^ 52) →
        (∀ d ∈ s.m.indet, 2 ^ 60 ≤ d.lo ∨ d.hi ≤ 2 ^ 60) → readByte t.m (.ext p far) = readByte s.m (.ext p far))
    ∧ t.m = { Mach.reset with mem := t.m.mem, indet := t.m.indet, free := t.m.free, nextId := t.m.nextId, feat := s.m.feat,
                              replies := s.m.replies, fjarul := t.m.fjarul, clusters := t.m.clusters }
  let up (s t : State) (img : Firmware) (failing : List Nat) (ok : Bool) (lf : LifeCycle) : Prop :=
    t.mg.life = lf ∧ SettingsInRange t.mg
    ∧ (¬ good img → t.mg.boot = .refused ∧ t.m.fjarul = s.m.fjarul ∧ t.m.clusters = [])
    ∧ (good img → ok = false → t.mg.boot = .inReset ∧ t.m.fjarul = .stackFault :: s.m.fjarul ∧ t.m.clusters = [])
    ∧ (good img → ok = true → t.mg.boot = .ready ∧ t.m.fjarul = .ready :: s.m.fjarul ∧ t.mg.version = img.version ∧ t.mg.digest = img.digest
      ∧ ∀ c, t.m.cluster c = { Cluster.empty with fenced := decide (c < 128) && failing.contains c })
  let replied (s t : State) (rs : List FReply) : Prop := t.mg.replies = rs ++ s.mg.replies
  let told (s : State) (r : FReply) : State := { s with mg := { s.mg with replies := r :: s.mg.replies } }
  let sets (i : Instr) (s : State) (ok : Prop) (g : Mgmt) : Prop :=
    (ok → exec i s = .next (told { s with mg := g } .done)) ∧ (¬ ok → exec i s = .next (told s .refused))
  (∀ (s : State) (img : Firmware) (failing : List Nat) (ok : Bool),
    Completes (.moduleReset img failing ok) s fun t => wiped s t ∧ up s t img failing ok s.mg.life ∧ replied s t [])
  ∧ (∀ (s : State) (die cycles : Nat) (img : Firmware),
    exec (.thermalTrip die) s = .next { s with m := { s.m with fjarul := .thermalTrip die :: s.m.fjarul }, mg := { s.mg with tripped := die :: s.mg.tripped } }
    ∧ (s.mg.tripped = [] ∨ cycles < 2 ^ 24 → exec (.thermalReset cycles img) s = .next s)
    ∧ (s.mg.tripped ≠ [] → 2 ^ 24 ≤ cycles → ∃ failing ok, Completes (.thermalReset cycles img) s fun t =>
        wiped s t ∧ up s t img failing ok s.mg.life ∧ t.mg.tripped = []))
  ∧ (∀ (s : State) (img : Firmware), let i : Instr := .firmwareLoad img
    (s.mg.boot = .inReset → exec i s = .next (told s .notReady))
    ∧ (s.mg.boot ≠ .inReset → ¬ good img → exec i s = .next (told s .refused))
    ∧ (s.mg.boot = .ready → good img → exec i s = .next (told { s with mg := { s.mg with version := img.version, digest := img.digest } } .done))
    ∧ (s.mg.boot = .refused → good img → s.m.clusters = [] → ∃ failing ok, Completes i s fun t => up s t img failing ok s.mg.life ∧ replied s t [.done]
        ∧ t.m = { s.m with free := t.m.free, fjarul := t.m.fjarul, clusters := t.m.clusters }))
  ∧ (∀ (s : State), (∀ i, (∃ target tok img, i = .lifeCycleToken target tok img) ∨ (∃ nonce, i = .attestation nonce) ∨ i = .telemetry
      ∨ (∃ d n, i = .testSchedule d n) ∨ (∃ a p n, i = .budgetSet a p n) ∨ (∃ w, i = .powerCap w) ∨ (∃ k n, i = .counterSnapshot k n) →
      (s.mg.boot = .refused → exec i s = .next (told s .refused)) ∧ (s.mg.boot = .inReset → exec i s = .next (told s .notReady)))
    ∧ (s.mg.boot = .ready →
      (∀ target tok img, (good tok → life s.mg.life < life target → ∃ failing ok, Completes (.lifeCycleToken target tok img) s fun t =>
          wiped s t ∧ up s t img failing ok target ∧ replied s t [.done])
        ∧ (¬ good tok ∨ life target ≤ life s.mg.life → exec (.lifeCycleToken target tok img) s = .next (told s .refused)))
      ∧ (∀ nonce, ∃ rsa slh, exec (.attestation nonce) s = .next (told s (.attestation nonce s.mg.digest s.mg.version s.mg.life s.m.feat
          ((List.range 128).filter fun c => (s.m.cluster c).fenced) (s.m.ports.toList.map Port.inUse) rsa slh)))
      ∧ (∃ rs : List Nat, rs.length = 1 + 12 + 1 + 12 ∧ exec .telemetry s = .next (told { s with mg := { s.mg with asked := s.mg.asked + 1 } } (.telemetry rs)))
      ∧ (∀ die n, sets (.testSchedule die n) s (die < 8 ∧ 2 ^ 20 ≤ n ∧ n ≤ 2 ^ 40) { s.mg with interval := s.mg.interval.setIfInBounds die n })
      ∧ (∀ part n, sets (.budgetSet .period part n) s (2 ^ 10 ≤ n ∧ n ≤ 2 ^ 24) { s.mg with period := n })
      ∧ (∀ act part n, act ≠ .period → exec (.budgetSet act part n) s = .next (told { s with
          m := { s.m with flitBudget := if act = .link then aput s.m.flitBudget part n else s.m.flitBudget
                          tileBudget := if act = .tiles then aput s.m.tileBudget part n else s.m.tileBudget }
          mg := { s.mg with budgets := (act, part, n) :: s.mg.budgets.filter fun b => (b.1, b.2.1) ≠ (act, part) } } .done))
      ∧ (∀ w, sets (.powerCap w) s (1000 ≤ w ∧ w ≤ 3200) { s.mg with cap := w })
      ∧ ∀ ix, let atLeast (l c : List Nat) (n : Nat) : Prop := c.length = n ∧ ∀ k, k < n → l.getD k 0 ≤ c.getD k 0
        let shows (k : BlockKind) (m : Mach) (c : List Nat) : Prop := exec (.counterSnapshot k ix) s = .next (told { s with m := m } (.counters c))
        (ix < 1024 → ∃ c, atLeast (s.m.core ix).counts c 16 ∧ shows .core { s.m.setCore ix { s.m.core ix with counts := c } with free := s.m.free + 16 } c)
        ∧ (ix < 128 → ∃ c, atLeast (s.m.cluster ix).copies c 6
            ∧ shows .copyEngine { s.m.setCluster ix { s.m.cluster ix with copies := c } with free := s.m.free + 6 } c)
        ∧ (ix < 128 → shows .walkEngine s.m ((s.m.engine ix).causes ++ [(s.m.engine ix).acyc, (s.m.engine ix).rback]))
        ∧ (ix < 8 → ∃ c, atLeast (s.m.cp ix).counts c 6
            ∧ shows .commandProcessor { s.m with cps := s.m.cps.setIfInBounds ix { s.m.cp ix with counts := c }, free := s.m.free + 6 } c)
        ∧ ∀ k, (k = .core → 1024 ≤ ix) → (k = .commandProcessor → 8 ≤ ix) → (k ≠ .core → k ≠ .commandProcessor → 128 ≤ ix) →
            exec (.counterSnapshot k ix) s = .next (told s .refused)))
  ∧ (∀ (s : State) (block cycles : Nat), let i : Instr := .budgetPeriod block cycles
    (cycles < s.mg.period ∨ 146 ≤ block → exec i s = .next s)
    ∧ (s.mg.period ≤ cycles →
      (block < 18 → exec i s = .next { s with m := { s.m with ports := s.m.ports.setIfInBounds block { s.m.port block with flits := [] } } })
      ∧ ∀ e, e < 128 → block = 18 + e → exec i s = .next { s with m := s.m.setEngine e { s.m.engine e with starts := [] } }))
  ∧ ∀ (s : State) (die cycles c : Nat) (v : Verdict), die < 8 → let i : Instr := .inFieldTest die cycles v
    let d := s.m.die die
    let at_ (k : Nat) : Nat := 16 * die + (d.nextTest + k) % 16
    let next := ∃ k, k < 16 ∧ c = at_ k ∧ (s.m.cluster c).fenced = false ∧ ∀ j, j < k → (s.m.cluster (at_ j)).fenced = true
    let rested := atRest s.m c = true
    let busy := ∃ x ∈ ctxsOn s.m c, ∃ y, aget s.m.ctxs x = some y ∧ (y.st = .suspending ∨ y.st = .saving ∨ y.st = .restoring)
    let clock := d.clock + cycles
    let after (t : State) : Prop := t.m.die die = { t.m.die die with clock := clock, nextTest := (c % 16 + 1) % 16 } ∧ t.mg = s.mg
    let passed (window : List Count) (psts : List (Nat × Nat)) (tested : Nat) : Prop := Completes i s fun t => after t
      ∧ t.m.cluster c = { t.m.cluster c with tested := tested, window := window, psts := psts, fenced := false }
      ∧ ∀ k tm, aget s.m.teams k = some tm → ((k, tm) ∉ clusterTeams s.m c → aget t.m.teams k = some tm)
        ∧ ((k, tm) ∈ clusterTeams s.m c → ∃ tm1, aget t.m.teams k = some tm1 ∧ tm1.saved = true ∧ tm1.t = tm.t ∧ tm1.frame = tm.frame
          ∧ ∀ gid g, s.m.grp? gid = some g → g.team = k → ∃ g1, t.m.grp? gid = some g1 ∧ g1.saved = true ∧ g1.chain = none ∧ g1.spc = g.spc ∧ g1.regs = g.regs)
    ((∀ k, k < 16 → (s.m.cluster (at_ k)).fenced = true) → exec i s = .next s)
    ∧ (cycles < (s.mg.interval[die]?).getD (2 ^ 20) → exec i s = .next s)
    ∧ (next → busy → exec i s = .next s)
    ∧ (next → ¬ busy → (s.mg.interval[die]?).getD (2 ^ 20) ≤ cycles → amapWf s.m.teams = true → amapWf s.m.groups = true → amapWf s.m.clusters = true →
      amapWf s.m.ctxs = true →
      (¬ rested → Completes i s fun t => t.m.groups = s.m.groups ∧ t.m.teams = s.m.teams ∧ t.m.clusters = s.m.clusters ∧ t.m.die die = d
        ∧ ∀ x ∈ ctxsOn s.m c, ∀ y, aget s.m.ctxs x = some y → y.st = .active → y.vacating = none →
          ∃ y1, aget t.m.ctxs x = some y1 ∧ y1.vacating = some { first := 8 * c, count := 8, cast := false })
      ∧ (rested → v = .pass → passed [] [] clock)
      ∧ (rested → v = .overBudget → passed (s.m.cluster c).window (s.m.cluster c).psts (s.m.cluster c).tested)
      ∧ ∀ sent, rested → v = .fail sent → amapWf s.m.walks = true → Completes i s fun t => after t ∧ (t.m.cluster c).fenced = true ∧ (t.m.cluster c).deltas = []
        ∧ (∀ k tm1, (∃ tm, (k, tm) ∈ clusterTeams s.m c) → aget t.m.teams k = some tm1 →
            (∃ kg ∈ t.m.groups, kg.2.team = k ∧ kg.2.core / 8 = c) → tm1.saved = true)
        ∧ (∀ kw ∈ walksOn s.m c, ∀ w1, aget t.m.walks kw.1 = some w1 → w1.acause ≠ 0)
        ∧ (sent = false → ∀ x ∈ (s.m.cluster c).counted, ∀ y, aget t.m.ctxs x = some y → y.frozen = true)
        ∧ ∃ es, t.m.fjarul = .window c (s.m.cluster c).tested clock es :: s.m.fjarul
          ∧ ∀ x ∈ (s.m.cluster c).window, ∃ e ∈ es, e.ctx = x.ctx ∧ e.node = x.node ∧ stampLe e.slo x.stamp = true ∧ stampLe x.stamp e.shi = true
            ∧ e.npst = min ((s.m.cluster c).psts.filter fun y => y = (x.ctx, x.node)).length (2 ^ 32 - 1)
            ∧ (e.frozen = true ↔ sent = false ∧ x.ctx ∈ (s.m.cluster c).counted))

/-! The memory model (08_ordering.md). -/

/-- The executions that a machine of accesses in one order makes are allowed by R196 to R199, and what R189, R193 and R199 say of
the events, dependences and values of instructions. -/
def Obligations.InterleavingsAllowed : Prop :=
  (∀ (x : MemOrder.Execution) (pos : Nat → Nat),
    let up (es : List (Nat × Nat)) : Prop := ∀ p ∈ es, pos p.1 < pos p.2
    (∀ i j a b, x.ev i = some a → x.ev j = some b → a.io b = true → pos i < pos j) → up x.jo → (∀ e ∈ x.effects, pos e.src < pos e.dst) →
    (∀ l, up (x.coAt l)) → (∀ l, up (x.rfAt l)) → (∀ l, up (x.frAt l)) → (∀ l r w, x.rfOf l r = some w → w ∈ x.coOf l) →
    (∀ u e, x.ev u = some e → e.kind = .rmw → ∀ l ∈ e.locs, u ∈ x.coOf l ∧ ∃ f ∈ x.rf, f.1 = l ∧ f.2.1 = u) →
    x.coherent = true ∧ x.ordered = true ∧ x.atomic = true ∧ x.observed = true ∧ x.allowed = true)
  ∧ (∀ (d : MemOrder.Did) (a b : MemOrder.Ev), a ∈ d.events → b ∈ d.events → a.agent = .group d.gid ∧ a.seq = d.seq ∧ a.io b = false)
  ∧ (∀ (d : MemOrder.Did) (w : LaneWord), d.binding = none →
      (d.ins = .pref w → d.events = [])
      ∧ (d.ins = .ld w ∨ d.ins = .st w → (∀ t ∈ d.touches, t.fabric = false ∨ t.size ≠ 16) → d.events.map MemOrder.Ev.locs = d.touches.map fun t => MemOrder.bytesFrom t.at_ t.size)
      ∧ (d.ins = .ld w ∨ d.ins = .st w → ∀ t, d.touches = [t] → t.fabric = true → t.size = 16 →
          d.events.map MemOrder.Ev.locs = [MemOrder.bytesFrom t.at_ 8, MemOrder.bytesFrom (t.at_ + 8) 8]))
  ∧ (∀ ds : List MemOrder.Did, ∀ p ∈ MemOrder.depOf ds, p.1 < p.2 ∧ ∃ e, (ds.flatMap MemOrder.Did.events)[p.1]? = some e ∧ e.reads = true)
  ∧ ∀ (x : MemOrder.Execution) (ds : List MemOrder.Did) (v : MemOrder.Vals), x.allowedWith ds v = true →
      x.allowed = true
      ∧ (∀ i w e u l, x.ev i = some e → e.reads = true → l ∈ e.locs → x.rfOf l i = some w → x.ev w = some u →
          MemOrder.byteAt e (MemOrder.lookUp v.got i) l = MemOrder.byteAt u (MemOrder.lookUp v.put w) l)
      ∧ ∀ n d, (n, d) ∈ MemOrder.numbered ds 0 → (∀ w, d.ins ≠ .discard w) → ∀ k t e, d.accesses[k]? = some (t, e) → e.kind = .write →
          MemOrder.lookUp v.put (n + k) = t.part e

/-- R212 to R231, with the edges of a task (R205) and the host's accesses (R421). -/
def Obligations.LitmusCatalogue : Prop :=
  let forbids (x : MemOrder.Execution) (o : MemOrder.Execution → Bool) : Prop := x.allows o = false
  let allows (x : MemOrder.Execution) (o : MemOrder.Execution → Bool) : Prop := x.allows o = true
  let narrow : List (Option Scope) := [none, some .grp, some .team, some .clu]
  let broad : List (Option Scope) := [some .dev, some .sys]
  let init (l r : Nat) := Litmus.from_ l r none
  let takes (l r w : Nat) := Litmus.from_ l r (some w)
  let both (a b : MemOrder.Execution → Bool) (x : MemOrder.Execution) : Bool := a x && b x
  (∀ w ∈ [Litmus.Where.oneCore, .paired], (∀ s ∈ [none, some .grp], allows (Litmus.mp w s s) Litmus.mpStale)
      ∧ ∀ s ∈ [some .team, some .clu, some .dev, some .sys], forbids (Litmus.mp w s s) Litmus.mpStale)
  ∧ (∀ s ∈ [none, some .grp, some .team], allows (Litmus.mp .oneCluster s s) Litmus.mpStale)
  ∧ (∀ s ∈ [some .clu, some .dev, some .sys], forbids (Litmus.mp .oneCluster s s) Litmus.mpStale)
  ∧ (∀ s ∈ narrow, allows (Litmus.mp .apart s s) Litmus.mpStale) ∧ (∀ s ∈ broad, forbids (Litmus.mp .apart s s) Litmus.mpStale)
  ∧ allows (Litmus.mp .apart (some .dev) (some .clu)) Litmus.mpStale ∧ forbids (Litmus.mp .oneCluster (some .dev) (some .clu)) Litmus.mpStale
  ∧ (∀ s ∈ narrow, allows (Litmus.sb s) Litmus.sbBoth0 ∧ allows (Litmus.lb s) Litmus.lbBoth ∧ allows (Litmus.iriw s) Litmus.iriwSplit
      ∧ allows (Litmus.wrc s) Litmus.wrcStale ∧ allows (Litmus.twoTwoW s) Litmus.twoTwoWFirst)
  ∧ (∀ s ∈ broad, forbids (Litmus.sb s) Litmus.sbBoth0 ∧ forbids (Litmus.lb s) Litmus.lbBoth ∧ forbids (Litmus.iriw s) Litmus.iriwSplit
      ∧ forbids (Litmus.wrc s) Litmus.wrcStale ∧ forbids (Litmus.twoTwoW s) Litmus.twoTwoWFirst)
  ∧ (∀ s ∈ narrow ++ broad, allows (Litmus.sbRel s) Litmus.sbBoth0)
  ∧ forbids Litmus.lbDep Litmus.lbBoth ∧ allows Litmus.lbDep (both (init 0 0) (init 1 2))
  ∧ (∀ p ∈ [(Scope.grp, Scope.grp), (.dev, .grp), (.grp, .dev)], forbids (Litmus.coRR p.1 p.2) (both (takes 0 1 0) (init 0 2))
      ∧ allows (Litmus.coRR p.1 p.2) (both (init 0 1) (takes 0 2 0)))
  ∧ forbids Litmus.coWR (init 0 1) ∧ allows Litmus.coWR (both (takes 0 1 0) (Litmus.last 0 0)) ∧ allows Litmus.coWR (both (takes 0 1 0) (Litmus.last 0 2))
  ∧ allows Litmus.coWR (both (takes 0 1 2) (Litmus.last 0 2)) ∧ forbids Litmus.coWR (both (takes 0 1 2) (Litmus.last 0 0))
  ∧ forbids (Litmus.coWW false) (Litmus.last 0 0) ∧ allows (Litmus.coWW false) (Litmus.last 0 1)
  ∧ allows (Litmus.coWW true) (Litmus.last 0 0) ∧ allows (Litmus.coWW true) (Litmus.last 0 1)
  ∧ (∀ w ∈ [Litmus.Where.oneCore, .paired, .oneCluster, .apart], ∀ s ∈ [Scope.grp, .team, .clu, .dev, .sys],
      allows (Litmus.atoms w s) (both (init 0 0) (takes 0 1 0)) ∧ allows (Litmus.atoms w s) (both (init 0 1) (takes 0 0 1))
      ∧ forbids (Litmus.atoms w s) (both (init 0 0) (init 0 1)))
  ∧ forbids (Litmus.tearA false) (both (takes 0 1 0) (init 3 2)) ∧ allows (Litmus.tearA false) (both (init 0 1) (takes 3 2 0))
  ∧ allows (Litmus.tearA true) (both (takes 0 2 0) (init 3 3)) ∧ allows (Litmus.tearA true) (both (init 0 2) (takes 3 3 1))
  ∧ forbids (Litmus.tearB false) (both (both (takes 0 1 0) (takes 1 1 0)) (both (init 2 1) (init 3 1)))
  ∧ allows (Litmus.tearB true) (both (both (takes 0 2 0) (takes 1 2 0)) (both (init 2 3) (init 3 3)))
  ∧ forbids (Litmus.tearB false) (both (takes 0 1 0) (init 1 1)) ∧ forbids (Litmus.tearB true) (both (takes 0 2 0) (init 1 2))
  ∧ forbids Litmus.transitive (both (both (takes 1 2 1) (takes 2 4 3)) (init 0 5))
  ∧ allows (Litmus.copy true false) (Litmus.copied (some 0)) ∧ forbids (Litmus.copy true false) (init 1 5)
  ∧ forbids (Litmus.copy true false) (Litmus.copied none) ∧ allows (Litmus.copy false false) (Litmus.copied (some 0)) ∧ allows (Litmus.copy false false) (init 1 5)
  ∧ allows (Litmus.copy true true) (Litmus.copied (some 0)) ∧ allows (Litmus.copy true true) (Litmus.copied (some 10))
  ∧ forbids (Litmus.copy true true) (init 1 5) ∧ forbids (Litmus.copy true true) (Litmus.copied none)
  ∧ (∀ m ∈ [5, 4], forbids (Litmus.walk m) (init 0 4) ∧ allows (Litmus.walk m) (takes 1 3 5))
  ∧ forbids (Litmus.walk 5) (init 1 3) ∧ allows (Litmus.walk 4) (init 1 3)
  ∧ forbids Litmus.migrated (init 0 2) ∧ allows Litmus.migrated (init 0 0) ∧ allows Litmus.migrated (takes 0 0 1)
  ∧ forbids Litmus.frontier (init 0 1) ∧ allows Litmus.frontier (takes 0 1 0)
  ∧ allows (Litmus.posted false) Litmus.postedStale ∧ forbids (Litmus.posted true) Litmus.postedStale
  ∧ forbids Litmus.task (init 0 1) ∧ allows Litmus.task (takes 0 1 0)
  ∧ forbids (Litmus.command true) Litmus.commandStale ∧ allows (Litmus.command false) Litmus.commandStale
  ∧ forbids (Litmus.completion true) Litmus.completionStale ∧ allows (Litmus.completion false) Litmus.completionStale
  ∧ allows Litmus.resultFirst Litmus.resultEarly

/-! The machine whole: its step, its encodings, and what every step keeps. -/

/-- What `step` adds around `exec`, with R28, R30, R31, R47, R52, R97, R390, R396 and R422. -/
def Obligations.StepRunsDecoded : Prop :=
  (∀ s : State, s.m.agenda = [] → step s = step { s with tick := s.tick + 1, m := { s.m with agenda := [Config.nextMove s.tick] } })
  ∧ (∀ t : State, settleStep (.next t) = .next { t with m := settleMach t.m }
      ∧ ((∀ kc ∈ t.m.clusters, batchEntries kc.2.deltas < 2048) → (∀ kd ∈ t.m.dies, batchEntries kd.2.deltas < 2048) →
          (∀ kc ∈ t.m.ctxs, kc.2.waits = []) → (∀ kq ∈ t.m.queues, kq.2.told = true ∧ (pendingQueue t.m kq.2 = true ↔ kq.2.since ≠ 0)) →
          settleMach t.m = t.m))
  ∧ (∀ (s : State) (i : Instr) (rest : List Move), s.m.agenda = .event i :: rest →
      let s0 : State := { s with m := { s.m with agenda := rest } }
      let runs := isRequest i = true ∨ (isEvent i = true ∧ s.mg.boot = .ready)
      (runs → step s = settleStep (onward (exec i s0.noGroup) fun t => { t with m := leaveSets s0.m t.m }))
      ∧ (¬ runs → step s = settleStep (.next s0)))
  ∧ (∀ (s : State) (e : Nat) (rest : List Move), s.m.agenda = .engine e :: rest →
      let s0 : State := { s with m := { s.m with agenda := rest } }
      let runs := s.mg.boot = .ready ∧ e < 128 ∧ (s.m.cluster e).fenced = false
      (runs → step s = settleStep (.next { s0 with m := engineCycle s0.noGroup.m e })) ∧ (¬ runs → step s = settleStep (.next s0)))
  ∧ (∀ (s : State) (core : Nat) (rest : List Move), s.m.agenda = .lane core :: rest → s.mg.boot = .ready → core < 1024 →
      let s0 : State := { s with m := { s.m with agenda := rest } }
      let s1 : State := { s0 with m := markThrottled s0.m core }
      (laneChoices s1.m core = [] → step s = settleStep (.next { s1 with m := s1.m.setCore core { s1.m.core core with cyc := (s1.m.core core).cyc + 1 } }))
      ∧ ∀ gid g others e r, laneChoices s1.m core = (gid, g) :: others → g.qs.liq = e :: r →
        let m1 := focus s1.m gid g
        (∀ i, e.bad = none → e.ins = some i → step s = settleStep (onward (exec i { s1 with m := m1 }) (afterLane s0.m gid g)))
        ∧ ∀ c a, e.bad = some (c, a) →
          step s = settleStep (.next (afterLane s0.m gid g { s1 with m := laneTrap m1 gid (regrp m1 gid g) e c a })))
  ∧ ∀ (s : State) (core : Nat) (rest : List Move), s.m.agenda = .scalar core :: rest → s.mg.boot = .ready → core < 1024 →
      let s0 : State := { s with m := { s.m with agenda := rest } }
      let turns := scalarTurns s0.m core
      (turns = [] → step s = settleStep (.next s0))
      ∧ ∀ gid g0, turns[s0.m.pick turns.length]? = some (gid, g0) →
        let s1 := s0.chosen turns.length
        let m1 := focus s1.m gid g0
        let g := regrp m1 gid g0
        let sec := sections m1 g
        let pc := g.spc.toNat
        let does (o : Host.Outcome State Fault Refusal) : Prop := step s = settleStep (onward o (afterScalar m1 gid g))
        let runs (m : Mach) (i : Instr) : Prop :=
          does (if reachesMemory i = true ∧ g.stalled m = true then .next { s1 with m := wait m gid g } else exec i { s1 with m := m })
        (∀ off ph, g.st = .waiting (.phase off ph) → does (.next { s1 with m := continueYield m1 gid g off ph }))
        ∧ ((∀ off ph, g.st ≠ .waiting (.phase off ph)) →
          (∀ p, g.lx = some p → does (.next { s1 with m := continueRun m1 gid g p }))
          ∧ (g.lx = none →
            (pc < sec.sbase ∨ sec.sbase + sec.slen < pc + 4 → runs m1 .scalarPcRange)
            ∧ (sec.sbase ≤ pc → pc + 4 ≤ sec.sbase + sec.slen →
              (∀ c l, fetchPa m1 g sec.physical pc = .error (c, l) →
                runs (afterFetch m1 g sec.physical pc) (.instructionFetchFault (BitVec.ofNat 8 c.num) l g.spc))
              ∧ ∀ m2 pa, fetchPa m1 g sec.physical pc = .ok (m2, pa) → (∀ k, k < 2 → ∀ o ∈ (aget m2.touched (pa / 4 + k)).getD [], o.1 ≤ g.kern) →
                let word (k : Nat) : Word := BitVec.ofNat 32 (numberOf ((List.range 4).map fun b => readByte m2 (.dev (pa + 4 * k + b))))
                (∀ i, decodeScalar (word 0) 0 = .ok i → (∀ x, i ≠ .sigChk x) → runs m2 i)
                ∧ (∀ e, decodeScalar (word 0) 0 = .error e → runs m2 (.illegalScalarInstruction (word 0)))
                ∧ (∀ i, decodeScalar (word 0) (word 1) = .ok i → (∃ x, i = .sigChk x) → pc % 4096 ≤ 4088 → pc + 8 ≤ sec.sbase + sec.slen → runs m2 i))))

/-- Worked encodings of each family. -/
def Obligations.DecodesTheSpecsWords : Prop :=
  decodeTableWord 32 0x0830FFF8 = some (.addi 3 3 0x3FF8) ∧ decodeTableWord 32 0x04300000 = some (.add 3 0 0)
  ∧ decodeTableWord 32 0x44404000 = some (.sldd 4 1 0) ∧ decodeTableWord 32 0x24008000 = some (.cmpi 2 0)
  ∧ decodeTableWord 32 0x693FFFFB = some (.b 4 0x3FFFFB) ∧ decodeTableWord 32 0xC00F0000 = some (.jr 60)
  ∧ decodeTableWord 32 0x78FFFFFF = some (.lx 3 0x3FFFFF) ∧ decodeTableWord 32 0x88710510 = some (.waita 0 7 4 5)
  ∧ decodeTableWord 32 0xA4010500 = some (.barInit 4 5) ∧ decodeTableWord 32 0xA4A24051 = some (.barTry 1 10 9)
  ∧ decodeTableWord 32 0xA8830000 = some (.copyq 8 12) ∧ decodeTableWord 32 0xAC400003 = some (.yieldBar 1 0 3)
  ∧ decodeTableWord 32 0xB0008301 = some (.pipeLim 2 3) ∧ decodeTableWord 32 0x8C710000 = some (.walkPost 7 4 0)
  ∧ decodeTableWord 32 0x9481050A = some (.frontHold 8 4 5) ∧ decodeTableWord 32 0x9D410003 = some (.rgnOpen 20 0x10003)
  ∧ decodeTableWord 64 0x8CB95300A0000000 = some (.sigChk 0x8CB95300)
  ∧ decodeTableWord 96 0x23881281105D180068000000 = some (.fma
      { ty := 0x11, dst := 4, cap := 5, nw := 0, a := 8, b := 0x105, c := 0x1A3, d := 0, g1 := 1, g2 := 10, slot := 0, hint := 0, sched := 0, modB := 0 })
  ∧ decodeTableWord 96 0x906018015B000001DC000069 = some (.ld
      { ty := 0x0C, dst := 6, cap := 0, nw := 0, a := 10, b := 0x1B0, c := 0, d := 0, g1 := 7, g2 := 7, slot := 0, hint := 0, sched := 0, modB := 0x69 })
  ∧ decodeTableWord 96 0x916520208050200048000004 = some (.st
      { ty := 0x0C, dst := 0x148, cap := 0, nw := 0, a := 0x104, b := 5, c := 4, d := 0, g1 := 1, g2 := 2, slot := 0, hint := 0, sched := 0, modB := 4 })
  ∧ decodeTableWord 96 0xB18828229C000001DC000000 = some (.accLd
      { ty := 0x11, dst := 10, cap := 0, nw := 0, a := 0x114, b := 0x1C0, c := 0, d := 0, g1 := 7, g2 := 7, slot := 0, hint := 0, sched := 0, modB := 0 })
  ∧ decodeTableWord 32 0x00000000 = none ∧ decodeTableWord 32 0xFC000000 = none

/-- The round trip, both ways, over every encoded instruction. -/
def Obligations.DecodeOfEncode : Prop :=
  (∀ i : Instr, i.wf = true → laneWord? i = none → encode i ≠ [] → ∀ rest, decodeWords (encode i ++ rest) = .ok (i, rest))
  ∧ (∀ i : Instr, i.wf = true → encode i ≠ [] →
      decodeTableWord (32 * (encode i).length) ((encode i).foldr (fun w n => w.toNat + 2 ^ 32 * n) 0) = some i)
  ∧ (∀ i w, laneWord? i = some w → decodeLane (laneBitsOf (laneOpcode i) w) = .ok i
      ∧ ∃ a b c, encode i = [a, b, c] ∧ c ++ b ++ a = laneBitsOf (laneOpcode i) w)
  ∧ (∀ w w2 i, decodeScalar w w2 = .ok i → i.wf = true ∧ (encode i = [w] ∨ encode i = [w, w2]))
  ∧ (∀ x i, decodeLane x = .ok i → ∃ w, laneWord? i = some w ∧ laneBitsOf (laneOpcode i) w = x)
  ∧ (∀ w w2 : Word, w.toNat / 2 ^ 26 = 0 ∨ 0x31 ≤ w.toNat / 2 ^ 26 → decodeScalar w w2 = .error .reservedMajor)
  ∧ ∀ (op : BitVec 8) (w : LaneWord), (∀ i x, laneWord? i = some x → laneOpcode i ≠ op) → decodeLaneOp op w = .error .reservedOpcode

/-- No step stops, and what it keeps of the management side (R425, R427 to R430). -/
def Obligations.StepGoesOn : Prop :=
  let life (l : LifeCycle) : Nat := match l with | .blank => 0 | .provisioned => 1 | .deployed => 2 | .returned => 3
  ∀ s : State, SettingsInRange s.mg → ∃ t, step s = .next t ∧ SettingsInRange t.mg ∧ life s.mg.life ≤ life t.mg.life
    ∧ ((∀ kg ∈ s.m.groups, Group.QueuesLanes kg.2) → (∀ i, s.m.agenda.head?.getD (Config.nextMove s.tick) = .event i →
          isRequest i = false ∧ (∀ d, i ≠ .thermalTrip d) ∧ ∀ c img, i ≠ .thermalReset c img) → t.mg = s.mg)

/-- `Kept` and `NumbersFresh` are what other statements take as a premise; every step keeps them. -/
def Obligations.StepKeepsForm : Prop := ∀ s t : State, step s = .next t → (Kept s → Kept t) ∧ (NumbersFresh s.m → NumbersFresh t.m)

/-- R423, R413 and the reset values of R393, R409 to R411 and R429. -/
def Obligations.ResetState : Prop :=
  let s := State.reset
  (∀ l, readByte s.m l = 0) ∧ s.m.ctxs = [] ∧ s.m.groups = [] ∧ s.m.teams = [] ∧ s.m.kerns = [] ∧ s.m.walks = [] ∧ s.m.queues = [] ∧ s.m.root = []
  ∧ s.m.psts = [] ∧ s.m.slots = [] ∧ s.m.summons = [] ∧ (∀ c, s.m.core c = Core.empty ∧ (s.m.core c).tlb = [] ∧ (s.m.core c).l1 = [])
  ∧ (∀ c, (s.m.cluster c).deltas = [] ∧ (s.m.cluster c).tlb = [] ∧ (s.m.cluster c).fenced = false)
  ∧ (∀ p, p < 18 → (s.m.port p).st = .down ∧ (s.m.port p).ctl = 0 ∧ (s.m.port p).stat = 0) ∧ (∀ r ∈ s.m.routes.toList, r = 0)
  ∧ (∀ off, off < 0x10000 → readWindow s.m off = 0) ∧ s.mg.period = 2 ^ 16 ∧ s.mg.boot = .ready ∧ SettingsInRange s.mg ∧ Kept s ∧ NumbersFresh s.m
end

