-- ==== Sys2Proof/Laws/Maps.lean ====
section
/-! SUPPORT. The laws of the maps: a read after a write, that every operation keeps the keys rising, and that a test of
all entries does not see a write that keeps the tested entry as it was.
-/

namespace Sys2Proof.Machine

theorem aget_aput_self {α : Type} (m : AMap α) (k : Nat) (v : α) : aget (aput m k v) k = some v := by
  induction m with
  | nil => simp [aput, aget]
  | cons p r ih =>
    obtain ⟨k', v'⟩ := p
    unfold aput
    split
    · simp [aget]
    · rename_i h
      split
      · simp [aget]
      · have h1 : ¬ k' = k := fun e => h e.symm
        simp [aget, h1, ih]

theorem aget_aput_ne {α : Type} (m : AMap α) (k j : Nat) (v : α) (h : j ≠ k) : aget (aput m k v) j = aget m j := by
  have h1 : ¬ k = j := fun e => h e.symm
  induction m with
  | nil => simp [aput, aget, h1]
  | cons p r ih =>
    obtain ⟨k', v'⟩ := p
    unfold aput
    split
    · rename_i hk
      subst hk
      simp [aget, h1]
    · split
      · simp [aget, h1]
      · simp only [aget, ih]

theorem aget_aput {α : Type} (m : AMap α) (k j : Nat) (v : α) :
    aget (aput m k v) j = if j = k then some v else aget m j := by
  split
  · rename_i h
    rw [h, aget_aput_self]
  · rename_i h
    exact aget_aput_ne m k j v h

/-- Writes at some keys leave every other key as it was. -/
theorem aget_foldl_aput_ne {α : Type} (ks : List Nat) (v : α) (m : AMap α) (j : Nat) (hj : j ∉ ks) :
    aget (ks.foldl (fun r k => aput r k v) m) j = aget m j := by
  induction ks generalizing m with
  | nil => rfl
  | cons a as ih =>
    rw [List.mem_cons, not_or] at hj
    rw [List.foldl_cons, ih _ hj.2, aget_aput_ne m a j v hj.1]

theorem aget_adel_self {α : Type} (m : AMap α) (k : Nat) : aget (adel m k) k = none := by
  induction m with
  | nil => rfl
  | cons p r ih =>
    obtain ⟨k', v'⟩ := p
    by_cases h : k' = k
    · simpa [adel, h] using ih
    · have h2 : (adel ((k', v') :: r) k) = (k', v') :: adel r k := by simp [adel, h]
      rw [h2]
      simp only [aget, if_neg h, ih]

theorem aget_adel_ne {α : Type} (m : AMap α) (k j : Nat) (hj : j ≠ k) : aget (adel m k) j = aget m j := by
  induction m with
  | nil => rfl
  | cons p r ih =>
    obtain ⟨k', v'⟩ := p
    by_cases h : k' = k
    · have h1 : ¬ k' = j := fun e => hj (e.symm.trans h)
      have h2 : (adel ((k', v') :: r) k) = adel r k := by simp [adel, h]
      rw [h2, ih]
      simp [aget, h1]
    · have h2 : (adel ((k', v') :: r) k) = (k', v') :: adel r k := by simp [adel, h]
      rw [h2]
      simp only [aget, ih]

theorem amapWf_tail {α : Type} {p : Nat × α} {r : AMap α} (h : amapWf (p :: r) = true) : amapWf r = true := by
  cases r with
  | nil => rfl
  | cons q r =>
    obtain ⟨k, v⟩ := p
    obtain ⟨k', v'⟩ := q
    simp only [amapWf, Bool.and_eq_true] at h
    exact h.2

theorem amapWf_cons {α : Type} (k : Nat) (v : α) (r : AMap α) (hr : amapWf r = true)
    (h : ∀ p ∈ r.head?, k < p.1) : amapWf ((k, v) :: r) = true := by
  cases r with
  | nil => rfl
  | cons q r =>
    obtain ⟨k', v'⟩ := q
    have := h (k', v') rfl
    simp [amapWf, hr, this]

theorem amapWf_head {α : Type} {k : Nat} {v : α} {r : AMap α} (h : amapWf ((k, v) :: r) = true) :
    ∀ p ∈ r.head?, k < p.1 := by
  cases r with
  | nil => intro p hp; cases hp
  | cons q r =>
    obtain ⟨k', v'⟩ := q
    intro p hp
    cases hp
    simp only [amapWf, Bool.and_eq_true, decide_eq_true_eq] at h
    exact h.1

theorem aput_head {α : Type} (r : AMap α) (k : Nat) (v : α) :
    ∀ p ∈ (aput r k v).head?, p.1 = k ∨ ∃ q ∈ r.head?, p.1 = q.1 := by
  cases r with
  | nil => intro p hp; cases hp; exact .inl rfl
  | cons q r =>
    obtain ⟨k', v'⟩ := q
    intro p hp
    unfold aput at hp
    split at hp
    · cases hp; exact .inl rfl
    · split at hp
      · cases hp; exact .inl rfl
      · cases hp; exact .inr ⟨(k', v'), rfl, rfl⟩

/-- Above every key of a rising map stands none of the keys after its first. -/
theorem amapWf_lt {α : Type} (r : AMap α) (k : Nat) (v : α) (h : amapWf ((k, v) :: r) = true) : ∀ e ∈ r, k < e.1 := by
  induction r generalizing k v with
  | nil => intro e he; cases he
  | cons q r ih =>
    obtain ⟨k', v'⟩ := q
    have hk : k < k' := amapWf_head h (k', v') rfl
    intro e he
    rcases List.mem_cons.mp he with rfl | he
    · exact hk
    · exact Nat.lt_trans hk (ih k' v' (amapWf_tail h) e he)

/-- A write keeps the keys rising. -/
theorem amapWf_aput {α : Type} (m : AMap α) (k : Nat) (v : α) (h : amapWf m = true) : amapWf (aput m k v) = true := by
  induction m with
  | nil => rfl
  | cons p r ih =>
    obtain ⟨k', v'⟩ := p
    unfold aput
    split
    · rename_i hk
      subst hk
      exact amapWf_cons k v r (amapWf_tail h) (amapWf_head h)
    · rename_i h1
      split
      · rename_i hk
        refine amapWf_cons k v _ h ?_
        intro p hp
        cases hp
        simp only [Bool.and_eq_true, decide_eq_true_eq] at hk
        exact hk.1
      · rename_i h2
        have hlt : k' < k := by
          rcases Nat.lt_or_gt_of_ne h1 with hk | hk
          · exfalso
            apply h2
            simp only [Bool.and_eq_true, decide_eq_true_eq, Bool.not_eq_true', List.any_eq_false]
            refine ⟨hk, fun e he => ?_⟩
            have := amapWf_lt r k' v' h e he
            omega
          · exact hk
        refine amapWf_cons k' v' _ (ih (amapWf_tail h)) ?_
        intro p hp
        rcases aput_head r k v p hp with e | ⟨q, hq, e⟩
        · omega
        · have := amapWf_head h q hq
          omega

/-- Removing entries keeps the keys rising. -/
theorem amapWf_filter {α : Type} (p : Nat × α → Bool) (m : AMap α) (h : amapWf m = true) :
    amapWf (m.filter p) = true := by
  have key : ∀ (m : AMap α), amapWf m = true → amapWf (m.filter p) = true
      ∧ ∀ k, (∀ q ∈ m.head?, k < q.1) → ∀ q ∈ (m.filter p).head?, k < q.1 := by
    intro m
    induction m with
    | nil => intro _; exact ⟨rfl, fun k _ q hq => by cases hq⟩
    | cons x r ih =>
      obtain ⟨kx, vx⟩ := x
      intro h
      obtain ⟨w, hd⟩ := ih (amapWf_tail h)
      have hx : ∀ q ∈ (r.filter p).head?, kx < q.1 := hd kx (amapWf_head h)
      by_cases hp : p (kx, vx) = true
      · rw [List.filter_cons_of_pos hp]
        refine ⟨amapWf_cons kx vx _ w hx, ?_⟩
        intro k hk q hq
        cases hq
        exact hk (kx, vx) rfl
      · rw [List.filter_cons_of_neg hp]
        refine ⟨w, ?_⟩
        intro k hk q hq
        have h1 := hk (kx, vx) rfl
        have h2 := hx q hq
        simp only at h1
        omega
  exact (key m h).1

/-- A removal keeps the keys rising. -/
theorem amapWf_adel {α : Type} (m : AMap α) (k : Nat) (h : amapWf m = true) : amapWf (adel m k) = true :=
  amapWf_filter _ m h

/-- A key that stands in a map is found by a search. -/
theorem any_of_aget {α : Type} (m : AMap α) (k : Nat) (v : α) (h : aget m k = some v) : m.any (fun e => e.1 = k) = true := by
  induction m with
  | nil => cases h
  | cons x r ih =>
    obtain ⟨k', v'⟩ := x
    by_cases hk : k' = k
    · simp [hk]
    · have h0 : aget r k = some v := by simpa [aget, hk] using h
      simp only [List.any_cons, ih h0, Bool.or_true]

/-- A write to a key that stands in a map leaves its place: the entries before it stay. -/
theorem aput_cons_found {α : Type} (r : AMap α) (k k' : Nat) (v v' w : α) (hk : ¬ k = k') (h : aget r k = some v) :
    aput ((k', v') :: r) k w = (k', v') :: aput r k w := by
  simp [aput, hk, any_of_aget r k v h]

/-- A test of all entries does not see a write in place of an entry that it judges alike. -/
theorem aany_aput {α : Type} (p : Nat → α → Bool) (m : AMap α) (k : Nat) (v w : α) (h : aget m k = some v)
    (hp : p k w = p k v) : aany p (aput m k w) = aany p m := by
  induction m with
  | nil => cases h
  | cons x r ih =>
    obtain ⟨k', v'⟩ := x
    by_cases hk : k' = k
    · subst hk
      have hv : v' = v := by simpa [aget] using h
      subst hv
      simp [aput, aany, hp]
    · have h0 : aget r k = some v := by simpa [aget, hk] using h
      have hr := ih h0
      rw [aput_cons_found r k k' v v' w (fun e => hk e.symm) h0]
      simp only [aany] at hr
      simp [aany, hr]

/-- A search does not see a write in place of an entry that it judges alike, but that it finds what is written there. -/
theorem find?_aput {α : Type} (p : Nat × α → Bool) (m : AMap α) (k : Nat) (v w : α) (h : aget m k = some v)
    (hp : p (k, w) = p (k, v)) :
    (aput m k w).find? p = (m.find? p).map fun x => if x.1 = k ∧ p (k, v) = true then (k, w) else x := by
  induction m with
  | nil => cases h
  | cons x r ih =>
    obtain ⟨k', v'⟩ := x
    by_cases hk : k' = k
    · subst hk
      have hv : v' = v := by simpa [aget] using h
      subst hv
      cases hc : p (k', v') <;> simp [aput, hp, hc]
    · have h0 : aget r k = some v := by simpa [aget, hk] using h
      rw [aput_cons_found r k k' v v' w (fun e => hk e.symm) h0]
      cases hc : p (k', v')
      · simp [hc, ih h0]
      · simp [hc, hk]

end Sys2Proof.Machine
end

