-- ==== Sys2Proof/Laws/Memory.lean ====
section
/-! SUPPORT. The laws of memory: a read after a write, that a write leaves every other byte alone, and that every memory
operation keeps the canonical form.
-/

namespace Sys2Proof.Machine

theorem memRead_memWrite_self (mem : List Host.Cell) (k : Nat) (b : Byte) : memRead (memWrite mem k b) k = b := by
  unfold memWrite
  split
  · rename_i hb
    simp [memRead, aget_adel_self mem k, hb]
  · simp [memRead, aget_aput_self]

theorem memRead_memWrite_ne (mem : List Host.Cell) (k j : Nat) (b : Byte) (hj : j ≠ k) :
    memRead (memWrite mem k b) j = memRead mem j := by
  unfold memWrite
  split
  · simp only [memRead, aget_adel_ne mem k j hj]
  · simp only [memRead, aget_aput_ne mem k j b hj]

theorem all_aput {α : Type} (p : Nat × α → Bool) (m : AMap α) (k : Nat) (v : α) (h : m.all p = true)
    (hv : p (k, v) = true) : (aput m k v).all p = true := by
  induction m with
  | nil => simp [aput, hv]
  | cons x r ih =>
    simp only [List.all_cons, Bool.and_eq_true] at h
    unfold aput
    split
    · simp [h.2, hv]
    · split
      · simp [h.1, h.2, hv]
      · simp only [List.all_cons, Bool.and_eq_true]
        exact ⟨h.1, ih h.2⟩

theorem all_filter {α : Type} (p q : α → Bool) (l : List α) (h : l.all p = true) : (l.filter q).all p = true := by
  rw [List.all_eq_true] at h ⊢
  intro x hx
  exact h x (List.mem_of_mem_filter hx)

theorem all_adel {α : Type} (p : Nat × α → Bool) (m : AMap α) (k : Nat) (h : m.all p = true) :
    (adel m k).all p = true := all_filter p _ m h

/-- Writing one byte keeps memory canonical. -/
theorem wf_memWrite (mem : List Host.Cell) (k : Nat) (b : Byte) (h : Memory.wf mem = true) :
    Memory.wf (memWrite mem k b) = true := by
  simp only [Memory.wf, Bool.and_eq_true] at h ⊢
  unfold memWrite
  split
  · exact ⟨amapWf_adel mem k h.1, all_adel _ mem k h.2⟩
  · rename_i hb
    exact ⟨amapWf_aput mem k b h.1, all_aput _ mem k b h.2 (by simpa using hb)⟩

theorem wf_filter (mem : List Host.Cell) (p : Host.Cell → Bool) (h : Memory.wf mem = true) :
    Memory.wf (mem.filter p) = true := by
  simp only [Memory.wf, Bool.and_eq_true] at h ⊢
  exact ⟨amapWf_filter p mem h.1, all_filter _ p mem h.2⟩

theorem wf_pokeByte (m : Mach) (l : Loc) (b : Byte) (h : Memory.wf m.mem = true) :
    Memory.wf (pokeByte m l b).mem = true := wf_memWrite m.mem l.key b h

theorem wf_writeByte (m : Mach) (l : Loc) (b : Byte) (h : Memory.wf m.mem = true) :
    Memory.wf (writeByte m l b).mem = true := by
  unfold writeByte
  split
  · split
    · exact h
    · split
      · exact h
      · split
        · exact h
        · exact wf_pokeByte m _ b h
  · exact wf_pokeByte m _ b h

/-- What a store keeps of the words it meets, for fetches, changes no byte. -/
theorem touch_mem (m : Mach) (l : Loc) (n : Nat) : ∃ ws, touch m l n = { m with touched := ws } := by
  have hfold : ∀ (ws : List Nat) (m : Mach), ∃ w, ws.foldl touchWord m = { m with touched := w } := by
    intro ws
    induction ws with
    | nil => exact fun m => ⟨m.touched, rfl⟩
    | cons a ws ih => exact fun m => ih (touchWord m a)
  unfold touch
  split
  · exact hfold _ m
  · exact ⟨m.touched, rfl⟩

/-- Putting bytes keeps memory canonical. -/
theorem wf_putBytes (bs : List Byte) (m : Mach) (l : Loc) (h : Memory.wf m.mem = true) :
    Memory.wf (putBytes m l bs).mem = true := by
  induction bs generalizing m l with
  | nil => exact h
  | cons b bs ih => exact ih (writeByte m l b) (l.plus 1) (wf_writeByte m l b h)

/-- Storing bytes keeps memory canonical. -/
theorem wf_writeBytes (bs : List Byte) (m : Mach) (l : Loc) (h : Memory.wf m.mem = true) :
    Memory.wf (writeBytes m l bs).mem = true := by
  obtain ⟨ws, hw⟩ := touch_mem m l bs.length
  exact wf_putBytes bs _ l (by rw [hw]; exact h)

theorem wf_writeNat (m : Mach) (l : Loc) (n x : Nat) (h : Memory.wf m.mem = true) :
    Memory.wf (writeNat m l n x).mem = true := wf_writeBytes _ m l h

theorem wf_makeIndet (m : Mach) (l : Loc) (n : Nat) (h : Memory.wf m.mem = true) :
    Memory.wf (makeIndet m l n).mem = true := by
  unfold makeIndet
  split <;> exact h

/-- Wiping a range keeps memory canonical. -/
theorem wf_wipeRange (m : Mach) (lo hi : Nat) (h : Memory.wf m.mem = true) :
    Memory.wf (wipeRange m lo hi).mem = true := wf_filter m.mem _ h

/-- Memory right after reset is canonical. -/
theorem wf_reset : Memory.wf State.reset.m.mem = true := rfl

theorem putBytes_nil (m : Mach) (l : Loc) : putBytes m l [] = m := rfl

theorem putBytes_cons (m : Mach) (l : Loc) (b : Byte) (bs : List Byte) :
    putBytes m l (b :: bs) = putBytes (writeByte m l b) (l.plus 1) bs := rfl

/-- A store puts its bytes, in a machine that differs only in what fetches may still see. -/
theorem writeBytes_put (m : Mach) (l : Loc) (bs : List Byte) :
    ∃ ws, writeBytes m l bs = putBytes { m with touched := ws } l bs :=
  (touch_mem m l bs.length).imp fun _ h => by rw [writeBytes, h]

theorem length_readBytes (n : Nat) (m : Mach) (l : Loc) : (readBytes m l n).length = n := by
  induction n generalizing l with
  | zero => rfl
  | succ n ih => simp [readBytes, ih]

/-- What a byte reads as depends on the groups only through their live log areas. -/
theorem readByte_setGrp (m : Mach) (k : Nat) (g x : Group) (l : Loc) (hg : m.grp? k = some g) (hr : x.rgn = g.rgn)
    (hl : x.log = g.log) (ht : x.team = g.team) : readByte (m.setGrp k x) l = readByte m l := by
  have hlog : ∀ a, logAt (m.setGrp k x) a = logAt m a := by
    intro a
    unfold logAt
    exact aany_aput _ m.groups k g x hg (by simp only [Mach.setGrp, hr, hl, ht])
  have hring : ∀ a, ringAt (m.setGrp k x) a = ringAt m a := fun _ => rfl
  unfold readByte
  simp only [hlog, hring]
  rfl

/-- What a byte reads as depends neither on the cores nor, outside the live log areas, on the counter of free values. -/
theorem readByte_free (m : Mach) (cs : AMap Core) (fr : Nat) (l : Loc) (h : ∀ a, l = .spad a → logAt m a = false) :
    readByte { m with cores := cs, free := fr } l = readByte m l := by
  unfold readByte
  cases l with
  | spad a =>
    have h0 := h a rfl
    have h1 : logAt { m with cores := cs, free := fr } a = logAt m a := rfl
    have h2 : ringAt { m with cores := cs, free := fr } a = ringAt m a := rfl
    simp only [h1, h2, h0]
    rfl
  | _ => rfl

/-- What a log area holds depends on the groups only through their live logs. -/
theorem logAt_setGrp (m : Mach) (k : Nat) (g x : Group) (a : Nat) (hg : m.grp? k = some g) (hr : x.rgn = g.rgn)
    (hl : x.log = g.log) (ht : x.team = g.team) : logAt (m.setGrp k x) a = logAt m a := by
  unfold logAt
  exact aany_aput _ m.groups k g x hg (by simp only [Mach.setGrp, hr, hl, ht])

end Sys2Proof.Machine
end

