-- ==== Sys2Proof/Laws/State.lean ====
section
/-! SUPPORT. What each update of the state leaves as it is: one lemma per field per update. -/

namespace Sys2Proof.Machine

/-! setGrp -/

@[simp] theorem setGrp_mem (m : Mach) (k : Nat) (x : Group) : (m.setGrp k x).mem = m.mem := rfl
@[simp] theorem setGrp_indet (m : Mach) (k : Nat) (x : Group) : (m.setGrp k x).indet = m.indet := rfl
@[simp] theorem setGrp_cur (m : Mach) (k : Nat) (x : Group) : (m.setGrp k x).cur = m.cur := rfl
@[simp] theorem setGrp_free (m : Mach) (k : Nat) (x : Group) : (m.setGrp k x).free = m.free := rfl
@[simp] theorem setGrp_nextId (m : Mach) (k : Nat) (x : Group) : (m.setGrp k x).nextId = m.nextId := rfl
@[simp] theorem setGrp_teams (m : Mach) (k : Nat) (x : Group) : (m.setGrp k x).teams = m.teams := rfl
@[simp] theorem setGrp_slots (m : Mach) (k : Nat) (x : Group) : (m.setGrp k x).slots = m.slots := rfl
@[simp] theorem setGrp_kerns (m : Mach) (k : Nat) (x : Group) : (m.setGrp k x).kerns = m.kerns := rfl
@[simp] theorem setGrp_walks (m : Mach) (k : Nat) (x : Group) : (m.setGrp k x).walks = m.walks := rfl
@[simp] theorem setGrp_summons (m : Mach) (k : Nat) (x : Group) : (m.setGrp k x).summons = m.summons := rfl
@[simp] theorem setGrp_engines (m : Mach) (k : Nat) (x : Group) : (m.setGrp k x).engines = m.engines := rfl
@[simp] theorem setGrp_cores (m : Mach) (k : Nat) (x : Group) : (m.setGrp k x).cores = m.cores := rfl
@[simp] theorem setGrp_clusters (m : Mach) (k : Nat) (x : Group) : (m.setGrp k x).clusters = m.clusters := rfl
@[simp] theorem setGrp_dies (m : Mach) (k : Nat) (x : Group) : (m.setGrp k x).dies = m.dies := rfl
@[simp] theorem setGrp_ctxs (m : Mach) (k : Nat) (x : Group) : (m.setGrp k x).ctxs = m.ctxs := rfl
@[simp] theorem setGrp_root (m : Mach) (k : Nat) (x : Group) : (m.setGrp k x).root = m.root := rfl
@[simp] theorem setGrp_psts (m : Mach) (k : Nat) (x : Group) : (m.setGrp k x).psts = m.psts := rfl
@[simp] theorem setGrp_queues (m : Mach) (k : Nat) (x : Group) : (m.setGrp k x).queues = m.queues := rfl
@[simp] theorem setGrp_ports (m : Mach) (k : Nat) (x : Group) : (m.setGrp k x).ports = m.ports := rfl
@[simp] theorem setGrp_routes (m : Mach) (k : Nat) (x : Group) : (m.setGrp k x).routes = m.routes := rfl
@[simp] theorem setGrp_cps (m : Mach) (k : Nat) (x : Group) : (m.setGrp k x).cps = m.cps := rfl
@[simp] theorem setGrp_busy (m : Mach) (k : Nat) (x : Group) : (m.setGrp k x).busy = m.busy := rfl
@[simp] theorem setGrp_feat (m : Mach) (k : Nat) (x : Group) : (m.setGrp k x).feat = m.feat := rfl
@[simp] theorem setGrp_replies (m : Mach) (k : Nat) (x : Group) : (m.setGrp k x).replies = m.replies := rfl
@[simp] theorem setGrp_fjarul (m : Mach) (k : Nat) (x : Group) : (m.setGrp k x).fjarul = m.fjarul := rfl
@[simp] theorem setGrp_agenda (m : Mach) (k : Nat) (x : Group) : (m.setGrp k x).agenda = m.agenda := rfl
@[simp] theorem setGrp_touched (m : Mach) (k : Nat) (x : Group) : (m.setGrp k x).touched = m.touched := rfl
@[simp] theorem setGrp_flitBudget (m : Mach) (k : Nat) (x : Group) : (m.setGrp k x).flitBudget = m.flitBudget := rfl
@[simp] theorem setGrp_tileBudget (m : Mach) (k : Nat) (x : Group) : (m.setGrp k x).tileBudget = m.tileBudget := rfl

/-! setTeam -/

@[simp] theorem setTeam_mem (m : Mach) (k : Nat) (x : Team) : (m.setTeam k x).mem = m.mem := rfl
@[simp] theorem setTeam_indet (m : Mach) (k : Nat) (x : Team) : (m.setTeam k x).indet = m.indet := rfl
@[simp] theorem setTeam_cur (m : Mach) (k : Nat) (x : Team) : (m.setTeam k x).cur = m.cur := rfl
@[simp] theorem setTeam_free (m : Mach) (k : Nat) (x : Team) : (m.setTeam k x).free = m.free := rfl
@[simp] theorem setTeam_nextId (m : Mach) (k : Nat) (x : Team) : (m.setTeam k x).nextId = m.nextId := rfl
@[simp] theorem setTeam_groups (m : Mach) (k : Nat) (x : Team) : (m.setTeam k x).groups = m.groups := rfl
@[simp] theorem setTeam_slots (m : Mach) (k : Nat) (x : Team) : (m.setTeam k x).slots = m.slots := rfl
@[simp] theorem setTeam_kerns (m : Mach) (k : Nat) (x : Team) : (m.setTeam k x).kerns = m.kerns := rfl
@[simp] theorem setTeam_walks (m : Mach) (k : Nat) (x : Team) : (m.setTeam k x).walks = m.walks := rfl
@[simp] theorem setTeam_summons (m : Mach) (k : Nat) (x : Team) : (m.setTeam k x).summons = m.summons := rfl
@[simp] theorem setTeam_engines (m : Mach) (k : Nat) (x : Team) : (m.setTeam k x).engines = m.engines := rfl
@[simp] theorem setTeam_cores (m : Mach) (k : Nat) (x : Team) : (m.setTeam k x).cores = m.cores := rfl
@[simp] theorem setTeam_clusters (m : Mach) (k : Nat) (x : Team) : (m.setTeam k x).clusters = m.clusters := rfl
@[simp] theorem setTeam_dies (m : Mach) (k : Nat) (x : Team) : (m.setTeam k x).dies = m.dies := rfl
@[simp] theorem setTeam_ctxs (m : Mach) (k : Nat) (x : Team) : (m.setTeam k x).ctxs = m.ctxs := rfl
@[simp] theorem setTeam_root (m : Mach) (k : Nat) (x : Team) : (m.setTeam k x).root = m.root := rfl
@[simp] theorem setTeam_psts (m : Mach) (k : Nat) (x : Team) : (m.setTeam k x).psts = m.psts := rfl
@[simp] theorem setTeam_queues (m : Mach) (k : Nat) (x : Team) : (m.setTeam k x).queues = m.queues := rfl
@[simp] theorem setTeam_ports (m : Mach) (k : Nat) (x : Team) : (m.setTeam k x).ports = m.ports := rfl
@[simp] theorem setTeam_routes (m : Mach) (k : Nat) (x : Team) : (m.setTeam k x).routes = m.routes := rfl
@[simp] theorem setTeam_cps (m : Mach) (k : Nat) (x : Team) : (m.setTeam k x).cps = m.cps := rfl
@[simp] theorem setTeam_busy (m : Mach) (k : Nat) (x : Team) : (m.setTeam k x).busy = m.busy := rfl
@[simp] theorem setTeam_feat (m : Mach) (k : Nat) (x : Team) : (m.setTeam k x).feat = m.feat := rfl
@[simp] theorem setTeam_replies (m : Mach) (k : Nat) (x : Team) : (m.setTeam k x).replies = m.replies := rfl
@[simp] theorem setTeam_fjarul (m : Mach) (k : Nat) (x : Team) : (m.setTeam k x).fjarul = m.fjarul := rfl
@[simp] theorem setTeam_agenda (m : Mach) (k : Nat) (x : Team) : (m.setTeam k x).agenda = m.agenda := rfl
@[simp] theorem setTeam_touched (m : Mach) (k : Nat) (x : Team) : (m.setTeam k x).touched = m.touched := rfl
@[simp] theorem setTeam_flitBudget (m : Mach) (k : Nat) (x : Team) : (m.setTeam k x).flitBudget = m.flitBudget := rfl
@[simp] theorem setTeam_tileBudget (m : Mach) (k : Nat) (x : Team) : (m.setTeam k x).tileBudget = m.tileBudget := rfl

/-! setKern -/

@[simp] theorem setKern_mem (m : Mach) (k : Nat) (x : Kernel) : (m.setKern k x).mem = m.mem := rfl
@[simp] theorem setKern_indet (m : Mach) (k : Nat) (x : Kernel) : (m.setKern k x).indet = m.indet := rfl
@[simp] theorem setKern_cur (m : Mach) (k : Nat) (x : Kernel) : (m.setKern k x).cur = m.cur := rfl
@[simp] theorem setKern_free (m : Mach) (k : Nat) (x : Kernel) : (m.setKern k x).free = m.free := rfl
@[simp] theorem setKern_nextId (m : Mach) (k : Nat) (x : Kernel) : (m.setKern k x).nextId = m.nextId := rfl
@[simp] theorem setKern_groups (m : Mach) (k : Nat) (x : Kernel) : (m.setKern k x).groups = m.groups := rfl
@[simp] theorem setKern_teams (m : Mach) (k : Nat) (x : Kernel) : (m.setKern k x).teams = m.teams := rfl
@[simp] theorem setKern_slots (m : Mach) (k : Nat) (x : Kernel) : (m.setKern k x).slots = m.slots := rfl
@[simp] theorem setKern_walks (m : Mach) (k : Nat) (x : Kernel) : (m.setKern k x).walks = m.walks := rfl
@[simp] theorem setKern_summons (m : Mach) (k : Nat) (x : Kernel) : (m.setKern k x).summons = m.summons := rfl
@[simp] theorem setKern_engines (m : Mach) (k : Nat) (x : Kernel) : (m.setKern k x).engines = m.engines := rfl
@[simp] theorem setKern_cores (m : Mach) (k : Nat) (x : Kernel) : (m.setKern k x).cores = m.cores := rfl
@[simp] theorem setKern_clusters (m : Mach) (k : Nat) (x : Kernel) : (m.setKern k x).clusters = m.clusters := rfl
@[simp] theorem setKern_dies (m : Mach) (k : Nat) (x : Kernel) : (m.setKern k x).dies = m.dies := rfl
@[simp] theorem setKern_ctxs (m : Mach) (k : Nat) (x : Kernel) : (m.setKern k x).ctxs = m.ctxs := rfl
@[simp] theorem setKern_root (m : Mach) (k : Nat) (x : Kernel) : (m.setKern k x).root = m.root := rfl
@[simp] theorem setKern_psts (m : Mach) (k : Nat) (x : Kernel) : (m.setKern k x).psts = m.psts := rfl
@[simp] theorem setKern_queues (m : Mach) (k : Nat) (x : Kernel) : (m.setKern k x).queues = m.queues := rfl
@[simp] theorem setKern_ports (m : Mach) (k : Nat) (x : Kernel) : (m.setKern k x).ports = m.ports := rfl
@[simp] theorem setKern_routes (m : Mach) (k : Nat) (x : Kernel) : (m.setKern k x).routes = m.routes := rfl
@[simp] theorem setKern_cps (m : Mach) (k : Nat) (x : Kernel) : (m.setKern k x).cps = m.cps := rfl
@[simp] theorem setKern_busy (m : Mach) (k : Nat) (x : Kernel) : (m.setKern k x).busy = m.busy := rfl
@[simp] theorem setKern_feat (m : Mach) (k : Nat) (x : Kernel) : (m.setKern k x).feat = m.feat := rfl
@[simp] theorem setKern_replies (m : Mach) (k : Nat) (x : Kernel) : (m.setKern k x).replies = m.replies := rfl
@[simp] theorem setKern_fjarul (m : Mach) (k : Nat) (x : Kernel) : (m.setKern k x).fjarul = m.fjarul := rfl
@[simp] theorem setKern_agenda (m : Mach) (k : Nat) (x : Kernel) : (m.setKern k x).agenda = m.agenda := rfl
@[simp] theorem setKern_touched (m : Mach) (k : Nat) (x : Kernel) : (m.setKern k x).touched = m.touched := rfl
@[simp] theorem setKern_flitBudget (m : Mach) (k : Nat) (x : Kernel) : (m.setKern k x).flitBudget = m.flitBudget := rfl
@[simp] theorem setKern_tileBudget (m : Mach) (k : Nat) (x : Kernel) : (m.setKern k x).tileBudget = m.tileBudget := rfl

/-! setWalk -/

@[simp] theorem setWalk_mem (m : Mach) (k : Nat) (x : Walk) : (m.setWalk k x).mem = m.mem := rfl
@[simp] theorem setWalk_indet (m : Mach) (k : Nat) (x : Walk) : (m.setWalk k x).indet = m.indet := rfl
@[simp] theorem setWalk_cur (m : Mach) (k : Nat) (x : Walk) : (m.setWalk k x).cur = m.cur := rfl
@[simp] theorem setWalk_free (m : Mach) (k : Nat) (x : Walk) : (m.setWalk k x).free = m.free := rfl
@[simp] theorem setWalk_nextId (m : Mach) (k : Nat) (x : Walk) : (m.setWalk k x).nextId = m.nextId := rfl
@[simp] theorem setWalk_groups (m : Mach) (k : Nat) (x : Walk) : (m.setWalk k x).groups = m.groups := rfl
@[simp] theorem setWalk_teams (m : Mach) (k : Nat) (x : Walk) : (m.setWalk k x).teams = m.teams := rfl
@[simp] theorem setWalk_slots (m : Mach) (k : Nat) (x : Walk) : (m.setWalk k x).slots = m.slots := rfl
@[simp] theorem setWalk_kerns (m : Mach) (k : Nat) (x : Walk) : (m.setWalk k x).kerns = m.kerns := rfl
@[simp] theorem setWalk_summons (m : Mach) (k : Nat) (x : Walk) : (m.setWalk k x).summons = m.summons := rfl
@[simp] theorem setWalk_engines (m : Mach) (k : Nat) (x : Walk) : (m.setWalk k x).engines = m.engines := rfl
@[simp] theorem setWalk_cores (m : Mach) (k : Nat) (x : Walk) : (m.setWalk k x).cores = m.cores := rfl
@[simp] theorem setWalk_clusters (m : Mach) (k : Nat) (x : Walk) : (m.setWalk k x).clusters = m.clusters := rfl
@[simp] theorem setWalk_dies (m : Mach) (k : Nat) (x : Walk) : (m.setWalk k x).dies = m.dies := rfl
@[simp] theorem setWalk_ctxs (m : Mach) (k : Nat) (x : Walk) : (m.setWalk k x).ctxs = m.ctxs := rfl
@[simp] theorem setWalk_root (m : Mach) (k : Nat) (x : Walk) : (m.setWalk k x).root = m.root := rfl
@[simp] theorem setWalk_psts (m : Mach) (k : Nat) (x : Walk) : (m.setWalk k x).psts = m.psts := rfl
@[simp] theorem setWalk_queues (m : Mach) (k : Nat) (x : Walk) : (m.setWalk k x).queues = m.queues := rfl
@[simp] theorem setWalk_ports (m : Mach) (k : Nat) (x : Walk) : (m.setWalk k x).ports = m.ports := rfl
@[simp] theorem setWalk_routes (m : Mach) (k : Nat) (x : Walk) : (m.setWalk k x).routes = m.routes := rfl
@[simp] theorem setWalk_cps (m : Mach) (k : Nat) (x : Walk) : (m.setWalk k x).cps = m.cps := rfl
@[simp] theorem setWalk_busy (m : Mach) (k : Nat) (x : Walk) : (m.setWalk k x).busy = m.busy := rfl
@[simp] theorem setWalk_feat (m : Mach) (k : Nat) (x : Walk) : (m.setWalk k x).feat = m.feat := rfl
@[simp] theorem setWalk_replies (m : Mach) (k : Nat) (x : Walk) : (m.setWalk k x).replies = m.replies := rfl
@[simp] theorem setWalk_fjarul (m : Mach) (k : Nat) (x : Walk) : (m.setWalk k x).fjarul = m.fjarul := rfl
@[simp] theorem setWalk_agenda (m : Mach) (k : Nat) (x : Walk) : (m.setWalk k x).agenda = m.agenda := rfl
@[simp] theorem setWalk_touched (m : Mach) (k : Nat) (x : Walk) : (m.setWalk k x).touched = m.touched := rfl
@[simp] theorem setWalk_flitBudget (m : Mach) (k : Nat) (x : Walk) : (m.setWalk k x).flitBudget = m.flitBudget := rfl
@[simp] theorem setWalk_tileBudget (m : Mach) (k : Nat) (x : Walk) : (m.setWalk k x).tileBudget = m.tileBudget := rfl

/-! setEngine -/

@[simp] theorem setEngine_mem (m : Mach) (k : Nat) (x : Engine) : (m.setEngine k x).mem = m.mem := rfl
@[simp] theorem setEngine_indet (m : Mach) (k : Nat) (x : Engine) : (m.setEngine k x).indet = m.indet := rfl
@[simp] theorem setEngine_cur (m : Mach) (k : Nat) (x : Engine) : (m.setEngine k x).cur = m.cur := rfl
@[simp] theorem setEngine_free (m : Mach) (k : Nat) (x : Engine) : (m.setEngine k x).free = m.free := rfl
@[simp] theorem setEngine_nextId (m : Mach) (k : Nat) (x : Engine) : (m.setEngine k x).nextId = m.nextId := rfl
@[simp] theorem setEngine_groups (m : Mach) (k : Nat) (x : Engine) : (m.setEngine k x).groups = m.groups := rfl
@[simp] theorem setEngine_teams (m : Mach) (k : Nat) (x : Engine) : (m.setEngine k x).teams = m.teams := rfl
@[simp] theorem setEngine_slots (m : Mach) (k : Nat) (x : Engine) : (m.setEngine k x).slots = m.slots := rfl
@[simp] theorem setEngine_kerns (m : Mach) (k : Nat) (x : Engine) : (m.setEngine k x).kerns = m.kerns := rfl
@[simp] theorem setEngine_walks (m : Mach) (k : Nat) (x : Engine) : (m.setEngine k x).walks = m.walks := rfl
@[simp] theorem setEngine_summons (m : Mach) (k : Nat) (x : Engine) : (m.setEngine k x).summons = m.summons := rfl
@[simp] theorem setEngine_cores (m : Mach) (k : Nat) (x : Engine) : (m.setEngine k x).cores = m.cores := rfl
@[simp] theorem setEngine_clusters (m : Mach) (k : Nat) (x : Engine) : (m.setEngine k x).clusters = m.clusters := rfl
@[simp] theorem setEngine_dies (m : Mach) (k : Nat) (x : Engine) : (m.setEngine k x).dies = m.dies := rfl
@[simp] theorem setEngine_ctxs (m : Mach) (k : Nat) (x : Engine) : (m.setEngine k x).ctxs = m.ctxs := rfl
@[simp] theorem setEngine_root (m : Mach) (k : Nat) (x : Engine) : (m.setEngine k x).root = m.root := rfl
@[simp] theorem setEngine_psts (m : Mach) (k : Nat) (x : Engine) : (m.setEngine k x).psts = m.psts := rfl
@[simp] theorem setEngine_queues (m : Mach) (k : Nat) (x : Engine) : (m.setEngine k x).queues = m.queues := rfl
@[simp] theorem setEngine_ports (m : Mach) (k : Nat) (x : Engine) : (m.setEngine k x).ports = m.ports := rfl
@[simp] theorem setEngine_routes (m : Mach) (k : Nat) (x : Engine) : (m.setEngine k x).routes = m.routes := rfl
@[simp] theorem setEngine_cps (m : Mach) (k : Nat) (x : Engine) : (m.setEngine k x).cps = m.cps := rfl
@[simp] theorem setEngine_busy (m : Mach) (k : Nat) (x : Engine) : (m.setEngine k x).busy = m.busy := rfl
@[simp] theorem setEngine_feat (m : Mach) (k : Nat) (x : Engine) : (m.setEngine k x).feat = m.feat := rfl
@[simp] theorem setEngine_replies (m : Mach) (k : Nat) (x : Engine) : (m.setEngine k x).replies = m.replies := rfl
@[simp] theorem setEngine_fjarul (m : Mach) (k : Nat) (x : Engine) : (m.setEngine k x).fjarul = m.fjarul := rfl
@[simp] theorem setEngine_agenda (m : Mach) (k : Nat) (x : Engine) : (m.setEngine k x).agenda = m.agenda := rfl
@[simp] theorem setEngine_touched (m : Mach) (k : Nat) (x : Engine) : (m.setEngine k x).touched = m.touched := rfl
@[simp] theorem setEngine_flitBudget (m : Mach) (k : Nat) (x : Engine) : (m.setEngine k x).flitBudget = m.flitBudget := rfl
@[simp] theorem setEngine_tileBudget (m : Mach) (k : Nat) (x : Engine) : (m.setEngine k x).tileBudget = m.tileBudget := rfl

/-! setCore -/

@[simp] theorem setCore_mem (m : Mach) (k : Nat) (x : Core) : (m.setCore k x).mem = m.mem := rfl
@[simp] theorem setCore_indet (m : Mach) (k : Nat) (x : Core) : (m.setCore k x).indet = m.indet := rfl
@[simp] theorem setCore_cur (m : Mach) (k : Nat) (x : Core) : (m.setCore k x).cur = m.cur := rfl
@[simp] theorem setCore_free (m : Mach) (k : Nat) (x : Core) : (m.setCore k x).free = m.free := rfl
@[simp] theorem setCore_nextId (m : Mach) (k : Nat) (x : Core) : (m.setCore k x).nextId = m.nextId := rfl
@[simp] theorem setCore_groups (m : Mach) (k : Nat) (x : Core) : (m.setCore k x).groups = m.groups := rfl
@[simp] theorem setCore_teams (m : Mach) (k : Nat) (x : Core) : (m.setCore k x).teams = m.teams := rfl
@[simp] theorem setCore_slots (m : Mach) (k : Nat) (x : Core) : (m.setCore k x).slots = m.slots := rfl
@[simp] theorem setCore_kerns (m : Mach) (k : Nat) (x : Core) : (m.setCore k x).kerns = m.kerns := rfl
@[simp] theorem setCore_walks (m : Mach) (k : Nat) (x : Core) : (m.setCore k x).walks = m.walks := rfl
@[simp] theorem setCore_summons (m : Mach) (k : Nat) (x : Core) : (m.setCore k x).summons = m.summons := rfl
@[simp] theorem setCore_engines (m : Mach) (k : Nat) (x : Core) : (m.setCore k x).engines = m.engines := rfl
@[simp] theorem setCore_clusters (m : Mach) (k : Nat) (x : Core) : (m.setCore k x).clusters = m.clusters := rfl
@[simp] theorem setCore_dies (m : Mach) (k : Nat) (x : Core) : (m.setCore k x).dies = m.dies := rfl
@[simp] theorem setCore_ctxs (m : Mach) (k : Nat) (x : Core) : (m.setCore k x).ctxs = m.ctxs := rfl
@[simp] theorem setCore_root (m : Mach) (k : Nat) (x : Core) : (m.setCore k x).root = m.root := rfl
@[simp] theorem setCore_psts (m : Mach) (k : Nat) (x : Core) : (m.setCore k x).psts = m.psts := rfl
@[simp] theorem setCore_queues (m : Mach) (k : Nat) (x : Core) : (m.setCore k x).queues = m.queues := rfl
@[simp] theorem setCore_ports (m : Mach) (k : Nat) (x : Core) : (m.setCore k x).ports = m.ports := rfl
@[simp] theorem setCore_routes (m : Mach) (k : Nat) (x : Core) : (m.setCore k x).routes = m.routes := rfl
@[simp] theorem setCore_cps (m : Mach) (k : Nat) (x : Core) : (m.setCore k x).cps = m.cps := rfl
@[simp] theorem setCore_busy (m : Mach) (k : Nat) (x : Core) : (m.setCore k x).busy = m.busy := rfl
@[simp] theorem setCore_feat (m : Mach) (k : Nat) (x : Core) : (m.setCore k x).feat = m.feat := rfl
@[simp] theorem setCore_replies (m : Mach) (k : Nat) (x : Core) : (m.setCore k x).replies = m.replies := rfl
@[simp] theorem setCore_fjarul (m : Mach) (k : Nat) (x : Core) : (m.setCore k x).fjarul = m.fjarul := rfl
@[simp] theorem setCore_agenda (m : Mach) (k : Nat) (x : Core) : (m.setCore k x).agenda = m.agenda := rfl
@[simp] theorem setCore_touched (m : Mach) (k : Nat) (x : Core) : (m.setCore k x).touched = m.touched := rfl
@[simp] theorem setCore_flitBudget (m : Mach) (k : Nat) (x : Core) : (m.setCore k x).flitBudget = m.flitBudget := rfl
@[simp] theorem setCore_tileBudget (m : Mach) (k : Nat) (x : Core) : (m.setCore k x).tileBudget = m.tileBudget := rfl

/-! setCluster -/

@[simp] theorem setCluster_mem (m : Mach) (k : Nat) (x : Cluster) : (m.setCluster k x).mem = m.mem := rfl
@[simp] theorem setCluster_indet (m : Mach) (k : Nat) (x : Cluster) : (m.setCluster k x).indet = m.indet := rfl
@[simp] theorem setCluster_cur (m : Mach) (k : Nat) (x : Cluster) : (m.setCluster k x).cur = m.cur := rfl
@[simp] theorem setCluster_free (m : Mach) (k : Nat) (x : Cluster) : (m.setCluster k x).free = m.free := rfl
@[simp] theorem setCluster_nextId (m : Mach) (k : Nat) (x : Cluster) : (m.setCluster k x).nextId = m.nextId := rfl
@[simp] theorem setCluster_groups (m : Mach) (k : Nat) (x : Cluster) : (m.setCluster k x).groups = m.groups := rfl
@[simp] theorem setCluster_teams (m : Mach) (k : Nat) (x : Cluster) : (m.setCluster k x).teams = m.teams := rfl
@[simp] theorem setCluster_slots (m : Mach) (k : Nat) (x : Cluster) : (m.setCluster k x).slots = m.slots := rfl
@[simp] theorem setCluster_kerns (m : Mach) (k : Nat) (x : Cluster) : (m.setCluster k x).kerns = m.kerns := rfl
@[simp] theorem setCluster_walks (m : Mach) (k : Nat) (x : Cluster) : (m.setCluster k x).walks = m.walks := rfl
@[simp] theorem setCluster_summons (m : Mach) (k : Nat) (x : Cluster) : (m.setCluster k x).summons = m.summons := rfl
@[simp] theorem setCluster_engines (m : Mach) (k : Nat) (x : Cluster) : (m.setCluster k x).engines = m.engines := rfl
@[simp] theorem setCluster_cores (m : Mach) (k : Nat) (x : Cluster) : (m.setCluster k x).cores = m.cores := rfl
@[simp] theorem setCluster_dies (m : Mach) (k : Nat) (x : Cluster) : (m.setCluster k x).dies = m.dies := rfl
@[simp] theorem setCluster_ctxs (m : Mach) (k : Nat) (x : Cluster) : (m.setCluster k x).ctxs = m.ctxs := rfl
@[simp] theorem setCluster_root (m : Mach) (k : Nat) (x : Cluster) : (m.setCluster k x).root = m.root := rfl
@[simp] theorem setCluster_psts (m : Mach) (k : Nat) (x : Cluster) : (m.setCluster k x).psts = m.psts := rfl
@[simp] theorem setCluster_queues (m : Mach) (k : Nat) (x : Cluster) : (m.setCluster k x).queues = m.queues := rfl
@[simp] theorem setCluster_ports (m : Mach) (k : Nat) (x : Cluster) : (m.setCluster k x).ports = m.ports := rfl
@[simp] theorem setCluster_routes (m : Mach) (k : Nat) (x : Cluster) : (m.setCluster k x).routes = m.routes := rfl
@[simp] theorem setCluster_cps (m : Mach) (k : Nat) (x : Cluster) : (m.setCluster k x).cps = m.cps := rfl
@[simp] theorem setCluster_busy (m : Mach) (k : Nat) (x : Cluster) : (m.setCluster k x).busy = m.busy := rfl
@[simp] theorem setCluster_feat (m : Mach) (k : Nat) (x : Cluster) : (m.setCluster k x).feat = m.feat := rfl
@[simp] theorem setCluster_replies (m : Mach) (k : Nat) (x : Cluster) : (m.setCluster k x).replies = m.replies := rfl
@[simp] theorem setCluster_fjarul (m : Mach) (k : Nat) (x : Cluster) : (m.setCluster k x).fjarul = m.fjarul := rfl
@[simp] theorem setCluster_agenda (m : Mach) (k : Nat) (x : Cluster) : (m.setCluster k x).agenda = m.agenda := rfl
@[simp] theorem setCluster_touched (m : Mach) (k : Nat) (x : Cluster) : (m.setCluster k x).touched = m.touched := rfl
@[simp] theorem setCluster_flitBudget (m : Mach) (k : Nat) (x : Cluster) : (m.setCluster k x).flitBudget = m.flitBudget := rfl
@[simp] theorem setCluster_tileBudget (m : Mach) (k : Nat) (x : Cluster) : (m.setCluster k x).tileBudget = m.tileBudget := rfl

/-! setDie -/

@[simp] theorem setDie_mem (m : Mach) (k : Nat) (x : Die) : (m.setDie k x).mem = m.mem := rfl
@[simp] theorem setDie_indet (m : Mach) (k : Nat) (x : Die) : (m.setDie k x).indet = m.indet := rfl
@[simp] theorem setDie_cur (m : Mach) (k : Nat) (x : Die) : (m.setDie k x).cur = m.cur := rfl
@[simp] theorem setDie_free (m : Mach) (k : Nat) (x : Die) : (m.setDie k x).free = m.free := rfl
@[simp] theorem setDie_nextId (m : Mach) (k : Nat) (x : Die) : (m.setDie k x).nextId = m.nextId := rfl
@[simp] theorem setDie_groups (m : Mach) (k : Nat) (x : Die) : (m.setDie k x).groups = m.groups := rfl
@[simp] theorem setDie_teams (m : Mach) (k : Nat) (x : Die) : (m.setDie k x).teams = m.teams := rfl
@[simp] theorem setDie_slots (m : Mach) (k : Nat) (x : Die) : (m.setDie k x).slots = m.slots := rfl
@[simp] theorem setDie_kerns (m : Mach) (k : Nat) (x : Die) : (m.setDie k x).kerns = m.kerns := rfl
@[simp] theorem setDie_walks (m : Mach) (k : Nat) (x : Die) : (m.setDie k x).walks = m.walks := rfl
@[simp] theorem setDie_summons (m : Mach) (k : Nat) (x : Die) : (m.setDie k x).summons = m.summons := rfl
@[simp] theorem setDie_engines (m : Mach) (k : Nat) (x : Die) : (m.setDie k x).engines = m.engines := rfl
@[simp] theorem setDie_cores (m : Mach) (k : Nat) (x : Die) : (m.setDie k x).cores = m.cores := rfl
@[simp] theorem setDie_clusters (m : Mach) (k : Nat) (x : Die) : (m.setDie k x).clusters = m.clusters := rfl
@[simp] theorem setDie_ctxs (m : Mach) (k : Nat) (x : Die) : (m.setDie k x).ctxs = m.ctxs := rfl
@[simp] theorem setDie_root (m : Mach) (k : Nat) (x : Die) : (m.setDie k x).root = m.root := rfl
@[simp] theorem setDie_psts (m : Mach) (k : Nat) (x : Die) : (m.setDie k x).psts = m.psts := rfl
@[simp] theorem setDie_queues (m : Mach) (k : Nat) (x : Die) : (m.setDie k x).queues = m.queues := rfl
@[simp] theorem setDie_ports (m : Mach) (k : Nat) (x : Die) : (m.setDie k x).ports = m.ports := rfl
@[simp] theorem setDie_routes (m : Mach) (k : Nat) (x : Die) : (m.setDie k x).routes = m.routes := rfl
@[simp] theorem setDie_cps (m : Mach) (k : Nat) (x : Die) : (m.setDie k x).cps = m.cps := rfl
@[simp] theorem setDie_busy (m : Mach) (k : Nat) (x : Die) : (m.setDie k x).busy = m.busy := rfl
@[simp] theorem setDie_feat (m : Mach) (k : Nat) (x : Die) : (m.setDie k x).feat = m.feat := rfl
@[simp] theorem setDie_replies (m : Mach) (k : Nat) (x : Die) : (m.setDie k x).replies = m.replies := rfl
@[simp] theorem setDie_fjarul (m : Mach) (k : Nat) (x : Die) : (m.setDie k x).fjarul = m.fjarul := rfl
@[simp] theorem setDie_agenda (m : Mach) (k : Nat) (x : Die) : (m.setDie k x).agenda = m.agenda := rfl
@[simp] theorem setDie_touched (m : Mach) (k : Nat) (x : Die) : (m.setDie k x).touched = m.touched := rfl
@[simp] theorem setDie_flitBudget (m : Mach) (k : Nat) (x : Die) : (m.setDie k x).flitBudget = m.flitBudget := rfl
@[simp] theorem setDie_tileBudget (m : Mach) (k : Nat) (x : Die) : (m.setDie k x).tileBudget = m.tileBudget := rfl

/-! setCtx -/

@[simp] theorem setCtx_mem (m : Mach) (k : Nat) (x : Context) : (m.setCtx k x).mem = m.mem := rfl
@[simp] theorem setCtx_indet (m : Mach) (k : Nat) (x : Context) : (m.setCtx k x).indet = m.indet := rfl
@[simp] theorem setCtx_cur (m : Mach) (k : Nat) (x : Context) : (m.setCtx k x).cur = m.cur := rfl
@[simp] theorem setCtx_free (m : Mach) (k : Nat) (x : Context) : (m.setCtx k x).free = m.free := rfl
@[simp] theorem setCtx_nextId (m : Mach) (k : Nat) (x : Context) : (m.setCtx k x).nextId = m.nextId := rfl
@[simp] theorem setCtx_groups (m : Mach) (k : Nat) (x : Context) : (m.setCtx k x).groups = m.groups := rfl
@[simp] theorem setCtx_teams (m : Mach) (k : Nat) (x : Context) : (m.setCtx k x).teams = m.teams := rfl
@[simp] theorem setCtx_slots (m : Mach) (k : Nat) (x : Context) : (m.setCtx k x).slots = m.slots := rfl
@[simp] theorem setCtx_kerns (m : Mach) (k : Nat) (x : Context) : (m.setCtx k x).kerns = m.kerns := rfl
@[simp] theorem setCtx_walks (m : Mach) (k : Nat) (x : Context) : (m.setCtx k x).walks = m.walks := rfl
@[simp] theorem setCtx_summons (m : Mach) (k : Nat) (x : Context) : (m.setCtx k x).summons = m.summons := rfl
@[simp] theorem setCtx_engines (m : Mach) (k : Nat) (x : Context) : (m.setCtx k x).engines = m.engines := rfl
@[simp] theorem setCtx_cores (m : Mach) (k : Nat) (x : Context) : (m.setCtx k x).cores = m.cores := rfl
@[simp] theorem setCtx_clusters (m : Mach) (k : Nat) (x : Context) : (m.setCtx k x).clusters = m.clusters := rfl
@[simp] theorem setCtx_dies (m : Mach) (k : Nat) (x : Context) : (m.setCtx k x).dies = m.dies := rfl
@[simp] theorem setCtx_root (m : Mach) (k : Nat) (x : Context) : (m.setCtx k x).root = m.root := rfl
@[simp] theorem setCtx_psts (m : Mach) (k : Nat) (x : Context) : (m.setCtx k x).psts = m.psts := rfl
@[simp] theorem setCtx_queues (m : Mach) (k : Nat) (x : Context) : (m.setCtx k x).queues = m.queues := rfl
@[simp] theorem setCtx_ports (m : Mach) (k : Nat) (x : Context) : (m.setCtx k x).ports = m.ports := rfl
@[simp] theorem setCtx_routes (m : Mach) (k : Nat) (x : Context) : (m.setCtx k x).routes = m.routes := rfl
@[simp] theorem setCtx_cps (m : Mach) (k : Nat) (x : Context) : (m.setCtx k x).cps = m.cps := rfl
@[simp] theorem setCtx_busy (m : Mach) (k : Nat) (x : Context) : (m.setCtx k x).busy = m.busy := rfl
@[simp] theorem setCtx_feat (m : Mach) (k : Nat) (x : Context) : (m.setCtx k x).feat = m.feat := rfl
@[simp] theorem setCtx_replies (m : Mach) (k : Nat) (x : Context) : (m.setCtx k x).replies = m.replies := rfl
@[simp] theorem setCtx_fjarul (m : Mach) (k : Nat) (x : Context) : (m.setCtx k x).fjarul = m.fjarul := rfl
@[simp] theorem setCtx_agenda (m : Mach) (k : Nat) (x : Context) : (m.setCtx k x).agenda = m.agenda := rfl
@[simp] theorem setCtx_touched (m : Mach) (k : Nat) (x : Context) : (m.setCtx k x).touched = m.touched := rfl
@[simp] theorem setCtx_flitBudget (m : Mach) (k : Nat) (x : Context) : (m.setCtx k x).flitBudget = m.flitBudget := rfl
@[simp] theorem setCtx_tileBudget (m : Mach) (k : Nat) (x : Context) : (m.setCtx k x).tileBudget = m.tileBudget := rfl

/-! setQueue -/

@[simp] theorem setQueue_mem (m : Mach) (k : Nat) (x : Queue) : (m.setQueue k x).mem = m.mem := rfl
@[simp] theorem setQueue_indet (m : Mach) (k : Nat) (x : Queue) : (m.setQueue k x).indet = m.indet := rfl
@[simp] theorem setQueue_cur (m : Mach) (k : Nat) (x : Queue) : (m.setQueue k x).cur = m.cur := rfl
@[simp] theorem setQueue_free (m : Mach) (k : Nat) (x : Queue) : (m.setQueue k x).free = m.free := rfl
@[simp] theorem setQueue_nextId (m : Mach) (k : Nat) (x : Queue) : (m.setQueue k x).nextId = m.nextId := rfl
@[simp] theorem setQueue_groups (m : Mach) (k : Nat) (x : Queue) : (m.setQueue k x).groups = m.groups := rfl
@[simp] theorem setQueue_teams (m : Mach) (k : Nat) (x : Queue) : (m.setQueue k x).teams = m.teams := rfl
@[simp] theorem setQueue_slots (m : Mach) (k : Nat) (x : Queue) : (m.setQueue k x).slots = m.slots := rfl
@[simp] theorem setQueue_kerns (m : Mach) (k : Nat) (x : Queue) : (m.setQueue k x).kerns = m.kerns := rfl
@[simp] theorem setQueue_walks (m : Mach) (k : Nat) (x : Queue) : (m.setQueue k x).walks = m.walks := rfl
@[simp] theorem setQueue_summons (m : Mach) (k : Nat) (x : Queue) : (m.setQueue k x).summons = m.summons := rfl
@[simp] theorem setQueue_engines (m : Mach) (k : Nat) (x : Queue) : (m.setQueue k x).engines = m.engines := rfl
@[simp] theorem setQueue_cores (m : Mach) (k : Nat) (x : Queue) : (m.setQueue k x).cores = m.cores := rfl
@[simp] theorem setQueue_clusters (m : Mach) (k : Nat) (x : Queue) : (m.setQueue k x).clusters = m.clusters := rfl
@[simp] theorem setQueue_dies (m : Mach) (k : Nat) (x : Queue) : (m.setQueue k x).dies = m.dies := rfl
@[simp] theorem setQueue_ctxs (m : Mach) (k : Nat) (x : Queue) : (m.setQueue k x).ctxs = m.ctxs := rfl
@[simp] theorem setQueue_root (m : Mach) (k : Nat) (x : Queue) : (m.setQueue k x).root = m.root := rfl
@[simp] theorem setQueue_psts (m : Mach) (k : Nat) (x : Queue) : (m.setQueue k x).psts = m.psts := rfl
@[simp] theorem setQueue_ports (m : Mach) (k : Nat) (x : Queue) : (m.setQueue k x).ports = m.ports := rfl
@[simp] theorem setQueue_routes (m : Mach) (k : Nat) (x : Queue) : (m.setQueue k x).routes = m.routes := rfl
@[simp] theorem setQueue_cps (m : Mach) (k : Nat) (x : Queue) : (m.setQueue k x).cps = m.cps := rfl
@[simp] theorem setQueue_busy (m : Mach) (k : Nat) (x : Queue) : (m.setQueue k x).busy = m.busy := rfl
@[simp] theorem setQueue_feat (m : Mach) (k : Nat) (x : Queue) : (m.setQueue k x).feat = m.feat := rfl
@[simp] theorem setQueue_replies (m : Mach) (k : Nat) (x : Queue) : (m.setQueue k x).replies = m.replies := rfl
@[simp] theorem setQueue_fjarul (m : Mach) (k : Nat) (x : Queue) : (m.setQueue k x).fjarul = m.fjarul := rfl
@[simp] theorem setQueue_agenda (m : Mach) (k : Nat) (x : Queue) : (m.setQueue k x).agenda = m.agenda := rfl
@[simp] theorem setQueue_touched (m : Mach) (k : Nat) (x : Queue) : (m.setQueue k x).touched = m.touched := rfl
@[simp] theorem setQueue_flitBudget (m : Mach) (k : Nat) (x : Queue) : (m.setQueue k x).flitBudget = m.flitBudget := rfl
@[simp] theorem setQueue_tileBudget (m : Mach) (k : Nat) (x : Queue) : (m.setQueue k x).tileBudget = m.tileBudget := rfl

/-! bump -/

@[simp] theorem bump_mem (m : Mach) : (m.bump).mem = m.mem := rfl
@[simp] theorem bump_indet (m : Mach) : (m.bump).indet = m.indet := rfl
@[simp] theorem bump_cur (m : Mach) : (m.bump).cur = m.cur := rfl
@[simp] theorem bump_nextId (m : Mach) : (m.bump).nextId = m.nextId := rfl
@[simp] theorem bump_groups (m : Mach) : (m.bump).groups = m.groups := rfl
@[simp] theorem bump_teams (m : Mach) : (m.bump).teams = m.teams := rfl
@[simp] theorem bump_slots (m : Mach) : (m.bump).slots = m.slots := rfl
@[simp] theorem bump_kerns (m : Mach) : (m.bump).kerns = m.kerns := rfl
@[simp] theorem bump_walks (m : Mach) : (m.bump).walks = m.walks := rfl
@[simp] theorem bump_summons (m : Mach) : (m.bump).summons = m.summons := rfl
@[simp] theorem bump_engines (m : Mach) : (m.bump).engines = m.engines := rfl
@[simp] theorem bump_cores (m : Mach) : (m.bump).cores = m.cores := rfl
@[simp] theorem bump_clusters (m : Mach) : (m.bump).clusters = m.clusters := rfl
@[simp] theorem bump_dies (m : Mach) : (m.bump).dies = m.dies := rfl
@[simp] theorem bump_ctxs (m : Mach) : (m.bump).ctxs = m.ctxs := rfl
@[simp] theorem bump_root (m : Mach) : (m.bump).root = m.root := rfl
@[simp] theorem bump_psts (m : Mach) : (m.bump).psts = m.psts := rfl
@[simp] theorem bump_queues (m : Mach) : (m.bump).queues = m.queues := rfl
@[simp] theorem bump_ports (m : Mach) : (m.bump).ports = m.ports := rfl
@[simp] theorem bump_routes (m : Mach) : (m.bump).routes = m.routes := rfl
@[simp] theorem bump_cps (m : Mach) : (m.bump).cps = m.cps := rfl
@[simp] theorem bump_busy (m : Mach) : (m.bump).busy = m.busy := rfl
@[simp] theorem bump_feat (m : Mach) : (m.bump).feat = m.feat := rfl
@[simp] theorem bump_replies (m : Mach) : (m.bump).replies = m.replies := rfl
@[simp] theorem bump_fjarul (m : Mach) : (m.bump).fjarul = m.fjarul := rfl
@[simp] theorem bump_agenda (m : Mach) : (m.bump).agenda = m.agenda := rfl
@[simp] theorem bump_touched (m : Mach) : (m.bump).touched = m.touched := rfl
@[simp] theorem bump_flitBudget (m : Mach) : (m.bump).flitBudget = m.flitBudget := rfl
@[simp] theorem bump_tileBudget (m : Mach) : (m.bump).tileBudget = m.tileBudget := rfl

/-! setPort -/

@[simp] theorem setPort_mem (m : Mach) (k : Nat) (f : Port → Port) : (setPort m k f).mem = m.mem := rfl
@[simp] theorem setPort_indet (m : Mach) (k : Nat) (f : Port → Port) : (setPort m k f).indet = m.indet := rfl
@[simp] theorem setPort_cur (m : Mach) (k : Nat) (f : Port → Port) : (setPort m k f).cur = m.cur := rfl
@[simp] theorem setPort_free (m : Mach) (k : Nat) (f : Port → Port) : (setPort m k f).free = m.free := rfl
@[simp] theorem setPort_nextId (m : Mach) (k : Nat) (f : Port → Port) : (setPort m k f).nextId = m.nextId := rfl
@[simp] theorem setPort_groups (m : Mach) (k : Nat) (f : Port → Port) : (setPort m k f).groups = m.groups := rfl
@[simp] theorem setPort_teams (m : Mach) (k : Nat) (f : Port → Port) : (setPort m k f).teams = m.teams := rfl
@[simp] theorem setPort_slots (m : Mach) (k : Nat) (f : Port → Port) : (setPort m k f).slots = m.slots := rfl
@[simp] theorem setPort_kerns (m : Mach) (k : Nat) (f : Port → Port) : (setPort m k f).kerns = m.kerns := rfl
@[simp] theorem setPort_walks (m : Mach) (k : Nat) (f : Port → Port) : (setPort m k f).walks = m.walks := rfl
@[simp] theorem setPort_summons (m : Mach) (k : Nat) (f : Port → Port) : (setPort m k f).summons = m.summons := rfl
@[simp] theorem setPort_engines (m : Mach) (k : Nat) (f : Port → Port) : (setPort m k f).engines = m.engines := rfl
@[simp] theorem setPort_cores (m : Mach) (k : Nat) (f : Port → Port) : (setPort m k f).cores = m.cores := rfl
@[simp] theorem setPort_clusters (m : Mach) (k : Nat) (f : Port → Port) : (setPort m k f).clusters = m.clusters := rfl
@[simp] theorem setPort_dies (m : Mach) (k : Nat) (f : Port → Port) : (setPort m k f).dies = m.dies := rfl
@[simp] theorem setPort_ctxs (m : Mach) (k : Nat) (f : Port → Port) : (setPort m k f).ctxs = m.ctxs := rfl
@[simp] theorem setPort_root (m : Mach) (k : Nat) (f : Port → Port) : (setPort m k f).root = m.root := rfl
@[simp] theorem setPort_psts (m : Mach) (k : Nat) (f : Port → Port) : (setPort m k f).psts = m.psts := rfl
@[simp] theorem setPort_queues (m : Mach) (k : Nat) (f : Port → Port) : (setPort m k f).queues = m.queues := rfl
@[simp] theorem setPort_routes (m : Mach) (k : Nat) (f : Port → Port) : (setPort m k f).routes = m.routes := rfl
@[simp] theorem setPort_cps (m : Mach) (k : Nat) (f : Port → Port) : (setPort m k f).cps = m.cps := rfl
@[simp] theorem setPort_busy (m : Mach) (k : Nat) (f : Port → Port) : (setPort m k f).busy = m.busy := rfl
@[simp] theorem setPort_feat (m : Mach) (k : Nat) (f : Port → Port) : (setPort m k f).feat = m.feat := rfl
@[simp] theorem setPort_replies (m : Mach) (k : Nat) (f : Port → Port) : (setPort m k f).replies = m.replies := rfl
@[simp] theorem setPort_fjarul (m : Mach) (k : Nat) (f : Port → Port) : (setPort m k f).fjarul = m.fjarul := rfl
@[simp] theorem setPort_agenda (m : Mach) (k : Nat) (f : Port → Port) : (setPort m k f).agenda = m.agenda := rfl
@[simp] theorem setPort_touched (m : Mach) (k : Nat) (f : Port → Port) : (setPort m k f).touched = m.touched := rfl
@[simp] theorem setPort_flitBudget (m : Mach) (k : Nat) (f : Port → Port) : (setPort m k f).flitBudget = m.flitBudget := rfl
@[simp] theorem setPort_tileBudget (m : Mach) (k : Nat) (f : Port → Port) : (setPort m k f).tileBudget = m.tileBudget := rfl

/-! setCp -/

@[simp] theorem setCp_mem (m : Mach) (k : Nat) (f : CmdProc → CmdProc) : (setCp m k f).mem = m.mem := rfl
@[simp] theorem setCp_indet (m : Mach) (k : Nat) (f : CmdProc → CmdProc) : (setCp m k f).indet = m.indet := rfl
@[simp] theorem setCp_cur (m : Mach) (k : Nat) (f : CmdProc → CmdProc) : (setCp m k f).cur = m.cur := rfl
@[simp] theorem setCp_free (m : Mach) (k : Nat) (f : CmdProc → CmdProc) : (setCp m k f).free = m.free := rfl
@[simp] theorem setCp_nextId (m : Mach) (k : Nat) (f : CmdProc → CmdProc) : (setCp m k f).nextId = m.nextId := rfl
@[simp] theorem setCp_groups (m : Mach) (k : Nat) (f : CmdProc → CmdProc) : (setCp m k f).groups = m.groups := rfl
@[simp] theorem setCp_teams (m : Mach) (k : Nat) (f : CmdProc → CmdProc) : (setCp m k f).teams = m.teams := rfl
@[simp] theorem setCp_slots (m : Mach) (k : Nat) (f : CmdProc → CmdProc) : (setCp m k f).slots = m.slots := rfl
@[simp] theorem setCp_kerns (m : Mach) (k : Nat) (f : CmdProc → CmdProc) : (setCp m k f).kerns = m.kerns := rfl
@[simp] theorem setCp_walks (m : Mach) (k : Nat) (f : CmdProc → CmdProc) : (setCp m k f).walks = m.walks := rfl
@[simp] theorem setCp_summons (m : Mach) (k : Nat) (f : CmdProc → CmdProc) : (setCp m k f).summons = m.summons := rfl
@[simp] theorem setCp_engines (m : Mach) (k : Nat) (f : CmdProc → CmdProc) : (setCp m k f).engines = m.engines := rfl
@[simp] theorem setCp_cores (m : Mach) (k : Nat) (f : CmdProc → CmdProc) : (setCp m k f).cores = m.cores := rfl
@[simp] theorem setCp_clusters (m : Mach) (k : Nat) (f : CmdProc → CmdProc) : (setCp m k f).clusters = m.clusters := rfl
@[simp] theorem setCp_dies (m : Mach) (k : Nat) (f : CmdProc → CmdProc) : (setCp m k f).dies = m.dies := rfl
@[simp] theorem setCp_ctxs (m : Mach) (k : Nat) (f : CmdProc → CmdProc) : (setCp m k f).ctxs = m.ctxs := rfl
@[simp] theorem setCp_root (m : Mach) (k : Nat) (f : CmdProc → CmdProc) : (setCp m k f).root = m.root := rfl
@[simp] theorem setCp_psts (m : Mach) (k : Nat) (f : CmdProc → CmdProc) : (setCp m k f).psts = m.psts := rfl
@[simp] theorem setCp_queues (m : Mach) (k : Nat) (f : CmdProc → CmdProc) : (setCp m k f).queues = m.queues := rfl
@[simp] theorem setCp_ports (m : Mach) (k : Nat) (f : CmdProc → CmdProc) : (setCp m k f).ports = m.ports := rfl
@[simp] theorem setCp_routes (m : Mach) (k : Nat) (f : CmdProc → CmdProc) : (setCp m k f).routes = m.routes := rfl
@[simp] theorem setCp_busy (m : Mach) (k : Nat) (f : CmdProc → CmdProc) : (setCp m k f).busy = m.busy := rfl
@[simp] theorem setCp_feat (m : Mach) (k : Nat) (f : CmdProc → CmdProc) : (setCp m k f).feat = m.feat := rfl
@[simp] theorem setCp_replies (m : Mach) (k : Nat) (f : CmdProc → CmdProc) : (setCp m k f).replies = m.replies := rfl
@[simp] theorem setCp_fjarul (m : Mach) (k : Nat) (f : CmdProc → CmdProc) : (setCp m k f).fjarul = m.fjarul := rfl
@[simp] theorem setCp_agenda (m : Mach) (k : Nat) (f : CmdProc → CmdProc) : (setCp m k f).agenda = m.agenda := rfl
@[simp] theorem setCp_touched (m : Mach) (k : Nat) (f : CmdProc → CmdProc) : (setCp m k f).touched = m.touched := rfl
@[simp] theorem setCp_flitBudget (m : Mach) (k : Nat) (f : CmdProc → CmdProc) : (setCp m k f).flitBudget = m.flitBudget := rfl
@[simp] theorem setCp_tileBudget (m : Mach) (k : Nat) (f : CmdProc → CmdProc) : (setCp m k f).tileBudget = m.tileBudget := rfl

/-! What an update does to its own table. -/

@[simp] theorem setGrp_grp? (m : Mach) (k : Nat) (x : Group) : (m.setGrp k x).grp? k = some x := aget_aput_self m.groups k x

theorem setGrp_grp?_ne (m : Mach) (k j : Nat) (x : Group) (h : j ≠ k) : (m.setGrp k x).grp? j = m.grp? j :=
  aget_aput_ne m.groups k j x h

@[simp] theorem setCore_core (m : Mach) (k : Nat) (x : Core) : (m.setCore k x).core k = x := by
  simp [Mach.setCore, Mach.core, aget_aput_self]

theorem setCore_core_ne (m : Mach) (k j : Nat) (x : Core) (h : j ≠ k) : (m.setCore k x).core j = m.core j := by
  simp [Mach.setCore, Mach.core, aget_aput_ne _ _ _ _ h]

@[simp] theorem setGrp_core (m : Mach) (k c : Nat) (x : Group) : (m.setGrp k x).core c = m.core c := rfl

@[simp] theorem setCore_grp? (m : Mach) (k j : Nat) (x : Core) : (m.setCore k x).grp? j = m.grp? j := rfl

@[simp] theorem bump_grp? (m : Mach) (j : Nat) : m.bump.grp? j = m.grp? j := rfl

@[simp] theorem bump_core (m : Mach) (c : Nat) : m.bump.core c = m.core c := rfl

theorem updateAt_get? {α : Type} {n : Nat} (v : Vector α n) (i j : Nat) (f : α → α) :
    (updateAt v i f)[j]? = if i = j then (v[i]?).map f else v[j]? := by
  unfold updateAt
  split
  · rename_i x hx
    rw [Vector.getElem?_setIfInBounds]
    split
    · rename_i h
      subst h
      rw [hx]
      have : i < n := by
        rcases Nat.lt_or_ge i n with h | h
        · exact h
        · rw [Vector.getElem?_eq_none h] at hx; cases hx
      simp [this]
    · rfl
  · rename_i hx
    split
    · rename_i h
      subst h
      simp [hx]
    · rfl

/-- A port after an update, one of the 18. -/
theorem setPort_port (m : Mach) (p : Nat) (f : Port → Port) (h : p < 18) : (setPort m p f).port p = f (m.port p) := by
  have e : m.ports[p]? = some m.ports[p] := Vector.getElem?_eq_getElem h
  simp only [setPort, Mach.port, updateAt_get?, if_true, e, Option.map_some, Option.getD_some]

/-- An update of a port leaves the other ports alone. -/
theorem setPort_port_ne (m : Mach) (p q : Nat) (f : Port → Port) (h : q ≠ p) : (setPort m p f).port q = m.port q := by
  simp only [setPort, Mach.port, updateAt_get?, Ne.symm h, if_false]

/-- A command processor's registers after an update, one of the eight. -/
theorem setCp_cp (m : Mach) (p : Nat) (f : CmdProc → CmdProc) (h : p < 8) : (setCp m p f).cp p = f (m.cp p) := by
  have e : m.cps[p]? = some m.cps[p] := Vector.getElem?_eq_getElem h
  simp only [setCp, Mach.cp, updateAt_get?, if_true, e, Option.map_some, Option.getD_some]

/-! The scalar registers (R104). -/

@[simp] theorem s_zero (g : Group) : g.s 0 = 0 := by simp [Group.s]

/-- A register read after a write: the value, but s0 reads zero whatever is written. -/
theorem s_setS (g : Group) (r q : Sreg) (x : Dword) : (g.setS r x).s q = if q = r ∧ r ≠ 0 then x else g.s q := by
  by_cases hr : r = 0
  · subst hr
    simp [Group.setS]
  · have hset : g.setS r x = { g with regs := g.regs.setIfInBounds r.toNat x } := if_neg hr
    rw [hset]
    by_cases hq : q = 0
    · subst hq
      have : ¬ (0 : Sreg) = r := fun e => hr e.symm
      simp only [s_zero, this, false_and, if_false]
    · have e1 : ∀ g' : Group, g'.s q = (g'.regs[q.toNat]?).getD 0 := fun g' => if_neg hq
      rw [e1, e1]
      by_cases hqr : q = r
      · subst hqr
        have hlt : q.toNat < 64 := q.isLt
        have hc : q = q ∧ q ≠ 0 := ⟨rfl, hr⟩
        rw [if_pos hc]
        simp [hlt]
      · have hne : ¬ r.toNat = q.toNat := fun e => hqr (BitVec.eq_of_toNat_eq e.symm)
        simp [hne, hqr]


@[simp] theorem setS_ctx (g : Group) (r : Sreg) (x : Dword) : (g.setS r x).ctx = g.ctx := by unfold Group.setS; split <;> rfl
@[simp] theorem setS_kern (g : Group) (r : Sreg) (x : Dword) : (g.setS r x).kern = g.kern := by unfold Group.setS; split <;> rfl
@[simp] theorem setS_team (g : Group) (r : Sreg) (x : Dword) : (g.setS r x).team = g.team := by unfold Group.setS; split <;> rfl
@[simp] theorem setS_kind (g : Group) (r : Sreg) (x : Dword) : (g.setS r x).kind = g.kind := by unfold Group.setS; split <;> rfl
@[simp] theorem setS_core (g : Group) (r : Sreg) (x : Dword) : (g.setS r x).core = g.core := by unfold Group.setS; split <;> rfl
@[simp] theorem setS_slot (g : Group) (r : Sreg) (x : Dword) : (g.setS r x).slot = g.slot := by unfold Group.setS; split <;> rfl
@[simp] theorem setS_gidx (g : Group) (r : Sreg) (x : Dword) : (g.setS r x).gidx = g.gidx := by unfold Group.setS; split <;> rfl
@[simp] theorem setS_width (g : Group) (r : Sreg) (x : Dword) : (g.setS r x).width = g.width := by unfold Group.setS; split <;> rfl
@[simp] theorem setS_nregs (g : Group) (r : Sreg) (x : Dword) : (g.setS r x).nregs = g.nregs := by unfold Group.setS; split <;> rfl
@[simp] theorem setS_st (g : Group) (r : Sreg) (x : Dword) : (g.setS r x).st = g.st := by unfold Group.setS; split <;> rfl
@[simp] theorem setS_saved (g : Group) (r : Sreg) (x : Dword) : (g.setS r x).saved = g.saved := by unfold Group.setS; split <;> rfl
@[simp] theorem setS_flags (g : Group) (r : Sreg) (x : Dword) : (g.setS r x).flags = g.flags := by unfold Group.setS; split <;> rfl
@[simp] theorem setS_spc (g : Group) (r : Sreg) (x : Dword) : (g.setS r x).spc = g.spc := by unfold Group.setS; split <;> rfl
@[simp] theorem setS_lpc (g : Group) (r : Sreg) (x : Dword) : (g.setS r x).lpc = g.lpc := by unfold Group.setS; split <;> rfl
@[simp] theorem setS_v (g : Group) (r : Sreg) (x : Dword) : (g.setS r x).v = g.v := by unfold Group.setS; split <;> rfl
@[simp] theorem setS_preds (g : Group) (r : Sreg) (x : Dword) : (g.setS r x).preds = g.preds := by unfold Group.setS; split <;> rfl
@[simp] theorem setS_chk (g : Group) (r : Sreg) (x : Dword) : (g.setS r x).chk = g.chk := by unfold Group.setS; split <;> rfl
@[simp] theorem setS_qs (g : Group) (r : Sreg) (x : Dword) : (g.setS r x).qs = g.qs := by unfold Group.setS; split <;> rfl
@[simp] theorem setS_aside (g : Group) (r : Sreg) (x : Dword) : (g.setS r x).aside = g.aside := by unfold Group.setS; split <;> rfl
@[simp] theorem setS_asideWait (g : Group) (r : Sreg) (x : Dword) : (g.setS r x).asideWait = g.asideWait := by unfold Group.setS; split <;> rfl
@[simp] theorem setS_lx (g : Group) (r : Sreg) (x : Dword) : (g.setS r x).lx = g.lx := by unfold Group.setS; split <;> rfl
@[simp] theorem setS_chain (g : Group) (r : Sreg) (x : Dword) : (g.setS r x).chain = g.chain := by unfold Group.setS; split <;> rfl
@[simp] theorem setS_mode (g : Group) (r : Sreg) (x : Dword) : (g.setS r x).mode = g.mode := by unfold Group.setS; split <;> rfl
@[simp] theorem setS_fpstat (g : Group) (r : Sreg) (x : Dword) : (g.setS r x).fpstat = g.fpstat := by unfold Group.setS; split <;> rfl
@[simp] theorem setS_dlq (g : Group) (r : Sreg) (x : Dword) : (g.setS r x).dlq = g.dlq := by unfold Group.setS; split <;> rfl
@[simp] theorem setS_lxrem (g : Group) (r : Sreg) (x : Dword) : (g.setS r x).lxrem = g.lxrem := by unfold Group.setS; split <;> rfl
@[simp] theorem setS_node (g : Group) (r : Sreg) (x : Dword) : (g.setS r x).node = g.node := by unfold Group.setS; split <;> rfl
@[simp] theorem setS_stamp (g : Group) (r : Sreg) (x : Dword) : (g.setS r x).stamp = g.stamp := by unfold Group.setS; split <;> rfl
@[simp] theorem setS_own (g : Group) (r : Sreg) (x : Dword) : (g.setS r x).own = g.own := by unfold Group.setS; split <;> rfl
@[simp] theorem setS_sig (g : Group) (r : Sreg) (x : Dword) : (g.setS r x).sig = g.sig := by unfold Group.setS; split <;> rfl
@[simp] theorem setS_sigq (g : Group) (r : Sreg) (x : Dword) : (g.setS r x).sigq = g.sigq := by unfold Group.setS; split <;> rfl
@[simp] theorem setS_rgn (g : Group) (r : Sreg) (x : Dword) : (g.setS r x).rgn = g.rgn := by unfold Group.setS; split <;> rfl
@[simp] theorem setS_log (g : Group) (r : Sreg) (x : Dword) : (g.setS r x).log = g.log := by unfold Group.setS; split <;> rfl
@[simp] theorem setS_rolls (g : Group) (r : Sreg) (x : Dword) : (g.setS r x).rolls = g.rolls := by unfold Group.setS; split <;> rfl
@[simp] theorem setS_src (g : Group) (r : Sreg) (x : Dword) : (g.setS r x).src = g.src := by unfold Group.setS; split <;> rfl
@[simp] theorem setS_tcause (g : Group) (r : Sreg) (x : Dword) : (g.setS r x).tcause = g.tcause := by unfold Group.setS; split <;> rfl
@[simp] theorem setS_tspc (g : Group) (r : Sreg) (x : Dword) : (g.setS r x).tspc = g.tspc := by unfold Group.setS; split <;> rfl
@[simp] theorem setS_tlpc (g : Group) (r : Sreg) (x : Dword) : (g.setS r x).tlpc = g.tlpc := by unfold Group.setS; split <;> rfl
@[simp] theorem setS_taddr (g : Group) (r : Sreg) (x : Dword) : (g.setS r x).taddr = g.taddr := by unfold Group.setS; split <;> rfl
@[simp] theorem setS_tmemb (g : Group) (r : Sreg) (x : Dword) : (g.setS r x).tmemb = g.tmemb := by unfold Group.setS; split <;> rfl
@[simp] theorem setS_folded (g : Group) (r : Sreg) (x : Dword) : (g.setS r x).folded = g.folded := by unfold Group.setS; split <;> rfl
@[simp] theorem setS_inject (g : Group) (r : Sreg) (x : Dword) : (g.setS r x).inject = g.inject := by unfold Group.setS; split <;> rfl
@[simp] theorem setS_traps (g : Group) (r : Sreg) (x : Dword) : (g.setS r x).traps = g.traps := by unfold Group.setS; split <;> rfl
@[simp] theorem setS_serving (g : Group) (r : Sreg) (x : Dword) : (g.setS r x).serving = g.serving := by unfold Group.setS; split <;> rfl
@[simp] theorem setS_pool (g : Group) (r : Sreg) (x : Dword) : (g.setS r x).pool = g.pool := by unfold Group.setS; split <;> rfl
@[simp] theorem setS_tasks (g : Group) (r : Sreg) (x : Dword) : (g.setS r x).tasks = g.tasks := by unfold Group.setS; split <;> rfl
@[simp] theorem setS_origins (g : Group) (r : Sreg) (x : Dword) : (g.setS r x).origins = g.origins := by unfold Group.setS; split <;> rfl
@[simp] theorem setS_readyAt (g : Group) (r : Sreg) (x : Dword) : (g.setS r x).readyAt = g.readyAt := by unfold Group.setS; split <;> rfl
@[simp] theorem setS_issuedAt (g : Group) (r : Sreg) (x : Dword) : (g.setS r x).issuedAt = g.issuedAt := by unfold Group.setS; split <;> rfl
@[simp] theorem setS_waitedFrom (g : Group) (r : Sreg) (x : Dword) : (g.setS r x).waitedFrom = g.waitedFrom := by unfold Group.setS; split <;> rfl
@[simp] theorem setS_fabric (g : Group) (r : Sreg) (x : Dword) : (g.setS r x).fabric = g.fabric := by unfold Group.setS; split <;> rfl
@[simp] theorem setS_joins (g : Group) (r : Sreg) (x : Dword) : (g.setS r x).joins = g.joins := by unfold Group.setS; split <;> rfl
@[simp] theorem setS_stuck (g : Group) (r : Sreg) (x : Dword) : (g.setS r x).stuck = g.stuck := by unfold Group.setS; split <;> rfl
@[simp] theorem setS_throttledAt (g : Group) (r : Sreg) (x : Dword) : (g.setS r x).throttledAt = g.throttledAt := by unfold Group.setS; split <;> rfl
@[simp] theorem setS_ready (g : Group) (r : Sreg) (x : Dword) : (g.setS r x).ready = g.ready := by unfold Group.setS; split <;> rfl
@[simp] theorem setS_bar (g : Group) (r : Sreg) (x : Dword) : (g.setS r x).bar = g.bar := by unfold Group.setS; split <;> rfl
@[simp] theorem setS_flight (g : Group) (r : Sreg) (x : Dword) : (g.setS r x).flight = g.flight := by unfold Group.setS; split <;> rfl
@[simp] theorem setS_posting (g : Group) (r : Sreg) (x : Dword) : (g.setS r x).posting = g.posting := by unfold Group.setS; split <;> rfl

@[simp] theorem fold_ctx (g : Group) (c : Dword) : (g.fold c).ctx = g.ctx := by unfold Group.fold; split; rfl; split <;> rfl
@[simp] theorem fold_kern (g : Group) (c : Dword) : (g.fold c).kern = g.kern := by unfold Group.fold; split; rfl; split <;> rfl
@[simp] theorem fold_team (g : Group) (c : Dword) : (g.fold c).team = g.team := by unfold Group.fold; split; rfl; split <;> rfl
@[simp] theorem fold_kind (g : Group) (c : Dword) : (g.fold c).kind = g.kind := by unfold Group.fold; split; rfl; split <;> rfl
@[simp] theorem fold_core (g : Group) (c : Dword) : (g.fold c).core = g.core := by unfold Group.fold; split; rfl; split <;> rfl
@[simp] theorem fold_slot (g : Group) (c : Dword) : (g.fold c).slot = g.slot := by unfold Group.fold; split; rfl; split <;> rfl
@[simp] theorem fold_gidx (g : Group) (c : Dword) : (g.fold c).gidx = g.gidx := by unfold Group.fold; split; rfl; split <;> rfl
@[simp] theorem fold_width (g : Group) (c : Dword) : (g.fold c).width = g.width := by unfold Group.fold; split; rfl; split <;> rfl
@[simp] theorem fold_nregs (g : Group) (c : Dword) : (g.fold c).nregs = g.nregs := by unfold Group.fold; split; rfl; split <;> rfl
@[simp] theorem fold_st (g : Group) (c : Dword) : (g.fold c).st = g.st := by unfold Group.fold; split; rfl; split <;> rfl
@[simp] theorem fold_saved (g : Group) (c : Dword) : (g.fold c).saved = g.saved := by unfold Group.fold; split; rfl; split <;> rfl
@[simp] theorem fold_regs (g : Group) (c : Dword) : (g.fold c).regs = g.regs := by unfold Group.fold; split; rfl; split <;> rfl
@[simp] theorem fold_flags (g : Group) (c : Dword) : (g.fold c).flags = g.flags := by unfold Group.fold; split; rfl; split <;> rfl
@[simp] theorem fold_spc (g : Group) (c : Dword) : (g.fold c).spc = g.spc := by unfold Group.fold; split; rfl; split <;> rfl
@[simp] theorem fold_lpc (g : Group) (c : Dword) : (g.fold c).lpc = g.lpc := by unfold Group.fold; split; rfl; split <;> rfl
@[simp] theorem fold_v (g : Group) (c : Dword) : (g.fold c).v = g.v := by unfold Group.fold; split; rfl; split <;> rfl
@[simp] theorem fold_preds (g : Group) (c : Dword) : (g.fold c).preds = g.preds := by unfold Group.fold; split; rfl; split <;> rfl
@[simp] theorem fold_chk (g : Group) (c : Dword) : (g.fold c).chk = g.chk := by unfold Group.fold; split; rfl; split <;> rfl
@[simp] theorem fold_qs (g : Group) (c : Dword) : (g.fold c).qs = g.qs := by unfold Group.fold; split; rfl; split <;> rfl
@[simp] theorem fold_aside (g : Group) (c : Dword) : (g.fold c).aside = g.aside := by unfold Group.fold; split; rfl; split <;> rfl
@[simp] theorem fold_asideWait (g : Group) (c : Dword) : (g.fold c).asideWait = g.asideWait := by unfold Group.fold; split; rfl; split <;> rfl
@[simp] theorem fold_lx (g : Group) (c : Dword) : (g.fold c).lx = g.lx := by unfold Group.fold; split; rfl; split <;> rfl
@[simp] theorem fold_chain (g : Group) (c : Dword) : (g.fold c).chain = g.chain := by unfold Group.fold; split; rfl; split <;> rfl
@[simp] theorem fold_mode (g : Group) (c : Dword) : (g.fold c).mode = g.mode := by unfold Group.fold; split; rfl; split <;> rfl
@[simp] theorem fold_fpstat (g : Group) (c : Dword) : (g.fold c).fpstat = g.fpstat := by unfold Group.fold; split; rfl; split <;> rfl
@[simp] theorem fold_dlq (g : Group) (c : Dword) : (g.fold c).dlq = g.dlq := by unfold Group.fold; split; rfl; split <;> rfl
@[simp] theorem fold_lxrem (g : Group) (c : Dword) : (g.fold c).lxrem = g.lxrem := by unfold Group.fold; split; rfl; split <;> rfl
@[simp] theorem fold_node (g : Group) (c : Dword) : (g.fold c).node = g.node := by unfold Group.fold; split; rfl; split <;> rfl
@[simp] theorem fold_stamp (g : Group) (c : Dword) : (g.fold c).stamp = g.stamp := by unfold Group.fold; split; rfl; split <;> rfl
@[simp] theorem fold_own (g : Group) (c : Dword) : (g.fold c).own = g.own := by unfold Group.fold; split; rfl; split <;> rfl
@[simp] theorem fold_rgn (g : Group) (c : Dword) : (g.fold c).rgn = g.rgn := by unfold Group.fold; split; rfl; split <;> rfl
@[simp] theorem fold_log (g : Group) (c : Dword) : (g.fold c).log = g.log := by unfold Group.fold; split; rfl; split <;> rfl
@[simp] theorem fold_rolls (g : Group) (c : Dword) : (g.fold c).rolls = g.rolls := by unfold Group.fold; split; rfl; split <;> rfl
@[simp] theorem fold_src (g : Group) (c : Dword) : (g.fold c).src = g.src := by unfold Group.fold; split; rfl; split <;> rfl
@[simp] theorem fold_tcause (g : Group) (c : Dword) : (g.fold c).tcause = g.tcause := by unfold Group.fold; split; rfl; split <;> rfl
@[simp] theorem fold_tspc (g : Group) (c : Dword) : (g.fold c).tspc = g.tspc := by unfold Group.fold; split; rfl; split <;> rfl
@[simp] theorem fold_tlpc (g : Group) (c : Dword) : (g.fold c).tlpc = g.tlpc := by unfold Group.fold; split; rfl; split <;> rfl
@[simp] theorem fold_taddr (g : Group) (c : Dword) : (g.fold c).taddr = g.taddr := by unfold Group.fold; split; rfl; split <;> rfl
@[simp] theorem fold_tmemb (g : Group) (c : Dword) : (g.fold c).tmemb = g.tmemb := by unfold Group.fold; split; rfl; split <;> rfl
@[simp] theorem fold_folded (g : Group) (c : Dword) : (g.fold c).folded = g.folded := by unfold Group.fold; split; rfl; split <;> rfl
@[simp] theorem fold_inject (g : Group) (c : Dword) : (g.fold c).inject = g.inject := by unfold Group.fold; split; rfl; split <;> rfl
@[simp] theorem fold_traps (g : Group) (c : Dword) : (g.fold c).traps = g.traps := by unfold Group.fold; split; rfl; split <;> rfl
@[simp] theorem fold_serving (g : Group) (c : Dword) : (g.fold c).serving = g.serving := by unfold Group.fold; split; rfl; split <;> rfl
@[simp] theorem fold_pool (g : Group) (c : Dword) : (g.fold c).pool = g.pool := by unfold Group.fold; split; rfl; split <;> rfl
@[simp] theorem fold_tasks (g : Group) (c : Dword) : (g.fold c).tasks = g.tasks := by unfold Group.fold; split; rfl; split <;> rfl
@[simp] theorem fold_origins (g : Group) (c : Dword) : (g.fold c).origins = g.origins := by unfold Group.fold; split; rfl; split <;> rfl
@[simp] theorem fold_readyAt (g : Group) (c : Dword) : (g.fold c).readyAt = g.readyAt := by unfold Group.fold; split; rfl; split <;> rfl
@[simp] theorem fold_issuedAt (g : Group) (c : Dword) : (g.fold c).issuedAt = g.issuedAt := by unfold Group.fold; split; rfl; split <;> rfl
@[simp] theorem fold_waitedFrom (g : Group) (c : Dword) : (g.fold c).waitedFrom = g.waitedFrom := by unfold Group.fold; split; rfl; split <;> rfl
@[simp] theorem fold_fabric (g : Group) (c : Dword) : (g.fold c).fabric = g.fabric := by unfold Group.fold; split; rfl; split <;> rfl
@[simp] theorem fold_joins (g : Group) (c : Dword) : (g.fold c).joins = g.joins := by unfold Group.fold; split; rfl; split <;> rfl
@[simp] theorem fold_stuck (g : Group) (c : Dword) : (g.fold c).stuck = g.stuck := by unfold Group.fold; split; rfl; split <;> rfl
@[simp] theorem fold_throttledAt (g : Group) (c : Dword) : (g.fold c).throttledAt = g.throttledAt := by unfold Group.fold; split; rfl; split <;> rfl
@[simp] theorem fold_ready (g : Group) (c : Dword) : (g.fold c).ready = g.ready := by unfold Group.fold; split; rfl; split <;> rfl
@[simp] theorem fold_bar (g : Group) (c : Dword) : (g.fold c).bar = g.bar := by unfold Group.fold; split; rfl; split <;> rfl
@[simp] theorem fold_flight (g : Group) (c : Dword) : (g.fold c).flight = g.flight := by unfold Group.fold; split; rfl; split <;> rfl
@[simp] theorem fold_posting (g : Group) (c : Dword) : (g.fold c).posting = g.posting := by unfold Group.fold; split; rfl; split <;> rfl

@[simp] theorem setV_ctx (g : Group) (r l : Nat) (x : Word) (c : Option Check) : (g.setV r l x c).ctx = g.ctx := rfl
@[simp] theorem setV_kern (g : Group) (r l : Nat) (x : Word) (c : Option Check) : (g.setV r l x c).kern = g.kern := rfl
@[simp] theorem setV_team (g : Group) (r l : Nat) (x : Word) (c : Option Check) : (g.setV r l x c).team = g.team := rfl
@[simp] theorem setV_kind (g : Group) (r l : Nat) (x : Word) (c : Option Check) : (g.setV r l x c).kind = g.kind := rfl
@[simp] theorem setV_core (g : Group) (r l : Nat) (x : Word) (c : Option Check) : (g.setV r l x c).core = g.core := rfl
@[simp] theorem setV_slot (g : Group) (r l : Nat) (x : Word) (c : Option Check) : (g.setV r l x c).slot = g.slot := rfl
@[simp] theorem setV_gidx (g : Group) (r l : Nat) (x : Word) (c : Option Check) : (g.setV r l x c).gidx = g.gidx := rfl
@[simp] theorem setV_width (g : Group) (r l : Nat) (x : Word) (c : Option Check) : (g.setV r l x c).width = g.width := rfl
@[simp] theorem setV_nregs (g : Group) (r l : Nat) (x : Word) (c : Option Check) : (g.setV r l x c).nregs = g.nregs := rfl
@[simp] theorem setV_st (g : Group) (r l : Nat) (x : Word) (c : Option Check) : (g.setV r l x c).st = g.st := rfl
@[simp] theorem setV_saved (g : Group) (r l : Nat) (x : Word) (c : Option Check) : (g.setV r l x c).saved = g.saved := rfl
@[simp] theorem setV_regs (g : Group) (r l : Nat) (x : Word) (c : Option Check) : (g.setV r l x c).regs = g.regs := rfl
@[simp] theorem setV_flags (g : Group) (r l : Nat) (x : Word) (c : Option Check) : (g.setV r l x c).flags = g.flags := rfl
@[simp] theorem setV_spc (g : Group) (r l : Nat) (x : Word) (c : Option Check) : (g.setV r l x c).spc = g.spc := rfl
@[simp] theorem setV_lpc (g : Group) (r l : Nat) (x : Word) (c : Option Check) : (g.setV r l x c).lpc = g.lpc := rfl
@[simp] theorem setV_preds (g : Group) (r l : Nat) (x : Word) (c : Option Check) : (g.setV r l x c).preds = g.preds := rfl
@[simp] theorem setV_qs (g : Group) (r l : Nat) (x : Word) (c : Option Check) : (g.setV r l x c).qs = g.qs := rfl
@[simp] theorem setV_aside (g : Group) (r l : Nat) (x : Word) (c : Option Check) : (g.setV r l x c).aside = g.aside := rfl
@[simp] theorem setV_asideWait (g : Group) (r l : Nat) (x : Word) (c : Option Check) : (g.setV r l x c).asideWait = g.asideWait := rfl
@[simp] theorem setV_lx (g : Group) (r l : Nat) (x : Word) (c : Option Check) : (g.setV r l x c).lx = g.lx := rfl
@[simp] theorem setV_chain (g : Group) (r l : Nat) (x : Word) (c : Option Check) : (g.setV r l x c).chain = g.chain := rfl
@[simp] theorem setV_mode (g : Group) (r l : Nat) (x : Word) (c : Option Check) : (g.setV r l x c).mode = g.mode := rfl
@[simp] theorem setV_fpstat (g : Group) (r l : Nat) (x : Word) (c : Option Check) : (g.setV r l x c).fpstat = g.fpstat := rfl
@[simp] theorem setV_dlq (g : Group) (r l : Nat) (x : Word) (c : Option Check) : (g.setV r l x c).dlq = g.dlq := rfl
@[simp] theorem setV_lxrem (g : Group) (r l : Nat) (x : Word) (c : Option Check) : (g.setV r l x c).lxrem = g.lxrem := rfl
@[simp] theorem setV_node (g : Group) (r l : Nat) (x : Word) (c : Option Check) : (g.setV r l x c).node = g.node := rfl
@[simp] theorem setV_stamp (g : Group) (r l : Nat) (x : Word) (c : Option Check) : (g.setV r l x c).stamp = g.stamp := rfl
@[simp] theorem setV_own (g : Group) (r l : Nat) (x : Word) (c : Option Check) : (g.setV r l x c).own = g.own := rfl
@[simp] theorem setV_sig (g : Group) (r l : Nat) (x : Word) (c : Option Check) : (g.setV r l x c).sig = g.sig := rfl
@[simp] theorem setV_sigq (g : Group) (r l : Nat) (x : Word) (c : Option Check) : (g.setV r l x c).sigq = g.sigq := rfl
@[simp] theorem setV_rgn (g : Group) (r l : Nat) (x : Word) (c : Option Check) : (g.setV r l x c).rgn = g.rgn := rfl
@[simp] theorem setV_log (g : Group) (r l : Nat) (x : Word) (c : Option Check) : (g.setV r l x c).log = g.log := rfl
@[simp] theorem setV_rolls (g : Group) (r l : Nat) (x : Word) (c : Option Check) : (g.setV r l x c).rolls = g.rolls := rfl
@[simp] theorem setV_src (g : Group) (r l : Nat) (x : Word) (c : Option Check) : (g.setV r l x c).src = g.src := rfl
@[simp] theorem setV_tcause (g : Group) (r l : Nat) (x : Word) (c : Option Check) : (g.setV r l x c).tcause = g.tcause := rfl
@[simp] theorem setV_tspc (g : Group) (r l : Nat) (x : Word) (c : Option Check) : (g.setV r l x c).tspc = g.tspc := rfl
@[simp] theorem setV_tlpc (g : Group) (r l : Nat) (x : Word) (c : Option Check) : (g.setV r l x c).tlpc = g.tlpc := rfl
@[simp] theorem setV_taddr (g : Group) (r l : Nat) (x : Word) (c : Option Check) : (g.setV r l x c).taddr = g.taddr := rfl
@[simp] theorem setV_tmemb (g : Group) (r l : Nat) (x : Word) (c : Option Check) : (g.setV r l x c).tmemb = g.tmemb := rfl
@[simp] theorem setV_folded (g : Group) (r l : Nat) (x : Word) (c : Option Check) : (g.setV r l x c).folded = g.folded := rfl
@[simp] theorem setV_inject (g : Group) (r l : Nat) (x : Word) (c : Option Check) : (g.setV r l x c).inject = g.inject := rfl
@[simp] theorem setV_traps (g : Group) (r l : Nat) (x : Word) (c : Option Check) : (g.setV r l x c).traps = g.traps := rfl
@[simp] theorem setV_serving (g : Group) (r l : Nat) (x : Word) (c : Option Check) : (g.setV r l x c).serving = g.serving := rfl
@[simp] theorem setV_pool (g : Group) (r l : Nat) (x : Word) (c : Option Check) : (g.setV r l x c).pool = g.pool := rfl
@[simp] theorem setV_tasks (g : Group) (r l : Nat) (x : Word) (c : Option Check) : (g.setV r l x c).tasks = g.tasks := rfl
@[simp] theorem setV_origins (g : Group) (r l : Nat) (x : Word) (c : Option Check) : (g.setV r l x c).origins = g.origins := rfl
@[simp] theorem setV_readyAt (g : Group) (r l : Nat) (x : Word) (c : Option Check) : (g.setV r l x c).readyAt = g.readyAt := rfl
@[simp] theorem setV_issuedAt (g : Group) (r l : Nat) (x : Word) (c : Option Check) : (g.setV r l x c).issuedAt = g.issuedAt := rfl
@[simp] theorem setV_waitedFrom (g : Group) (r l : Nat) (x : Word) (c : Option Check) : (g.setV r l x c).waitedFrom = g.waitedFrom := rfl
@[simp] theorem setV_fabric (g : Group) (r l : Nat) (x : Word) (c : Option Check) : (g.setV r l x c).fabric = g.fabric := rfl
@[simp] theorem setV_joins (g : Group) (r l : Nat) (x : Word) (c : Option Check) : (g.setV r l x c).joins = g.joins := rfl
@[simp] theorem setV_stuck (g : Group) (r l : Nat) (x : Word) (c : Option Check) : (g.setV r l x c).stuck = g.stuck := rfl
@[simp] theorem setV_throttledAt (g : Group) (r l : Nat) (x : Word) (c : Option Check) : (g.setV r l x c).throttledAt = g.throttledAt := rfl
@[simp] theorem setV_ready (g : Group) (r l : Nat) (x : Word) (c : Option Check) : (g.setV r l x c).ready = g.ready := rfl
@[simp] theorem setV_bar (g : Group) (r l : Nat) (x : Word) (c : Option Check) : (g.setV r l x c).bar = g.bar := rfl
@[simp] theorem setV_flight (g : Group) (r l : Nat) (x : Word) (c : Option Check) : (g.setV r l x c).flight = g.flight := rfl
@[simp] theorem setV_posting (g : Group) (r l : Nat) (x : Word) (c : Option Check) : (g.setV r l x c).posting = g.posting := rfl

@[simp] theorem setPred_ctx (g : Group) (k l : Nat) (b : Bool) : (g.setPred k l b).ctx = g.ctx := by unfold Group.setPred; split <;> rfl
@[simp] theorem setPred_kern (g : Group) (k l : Nat) (b : Bool) : (g.setPred k l b).kern = g.kern := by unfold Group.setPred; split <;> rfl
@[simp] theorem setPred_team (g : Group) (k l : Nat) (b : Bool) : (g.setPred k l b).team = g.team := by unfold Group.setPred; split <;> rfl
@[simp] theorem setPred_kind (g : Group) (k l : Nat) (b : Bool) : (g.setPred k l b).kind = g.kind := by unfold Group.setPred; split <;> rfl
@[simp] theorem setPred_core (g : Group) (k l : Nat) (b : Bool) : (g.setPred k l b).core = g.core := by unfold Group.setPred; split <;> rfl
@[simp] theorem setPred_slot (g : Group) (k l : Nat) (b : Bool) : (g.setPred k l b).slot = g.slot := by unfold Group.setPred; split <;> rfl
@[simp] theorem setPred_gidx (g : Group) (k l : Nat) (b : Bool) : (g.setPred k l b).gidx = g.gidx := by unfold Group.setPred; split <;> rfl
@[simp] theorem setPred_width (g : Group) (k l : Nat) (b : Bool) : (g.setPred k l b).width = g.width := by unfold Group.setPred; split <;> rfl
@[simp] theorem setPred_nregs (g : Group) (k l : Nat) (b : Bool) : (g.setPred k l b).nregs = g.nregs := by unfold Group.setPred; split <;> rfl
@[simp] theorem setPred_st (g : Group) (k l : Nat) (b : Bool) : (g.setPred k l b).st = g.st := by unfold Group.setPred; split <;> rfl
@[simp] theorem setPred_saved (g : Group) (k l : Nat) (b : Bool) : (g.setPred k l b).saved = g.saved := by unfold Group.setPred; split <;> rfl
@[simp] theorem setPred_regs (g : Group) (k l : Nat) (b : Bool) : (g.setPred k l b).regs = g.regs := by unfold Group.setPred; split <;> rfl
@[simp] theorem setPred_flags (g : Group) (k l : Nat) (b : Bool) : (g.setPred k l b).flags = g.flags := by unfold Group.setPred; split <;> rfl
@[simp] theorem setPred_spc (g : Group) (k l : Nat) (b : Bool) : (g.setPred k l b).spc = g.spc := by unfold Group.setPred; split <;> rfl
@[simp] theorem setPred_lpc (g : Group) (k l : Nat) (b : Bool) : (g.setPred k l b).lpc = g.lpc := by unfold Group.setPred; split <;> rfl
@[simp] theorem setPred_v (g : Group) (k l : Nat) (b : Bool) : (g.setPred k l b).v = g.v := by unfold Group.setPred; split <;> rfl
@[simp] theorem setPred_chk (g : Group) (k l : Nat) (b : Bool) : (g.setPred k l b).chk = g.chk := by unfold Group.setPred; split <;> rfl
@[simp] theorem setPred_qs (g : Group) (k l : Nat) (b : Bool) : (g.setPred k l b).qs = g.qs := by unfold Group.setPred; split <;> rfl
@[simp] theorem setPred_aside (g : Group) (k l : Nat) (b : Bool) : (g.setPred k l b).aside = g.aside := by unfold Group.setPred; split <;> rfl
@[simp] theorem setPred_asideWait (g : Group) (k l : Nat) (b : Bool) : (g.setPred k l b).asideWait = g.asideWait := by unfold Group.setPred; split <;> rfl
@[simp] theorem setPred_lx (g : Group) (k l : Nat) (b : Bool) : (g.setPred k l b).lx = g.lx := by unfold Group.setPred; split <;> rfl
@[simp] theorem setPred_chain (g : Group) (k l : Nat) (b : Bool) : (g.setPred k l b).chain = g.chain := by unfold Group.setPred; split <;> rfl
@[simp] theorem setPred_mode (g : Group) (k l : Nat) (b : Bool) : (g.setPred k l b).mode = g.mode := by unfold Group.setPred; split <;> rfl
@[simp] theorem setPred_fpstat (g : Group) (k l : Nat) (b : Bool) : (g.setPred k l b).fpstat = g.fpstat := by unfold Group.setPred; split <;> rfl
@[simp] theorem setPred_dlq (g : Group) (k l : Nat) (b : Bool) : (g.setPred k l b).dlq = g.dlq := by unfold Group.setPred; split <;> rfl
@[simp] theorem setPred_lxrem (g : Group) (k l : Nat) (b : Bool) : (g.setPred k l b).lxrem = g.lxrem := by unfold Group.setPred; split <;> rfl
@[simp] theorem setPred_node (g : Group) (k l : Nat) (b : Bool) : (g.setPred k l b).node = g.node := by unfold Group.setPred; split <;> rfl
@[simp] theorem setPred_stamp (g : Group) (k l : Nat) (b : Bool) : (g.setPred k l b).stamp = g.stamp := by unfold Group.setPred; split <;> rfl
@[simp] theorem setPred_own (g : Group) (k l : Nat) (b : Bool) : (g.setPred k l b).own = g.own := by unfold Group.setPred; split <;> rfl
@[simp] theorem setPred_sig (g : Group) (k l : Nat) (b : Bool) : (g.setPred k l b).sig = g.sig := by unfold Group.setPred; split <;> rfl
@[simp] theorem setPred_sigq (g : Group) (k l : Nat) (b : Bool) : (g.setPred k l b).sigq = g.sigq := by unfold Group.setPred; split <;> rfl
@[simp] theorem setPred_rgn (g : Group) (k l : Nat) (b : Bool) : (g.setPred k l b).rgn = g.rgn := by unfold Group.setPred; split <;> rfl
@[simp] theorem setPred_log (g : Group) (k l : Nat) (b : Bool) : (g.setPred k l b).log = g.log := by unfold Group.setPred; split <;> rfl
@[simp] theorem setPred_rolls (g : Group) (k l : Nat) (b : Bool) : (g.setPred k l b).rolls = g.rolls := by unfold Group.setPred; split <;> rfl
@[simp] theorem setPred_src (g : Group) (k l : Nat) (b : Bool) : (g.setPred k l b).src = g.src := by unfold Group.setPred; split <;> rfl
@[simp] theorem setPred_tcause (g : Group) (k l : Nat) (b : Bool) : (g.setPred k l b).tcause = g.tcause := by unfold Group.setPred; split <;> rfl
@[simp] theorem setPred_tspc (g : Group) (k l : Nat) (b : Bool) : (g.setPred k l b).tspc = g.tspc := by unfold Group.setPred; split <;> rfl
@[simp] theorem setPred_tlpc (g : Group) (k l : Nat) (b : Bool) : (g.setPred k l b).tlpc = g.tlpc := by unfold Group.setPred; split <;> rfl
@[simp] theorem setPred_taddr (g : Group) (k l : Nat) (b : Bool) : (g.setPred k l b).taddr = g.taddr := by unfold Group.setPred; split <;> rfl
@[simp] theorem setPred_tmemb (g : Group) (k l : Nat) (b : Bool) : (g.setPred k l b).tmemb = g.tmemb := by unfold Group.setPred; split <;> rfl
@[simp] theorem setPred_folded (g : Group) (k l : Nat) (b : Bool) : (g.setPred k l b).folded = g.folded := by unfold Group.setPred; split <;> rfl
@[simp] theorem setPred_inject (g : Group) (k l : Nat) (b : Bool) : (g.setPred k l b).inject = g.inject := by unfold Group.setPred; split <;> rfl
@[simp] theorem setPred_traps (g : Group) (k l : Nat) (b : Bool) : (g.setPred k l b).traps = g.traps := by unfold Group.setPred; split <;> rfl
@[simp] theorem setPred_serving (g : Group) (k l : Nat) (b : Bool) : (g.setPred k l b).serving = g.serving := by unfold Group.setPred; split <;> rfl
@[simp] theorem setPred_pool (g : Group) (k l : Nat) (b : Bool) : (g.setPred k l b).pool = g.pool := by unfold Group.setPred; split <;> rfl
@[simp] theorem setPred_tasks (g : Group) (k l : Nat) (b : Bool) : (g.setPred k l b).tasks = g.tasks := by unfold Group.setPred; split <;> rfl
@[simp] theorem setPred_origins (g : Group) (k l : Nat) (b : Bool) : (g.setPred k l b).origins = g.origins := by unfold Group.setPred; split <;> rfl
@[simp] theorem setPred_readyAt (g : Group) (k l : Nat) (b : Bool) : (g.setPred k l b).readyAt = g.readyAt := by unfold Group.setPred; split <;> rfl
@[simp] theorem setPred_issuedAt (g : Group) (k l : Nat) (b : Bool) : (g.setPred k l b).issuedAt = g.issuedAt := by unfold Group.setPred; split <;> rfl
@[simp] theorem setPred_waitedFrom (g : Group) (k l : Nat) (b : Bool) : (g.setPred k l b).waitedFrom = g.waitedFrom := by unfold Group.setPred; split <;> rfl
@[simp] theorem setPred_fabric (g : Group) (k l : Nat) (b : Bool) : (g.setPred k l b).fabric = g.fabric := by unfold Group.setPred; split <;> rfl
@[simp] theorem setPred_joins (g : Group) (k l : Nat) (b : Bool) : (g.setPred k l b).joins = g.joins := by unfold Group.setPred; split <;> rfl
@[simp] theorem setPred_stuck (g : Group) (k l : Nat) (b : Bool) : (g.setPred k l b).stuck = g.stuck := by unfold Group.setPred; split <;> rfl
@[simp] theorem setPred_throttledAt (g : Group) (k l : Nat) (b : Bool) : (g.setPred k l b).throttledAt = g.throttledAt := by unfold Group.setPred; split <;> rfl
@[simp] theorem setPred_ready (g : Group) (k l : Nat) (b : Bool) : (g.setPred k l b).ready = g.ready := by unfold Group.setPred; split <;> rfl
@[simp] theorem setPred_bar (g : Group) (k l : Nat) (b : Bool) : (g.setPred k l b).bar = g.bar := by unfold Group.setPred; split <;> rfl
@[simp] theorem setPred_flight (g : Group) (k l : Nat) (b : Bool) : (g.setPred k l b).flight = g.flight := by unfold Group.setPred; split <;> rfl
@[simp] theorem setPred_posting (g : Group) (k l : Nat) (b : Bool) : (g.setPred k l b).posting = g.posting := by unfold Group.setPred; split <;> rfl

end Sys2Proof.Machine
end

