-- ==== Sys2Proof/Laws/Scalar.lean ====
section
/-! SUPPORT. What the shared operations of the scalar instructions do, once: an operation over the current group, the
completion of an instruction, and the traps.
-/

namespace Sys2Proof.Machine

/-- A group's meaning answers what its function says of the current group. -/
theorem groupStep_next {s : State} {gid : Nat} {g : Group} (h : Here s gid g) (f : Nat → Group → Mach) :
    groupStep s f = .next { s with m := f gid g } := by
  obtain ⟨hc, hg⟩ := h
  subst hc
  simp [groupStep, onMach, onGroup, hg]

/-- An event answers what its function says of the module. -/
theorem event_next (s : State) (f : Mach → Mach) : event s f = .next { s with m := f s.m } := rfl

/-- What completing an instruction does to its group: all of it, and to nothing else of the module. -/
theorem finish_eq (m : Mach) (gid : Nat) (g : Group) (pc code : Dword) :
    finish m gid g pc code = m.setGrp gid
      { g.fold code with
          spc := pc, stuck := false, waitedFrom := none, bar := none, fabric := .none, flight := none, st := g.st.woken,
          posting := g.posting.filter fun p => p.spc != g.spc,
          readyAt := if g.st.isWaiting then (m.core g.core).cyc else g.readyAt } := by
  unfold finish advance
  simp

/-- The signature after a fold (R336). -/
theorem folded_fold (g : Group) (code : Dword) (x : Group) (hs : x.sig = (g.fold code).sig) : Folded g x code := by
  constructor
  · intro h
    simp [hs, Group.fold, h]
  · intro h hq
    simp [hs, Group.fold, h, hq, foldSig]

/-- An instruction that completes leaves its group done. -/
theorem finish_done (g : Group) (pc code : Dword) (n : Nat) :
    ScalarDone g
      { g.fold code with
          spc := pc, stuck := false, waitedFrom := none, bar := none, fabric := .none, flight := none, st := g.st.woken,
          posting := g.posting.filter fun p => p.spc != g.spc, readyAt := n }
      pc code := by
  refine ⟨?_, folded_fold g code _ rfl⟩
  unfold Group.fold
  split
  · rfl
  · split <;> rfl

/-- Completing an instruction puts its group back done, and does nothing else. -/
theorem finish_sets (m : Mach) (gid : Nat) (g : Group) (pc code : Dword) :
    ∃ g', finish m gid g pc code = m.setGrp gid g' ∧ ScalarDone g g' pc code :=
  ⟨_, finish_eq m gid g pc code, finish_done g pc code _⟩

/-- A group put back with the same regions, log and team changes nothing outside it. -/
theorem onlyGroup_setGrp {s : State} {gid : Nat} {g x : Group} (hg : s.m.grp? gid = some g) (hr : x.rgn = g.rgn)
    (hl : x.log = g.log) (ht : x.team = g.team) : OnlyGroup s { s with m := s.m.setGrp gid x } gid := by
  refine ⟨rfl, fun k hk => aget_aput_ne _ _ _ _ hk, fun l => readByte_setGrp s.m gid g x l hg hr hl ht⟩

/-- An instruction of the group g that completes as g1 (which has g's place in memory) answers a next state: g1 done, and
nothing else changed. -/
theorem finish_completes {s : State} {gid : Nat} {g : Group} (h : Here s gid g) (g1 : Group) (pc code : Dword)
    (hr : g1.rgn = g.rgn) (hl : g1.log = g.log) (ht : g1.team = g.team) :
    ∃ g', OnlyGroup s { s with m := finish s.m gid g1 pc code } gid
      ∧ (finish s.m gid g1 pc code).grp? gid = some g' ∧ ScalarDone g1 g' pc code := by
  obtain ⟨g', he, hd⟩ := finish_sets s.m gid g1 pc code
  have hd1 := hd.1
  refine ⟨g', ?_, by rw [he]; exact setGrp_grp? .., hd⟩
  rw [he]
  exact onlyGroup_setGrp h.2 (by rw [hd1, ← hr]) (by rw [hd1, ← hl]) (by rw [hd1, ← ht])

/-- A scalar instruction that computes a register completes so (R104 to R106). -/
theorem aluStep_writes {s : State} {gid : Nat} {g : Group} (h : Here s gid g) (i : Instr) (major func : Nat) (sd : Sreg)
    (f : Group → Dword) (hi : exec i s = aluStep s major func sd f) :
    WritesReg i s gid g sd (f g) (scalarCode major func) := by
  obtain ⟨g', ho, hg', hd⟩ := finish_completes h (g.setS sd (f g)) ((g.setS sd (f g)).spc + 4) (scalarCode major func)
    (by simp) (by simp) (by simp)
  refine ⟨_, by rw [hi, aluStep, groupStep_next h]; rfl, ho, g', hg', ?_, ?_⟩
  · intro r
    obtain ⟨hd, -⟩ := hd
    have : g'.regs = (g.setS sd (f g)).regs := by rw [hd]
    simp only [Group.s, this]
    have := s_setS g sd r (f g)
    simpa only [Group.s] using this
  · obtain ⟨hd, hf⟩ := hd
    refine ⟨?_, ?_⟩
    · rw [hd]; unfold Group.setS; split <;> rfl
    · simpa [Folded, Group.isTrapped] using hf

/-- A scalar instruction that completes and changes only its group leaves it so. -/
theorem leaves_finish {s : State} {gid : Nat} {g : Group} (h : Here s gid g) (i : Instr) (g1 : Group) (pc code : Dword)
    (hi : exec i s = .next { s with m := finish s.m gid g1 pc code }) (hr : g1.rgn = g.rgn) (hl : g1.log = g.log)
    (ht : g1.team = g.team) : Leaves i s gid g1 pc code := by
  obtain ⟨g', ho, hg', hd⟩ := finish_completes h g1 pc code hr hl ht
  exact ⟨_, hi, ho, g', hg', hd⟩

/-- A scalar instruction that computes the flags completes so (R105). -/
theorem flagStep_writes {s : State} {gid : Nat} {g : Group} (h : Here s gid g) (i : Instr) (major func : Nat)
    (f : Group → Flags) (hi : exec i s = flagStep s major func f) :
    Leaves i s gid { g with flags := f g } (g.spc + 4) (scalarCode major func) :=
  leaves_finish h i _ _ _ (by rw [hi, flagStep, groupStep_next h]; rfl) rfl rfl rfl

/-- A scalar instruction that completes in a module m1 leaves its group so there. -/
theorem leavesIn_finish {s : State} {gid : Nat} (i : Instr) (m1 : Mach) (g1 : Group) (pc code : Dword)
    (hi : exec i s = .next { s with m := finish m1 gid g1 pc code }) : LeavesIn i s gid m1 g1 pc code := by
  obtain ⟨g', he, hd⟩ := finish_sets m1 gid g1 pc code
  exact ⟨g', by rw [hi, he], hd⟩

end Sys2Proof.Machine
end

