-- ==== Sys2Proof/Laws/Lane.lean ====
section
/-! SUPPORT. What the shared operations of the lane instructions do, once: the issue of a head, the results written, and the
completion.
-/

namespace Sys2Proof.Machine

/-- A lane instruction that issues answers what its function says of its inputs. -/
theorem laneStep_next {s : State} {gid : Nat} {g : Group} {e : LiqEntry} {i : Instr} (h : Issues s gid g e i) (w : LaneWord)
    (f : Nat → LaneIn → Mach) : laneStep s i w f = .next { s with m := f gid (laneIn s.m g e i w) } := by
  obtain ⟨⟨hc, hg⟩, hq, hb, hk, -⟩ := h
  subst hc
  unfold laneStep
  rw [hg]
  cases hl : g.qs.liq with
  | nil => rw [hl] at hq; cases hq
  | cons x r =>
    rw [hl] at hq
    have : x = e := by simpa using hq
    subst this
    simp [hb, hk, hl]

/-- A lane is in the instruction's E as R37 says. -/
theorem mem_lanes (s : State) (g : Group) (e : LiqEntry) (i : Instr) (w : LaneWord) (l : Nat) :
    l ∈ (laneIn s.m g e i w).lanes ↔ effective g e w l := by
  simp [LaneIn.lanes, LaneIn.inE, Group.guard, effective, laneIn, bit, BitVec.testBit_toNat, and_assoc]

theorem vreg_setV_self (g : Group) (r l : Nat) (x : Word) (c : Option Check) : (g.setV r l x c).vreg r l = x := by
  simp only [Group.vreg, Group.setV, putV]
  split
  · rename_i h; simp [aget_adel_self, h]
  · simp [aget_aput_self]

theorem vreg_setV_ne (g : Group) (r l q k : Nat) (x : Word) (c : Option Check) (h : q * 128 + k ≠ r * 128 + l) :
    (g.setV r l x c).vreg q k = g.vreg q k := by
  simp only [Group.vreg, Group.setV, putV]
  split
  · simp [aget_adel_ne _ _ _ h]
  · simp [aget_aput_ne _ _ _ _ h]

theorem chk_setV_ne (g : Group) (r l key : Nat) (x : Word) (c : Option Check) (h : key ≠ r * 128 + l) :
    aget (g.setV r l x c).chk key = aget g.chk key := by
  simp only [Group.setV]
  cases c
  · exact aget_adel_ne _ _ _ h
  · exact aget_aput_ne _ _ _ _ h

theorem chk_setV_none (g : Group) (r l : Nat) (x : Word) : aget (g.setV r l x none).chk (r * 128 + l) = none :=
  aget_adel_self _ _

/-- A group is another but for its v registers and their checks. -/
def SameButV (g1 g : Group) : Prop := g1 = { g with v := g1.v, chk := g1.chk }

theorem sameButV_setV (g0 g : Group) (r l : Nat) (x : Word) (c : Option Check) (h : SameButV g g0) :
    SameButV (g.setV r l x c) g0 := by
  unfold SameButV at *
  rw [h]
  rfl

theorem sameButV_writeReg (x : LaneIn) (sh : Bool) (n : Nat) : ∀ (r l v : Nat) (g0 g : Group), SameButV g g0 →
    SameButV (x.writeReg sh r l v n g) g0 := by
  induction n with
  | zero => intro r l v g0 g h; exact h
  | succ n ih => intro r l v g0 g h; exact ih _ _ _ _ _ (sameButV_setV _ _ _ _ _ _ h)

/-- What writing a result to n registers of a lane leaves in every register. -/
theorem vreg_writeReg (x : LaneIn) (sh : Bool) (n : Nat) : ∀ (r l v : Nat) (g : Group) (q k : Nat), l < 128 → k < 128 →
    (x.writeReg sh r l v n g).vreg q k
      = if k = l ∧ r ≤ q ∧ q < r + n then BitVec.ofNat 32 (v / 2 ^ (32 * (q - r))) else g.vreg q k := by
  induction n with
  | zero =>
    intro r l v g q k _ _
    rw [if_neg (by omega)]; rfl
  | succ n ih =>
    intro r l v g q k hl hk
    show (x.writeReg sh (r + 1) l (v / 2 ^ 32) n _).vreg q k = _
    rw [ih _ _ _ _ _ _ hl hk]
    by_cases h1 : k = l ∧ r + 1 ≤ q ∧ q < r + 1 + n
    · rw [if_pos h1, if_pos (by omega)]
      have h2 : q - r = (q - (r + 1)) + 1 := by omega
      rw [h2, Nat.mul_add, Nat.pow_add, Nat.mul_comm (2 ^ _), ← Nat.div_div_eq_div_mul]
    · rw [if_neg h1]
      by_cases h2 : k = l ∧ q = r
      · obtain ⟨rfl, rfl⟩ := h2
        rw [if_pos (by omega), vreg_setV_self]
        simp
      · rw [if_neg (by omega), vreg_setV_ne]
        omega

theorem chk_writeReg_ne (x : LaneIn) (sh : Bool) (n : Nat) : ∀ (r l v : Nat) (g : Group) (q k : Nat), l < 128 → k < 128 →
    ¬ (k = l ∧ r ≤ q ∧ q < r + n) → aget (x.writeReg sh r l v n g).chk (q * 128 + k) = aget g.chk (q * 128 + k) := by
  induction n with
  | zero => intro r l v g q k _ _ _; rfl
  | succ n ih =>
    intro r l v g q k hl hk h
    show aget (x.writeReg sh (r + 1) l (v / 2 ^ 32) n _).chk _ = _
    rw [ih _ _ _ _ _ _ hl hk (by omega), chk_setV_ne]
    omega

theorem chk_writeReg_none (x : LaneIn) (n : Nat) : ∀ (r l v : Nat) (g : Group) (q : Nat), l < 128 →
    r ≤ q → q < r + n → aget (x.writeReg false r l v n g).chk (q * 128 + l) = none := by
  induction n with
  | zero => intro r l v g q _ h1 h2; omega
  | succ n ih =>
    intro r l v g q hl h1 h2
    show aget (x.writeReg false (r + 1) l (v / 2 ^ 32) n _).chk _ = _
    by_cases h : r + 1 ≤ q
    · exact ih _ _ _ _ _ hl h (by omega)
    · have : q = r := by omega
      subst this
      rw [chk_writeReg_ne _ _ _ _ _ _ _ _ _ hl hl (by omega)]
      exact chk_setV_none ..

/-- The results of some lanes written one after another. -/
theorem writes_fold (x : LaneIn) (sh : Bool) (d n : Nat) (f : Nat → Nat × FFlags) (ls : List Nat) :
    ∀ g : Group, (∀ l ∈ ls, l < 128) →
    let g1 := (ls.map fun l => (l, (f l).1)).foldl (fun g lv => x.writeReg sh d lv.1 lv.2 n g) g
    SameButV g1 g
    ∧ (∀ q k, k < 128 → g1.vreg q k = if k ∈ ls ∧ d ≤ q ∧ q < d + n then BitVec.ofNat 32 ((f k).1 / 2 ^ (32 * (q - d))) else g.vreg q k)
    ∧ (∀ q k, k < 128 → ¬ (k ∈ ls ∧ d ≤ q ∧ q < d + n) → aget g1.chk (q * 128 + k) = aget g.chk (q * 128 + k))
    ∧ (sh = false → ∀ q k, k ∈ ls → d ≤ q → q < d + n → aget g1.chk (q * 128 + k) = none) := by
  induction ls with
  | nil => intro g _; exact ⟨rfl, by simp, by simp, by simp⟩
  | cons a r ih =>
    intro g h
    have ha : a < 128 := h a (by simp)
    obtain ⟨h1, h2, h3, h4⟩ := ih (x.writeReg sh d a (f a).1 n g) (fun l hl => h l (by simp [hl]))
    simp only [List.map_cons, List.foldl_cons]
    refine ⟨?_, ?_, ?_, ?_⟩
    · have hs := sameButV_writeReg x sh n d a (f a).1 g g rfl
      unfold SameButV at *
      rw [h1, hs]
    · intro q k hk
      rw [h2 q k hk]
      by_cases hr : k ∈ r ∧ d ≤ q ∧ q < d + n
      · rw [if_pos hr, if_pos ⟨by simp [hr.1], hr.2⟩]
      · rw [if_neg hr, vreg_writeReg _ _ _ _ _ _ _ _ _ ha hk]
        by_cases hka : k = a ∧ d ≤ q ∧ q < d + n
        · rw [if_pos hka, if_pos ⟨by simp [hka.1], hka.2⟩, hka.1]
        · rw [if_neg hka, if_neg]
          simp only [List.mem_cons]
          tauto
    · intro q k hk hn
      rw [h3 q k hk (by simp only [List.mem_cons] at hn; tauto), chk_writeReg_ne _ _ _ _ _ _ _ _ _ ha hk]
      simp only [List.mem_cons] at hn
      tauto
    · intro hsh q k hkm hd hq
      by_cases hr : k ∈ r
      · exact h4 hsh q k hr hd hq
      · have hka : k = a := by simp only [List.mem_cons] at hkm; tauto
        subst hka
        rw [h3 q k ha (by tauto)]
        subst hsh
        exact chk_writeReg_none _ _ _ _ _ _ _ ha hd hq

/-- The conditions of some lanes gathered (R73). -/
theorem flags_fold (f : Nat → Nat × FFlags) (ls : List Nat) : ∀ a : FFlags,
    let fl := (ls.map fun l => (l, f l)).foldl (fun a r => a.or r.2.2) a
    (fl.ov = true ↔ a.ov = true ∨ ∃ l ∈ ls, (f l).2.ov = true) ∧ (fl.dz = true ↔ a.dz = true ∨ ∃ l ∈ ls, (f l).2.dz = true)
    ∧ (fl.iv = true ↔ a.iv = true ∨ ∃ l ∈ ls, (f l).2.iv = true) := by
  induction ls with
  | nil => simp
  | cons x r ih =>
    intro a
    obtain ⟨h1, h2, h3⟩ := ih (a.or (f x).2)
    simp only [List.map_cons, List.foldl_cons, h1, h2, h3]
    simp [FFlags.or, or_assoc]

/-- The latches after some lanes' results are captured. -/
theorem latches_fold (k : Nat) (f : Nat → Nat × FFlags) (ls : List Nat) : ∀ m : AMap Dword,
    (∀ l, l ∈ ls → aget ((ls.map fun l => (l, (f l).1)).foldl (fun m lv => aput m (k * 128 + lv.1) (BitVec.ofNat 64 lv.2)) m)
      (k * 128 + l) = some (BitVec.ofNat 64 (f l).1))
    ∧ ∀ j, (∀ l ∈ ls, j ≠ k * 128 + l) → aget ((ls.map fun l => (l, (f l).1)).foldl
        (fun m lv => aput m (k * 128 + lv.1) (BitVec.ofNat 64 lv.2)) m) j = aget m j := by
  induction ls with
  | nil => simp
  | cons x r ih =>
    intro m
    obtain ⟨h1, h2⟩ := ih (aput m (k * 128 + x) (BitVec.ofNat 64 (f x).1))
    simp only [List.map_cons, List.foldl_cons]
    refine ⟨?_, ?_⟩
    · intro l hl
      by_cases hr : l ∈ r
      · exact h1 l hr
      · have : l = x := by simp only [List.mem_cons] at hl; tauto
        subst this
        rw [h2 _ (by intro q hq; have : q ≠ l := fun e => hr (e ▸ hq); omega), aget_aput_self]
    · intro j hj
      rw [h2 j (fun l hl => hj l (by simp [hl])), aget_aput_ne _ _ _ _ (hj x (by simp))]

/-- The signature and its tail after the entry e of i has issued (R336). -/
theorem fillHole_one (sig code : Dword) : fillHole sig [.hole] code = ((sig.rotateLeft 5) ^^^ code, []) := rfl

/-- The completion of a lane instruction changes its group and its core alone, as `LaneDone` says. -/
theorem laneFinish_leaves {s : State} {gid : Nat} {g : Group} {e : LiqEntry} {i : Instr} (h : Issues s gid g e i)
    (w : LaneWord) (g1 : Group) (c : Chain) (more : Group → Prop)
    (hi : exec i s = .next { s with m := laneFinish s.m gid g1 e i w c }) (hg1 : g1.core = g.core) (hw : g1.width = g.width)
    (hr : g1.rgn = g.rgn) (hl : g1.log = g.log) (ht : g1.team = g.team) (hs : g1.sig = g.sig) (hsq : g1.sigq = g.sigq)
    (hq : g1.qs.sq = g.qs.sq) (hci : c.issued = (g.chain.getD Chain.empty).issued)
    (hcp : c.popped = (g.chain.getD Chain.empty).popped)
    (hm : ∀ g', (w.stick = true → ∃ c', g'.chain = some c' ∧ c'.latches = c.latches) → more g') :
    LaneLeaves i w s gid g e g1 more := by
  obtain ⟨⟨hc, hg⟩, -⟩ := h
  have key : ∃ (g' : Group) (fr : Nat), laneFinish s.m gid g1 e i w c
        = { (s.m.setGrp gid g').setCore g.core (coreAfter (s.m.core g.core) gid g i w) with free := fr }
      ∧ LaneDone i w g g1 g' e (s.m.core g.core).cyc ∧ (w.stick = true → ∃ c', g'.chain = some c' ∧ c'.latches = c.latches) := by
    generalize hp : (if e.fold = true then fillHole g1.sig g1.sigq (foldCode (laneOpcode i) w) else (g1.sig, g1.sigq)) = p
    let g' : Group := { g1 with
      sig := p.1, sigq := p.2, qs := { g1.qs with liq := g1.qs.liq.drop 1, sq := g1.qs.sq.drop (sqNeeds i) },
      chain := if w.stick = true then
        some { c with issued := c.issued ++ [{ e with inject := none }], popped := c.popped ++ g1.qs.sq.take (sqNeeds i) }
        else none,
      issuedAt := (s.m.core g1.core).cyc, fabric := .none, flight := none,
      ready := (destRegs i).foldl (fun r n =>
        aput r n ((s.m.core g1.core).cyc + Config.latency (s.m.core g1.core).cyc gid)) g1.ready }
    refine ⟨g', if usesLatch w then s.m.free + 512 else s.m.free, ?_, ⟨?_, ?_, ?_, ?_, ?_, ?_⟩, ?_⟩
    · unfold laneFinish
      rw [hp]
      have hb : g1.beats = g.beats := by simp [Group.beats, hw]
      have hcore : coreAfter (s.m.core g.core) gid g i w
          = { (s.m.core g1.core) with
              cyc := (s.m.core g1.core).cyc + g1.beats, chainOf := if w.stick = true then some gid else none,
              yielded := if (w.yield && !w.stick) = true then some gid else none,
              memset := if isMemory i = true then aput (s.m.core g1.core).memset gid (s.m.core g1.core).cyc
                else (s.m.core g1.core).memset } := by rw [hg1, hb]; rfl
      rw [hcore, ← hg1]
      by_cases hu : usesLatch w = true
      · simp only [hu, if_true]; rfl
      · simp only [hu]; rfl
    · simp only [g', hg1]
    · exact fun r hr => aget_foldl_aput_ne _ _ _ _ hr
    · intro hst; simp [g', hst]
    · intro hst
      exact ⟨{ c with issued := c.issued ++ [{ e with inject := none }], popped := c.popped ++ g1.qs.sq.take (sqNeeds i) },
        by simp [g', hst], by simp [hci], by simp [hcp, hq]⟩
    · intro hf
      rw [if_neg (by simp [hf])] at hp
      subst hp
      exact ⟨hs, hsq⟩
    · intro hf hone
      rw [if_pos hf, hs, hsq, hone, fillHole_one] at hp
      subst hp
      exact ⟨rfl, rfl⟩
    · intro hst
      exact ⟨{ c with issued := c.issued ++ [{ e with inject := none }], popped := c.popped ++ g1.qs.sq.take (sqNeeds i) },
        by simp [g', hst], rfl⟩
  obtain ⟨g', fr, he, hd, hcap⟩ := key
  rw [he] at hi
  have hd1 := hd.1
  refine ⟨_, hi, ⟨rfl, fun k hk => aget_aput_ne _ _ _ _ hk, fun k hk => ?_, fun l hlog => ?_⟩, ?_, g', ?_, hd, hm g' hcap⟩
  · exact setCore_core_ne _ _ _ _ hk
  · have hr' : g'.rgn = g.rgn := by rw [hd1, ← hr]
    have hl' : g'.log = g.log := by rw [hd1, ← hl]
    have ht' : g'.team = g.team := by rw [hd1, ← ht]
    show readByte { s.m.setGrp gid g' with cores := _, free := fr } l = _
    rw [readByte_free _ _ _ _ (fun a ha => by rw [logAt_setGrp s.m gid g g' a hg hr' hl' ht']; exact hlog a ha)]
    exact readByte_setGrp s.m gid g g' l hg hr' hl' ht'
  · exact setCore_core ..
  · exact setGrp_grp? ..

/-- The results written by a lane instruction, with its conditions raised (R37, R38, R73). -/
theorem wrote_raise {s : State} {g : Group} {e : LiqEntry} {i : Instr} (w : LaneWord) (n : Nat) (f : Nat → Nat × FFlags)
    (sh : Bool) (hsh : w.shadowed = false → sh = false) (hw96 : g.width ≤ 96) :
    let x := laneIn s.m g e i w
    Wrote g ((x.write sh n (x.lanes.map fun l => (l, (f l).1))).raise
      ((x.lanes.map fun l => (l, f l)).foldl (fun a r => a.or r.2.2) .clear)) e w n f := by
  intro x
  have hlane : ∀ l ∈ x.lanes, l < 128 := by
    intro l hl
    have := ((mem_lanes s g e i w l).1 hl).1
    omega
  obtain ⟨h1, h2, h3, h4⟩ := writes_fold x sh w.dst.toNat n f x.lanes g hlane
  obtain ⟨f1, f2, f3⟩ := flags_fold f x.lanes .clear
  have hmem : ∀ l, l ∈ x.lanes ↔ effective g e w l := mem_lanes s g e i w
  have hwrite : x.write sh n (x.lanes.map fun l => (l, (f l).1))
      = if w.dst.toNat < 256 then (x.lanes.map fun l => (l, (f l).1)).foldl
          (fun g lv => x.writeReg sh w.dst.toNat lv.1 lv.2 n g) g else g := rfl
  rw [hwrite]
  refine ⟨?_, ?_, ?_, (x.lanes.map fun l => (l, f l)).foldl (fun a r => a.or r.2.2) .clear, ?_, ?_, ?_, ?_⟩
  · split
    · unfold SameButV at h1
      simp only [Group.raise]
      rw [h1]
    · rfl
  · intro r l hl hd he hr1 hr2
    rw [if_pos hd]
    simp only [Group.raise]
    refine ⟨?_, ?_⟩
    · have := h2 r l hl
      rw [if_pos ⟨(hmem l).2 he, hr1, hr2⟩] at this
      exact this
    · intro hns
      exact h4 (hsh hns) r l ((hmem l).2 he) hr1 hr2
  · intro r l hl hn
    simp only [Group.raise]
    by_cases hd : w.dst.toNat < 256
    · rw [if_pos hd]
      have hn2 : ¬ (l ∈ x.lanes ∧ w.dst.toNat ≤ r ∧ r < w.dst.toNat + n) := by
        rintro ⟨a, b⟩
        exact hn ⟨hd, (hmem l).1 a, b⟩
      refine ⟨?_, h3 r l hl hn2⟩
      have := h2 r l hl
      rw [if_neg hn2] at this
      exact this
    · rw [if_neg hd]
      exact ⟨rfl, rfl⟩
  · split
    · unfold SameButV at h1
      show (Group.fpstat _ ||| _) = _
      rw [show Group.fpstat _ = g.fpstat by rw [h1]]
    · rfl
  · rw [f1]; simp [hmem, FFlags.clear]
  · rw [f2]; simp [hmem, FFlags.clear]
  · rw [f3]; simp [hmem, FFlags.clear]

/-- A lane instruction that computes registers completes so. -/
theorem laneArith_writes {s : State} {gid : Nat} {g : Group} {e : LiqEntry} {i : Instr} (h : Issues s gid g e i)
    (w : LaneWord) (n : Nat) (f : LaneIn → Nat → Nat × FFlags) (P : Nat → Nat → FFlags → Prop)
    (hi : exec i s = laneArith s i w n f) (hread : ReadsPass i g (laneIn s.m g e i w).lanes)
    (hP : ∀ l, effective g e w l → P l (f (laneIn s.m g e i w) l).1 (f (laneIn s.m g e i w) l).2) :
    LaneWrites i w s gid g e n P := by
  unfold ReadsPass at hread
  have hw96 := h.2.2.2.2
  let x := laneIn s.m g e i w
  let fx := f x
  have hi2 := hi
  unfold laneArith at hi2
  rw [laneStep_next h, if_neg (by
    show ¬ (laneIn s.m g e i w).g.readFails _ _ = true
    simp [laneIn] at hread ⊢; simpa using hread)] at hi2
  simp only at hi2
  let sh := isShadowed (s.m.features x.g.core) i w && decide (w.nw = 0)
  have hsh : w.shadowed = false → sh = false := by intro hs; simp [sh, isShadowed, hs]
  have hwr := wrote_raise (s := s) (i := i) (e := e) w n fx sh hsh hw96
  refine ⟨fx, hP, _, hwr, ?_⟩
  have hg1 := hwr.1
  let c := x.capture (x.lanes.map fun l => (l, (fx l).1)) (x.g.chain.getD Chain.empty)
  have hvals : (((laneIn s.m g e i w).lanes.map fun l => (l, f (laneIn s.m g e i w) l)).map fun r => (r.1, r.2.1))
      = (laneIn s.m g e i w).lanes.map fun l => (l, (fx l).1) := by
    simp [fx, x]
  rw [hvals] at hi2
  have hc : c.issued = (g.chain.getD Chain.empty).issued ∧ c.popped = (g.chain.getD Chain.empty).popped := by
    simp only [c, LaneIn.capture]
    split <;> exact ⟨rfl, rfl⟩
  refine laneFinish_leaves h w _ (if (sh && decide (w.dst.toNat < 256)) = true then
      { c with shadows := { reg := w.dst.toNat, wide := n = 2, vals := (x.lanes.map fun l => (l, (fx l).1)).map fun v => (v.1, BitVec.ofNat 64 v.2) } :: c.shadows }
    else c) _ ?done ?_ ?_ ?_ ?_ ?_ ?_ ?_ ?_ ?issued ?popped ?latches
  case done => rw [hi2]; rfl
  case issued => split <;> exact hc.1
  case popped => split <;> exact hc.2
  case latches =>
    intro g' hg' hst hcap
    obtain ⟨c', hc', hl'⟩ := hg' hst
    refine ⟨c', hc', fun l hl => ?_⟩
    have hlat : c'.latches = c.latches := by
      rw [hl']; split <;> rfl
    rw [hlat]
    have hlt : ¬ (w.cap.toNat < 4) := by omega
    show aget (LaneIn.capture x _ _).latches _ = _
    unfold LaneIn.capture
    rw [if_neg (by exact hlt)]
    exact (latches_fold (w.cap.toNat - 4) fx x.lanes _).1 l ((mem_lanes s g e i w l).2 hl)
  all_goals rw [hg1]

theorem updateAt_some {α : Type} {n : Nat} (v : Vector α n) (i : Nat) (f : α → α) (h : i < n) (j : Nat) :
    (updateAt v i f)[j]? = if j = i then some (f v[i]) else v[j]? := by
  have hs : v[i]? = some v[i] := by simp [h]
  unfold updateAt
  rw [hs]
  by_cases hj : j = i
  · subst hj
    rw [if_pos rfl, Vector.getElem?_setIfInBounds_self_of_lt h]
  · rw [if_neg hj, Vector.getElem?_setIfInBounds_ne (fun e => hj e.symm)]

theorem updateAt_none {α : Type} {n : Nat} (v : Vector α n) (i : Nat) (f : α → α) (h : n ≤ i) : updateAt v i f = v := by
  have hs : v[i]? = none := by simp; omega
  unfold updateAt
  rw [hs]

theorem lane_bit (l q : Nat) (hq : q < 96) : (BitVec.ofNat 96 (2 ^ l)).getLsbD q = decide (l = q) := by
  rw [BitVec.getLsbD_ofNat, Nat.testBit_two_pow]
  simp [hq]

/-- A predicate read after a write: p7 reads 1 whatever is written. -/
theorem pred_setPred (g : Group) (k l j q : Nat) (b : Bool) (hq : q < 96) :
    (g.setPred k l b).pred j q = if j = k ∧ q = l ∧ k < 7 then b else g.pred j q := by
  unfold Group.setPred
  by_cases h7 : k = 7
  · rw [if_pos h7, if_neg (by omega)]
  · rw [if_neg h7]
    unfold Group.pred
    by_cases hj7 : j = 7
    · rw [if_pos hj7, if_pos hj7, if_neg (by omega)]
    · rw [if_neg hj7, if_neg hj7]
      by_cases hk : k < 7
      · simp only []
        rw [updateAt_some _ _ _ hk]
        by_cases hjk : j = k
        · subst hjk
          have hs : g.preds[j]? = some (g.preds[j]'hk) := by simp [hk]
          rw [if_pos rfl, hs]
          by_cases hql : q = l
          · subst hql
            have hc : j = j ∧ q = q ∧ j < 7 := ⟨rfl, rfl, hk⟩
            rw [if_pos hc]
            cases b
            · simp only [Option.getD_some, Bool.false_eq_true, if_false, BitVec.getLsbD_and, BitVec.getLsbD_not, lane_bit _ _ hq]
              simp
            · simp only [Option.getD_some, if_true, BitVec.getLsbD_or, lane_bit _ _ hq]
              simp
          · have hc : ¬ (j = j ∧ q = l ∧ j < 7) := fun e => hql e.2.1
            rw [if_neg hc]
            have hlq : ¬ l = q := fun e => hql e.symm
            cases b
            · simp only [Option.getD_some, Bool.false_eq_true, if_false, BitVec.getLsbD_and, BitVec.getLsbD_not, lane_bit _ _ hq]
              simp [hlq, hq]
            · simp only [Option.getD_some, if_true, BitVec.getLsbD_or, lane_bit _ _ hq]
              simp [hlq]
        · rw [if_neg hjk, if_neg (fun e => hjk e.1)]
      · rw [if_neg (fun e => hk e.2.2)]
        simp only []
        rw [updateAt_none _ _ _ (by omega)]

/-- Predicates of some lanes written one after another. -/
theorem preds_fold (d : Nat) (f : Nat → Bool × FFlags) (ls : List Nat) : ∀ g : Group,
    let g1 := (ls.map fun l => (l, f l)).foldl (fun g r => g.setPred d r.1 r.2.1) g
    g1 = { g with preds := g1.preds }
    ∧ ∀ k l, l < 96 → g1.pred k l = if k = d ∧ l ∈ ls ∧ d < 7 then (f l).1 else g.pred k l := by
  induction ls with
  | nil => intro g; exact ⟨rfl, by simp⟩
  | cons a r ih =>
    intro g
    obtain ⟨h1, h2⟩ := ih (g.setPred d a (f a).1)
    simp only [List.map_cons, List.foldl_cons]
    refine ⟨?_, ?_⟩
    · rw [h1]
      unfold Group.setPred
      split <;> rfl
    · intro k l hl
      rw [h2 k l hl, pred_setPred _ _ _ _ _ _ hl]
      by_cases h3 : k = d ∧ l ∈ r ∧ d < 7
      · rw [if_pos h3, if_pos (by simp [h3])]
      · rw [if_neg h3]
        by_cases h4 : k = d ∧ l = a ∧ d < 7
        · rw [if_pos h4, if_pos (by simp [h4]), h4.2.1]
        · rw [if_neg h4, if_neg]
          simp only [List.mem_cons]
          tauto

/-- The conditions of some lanes gathered, where the results are predicates. -/
theorem flags_fold_pred (f : Nat → Bool × FFlags) (ls : List Nat) : ∀ a : FFlags,
    let fl := (ls.map fun l => (l, f l)).foldl (fun a r => a.or r.2.2) a
    (fl.ov = true ↔ a.ov = true ∨ ∃ l ∈ ls, (f l).2.ov = true) ∧ (fl.dz = true ↔ a.dz = true ∨ ∃ l ∈ ls, (f l).2.dz = true)
    ∧ (fl.iv = true ↔ a.iv = true ∨ ∃ l ∈ ls, (f l).2.iv = true) := by
  induction ls with
  | nil => simp
  | cons x r ih =>
    intro a
    obtain ⟨h1, h2, h3⟩ := ih (a.or (f x).2)
    simp only [List.map_cons, List.foldl_cons, h1, h2, h3]
    simp [FFlags.or, or_assoc]

/-- A lane instruction that computes a predicate completes so. -/
theorem lanePred_writes {s : State} {gid : Nat} {g : Group} {e : LiqEntry} {i : Instr} (w : LaneWord) (f : LaneIn → Nat → Bool × FFlags) (P : Nat → Bool → FFlags → Prop) (hi : exec i s = lanePred s i w f)
    (hP : ∀ l, effective g e w l → P l (f (laneIn s.m g e i w) l).1 (f (laneIn s.m g e i w) l).2) :
    LaneDecides i w s gid g e P := by
  intro _ h hread
  unfold ReadsPass at hread
  have hmem : ∀ l, l ∈ (laneIn s.m g e i w).lanes ↔ effective g e w l := mem_lanes s g e i w
  have hi2 := hi
  unfold lanePred at hi2
  rw [laneStep_next h, if_neg (by
    show ¬ (laneIn s.m g e i w).g.readFails _ _ = true
    simp [laneIn] at hread ⊢; simpa using hread)] at hi2
  simp only at hi2
  obtain ⟨h1, h2⟩ := preds_fold w.dst.toNat (f (laneIn s.m g e i w)) (laneIn s.m g e i w).lanes g
  obtain ⟨f1, f2, f3⟩ := flags_fold_pred (f (laneIn s.m g e i w)) (laneIn s.m g e i w).lanes .clear
  let fl := ((laneIn s.m g e i w).lanes.map fun l => (l, f (laneIn s.m g e i w) l)).foldl (fun a r => a.or r.2.2) FFlags.clear
  let gp := ((laneIn s.m g e i w).lanes.map fun l => (l, f (laneIn s.m g e i w) l)).foldl (fun g r => g.setPred w.dst.toNat r.1 r.2.1) g
  have hgp : gp = { g with preds := gp.preds } := h1
  have hg1 : gp.raise fl = { g with preds := gp.preds, fpstat := g.fpstat ||| fl.word } := by
    unfold Group.raise
    rw [hgp]
  have hpred : ∀ k l, (gp.raise fl).pred k l = gp.pred k l := fun _ _ => rfl
  refine ⟨f (laneIn s.m g e i w), hP, gp.raise fl, by rw [hg1], ?_, ?_, ⟨fl, by rw [hg1], ?_, ?_, ?_⟩,
    laneFinish_leaves h w _ _ _ hi2 ?_ ?_ ?_ ?_ ?_ ?_ ?_ ?_ rfl rfl (fun _ _ => trivial)⟩
  · intro l hd hl
    rw [hpred]
    have hl96 : l < 96 := by have := hl.1; have := h.2.2.2.2; omega
    have := h2 w.dst.toNat l hl96
    rw [if_pos ⟨rfl, (hmem l).2 hl, hd⟩] at this
    exact this
  · intro k l hl hn
    rw [hpred]
    have := h2 k l hl
    rw [if_neg (by rintro ⟨a, b, -⟩; exact hn ⟨a, (hmem l).1 b⟩)] at this
    exact this
  · rw [f3]; simp [hmem, FFlags.clear]
  · rw [f1]; simp [hmem, FFlags.clear]
  · rw [f2]; simp [hmem, FFlags.clear]
  · exact (congrArg Group.core hg1 :)
  · exact (congrArg Group.width hg1 :)
  · exact (congrArg Group.rgn hg1 :)
  · exact (congrArg Group.log hg1 :)
  · exact (congrArg Group.team hg1 :)
  · exact (congrArg Group.sig hg1 :)
  · exact (congrArg Group.sigq hg1 :)
  · exact (congrArg (fun x => x.qs.sq) hg1 :)

/-- A lane instruction that pushes entries to LQ completes so. -/
theorem lanePush_leaves {s : State} {gid : Nat} {g : Group} {e : LiqEntry} {i : Instr} (h : Issues s gid g e i)
    (w : LaneWord) (lanes : LaneIn → List Nat) (f : LaneIn → List Word × FFlags)
    (hi : exec i s = lanePush s i w lanes f)
    (hread : ReadsPass i g (lanes (laneIn s.m g e i w))) :
    let r := f (laneIn s.m g e i w)
    LaneLeaves i w s gid g e
      { g with qs := { g.qs with lq := g.qs.lq ++ r.1 }, fpstat := g.fpstat ||| r.2.word } fun _ => True := by
  intro r
  unfold ReadsPass at hread
  have hi2 := hi
  unfold lanePush at hi2
  rw [laneStep_next h, if_neg (by
    show ¬ (laneIn s.m g e i w).g.readFails _ _ = true
    simp [laneIn] at hread ⊢; simpa using hread)] at hi2
  exact laneFinish_leaves h w _ _ _ hi2 rfl rfl rfl rfl rfl rfl rfl rfl rfl rfl (fun _ _ => trivial)

end Sys2Proof.Machine
end

