-- ==== Sys2Proof/Laws/Page.lean ====
section
/-! SUPPORT. The walk of the page tables, one level at a time (R386), and what a fetch reads (R52, R390). -/

namespace Sys2Proof.Machine

/-- What a level of the walk does. -/
theorem walkTables_eq (m : Mach) (ctx va lvl table : Nat) (seen : List WalkEntry) :
    walkTables m ctx va lvl table seen = (let at_ := table + 8 * bits va (12 + 9 * lvl) 9
    let e := readNat m (.dev at_) 8
    if !bit e 0 then .error (.notPresent, lvl)
    else if pteBroken e lvl va then .error (.reservedBit, lvl)
    else if bit e 1 then
      .ok ({ ctx := ctx, base := bits va 0 57 / 2 ^ leafLog e lvl * 2 ^ leafLog e lvl, log := leafLog e lvl,
             level := lvl, pte := BitVec.ofNat 64 e, pteAt := at_ }, seen)
    else
      match lvl with
      | 0 => .error (.reservedBit, 0)
      | l + 1 =>
        walkTables m ctx va l (ptePa e * 4096)
          ({ ctx := ctx, level := l, pre := tableTag va l, table := ptePa e * 4096 } :: seen)) := by
  cases lvl <;> rfl

/-- A level whose entry is a leaf. -/
theorem walkTables_leaf (m : Mach) (ctx va lvl table e : Nat) (seen : List WalkEntry) (he : readNat m (.dev (table + 8 * bits va (12 + 9 * lvl) 9)) 8 = e)
    (h0 : bit e 0 = true) (hb : pteBroken e lvl va = false) (h1 : bit e 1 = true) :
    walkTables m ctx va lvl table seen
      = .ok ({ ctx := ctx, base := bits va 0 57 / 2 ^ leafLog e lvl * 2 ^ leafLog e lvl, log := leafLog e lvl, level := lvl,
               pte := BitVec.ofNat 64 e, pteAt := table + 8 * bits va (12 + 9 * lvl) 9 }, seen) := by
  rw [walkTables_eq]
  dsimp only
  rw [he, h0, hb, h1]
  rfl

/-- A level whose entry points to a table. -/
theorem walkTables_table (m : Mach) (ctx va l table e : Nat) (seen : List WalkEntry) (he : readNat m (.dev (table + 8 * bits va (12 + 9 * (l + 1)) 9)) 8 = e)
    (h0 : bit e 0 = true) (hb : pteBroken e (l + 1) va = false) (h1 : bit e 1 = false) :
    walkTables m ctx va (l + 1) table seen = walkTables m ctx va l (ptePa e * 4096)
      ({ ctx := ctx, level := l, pre := tableTag va l, table := ptePa e * 4096 } :: seen) := by
  rw [walkTables_eq]
  dsimp only
  rw [he, h0, hb, h1]
  rfl

/-- A word that nothing has been stored over is fetched as memory holds it (R52). -/
theorem fetchWord_untouched (m : Mach) (g : Group) (pa : Nat) (h : aget m.touched (pa / 4) = none) :
    fetchWord m g pa = BitVec.ofNat 32 (readNat m (.dev pa) 4) := by
  unfold fetchWord
  rw [h]
  rfl

/-- Words of one page that nothing has been stored over, fetched (R390). -/
theorem fetchWords_untouched {m m1 : Mach} {g : Group} {physical : Bool} {va n pa : Nat} (h : fetchPa m g physical va = .ok (m1, pa))
    (hn : n ≤ (4096 - va % 4096) / 4) (ht : ∀ i, i < n → aget m1.touched ((pa + 4 * i) / 4) = none) :
    fetchWords m g physical va n = .ok (m1, (List.range n).map fun i => BitVec.ofNat 32 (readNat m1 (.dev (pa + 4 * i)) 4)) := by
  unfold fetchWords
  simp only [h, if_pos hn, fetchRun]
  refine congrArg (fun l => Except.ok (m1, l)) (List.map_congr_left fun i hi => ?_)
  exact fetchWord_untouched m1 g _ (ht i (List.mem_range.1 hi))

end Sys2Proof.Machine
end

