-- ==== Sys2Proof/Laws/PerInstr.lean ====
section
/-! SUPPORT. One law for every constructor of `Instr`: a lane instruction's opcode (R46) decodes to that instruction, with the
fields of its word; every other constructor carries no lane word. -/

namespace Sys2Proof.Laws.LaneOpcode

/-- The opcode of an instruction that carries a lane word decodes, with that word, to the instruction (R46). -/
def Statement (i : Instr) : Prop := ∀ w, Machine.laneWord? i = some w → decodeLaneOp (laneOpcode i) w = .ok i

theorem add (sd sa sb : Sreg) : Statement (.add sd sa sb) := fun _ hx => nomatch hx
theorem sub (sd sa sb : Sreg) : Statement (.sub sd sa sb) := fun _ hx => nomatch hx
theorem and (sd sa sb : Sreg) : Statement (.and sd sa sb) := fun _ hx => nomatch hx
theorem or (sd sa sb : Sreg) : Statement (.or sd sa sb) := fun _ hx => nomatch hx
theorem xor (sd sa sb : Sreg) : Statement (.xor sd sa sb) := fun _ hx => nomatch hx
theorem andn (sd sa sb : Sreg) : Statement (.andn sd sa sb) := fun _ hx => nomatch hx
theorem orn (sd sa sb : Sreg) : Statement (.orn sd sa sb) := fun _ hx => nomatch hx
theorem xnor (sd sa sb : Sreg) : Statement (.xnor sd sa sb) := fun _ hx => nomatch hx
theorem shl (sd sa sb : Sreg) : Statement (.shl sd sa sb) := fun _ hx => nomatch hx
theorem shr (sd sa sb : Sreg) : Statement (.shr sd sa sb) := fun _ hx => nomatch hx
theorem sar (sd sa sb : Sreg) : Statement (.sar sd sa sb) := fun _ hx => nomatch hx
theorem rol (sd sa sb : Sreg) : Statement (.rol sd sa sb) := fun _ hx => nomatch hx
theorem ror (sd sa sb : Sreg) : Statement (.ror sd sa sb) := fun _ hx => nomatch hx
theorem mul (sd sa sb : Sreg) : Statement (.mul sd sa sb) := fun _ hx => nomatch hx
theorem mulh (sd sa sb : Sreg) : Statement (.mulh sd sa sb) := fun _ hx => nomatch hx
theorem mulhu (sd sa sb : Sreg) : Statement (.mulhu sd sa sb) := fun _ hx => nomatch hx
theorem div (sd sa sb : Sreg) : Statement (.div sd sa sb) := fun _ hx => nomatch hx
theorem divu (sd sa sb : Sreg) : Statement (.divu sd sa sb) := fun _ hx => nomatch hx
theorem rem (sd sa sb : Sreg) : Statement (.rem sd sa sb) := fun _ hx => nomatch hx
theorem remu (sd sa sb : Sreg) : Statement (.remu sd sa sb) := fun _ hx => nomatch hx
theorem min (sd sa sb : Sreg) : Statement (.min sd sa sb) := fun _ hx => nomatch hx
theorem max (sd sa sb : Sreg) : Statement (.max sd sa sb) := fun _ hx => nomatch hx
theorem minu (sd sa sb : Sreg) : Statement (.minu sd sa sb) := fun _ hx => nomatch hx
theorem maxu (sd sa sb : Sreg) : Statement (.maxu sd sa sb) := fun _ hx => nomatch hx
theorem cmp (sa sb : Sreg) : Statement (.cmp sa sb) := fun _ hx => nomatch hx
theorem tst (sa sb : Sreg) : Statement (.tst sa sb) := fun _ hx => nomatch hx
theorem popc (sd sa : Sreg) : Statement (.popc sd sa) := fun _ hx => nomatch hx
theorem clz (sd sa : Sreg) : Statement (.clz sd sa) := fun _ hx => nomatch hx
theorem ctz (sd sa : Sreg) : Statement (.ctz sd sa) := fun _ hx => nomatch hx
theorem brev (sd sa : Sreg) : Statement (.brev sd sa) := fun _ hx => nomatch hx
theorem scadd (n : BitVec 3) (sd sa sb : Sreg) : Statement (.scadd n sd sa sb) := fun _ hx => nomatch hx
theorem sel (cc : BitVec 4) (sd sa sb : Sreg) : Statement (.sel cc sd sa sb) := fun _ hx => nomatch hx
theorem addi (sd sa : Sreg) (imm : BitVec 14) : Statement (.addi sd sa imm) := fun _ hx => nomatch hx
theorem andi (sd sa : Sreg) (imm : BitVec 14) : Statement (.andi sd sa imm) := fun _ hx => nomatch hx
theorem ori (sd sa : Sreg) (imm : BitVec 14) : Statement (.ori sd sa imm) := fun _ hx => nomatch hx
theorem xori (sd sa : Sreg) (imm : BitVec 14) : Statement (.xori sd sa imm) := fun _ hx => nomatch hx
theorem shli (sd sa : Sreg) (n : BitVec 6) : Statement (.shli sd sa n) := fun _ hx => nomatch hx
theorem shri (sd sa : Sreg) (n : BitVec 6) : Statement (.shri sd sa n) := fun _ hx => nomatch hx
theorem sari (sd sa : Sreg) (n : BitVec 6) : Statement (.sari sd sa n) := fun _ hx => nomatch hx
theorem cmpi (sa : Sreg) (imm : BitVec 14) : Statement (.cmpi sa imm) := fun _ hx => nomatch hx
theorem cmpui (sa : Sreg) (imm : BitVec 14) : Statement (.cmpui sa imm) := fun _ hx => nomatch hx
theorem muli (sd sa : Sreg) (imm : BitVec 14) : Statement (.muli sd sa imm) := fun _ hx => nomatch hx
theorem lih (sd : Sreg) (imm : BitVec 20) : Statement (.lih sd imm) := fun _ hx => nomatch hx
theorem addpc (sd : Sreg) (imm : BitVec 20) : Statement (.addpc sd imm) := fun _ hx => nomatch hx
theorem sldb (sd sa : Sreg) (imm : BitVec 14) : Statement (.sldb sd sa imm) := fun _ hx => nomatch hx
theorem sldh (sd sa : Sreg) (imm : BitVec 14) : Statement (.sldh sd sa imm) := fun _ hx => nomatch hx
theorem sldw (sd sa : Sreg) (imm : BitVec 14) : Statement (.sldw sd sa imm) := fun _ hx => nomatch hx
theorem sldd (sd sa : Sreg) (imm : BitVec 14) : Statement (.sldd sd sa imm) := fun _ hx => nomatch hx
theorem sldbx (sd sa : Sreg) (imm : BitVec 14) : Statement (.sldbx sd sa imm) := fun _ hx => nomatch hx
theorem sldhx (sd sa : Sreg) (imm : BitVec 14) : Statement (.sldhx sd sa imm) := fun _ hx => nomatch hx
theorem sldwx (sd sa : Sreg) (imm : BitVec 14) : Statement (.sldwx sd sa imm) := fun _ hx => nomatch hx
theorem sstb (sd sa : Sreg) (imm : BitVec 14) : Statement (.sstb sd sa imm) := fun _ hx => nomatch hx
theorem ssth (sd sa : Sreg) (imm : BitVec 14) : Statement (.ssth sd sa imm) := fun _ hx => nomatch hx
theorem sstw (sd sa : Sreg) (imm : BitVec 14) : Statement (.sstw sd sa imm) := fun _ hx => nomatch hx
theorem sstd (sd sa : Sreg) (imm : BitVec 14) : Statement (.sstd sd sa imm) := fun _ hx => nomatch hx
theorem satom (scope : BitVec 3) (op : BitVec 5) (sd sa sb : Sreg) : Statement (.satom scope op sd sa sb) := fun _ hx => nomatch hx
theorem b (cc : BitVec 4) (off : BitVec 22) : Statement (.b cc off) := fun _ hx => nomatch hx
theorem bm (nz : BitVec 1) (sel : BitVec 3) (off : BitVec 22) : Statement (.bm nz sel off) := fun _ hx => nomatch hx
theorem bf (cc : BitVec 4) (off : BitVec 22) : Statement (.bf cc off) := fun _ hx => nomatch hx
theorem call (off : BitVec 22) : Statement (.call off) := fun _ hx => nomatch hx
theorem lx (n1 : BitVec 4) (lidx : BitVec 22) : Statement (.lx n1 lidx) := fun _ hx => nomatch hx
theorem lj (lidx : BitVec 22) : Statement (.lj lidx) := fun _ hx => nomatch hx
theorem sqPush (sa : Sreg) : Statement (.sqPush sa) := fun _ hx => nomatch hx
theorem lqPop (sd : Sreg) : Statement (.lqPop sd) := fun _ hx => nomatch hx
theorem fqPop (sd : Sreg) : Statement (.fqPop sd) := fun _ hx => nomatch hx
theorem msplit (sd sa : Sreg) : Statement (.msplit sd sa) := fun _ hx => nomatch hx
theorem mjoin (sd sa : Sreg) : Statement (.mjoin sd sa) := fun _ hx => nomatch hx
theorem fence (scope : BitVec 3) : Statement (.fence scope) := fun _ hx => nomatch hx
theorem qfence (sa : Sreg) : Statement (.qfence sa) := fun _ hx => nomatch hx
theorem waita (cc : BitVec 3) (sd sa sb : Sreg) : Statement (.waita cc sd sa sb) := fun _ hx => nomatch hx
theorem walkPost (sd sa sb : Sreg) : Statement (.walkPost sd sa sb) := fun _ hx => nomatch hx
theorem walkStat (sd sa : Sreg) : Statement (.walkStat sd sa) := fun _ hx => nomatch hx
theorem walkAbort (sa : Sreg) : Statement (.walkAbort sa) := fun _ hx => nomatch hx
theorem hndlPark (sa : Sreg) : Statement (.hndlPark sa) := fun _ hx => nomatch hx
theorem hndlDone : Statement .hndlDone := fun _ hx => nomatch hx
theorem taskAlloc (sd sa sb : Sreg) : Statement (.taskAlloc sd sa sb) := fun _ hx => nomatch hx
theorem taskPub (sa sb : Sreg) : Statement (.taskPub sa sb) := fun _ hx => nomatch hx
theorem taskSig (sa : Sreg) : Statement (.taskSig sa) := fun _ hx => nomatch hx
theorem taskSpawn (sd sa : Sreg) : Statement (.taskSpawn sd sa) := fun _ hx => nomatch hx
theorem taskExit (sa : Sreg) : Statement (.taskExit sa) := fun _ hx => nomatch hx
theorem stampSet (sa sb : Sreg) : Statement (.stampSet sa sb) := fun _ hx => nomatch hx
theorem stampGet (sd sa sb : Sreg) : Statement (.stampGet sd sa sb) := fun _ hx => nomatch hx
theorem stampInc (sd sa sb : Sreg) : Statement (.stampInc sd sa sb) := fun _ hx => nomatch hx
theorem stampEnter (sd sa : Sreg) : Statement (.stampEnter sd sa) := fun _ hx => nomatch hx
theorem stampLeave (sd sa : Sreg) : Statement (.stampLeave sd sa) := fun _ hx => nomatch hx
theorem frontWait (sa sb : Sreg) : Statement (.frontWait sa sb) := fun _ hx => nomatch hx
theorem frontTest (sd sa sb : Sreg) : Statement (.frontTest sd sa sb) := fun _ hx => nomatch hx
theorem frontHold (sd sa sb : Sreg) : Statement (.frontHold sd sa sb) := fun _ hx => nomatch hx
theorem frontDrop (sa : Sreg) : Statement (.frontDrop sa) := fun _ hx => nomatch hx
theorem summLd (sa : Sreg) : Statement (.summLd sa) := fun _ hx => nomatch hx
theorem rgnKeep (sa sb : Sreg) : Statement (.rgnKeep sa sb) := fun _ hx => nomatch hx
theorem rgnClose : Statement .rgnClose := fun _ hx => nomatch hx
theorem rgnOpen (sd : Sreg) (rmask : BitVec 20) : Statement (.rgnOpen sd rmask) := fun _ hx => nomatch hx
theorem sigChk (imm : BitVec 32) : Statement (.sigChk imm) := fun _ hx => nomatch hx
theorem barInit (sa sb : Sreg) : Statement (.barInit sa sb) := fun _ hx => nomatch hx
theorem barBind (name : BitVec 4) (sa : Sreg) : Statement (.barBind name sa) := fun _ hx => nomatch hx
theorem barExpect (name : BitVec 4) (sa : Sreg) : Statement (.barExpect name sa) := fun _ hx => nomatch hx
theorem barArrive (name : BitVec 4) (sd : Sreg) : Statement (.barArrive name sd) := fun _ hx => nomatch hx
theorem barWait (name : BitVec 4) (sa : Sreg) : Statement (.barWait name sa) := fun _ hx => nomatch hx
theorem barTry (name : BitVec 4) (sd sa : Sreg) : Statement (.barTry name sd sa) := fun _ hx => nomatch hx
theorem barDrop (sa : Sreg) : Statement (.barDrop sa) := fun _ hx => nomatch hx
theorem copyq (sd sa : Sreg) : Statement (.copyq sd sa) := fun _ hx => nomatch hx
theorem yieldBar (name : BitVec 4) (par : BitVec 1) (off : BitVec 21) : Statement (.yieldBar name par off) := fun _ hx => nomatch hx
theorem wdqNext (sa : Sreg) : Statement (.wdqNext sa) := fun _ hx => nomatch hx
theorem pipeLim (sa sb : Sreg) : Statement (.pipeLim sa sb) := fun _ hx => nomatch hx
theorem scrRd (sd : Sreg) (n : BitVec 12) : Statement (.scrRd sd n) := fun _ hx => nomatch hx
theorem scrWr (n : BitVec 12) (sa : Sreg) : Statement (.scrWr n sa) := fun _ hx => nomatch hx
theorem nop : Statement .nop := fun _ hx => nomatch hx
theorem trap (n : BitVec 6) : Statement (.trap n) := fun _ hx => nomatch hx
theorem tret : Statement .tret := fun _ hx => nomatch hx
theorem exit : Statement .exit := fun _ hx => nomatch hx
theorem brk : Statement .brk := fun _ hx => nomatch hx
theorem jr (sa : Sreg) : Statement (.jr sa) := fun _ hx => nomatch hx
theorem callr (sa : Sreg) : Statement (.callr sa) := fun _ hx => nomatch hx
theorem iadd (w : LaneWord) : Statement (.iadd w) := fun _ hx => by cases hx; rfl
theorem isub (w : LaneWord) : Statement (.isub w) := fun _ hx => by cases hx; rfl
theorem imul (w : LaneWord) : Statement (.imul w) := fun _ hx => by cases hx; rfl
theorem imulh (w : LaneWord) : Statement (.imulh w) := fun _ hx => by cases hx; rfl
theorem imad (w : LaneWord) : Statement (.imad w) := fun _ hx => by cases hx; rfl
theorem imin (w : LaneWord) : Statement (.imin w) := fun _ hx => by cases hx; rfl
theorem imax (w : LaneWord) : Statement (.imax w) := fun _ hx => by cases hx; rfl
theorem iabs (w : LaneWord) : Statement (.iabs w) := fun _ hx => by cases hx; rfl
theorem ineg (w : LaneWord) : Statement (.ineg w) := fun _ hx => by cases hx; rfl
theorem laneShl (w : LaneWord) : Statement (.laneShl w) := fun _ hx => by cases hx; rfl
theorem laneShr (w : LaneWord) : Statement (.laneShr w) := fun _ hx => by cases hx; rfl
theorem laneSar (w : LaneWord) : Statement (.laneSar w) := fun _ hx => by cases hx; rfl
theorem lanePopc (w : LaneWord) : Statement (.lanePopc w) := fun _ hx => by cases hx; rfl
theorem laneClz (w : LaneWord) : Statement (.laneClz w) := fun _ hx => by cases hx; rfl
theorem laneBrev (w : LaneWord) : Statement (.laneBrev w) := fun _ hx => by cases hx; rfl
theorem laneAnd (w : LaneWord) : Statement (.laneAnd w) := fun _ hx => by cases hx; rfl
theorem laneOr (w : LaneWord) : Statement (.laneOr w) := fun _ hx => by cases hx; rfl
theorem laneXor (w : LaneWord) : Statement (.laneXor w) := fun _ hx => by cases hx; rfl
theorem not (w : LaneWord) : Statement (.not w) := fun _ hx => by cases hx; rfl
theorem lop3 (w : LaneWord) : Statement (.lop3 w) := fun _ hx => by cases hx; rfl
theorem bfe (w : LaneWord) : Statement (.bfe w) := fun _ hx => by cases hx; rfl
theorem bfi (w : LaneWord) : Statement (.bfi w) := fun _ hx => by cases hx; rfl
theorem laneSel (w : LaneWord) : Statement (.laneSel w) := fun _ hx => by cases hx; rfl
theorem fadd (w : LaneWord) : Statement (.fadd w) := fun _ hx => by cases hx; rfl
theorem fsub (w : LaneWord) : Statement (.fsub w) := fun _ hx => by cases hx; rfl
theorem fmul (w : LaneWord) : Statement (.fmul w) := fun _ hx => by cases hx; rfl
theorem fma (w : LaneWord) : Statement (.fma w) := fun _ hx => by cases hx; rfl
theorem fmin (w : LaneWord) : Statement (.fmin w) := fun _ hx => by cases hx; rfl
theorem fmax (w : LaneWord) : Statement (.fmax w) := fun _ hx => by cases hx; rfl
theorem fabs (w : LaneWord) : Statement (.fabs w) := fun _ hx => by cases hx; rfl
theorem fneg (w : LaneWord) : Statement (.fneg w) := fun _ hx => by cases hx; rfl
theorem icmp (w : LaneWord) : Statement (.icmp w) := fun _ hx => by cases hx; rfl
theorem fcmp (w : LaneWord) : Statement (.fcmp w) := fun _ hx => by cases hx; rfl
theorem pand (w : LaneWord) : Statement (.pand w) := fun _ hx => by cases hx; rfl
theorem por (w : LaneWord) : Statement (.por w) := fun _ hx => by cases hx; rfl
theorem pxor (w : LaneWord) : Statement (.pxor w) := fun _ hx => by cases hx; rfl
theorem pnot (w : LaneWord) : Statement (.pnot w) := fun _ hx => by cases hx; rfl
theorem pmov (w : LaneWord) : Statement (.pmov w) := fun _ hx => by cases hx; rfl
theorem psum (w : LaneWord) : Statement (.psum w) := fun _ hx => by cases hx; rfl
theorem ptoq (w : LaneWord) : Statement (.ptoq w) := fun _ hx => by cases hx; rfl
theorem cvt (w : LaneWord) : Statement (.cvt w) := fun _ hx => by cases hx; rfl
theorem cvts (w : LaneWord) : Statement (.cvts w) := fun _ hx => by cases hx; rfl
theorem cvtp (w : LaneWord) : Statement (.cvtp w) := fun _ hx => by cases hx; rfl
theorem frnd (w : LaneWord) : Statement (.frnd w) := fun _ hx => by cases hx; rfl
theorem rcp (w : LaneWord) : Statement (.rcp w) := fun _ hx => by cases hx; rfl
theorem rsq (w : LaneWord) : Statement (.rsq w) := fun _ hx => by cases hx; rfl
theorem sqrt (w : LaneWord) : Statement (.sqrt w) := fun _ hx => by cases hx; rfl
theorem exp2 (w : LaneWord) : Statement (.exp2 w) := fun _ hx => by cases hx; rfl
theorem log2 (w : LaneWord) : Statement (.log2 w) := fun _ hx => by cases hx; rfl
theorem sin (w : LaneWord) : Statement (.sin w) := fun _ hx => by cases hx; rfl
theorem cos (w : LaneWord) : Statement (.cos w) := fun _ hx => by cases hx; rfl
theorem tanh (w : LaneWord) : Statement (.tanh w) := fun _ hx => by cases hx; rfl
theorem dot2 (w : LaneWord) : Statement (.dot2 w) := fun _ hx => by cases hx; rfl
theorem dot4 (w : LaneWord) : Statement (.dot4 w) := fun _ hx => by cases hx; rfl
theorem dot8 (w : LaneWord) : Statement (.dot8 w) := fun _ hx => by cases hx; rfl
theorem mov (w : LaneWord) : Statement (.mov w) := fun _ hx => by cases hx; rfl
theorem bcast (w : LaneWord) : Statement (.bcast w) := fun _ hx => by cases hx; rfl
theorem shfl (w : LaneWord) : Statement (.shfl w) := fun _ hx => by cases hx; rfl
theorem redq (w : LaneWord) : Statement (.redq w) := fun _ hx => by cases hx; rfl
theorem ld (w : LaneWord) : Statement (.ld w) := fun _ hx => by cases hx; rfl
theorem st (w : LaneWord) : Statement (.st w) := fun _ hx => by cases hx; rfl
theorem pref (w : LaneWord) : Statement (.pref w) := fun _ hx => by cases hx; rfl
theorem discard (w : LaneWord) : Statement (.discard w) := fun _ hx => by cases hx; rfl
theorem pst (w : LaneWord) : Statement (.pst w) := fun _ hx => by cases hx; rfl
theorem atom (w : LaneWord) : Statement (.atom w) := fun _ hx => by cases hx; rfl
theorem atomcas (w : LaneWord) : Statement (.atomcas w) := fun _ hx => by cases hx; rfl
theorem fatom (w : LaneWord) : Statement (.fatom w) := fun _ hx => by cases hx; rfl
theorem red (w : LaneWord) : Statement (.red w) := fun _ hx => by cases hx; rfl
theorem shdw (w : LaneWord) : Statement (.shdw w) := fun _ hx => by cases hx; rfl
theorem accLd (w : LaneWord) : Statement (.accLd w) := fun _ hx => by cases hx; rfl
theorem laneHint (h : BitVec 4) (w : LaneWord) : Statement (.laneHint h w) := by
  intro x hx
  cases hx
  have all : ∀ h : BitVec 4, h = 0 ∨ h = 1 ∨ h = 2 ∨ h = 3 ∨ h = 4 ∨ h = 5 ∨ h = 6 ∨ h = 7 ∨ h = 8 ∨ h = 9 ∨ h = 10 ∨ h = 11 ∨ h = 12 ∨ h = 13 ∨ h = 14 ∨ h = 15 := by decide
  rcases all h with rfl | rfl | rfl | rfl | rfl | rfl | rfl | rfl | rfl | rfl | rfl | rfl | rfl | rfl | rfl | rfl <;> simp [decodeLaneOp, laneOpcode]
theorem illegalScalarInstruction (word : BitVec 32) : Statement (.illegalScalarInstruction word) := fun _ hx => nomatch hx
theorem scalarPcRange : Statement .scalarPcRange := fun _ hx => nomatch hx
theorem instructionFetchFault (cause : BitVec 8) (level : Nat) (addr : BitVec 64) : Statement (.instructionFetchFault cause level addr) := fun _ hx => nomatch hx
theorem trapDelivery (g : Nat) : Statement (.trapDelivery g) := fun _ hx => nomatch hx
theorem compactorEmit (die : Nat) (late : Bool) (at_ : Slot) : Statement (.compactorEmit die late at_) := fun _ hx => nomatch hx
theorem taskGather (die : Nat) (late : Bool) (at_ : Slot) : Statement (.taskGather die late at_) := fun _ hx => nomatch hx
theorem teamAdmit (kern : Nat) (ats : List Placement) : Statement (.teamAdmit kern ats) := fun _ hx => nomatch hx
theorem copyEntryPerform (team : Nat) (lat : Nat) : Statement (.copyEntryPerform team lat) := fun _ hx => nomatch hx
theorem copyRingResume (team : Nat) : Statement (.copyRingResume team) := fun _ hx => nomatch hx
theorem walkPlace (eng : Nat) : Statement (.walkPlace eng) := fun _ hx => nomatch hx
theorem walkReserve (eng : Nat) (offs : List (List Nat)) : Statement (.walkReserve eng offs) := fun _ hx => nomatch hx
theorem summonsIssue (eng : Nat) (slotA slotB : Nat) : Statement (.summonsIssue eng slotA slotB) := fun _ hx => nomatch hx
theorem summonsDeliver (sid : Nat) (at_ : Slot) : Statement (.summonsDeliver sid at_) := fun _ hx => nomatch hx
theorem tileStart (eng : Nat) : Statement (.tileStart eng) := fun _ hx => nomatch hx
theorem kstepStart (walk : Nat) : Statement (.kstepStart walk) := fun _ hx => nomatch hx
theorem kstepEnd (walk : Nat) (err : AccError) : Statement (.kstepEnd walk err) := fun _ hx => nomatch hx
theorem waitaRecheck (g : Nat) (cycles : Nat) : Statement (.waitaRecheck g cycles) := fun _ hx => nomatch hx
theorem countBatchSend (unit : Nat) : Statement (.countBatchSend unit) := fun _ hx => nomatch hx
theorem snapshotStart (ctx : Nat) : Statement (.snapshotStart ctx) := fun _ hx => nomatch hx
theorem floorAnnounce (ctx : Nat) (lagging : List Nat) : Statement (.floorAnnounce ctx lagging) := fun _ hx => nomatch hx
theorem workAnswer (g : Nat) : Statement (.workAnswer g) := fun _ hx => nomatch hx
theorem throttleWindow (core hits : Nat) : Statement (.throttleWindow core hits) := fun _ hx => nomatch hx
theorem throttleDisplace (g : Nat) : Statement (.throttleDisplace g) := fun _ hx => nomatch hx
theorem memorySetLeave (g : Nat) : Statement (.memorySetLeave g) := fun _ hx => nomatch hx
theorem create (cp : Nat) : Statement (.create cp) := fun _ hx => nomatch hx
theorem quota (cp ctx : Nat) : Statement (.quota cp ctx) := fun _ hx => nomatch hx
theorem suspend (cp ctx : Nat) : Statement (.suspend cp ctx) := fun _ hx => nomatch hx
theorem contextSaved (ctx : Nat) : Statement (.contextSaved ctx) := fun _ hx => nomatch hx
theorem restore (cp ctx : Nat) : Statement (.restore cp ctx) := fun _ hx => nomatch hx
theorem restoreComplete (ctx : Nat) (teams : List (Nat × Placement)) (walks : List (Nat × Nat)) : Statement (.restoreComplete ctx teams walks) := fun _ hx => nomatch hx
theorem preempt (cp ctx : Nat) : Statement (.preempt cp ctx) := fun _ hx => nomatch hx
theorem continueCtx (cp ctx : Nat) : Statement (.continueCtx cp ctx) := fun _ hx => nomatch hx
theorem answer (cp ctx : Nat) : Statement (.answer cp ctx) := fun _ hx => nomatch hx
theorem destroy (cp ctx : Nat) : Statement (.destroy cp ctx) := fun _ hx => nomatch hx
theorem noProgressWatchdog (ctx cycles : Nat) : Statement (.noProgressWatchdog ctx cycles) := fun _ hx => nomatch hx
theorem saveWatchdog (ctx cycles : Nat) : Statement (.saveWatchdog ctx cycles) := fun _ hx => nomatch hx
theorem trrootWrite (cp : Nat) (val : BitVec 64) : Statement (.trrootWrite cp val) := fun _ hx => nomatch hx
theorem invalidateAddress (cp ctx : Nat) : Statement (.invalidateAddress cp ctx) := fun _ hx => nomatch hx
theorem invalidateContext (cp ctx : Nat) : Statement (.invalidateContext cp ctx) := fun _ hx => nomatch hx
theorem invalidateAll (cp : Nat) : Statement (.invalidateAll cp) := fun _ hx => nomatch hx
theorem invalidationComplete (cp : Nat) : Statement (.invalidationComplete cp) := fun _ hx => nomatch hx
theorem qcreate (cp : Nat) : Statement (.qcreate cp) := fun _ hx => nomatch hx
theorem qresume (cp q : Nat) : Statement (.qresume cp q) := fun _ hx => nomatch hx
theorem qdestroy (cp q : Nat) : Statement (.qdestroy cp q) := fun _ hx => nomatch hx
theorem queueMap (q slot : Nat) : Statement (.queueMap q slot) := fun _ hx => nomatch hx
theorem queueIdleUnmap (q cycles : Nat) : Statement (.queueIdleUnmap q cycles) := fun _ hx => nomatch hx
theorem tailWake (q : Nat) : Statement (.tailWake q) := fun _ hx => nomatch hx
theorem tailPoll (q cycles : Nat) : Statement (.tailPoll q cycles) := fun _ hx => nomatch hx
theorem nopPacket (q : Nat) (pos : Nat) : Statement (.nopPacket q pos) := fun _ hx => nomatch hx
theorem pad (q : Nat) (pos : Nat) : Statement (.pad q pos) := fun _ hx => nomatch hx
theorem launch (q : Nat) (pos : Nat) : Statement (.launch q pos) := fun _ hx => nomatch hx
theorem feed (q : Nat) (pos : Nat) : Statement (.feed q pos) := fun _ hx => nomatch hx
theorem walkPacket (q : Nat) (pos : Nat) : Statement (.walkPacket q pos) := fun _ hx => nomatch hx
theorem waitPacket (q : Nat) (pos : Nat) : Statement (.waitPacket q pos) := fun _ hx => nomatch hx
theorem waitPacketSatisfied (q : Nat) (pos : Nat) : Statement (.waitPacketSatisfied q pos) := fun _ hx => nomatch hx
theorem signal (q : Nat) (pos : Nat) : Statement (.signal q pos) := fun _ hx => nomatch hx
theorem frontPacket (q : Nat) (pos : Nat) : Statement (.frontPacket q pos) := fun _ hx => nomatch hx
theorem copyPacket (q : Nat) (pos : Nat) : Statement (.copyPacket q pos) := fun _ hx => nomatch hx
theorem fencePacket (q : Nat) (pos : Nat) : Statement (.fencePacket q pos) := fun _ hx => nomatch hx
theorem packetComplete (q : Nat) (pos : Nat) : Statement (.packetComplete q pos) := fun _ hx => nomatch hx
theorem linkEnable (port : Nat) (pers : Bool) : Statement (.linkEnable port pers) := fun _ hx => nomatch hx
theorem linkDisable (port : Nat) : Statement (.linkDisable port) := fun _ hx => nomatch hx
theorem linkTrained (port lanes : Nat) : Statement (.linkTrained port lanes) := fun _ hx => nomatch hx
theorem trainingTimeout (port cycles : Nat) : Statement (.trainingTimeout port cycles) := fun _ hx => nomatch hx
theorem laneErrors (port good replays : Nat) : Statement (.laneErrors port good replays) := fun _ hx => nomatch hx
theorem linkFence (port cause : Nat) : Statement (.linkFence port cause) := fun _ hx => nomatch hx
theorem pstAck (id : Nat) : Statement (.pstAck id) := fun _ hx => nomatch hx
theorem nonpostedTimeout (g cycles : Nat) : Statement (.nonpostedTimeout g cycles) := fun _ hx => nomatch hx
theorem incomingAccess (port : Nat) (acc : Incoming) : Statement (.incomingAccess port acc) := fun _ hx => nomatch hx
theorem budgetPeriod (block cycles : Nat) : Statement (.budgetPeriod block cycles) := fun _ hx => nomatch hx
theorem moduleReset (img : Firmware) (failing : List Nat) (stacksOk : Bool) : Statement (.moduleReset img failing stacksOk) := fun _ hx => nomatch hx
theorem firmwareLoad (img : Firmware) : Statement (.firmwareLoad img) := fun _ hx => nomatch hx
theorem lifeCycleToken (target : LifeCycle) (tok : Firmware) (img : Firmware) : Statement (.lifeCycleToken target tok img) := fun _ hx => nomatch hx
theorem attestation (nonce : BitVec 256) : Statement (.attestation nonce) := fun _ hx => nomatch hx
theorem telemetry : Statement .telemetry := fun _ hx => nomatch hx
theorem testSchedule (die interval : Nat) : Statement (.testSchedule die interval) := fun _ hx => nomatch hx
theorem budgetSet (act : Budgeted) (part amount : Nat) : Statement (.budgetSet act part amount) := fun _ hx => nomatch hx
theorem powerCap (watts : Nat) : Statement (.powerCap watts) := fun _ hx => nomatch hx
theorem counterSnapshot (kind : BlockKind) (ix : Nat) : Statement (.counterSnapshot kind ix) := fun _ hx => nomatch hx
theorem inFieldTest (die cycles : Nat) (verdict : Verdict) : Statement (.inFieldTest die cycles verdict) := fun _ hx => nomatch hx
theorem thermalTrip (die : Nat) : Statement (.thermalTrip die) := fun _ hx => nomatch hx
theorem thermalReset (cycles : Nat) (img : Firmware) : Statement (.thermalReset cycles img) := fun _ hx => nomatch hx
theorem registerWrite (off size : Nat) (val : BitVec 64) : Statement (.registerWrite off size val) := fun _ hx => nomatch hx
theorem nonPostedCompletion (g : Nat) : Statement (.nonPostedCompletion g) := fun _ hx => nomatch hx
theorem restoreFault (ctx : Nat) (badImage : Bool) : Statement (.restoreFault ctx badImage) := fun _ hx => nomatch hx

end Sys2Proof.Laws.LaneOpcode
end

