-- ==== Sys2Proof/Machine/Assembler.lean ====
section
/-! DEFINITION. What zxas decides of a source (R432 to R438): the value of an expression, the fields that a kernel's
directives set, the fields of branch targets and of constants, and the balance check.  It holds no state of the module.
A source stands here with its instructions as they decode; how a line is split into them is text. -/

namespace Sys2Proof.Machine

/-- Why zxas refuses a source. -/
inductive AsmError where
  | divisionByZero
  | undefinedName
  | badExpression
  | outOfReach
  | outOfRange
  | definedTwice
  | sqFull
  | sqEmpty
  | lqFull
  | lqEmpty
  | fqFull
  | fqEmpty
  | lanePcUnknown
  | noLaneInstruction
  | chain
  | unbalanced
  deriving DecidableEq, Repr

/-- The operators of expressions with two operands (R433). -/
inductive AsmOp where
  | mul | div | rem | add | sub | shl | sar | and | xor | or
  deriving DecidableEq, Repr

/-- The precedence of an operator, 2 to 7 (R433). -/
def AsmOp.level : AsmOp → Nat
  | .mul | .div | .rem => 2
  | .add | .sub => 3
  | .shl | .sar => 4
  | .and => 5
  | .xor => 6
  | .or => 7

/-- The tokens of an expression (R432, R433). -/
inductive AsmTok where
  | number (n : Nat)
  | name (s : String)
  | op (o : AsmOp)
  | tilde
  | opening
  | closing
  deriving DecidableEq, Repr

/-- An expression. -/
inductive AsmExpr where
  | number (n : Nat)
  | name (s : String)
  | neg (e : AsmExpr)
  | not (e : AsmExpr)
  | bin (o : AsmOp) (l r : AsmExpr)
  deriving DecidableEq, Repr

/-- A digit in a base; an underscore between digits is ignored (R432). -/
def digitOf (base : Nat) (c : Char) : Option Nat :=
  let d := if '0' ≤ c ∧ c ≤ '9' then c.toNat - 48
    else if 'a' ≤ c ∧ c ≤ 'f' then c.toNat - 87
    else if 'A' ≤ c ∧ c ≤ 'F' then c.toNat - 55
    else 16
  if d < base then some d else none

/-- The value of digits in a base, with what stands before them. -/
def digitsOf (base acc : Nat) : List Char → Option Nat
  | [] => some acc
  | '_' :: cs => digitsOf base acc cs
  | c :: cs =>
    match digitOf base c with
    | some d => digitsOf base (acc * base + d) cs
    | none => none

/-- A number: decimal, 0x and hexadecimal, or 0b and binary digits (R432). -/
def asmNumber : List Char → Option Nat
  | '0' :: 'x' :: cs => if cs = [] then none else digitsOf 16 0 cs
  | '0' :: 'b' :: cs => if cs = [] then none else digitsOf 2 0 cs
  | [] => none
  | cs => digitsOf 10 0 cs

/-- What a parse looks for: an expression of a precedence, or more operands of it after a left one. -/
inductive AsmGoal where
  | at_ (level : Nat)
  | more (level : Nat) (l : AsmExpr)
  deriving DecidableEq, Repr

/-- Parses the tokens of an expression: operators of one precedence take their operands from the left (R433). (DEDUCED,
log 67.) -/
def parseExpr : Nat → AsmGoal → List AsmTok → Option (AsmExpr × List AsmTok)
  | 0, _, _ => none
  | _ + 1, .at_ 0, _ => none
  | n + 1, .at_ 1, ts =>
    match ts with
    | .number k :: r => some (.number k, r)
    | .name s :: r => some (.name s, r)
    | .op .sub :: r => (parseExpr n (.at_ 1) r).map fun x => (.neg x.1, x.2)
    | .tilde :: r => (parseExpr n (.at_ 1) r).map fun x => (.not x.1, x.2)
    | .opening :: r =>
      match parseExpr n (.at_ 7) r with
      | some (e, .closing :: r2) => some (e, r2)
      | _ => none
    | _ => none
  | n + 1, .at_ (k + 2), ts =>
    match parseExpr n (.at_ (k + 1)) ts with
    | some (l, r) => parseExpr n (.more (k + 2) l) r
    | none => none
  | n + 1, .more k l, ts =>
    match ts with
    | .op o :: r =>
      if o.level = k then
        match parseExpr n (.at_ (k - 1)) r with
        | some (e, r2) => parseExpr n (.more k (.bin o l e)) r2
        | none => none
      else some (l, ts)
    | _ => some (l, ts)

/-- The expression that tokens stand for, if they stand for one whole. -/
def exprOf (ts : List AsmTok) : Except AsmError AsmExpr :=
  match parseExpr (16 * ts.length + 16) (.at_ 7) ts with
  | some (e, []) => .ok e
  | _ => .error .badExpression

/-- The result of an operator on 64-bit two's-complement values: division truncates toward zero, and a remainder goes
with it (R433). (DEDUCED, log 67.) -/
def AsmOp.apply (o : AsmOp) (x y : Dword) : Except AsmError Dword :=
  match o with
  | .mul => .ok (x * y)
  | .div => if y = 0 then .error .divisionByZero else .ok (x.sdiv y)
  | .rem => if y = 0 then .error .divisionByZero else .ok (x.srem y)
  | .add => .ok (x + y)
  | .sub => .ok (x - y)
  | .shl => .ok (x <<< y.toNat)
  | .sar => .ok (x.sshiftRight y.toNat)
  | .and => .ok (x &&& y)
  | .xor => .ok (x ^^^ y)
  | .or => .ok (x ||| y)

/-- The value of an expression, where names have the values of a table (R433). -/
def AsmExpr.value (names : List (String × Dword)) : AsmExpr → Except AsmError Dword
  | .number n => .ok (BitVec.ofNat 64 n)
  | .name s =>
    match names.find? fun x => x.1 = s with
    | some x => .ok x.2
    | none => .error .undefinedName
  | .neg e => (e.value names).map fun x => -x
  | .not e => (e.value names).map fun x => ~~~x
  | .bin o l r =>
    match l.value names with
    | .error x => .error x
    | .ok a =>
      match r.value names with
      | .error x => .error x
      | .ok b => o.apply a b

/-- A name added to the table; defined twice it is an error (R432). -/
def defineName (names : List (String × Dword)) (s : String) (v : Dword) : Except AsmError (List (String × Dword)) :=
  if names.any fun x => x.1 = s then .error .definedTwice else .ok ((s, v) :: names)

/-- The directives that set fields of the launch record (R434). -/
inductive AsmDirective where
  | group (lanes : Nat)
  | regs (n : Nat)
  | scratch (bytes : Nat)
  | format (slot : Nat) (v : Dword)
  deriving DecidableEq, Repr

/-- The launch record with a directive's field; a value that does not fit is an error (R434). -/
def AsmDirective.apply (d : AsmDirective) (r : LaunchRec) : Except AsmError LaunchRec :=
  match d with
  | .group n => if n ∈ [32, 64, 96] then .ok { r with wcode := n / 32 - 1 } else .error .outOfRange
  | .regs n => if n % 8 = 0 && 8 ≤ n && n ≤ 256 then .ok { r with regs := n / 8 } else .error .outOfRange
  | .scratch n =>
    if n = 0 || (n % 256 = 0 && 0x900 ≤ n && n ≤ 0x80000) then .ok { r with scratch := n } else .error .outOfRange
  | .format k v => if k < 8 && slotValid v then .ok { r with slots := update r.slots k fun _ => v } else .error .outOfRange

/-- The entry offset of a kernel: that of the label entry, or 0 (R434). -/
def entryOffset (names : List (String × Dword)) : Dword :=
  ((names.find? fun x => x.1 = "entry").map Prod.snd).getD 0

/-- The bytes of .byte, .half, .word and .dword: each value in 1, 2, 4 or 8 bytes, little-endian; one that does not fit is
an error (R434). (DEDUCED, log 67.) -/
def emitData (size : Nat) : List Dword → Except AsmError (List Byte)
  | [] => .ok []
  | v :: vs =>
    let n := v.toInt
    if size < 8 && !(-(2 ^ (8 * size - 1) : Int) ≤ n && n < 2 ^ (8 * size)) then .error .outOfRange
    else (emitData size vs).map fun bs => toBytes size v.toNat ++ bs

/-- The bytes of .fill (R434). -/
def emitFill (count size : Nat) (v : Dword) : Except AsmError (List Byte) := emitData size (List.replicate count v)

/-- The zero bytes that .align adds in .data, from an offset up to a multiple of a power of two (R434). -/
def emitAlign (at_ power : Nat) : List Byte := List.replicate ((power - at_ % power) % power) 0

/-- An offset field of so many bits for a target: four times it is the way from the instruction to the target, and a target
out of reach is an error (R30, R435). -/
def targetField (n : Nat) (at_ target : Nat) : Except AsmError (BitVec n) :=
  let d := (target : Int) - at_
  if d % 4 = 0 && -(2 ^ (n + 1) : Int) ≤ d && d < 2 ^ (n + 1) then .ok (BitVec.ofInt n (d / 4)) else .error .outOfReach

/-- The operand code of a constant in a source position (R35, R436). -/
def constantCode (v : Dword) : Except AsmError (BitVec 9) :=
  if -32 ≤ v.toInt && v.toInt ≤ 95 then .ok (BitVec.ofInt 9 (v.toInt + 0x1A0)) else .error .outOfRange

/-! The balance check (R437). -/

/-- A line of a scalar section: whether it is labelled, and its instruction. -/
structure AsmLine where
  labelled : Bool
  ins      : Instr
  deriving DecidableEq, Repr

/-- The counts of a run: entries pushed, LQ values and FQ values, and the lane PC where it is known (R437). -/
structure Balance where
  p   : Nat
  l   : Nat
  f   : Nat
  lpc : Option Nat
  deriving DecidableEq, Repr

/-- The counts where a run begins. -/
def Balance.start : Balance := { p := 0, l := 0, f := 0, lpc := none }

/-- One lane instruction of an LX (R437). -/
def laneBalance (beats : Nat) (b : Balance) (i : Instr) : Except AsmError Balance :=
  let w := laneWord? i
  let pops := sqNeeds i
  let l := b.l + if (w.map LaneWord.dst) = some 0x145 then lqPushes i beats else 0
  let f := b.f + if (w.map LaneWord.dst) = some 0x146 then 1 else 0
  if b.p < pops then .error .sqEmpty
  else if 8 < l then .error .lqFull
  else if 8 < f then .error .fqFull
  else .ok { b with p := b.p - pops, l := l, f := f }

/-- The lane instructions of an LX in order, with the number of members of the chain before the next (R40, R437). -/
def lanesBalance (beats : Nat) (lanes : List Instr) : Nat → Nat → Nat → Balance → Except AsmError Balance
  | 0, pc, _, b => .ok { b with lpc := some pc }
  | n + 1, pc, before, b =>
    match lanes[pc]? with
    | none => .error .noLaneInstruction
    | some i =>
      let stick := (laneWord? i).any LaneWord.stick
      if stick && (n = 0 || 3 ≤ before || !laneLegal i) then .error .chain
      else
        match laneBalance beats b i with
        | .error e => .error e
        | .ok b1 => lanesBalance beats lanes n (pc + 1) (if stick then before + 1 else 0) b1

/-- One line of a run (R437). -/
def lineBalance (beats : Nat) (lanes : List Instr) (b : Balance) (i : Instr) : Except AsmError Balance :=
  match i with
  | .sqPush _ => if 8 < b.p + 1 then .error .sqFull else .ok { b with p := b.p + 1 }
  | .lx n1 lidx =>
    match (if lidx = BitVec.allOnes 22 then b.lpc else some lidx.toNat) with
    | none => .error .lanePcUnknown
    | some pc => lanesBalance beats lanes (n1.toNat + 1) pc 0 b
  | .lj lidx => .ok { b with lpc := some lidx.toNat }
  | .lqPop _ => if b.l = 0 then .error .lqEmpty else .ok { b with l := b.l - 1 }
  | .fqPop _ | .bf _ _ => if b.f = 0 then .error .fqEmpty else .ok { b with f := b.f - 1 }
  | _ => .ok b

/-- The instructions after which a run ends (R437). -/
def endsRun : Instr → Bool
  | .b _ _ | .bm _ _ _ | .bf _ _ | .call _ | .callr _ | .jr _ | .yieldBar _ _ _ | .tret | .exit => true
  | _ => false

/-- The end of a run: every count is zero (R437). -/
def Balance.done (b : Balance) : Except AsmError Unit :=
  if b.p = 0 && b.l = 0 && b.f = 0 then .ok () else .error .unbalanced

/-- The check of the lines that follow, within a run (R437). -/
def balanceFrom (beats : Nat) (lanes : List Instr) : List AsmLine → Balance → Except AsmError Unit
  | [], b => b.done
  | x :: xs, b =>
    let entry : Except AsmError Balance :=
      if x.labelled then
        match b.done with
        | .error e => .error e
        | .ok _ => .ok Balance.start
      else .ok b
    match entry with
    | .error e => .error e
    | .ok b0 =>
      match lineBalance beats lanes b0 x.ins with
      | .error e => .error e
      | .ok b1 =>
        if endsRun x.ins then
          match b1.done with
          | .error e => .error e
          | .ok _ => balanceFrom beats lanes xs Balance.start
        else balanceFrom beats lanes xs b1

/-- The balance check of a scalar section with its lane section, for groups of a width (R437). (DEDUCED, log 67.) -/
def balanced (width : Nat) (lanes : List Instr) (lines : List AsmLine) : Except AsmError Unit :=
  balanceFrom (width / 32) lanes lines Balance.start

end Sys2Proof.Machine
end

