-- ==== Sys2Proof/Tests/Slice0.lean ====
section
/-! SUPPORT. The model's own tests: words written out from the spec's encoding tables, terms that are not well formed,
small runs of one instruction, and for each statement a witness that meets its hypotheses, clause by clause.  A
witness named witness_X belongs to the statement X.
-/

set_option Elab.async false

namespace Sys2Proof.Tests

open Machine

/-- A program resident on core 0, whose group 2 is about to run. -/
def base : State :=
  let s := State.reset.withFetchWord 32 0xBC000000
  { s with m := { s.m with cur := 2, agenda := [] } }

/-- The group of that program. -/
def g0 : Group := fetchStart 0 1 32 0xBC000000

/-- The same with the group as it is given. -/
def having (g : Group) : State := { base with m := base.m.setGrp 2 g }

/-- A group with some scalar registers set. -/
def sregs (l : List (Nat × Nat)) (g : Group) : Group := l.foldl (fun g x => g.setS (BitVec.ofNat 6 x.1) (BitVec.ofNat 64 x.2)) g

/-- The group after an instruction. -/
def grpAfter (i : Instr) (s : State) : Group := (((after? (exec i s)).bind fun t => t.m.grp? 2).getD { g0 with spc := 0 })

/-- The outcomes of s5 from values of s6 and s7. -/
def alu (l : List ((Sreg → Sreg → Sreg → Instr) × Nat × Nat × Nat)) : Bool :=
  l.all fun x => (grpAfter (x.1 5 6 7) (having (sregs [(6, x.2.1), (7, x.2.2.1)] g0))).s 5 == BitVec.ofNat 64 x.2.2.2

theorem test_here : Here base 2 g0 := ⟨rfl, by decide +kernel⟩

/-! The first GiB of the program's space, read through its tables: whatever the caches choose, every address is its own. -/

/-- The leaf of the first GiB as the caches hold it, and the tables above it. -/
def leafT : TlbEntry := { ctx := 0, base := 0, log := 30, level := 2, pte := 0x7F, pteAt := 0x3000 }

def table3 : WalkEntry := { ctx := 0, level := 3, pre := 0, table := 0x2000 }

def table2 : WalkEntry := { ctx := 0, level := 2, pre := 0, table := 0x3000 }

/-- A machine that maps the first GiB of context 0 to itself, and whose caches hold nothing else of that GiB. -/
structure Ident (m : Mach) : Prop where
  root : ∃ c, aget m.ctxs 0 = some c ∧ c.root = some 0x1000
  e4 : readNat m (.dev 0x1000) 8 = 0x2001
  e3 : readNat m (.dev 0x2000) 8 = 0x3001
  e2 : readNat m (.dev 0x3000) 8 = 0x7F
  tlb : ∀ t ∈ (m.core 0).tlb ++ (m.cluster 0).tlb, t = leafT ∨ 2 ^ 30 ≤ t.base
  wc : ∀ w ∈ (m.die 0).wcache, w = table3 ∨ w = table2

/-- Two machines that differ in what the caches hold. -/
structure Moved (m m' : Mach) : Prop where
  rest : m' = { m with cores := m'.cores, clusters := m'.clusters, dies := m'.dies, free := m'.free }
  fenced : ∀ k, (m'.cluster k).fenced = (m.cluster k).fenced
  way : m'.onTheWay = m.onTheWay

theorem Moved.refl (m : Mach) : Moved m m := ⟨rfl, fun _ => rfl, rfl⟩

theorem Moved.trans {a b c : Mach} (h : Moved a b) (h2 : Moved b c) : Moved a c :=
  ⟨by have := h2.rest; rw [h.rest] at this; exact this, fun k => (h2.fenced k).trans (h.fenced k), h2.way.trans h.way⟩

theorem Moved.readDev {m m' : Mach} (h : Moved m m') (n : Nat) : ∀ a, readBytes m' (.dev a) n = readBytes m (.dev a) n := by
  induction n with
  | zero => intro _; rfl
  | succ n ih =>
    intro a
    have e : readByte m' (.dev a) = readByte m (.dev a) := by rw [h.rest]; rfl
    simp only [readBytes, Loc.plus, e, ih]

theorem Moved.bump {m m' : Mach} (h : Moved m m') : Moved m m'.bump := ⟨by rw [h.rest]; rfl, h.fenced, h.way⟩

theorem Ident.of_moved {m m' : Mach} (h : Ident m) (hm : Moved m m') (ht : ∀ t ∈ (m'.core 0).tlb ++ (m'.cluster 0).tlb, t = leafT ∨ 2 ^ 30 ≤ t.base)
    (hw : ∀ w ∈ (m'.die 0).wcache, w = table3 ∨ w = table2) : Ident m' := by
  have e : ∀ a, readNat m' (.dev a) 8 = readNat m (.dev a) 8 := fun a => by unfold readNat; rw [hm.readDev]
  exact ⟨by rw [hm.rest]; exact h.root, by rw [e]; exact h.e4, by rw [e]; exact h.e3, by rw [e]; exact h.e2, ht, hw⟩

theorem Ident.bump {m : Mach} (h : Ident m) : Ident m.bump := h.of_moved (Moved.refl m).bump h.tlb h.wc

theorem bits_high (va i n : Nat) (h : va < 2 ^ 30) (hi : 30 ≤ i) : bits va i n = 0 := by
  unfold bits
  have : va / 2 ^ i = 0 := Nat.div_eq_of_lt (Nat.lt_of_lt_of_le h (Nat.pow_le_pow_right (by decide) hi))
  rw [Nat.shiftRight_eq_div_pow, this, Nat.zero_mod]

theorem tag_zero (va l : Nat) (h : va < 2 ^ 30) (hl : 2 ≤ l) : tableTag va l = 0 := by
  unfold tableTag bits
  rw [Nat.shiftRight_zero]
  exact Nat.div_eq_of_lt (Nat.lt_of_lt_of_le (Nat.lt_of_le_of_lt (Nat.mod_le _ _) h) (Nat.pow_le_pow_right (by decide) (by omega)))

theorem broken4 (va : Nat) : pteBroken 0x2001 4 va = false := rfl

theorem broken3 (va : Nat) : pteBroken 0x3001 3 va = false := rfl

theorem broken2 (va : Nat) : pteBroken 0x7F 2 va = false := rfl

theorem walk2 {m : Mach} (h : Ident m) (va : Nat) (hva : va < 2 ^ 30) (s : List WalkEntry) : walkTables m 0 va 2 0x3000 s = .ok (leafT, s) := by
  have b30 : bits va (12 + 9 * 2) 9 = 0 := bits_high va 30 9 hva (by decide)
  have b57 : bits va 0 57 = va := by
    unfold bits
    rw [Nat.shiftRight_zero]
    exact Nat.mod_eq_of_lt (by omega)
  have hz : va / 2 ^ leafLog 0x7F 2 = 0 := Nat.div_eq_of_lt hva
  rw [walkTables_leaf m 0 va 2 0x3000 0x7F s (by rw [b30]; exact h.e2) (by decide) (broken2 va) (by decide), b57, hz, b30]
  rfl

theorem walk3 {m : Mach} (h : Ident m) (va : Nat) (hva : va < 2 ^ 30) (s : List WalkEntry) : walkTables m 0 va 3 0x2000 s = .ok (leafT, table2 :: s) := by
  have b39 : bits va (12 + 9 * (2 + 1)) 9 = 0 := bits_high va 39 9 hva (by decide)
  rw [walkTables_table m 0 va 2 0x2000 0x3001 s (by rw [b39]; exact h.e3) (by decide) (broken3 va) (by decide), tag_zero va 2 hva (by decide)]
  exact walk2 h va hva _

theorem walk4 {m : Mach} (h : Ident m) (va : Nat) (hva : va < 2 ^ 30) (s : List WalkEntry) :
    walkTables m 0 va 4 0x1000 s = .ok (leafT, table2 :: table3 :: s) := by
  have b48 : bits va (12 + 9 * (3 + 1)) 9 = 0 := bits_high va 48 9 hva (by decide)
  rw [walkTables_table m 0 va 3 0x1000 0x2001 s (by rw [b48]; exact h.e4) (by decide) (broken4 va) (by decide), tag_zero va 3 hva (by decide)]
  exact walk3 h va hva _

theorem walk_any {m : Mach} (h : Ident m) (va : Nat) (hva : va < 2 ^ 30) :
    ∃ s, walkTables m 0 va (startOf m 0 0 va 0x1000).1 (startOf m 0 0 va 0x1000).2 [] = .ok (leafT, s) ∧ ∀ w ∈ s, w = table3 ∨ w = table2 := by
  have full := walk4 h va hva []
  unfold startOf
  cases hf : (m.die 0).wcache.find? fun w => w.ctx = 0 && w.pre = tableTag va w.level with
  | none => exact ⟨_, full, by simp⟩
  | some w =>
    by_cases hc : w.table < devTop ∧ m.pick 2 = 0
    · dsimp only; rw [if_pos (by simpa using hc)]
      rcases h.wc w (List.mem_of_find?_eq_some hf) with rfl | rfl
      · exact ⟨_, walk3 h va hva [], by simp⟩
      · exact ⟨_, walk2 h va hva [], by simp⟩
    · dsimp only; rw [if_neg (by simpa using hc)]
      exact ⟨_, full, by simp⟩

/-- What a map's values give in all, where one is put in whose own part is the old one's. -/
theorem flatMap_aput {α β : Type} (f : α → List β) (l : AMap α) (k : Nat) (x : α) (h : f x = ((aget l k).map f).getD []) :
    (aput l k x).flatMap (fun e => f e.2) = l.flatMap fun e => f e.2 := by
  induction l with
  | nil => simpa [aput, aget] using h
  | cons a r ih =>
    obtain ⟨k', v'⟩ := a
    by_cases hk : k' = k
    · subst hk
      simp only [aget, if_true, Option.map_some, Option.getD_some] at h
      simp [aput, h]
    · simp only [aget, if_neg hk] at h
      simp only [aput, if_neg (Ne.symm hk)]
      split
      · rename_i hr
        have : aget r k = none := by
          have hr2 : ∀ e ∈ r, e.1 ≠ k := by
            intro e he
            have := (Bool.and_eq_true _ _ ▸ hr).2
            simp only [Bool.not_eq_true', List.any_eq_false, decide_eq_true_eq] at this
            exact this e he
          clear ih h hr
          induction r with
          | nil => rfl
          | cons b r ih => simp only [aget, if_neg (hr2 b (by simp))]; exact ih fun e he => hr2 e (by simp [he])
        rw [this] at h
        simp [show f x = [] by simpa using h]
      · simp [ih h]

/-- What a translation by a walk leaves: the caches filled, and a choice made. -/
def cached (m : Mach) (s : List WalkEntry) : Mach :=
  (((m.setCore 0 { m.core 0 with tlb := tlbFill 64 (m.core 0).tlb leafT }).setCluster 0
      { m.cluster 0 with tlb := tlbFill 2048 (m.cluster 0).tlb leafT }).setDie 0 { m.die 0 with wcache := (s ++ (m.die 0).wcache).take 512 }).bump

theorem tlb_fill (n : Nat) (l : List TlbEntry) (h : ∀ t ∈ l, t = leafT ∨ 2 ^ 30 ≤ t.base) : ∀ t ∈ tlbFill n l leafT, t = leafT ∨ 2 ^ 30 ≤ t.base := by
  intro t ht
  have := List.mem_of_mem_take ht
  rcases List.mem_cons.1 this with rfl | h2
  · exact .inl rfl
  · exact h t (List.mem_filter.1 h2).1

theorem fenced_setCluster (m : Mach) (c : Cluster) (hc : c.fenced = (m.cluster 0).fenced) (k : Nat) :
    ((m.setCluster 0 c).cluster k).fenced = (m.cluster k).fenced := by
  show ((aget (aput m.clusters 0 c) k).getD Cluster.empty).fenced = _
  by_cases hk : k = 0
  · subst hk
    rw [aget_aput_self]
    exact hc
  · rw [aget_aput_ne _ _ _ _ hk]
    rfl

theorem way_setCluster (m : Mach) (c : Cluster) (hc : c.deltas = (m.cluster 0).deltas) : (m.setCluster 0 c).onTheWay = m.onTheWay := by
  unfold Mach.onTheWay
  rw [show (m.setCluster 0 c).clusters = aput m.clusters 0 c from rfl, show (m.setCluster 0 c).dies = m.dies from rfl,
    flatMap_aput Cluster.deltas _ _ _ (hc.trans ?_)]
  unfold Mach.cluster
  cases aget m.clusters 0 <;> rfl

theorem way_setDie (m : Mach) (d : Die) (hd : d.deltas = (m.die 0).deltas) : (m.setDie 0 d).onTheWay = m.onTheWay := by
  unfold Mach.onTheWay
  rw [show (m.setDie 0 d).dies = aput m.dies 0 d from rfl, show (m.setDie 0 d).clusters = m.clusters from rfl,
    flatMap_aput Die.deltas _ _ _ (hd.trans ?_)]
  unfold Mach.die
  cases aget m.dies 0 <;> rfl

theorem dropLeaf_moved (m : Mach) (va : Nat) : Moved m (dropLeaf m 0 0 va) :=
  ⟨rfl, fenced_setCluster (m.setCore 0 _) _ rfl, way_setCluster (m.setCore 0 _) _ rfl⟩

theorem dropLeaf_ident {m : Mach} (h : Ident m) (va : Nat) : Ident (dropLeaf m 0 0 va) := by
  refine h.of_moved (dropLeaf_moved m va) ?_ h.wc
  have hc : (dropLeaf m 0 0 va).core 0 = { m.core 0 with tlb := (m.core 0).tlb.filter fun t => !t.covers 0 va } := by
    show (aget (aput m.cores 0 _) 0).getD Core.empty = _
    rw [aget_aput_self]
    rfl
  have hl : (dropLeaf m 0 0 va).cluster 0 = { m.cluster 0 with tlb := (m.cluster 0).tlb.filter fun t => !t.covers 0 va } := by
    show (aget (aput m.clusters 0 _) 0).getD Cluster.empty = _
    rw [aget_aput_self]
    rfl
  intro t ht
  rw [hc, hl] at ht
  rcases List.mem_append.1 ht with ht | ht
  · exact h.tlb t (List.mem_append_left _ (List.mem_filter.1 ht).1)
  · exact h.tlb t (List.mem_append_right _ (List.mem_filter.1 ht).1)

theorem cached_moved (m : Mach) (s : List WalkEntry) : Moved m (cached m s) := by
  let m1 := m.setCore 0 { m.core 0 with tlb := tlbFill 64 (m.core 0).tlb leafT }
  let m2 := m1.setCluster 0 { m.cluster 0 with tlb := tlbFill 2048 (m.cluster 0).tlb leafT }
  have h1 : m2.onTheWay = m1.onTheWay := way_setCluster m1 _ rfl
  have h2 : (m2.setDie 0 { m.die 0 with wcache := (s ++ (m.die 0).wcache).take 512 }).onTheWay = m2.onTheWay := way_setDie m2 _ rfl
  exact ⟨rfl, fenced_setCluster m1 _ rfl, h2.trans h1⟩

theorem cached_ident {m : Mach} (h : Ident m) (s : List WalkEntry) (hs : ∀ w ∈ s, w = table3 ∨ w = table2) : Ident (cached m s) := by
  have hc : (cached m s).core 0 = { m.core 0 with tlb := tlbFill 64 (m.core 0).tlb leafT } := by
    show (aget (aput m.cores 0 _) 0).getD Core.empty = _
    rw [aget_aput_self]
    rfl
  have hl : (cached m s).cluster 0 = { m.cluster 0 with tlb := tlbFill 2048 (m.cluster 0).tlb leafT } := by
    show (aget (aput m.clusters 0 _) 0).getD Cluster.empty = _
    rw [aget_aput_self]
    rfl
  have hd : (cached m s).die 0 = { m.die 0 with wcache := (s ++ (m.die 0).wcache).take 512 } := by
    show (aget (aput m.dies 0 _) 0).getD Die.empty = _
    rw [aget_aput_self]
    rfl
  refine h.of_moved (cached_moved m s) ?_ ?_
  · intro t ht
    rw [hc, hl] at ht
    rcases List.mem_append.1 ht with ht | ht
    · exact tlb_fill 64 _ (fun t ht => h.tlb t (List.mem_append_left _ ht)) t ht
    · exact tlb_fill 2048 _ (fun t ht => h.tlb t (List.mem_append_right _ ht)) t ht
  · intro w hw
    rw [hd] at hw
    rcases List.mem_append.1 (List.mem_of_mem_take hw) with hw | hw
    · exact hs w hw
    · exact h.wc w hw

theorem leaf_pa (va : Nat) (hva : va < 2 ^ 30) : leafPa 0x7F 2 va = va := by
  have e : leafLog 0x7F 2 = 30 := rfl
  have e2 : ptePa 0x7F * 4096 = 0 := by decide
  simp only [leafPa, e, e2]
  rw [if_neg (by decide), Nat.zero_add]
  exact Nat.mod_eq_of_lt hva

theorem fresh_ident {m : Mach} (h : Ident m) (va : Nat) (hva : va < 2 ^ 30) (k : AKind) (hk : k ≠ .fetch) :
    ∃ m', walkFresh m 0 0 va k = .ok (m', va, leafT) ∧ Ident m' ∧ Moved m m' := by
  obtain ⟨c, hc, hr⟩ := h.root
  obtain ⟨s, hw, hs⟩ := walk_any h va hva
  have hf : leafFault leafT k va = none := by
    cases k with
    | fetch => exact absurd rfl hk
    | _ => rfl
  have hm : leafT.marked k = leafT := by
    cases k with
    | fetch => exact absurd rfl hk
    | _ => decide
  have hp : leafPa leafT.pte.toNat leafT.level va = va := leaf_pa va hva
  have hd : (devTop ≤ 0x1000) = False := by simp [devTop]
  refine ⟨cached (dropLeaf m 0 0 va) s, ?_, cached_ident (dropLeaf_ident h va) s hs,
    (dropLeaf_moved m va).trans (cached_moved _ s)⟩
  unfold walkFresh
  simp only [hc, hr, hd, if_false, show dieOf 0 = 0 from rfl, show clusterOf 0 = 0 from rfl, hw, hf, hm, if_true, hp]
  rfl

theorem translate_ident {m : Mach} (h : Ident m) (va : Nat) (hva : va < 2 ^ 30) (k : AKind) (hk : k ≠ .fetch) :
    ∃ m', Machine.translate m 0 0 va k = .ok (m', va, leafT) ∧ Ident m' ∧ Moved m m' := by
  have fresh := fresh_ident h va hva k hk
  have hcan : canonical va = true := by
    have : bits va 56 8 = 0 := bits_high va 56 8 hva (by decide)
    simp [canonical, this]
  unfold Machine.translate
  have hroot : hasRoot m 0 = true := by
    obtain ⟨c, hc, hr⟩ := h.root
    simp [hasRoot, hc, hr]
  rw [hcan, hroot]
  simp only [Bool.not_true, Bool.or_self, Bool.false_eq_true, if_false]
  cases hf : ((m.core 0).tlb ++ (m.cluster (clusterOf 0)).tlb).find? fun t => t.covers 0 va with
  | none => exact fresh
  | some t =>
    have hcov := List.find?_some hf
    have ht : t = leafT := by
      rcases h.tlb t (List.mem_of_find?_eq_some hf) with ht | ht
      · exact ht
      · have hb : bits va 0 57 = va := by
          unfold bits
          rw [Nat.shiftRight_zero]
          exact Nat.mod_eq_of_lt (by omega)
        simp only [TlbEntry.covers, Bool.and_eq_true, decide_eq_true_eq, hb] at hcov
        omega
    subst ht
    simp only
    split
    · exact ⟨_, by rw [show leafPa leafT.pte.toNat leafT.level va = va from leaf_pa va hva], h.bump, (Moved.refl m).bump⟩
    · exact fresh

theorem locate_ident {m : Mach} (h : Ident m) (va : Nat) (hva : va < 2 ^ 30) (k : AKind) (hk : k ≠ .fetch) :
    ∃ m', locateFor m 0 0 va k = .ok (m', .dev va) ∧ Ident m' ∧ Moved m m' := by
  obtain ⟨m', ht, hi, hm⟩ := translate_ident h va hva k hk
  refine ⟨m', ?_, hi, hm⟩
  have hd : va < devTop := by unfold devTop; omega
  simp [locateFor, ht, target, hd]

/-- The bytes of so many words from an address on. -/
def wordsAt (m : Mach) : Nat → Nat → List Byte
  | 0, _ => []
  | n + 1, a => readBytes m (.dev a) 8 ++ wordsAt m n (a + 8)

theorem Moved.wordsAt {m m' : Mach} (h : Moved m m') : ∀ n a, Tests.wordsAt m' n a = Tests.wordsAt m n a
  | 0, _ => rfl
  | n + 1, a => by rw [Tests.wordsAt, Tests.wordsAt, h.readDev, Moved.wordsAt h n]

theorem read_ident (n : Nat) : ∀ {m : Mach}, Ident m → ∀ va acc, va + 8 * n ≤ 2 ^ 30 →
    ∃ m', readVirtual 0 0 n m va acc = .ok (m', acc ++ wordsAt m n va) ∧ Ident m' ∧ Moved m m' := by
  induction n with
  | zero => intro m h va acc _; exact ⟨m, by simp [readVirtual, wordsAt], h, Moved.refl m⟩
  | succ n ih =>
    intro m h va acc hb
    obtain ⟨m1, hl, hi, hm⟩ := locate_ident h va (by omega) .read (by decide)
    obtain ⟨m2, hr, hi2, hm2⟩ := ih hi (va + 8) (acc ++ readBytes m1 (.dev va) 8) (by omega)
    refine ⟨m2, ?_, hi2, hm.trans hm2⟩
    simp only [readVirtual, hl, farRead, hr]
    rw [hm.readDev, hm.wordsAt, wordsAt, List.append_assoc]

theorem Moved.room {m m' : Mach} (h : Moved m m') : Machine.rootHasRoom m' = Machine.rootHasRoom m := by
  funext ctx node stamp
  unfold Machine.rootHasRoom
  rw [h.way, show m'.root = m.root by rw [h.rest]]

theorem Moved.launchCause {m m' : Mach} (h : Moved m m') (ctx die : Nat) (c : Context) (addr : Nat) (bs : List Byte)
    (hw : (LaunchRec.ofBytes bs).wqlog = 0) : Machine.launchCause m' ctx die c addr bs = Machine.launchCause m ctx die c addr bs := by
  have ht : ∀ n, teamSizeOk m' ctx n = teamSizeOk m ctx n := fun n => by rw [h.rest]; rfl
  have hf : ∀ q feat core, coreServes m' q feat core = coreServes m q feat core := fun q feat core => by
    have : m'.features core = m.features core := by rw [h.rest]; rfl
    unfold coreServes
    rw [h.fenced, this]
  have hc : ∀ n, capacity m' ctx n = capacity m ctx n := fun n => by
    have e1 : aget m'.ctxs ctx = aget m.ctxs ctx := by rw [h.rest]
    have e2 : needsPair m' ctx n = needsPair m ctx n := by rw [h.rest]; rfl
    have e3 : ∀ q, teamsOn m' ctx q n = teamsOn m ctx q n := fun q => by rw [h.rest]; rfl
    have e4 : ∀ q feat, coreServes m' q feat = coreServes m q feat := fun q feat => funext fun c => hf q feat c
    unfold capacity
    simp only [e1, e2, e3, e4]
  unfold Machine.launchCause
  simp [ht, hc, hw]

/-- Bytes of device memory clear of the tables, stored. -/
theorem Ident.poked {m : Mach} (h : Ident m) (hn : m.indet = []) (a : Nat) (ha : 0x4000 ≤ a) (b : Byte) :
    Ident (writeByte m (.dev a) b) ∧ (writeByte m (.dev a) b).indet = [] := by
  have hi : (writeByte m (.dev a) b).indet = [] := by show indetClear m.indet a = []; rw [hn]; rfl
  have e : ∀ c, c < 0x4000 → readByte (writeByte m (.dev a) b) (.dev c) = readByte m (.dev c) := fun c hc => by
    simp only [readByte, hi, hn, indetAt]
    exact memRead_memWrite_ne _ _ _ _ (show c ≠ a by omega)
  have es : ∀ n c, c + n ≤ 0x4000 → readBytes (writeByte m (.dev a) b) (.dev c) n = readBytes m (.dev c) n := by
    intro n
    induction n with
    | zero => intro _ _; rfl
    | succ n ih => intro c hc; simp only [readBytes, Loc.plus]; rw [e c (by omega), ih (c + 1) (by omega)]
  have en : ∀ c, c + 8 ≤ 0x4000 → readNat (writeByte m (.dev a) b) (.dev c) 8 = readNat m (.dev c) 8 := fun c hc => by unfold readNat; rw [es 8 c hc]
  exact ⟨⟨h.root, by rw [en _ (by decide)]; exact h.e4, by rw [en _ (by decide)]; exact h.e3, by rw [en _ (by decide)]; exact h.e2, h.tlb, h.wc⟩, hi⟩

theorem Ident.stored (bs : List Byte) : ∀ {m : Mach}, Ident m → m.indet = [] → ∀ a, 0x4000 ≤ a →
    Ident (writeBytes m (.dev a) bs) ∧ (writeBytes m (.dev a) bs).indet = [] := by
  suffices hs : ∀ {m : Mach}, Ident m → m.indet = [] → ∀ a, 0x4000 ≤ a → Ident (putBytes m (.dev a) bs) ∧ (putBytes m (.dev a) bs).indet = [] by
    intro m h hn a ha
    obtain ⟨ws, e⟩ := writeBytes_put m (.dev a) bs
    rw [e]
    exact hs (m := { m with touched := ws }) ⟨h.root, h.e4, h.e3, h.e2, h.tlb, h.wc⟩ hn a ha
  induction bs with
  | nil => intro m h hn _ _; exact ⟨h, hn⟩
  | cons b bs ih =>
    intro m h hn a ha
    obtain ⟨h1, h2⟩ := h.poked hn a ha b
    exact ih h1 h2 (a + 1) (by omega)

theorem write_ident (ws : List (List Byte)) : ∀ {m : Mach}, Ident m → m.indet = [] → ∀ va, 0x4000 ≤ va → va + ws.flatten.length < 2 ^ 30 →
    ∃ m', writeVirtual 0 0 ws m va = .ok m' := by
  induction ws with
  | nil => intro m _ _ _ _ _; exact ⟨m, rfl⟩
  | cons b ws ih =>
    intro m h hn va ha hb
    rw [List.flatten_cons, List.length_append] at hb
    obtain ⟨m1, hl, hi, hm⟩ := locate_ident h va (by omega) .write (by decide)
    have hn1 : m1.indet = [] := by rw [hm.rest]; exact hn
    obtain ⟨h2, hn2⟩ := hi.stored b hn1 va ha
    obtain ⟨m2, h3⟩ := ih h2 hn2 (va + b.length) (by omega) (by omega)
    exact ⟨m2, by simp only [writeVirtual, hl, farWrite]; exact h3⟩

/-- A count more at the root changes no mapping. -/
theorem Ident.counted {m : Mach} (h : Ident m) : Ident (countRoot m 0 0 0 1) :=
  ⟨h.root, h.e4, h.e3, h.e2, h.tlb, h.wc⟩

/-- An address that is not canonical faults. -/
theorem read_fails (m : Mach) (n va : Nat) (acc : List Byte) (hc : canonical va = false) : readVirtual 0 0 (n + 1) m va acc = .error (m, .notPresent, 4, va) := by
  simp [readVirtual, locateFor, afterFault, Machine.translate, hc]

theorem locate_fails (m : Mach) (va : Nat) (k : AKind) (hc : canonical va = false) : locateFor m 0 0 va k = .error (m, .notPresent, 4) := by
  simp [locateFor, afterFault, Machine.translate, hc]

/-- How far the tail is ahead, the header at head, and the packet's bytes, as the tables map them. -/
def aheadOf (m : Mach) (q : Queue) : Int := signed 64 ((Machine.ofBytes (wordsAt m 1 q.taddr.toNat) + 2 ^ 64 - q.head % 2 ^ 64) % 2 ^ 64)

def headerAt (m : Mach) (q : Queue) : Header := Header.ofBytes (wordsAt m 2 (q.at_ q.head))

/-- The units that are read of a packet as it starts. -/
def unitsRead (h : Header) : Nat := if h.kind = 1 then 1 else h.len

def bytesOfHead (m : Mach) (q : Queue) : List Byte := wordsAt m (2 * unitsRead (headerAt m q)) (q.at_ q.head)

/-- Whether the first GiB holds all that a slot reads of a packet. -/
def inReach (m : Mach) (q : Queue) : Bool :=
  q.taddr.toNat + 8 ≤ 2 ^ 30 && q.at_ q.head + 16 ≤ 2 ^ 30 && q.at_ q.head + 16 * unitsRead (headerAt m q) ≤ 2 ^ 30

/-- The causes for which the queue halts at head by its header, and by the rest of the packet. -/
def causesAt (m : Mach) (q : Queue) : List Nat := haltCauses q (headerAt m q) 0 0

def laterCauses (m : Mach) (q : Queue) : List Nat :=
  haltCauses q (headerAt m q) (feedCount (headerAt m q) (bytesOfHead m q)) (cplAddr (headerAt m q) (bytesOfHead m q))

theorem units_ident {m : Mach} (h : Ident m) (q : Queue) (hq : q.core = 0 ∧ q.ctx = 0) (u n : Nat) (hb : q.at_ u + 16 * n ≤ 2 ^ 30) :
    ∃ m', readUnits m q u n = .ok (m', wordsAt m (2 * n) (q.at_ u)) ∧ Ident m' ∧ Moved m m' := by
  obtain ⟨m', hr, hi, hm⟩ := read_ident (2 * n) h (q.at_ u) [] (by omega)
  exact ⟨m', by simp only [readUnits, hq.1, hq.2, hr, List.nil_append], hi, hm⟩

theorem tail_ident {m : Mach} (h : Ident m) (q : Queue) (hq : q.core = 0 ∧ q.ctx = 0) (hb : q.taddr.toNat + 8 ≤ 2 ^ 30) :
    ∃ m', readTail m q = .ok (m', Machine.ofBytes (wordsAt m 1 q.taddr.toNat)) ∧ Ident m' ∧ Moved m m' := by
  obtain ⟨m', hr, hi, hm⟩ := read_ident 1 h q.taddr.toNat [] (by omega)
  exact ⟨m', by simp only [readTail, hq.1, hq.2, hr, List.nil_append], hi, hm⟩

theorem tail_fails (m : Mach) {q : Queue} (hq : q.core = 0 ∧ q.ctx = 0) (hc : canonical q.taddr.toNat = false) : readTail m q = .error m := by
  simp only [readTail, hq.1, hq.2, read_fails m 0 _ [] hc]

theorem haltElse_one (m : Mach) (c : Nat) (go : AtHead) : haltElse m [c] go = .halt m.bump c := by
  have e : m.pick 1 = 0 := rfl
  unfold haltElse
  rw [show [c].length = 1 from rfl, e]
  rfl

theorem check_packet (m : Mach) (q : Queue) (avail : Nat) (h : Header) (w : Bool) (m2 : Mach) (all : List Byte)
    (h1 : haltCauses q h 0 0 = []) (hu : ¬ avail < h.units q) (hs : mayStart q h = true) (hw : w = true)
    (e2 : readUnits m q q.head (unitsRead h) = .ok (m2, all)) (h2 : haltCauses q h (feedCount h all) (cplAddr h all) = []) :
    checkHeader m q avail h w = .packet m2 h all := by
  unfold unitsRead at e2
  unfold checkHeader
  rw [h1, hs, hw]
  simp only [haltElse, List.getElem?_nil, hu, decide_false, Bool.not_true, Bool.or_self, Bool.false_eq_true, if_false, e2, h2]

/-- What the slot finds at head once the tail is read: everything as the machine after that read maps it. -/
theorem after_tail {m m1 : Mach} {q : Queue} {t : Nat} (e1 : readTail m q = .ok (m1, t)) (i1 : Ident m1) (hq : q.core = 0 ∧ q.ctx = 0)
    (ahead : Int) (hd : signed 64 ((t + 2 ^ 64 - q.head % 2 ^ 64) % 2 ^ 64) = ahead)
    (h1 : (decide (ahead < 0) || decide ((2 ^ q.szlog / 16 : Int) < ahead)) = false) (h2 : ahead ≠ 0)
    (ha : q.at_ q.head + 16 ≤ 2 ^ 30) (hn : q.at_ q.head + 16 * unitsRead (headerAt m1 q) ≤ 2 ^ 30) (wants : Nat → Bool) :
    (causesAt m1 q = [] → laterCauses m1 q = [] → ¬ ahead.toNat < (headerAt m1 q).units q → mayStart q (headerAt m1 q) = true →
      wants (headerAt m1 q).kind = true → ∃ m2, atHead m q wants = .packet m2 (headerAt m1 q) (bytesOfHead m1 q) ∧ Ident m2 ∧ Moved m1 m2)
    ∧ (∀ c, causesAt m1 q = [c] → ∃ m2, atHead m q wants = .halt m2 c) := by
  obtain ⟨m2, e2, i2, v2⟩ := units_ident i1 q hq q.head 1 (by omega)
  obtain ⟨m3, e3, i3, v3⟩ := units_ident i2 q hq q.head _ hn
  rw [v2.wordsAt] at e3
  have ea : atHead m q wants = checkHeader m2 q ahead.toNat (headerAt m1 q) (wants (headerAt m1 q).kind) := by
    unfold atHead
    simp only [e1, e2, hd]
    rw [h1, if_neg Bool.false_ne_true, if_neg h2, show Header.ofBytes (wordsAt m1 (2 * 1) (q.at_ q.head)) = headerAt m1 q from rfl]
  rw [ea]
  exact ⟨fun hc hl h4 hs hw => ⟨m3, check_packet _ _ _ _ _ _ _ hc h4 hs hw e3 hl, i3, v2.trans v3⟩,
    fun c hc => ⟨m2.bump, by rw [checkHeader, show haltCauses q (headerAt m1 q) 0 0 = [c] from hc, haltElse_one]⟩⟩

theorem Moved.headerAt {m m' : Mach} (h : Moved m m') (q : Queue) : Tests.headerAt m' q = Tests.headerAt m q := by unfold Tests.headerAt; rw [h.wordsAt]

theorem at_head {m : Mach} (hi : Ident m) (q : Queue) (hq : q.core = 0 ∧ q.ctx = 0) (hr : inReach m q = true)
    (h1 : (decide (aheadOf m q < 0) || decide ((2 ^ q.szlog / 16 : Int) < aheadOf m q)) = false) (h2 : aheadOf m q ≠ 0) :
    (causesAt m q = [] → laterCauses m q = [] → ¬ (aheadOf m q).toNat < (headerAt m q).units q → mayStart q (headerAt m q) = true →
      ∃ m1, (atHead m q fun _ => true) = .packet m1 (headerAt m q) (bytesOfHead m q) ∧ Ident m1 ∧ Moved m m1)
    ∧ (∀ c, causesAt m q = [c] → ∃ m1, (atHead m q fun _ => true) = .halt m1 c) := by
  simp only [inReach, Bool.and_eq_true, decide_eq_true_eq] at hr
  obtain ⟨⟨ht, ha⟩, hn⟩ := hr
  obtain ⟨m1, e1, i1, v1⟩ := tail_ident hi q hq ht
  have hh := v1.headerAt q
  have hbs : bytesOfHead m1 q = bytesOfHead m q := by unfold bytesOfHead; rw [hh, v1.wordsAt]
  have hc : causesAt m1 q = causesAt m q := by unfold causesAt; rw [hh]
  have hl : laterCauses m1 q = laterCauses m q := by unfold laterCauses; rw [hh, hbs]
  have := after_tail e1 i1 hq (aheadOf m q) rfl h1 h2 ha (by rw [hh]; exact hn) fun _ => true
  rw [hc, hl, hh, hbs] at this
  exact ⟨fun hc hl hu hs => by obtain ⟨m2, e, i, v⟩ := this.1 hc hl hu hs rfl; exact ⟨m2, e, i, v1.trans v⟩, this.2⟩

/-- A map of the first k numbers holds each of them. -/
theorem aget_range {α : Type} (x : α) (k n : Nat) (h : n < k) : (aget ((List.range k).map fun n => (n, x)) n).isSome = true := by
  have e : ∀ l : List Nat, n ∈ l → (aget (l.map fun n => (n, x)) n).isSome = true := by
    intro l
    induction l with
    | nil => simp
    | cons a l ih =>
      intro hm
      by_cases ha : a = n
      · simp [aget, ha]
      · simp [aget, ha, ih ((List.mem_cons.1 hm).resolve_left fun h => ha h.symm)]
  exact e _ (List.mem_range.2 h)

/-! Witnesses: for each statement, concrete states and operands that meet its hypotheses, clause by clause. -/

theorem here_having (g : Group) : Here (having g) 2 g := by
  refine ⟨rfl, ?_⟩
  show aget (aput base.m.groups 2 g) 2 = some g
  have h : base.m.groups = [(2, g0)] := by decide +kernel
  rw [h]; rfl

/-- Scalar values at the ends of their ranges. -/
def gEnds : Group := sregs [(6, 0x8000000000000000), (7, 0xFFFFFFFFFFFFFFFF), (8, 0), (9, 65), (61, 0)] g0

theorem witness_ScalarResults : Here (having gEnds) 2 gEnds ∧ (4 : BitVec 3).toNat ≤ 4 ∧ (0 : BitVec 3).toNat ≤ 4 :=
  ⟨here_having _, by decide, by decide⟩

theorem witness_DivisionNeverTraps : Here (having gEnds) 2 gEnds ∧ gEnds.s 8 = 0
    ∧ (gEnds.s 6 = BitVec.intMin 64 ∧ gEnds.s 7 = BitVec.allOnes 64)
    ∧ (gEnds.s 7 ≠ 0 ∧ ¬ (gEnds.s 9 = BitVec.intMin 64 ∧ gEnds.s 7 = BitVec.allOnes 64)) :=
  ⟨here_having _, by decide +kernel⟩

theorem witness_CompareFlags : Here (having gEnds) 2 gEnds := here_having _

/-- Flags with Z alone set. -/
def gZero : Group := { g0 with flags := { z := true, n := false, c := false, v := false } }

theorem witness_SelectByCondition : Here (having gZero) 2 gZero ∧ (15 : BitVec 4) = 15 ∧ ((14 : BitVec 4) ≠ 15 ∧ condition 14 gZero.flags)
    ∧ ((1 : BitVec 4) ≠ 15 ∧ ¬ condition 1 gZero.flags) :=
  ⟨here_having _, rfl, ⟨by decide, trivial⟩, by decide, fun h => nomatch (h : true = false)⟩

theorem witness_BranchOnCondition : Here (having gZero) 2 gZero ∧ ((0 : BitVec 4) ≠ 15 ∧ condition 0 gZero.flags)
    ∧ ((1 : BitVec 4) ≠ 15 ∧ ¬ condition 1 gZero.flags) :=
  ⟨here_having _, ⟨by decide, rfl⟩, by decide, fun h => nomatch (h : true = false)⟩

theorem witness_MaskBranchesAndJumps : Here (having gEnds) 2 gEnds ∧ Here base 2 g0 ∧ 4 ≤ (4 : BitVec 3).toNat ∧ (3 : BitVec 3).toNat < 4
    ∧ (∀ j, j < 32 → (gEnds.s 61).getLsbD j = false) ∧ (∃ j, j < 32 ∧ (g0.s 61).getLsbD j = true)
    ∧ (gEnds.s 8).toNat % 4 = 0 ∧ (gEnds.s 7).toNat % 4 ≠ 0 :=
  ⟨here_having _, ⟨rfl, by decide +kernel⟩, by decide +kernel⟩

/-- A lane word of a type with three sources: dst, a, b and c as given, in every lane of the mask. -/
def lword (ty : BitVec 5) (dst a b c : BitVec 9) (modB : BitVec 12) : LaneWord :=
  { ty := ty, dst := dst, cap := 0, nw := 0, a := a, b := b, c := c, d := 0, g1 := 7, g2 := 7, slot := 0, hint := 0, sched := 0,
    modB := modB }

/-- The entry of a lane instruction that LX took alone. -/
def entryOf (i : Instr) : LiqEntry := { fetchEntry 0 with ins := some i, bad := none, m0 := 0xFFFFFFFF }

/-- A PSUM of p1 without guards. -/
def psumWord : LaneWord := lword 0 0x146 1 0 0 0

def gFq (fq : List (BitVec 2)) (liq : List LiqEntry) : Group := { g0 with qs := { g0.qs with fq := fq, liq := liq } }

def gPsum : Group := gFq [] [entryOf (.psum psumWord)]

theorem witness_BranchOnFlagQueue : Here (having g0) 2 g0 ∧ 4 ≤ (4 : BitVec 4).toNat
    ∧ (∀ e : BitVec 2, Here (having (gFq [e] [])) 2 (gFq [e] []) ∧ (gFq [e] []).qs.fq = [e])
    ∧ (Here (having gPsum) 2 gPsum ∧ gPsum.qs.fq = [] ∧ ∃ e ∈ gPsum.qs.liq, e.bad = none ∧ ∃ w, e.ins = some (.psum w))
    ∧ (g0.qs.fq = [] ∧ ∀ e ∈ g0.qs.liq, e.bad = none → ∀ w, e.ins ≠ some (.psum w)) :=
  ⟨here_having _, by decide, fun _ => ⟨here_having _, rfl⟩, ⟨here_having _, rfl, _, .head _, rfl, _, rfl⟩, rfl, fun _ h => nomatch h⟩

/-- A lane ADD of sq and 0: it pops one entry of SQ. -/
def popWord : LaneWord := lword 0 0 0x144 0x148 0 0

def gSq (n : Nat) (liq : List LiqEntry) : Group := { g0 with qs := { g0.qs with sq := List.replicate n 0, liq := liq } }

def gFull : Group := gSq 8 [entryOf (.iadd popWord)]

def gLq : Group := { g0 with qs := { g0.qs with lq := [7], fq := [2] } }

/-- A BCAST to lq: it pushes one entry to LQ. -/
def bcastWord : LaneWord := lword 12 0x145 0x000 0x1A0 0 0

def gBcast : Group := gFq [] [entryOf (.bcast bcastWord)]

/-- The first entry of a lane issue queue, with its instruction. -/
theorem first_queued {e : LiqEntry} {r : List LiqEntry} {i : Instr} {P : Instr → Prop} (hb : e.bad = none) (hi : e.ins = some i) (hp : P i) :
    ∃ x ∈ e :: r, x.bad = none ∧ ∃ i, x.ins = some i ∧ P i :=
  ⟨e, List.mem_cons_self .., hb, i, hi, hp⟩

theorem witness_QueueAndMaskMoves : (Here (having (gSq 7 [])) 2 (gSq 7 []) ∧ (gSq 7 []).qs.sq.length + 0 < 8 ∧ (gSq 7 []).chain = none)
    ∧ (Here (having gFull) 2 gFull ∧ 8 ≤ gFull.qs.sq.length ∧ ∃ e ∈ gFull.qs.liq, e.bad = none ∧ ∃ i, e.ins = some i ∧ 0 < sqNeeds i)
    ∧ (Here (having (gSq 8 [])) 2 (gSq 8 []) ∧ 8 ≤ (gSq 8 []).qs.sq.length ∧ (gSq 8 []).qs.liq = [])
    ∧ (Here (having gLq) 2 gLq ∧ gLq.qs.lq = [7] ∧ gLq.qs.fq = [2])
    ∧ (Here (having gBcast) 2 gBcast ∧ gBcast.qs.lq = [] ∧ ∃ e ∈ gBcast.qs.liq, e.bad = none ∧ ∃ i, e.ins = some i ∧ 0 < lqPushes i gBcast.beats)
    ∧ (Here (having gPsum) 2 gPsum ∧ gPsum.qs.fq = [] ∧ ∃ e ∈ gPsum.qs.liq, e.bad = none ∧ ∃ i, e.ins = some i ∧ 0 < fqPushes i)
    ∧ (Here (having g0) 2 g0 ∧ g0.qs.lq = [] ∧ g0.qs.fq = [] ∧ g0.qs.liq = [])
    ∧ (61 ≤ (61 : Sreg).toNat ∧ (61 : Sreg).toNat - 61 < g0.width / 32) ∧ ¬ (61 ≤ (62 : Sreg).toNat ∧ (62 : Sreg).toNat - 61 < g0.width / 32) :=
  ⟨⟨here_having _, by decide +kernel⟩, ⟨here_having _, by decide +kernel, first_queued rfl rfl (by decide +kernel)⟩, ⟨here_having _, by decide +kernel⟩,
    ⟨here_having _, by decide +kernel⟩, ⟨here_having _, rfl, first_queued rfl rfl (by decide +kernel)⟩,
    ⟨here_having gPsum, rfl, first_queued rfl rfl (by decide +kernel)⟩, ⟨here_having _, by decide +kernel⟩, by decide +kernel⟩

/-- A state with its module changed. -/
def onM (f : Mach → Mach) (s : State) : State := { s with m := f s.m }

/-- Device memory set, n bytes at a physical address. -/
def poke (pa n x : Nat) (s : State) : State := onM (fun m => writeNat m (.dev pa) n x) s

/-- The context of the program changed. -/
def ctxWith (f : Context → Context) (s : State) : State := onM (fun m => { m with ctxs := amap (fun _ c => f c) m.ctxs }) s

/-- The kernel of the program changed. -/
def kernWith (f : Kernel → Kernel) (s : State) : State := onM (fun m => { m with kerns := amap (fun _ k => f k) m.kerns }) s

/-- The team of the program changed. -/
def teamWith (f : Team → Team) (s : State) : State := onM (fun m => { m with teams := amap (fun _ t => f t) m.teams }) s

theorem here_of (s : State) (g : Group) (h : s.m.cur = 2) (hg : s.m.grp? 2 = some g) : Here s 2 g := ⟨h, hg⟩

/-- A change of the module that leaves its groups and the current one. -/
theorem here_onM {f : Mach → Mach} {s : State} {g : Group} (h : ∀ m, (f m).groups = m.groups ∧ (f m).cur = m.cur) (hs : Here s 2 g) :
    Here (onM f s) 2 g :=
  ⟨(h s.m).2.trans hs.1, by rw [Mach.grp?, show (onM f s).m.groups = s.m.groups from (h s.m).1]; exact hs.2⟩

/-- A group with so many lane instructions queued. -/
def gQueued (n : Nat) : Group := { g0 with qs := { g0.qs with liq := List.replicate n (entryOf (.psum psumWord)) } }

/-- The program with no root written. -/
def unrooted (s : State) : State := ctxWith (fun c => { c with root := none }) s

theorem witness_LaneRunTaken : Here base 2 g0 ∧ g0.qs.liq.length + ((15 : BitVec 4).toNat + 1) ≤ 16
    ∧ (if (BitVec.allOnes 22 : BitVec 22) = BitVec.allOnes 22 then g0.lpc else 0) < 2 ^ 22 ∧ (0x3FFFFE : BitVec 22).toNat < 2 ^ 22
    ∧ (sections base.m { g0 with lpc := 16 }).llen ≤ 16
    ∧ (15 < (sections base.m { g0 with lpc := 15 }).llen
      ∧ (match fetchWords base.m { g0 with lpc := 15 } false (fetchLaneAt + 12 * 15) 3 with
          | .ok (_, ws) => ws = [0, 0, 0]
          | .error _ => False))
    ∧ (Here (having (gQueued 16)) 2 (gQueued 16) ∧ (gQueued 16).qs.liq.length = 16 ∧ (gQueued 1).qs.liq.length + 16 = 17)
    ∧ (0 < (sections base.m g0).llen ∧ ∃ m1 c l va, fetchWords (unrooted base).m g0 false (fetchLaneAt + 12 * 0) 3 = .error (m1, c, l, va)) := by
  have he : (match fetchWords (unrooted base).m g0 false (fetchLaneAt + 12 * 0) 3 with | .ok _ => false | .error _ => true) = true := by decide +kernel
  refine ⟨⟨rfl, by decide +kernel⟩, by decide +kernel, by decide +kernel, by decide, by decide +kernel, ⟨by decide +kernel, ?_⟩,
    ⟨here_having _, by decide +kernel⟩, by decide +kernel, ?_⟩
  · exact (by
      have h : fetchPa base.m { g0 with lpc := 15 } false (fetchLaneAt + 12 * 15) = .ok (_, fetchLaneAt + 12 * 15) := rfl
      rw [fetchWords_untouched h (by decide) (by decide +kernel)]
      decide +kernel)
  · cases hf : fetchWords (unrooted base).m g0 false (fetchLaneAt + 12 * 0) 3 with
    | ok x => rw [hf] at he; cases he
    | error x => exact ⟨x.1, x.2.1, x.2.2.1, x.2.2.2, rfl⟩

/-- A region open in the group, with so many retries. -/
def openRegion (retry : Nat) : Region :=
  { spc := 0, lpc := 0, mask := 0, retry := retry, prevTop := 0, shadTop := 0, mode := 0, fpstat := 0, vregs := [],
    scalars := Vector.replicate 64 0, flags := g0.flags, preds := Vector.replicate 7 0, keeps := [] }

def gTrapped : Group := { g0 with st := .trapped .running, aside := some Queues.empty }

def gTask : Group := { g0 with kind := .task }

theorem witness_SpecialRegisterReads : Here base 2 g0 ∧ (aget base.m.teams g0.team).isSome = true ∧ (aget base.m.kerns g0.kern).isSome = true
    ∧ (g0.kind = .kernel ∧ g0.qs.liq = []) ∧ (Here (having gPsum) 2 gPsum ∧ gPsum.qs.liq ≠ [])
    ∧ (Here (having gTask) 2 gTask ∧ (aget (having gTask).m.kerns gTask.kern).isSome = true ∧ gTask.kind ≠ .kernel ∧ gTask.kind ≠ .compacted)
    ∧ (0x015 : BitVec 12).toNat ∈ [0x008, 0x009, 0x00A, 0x00C, 0x00D, 0x00E, 0x014, 0x015]
    ∧ (0x005 : BitVec 12).toNat ∉ [0x000, 0x001, 0x002, 0x003, 0x004, 0x008, 0x009, 0x00A, 0x00C, 0x00D, 0x00E, 0x010, 0x011, 0x014, 0x015,
          0x016, 0x020, 0x021, 0x040, 0x041, 0x042, 0x043, 0x048, 0x049, 0x04C, 0x04D, 0x050, 0x080, 0x081, 0x082, 0x083, 0x084, 0x0C0, 0x0F0] :=
  ⟨⟨rfl, by decide +kernel⟩, by decide +kernel, by decide +kernel, by decide +kernel, ⟨here_having _, by decide +kernel⟩,
    ⟨here_having _, by decide +kernel⟩, by decide, by decide⟩

/-- A group in a region that was rolled back once, with the values of two injections in s6 and s7. -/
def gInject (retry : Nat) : Group := { sregs [(6, 0x3FF), (7, 0x400)] g0 with rgn := [openRegion retry] }

theorem witness_SpecialRegisterWrites : Here base 2 g0 ∧ (∀ j, j < 32 → (0x7FFF : Word).getLsbD j = (decide (j < 15) && (gEnds.s 7).getLsbD j))
    ∧ (∀ j, j < 32 → (0 : Word).getLsbD j = (g0.fpstat.getLsbD j && !(gEnds.s 7).getLsbD j))
    ∧ (Here (having gPsum) 2 gPsum ∧ gPsum.qs.liq ≠ []) ∧ (Here (having gTrapped) 2 gTrapped ∧ gTrapped.isTrapped = true)
    ∧ g0.isTrapped = false
    ∧ (Here (having (gInject 0)) 2 (gInject 0) ∧ 3 < ((gInject 0).s 7).toNat / 2 ^ 8 % 16 ∧ ((gInject 0).s 6).toNat / 2 ^ 8 % 16 ≤ 3
      ∧ ∀ r ∈ (gInject 0).rgn, r.retry = 0)
    ∧ (Here (having (gInject 1)) 2 (gInject 1) ∧ ∃ r ∈ (gInject 1).rgn, 0 < r.retry)
    ∧ (0x0C0 : BitVec 12).toNat ∈ [0x000, 0x0C0] ∧ scrNumbers.contains (0x0F1 : BitVec 12).toNat = false :=
  ⟨⟨rfl, by decide +kernel⟩, by decide +kernel, by decide +kernel, ⟨here_having _, by decide +kernel⟩, ⟨here_having _, rfl⟩, rfl,
    ⟨here_having _, by decide +kernel⟩, ⟨here_having _, _, .head _, by decide⟩, by decide, by decide⟩

/-- The program with a trap section and a vector table in which the software trap has a disposition. -/
def vectored (disp : Nat) (g : Group) : State :=
  ctxWith (fun c => { c with desc := { c.desc with vtab := 0x60000, tsbase := 0x70000, tslen := 64 } })
    (poke (0x60000 + 16 * Cause.software.num + 8) 8 disp (having g))

/-- A trap in the queue of a group. -/
def queuedTrap : TrapRec :=
  { tcause := 6, tspc := 0x10004, tlpc := 0, taddr := 0, tmemb := 0, lxrem := 0, folded := (0, 0), disp := 1, target := 0 }

def gTraps (n : Nat) : Group := { g0 with traps := List.replicate n queuedTrap }

/-- A disposition that the vector of the software trap gives in `vectored`. -/
def dispAt (s : State) : Option Nat :=
  (aget s.m.ctxs 0).map fun c => effectiveDisp c (readVector s.m c Cause.software.num).disp (readVector s.m c Cause.software.num).goff

theorem witness_TakingATrap : (having gPsum).m.grp? 2 = some gPsum ∧ gPsum.qs.liq ≠ [] ∧ (having gTrapped).m.grp? 2 = some gTrapped
    ∧ (gTrapped.qs.liq = [] ∧ gTrapped.isTrapped = true)
    ∧ (having (gTraps 8)).m.grp? 2 = some (gTraps 8) ∧ ((gTraps 8).qs.liq = [] ∧ (gTraps 8).isTrapped = false ∧ 8 ≤ (gTraps 8).traps.length)
    ∧ (having (gTraps 7)).m.grp? 2 = some (gTraps 7) ∧ ((gTraps 7).traps.length < 8 ∧ (gTraps 7).traps ≠ [])
    ∧ (g0.traps = [] ∧ dispAt (vectored 1 g0) = some 1 ∧ dispAt (vectored 2 g0) = some 2 ∧ dispAt (vectored 3 g0) = some 0)
    ∧ (aget (vectored 1 g0).m.ctxs g0.ctx).isSome = true ∧ (vectored 1 g0).m.grp? 2 = some g0 := by decide +kernel

theorem witness_TrapDeliveryAndReturn : ((vectored 1 (gTraps 2)).m.grp? 2 = some (gTraps 2) ∧ (aget (vectored 1 (gTraps 2)).m.ctxs 0).isSome = true
      ∧ ctxRuns (vectored 1 (gTraps 2)).m (gTraps 2).ctx = true ∧ (gTraps 2).betweenInstrs = true
      ∧ (gTraps 2).traps = [queuedTrap, queuedTrap] ∧ queuedTrap.disp = 1 ∧ queuedTrap.tcause.toNat % 256 ≠ 48)
    ∧ (Here base 2 g0 ∧ g0.isTrapped = false)
    ∧ (Here (having gTrapped) 2 gTrapped ∧ gTrapped.isTrapped = true ∧ gTrapped.kind ≠ .compacted ∧ gTrapped.lxrem = 0 ∧ gTrapped.lx = none) :=
  ⟨by decide +kernel, ⟨⟨rfl, by decide +kernel⟩, rfl⟩, here_having _, by decide +kernel⟩

def gOpenTask : Group := { gTask with tasks := [(0, 1)] }

/-- A lane pop of an empty SQ at the head: the group's lanes are blocked. -/
def gBlocked : Group := gFq [] [entryOf (.iadd popWord)]

theorem witness_TrapsAndExit : (Here base 2 g0 ∧ g0.qs.liq = [] ∧ g0.rgn = [] ∧ ¬ (g0.kind = .task ∧ g0.tasks ≠ [])
      ∧ ∀ t, aget base.m.teams g0.team = some t → ∀ p ∈ t.pubs, p.group ≠ 2)
    ∧ (Here (having gPsum) 2 gPsum ∧ gPsum.qs.liq ≠ [] ∧ gPsum.headBlocked = false ∧ gPsum.rgn = [])
    ∧ (Here (having gBlocked) 2 gBlocked ∧ gBlocked.headBlocked = true)
    ∧ (Here (having (gInject 0)) 2 (gInject 0) ∧ (gInject 0).rgn ≠ [])
    ∧ (Here (having gOpenTask) 2 gOpenTask ∧ gOpenTask.rgn = [] ∧ gOpenTask.kind = .task ∧ gOpenTask.tasks ≠ []) :=
  ⟨⟨⟨rfl, by decide +kernel⟩, rfl, rfl, by decide +kernel, fun t h => by
      have h1 : aget base.m.teams g0.team = some (freshTeam 0 0 0 0 0x1000 0) := by decide +kernel
      rw [h1] at h; cases h; exact fun _ h => nomatch h⟩,
    ⟨here_having _, by decide +kernel⟩, ⟨here_having _, by decide +kernel⟩, ⟨here_having _, by decide +kernel⟩, here_having _, by decide +kernel⟩

/-- A group whose lane issue queue holds one instruction, taken alone. -/
def gOf (i : Instr) : Group := { g0 with qs := { g0.qs with liq := [entryOf i] } }

/-- What the statements of the lane instructions ask: a well-formed instruction that issues, no check of what it reads
failing. -/
def Meets (i : Instr) (w : LaneWord) : Prop :=
  i.wf = true ∧ Issues (having (gOf i)) 2 (gOf i) (entryOf i) i
    ∧ ReadsPass i (gOf i) (laneIn (having (gOf i)).m (gOf i) (entryOf i) i w).lanes

/-- The same, as a check. -/
def meets (i : Instr) (w : LaneWord) : Bool :=
  i.wf && !(gOf i).blockedOn i && !(gOf i).readFails (sourceRegs i) (laneIn (having (gOf i)).m (gOf i) (entryOf i) i w).lanes

theorem meets_of {i : Instr} {w : LaneWord} (h : meets i w = true) : Meets i w := by
  simp only [meets, Bool.and_eq_true, Bool.not_eq_true'] at h
  exact ⟨h.1.1, ⟨here_having _, rfl, rfl, h.1.2, show (32 : Nat) ≤ 96 by decide⟩, h.2⟩

/-- A word of n sources v0, v2, v4 and v6 and destination v8. -/
def nWord (ty : BitVec 5) (n : Nat) (modB : BitVec 12) : LaneWord :=
  { ty := ty, dst := 8, cap := 0, nw := 0, a := 0, b := if 1 < n then 2 else 0, c := if 2 < n then 4 else 0,
    d := if 3 < n then 6 else 0, g1 := 7, g2 := 7, slot := 0, hint := 0, sched := 0, modB := modB }

/-- Every instruction of a list meets what is asked, with the word it carries. -/
def AllMeet (is : List (LaneWord → Instr)) (ty : BitVec 5) (n : Nat) (modB : BitVec 12) : Prop :=
  ∀ i ∈ is, Meets (i (nWord ty n modB)) (nWord ty n modB)

theorem allMeet_of {is : List (LaneWord → Instr)} {ty : BitVec 5} {n : Nat} {modB : BitVec 12}
    (h : (is.all fun i => meets (i (nWord ty n modB)) (nWord ty n modB)) = true) : AllMeet is ty n modB :=
  fun i hi => meets_of (List.all_eq_true.mp h i hi)

theorem witness_LaneIntegerResults : AllMeet [.iadd, .isub, .imul] 7 2 0x100 ∧ AllMeet [.iadd, .isub, .imul] 0 2 0 ∧ AllMeet [.imad] 2 3 0x100
    ∧ AllMeet [.imad] 5 3 0 ∧ AllMeet [.imulh] 0 2 0 ∧ AllMeet [.imulh] 3 2 0 ∧ AllMeet [.imin, .imax] 0 2 0 ∧ AllMeet [.imin, .imax] 7 2 0
    ∧ AllMeet [.iabs, .ineg] 0 1 0 ∧ AllMeet [.iabs, .ineg] 6 1 0x100 := by
  and_intros <;> exact allMeet_of (by decide +kernel)

theorem witness_LaneShiftAndLogicResults : AllMeet [.laneShl, .laneShr, .laneSar] 7 2 0 ∧ AllMeet [.laneShl, .laneShr, .laneSar] 13 2 0
    ∧ AllMeet [.lanePopc, .laneClz, .laneBrev, .not] 12 1 0 ∧ AllMeet [.lanePopc, .laneClz, .laneBrev, .not] 13 1 0
    ∧ AllMeet [.laneAnd, .laneOr, .laneXor] 12 2 0 ∧ AllMeet [.laneAnd, .laneOr, .laneXor] 13 2 0
    ∧ AllMeet [.lop3] 12 3 0xFF ∧ AllMeet [.lop3] 13 3 0 := by
  and_intros <;> exact allMeet_of (by decide +kernel)

/-- A BCAST of v0 from the lane that a constant names. -/
def bcWord (dst : BitVec 9) : LaneWord := lword 12 dst 0 0x1BF 0 0

theorem witness_LaneFieldAndMoveResults : AllMeet [.bfe] 0 3 0 ∧ AllMeet [.bfi] 3 4 0 ∧ AllMeet [.laneSel] 13 2 15 ∧ AllMeet [.mov] 13 1 0
    ∧ (Meets (.bcast (bcWord 8)) (bcWord 8) ∧ (bcWord 8).dst ≠ 0x145
      ∧ ReadsPass (.bcast (bcWord 8)) (gOf (.bcast (bcWord 8)))
        [((laneIn (having (gOf (.bcast (bcWord 8)))).m (gOf (.bcast (bcWord 8))) (entryOf (.bcast (bcWord 8))) (.bcast (bcWord 8)) (bcWord 8)).raw
          1 (bcWord 8).b 0).toNat % 32])
    ∧ AllMeet [.shfl] 12 2 40 ∧ AllMeet [.shfl] 13 2 3
    ∧ (∀ l : List Nat, (gOf (.shfl (nWord 12 2 40))).readFails ((SrcKind.typed .x32).vregs 2) l = false
      ∧ (gOf (.shfl (nWord 12 2 40))).readFails ((SrcKind.typed .x32).vregs 0) l = false) := by
  have none_fails (l : List Nat) (rs : List Nat) : (gOf (.shfl (nWord 12 2 40))).readFails rs l = false := by
    unfold Group.readFails
    rw [show (gOf (.shfl (nWord 12 2 40))).chk = [] by decide +kernel]
    rfl
  refine ⟨?_, ?_, ?_, ?_, ⟨meets_of (by decide +kernel), by decide, by unfold ReadsPass; decide +kernel⟩, ?_, ?_,
    fun l => ⟨none_fails l _, none_fails l _⟩⟩ <;> exact allMeet_of (by decide +kernel)

theorem witness_LaneFloatResults : AllMeet [.fadd, .fsub, .fmul] 22 2 0x900 ∧ AllMeet [.fadd, .fsub, .fmul] 16 2 0 ∧ AllMeet [.fma] 17 3 0x300
    ∧ AllMeet [.fmin, .fmax] 22 2 0 ∧ AllMeet [.fabs, .fneg] 16 1 0 ∧ AllMeet [.frnd] 19 1 0x200 ∧ AllMeet [.rcp, .sqrt] 16 1 0x100
    ∧ AllMeet [.rsq] 18 1 0x100 ∧ AllMeet [.exp2] 17 1 0x100 ∧ AllMeet [.log2, .sin, .cos, .tanh] 19 1 0 := by
  and_intros <;> exact allMeet_of (by decide +kernel)

theorem witness_MinMaxAndSignElements : Fmt.hasSign .e2m1 = true ∧ 0xF < 2 ^ Fmt.e2m1.width
    ∧ ((decodeF .fp32 0x7FC00000).isNaN = true ∧ (decodeF .fp32 0x3F800000).isNaN = false ∧ 0x7FC00000 < 2 ^ Fmt.fp32.width)
    ∧ ((decodeF .fp32 0x3F800000).below (decodeF .fp32 0x40000000) = true ∧ (decodeF .fp32 0x7FA00000).isSignalling = true) := by
  decide +kernel

theorem witness_SpecialOperands : Fmt.fp64 ∈ [Fmt.fp64, .fp32, .fp16, .bf16] ∧ decodeF .fp32 0x7FA00000 = .nan true ∧ decodeF .fp32 0xFF800000 = .inf true
    ∧ (decodeF .fp32 0x80000000 = .fin true 0 (-149)) ∧ (decodeF .fp32 0x80000001 = .fin true 1 (-149)) ∧ Fmt.fp32 ≠ .fp64 := by decide +kernel

theorem witness_RoundingDirections : (0 < (1 : Nat)) ∧ (0x7BFF < 2 ^ Fmt.fp16.width ∧ decodeF .fp16 0x7BFF = .fin false 2047 5)
    ∧ (1 < 2 ^ Fmt.e2m1.width ∧ decodeF .e2m1 1 = .fin false 1 (-1)) := by decide +kernel

theorem witness_LaneConvertAndDotResults : AllMeet [.cvt] 0 1 0x511 ∧ AllMeet [.cvt] 24 1 16 ∧ AllMeet [.cvt] 3 1 0 ∧ AllMeet [.cvtp] 22 4 0x12
    ∧ AllMeet [.cvtp] 17 1 0xB2 ∧ AllMeet [.cvtp] 18 1 0xF6 ∧ AllMeet [.dot2] 4 3 0x100 ∧ AllMeet [.dot2] 19 3 0x200 ∧ AllMeet [.dot4] 20 3 1
    ∧ AllMeet [.dot8] 9 3 0 ∧ AllMeet [.dot8] 22 3 0 := by
  and_intros <;> exact allMeet_of (by decide +kernel)

/-- A word that writes a predicate or a queue, with its sources. -/
def pWord (ty : BitVec 5) (dst a b : BitVec 9) (modB : BitVec 12) : LaneWord := lword ty dst a b 0 modB

theorem witness_PredicateResults : Meets (.icmp (pWord 3 7 0 2 5)) (pWord 3 7 0 2 5) ∧ Meets (.icmp (pWord 0 6 0 2 0)) (pWord 0 6 0 2 0)
    ∧ (Meets (.fcmp (pWord 16 0 0 2 7)) (pWord 16 0 0 2 7) ∧ (decodeF .fp64 0x7FF0000000000001).isSignalling = true
      ∧ (decodeF .fp64 0).isZero = true ∧ (decodeF .fp64 0x8000000000000001).below (decodeF .fp64 0) = true)
    ∧ ∀ i ∈ [(Instr.pand), .por, .pxor], Meets (i (pWord 0 6 7 0 0)) (pWord 0 6 7 0 0) ∧ Meets (Instr.pnot (pWord 0 0 7 0 0)) (pWord 0 0 7 0 0)
      ∧ Meets (Instr.pmov (pWord 0 7 6 0 0)) (pWord 0 7 6 0 0) :=
  ⟨meets_of (by decide +kernel), meets_of (by decide +kernel), ⟨meets_of (by decide +kernel), by decide +kernel⟩, fun i hi => by
    simp only [List.mem_cons, List.not_mem_nil, or_false] at hi
    rcases hi with rfl | rfl | rfl <;> exact ⟨meets_of (by decide +kernel), meets_of (by decide +kernel), meets_of (by decide +kernel)⟩⟩

/-- A SHDW of v8. -/
def shdwWord : LaneWord := { lword 0 8 0 0 0 0 with g1 := 7, g2 := 7 }

/-- The member that v8 is shadowed by: an IADD of v0 and v2. -/
def shadowed : Instr := .iadd { nWord 0 2 0 with sched := 2 }

/-- A group at a SHDW whose chain has a shadowed result for v8 in lane 0, or none, with an injection armed or not, and check fields. -/
def gShadow (results : List ShadowResult) (inj : Option (Nat × Nat)) (chk : AMap Check) : Group :=
  { gOf (.shdw shdwWord) with
    qs := { g0.qs with liq := [{ entryOf (.shdw shdwWord) with inject := inj }] }
    chain := some { Chain.empty with issued := [entryOf shadowed], shadows := results }, chk := chk }

def shadowResult (y : Dword) : ShadowResult := { reg := 8, wide := false, vals := [(0, y)] }

theorem issues_shadow (results : List ShadowResult) (inj : Option (Nat × Nat)) (chk : AMap Check) :
    Issues (having (gShadow results inj chk)) 2 (gShadow results inj chk) { entryOf (.shdw shdwWord) with inject := inj } (.shdw shdwWord) :=
  ⟨here_having _, rfl, rfl, rfl, show (32 : Nat) ≤ 96 by decide⟩

theorem witness_QueuePushResults_shdw : (Instr.shdw shdwWord).wf = true
    ∧ (∀ results inj chk, Issues (having (gShadow results inj chk)) 2 (gShadow results inj chk) { entryOf (.shdw shdwWord) with inject := inj } (.shdw shdwWord)
        ∧ (gShadow results inj chk).chain = some { Chain.empty with issued := [entryOf shadowed], shadows := results })
    ∧ (let finds (results : List ShadowResult) := results.find? fun r => r.reg = shdwWord.dst.toNat
       finds [] = none ∧ finds [shadowResult 0] = some (shadowResult 0) ∧ finds [{ shadowResult 0 with vals := [] }] = some { shadowResult 0 with vals := [] })
    ∧ (let sources := shadowSources { Chain.empty with issued := [entryOf shadowed] } shdwWord.dst.toNat
       (gShadow [shadowResult 0] none [(0, .valid 5)]).readFails sources [0] = true ∧ (gShadow [shadowResult 0] none []).readFails sources [0] = false)
    ∧ (((gShadow [shadowResult 1] none []).vreg 8 0).toNat % 63 ≠ (1 : Dword).toNat / 2 ^ (32 * 0) % 2 ^ 32 % 63
      ∧ ((gShadow [shadowResult 0] none []).vreg 8 0).toNat % 63 = (0 : Dword).toNat / 2 ^ (32 * 0) % 2 ^ 32 % 63) :=
  ⟨by decide +kernel, fun _ _ _ => ⟨issues_shadow _ _ _, rfl⟩, by decide +kernel⟩

theorem witness_QueuePushResults : Meets (.psum (pWord 0 0x146 7 0 0)) (pWord 0 0x146 7 0 0) ∧ Meets (.ptoq (pWord 0 0x145 6 0 0)) (pWord 0 0x145 6 0 0)
    ∧ (Meets (.bcast (bcWord 0x145)) (bcWord 0x145) ∧ (bcWord 0x145).dst = 0x145)
    ∧ Meets (.redq (pWord 17 0x145 0 0 0x900)) (pWord 17 0x145 0 0 0x900) ∧ Meets (.redq (pWord 12 0x145 0 0 5)) (pWord 12 0x145 0 0 5)
    ∧ Meets (.laneHint 15 (nWord 31 4 0xFFF)) (nWord 31 4 0xFFF) :=
  ⟨meets_of (by decide +kernel), meets_of (by decide +kernel), ⟨meets_of (by decide +kernel), rfl⟩, meets_of (by decide +kernel),
    meets_of (by decide +kernel), meets_of (by decide +kernel)⟩

/-- Whether an attempt succeeds with something of which p holds. -/
def okThat {α β : Type} (p : β → Bool) : Except α β → Bool
  | .ok x => p x
  | .error _ => false

theorem of_okThat {α β : Type} {p : β → Bool} {o : Except α β} (h : okThat p o = true) : ∃ l, o = .ok l ∧ p l = true := by
  cases o with
  | ok x => exact ⟨x, rfl, h⟩
  | error _ => exact nomatch h

/-- Whether an attempt fails. -/
def fails {α β : Type} : Except α β → Bool
  | .ok _ => false
  | .error _ => true

theorem of_fails {α γ β : Type} {o : Except (α × γ) β} (h : fails o = true) : ∃ c a, o = .error (c, a) := by
  cases o with
  | ok _ => exact nomatch h
  | error x => exact ⟨x.1, x.2, rfl⟩

/-- A group that is about to access the address in s6, its fabric access being as given. -/
def gAt (va : Nat) (f : Fabric) : Group := { sregs [(6, va)] g0 with fabric := f }

/-- A route of the second GiB of the program's addresses to port 5, which is up (R419). -/
def routed (s : State) : State :=
  poke 0x3008 8 0x860000000007F
    (onM (fun m => { m with routes := m.routes.set 3 0x8000000000010005, ports := m.ports.set 5 { Port.reset with en := true, st := .up } }) s)

theorem here_routed (g : Group) : Here (routed (having g)) 2 g := by
  refine ⟨rfl, ?_⟩
  have h : (routed (having g)).m.groups = (having g).m.groups := rfl
  show aget (routed (having g)).m.groups 2 = some g
  rw [h]; exact (here_having g).2

/-- Where an access of the routed program lies, for a check. -/
def lies (g : Group) (lane va size : Nat) (k : AKind) (arm : Bool) (p : Located → Bool) : Bool :=
  okThat p (locate (routed (having g)).m g lane va size k arm)

/-- What the statements of scalar accesses ask of an address, clause by clause: misaligned, located nowhere, in device
memory, and behind a port, before, during and after its way. -/
def AccessCases (size : Nat) (k : AKind) (arm : Bool) : Prop :=
  (∃ va, ((gAt va .none).s 6).toNat % size ≠ 0)
  ∧ (∃ g : Group, Here (routed (having g)) 2 g ∧ (g.s 6).toNat % size = 0
      ∧ ∃ c a, locate (routed (having g)).m g 0 (g.s 6).toNat size k arm = .error (c, a))
  ∧ (∃ (g : Group) (l : Located), Here (routed (having g)) 2 g ∧ (g.s 6).toNat % size = 0
      ∧ locate (routed (having g)).m g 0 (g.s 6).toNat size k arm = .ok l ∧ l.port = none ∧ plainAt l.m l.loc size)
  ∧ ∀ f ∈ [Fabric.none, .pending [(5, 1)] [], .done [], .done [5]], ∃ (g : Group) (l : Located), Here (routed (having g)) 2 g
      ∧ (g.s 6).toNat % size = 0 ∧ g.fabric = f ∧ locate (routed (having g)).m g 0 (g.s 6).toNat size k arm = .ok l ∧ l.port = some 5

/-- A check of the last three cases. -/
def accessCases (size : Nat) (k : AKind) (arm : Bool) : Bool :=
  fails (locate (routed (having (gAt 0x80000000 .none))).m (gAt 0x80000000 .none) 0 ((gAt 0x80000000 .none).s 6).toNat size k arm)
  && (lies (gAt 0x30000 .none) 0 ((gAt 0x30000 .none).s 6).toNat size k arm fun l => l.port = none && l.loc = .dev 0x30000)
  && [Fabric.none, .pending [(5, 1)] [], .done [], .done [5]].all fun f =>
      lies (gAt 0x40001000 f) 0 ((gAt 0x40001000 f).s 6).toNat size k arm fun l => l.port = some 5

theorem accessCases_of {size : Nat} {k : AKind} {arm : Bool} (hs : size ∈ [2, 4, 8]) (h : accessCases size k arm = true) :
    AccessCases size k arm := by
  simp only [accessCases, Bool.and_eq_true] at h
  obtain ⟨⟨h1, h2⟩, h3⟩ := h
  have al : ∀ va f, va ∈ [0x80000000, 0x30000, 0x40001000] → ((gAt va f).s 6).toNat % size = 0 := by
    intro va f hv
    have e : (gAt va f).s 6 = (gAt va .none).s 6 := rfl
    rw [e]
    have : ∀ size ∈ [2, 4, 8], ∀ va ∈ [0x80000000, 0x30000, 0x40001000], ((gAt va .none).s 6).toNat % size = 0 := by decide +kernel
    exact this _ hs _ hv
  refine ⟨?_, ?_, ?_, ?_⟩
  · have : ∀ size ∈ [2, 4, 8], ((gAt 0x30001 .none).s 6).toNat % size ≠ 0 := by decide +kernel
    exact ⟨_, this _ hs⟩
  · obtain ⟨c, a, e⟩ := of_fails h1
    exact ⟨_, here_routed _, al _ _ (.head _), c, a, e⟩
  · obtain ⟨l, e, p⟩ := of_okThat h2
    simp only [Bool.and_eq_true, decide_eq_true_eq] at p
    refine ⟨_, l, here_routed _, al _ _ (by decide), e, p.1, ?_⟩
    rw [p.2]
    have : ∀ size ∈ [2, 4, 8], 0x30000 + size ≤ devTop := by decide
    exact this _ hs
  · intro f hf
    obtain ⟨l, e, p⟩ := of_okThat (List.all_eq_true.mp h3 f hf)
    exact ⟨gAt 0x40001000 f, l, here_routed _, al _ _ (by decide), rfl, e, of_decide_eq_true p⟩

/-- The program with the CXL lines behind port 5 held in the module's L2. -/
def heldLines (s : State) : State :=
  onM (fun m => { m with ports := m.ports.set 5 { Port.reset with en := true, st := .up, inUse := true } })
    (onM (fun m => m.setDie 3 { m.die 3 with cxl := (List.range 128).map fun i => 5 * 2 ^ 48 + 2 ^ 39 + i }) (routed s))

theorem here_held (g : Group) : Here (heldLines (having g)) 2 g :=
  here_onM (fun _ => ⟨rfl, rfl⟩) (here_onM (fun _ => ⟨rfl, rfl⟩) (here_routed g))

/-- An access that a line held in the L2 serves: it lies behind a port and leaves through none. -/
theorem witness_ScalarLoads_heldLines : ∀ k ∈ [AKind.read, .write, .atomic], ∃ l, Here (heldLines (having (gAt 0x40001000 .none))) 2 (gAt 0x40001000 .none)
    ∧ locate (heldLines (having (gAt 0x40001000 .none))).m (gAt 0x40001000 .none) 0 0x40001000 8 k false = .ok l ∧ l.port = none ∧ ∃ far, l.loc = .ext 5 far := by
  intro k hk
  have h : [AKind.read, .write, .atomic].all (fun k => okThat (fun l : Located => l.port = none && (match l.loc with | .ext 5 _ => true | _ => false))
      (locate (heldLines (having (gAt 0x40001000 .none))).m (gAt 0x40001000 .none) 0 0x40001000 8 k false)) = true := by decide +kernel
  obtain ⟨l, e, p⟩ := of_okThat (List.all_eq_true.1 h k hk)
  simp only [Bool.and_eq_true, decide_eq_true_eq] at p
  refine ⟨l, here_held _, e, p.1, ?_⟩
  have h2 := p.2
  split at h2
  · exact ⟨_, ‹_›⟩
  · cases h2

theorem witness_ScalarLoads : AccessCases 2 .read true ∧ AccessCases 4 .read true ∧ AccessCases 8 .read true
    ∧ (5 : Nat) ∈ [5] ∧ (5 : Nat) ∉ ([] : List Nat) :=
  ⟨accessCases_of (by decide) (by decide +kernel), accessCases_of (by decide) (by decide +kernel), accessCases_of (by decide) (by decide +kernel),
    by decide, by decide⟩

theorem witness_ScalarStores : AccessCases 2 .write true ∧ AccessCases 4 .write true ∧ AccessCases 8 .write true :=
  ⟨accessCases_of (by decide) (by decide +kernel), accessCases_of (by decide) (by decide +kernel), accessCases_of (by decide) (by decide +kernel)⟩

theorem witness_ScalarAtomics : AccessCases 8 .atomic false ∧ (5 ≤ (5 : BitVec 3).toNat ∧ 10 ≤ (10 : BitVec 5).toNat)
    ∧ ((4 : BitVec 3).toNat < 5 ∧ (9 : BitVec 5).toNat < 10) ∧ (Here (having (gInject 0)) 2 (gInject 0) ∧ (gInject 0).rgn ≠ [])
    ∧ ((4 : BitVec 3) ≠ 0 ∧ (gAt 0 .none).rgn = []) :=
  ⟨accessCases_of (by decide) (by decide +kernel), by decide, by decide, ⟨here_having _, by decide +kernel⟩, by decide +kernel⟩

/-- A posted store and a walk of group 2, with a handler under way. -/
def gServing : Group := { sregs [(6, 31), (7, 1), (8, 8)] g0 with serving := some 0, pool := 1 }

def pstOf (group : Nat) : Pst :=
  { ctx := 0, node := 0, stamp := 0, group := group, kern := 0, unit := 0, batch := 0, port := 5, far := 0, size := 4, left := [],
    lost := false, after := [] }

/-- A walk record of one tile and two k-steps. -/
def walkRec0 : WalkRec :=
  { m := 2, n := 2, k := 2, g := 0, tk := 1, tn := 2, tm := 2, spmax := 0, prio := 0, width := 32, pool := 1, bswz := 0, aswz := 0,
    depth := 1, pd := 1, spawn := false, init := false, accfmt := 3, bslot := 0, aslot := 0, cw := 0, order := 0, bent := 0, aent := 0, ient := 0,
    dent := 0, tag := 0, node := 0, stamp := 0 }

def walkOf (poster : Option Nat) (st : WState) : Walk := { newWalk 0 0 poster 0x30000 walkRec0 0 0 [] with st := st }

/-- The program with one posted store and one walk that group 2 has under way, and an entry it published. -/
def engaged (g : Group) : State :=
  teamWith (fun t => { t with pubs := [{ ix := 0, group := 2, after := [] }] })
    (onM (fun m => { m with psts := [(7, pstOf 2)], walks := [(8, walkOf (some 2) .posted)] }) (having g))

theorem here_engaged (g : Group) : Here (engaged g) 2 g := by
  refine ⟨rfl, ?_⟩
  have h : (engaged g).m.groups = (having g).m.groups := rfl
  show aget (engaged g).m.groups 2 = some g
  rw [h]; exact (here_having g).2

/-- The program with its team placed on two cores. -/
def spreadOver (g : Group) : State := teamWith (fun t => { t with spans := true }) (having g)

theorem witness_FencesAndWaits : 5 ≤ (5 : BitVec 3).toNat ∧ (4 : BitVec 3).toNat < 5
    ∧ (Here (having (gInject 0)) 2 (gInject 0) ∧ (gInject 0).rgn ≠ [] ∧ ((gInject 0).s 6).truncate 5 ≠ (0 : BitVec 5))
    ∧ (Here (engaged gServing) 2 gServing ∧ gServing.rgn = [] ∧ (∃ kp ∈ (engaged gServing).m.psts, kp.2.group = 2)
      ∧ ((gServing.s 6).truncate 5 : BitVec 5).getLsbD 2 = true ∧ gServing.serving ≠ none
      ∧ ∃ kw ∈ (engaged gServing).m.walks, kw.2.poster = some 2 ∧ kw.2.over = false)
    ∧ (Here (engaged g0) 2 g0 ∧ g0.heldBack = false ∧ g0.serving = none)
    ∧ ((spreadOver g0).m.grp? 2 = some g0 ∧ ∃ t, aget (spreadOver g0).m.teams g0.team = some t ∧ t.spans = true)
    ∧ (Here base 2 g0 ∧ g0.rgn = [] ∧ base.m.psts = [] ∧ base.m.walks = [] ∧ ∃ t, aget base.m.teams g0.team = some t ∧ t.spans = false)
    ∧ (6 ≤ (6 : BitVec 3).toNat ∧ (5 : BitVec 3).toNat < 6 ∧ AccessCases 8 .read false) :=
  ⟨by decide, by decide, ⟨here_having _, by decide +kernel⟩,
    ⟨here_engaged _, rfl, ⟨(7, pstOf 2), by decide +kernel⟩, by decide +kernel, by decide +kernel, ⟨(8, walkOf (some 2) .posted), by decide +kernel⟩⟩,
    ⟨here_engaged _, by decide +kernel⟩, ⟨by decide +kernel, _, rfl, by decide +kernel⟩,
    ⟨⟨rfl, by decide +kernel⟩, by decide +kernel, by decide +kernel, by decide +kernel, _, rfl, by decide +kernel⟩, by decide, by decide,
    accessCases_of (by decide) (by decide +kernel)⟩

/-- A memory word: base s6, an offset, data in v2, and an operator or a second datum. -/
def memWord (ty : BitVec 5) (dst b c d : BitVec 9) (modB : BitVec 12) : LaneWord :=
  { ty := ty, dst := dst, cap := 0, nw := 0, a := 0x106, b := b, c := c, d := d, g1 := 7, g2 := 7, slot := 0, hint := 0, sched := 0, modB := modB }

/-- A group at a lane memory instruction, in the lanes of a mask, with its base address. -/
def gMem (i : Instr) (va : Nat) (mask : Word) (f : Fabric) : Group :=
  { sregs [(6, va)] g0 with qs := { g0.qs with liq := [{ entryOf i with m0 := mask }] }, fabric := f }

def MemMeets (i : Instr) (w : LaneWord) (g : Group) : Prop :=
  i.wf = true ∧ (∃ e, Issues (routed (having g)) 2 g e i ∧ ReadsPass i g (laneIn (routed (having g)).m g e i w).lanes)

def memMeets (i : Instr) (w : LaneWord) (va : Nat) (mask : Word) : Bool :=
  let g := gMem i va mask .none
  i.wf && !g.blockedOn i && !g.readFails (sourceRegs i) (laneIn (routed (having g)).m g { entryOf i with m0 := mask } i w).lanes

theorem memMeets_of {i : Instr} {w : LaneWord} {va : Nat} {mask : Word} (f : Fabric) (h : memMeets i w va mask = true) :
    MemMeets i w (gMem i va mask f) := by
  simp only [memMeets, Bool.and_eq_true, Bool.not_eq_true'] at h
  exact ⟨h.1.1, _, ⟨here_routed _, rfl, rfl, h.1.2, show (32 : Nat) ≤ 96 by decide⟩, h.2⟩

/-- What the checks of the lanes give: their accesses and their faults. -/
def checked (i : Instr) (w : LaneWord) (va : Nat) (mask : Word) (f : Fabric) (k : AKind) (arm : Bool) : Mach × List LaneAccess × List LaneFault :=
  let g := gMem i va mask f
  let m := (routed (having g)).m
  let x := laneIn m g { entryOf i with m0 := mask } i w
  checkLanes (fun m l => checkLane m g l (x.ea l) (sizeBytes w.size) k arm) x.lanes m

/-- The cases of a lane access: lane 1 misaligned; two lanes that overlap, or one alone, in the core's scratchpad; and a port. -/
def LaneCases (i : LaneWord → Instr) (ty : BitVec 5) (dst c d : BitVec 9) (modB : BitVec 12) (k : AKind) (arm : Bool) : Prop :=
  let w (b : BitVec 9) := memWord ty dst b c d modB
  let size := sizeBytes (w 0).size
  (MemMeets (i (w 0x147)) (w 0x147) (gMem (i (w 0x147)) 0x30000 3 .none) ∧ (checked (i (w 0x147)) (w 0x147) 0x30000 3 .none k arm).2.2 ≠ [])
  ∧ (∀ mask ∈ [(1 : Word), 3], MemMeets (i (w 0x1A0)) (w 0x1A0) (gMem (i (w 0x1A0)) 0x00FF000000000000 mask .none)
      ∧ (checked (i (w 0x1A0)) (w 0x1A0) 0x00FF000000000000 mask .none k arm).2.2 = [] ∧ portsOf size (checked (i (w 0x1A0)) (w 0x1A0) 0x00FF000000000000 mask .none k arm).2.1 = []
      ∧ (∀ a ∈ (checked (i (w 0x1A0)) (w 0x1A0) 0x00FF000000000000 mask .none k arm).2.1, a.loc.loc = .spad 0)
      ∧ anyOverlap size (checked (i (w 0x1A0)) (w 0x1A0) 0x00FF000000000000 mask .none k arm).2.1 = decide (mask = 3))
  ∧ ∀ f ∈ [Fabric.none, .pending [(5, 1)] [], .done [5]], MemMeets (i (w 0x1A0)) (w 0x1A0) (gMem (i (w 0x1A0)) 0x40001000 1 f)
      ∧ (checked (i (w 0x1A0)) (w 0x1A0) 0x40001000 1 f k arm).2.2 = [] ∧ portsOf size (checked (i (w 0x1A0)) (w 0x1A0) 0x40001000 1 f k arm).2.1 = (if size = 16 then [5, 5] else [5])

def laneCases (i : LaneWord → Instr) (ty : BitVec 5) (dst c d : BitVec 9) (modB : BitVec 12) (k : AKind) (arm : Bool) : Bool :=
  let w (b : BitVec 9) := memWord ty dst b c d modB
  let size := sizeBytes (w 0).size
  (memMeets (i (w 0x147)) (w 0x147) 0x30000 3 && decide ((checked (i (w 0x147)) (w 0x147) 0x30000 3 .none k arm).2.2 ≠ []))
  && [(1 : Word), 3].all (fun mask => memMeets (i (w 0x1A0)) (w 0x1A0) 0x00FF000000000000 mask
      && decide ((checked (i (w 0x1A0)) (w 0x1A0) 0x00FF000000000000 mask .none k arm).2.2 = [] ∧ portsOf size (checked (i (w 0x1A0)) (w 0x1A0) 0x00FF000000000000 mask .none k arm).2.1 = []
      ∧ (∀ a ∈ (checked (i (w 0x1A0)) (w 0x1A0) 0x00FF000000000000 mask .none k arm).2.1, a.loc.loc = .spad 0)
      ∧ anyOverlap size (checked (i (w 0x1A0)) (w 0x1A0) 0x00FF000000000000 mask .none k arm).2.1 = decide (mask = 3)))
  && [Fabric.none, .pending [(5, 1)] [], .done [5]].all fun f => memMeets (i (w 0x1A0)) (w 0x1A0) 0x40001000 1
      && decide ((checked (i (w 0x1A0)) (w 0x1A0) 0x40001000 1 f k arm).2.2 = [] ∧ portsOf size (checked (i (w 0x1A0)) (w 0x1A0) 0x40001000 1 f k arm).2.1 = (if size = 16 then [5, 5] else [5]))

theorem laneCases_of {i : LaneWord → Instr} {ty : BitVec 5} {dst c d : BitVec 9} {modB : BitVec 12} {k : AKind} {arm : Bool}
    (h : laneCases i ty dst c d modB k arm = true) : LaneCases i ty dst c d modB k arm := by
  simp only [laneCases, Bool.and_eq_true, decide_eq_true_eq] at h
  obtain ⟨⟨⟨h1, h2⟩, h3⟩, h4⟩ := h
  refine ⟨⟨memMeets_of _ h1, h2⟩, fun mask hm => ?_, fun f hf => ?_⟩
  · have := List.all_eq_true.mp h3 mask hm
    simp only [Bool.and_eq_true, decide_eq_true_eq] at this
    exact ⟨memMeets_of _ this.1, this.2⟩
  · have := List.all_eq_true.mp h4 f hf
    simp only [Bool.and_eq_true, decide_eq_true_eq] at this
    exact ⟨memMeets_of _ this.1, this.2⟩

theorem witness_LaneLoads : LaneCases .ld 12 8 0 0 0x08 .read true ∧ LaneCases .ld 0 8 0 0 0x85 .read true
    ∧ (acquires (memWord 12 8 0 0 0 0x49) = true ∧ 2 ≤ (memWord 12 8 0 0 0 0x49).scope) :=
  ⟨laneCases_of (by decide +kernel), laneCases_of (by decide +kernel), by decide +kernel⟩

/-- A group in a region at a lane memory instruction. -/
def gMemRgn (i : Instr) : Group := { gMem i 0x30000 1 .none with rgn := [openRegion 0] }

theorem witness_LaneStores : LaneCases .st 12 0x148 2 0 0x08 .write true ∧ LaneCases .st 13 0x148 4 0 0x10 .write true
    ∧ ((gMemRgn (.st (memWord 12 0x148 0x1A0 2 0 0x4A))).rgn ≠ [] ∧ releases (memWord 12 0x148 0x1A0 2 0 0x4A) = true
      ∧ (Instr.st (memWord 12 0x148 0x1A0 2 0 0x4A)).wf = true)
    ∧ (releases (memWord 12 0x148 0x1A0 2 0 0x08) = false ∧ (gMem (.st (memWord 12 0x148 0x1A0 2 0 0x08)) 0x30000 1 .none).rgn = []) :=
  ⟨laneCases_of (by decide +kernel), laneCases_of (by decide +kernel), by decide +kernel⟩

theorem witness_LaneAtomics : LaneCases .atom 0 8 2 6 0x08 .atomic false ∧ LaneCases .atomcas 13 8 2 4 0x6C .atomic false
    ∧ LaneCases .fatom 17 8 2 0 0x08 .atomic false ∧ LaneCases .red 19 0x148 2 2 0x0A .atomic false
    ∧ ((gMemRgn (.red (memWord 19 0x148 0x1A0 2 2 0x0A))).rgn ≠ [] ∧ releases (memWord 19 0x148 0x1A0 2 2 0x0A) = true)
    ∧ ((memWord 13 8 0x1A0 2 4 0x6C).scope ≠ 0 ∧ ¬ (releases (memWord 0 8 0x1A0 2 6 0x08) = true ∨ (memWord 0 8 0x1A0 2 6 0x08).scope ≠ 0)) := by
  refine ⟨?_, ?_, ?_, ?_, by decide +kernel⟩ <;> exact laneCases_of (by decide +kernel)

/-- What the checks of a DISCARD of 16 bytes give. -/
def discarded (va : Nat) : Mach × List (Located × Nat) × List LaneFault :=
  let i : Instr := .discard (memWord 12 0x148 0x1A0 0x1B0 0 0)
  let g := gMem i va 1 .none
  let x := laneIn (routed (having g)).m g { entryOf i with m0 := 1 } i (memWord 12 0x148 0x1A0 0x1B0 0 0)
  discardLanes x x.lanes (routed (having g)).m

/-- What the checks of a PST give. -/
def posted (va : Nat) (mask : Word) : Mach × List LaneAccess × List LaneFault :=
  let i : Instr := .pst (memWord 12 0x148 0x1A0 2 0 0x88)
  let g := gMem i va mask .none
  let x := laneIn (routed (having g)).m g { entryOf i with m0 := mask } i (memWord 12 0x148 0x1A0 2 0 0x88)
  checkLanes (checkPst x 4) x.lanes (routed (having g)).m

theorem witness_PrefetchDiscardPost :
    MemMeets (.pref (memWord 12 0x148 0x1A0 0 0 0)) (memWord 12 0x148 0x1A0 0 0 0) (gMem (.pref (memWord 12 0x148 0x1A0 0 0 0)) 0x80000000 1 .none)
    ∧ (∀ va ∈ [0x30000, 0x80000000], MemMeets (.discard (memWord 12 0x148 0x1A0 0x1B0 0 0)) (memWord 12 0x148 0x1A0 0x1B0 0 0)
        (gMem (.discard (memWord 12 0x148 0x1A0 0x1B0 0 0)) va 1 .none))
    ∧ ((discarded 0x30000).2.2 = [] ∧ (discarded 0x30000).2.1 ≠ [] ∧ (discarded 0x80000000).2.2 ≠ [])
    ∧ (∀ va ∈ [0x40001000, 0x30000], ∀ n ∈ [0, 1], MemMeets (.pst (memWord 12 0x148 0x1A0 2 0 0x88)) (memWord 12 0x148 0x1A0 2 0 0x88)
        (gMem (.pst (memWord 12 0x148 0x1A0 2 0 0x88)) va (BitVec.ofNat 32 n) .none))
    ∧ ((posted 0x40001000 1).2.2 = [] ∧ (posted 0x40001000 1).2.1 ≠ [] ∧ (posted 0x30000 1).2.2 ≠ [] ∧ (posted 0x40001000 0).2 = ([], []))
    ∧ (gMemRgn (.pst (memWord 12 0x148 0x1A0 2 0 0x88))).rgn ≠ [] := by
  refine ⟨memMeets_of _ (by decide +kernel), fun va hv => memMeets_of _ ?_, by decide +kernel, fun va hv n hn => memMeets_of _ ?_,
    by decide +kernel⟩
  · exact (by decide +kernel : ∀ va ∈ [0x30000, 0x80000000], memMeets (.discard (memWord 12 0x148 0x1A0 0x1B0 0 0))
      (memWord 12 0x148 0x1A0 0x1B0 0 0) va 1 = true) va hv
  · exact (by decide +kernel : ∀ va ∈ [0x40001000, 0x30000], ∀ n ∈ [0, 1], memMeets (.pst (memWord 12 0x148 0x1A0 2 0 0x88))
      (memWord 12 0x148 0x1A0 2 0 0x88) va (BitVec.ofNat 32 n) = true) va hv n hn

/-- The address of offset a in the core's own scratchpad window (R161). -/
def spadVa (a : Nat) : Nat := 0x00FF000000000000 + a

/-- A live slot of the program's team. -/
def slotOf (arr mem : Nat) (pend : Int) (phase : Nat) : BSlot :=
  { team := 1, pend := pend, xbytes := 0, arr := arr, mem := mem, cm := true, phase := phase }

/-- The program with name 1 bound to a live slot at 0x100 and name 2 to a place where none is live. -/
def live (b : BSlot) (g : Group) : State :=
  teamWith (fun t => { t with binds := (t.binds.set 1 (some 0x100)).set 2 (some 0x200) }) (onM (fun m => { m with slots := [(0x100, b)] }) (having g))

theorem here_same {s : State} {g : Group} (h : s.m.groups = (having g).m.groups) (hc : s.m.cur = 2) : Here s 2 g :=
  ⟨hc, by rw [Mach.grp?, h]; exact (here_having g).2⟩

theorem here_team {f : Team → Team} {s : State} {g : Group} (hs : Here s 2 g) : Here (teamWith f s) 2 g := here_onM (fun _ => ⟨rfl, rfl⟩) hs

theorem here_live (b : BSlot) (g : Group) : Here (live b g) 2 g := here_team (here_onM (fun _ => ⟨rfl, rfl⟩) (here_having g))

def spadAddr (a : Nat) : Group := sregs [(6, spadVa a)] g0

/-- A quota of one page of each scratchpad. -/
def onePage (s : State) : State := ctxWith (fun c => { c with quota := some { fetchQuota with spsize := 1 } }) s

theorem named_live (b : BSlot) (g : Group) (h : g.team = 1) : Named (live b g).m g 1 0x100 0x100 b := by
  refine ⟨{ freshTeam 0 0 0 0 0x1000 0 with binds := ((List.replicate 16 none).set 1 (some 0x100)).set 2 (some 0x200) }, ?_, rfl, rfl, rfl⟩
  rw [h]; show aget (live b g).m.teams 1 = _
  have e : (live b g).m.teams = (live (slotOf 0 0 0 0) g0).m.teams := rfl
  rw [e]; decide +kernel

/-- A counted entry of the ring, published and not performed, on name 1. -/
def counting (g : Group) : State :=
  teamWith (fun t => { t with pubs := [{ ix := 0, group := 2, after := [] }], notify := 1 })
    (onM (fun m => writeNat m (.spad 64) 8 0x1101) (live (slotOf 0 1 0 0) g))

def gHeldBar : Group := { spadAddr 0x100 with st := .waiting (.barrier 0x100), bar := some (.on 0x100 0) }

/-- A group that a trap took from its wait for a phase, and one whose BAR.WAIT is over. -/
def gAsideBar : Group := { g0 with st := .trapped .running, asideWait := some (.phase 0x100 0) }

def gOver : Group := { g0 with bar := some .over }

/-- The program with name 1 bound by group 9 to a live slot after it stood for none. -/
def rebound (g : Group) : State :=
  teamWith (fun t => { t with olds := [{ name := 1, old := none, by_ := 9, released := false, seen := [] }] }) (live (slotOf 0 1 0 0) g)

/-- What a name stands for, for a group of the program. -/
def standsFor (s : State) (g : Group) (name : Nat) : Option (Option Nat) := (aget s.m.teams 1).map fun t => resolution s.m t g name

theorem witness_BarrierUpdates :
    ((spadAddr 0x101).s 6).toNat % 16 ≠ 0 ∧ (((gAt 0x30000 .none).s 6).toNat % 16 = 0 ∧ spadOf g0 0x30000 = none)
    ∧ (((spadAddr 0x1000).s 6).toNat % 16 = 0 ∧ spadOf (spadAddr 0x1000) ((spadAddr 0x1000).s 6).toNat = some 0x1000
      ∧ spadReserved (onePage base).m 0 0x1000 16 = false ∧ spadReserved base.m 0 0x1000 16 = true ∧ spadReserved base.m 0 0xFF0 16 = true
      ∧ aget base.m.teams 1 = some (freshTeam 0 0 0 0 0x1000 0) ∧ 0 + 0x1000 < 0x1000 + 16 ∧ 0xFF0 + 16 ≤ 0 + 0x1000)
    ∧ (0 % 2 ^ 16 = 0 ∧ 2 ^ 24 < (2 ^ 24 + 1) * 2 ^ 32 / 2 ^ 32 ∧ 2 ^ 17 / 2 ^ 17 % 2 ^ 15 ≠ 0)
    ∧ (∀ cfg ∈ [2 ^ 56 + 2 ^ 16 + 1], ¬ (cfg % 2 ^ 16 = 0 ∨ 2 ^ 24 < cfg / 2 ^ 32 ∨ cfg / 2 ^ 17 % 2 ^ 15 ≠ 0))
    ∧ (∀ b, Here (live b (spadAddr 0x100)) 2 (spadAddr 0x100) ∧ aget (live b (spadAddr 0x100)).m.slots 0x100 = some b
      ∧ aget (live b (spadAddr 0x100)).m.slots 0x110 = none ∧ Named (live b (spadAddr 0x100)).m (spadAddr 0x100) 1 0x100 0x100 b)
    ∧ (standsFor (live (slotOf 0 1 0 0) g0) g0 3 = some none ∧ standsFor (live (slotOf 0 1 0 0) g0) g0 2 = some (some 0x200) ∧ standsFor (live (slotOf 0 1 0 0) g0) g0 1 = some (some 0x100)
      ∧ ((aget (rebound g0).m.teams 1).map fun t => t.resolutions (originOf g0) 1) = some [some 0x100, none])
    ∧ (2 ^ 24 < (2 ^ 24 + 1 : Nat) ∧ (2 ^ 31 - 1 : Int) < (slotOf 0 1 (2 ^ 31 - 1) 0).pend + 1 ∧ ¬ (2 ^ 31 - 1 : Int) < (slotOf 0 1 (2 ^ 31 - 2) 0).pend + 1)
    ∧ ((slotOf 1 1 0 0).arr = (slotOf 1 1 0 0).mem ∧ (slotOf 0 1 0 0).arr ≠ (slotOf 0 1 0 0).mem)
    ∧ (Here (live (slotOf 0 1 0 0) gHeldBar) 2 gHeldBar ∧ gHeldBar.team = 1 ∧ WaitsOn gHeldBar 0x100 ∧ WaitsOn gAsideBar 0x100 ∧ ¬ WaitsOn g0 0x100)
    ∧ (Here (counting (spadAddr 0x100)) 2 (spadAddr 0x100) ∧ ((counting (spadAddr 0x100)).m.teams.all fun kt => kt.2.pubs.any fun p =>
        (ringEntry (counting (spadAddr 0x100)).m kt.2 p.ix).counted && (kt.2.binds[(ringEntry (counting (spadAddr 0x100)).m kt.2 p.ix).name]?).bind id = some 0x100) = true)
    ∧ (∀ k, k < 16 → ringAt (live (slotOf 0 1 0 0) (spadAddr 0x100)).m (0x100 + k) = none) ∧ (Here (having (gInject 0)) 2 (gInject 0) ∧ (gInject 0).rgn ≠ []) :=
  ⟨by decide +kernel, by decide +kernel, by decide +kernel, by decide, by decide, fun b => ⟨here_live _ _, rfl, rfl, named_live _ _ rfl⟩,
    by decide +kernel, by decide +kernel, by decide +kernel,
    ⟨here_live _ _, rfl, .inl ⟨0, rfl⟩, .inr (.inr ⟨fun _ _ h => (nomatch h), 0, rfl⟩), fun h => by rcases h with ⟨_, h⟩ | ⟨_, h⟩ | ⟨_, _, h⟩ <;> cases h⟩,
    ⟨here_onM (fun _ => ⟨rfl, rfl⟩) (here_having _), by decide +kernel⟩, by decide +kernel, here_having _, by decide +kernel⟩

/-- A COPYQ of the four words from s6 on. -/
def gCopy (w0 : Nat) : Group := sregs [(6, w0), (7, 0), (8, 0x00FF000100000400), (9, 0)] g0

def entryIn (g : Group) : CopyEntry := { w0 := g.s 6, w1 := g.s 7, w2 := g.s 8, w3 := g.s 9 }

theorem witness_BarrierWaits :
    (∀ n ∈ [0, 2 ^ 30 - 1], Named (live (slotOf 0 1 0 n) (sregs [(6, n)] g0)).m (sregs [(6, n)] g0) 1 0x100 0x100 (slotOf 0 1 0 n)
      ∧ Here (live (slotOf 0 1 0 n) (sregs [(6, n)] g0)) 2 (sregs [(6, n)] g0))
    ∧ (((sregs [(6, 2 ^ 30 - 1)] g0).s 6).toNat % 2 ^ 30 = (slotOf 0 1 0 (2 ^ 30 - 1)).phase ∧ ((sregs [(6, 2 ^ 30)] g0).s 6).toNat % 2 ^ 30 ≠ (slotOf 0 1 0 (2 ^ 30 - 1)).phase)
    ∧ (standsFor (live (slotOf 0 1 0 0) g0) g0 3 = some none ∧ standsFor (live (slotOf 0 1 0 0) g0) g0 2 = some (some 0x200))
    ∧ (g0.bar = none ∧ Here (having gOver) 2 gOver ∧ gOver.bar = some .over ∧ gHeldBar.bar = some (.on 0x100 0)
      ∧ (∀ n, Here (live (slotOf 0 1 0 n) gHeldBar) 2 gHeldBar ∧ aget (live (slotOf 0 1 0 n) gHeldBar).m.slots (0 + 0x100) = some (slotOf 0 1 0 n)) ∧ (slotOf 0 1 0 0).phase = 0
      ∧ (slotOf 0 1 0 1).phase ≠ 0 ∧ aget (having gHeldBar).m.slots (0 + 0x100) = none)
    ∧ aget (live (slotOf 0 1 0 0) g0).m.slots (0 + 0x200) = none
    ∧ ((slotOf 0 1 0 1).phase % 2 ≠ (0 : BitVec 1).toNat ∧ (slotOf 0 1 0 1).phase % 2 = (1 : BitVec 1).toNat ∧ g0.qs.liq = [] ∧ g0.isTrapped = false)
    ∧ (0 = (0 : Sreg).toNat ∧ 57 < (58 : Sreg).toNat ∧ 1 ≤ (1 : Sreg).toNat ∧ (57 : Sreg).toNat ≤ 57)
    ∧ (Here (having (gCopy 3)) 2 (gCopy 3) ∧ (entryIn (gCopy 3)).valid = false ∧ (entryIn (gCopy 0x400000002)).valid = true ∧ (gCopy 0x400000002).rgn = [])
    ∧ ((freshTeam 0 0 0 0 0 0).size = 0 ∧ 0 < (freshTeam 0 0 0 0 0x1000 0).size
      ∧ ({ freshTeam 0 0 0 0 0x1000 0 with notify := 63, head := 0xFFFFFFFF }.notify - { freshTeam 0 0 0 0 0x1000 0 with notify := 63, head := 0xFFFFFFFF }.head : BitVec 32) = 64
      ∧ ((freshTeam 0 0 0 0 0x1000 0).notify - (freshTeam 0 0 0 0 0x1000 0).head : BitVec 32) ≠ 64)
    ∧ (∀ k, k < 32 → aget base.m.slots ((64 + k) / 16 * 16) = none ∧ ringAt base.m (64 + k) = none ∧ logAt base.m (64 + k) = false)
    ∧ (∀ lo hi : Nat, lo ∈ [1, 8] → hi = 8 → 1 ≤ lo ∧ lo ≤ hi ∧ hi ≤ 8) ∧ ¬ (1 ≤ 0 ∧ 0 ≤ 8 ∧ 8 ≤ 8) ∧ ¬ (1 ≤ 8 ∧ 8 ≤ 9 ∧ 9 ≤ 8) :=
  ⟨fun n hn => ⟨named_live _ _ rfl, here_live _ _⟩, by decide +kernel, by decide +kernel,
    ⟨rfl, here_having _, rfl, rfl, fun _ => ⟨here_live _ _, rfl⟩, rfl, by decide, by decide +kernel⟩, by decide +kernel, by decide +kernel, by decide,
    ⟨here_having _, by decide +kernel⟩, by decide +kernel, by decide +kernel, fun lo hi h1 h2 => by
      subst h2; simp only [List.mem_cons, List.not_mem_nil, or_false] at h1; omega, by decide, by decide⟩

/-- A ring whose one published entry is as given, by words. -/
def ringed (w0 w1 w2 w3 group : Nat) : State :=
  teamWith (fun t => { t with pubs := [{ ix := 0, group := group, after := [] }], notify := 1 })
    (onM (fun m => writeNat (writeNat (writeNat (writeNat m (.spad 64) 8 w0) (.spad 72) 8 w1) (.spad 80) 8 w2) (.spad 88) 8 w3) (live (slotOf 0 1 0 0) g0))

/-- The team of the program and the entry at its head. -/
def headOf (s : State) (p : Team → CopyEntry → Bool) : Bool := s.m.teams.all fun kt => p kt.2 (ringEntry s.m kt.2 kt.2.head)

/-- A copy of one row of 4 bytes in the cluster's scratchpads, a fill of one, and a copy from nowhere. -/
def oneRow : CopyEntry := { w0 := 0x400000001, w1 := 0x00FF000100000404, w2 := 0x00FF000100000400, w3 := 0 }

def oneFill : CopyEntry := { w0 := 0x400000002, w1 := 7, w2 := 0x00FF000100000400, w3 := 0 }

def lostRow : CopyEntry := { w0 := 0x400000001, w1 := 0x80000000, w2 := 0x00FF000100000400, w3 := 0 }

/-- A ring whose entry at the head waits for a posted store, or is performed so far. -/
def heldRing : State :=
  onM (fun m => { m with psts := [(7, pstOf 2)] }) (teamWith (fun t => { t with pubs := [{ ix := 0, group := 2, after := [.pst 7] }] }) (ringed 0 0 0 0 2))

def runOf (e : CopyEntry) (rows : Nat) : CopyRun := { words := [e.w0, e.w1, e.w2, e.w3], slot := none, rows := rows }

def ranRing (e : CopyEntry) (rows : Nat) : State := teamWith (fun t => { t with run := some (runOf e rows) }) (ringed 0 0 0 0 2)

/-- A fill of two rows. -/
def twoFills : CopyEntry := { oneFill with w3 := 1 }

theorem witness_CopyEngine :
    (headOf (ringed 0 0 0 0 2) fun t e => 0 < t.size && !t.saved && !t.halt && !t.resuming && decide (t.head ≠ t.notify)
      && decide (t.pubs.find? (fun p => p.ix = t.head) = some { ix := 0, group := 2, after := [] }) && e.valid && e.op = 0) = true
    ∧ ((ringed 0 0 0 0 2).m.grp? 2 ≠ none ∧ (ringed 0 0 0 0 9).m.grp? 9 = none)
    ∧ ((headOf heldRing fun t _ => t.run = none && t.pubs.any fun p => p.after.any fun x => !x.performed heldRing.m) = true
      ∧ (headOf (ringed 0 0 0 0 2) fun t _ => t.run = none && t.pubs.all fun p => p.after.all fun x => x.performed (ringed 0 0 0 0 2).m) = true
      ∧ (headOf (ringed oneFill.w0.toNat oneFill.w1.toNat oneFill.w2.toNat 0 2) fun _ e => e.valid && e.op = 2 && !e.w0.getLsbD 12) = true)
    ∧ ((headOf (ranRing { oneFill with w0 := 0 } 0) fun t _ => t.run = some (runOf { oneFill with w0 := 0 } 0)) = true ∧ (runOf { oneFill with w0 := 0 } 0).entry.op = 0
      ∧ (runOf oneFill 1).entry.rows ≤ (runOf oneFill 1).rows ∧ (runOf oneFill 0).entry.op ≠ 0
      ∧ (runOf twoFills 0).rows + 1 < (runOf twoFills 0).entry.rows ∧ (runOf twoFills 1).entry.rows ≤ (runOf twoFills 1).rows + 1
      ∧ (∀ r ∈ [0, 1], okThat (fun m => (aget m.teams 1).isSome) (performRow (ranRing twoFills r).m 0 0 (runOf twoFills r).entry none r) = true)
      ∧ fails (performRow (ranRing lostRow 0).m 0 0 (runOf lostRow 0).entry none 0) = true)
    ∧ (headOf (ringed 3 0 0 0 2) fun _ e => !e.valid) = true
    ∧ (headOf (ringed 0x1300 0 0 0 2) fun t e => e.valid && e.w0.getLsbD 12 && t.binds[e.name]? = some none) = true
    ∧ (headOf (ringed 0x1200 0 0 0 2) fun t e => e.valid && e.w0.getLsbD 12 && t.binds[e.name]? = some (some 0x200)
        && (aget (ringed 0x1200 0 0 0 2).m.slots 0x200).isNone) = true
    ∧ (headOf (ringed 0x1100 0 0 0 2) fun t e => e.valid && e.w0.getLsbD 12 && t.binds[e.name]? = some (some 0x100)) = true
    ∧ (oneFill.valid = true ∧ oneFill.op ≠ 0 ∧ oneFill.rows = 1 ∧ oneFill.w0.getLsbD 12 = false
      ∧ okThat (fun _ => true) (performRow base.m 0 0 oneFill none 0) = true)
    ∧ (lostRow.valid = true ∧ lostRow.op ≠ 0 ∧ 0 < lostRow.rows ∧ fails (performRow base.m 0 0 lostRow none 0) = true)
    ∧ (oneRow.valid = true ∧ oneRow.op = 1
      ∧ okThat (fun p => p.2 = [Loc.spad 0x404]) (locateRow 0 0 .read 1 1 base.m (oneRow.w1.toNat % 2 ^ 64)) = true
      ∧ okThat (fun p => p.2 = [Loc.spad 0x400]) (locateRow 0 0 .write 2 1 base.m (oneRow.w2.toNat % 2 ^ 64)) = true
      ∧ [Loc.spad 0x400].Pairwise (fun a b => a.key + 4 ≤ b.key ∨ b.key + 4 ≤ a.key) ∧ (Loc.spad 0x400).key + 4 ≤ (Loc.spad 0x404).key
      ∧ ∀ k, k < 8 → aget base.m.slots ((0x400 + k) / 16 * 16) = none ∧ ringAt base.m (0x400 + k) = none ∧ logAt base.m (0x400 + k) = false)
    ∧ (-(2 ^ 31 : Int) ≤ (slotOf 0 1 (4 - 2 ^ 31) 0).pend - oneRow.rowbytes ∧ (slotOf 0 1 (3 - 2 ^ 31) 0).pend - oneRow.rowbytes < -(2 ^ 31 : Int)) := by
  decide +kernel

/-- A group at depth n of regions with a log area of 1024 bytes used up to top. -/
def gRgn (n top : Nat) : Group :=
  { g0 with rgn := List.replicate n (openRegion 0), log := if n = 0 then none else some { off := 0, size := 1024, top := top } }

/-- A descriptor of a log area of n KiB at an address in s6. -/
def gDesc (n va : Nat) : Group := sregs [(6, n * 2 ^ 57 + va)] g0

/-- A range in s6 and s7 that an open region keeps. -/
def gKeep (va n top : Nat) : Group := sregs [(6, va), (7, n)] (gRgn 1 top)

def keepPieces (va n : Nat) : List (Nat × Nat) := rangePieces ((gKeep va n 0).s 6).toNat ((gKeep va n 0).s 7).toNat

def gSig (inject : Option (Nat × Nat)) : Group := { g0 with sig := 0x0000000500000003, inject := inject }

/-- A page that may be read and not written stands at 2 GiB. -/
def readOnly (g : Group) : State := poke 0x3010 8 0x80000017 (having g)

theorem witness_RegionInstructions : Here base 2 g0
    ∧ ((0x3FFFF : BitVec 20).toNat < 2 ^ 18 ∧ ¬ (0x40000 : BitVec 20).toNat < 2 ^ 18 ∧ (∀ b, b < 16 → (0x3FFFF : BitVec 20).getLsbD b = true → 16 * b < g0.nregs)
      ∧ ¬ (16 * 15 < { g0 with nregs := 240 }.nregs))
    ∧ ((gRgn 4 0).rgn.length = 4 ∧ (gRgn 3 0).rgn.length < 4 ∧ (gRgn 3 0).qs.liq = [] ∧ (gSq 1 []).qs.sq ≠ [] ∧ (gRgn 3 0).qs.sq = []
      ∧ ((gRgn 1 960).log.map fun l => l.top + 64 ≤ l.size) = some True ∧ ((gRgn 1 961).log.map fun l => l.size < l.top + 64) = some True)
    ∧ (Here (having (gRgn 1 960)) 2 (gRgn 1 960) ∧ (gRgn 1 960).rgn ≠ [] ∧ (gRgn 1 960).log = some { off := 0, size := 1024, top := 960 })
    ∧ (Here (having (gDesc 1 (spadVa 0x400))) 2 (gDesc 1 (spadVa 0x400)) ∧ 1024 * (((gDesc 1 (spadVa 0x400)).s 6).toNat / 2 ^ 57) = 1024
      ∧ (gDesc 0 0).s 6 = 0 ∧ (6 : Sreg) ≠ 0 ∧ ((gDesc 1 (spadVa 0x401)).s 6).toNat % 2 ^ 57 % 16 ≠ 0
      ∧ spadOf g0 (((gDesc 1 0x30000).s 6).toNat % 2 ^ 57) = none ∧ spadOf g0 (((gDesc 1 (spadVa 0x400)).s 6).toNat % 2 ^ 57) = some 0x400
      ∧ (1024 ≤ 2 ^ 16 ∧ 0 ≤ 0xC00 ∧ 0xC00 + 1024 ≤ 0 + 0x1000 ∧ spadOf g0 (spadVa 0xC00 + 1024 - 1) ≠ none ∧ spadOf g0 (spadVa 0x3FC10 + 1024 - 1) = none) ∧ ¬ (0xC10 + 1024 ≤ 0 + 0x1000)
      ∧ spadRangeReserved base.m 0 0x400 1024 = true
      ∧ spadRangeReserved (ctxWith (fun c => { c with quota := some { fetchQuota with spbase := 1 } }) base).m 0 0x400 1024 = false)
    ∧ (Here (having (gKeep 0x80000000 16 0)) 2 (gKeep 0x80000000 16 0) ∧ (gKeep 0x80000000 16 0).rgn ≠ [] ∧ 2 ^ 16 < ((gKeep 0 (2 ^ 16 + 1) 0).s 7).toNat
      ∧ ((gKeep 0 0 0).s 7).toNat = 0 ∧ ((gKeep 0 (2 ^ 16) 0).s 7).toNat ≤ 2 ^ 16
      ∧ fails (locatePieces (gKeep 0x80000000 16 0) 0 .read true (keepPieces 0x80000000 16) (having (gKeep 0x80000000 16 0)).m) = true
      ∧ okThat (fun p => p.2.all fun l => l.1.port.isNone) (locatePieces (gKeep (spadVa 0x800) 16 0) 0 .read true (keepPieces (spadVa 0x800) 16)
          (having (gKeep (spadVa 0x800) 16 0)).m) = true
      ∧ okThat (fun p => p.2.all fun l => l.1.port.isNone) (locatePieces (gKeep (spadVa 0x800) 16 0) 0 .write true (keepPieces (spadVa 0x800) 16)
          (having (gKeep (spadVa 0x800) 16 0)).m) = true
      ∧ fails (locate (readOnly (gKeep 0x80000000 16 0)).m (gKeep 0x80000000 16 0) 0 0x80000000 16 .write true) = true
      ∧ okThat (fun _ => true) (locate (readOnly (gKeep 0x80000000 16 0)).m (gKeep 0x80000000 16 0) 0 0x80000000 16 .read true) = true
      ∧ 1024 < 993 + 16 + (16 + 15) / 16 * 16 ∧ 992 + 16 + (16 + 15) / 16 * 16 ≤ 1024)
    ∧ (g0.rgn = [] ∧ (gRgn 2 0).rgn = [openRegion 0, openRegion 0] ∧ (gRgn 1 0).rgn = [openRegion 0]
      ∧ aget (having (gRgn 1 0)).m.teams (gRgn 1 0).team = some (freshTeam 0 0 0 0 0x1000 0))
    ∧ (Here (having gPsum) 2 gPsum ∧ gPsum.qs.liq ≠ [] ∧ Here (having (gSig none)) 2 (gSig none)
      ∧ (gSig none).sig.toNat % 2 ^ 32 ^^^ (gSig none).sig.toNat / 2 ^ 32 = (6 : BitVec 32).toNat ∧ (gSig (some (3, 63))).inject = some (3, 63)) :=
  ⟨⟨rfl, by decide +kernel⟩, by decide +kernel, ⟨by decide +kernel, by decide +kernel, by decide +kernel, by decide +kernel, by decide +kernel,
      by show some (960 + 64 ≤ 1024) = some True; simp, by show some (1024 < 961 + 64) = some True; simp⟩,
    ⟨here_having _, by decide +kernel⟩, ⟨here_having _, by decide +kernel⟩, ⟨here_having _, by decide +kernel⟩, by decide +kernel,
    here_having _, by decide +kernel, here_having _, by decide +kernel⟩

/-- A group whose v0 carries in lane 0 a check that fails. -/
def gBad (i : Instr) : Group := { gOf i with chk := [(0, .valid 5)] }

/-- A region that has kept four bytes at an address. -/
def keeping (va retry : Nat) : Region := { openRegion retry with keeps := [{ addr := BitVec.ofNat 64 va, bytes := [1, 2, 3, 4] }], vregs := [(0, 7)], mask := 1 }

def gRolls (rs : List Region) : Group := { g0 with rgn := rs, log := some { off := 0, size := 1024, top := 64 } }

theorem witness_RegionRollback :
    (Issues (having (gBad (.iadd (nWord 0 2 0)))) 2 (gBad (.iadd (nWord 0 2 0))) (entryOf (.iadd (nWord 0 2 0))) (.iadd (nWord 0 2 0))
      ∧ ¬ ReadsPass (.iadd (nWord 0 2 0)) (gBad (.iadd (nWord 0 2 0)))
        (laneIn (having (gBad (.iadd (nWord 0 2 0)))).m (gBad (.iadd (nWord 0 2 0))) (entryOf (.iadd (nWord 0 2 0))) (.iadd (nWord 0 2 0)) (nWord 0 2 0)).lanes)
    ∧ (base.m.grp? 2 = some g0 ∧ g0.rgn = [])
    ∧ ((having (gRolls [keeping 0x80000000 0])).m.grp? 2 = some (gRolls [keeping 0x80000000 0])
      ∧ fails (restoreKeeps 2 (gRolls [keeping 0x80000000 0]) (keeping 0x80000000 0).keeps (having (gRolls [keeping 0x80000000 0])).m) = true)
    ∧ (∀ n ∈ [2, 3], (having (gRolls [keeping (spadVa 0x800) n])).m.grp? 2 = some (gRolls [keeping (spadVa 0x800) n])
      ∧ okThat (fun _ => true) (restoreKeeps 2 (gRolls [keeping (spadVa 0x800) n]) (keeping (spadVa 0x800) n).keeps (having (gRolls [keeping (spadVa 0x800) n])).m) = true)
    ∧ ((keeping 0 2).retry < 3 ∧ 3 ≤ (keeping 0 3).retry ∧ amapWf (keeping 0 2).vregs = true
      ∧ ∀ kv ∈ (keeping 0 2).vregs, (keeping 0 2).mask.getLsbD (kv.1 / 128 / 16) = true) :=
  ⟨⟨⟨here_having _, rfl, rfl, by decide +kernel, show (32 : Nat) ≤ 96 by decide⟩, by unfold ReadsPass; decide +kernel⟩, by decide +kernel⟩

/-- A group with values in s6 and s7. -/
def gTwo (a b : Nat) : Group := sregs [(6, a), (7, b)] g0

theorem witness_StampArithmetic : (∀ a b, Here (having (gTwo a b)) 2 (gTwo a b))
    ∧ (stampValid ((gTwo (2 ^ 60) 0).s 6) = false ∧ stampValid ((gTwo (2 ^ 30) 0).s 6) = false)
    ∧ (stampValid ((gTwo (2 ^ 45 * 32767) 3).s 6) = true ∧ 3 < ((gTwo 0 4).s 7).toNat ∧ ((gTwo 0 3).s 7).toNat ≤ 3)
    ∧ (2 ^ 15 - 1 < ((gTwo 0 (2 ^ 15)).s 7).toNat ∧ ((gTwo 0 (2 ^ 15 - 1)).s 7).toNat < 2 ^ 15
      ∧ 2 ^ 15 - 1 < ((gTwo (2 ^ 45 * 32767) 1).s 6).toNat / 2 ^ 45 % 2 ^ 15 + 1 ∧ ((gTwo (2 ^ 45 * 32766) 1).s 6).toNat / 2 ^ 45 % 2 ^ 15 + 1 < 2 ^ 15)
    ∧ (((gTwo (3 * 2 ^ 62) 0).s 6).toNat / 2 ^ 62 + 1 = 4 ∧ ((gTwo (2 * 2 ^ 62) 0).s 6).toNat / 2 ^ 62 + 1 < 4
      ∧ ((gTwo 0 0).s 6).toNat / 2 ^ 62 + 1 = 1 ∧ 1 < ((gTwo (2 ^ 62) 0).s 6).toNat / 2 ^ 62 + 1) :=
  ⟨fun _ _ => here_having _, by decide +kernel⟩

/-- The summaries of two nodes without edges. -/
def twoSums : List PairSum := closureOf [] [1, 1]

/-- The program in a context of two nodes, with a hold of generation 7 and one of node 0's floors announced. -/
def timed (holds : List Hold) (copies : AMap (List Floor)) (g : Group) : State :=
  ctxWith (fun c => { c with nodes := [1, 1], sums := twoSums, floors := [.at_ 0, .at_ 0], holds := holds, copies := copies }) (having g)

def freeHolds : List Hold := (List.replicate 256 { gen := 0, pair := none }).set 2 { gen := 7, pair := some (0, 0) }

def fullHolds : List Hold := List.replicate 256 { gen := 0, pair := some (0, 0) }

/-- A root with as many pairs as it holds, none of node 0. -/
def fullRoot (s : State) : State := onM (fun m => { m with root := List.replicate 65536 { ctx := 0, node := 1, stamp := 0, n := 1 } }) s

theorem full_of (m : Mach) (n : Nat) (h : m.root = List.replicate n { ctx := 0, node := 1, stamp := 0, n := 1 }) (hw : m.onTheWay = []) :
    rootHasRoom m 0 0 0 = decide (n < 65536) := by
  simp [rootHasRoom, applyDeltas, h, hw, List.any_replicate]

theorem full_root (s : State) (hw : s.m.onTheWay = []) : rootHasRoom (fullRoot s).m 0 0 0 = false := by
  rw [full_of (fullRoot s).m 65536 rfl hw]; exact decide_eq_false (Nat.lt_irrefl _)

theorem here_timed (holds : List Hold) (copies : AMap (List Floor)) (g : Group) : Here (timed holds copies g) 2 g :=
  here_onM (fun _ => ⟨rfl, rfl⟩) (here_having g)

/-- An image of summaries in the scratchpad: its header word and its first word of depths. -/
def imaged (hdr depths : Nat) : State := onM (fun m => writeNat (writeNat m (.spad 0x400) 8 hdr) (.spad 0x440) 8 depths) (timed freeHolds [] (gTwo (spadVa 0x400) 0))

/-- The image as SUMM.LD loads it. -/
def imageOf (s : State) : List Byte :=
  match recordLoadMore 2 (gTwo (spadVa 0x400) 0) 8 imageLoads s.m (spadVa 0x400) with
  | .done _ bs => bs
  | _ => []

def theCtx (s : State) : Context := (aget s.m.ctxs 0).getD fetchContext

def gHandler : Group := { gTwo 0 0 with serving := some 0, pool := 1 }

theorem witness_FrontierInstructions :
    (∀ a b, Here (timed freeHolds [] (gTwo a b)) 2 (gTwo a b) ∧ (aget (timed freeHolds [] (gTwo a b)).m.ctxs (gTwo a b).ctx).isSome = true)
    ∧ (Here (having (gInject 0)) 2 (gInject 0) ∧ (gInject 0).rgn ≠ []) ∧ (gHandler.rgn = [] ∧ gHandler.serving ≠ none ∧ gTask.kind = .task)
    ∧ (¬ ((gTwo 2 0).s 6).toNat < [1, 1].length ∧ ((gTwo 1 0).s 6).toNat < [1, 1].length ∧ (1 : Nat) < 2 ^ 10)
    ∧ (¬ (stampValid ((gTwo 1 (2 ^ 62)).s 7) = true ∧ stampDepth ((gTwo 1 (2 ^ 62)).s 7) = 1)
      ∧ stampValid ((gTwo 1 (2 ^ 45)).s 7) = true ∧ stampDepth ((gTwo 1 (2 ^ 45)).s 7) = 1)
    ∧ (g0.own = true ∧ g0.serving = none ∧ g0.kind = .kernel ∧ (summaryIn twoSums 0 1 0).le (2 ^ 45) = false ∧ (summaryIn twoSums 0 0 0).le 0 = true ∧ g0.node = 0 ∧ g0.stamp = 0
      ∧ (summaryIn twoSums 0 0 0).le (2 ^ 45) = true ∧ (2 ^ 45 : Dword) ≠ g0.stamp)
    ∧ (rootHasRoom (fullRoot (timed freeHolds [] g0)).m 0 0 0 = false ∧ rootHasRoom (timed freeHolds [] g0).m 0 0 0 = true)
    ∧ ((theCtx (timed freeHolds [] g0)).floorCopy 0 1 = .at_ 0 ∧ (Floor.at_ 0).le (2 ^ 45) = true
      ∧ ((theCtx (timed freeHolds [(0, [.at_ (2 ^ 46), .top])] g0)).floorCopy 0 0).le (2 ^ 45) = false
      ∧ ((theCtx (timed freeHolds [(0, [.at_ (2 ^ 46), .top])] g0)).floorCopy 0 1).le (2 ^ 45) = false)
    ∧ (homeUnit (timed freeHolds [] g0).m g0 = clusterOf g0.core
      ∧ homeUnit (onM (fun m => { m with walks := [(1, { walkOf none .walking with eng := 1 })], summons := [(0, { walk := 1, part := 0, kind := .a, tile := 0, kstep := 0, slot := 0, group := some 2, cancelled := false })] })
          (timed freeHolds [] gHandler)).m gHandler ≠ clusterOf gHandler.core)
    ∧ (justified (timed freeHolds [] g0).m g0 0 0 = true ∧ justified (timed freeHolds [] g0).m { g0 with own := false } 0 0 = false)
    ∧ ((theCtx (timed fullHolds [] g0)).holds.all (fun h => h.pair ≠ none) = true ∧ (theCtx (timed freeHolds [] g0)).holds[0]? = some { gen := 0, pair := none })
    ∧ (2 ^ 32 ≤ ((gTwo (2 ^ 32) 0).s 6).toNat ∧ ((gTwo (7 * 256 + 2) 0).s 6).toNat < 2 ^ 32 ∧ freeHolds[(7 * 256 + 2) % 256]? = some { gen := (7 * 256 + 2) / 256, pair := some (0, 0) }
      ∧ freeHolds[(2 ^ 32 - 1) % 256]? = some { gen := 0, pair := none })
    ∧ (((gTwo 32 0).s 6).toNat % 64 ≠ 0 ∧ ((gTwo (spadVa 0x400) 0).s 6).toNat % 64 = 0)
    ∧ (imageHeader (imageOf (imaged 0 0)) = none ∧ imageHeader (imageOf (imaged 1 0)) = some (1, 0) ∧ imageHeader (imageOf (imaged 2 0)) = some (2, 0))
    ∧ ((imageSize 2 0 - 0x40) / 8 = 2 ∧ fails (match readImage (imageOf (imaged 1 0)) 1 0 [1, 1] (Config.choice 0) with
          | .error o => (Except.error (o, o) : Except (Nat × Nat) Unit)
          | .ok _ => .ok ()) = true
      ∧ okThat (fun im => im.depths = [1, 1] && !regresses (flushAll (imaged 2 0).m) 0 (theCtx (imaged 2 0)) im)
          (readImage (imageOf (imaged 2 0)) 2 0 [1, 1] (Config.choice 0)) = true
      ∧ okThat (fun im => regresses (onM (fun m => { m with root := [{ ctx := 0, node := 0, stamp := 0, n := 1 }] }) (imaged 2 0)).m 0
            { theCtx (imaged 2 0) with floors := [.at_ (2 ^ 46), .at_ 0] } im)
          (readImage (imageOf (imaged 2 0)) 2 0 [1, 1] (Config.choice 0)) = true) :=
  ⟨fun a b => ⟨here_timed _ _ _, rfl⟩, ⟨here_having _, by decide +kernel⟩, by decide +kernel, by decide +kernel, by decide +kernel, by decide +kernel,
    ⟨full_root _ (by decide +kernel), by decide +kernel⟩, by decide +kernel⟩

/-- A task of node 0 in its state. -/
def taskOf (st : TState) (c : Nat) : TaskRec :=
  { gen := 5, st := some st, c := c, node := 0, stamp := 0, kern := 0, entry := 0, solo := false, payload := [9], succs := [], die := 0, order := 0 }

/-- The program with task records. -/
def tasked (pool : AMap TaskRec) (g : Group) : State := ctxWith (fun c => { c with pool := pool }) (having g)

theorem here_tasked (pool : AMap TaskRec) (g : Group) : Here (tasked pool g) 2 g := here_onM (fun _ => ⟨rfl, rfl⟩) (here_having g)

/-- A packet in the scratchpad: its header's two words. -/
def packeted (w0 w1 : Nat) (pool : AMap TaskRec) : State :=
  onM (fun m => writeNat (writeNat m (.spad 0x400) 8 w0) (.spad 0x408) 8 w1) (tasked pool (gTwo (spadVa 0x400) 0))

def packetAt (s : State) : Option TaskPacket :=
  match readPacket s.m 2 (gTwo (spadVa 0x400) 0) (spadVa 0x400) with
  | .done m p => if m.ctxs = s.m.ctxs then some p else none
  | _ => none

def validAt (s : State) : Option Bool := (packetAt s).map fun p => p.valid (theCtx s) fetchRecord && justified s.m g0 p.node p.stamp

def gTasks (a : Nat) : Group := { sregs [(6, a)] gTask with tasks := [(0, 0), (1, 1)] }

def twoRunning : State := tasked [(0, taskOf .running 0), (1, taskOf .running 0)] (gTasks 1)

def oneReady : State := tasked [(0, taskOf .ready 0)] g0

/-- A group whose QFENCE holds back what it publishes until a posted store is acknowledged. -/
def gJoined : Group := { gTwo (spadVa 0x400) 0 with joins := [{ set := 0x18, waits := [.pst 7] }] }

def joinMet (s : State) (g : Group) : Bool := g.joins.all fun j => !j.set.getLsbD 4 || j.waits.all fun x => x.performed s.m

theorem witness_TaskInstructions :
    (∀ a b, Here (tasked [] (gTwo a b)) 2 (gTwo a b) ∧ (aget (tasked [] (gTwo a b)).m.ctxs 0).isSome = true)
    ∧ (Here (having (gInject 0)) 2 (gInject 0) ∧ (gInject 0).rgn ≠ [] ∧ g0.rgn = [])
    ∧ (2 ^ 42 / 2 ^ 42 ≠ 0 ∧ 2 ^ 24 / 2 ^ 24 % 2 ^ 8 ≠ 0 ∧ 0xFFFFFE < 0xFFFFFF % 2 ^ 24 ∧ ¬ 0xFFFFFE < 0xFFFFFE % 2 ^ 24)
    ∧ ([1].length ≤ 2 ^ 32 / 2 ^ 32 % 2 ^ 10 ∧ 0 / 2 ^ 32 % 2 ^ 10 < [1].length ∧ (stampValid (2 ^ 62) = true ∧ stampDepth (2 ^ 62) ≠ 1) ∧ stampValid 0 = true ∧ stampDepth 0 = 1)
    ∧ (justified (tasked [] g0).m g0 0 0 = true ∧ justified (tasked [] g0).m { g0 with own := false } 0 0 = false
      ∧ rootHasRoom (fullRoot (tasked [] g0)).m 0 0 0 = false ∧ rootHasRoom (tasked [] g0).m 0 0 0 = true)
    ∧ ((∀ k, k < 16 → ((aget ((List.range 16).map fun i => (i, taskOf .published 1)) k).map TaskRec.st) = some (some .published))
      ∧ fetchDesc.poolsize = 16 ∧ (aget (theCtx (tasked [(3, taskOf .published 1)] g0)).pool 0) = none)
    ∧ (∀ st ∈ [TState.unpublished, .published, .ready, .running], ((5 * 2 ^ 40 + 3) % 2 ^ 40 = 3 ∧ 3 < fetchDesc.poolsize ∧ (taskOf st 1).gen = (5 * 2 ^ 40 + 3) / 2 ^ 40)
      ∧ (taskOf st 1).st ≠ none ∧ (taskOf st 1).gen ≠ (6 * 2 ^ 40 + 3) / 2 ^ 40)
    ∧ (((gTwo 0 8).s 7).toNat % 16 ≠ 0 ∧ ((gTwo (spadVa 0x400) 0).s 6).toNat % 16 = 0)
    ∧ ((packetAt (packeted 2 0 [])).isSome = true ∧ validAt (packeted 2 0 []) = some true ∧ validAt (packeted 1 0 []) = some false ∧ validAt (packeted (2 + 2 ^ 62) 0 []) = some false)
    ∧ ((taskOf .unpublished 1).c ≤ 1 ∧ 1 < (taskOf .published 2).c)
    ∧ (joinMet (packeted 2 0 []) (gTwo (spadVa 0x400) 0) = true ∧ joinMet (packeted 2 0 []) gJoined = true ∧ joinMet (onM (fun m => { m with psts := [(7, pstOf 2)] }) (packeted 2 0 [])) gJoined = false)
    ∧ (g0.kind ≠ .task ∧ (gTasks 0).kind = .task ∧ 2 ^ 32 ≤ ((gTasks (2 ^ 32)).s 6).toNat ∧ ((gTasks (2 ^ 32 - 1)).s 6).toNat < 2 ^ 32)
    ∧ (∀ a ∈ [1, 3], (endTasks (gTasks a) ((gTasks a).tasks.filter fun t => ((gTasks a).s 6).toNat.testBit t.1) (twoRunning.m, none)).2 = none
      ∧ ((gTasks a).tasks.filter fun t => !((gTasks a).s 6).toNat.testBit t.1) = if a = 3 then [] else [(1, 1)])
    ∧ ((taskOf .running 0).succs = [] ∧ aget (theCtx twoRunning).pool 0 = some (taskOf .running 0))
    ∧ ((readyTasks oneReady.m 0).filter (fun t => emits true (gatheredWith (readyTasks oneReady.m 0) t)) = [{ ctx := 0, ix := 0, r := taskOf .ready 0 }]
      ∧ (aget oneReady.m.kerns (taskOf .ready 0).kern).isSome = true ∧ amapWf oneReady.m.ctxs = true ∧ amapWf (theCtx oneReady).pool = true ∧ (theCtx oneReady).st = .active
      ∧ dieOf 0 = 0 ∧ fetchRecord.slice = 0 ∧ coreTakes oneReady.m 0 0 fetchRecord.reqfeat [1] 32 (8 * fetchRecord.regs) = true) :=
  ⟨fun a b => ⟨here_tasked _ _, rfl⟩, ⟨here_having _, by decide +kernel⟩, by decide, by decide +kernel, ⟨by decide +kernel, by decide +kernel, full_root _ (by decide +kernel), by decide +kernel⟩,
    by decide +kernel⟩

/-- The program with one walk, its engine and its summonses. -/
def walked (w : Walk) (e : Engine) (sums : AMap Summons) (g : Group) : State :=
  onM (fun m => { m with walks := [(1, w)], engines := [(0, e)], summons := sums }) (having g)

theorem here_walked (w : Walk) (e : Engine) (sums : AMap Summons) (g : Group) : Here (walked w e sums g) 2 g := here_onM (fun _ => ⟨rfl, rfl⟩) (here_having _)

/-- A walk record in the scratchpad: its words from 0x00 to 0x18. -/
def recorded (w0 w8 w10 w18 : Nat) (s : State) : State :=
  onM (fun m => writeNat (writeNat (writeNat (writeNat m (.spad 0x400) 8 w0) (.spad 0x408) 8 w8) (.spad 0x410) 8 w10) (.spad 0x418) 8 w18) s

/-- The flags word of `walkRec0` under a co-walk code. -/
def flagsWord (cw : Nat) : Nat := 32 * 2 ^ 40 + 2 ^ 32 + 2 ^ 20 + 2 ^ 16 + 3 * 2 ^ 12 + cw * 4

def postState (cw : Nat) (s : State) : State := recorded (2 + 2 * 2 ^ 32) 2 (2 ^ 32 + 2 * 2 ^ 16 + 2) (flagsWord cw) s

def recordAt (s : State) (g : Group) : Option (List Byte) :=
  match recordLoad 2 g 32 s.m (spadVa 0x400) with
  | .done _ bs => some bs
  | _ => none

/-- Whether the record in the scratchpad is valid for a group of the program. -/
def recordValid (s : State) (g : Group) : Bool :=
  match recordAt s g with
  | none => false
  | some bs =>
    let r := WalkRec.ofBytes bs
    walkReservedZero bs && r.rangesOk fetchRecord && r.node < (theCtx s).nodes.length && stampValid r.stamp && stampDepth r.stamp = 1
      && justified s.m g r.node r.stamp

def gPost (sel : Nat) : Group := sregs [(6, spadVa 0x400), (7, sel)] g0

/-- A group whose WALK.POST has taken its count and waits, or one of another instruction has. -/
def gPosting (spc : Dword) : Group := { gPost 0 with posting := some { spc := spc, addr := 0, wrec := walkRec0, eng := 0 } }

def summonsOf (kind : SKind) (group : Option Nat) (cancelled : Bool) : Summons :=
  { walk := 1, part := 0, kind := kind, tile := 0, kstep := 0, slot := 0, group := group, cancelled := cancelled }

def slot0 (pair : Option Nat) (filled : Bool) : ASlot := { off := 0x100, pair := pair, filled := filled }

/-- A part whose slots hold pair 0 as given. -/
def partOf (filled : Bool) : Part :=
  { Part.empty with aslots := [slot0 (some 0) filled], bslots := [{ slot0 (some 0) filled with off := 0x200 }], islot := some { slot0 (some 0) filled with off := 0x300 },
                    nextPair := 1, nextInit := 1 }

def walking (p : Part) (st : WState) : Walk := { walkOf (some 2) st with placed := true, parts := [p] }

/-- A handler that serves summons 5. -/
def gServes : Group := { g0 with serving := some 5, pool := 1, own := false }

theorem witness_WalkInstructions :
    (∀ w e sums g, Here (walked w e sums g) 2 g ∧ aget (walked w e sums g).m.ctxs 0 = aget base.m.ctxs 0)
    ∧ (Here (having (gInject 0)) 2 (gInject 0) ∧ (gInject 0).rgn ≠ [] ∧ g0.rgn = [])
    ∧ (((gTwo 0x80 0).s 6).toNat % 256 ≠ 0 ∧ ((gPost 0).s 6).toNat % 256 = 0 ∧ 128 < ((gPost 129).s 7).toNat ∧ ((gPost 128).s 7).toNat ≤ 128)
    ∧ (recordValid (postState 0 (having (gPost 0))) (gPost 0) = true ∧ recordValid (postState 3 (having (gPost 0))) (gPost 0) = false
      ∧ recordValid (postState 1 (having (gPost 2))) (gPost 2) = true)
    ∧ (((onM (fun m => { m with feat := [(0, 2)] }) base).m.features 0).getLsbD 0 = false ∧ (base.m.features 0).getLsbD 0 = true ∧ 1 % 2 ^ 1 ≠ 0 ∧ 0 % 2 ^ 1 = 0)
    ∧ (servesOn (walked (walkOf none .walking) Engine.empty [(5, summonsOf .a (some 2) false)] gServes).m gServes 0 1 = true ∧ servesOn base.m g0 0 1 = false)
    ∧ ((Engine.empty.intake.length < 32 ∧ rootHasRoom base.m 0 0 0 = true) ∧ ¬ ({ Engine.empty with intake := List.replicate 32 9 }.intake.length < 32))
    ∧ ((gPosting (gPost 0).spc).posting.map Posting.spc = some (gPosting (gPost 0).spc).spc ∧ (gPosting 0).posting.map Posting.spc ≠ some (gPosting 0).spc
      ∧ (gPost 0).posting = none ∧ rootHasRoom (fullRoot base).m 0 0 0 = false
      ∧ (∀ n ∈ [0, 32], ((walked (walkOf none .posted) { Engine.empty with intake := List.replicate n 9 } [] (gPosting (gPost 0).spc)).m.engine 0).intake.length = n))
    ∧ (gTrapped.isTrapped = true ∧ (engaged g0).m.teams.any (fun kt => kt.2.pubs.any fun p => p.group = 2) = true ∧ base.m.teams.all (fun kt => kt.2.pubs.isEmpty) = true)
    ∧ (2 ^ 32 ≤ ((gTwo (2 ^ 32) 0).s 6).toNat ∧ ((gTwo 1 0).s 6).toNat < 2 ^ 32)
    ∧ (aget (walked (walkOf none .stalled) Engine.empty [] g0).m.walks 1 = some (walkOf none .stalled) ∧ (walkOf none .stalled).ctx = g0.ctx
      ∧ (walkOf none .stalled).over = false ∧ { walkOf none .stalled with ctx := 1 }.ctx ≠ g0.ctx ∧ (walkOf none .done).over = true
      ∧ aget (walked (walkOf none .stalled) Engine.empty [] g0).m.walks 2 = none
      ∧ ∀ ke ∈ (walked (walkOf none .stalled) Engine.empty [] g0).m.engines, ∀ x ∈ ke.2.ended, x.1 ≠ 2)
    ∧ (∀ ks ∈ (walked (walkOf none .walking) Engine.empty [(5, summonsOf .a none false)] g0).m.summons, ks.2.group = none)
    ∧ (255 < ((gTwo 256 0).s 6).toNat ∧ ((gTwo 255 0).s 6).toNat ≤ 255 ∧ gServes.serving ≠ none ∧ gTask.kind = .task ∧ g0.serving = none ∧ g0.kind = .kernel
      ∧ g0.qs.liq = [] ∧ g0.own = true ∧ gServes.own = false)
    ∧ (g0.serving = none ∧ gServes.serving = some 5 ∧ aget (walked (walkOf none .walking) Engine.empty [] gServes).m.summons 5 = none)
    ∧ (aget (walked (walkOf none .walking) Engine.empty [(5, summonsOf .drain (some 2) false)] gServes).m.summons 5 = some (summonsOf .drain (some 2) false)
      ∧ gServes.rgn = [] ∧ { gServes with rgn := [openRegion 0] }.rgn ≠ [])
    ∧ (∀ c ∈ [true, false], ∀ k ∈ [SKind.a, .b, .init, .drain], aget (walked (walking (partOf false) .walking) Engine.empty [(5, summonsOf k (some 2) c)] gServes).m.walks
          (summonsOf k (some 2) c).walk = some (walking (partOf false) .walking)
      ∧ (walking (partOf false) .walking).parts[(summonsOf k (some 2) c).part]? = some (partOf false))
    ∧ ((walking (partOf false) .walking).acause = 0 ∧ (walking (partOf false) .walking).over = false ∧ (walking (partOf false) .walking).freezing = false
      ∧ (walking (partOf false) .walking).st ≠ .draining ∧ (partOf false).aslots[0]? = some (slot0 (some 0) false)
      ∧ Engine.empty.banks[0]? = some Bank.empty) :=
  ⟨fun w e sums g => ⟨here_walked w e sums g, rfl⟩, ⟨here_having _, by decide +kernel⟩, by decide +kernel, by decide +kernel, by decide +kernel, by decide +kernel,
    by decide +kernel, ⟨by decide +kernel, by decide +kernel, rfl, full_root _ (by decide +kernel), by decide +kernel⟩, by decide +kernel⟩

def posted0 : State := walked (walkOf (some 2) .posted) { Engine.empty with intake := [1] } [] g0

/-- `walkRec0` with or without an init. -/
def recInit (init : Bool) : WalkRec := { walkRec0 with init := init }

/-- A queued walk in its place, with empty slots to be reserved. -/
def queued0 (init : Bool) : State :=
  walked { walkOf (some 2) .queued with placed := true, wrec := recInit init } { Engine.empty with places := [some 1, none, none, none] } [] g0

def offsets (init : Bool) : List (List Nat) := [if init then [0, 256, 512] else [0, 0xFFF00]]

/-- A walking part with its slots free. -/
def freePart : Part := { Part.empty with aslots := [slot0 none false], bslots := [{ slot0 none false with off := 0x200 }] }

def parkedGroup : Group := { g0 with st := .parked 7, pool := 1, own := false }

theorem witness_WalkPlacementAndSummons :
    ((posted0.m.walks.filter fun kw => kw.2.engines.contains 0) = [(1, walkOf (some 2) .posted)] ∧ (walkOf (some 2) .posted).st = .posted
      ∧ (walkOf (some 2) .posted).wantsPlace posted0.m = true ∧ (walkOf (some 2) .posted).engines = [0] ∧ (posted0.m.engine 0).places.length = 4)
    ∧ (∀ init ∈ [false, true], (firstQueued (queued0 init).m 0).map Prod.fst = some 1 ∧ (walkLaunch (queued0 init).m (walkOf (some 2) .queued)).isSome = true
      ∧ ((recInit init).cls fetchRecord).map WalkClass.eb = some 64 ∧ inService (queued0 init).m 1 = false ∧ ctxActive (queued0 init).m 0 = true
      ∧ (offsets init).length = 2 ^ walkRec0.cw ∧ (∀ o ∈ offsets init, o.length = ((recInit init).slotSizes 64).length)
      ∧ heldSlots (queued0 init).m 0 = []
      ∧ (∀ o ∈ offsets init, (∀ x ∈ o.zip ((recInit init).slotSizes 64), x.1 % 256 = 0 ∧ x.1 + x.2 ≤ 2 ^ 20)
        ∧ (o.zip ((recInit init).slotSizes 64)).Pairwise fun x y => x.1 + x.2 ≤ y.1 ∨ y.1 + y.2 ≤ x.1))
    ∧ (dueOn (walked (walking freePart .walking) Engine.empty [] g0).m 0 0 0 = [(1, walking freePart .walking, .pair 0)]
      ∧ dueOn (walked (walking { freePart with toDrain := [(0, 1)] } .walking) Engine.empty [] g0).m 0 0 0
        = [(1, walking { freePart with toDrain := [(0, 1)] } .walking, .drain 0 1)])
    ∧ (∀ k ∈ [SKind.a, .b, .init, .drain], let s := walked (walking (partOf false) .walking) Engine.empty [(5, summonsOf k none false)] parkedGroup
      aget s.m.summons 5 = some (summonsOf k none false) ∧ aget s.m.walks 1 = some (walking (partOf false) .walking)
      ∧ (walkLaunch s.m (walking (partOf false) .walking)).isSome = true ∧ ctxRuns s.m 0 = true ∧ s.m.grp? 2 = some parkedGroup ∧ parkedGroup.st = .parked 7
      ∧ (parkedGroup.saved = false ∧ parkedGroup.pool = walkRec0.pool ∧ parkedGroup.ctx = 0 ∧ parkedGroup.kern = 0 ∧ parkedGroup.kind ≠ .compacted ∧ parkedGroup.core / 8 = 0 + 0)
      ∧ amapWf s.m.groups = true) :=
  by refine ⟨?_, ?_, ?_, ?_⟩ <;> decide +kernel

/-- A walk in its tile with both pairs' worth of slots filled, its k-step busy as given. -/
def stepping (kstep tries : Nat) (busy : Option Nat) (init : Bool) : Walk :=
  { walking { partOf true with aslots := [slot0 (some kstep) true], bslots := [{ slot0 (some kstep) true with off := 0x200 }], bank := some 0 } .walking with
    wrec := recInit init, inTile := true, kstep := kstep, busy := busy, tries := tries }

def bank0 (st : BankState) : Bank := { Bank.empty with st := st, walk := 1, tile := 0, rows := 2, cols := 2, acc := [(0, 0)] }

def stepState (w : Walk) : State := walked w { Engine.empty with places := [some 1, none, none, none], banks := [bank0 .accumulating, Bank.empty] } [] g0

/-- The same under a kernel whose operands have block scales at an address that is not mapped. -/
def scaleState (w : Walk) : State := kernWith (fun k => { k with lrec := { k.lrec with slots := List.replicate 8 0x10, scale := 0x80000000 } }) (stepState w)

def launchOf (s : State) : LaunchRec := ((aget s.m.kerns 0).map Kernel.lrec).getD fetchRecord

theorem witness_WalkTilesAndSteps :
    (∀ init ∈ [false, true], let w : Walk := { walking (partOf true) .stalled with wrec := recInit init }
      let s := walked w { Engine.empty with places := [some 1, none, none, none] } [] g0
      rrOf s.m 0 = 3 ∧ (s.m.engine 0).places[(3 + 1 + 0) % 4]? = some (some 1) ∧ aget s.m.walks 1 = some w ∧ canStart s.m w = true
      ∧ 0 ∈ w.engines ∧ w.parts.length = 2 ^ w.wrec.cw ∧ w.wrec.tn ≤ 320 ∧ ∀ e ∈ w.engines, (s.m.engine e).banks.length = 2)
    ∧ (let w : Walk := { walking (partOf true) .stalled with wrec := { walkRec0 with cw := 1, n := 4 }, parts := [partOf true, partOf false] }
      let s := walked w { Engine.empty with places := [some 1, none, none, none] } [] g0
      w.awaitsTile = true ∧ w.engines = [0, 1] ∧ w.engines.all (fun e => (turnOf s.m e).isNone) = true ∧ partStarts s.m w 0 = true ∧ partStarts s.m w 1 = false
      ∧ turnOf (onM (fun m => m.setEngine 0 { m.engine 0 with turn := some 1 }) s).m 0 = some 1)
    ∧ (tileRoom (onM (fun m => { m with tileBudget := [(0, 1)] }) base).m 0 0 = true ∧ tileRoom (onM (fun m => { m with tileBudget := [(0, 0)] }) base).m 0 0 = false)
    ∧ (∀ x ∈ [(0, 0), (1, 3), (0, 1)], let w := stepping x.1 x.2 none true
      canStep w = true ∧ aget (stepState w).m.walks 1 = some w ∧ (walkLaunch (stepState w).m w).isSome = true ∧ (w.wrec.cls fetchRecord).isSome = true
      ∧ w.wrec.init = true ∧ (w.wrec.piece w.tile 0).empty = false ∧ (w.parts[0]?).bind Part.bank = some 0 ∧ ((stepState w).m.engine 0).banks[0]? = some (bank0 .accumulating))
    ∧ (∀ k ∈ [0, 1], let w := stepping k 0 (some 0) false
      okThat (fun _ => true) (accumulateAll w fetchRecord (2 ^ w.wrec.cw) (stepState w).m) = true ∧ (w.wrec.cls fetchRecord).map WalkClass.granule = some 1
      ∧ w.busy = some 0 ∧ w.acause = 0 ∧ w.freezing = false ∧ w.st = .walking ∧ w.parts.length = 2 ^ w.wrec.cw
      ∧ (∀ e ∈ w.engines, ((stepState w).m.engine e).banks.length = 2) ∧ (∀ p ∈ w.parts, p.bank = some 0) ∧ w.wrec.nk = 2 ∧ w.wrec.tilesNo = 1
      ∧ (w.wrec.piece w.tile 0).empty = false)
    ∧ ((SlotDesc.of 0).blk = 0 ∧ (SlotDesc.of 0).band = false)
    ∧ fails (match accumulateAll (stepping 0 0 (some 0) false) (launchOf (scaleState (stepping 0 0 (some 0) false))) 1 (scaleState (stepping 0 0 (some 0) false)).m with
        | .error _ => (Except.error (0, 0) : Except (Nat × Nat) Unit)
        | .ok _ => .ok ()) = true
    ∧ (AccError.clean ≠ .found ∧ AccError.latent 0 1 1 ≠ .found ∧ 3 ≤ (stepping 0 3 (some 0) false).tries ∧ (stepping 0 2 (some 0) false).tries < 3) :=
  by refine ⟨?_, ?_, ?_, ?_, ?_, ?_, ?_, ?_⟩ <;> decide +kernel

/-- An ACC.LD of element (0, 0) on, and a CVTS of v0 by row v2, position v4 and length v6. -/
def accWord (ty : BitVec 5) : LaneWord := { lword ty 8 0x1A0 0x1A0 0 0 with d := 0 }

def drainState (k : SKind) (bad : List Nat) (c : Bool) (g : Group) : State :=
  walked (walking (partOf true) .draining) { Engine.empty with banks := [{ bank0 .draining with bad := bad }, Bank.empty] } [(5, summonsOf k (some 2) c)] g

def gAcc (ty : BitVec 5) (serving : Option Nat) : Group := { gOf (.accLd (accWord ty)) with serving := serving }

/-- The kernel with block and band scales for slot 0, at an address. -/
def cvtState (scale : Nat) (g : Group) : State :=
  kernWith (fun k => { k with lrec := { k.lrec with slots := List.replicate 8 0x1016, scale := BitVec.ofNat 64 scale } }) (having g)

def cvtWord (sub : BitVec 12) : LaneWord := { nWord 17 4 sub with b := 0x1A1, c := 0x1A2, d := 0x1A3 }

def gCvt (sub : BitVec 12) : Group := { gOf (.cvts (cvtWord sub)) with qs := { g0.qs with liq := [{ entryOf (.cvts (cvtWord sub)) with m0 := 1 }] } }

def cvtReads (scale : Nat) : Mach × List (ScaleRead × LaneAccess) × List LaneFault :=
  checkScales (gCvt 0) [{ lane := 0, addr := scale + 1, size := 1 }] (cvtState scale (gCvt 0)).m

/-- The same with the scale behind port 5. -/
def cvtFar (f : Fabric) : Mach × List (ScaleRead × LaneAccess) × List LaneFault :=
  checkScales { gCvt 0 with fabric := f } [{ lane := 0, addr := 0x40001001, size := 1 }] (routed (cvtState 0x40001000 { gCvt 0 with fabric := f })).m

theorem witness_AccumulatorsAndScales :
    (∀ sv, (Instr.accLd (accWord 16)).wf = true ∧ Issues (drainState .drain [] false (gAcc 16 sv)) 2 (gAcc 16 sv) (entryOf (.accLd (accWord 16))) (.accLd (accWord 16))
      ∧ ReadsPass (.accLd (accWord 16)) (gAcc 16 sv) [0])
    ∧ ((gAcc 16 none).serving = none ∧ (gAcc 16 (some 5)).serving = some 5)
    ∧ (∀ k ∈ [SKind.a, .drain], let s := drainState k [0] false (gAcc 16 (some 5))
      aget s.m.summons 5 = some (summonsOf k (some 2) false) ∧ aget s.m.walks 1 = some (walking (partOf true) .draining)
      ∧ (s.m.engine (0 + 0)).banks[0]? = some { bank0 .draining with bad := [0] })
    ∧ ((accWord 16).t = accTy walkRec0.accfmt ∧ (accWord 17).t ≠ accTy walkRec0.accfmt)
    ∧ ((summonsOf .drain (some 2) false).cancelled = false ∧ (bank0 .draining).st = .draining ∧ (bank0 .draining).walk = 1 ∧ (bank0 .draining).tile = 0
      ∧ effective (gAcc 16 (some 5)) (entryOf (.accLd (accWord 16))) (accWord 16) 0 ∧ 0 * 1024 + 0 ∈ [0] ∧ ([] : List Nat) ≠ [0])
    ∧ ((walkRec0.piece 0 0).prows = 2 ∧ (walkRec0.piece 0 0).pcols = 2)
    ∧ (∀ sub, sub = (0 : BitVec 12) ∨ sub = 1 → (Instr.cvts (cvtWord sub)).wf = true
      ∧ Issues (cvtState 0x30000 (gCvt sub)) 2 (gCvt sub) { entryOf (.cvts (cvtWord sub)) with m0 := 1 } (.cvts (cvtWord sub)) ∧ (aget (cvtState 0x30000 (gCvt sub)).m.kerns 0).isSome = true)
    ∧ (SlotDesc.of 0x1016 = { efmt := 6, blk := 1, band := true, blkoff := 0, bandoff := 0 } ∧ (SlotDesc.of 0).blk = 0 ∧ (SlotDesc.of 0).band = false)
    ∧ ((cvtReads 0x30000).2.2 = [] ∧ portsOf 2 ((cvtReads 0x30000).2.1.map Prod.snd) = [] ∧ (cvtReads 0x80000000).2.2 ≠ []
      ∧ ∀ f ∈ [Fabric.none, .pending [(5, 1)] [], .done [5]], (cvtFar f).2.2 = [] ∧ portsOf 2 ((cvtFar f).2.1.map Prod.snd) = [5])
    ∧ (3 ≤ 3 ∧ 2 < 3) := by
  refine ⟨fun sv => ⟨by decide +kernel, ⟨here_onM (fun _ => ⟨rfl, rfl⟩) (here_having _), rfl, rfl, ?_, show (32 : Nat) ≤ 96 by decide⟩, ?_⟩, ⟨rfl, rfl⟩, by decide +kernel, by decide +kernel,
    ⟨rfl, rfl, rfl, rfl, ⟨by decide, by decide, by decide +kernel⟩, by decide, by decide⟩, by decide +kernel, ?_, by decide +kernel, by decide +kernel, by decide⟩
  · have e : (gAcc 16 sv).blockedOn (.accLd (accWord 16)) = (gAcc 16 none).blockedOn (.accLd (accWord 16)) := rfl
    rw [e]; decide +kernel
  · have e : (gAcc 16 sv).readFails = (gAcc 16 none).readFails := rfl
    unfold ReadsPass; rw [e]; decide +kernel
  · intro sub hs
    rcases hs with rfl | rfl <;> exact ⟨by decide +kernel, ⟨here_onM (fun _ => ⟨rfl, rfl⟩) (here_having _), rfl, rfl, by decide +kernel, show (32 : Nat) ≤ 96 by decide⟩, by decide +kernel⟩

def placed1 : Placement := { slots := [{ core := 0, slot := 1 }], core := 0, off := 0x2000, frame := 0 }

/-- The kernel of the program still admitting its one team. -/
def admitting (coop : Bool) : State :=
  kernWith (fun k => { k with st := .admitting, nextTeam := 0, lrec := { k.lrec with coop := coop } }) base

def theKern (s : State) : Kernel := (aget s.m.kerns 0).getD fetchKernel

/-- A kernel with a work queue, items and queries of group 2. -/
def queried (wx nextItem : Nat) (wq : Option Nat) (count : Nat) (closed : Bool) (asks : Nat) (g : Group) : State :=
  kernWith (fun k => { k with wqBase := wq, wqCount := count, closed := closed, nextItem := nextItem, queries := List.replicate asks (2, 0x800),
                              lrec := { k.lrec with wx := wx, wy := 1, wq := wq.isSome, wqlog := 4 } }) (having g)

/-- A kernel whose queries in a list are parked. -/
def asked (l : List (Nat × Dword)) : Kernel := theKern (kernWith (fun k => { k with parked := l }) (queried 1 1 (some 0) 0 false 1 g0))

def faultLane (cause lane : Nat) : FaultLane := { ctx := 0, cause := cause, loff := 0, origin := { lane := lane, group := 2 }, tag := [0, 0, 0, 0] }

def compacting (ls : List FaultLane) : State := onM (fun m => m.setDie 0 { m.die 0 with lanes := ls }) base

theorem witness_TeamsAndWork :
    ((theKern (admitting false)).st = .admitting ∧ (theKern (admitting false)).lrec.coop = false ∧ mayResume (admitting false).m 0 = true
      ∧ (∀ kt ∈ (admitting false).m.teams, kt.2.saved = false) ∧ (∀ kk ∈ (admitting false).m.kerns, ¬ kk.1 < 0) ∧ NumbersFresh (admitting false).m
      ∧ teamFits (admitting false).m 0 0 (theKern (admitting false)).lrec placed1 = true)
    ∧ ((theKern (admitting true)).lrec.coop = true ∧ ([] : List Placement).length ≠ (theKern (admitting true)).lrec.teams
      ∧ (admitAll 0 0 (theKern (admitting true)).lrec [{ placed1 with off := 0x800 }] 0 (admitting true).m).isNone = true)
    ∧ ((∀ n, Here (queried 0 0 none 0 false n (gTwo (spadVa 0x800) 0)) 2 (gTwo (spadVa 0x800) 0)) ∧ Here (having (gInject 0)) 2 (gInject 0) ∧ (gInject 0).rgn ≠ [])
    ∧ (((gTwo (spadVa 0x808) 0).s 6).toNat % 16 ≠ 0 ∧ ((gTwo (spadVa 0x800) 0).s 6).toNat % 16 = 0 ∧ spadOf g0 (spadVa 0x1000) = some 0x1000 ∧ 0 + 0x1000 < 0x1000 + 16
      ∧ spadOf g0 0x30000 = none ∧ spadOf g0 (spadVa 0xFF0) = some 0xFF0 ∧ 0xFF0 + 16 ≤ 0 + 0x1000)
    ∧ (((theKern (queried 0 0 none 0 false 4 g0)).queries.filter fun q => q.1 = 2).length = 4 ∧ ((theKern (queried 0 0 none 0 false 3 g0)).queries.filter fun q => q.1 = 2).length < 4)
    ∧ (∀ k, k < 16 → aget base.m.slots ((0x800 + k) / 16 * 16) = none ∧ ringAt base.m (0x800 + k) = none ∧ logAt base.m (0x800 + k) = false)
    ∧ ((((queried 1 0 none 0 false 1 g0).m.kerns.find? fun kk => kk.2.queries.any fun q => q.1 = 2).map Prod.fst) = some 0
      ∧ ((theKern (queried 1 0 none 0 false 1 g0)).queries.find? fun q => q.1 = 2) = some (2, 0x800))
    ∧ (((asked [(9, 0x900), (2, 0x800)]).parked.head?).map Prod.fst = some 9 ∧ (asked []).parked.head? = none ∧ ((asked [(2, 0x800)]).parked.head?).map Prod.fst = some 2
      ∧ (aget (having g0).m.teams g0.team).map Team.saved = some false ∧ (aget (teamWith (fun t => { t with saved := true }) (having g0)).m.teams g0.team).map Team.saved = some true)
    ∧ (0 < 1 * 1 ∧ 1 * 1 ≤ 1 ∧ (theKern (queried 1 1 (some 0) 1 false 1 g0)).wqBase = some 0 ∧ 0 < (theKern (queried 1 1 (some 0) 1 false 1 g0)).wqCount
      ∧ (theKern (queried 1 1 none 0 false 1 g0)).wqBase = none ∧ (theKern (queried 1 1 (some 0) 0 true 1 g0)).closed = true
      ∧ (theKern (queried 1 1 (some 0) 0 false 1 g0)).closed = false ∧ (theKern (queried 1 1 (some 0) 0 false 1 g0)).lrec.wq = true)
    ∧ ((faultLane 16 3 ∈ ((compacting [faultLane 16 3, faultLane 17 4]).m.die 0).lanes)
      ∧ (((List.range 33).map (faultLane 16)).filter fun y => y.cause = 16).length = 33
      ∧ (∀ x ∈ [faultLane 16 3], (x.ctx = 0 ∧ x.cause = 16)) ∧ (theCtx base).st = .active ∧ dieOf 0 = 0
      ∧ coreTakes (compacting [faultLane 16 3]).m 0 0 0 [1] 32 (8 * fetchDesc.hregs) = true) :=
  ⟨by unfold NumbersFresh; decide +kernel, by decide +kernel, ⟨fun _ => here_onM (fun _ => ⟨rfl, rfl⟩) (here_having _), here_having _, by decide +kernel⟩, by decide +kernel⟩

/-- The program with the core's memory set and limit. -/
def throttling (limit : Nat) (ms : AMap Nat) (cyc : Nat) (g : Group) : State :=
  onM (fun m => ([3, 4, 5, 6, 7].foldl (fun m k => m.setGrp k g0) m).setCore 0 { m.core 0 with limit := limit, memset := ms, cyc := cyc }) (having g)

def gLoad : Group := { gMem (.ld (memWord 12 8 0x1A0 0 0 0x08)) 0x30000 1 .none with throttledAt := some 0 }

/-- A group at a WAITA that began to wait, or did not. -/
def gWaita (from_ : Option Nat) : Group := { sregs [(4, 0x30000), (5, 1), (7, 100)] g0 with waitedFrom := from_ }

def waitaState (from_ : Option Nat) : State := 
  let s := State.reset.withFetchWord 32 0x88710510
  { s with m := ({ s.m with cur := 2, agenda := [] }).setGrp 2 (gWaita from_) }

theorem witness_CountsFloorsAndThrottle : (127 : Nat) < 128 ∧ (7 : Nat) < 8
    ∧ ((onM (fun m => m.setDie 0 { m.die 0 with deltas := [{ ctx := 0, node := 0, stamp := 0, n := -1 }] }) base).m.die 0).deltas = [{ ctx := 0, node := 0, stamp := 0, n := -1 }]
    ∧ (∀ c, c ∈ [{ fetchContext with snap := true }, { fetchContext with snap := true, frozen := true }, { fetchContext with snap := true, st := .lost }] → c.snap = true)
    ∧ (amapWf base.m.clusters = true ∧ (∀ kd ∈ base.m.clusters, kd.1 < 128) ∧ (aget base.m.ctxs 0).isSome = true ∧ 0 < fetchContext.nodes.length ∧ 0 ∈ [0] ∧ 1 ∉ [0])
    ∧ ((1024 : Nat) ≤ 1024 ∧ (members (throttling 4 [(3, 64), (4, 70), (5, 71), (6, 72), (7, 73)] 80 g0).m 0).length = 5 ∧ (members (throttling 4 [] 80 g0).m 0).length ≤ 4
      ∧ amapWf (members (throttling 4 [(3, 64), (4, 70), (5, 71), (6, 72), (7, 73)] 80 g0).m 0) = true ∧ max 4 (64 - 1024 / 16) = 4)
    ∧ (let s := throttling 2 [(3, 490), (4, 500)] 512 gLoad
      s.m.grp? 2 = some gLoad ∧ throttled s.m 2 gLoad = true ∧ gLoad.throttledAt = some 0 ∧ 0 + 512 ≤ (s.m.core 0).cyc ∧ (3, 490) ∈ members s.m 0
      ∧ ∀ x ∈ members s.m 0, x ≠ (3, 490) → 490 < x.2)
    ∧ (throttled base.m 2 g0 = false ∧ { gLoad with throttledAt := some 1 }.throttledAt = some 1 ∧ (base.m.core 0).cyc < 1 + 512)
    ∧ (aget ((throttling 4 [(2, 16)] 80 g0).m.core 0).memset 2 = some 16 ∧ 16 + 64 ≤ 80 ∧ 79 < 16 + 64)
    ∧ (let s := waitaState (some 0)
      let m0 := { s.m.setCore 0 { s.m.core 0 with clk := (s.m.core 0).clk + 4096 } with cur := 2 }
      (s.m.grp? 2 = some (gWaita (some 0)) ∧ (nextScalar m0 (gWaita (some 0))).2 = .waita 0 7 4 5 ∧ (nextScalar m0 (gWaita (some 0))).1.cur = 2
        ∧ ((nextScalar m0 (gWaita (some 0))).1.grp? 2).isSome = true)
      ∧ ((gWaita (some 0)).waitedFrom.isSome = true ∧ (gWaita (some 0)).fabric = .none ∧ (gWaita (some 0)).saved = false ∧ ctxRuns s.m 0 = true
        ∧ (gWaita (some 0)).traps = [] ∧ (gWaita none).waitedFrom = none)) := by
  refine ⟨by decide, by decide, by decide +kernel, fun c hc => ?_, by decide +kernel⟩
  simp only [List.mem_cons, List.not_mem_nil, or_false] at hc
  rcases hc with rfl | rfl | rfl <;> rfl

/-- A command processor 0 with its argument register set. -/
def arg (a : Nat) (s : State) : State := onM (fun m => setCp m 0 fun c => { c with cxarg := BitVec.ofNat 64 a }) s

/-- A descriptor that CREATE takes, at 0x80000: a request queue of 16 entries, a save limit of 1 and 8 v registers. -/
def describedBy (s : State) : State := poke 0x80050 8 4 (poke 0x80060 8 1 (poke 0x80068 8 1 s))

/-- A quota record at 0x90000: cluster 0 with 64 of each, all of its scratchpads, one unit of on-chip memory. -/
def quotaRecord (s : State) : State := poke 0x90000 8 1 (poke 0x90010 8 0x404040 (poke 0x90018 8 0x4000 (poke 0x90020 8 0x100 s)))

def descGood (s : State) : Bool :=
  let a := (s.m.cp 0).cxarg.toNat
  let bs := readBytes s.m (.dev a) 256
  decide (a % 256 = 0) && decide (a + 256 ≤ devTop) && descReservedZero bs && (CtxDesc.ofBytes bs).valid && (firstImage s.m (CtxDesc.ofBytes bs).summ).isSome

def quotaGood (s : State) : Bool :=
  let a := (s.m.cp 0).cxarg.toNat
  let bs := readBytes s.m (.dev a) 64
  let q := Quota.ofBytes bs
  let c1 := { theCtx s with quota := some q, st := .active }
  decide (a % 64 = 0) && decide (a + 64 ≤ devTop) && quotaReservedZero bs && q.inRange && keepsInside (s.m.setCtx 0 c1) 0
    && s.m.ctxs.all fun kc => kc.1 == 0 || decide (∀ p, kc.2.quota = some p → q.clashes p = false)

/-- A module with the first k context numbers taken. -/
def fullCtxs (k : Nat) : State := onM (fun m => { m with ctxs := (List.range k).map fun n => (n, fetchContext) }) base

theorem full_ctxs (k n : Nat) (h : n < k) : (aget (fullCtxs k).m.ctxs n).isSome = true := aget_range _ k n h

def inState (st : CState) (s : State) : State := ctxWith (fun c => { c with st := st }) s

/-- A context with a save area of n bytes. -/
def roomOf (n : Nat) (st : CState) : Context := { fetchContext with desc := { fetchDesc with savesize := n }, st := st }

def room (n : Nat) (st : CState) : State := onM (fun m => { m with ctxs := [(0, roomOf n st)] }) base

theorem room_ctx (n : Nat) (st : CState) : theCtx (room n st) = roomOf n st := by simp [theCtx, room, onM, aget]

theorem room_needs (m : Mach) (x : AMap Context) (n : Nat) (st : CState) (now : Bool) :
    imageBytes { m with ctxs := x } 0 (roomOf n st) now = imageBytes m 0 fetchContext now := rfl

/-- What the images of the context of the program need. -/
def needed (now : Bool) : Nat := imageBytes base.m 0 fetchContext now

theorem room_for (st : CState) (now : Bool) : imageBytes (room (needed now) st).m 0 (theCtx (room (needed now) st)) now
    ≤ (theCtx (room (needed now) st)).desc.savesize := by
  rw [room_ctx]
  exact Nat.le_of_eq (room_needs base.m _ _ st now)

/-- The program's context with commands of command processor 0 that wait. -/
def queuedCmds (codes : List Nat) (s : State) : State := ctxWith (fun c => { c with waits := codes.map fun k => { cp := 0, code := k, arg := 0 } }) s

/-- The program's context saved beside another one, whose quota is the same. -/
def besides (st : CState) : State := onM (fun m => { m with ctxs := [(0, { fetchContext with st := .saved }), (1, { fetchContext with st := st })] }) base

def clashes (s : State) : Bool := s.m.ctxs.any fun kc => kc.1 != 0 && kc.2.st != .saved && ((kc.2.quota.map fun p => fetchQuota.clashes p).getD false)

def gHost (k : Nat) : Group := { g0 with slot := k, st := .trapped .host }

theorem witness_ContextCommands :
    (let s := arg 0x80000 (describedBy base);
      descGood s = true ∧ descGood (arg 0x80001 s) = false ∧ aget s.m.ctxs 1 = none ∧ (∀ k, k < 1 → (aget s.m.ctxs k).isSome = true) ∧ aget s.m.ctxs 5 = none)
    ∧ (∀ n, n < 4096 → (aget (fullCtxs 4096).m.ctxs n).isSome = true)
    ∧ ((theCtx (inState .suspending base)).st = .suspending ∧ (theCtx (inState .saving base)).st = .saving ∧ (theCtx (inState .restoring base)).st = .restoring
      ∧ (theCtx (ctxWith (fun c => { c with vacating := some { first := 0, count := 1, cast := false } }) base)).vacating ≠ none
      ∧ (theCtx base).st = .active ∧ (theCtx base).vacating = none ∧ (theCtx base).waits = [])
    ∧ ((theCtx (queuedCmds [2, 6] base)).waits ≠ [] ∧ ((theCtx (queuedCmds [2, 6] (inState .saving base))).waits.map CtxCommand.code = [2, 6])
      ∧ ∀ k ∈ [2, 3, 4, 5, 6, 7], (theCtx (queuedCmds [k] base)).waits = [{ cp := 0, code := k, arg := (base.m.cp 0).cxarg }])
    ∧ (clashes (besides .active) = true ∧ clashes (besides .saved) = false ∧ someCore (besides .active).m (theCtx (besides .active)) (featsOf (besides .active).m 0) = true
      ∧ (theCtx (besides .active)).quota = some fetchQuota)
    ∧ (quotaGood (arg 0x90000 (quotaRecord base)) = true ∧ quotaGood (arg 0x90008 (quotaRecord base)) = false)
    ∧ ((theCtx (inState .saved base)).st = .saved ∧ (theCtx base).desc.savesize < imageBytes base.m 0 (theCtx base) true
      ∧ (theCtx (room (needed true) .active)).st = .active
      ∧ imageBytes (room (needed true) .active).m 0 (theCtx (room (needed true) .active)) true ≤ (theCtx (room (needed true) .active)).desc.savesize
      ∧ amapWf (room (needed true) .active).m.walks = true)
    ∧ (let s := inState .saved base
      someCore s.m (theCtx s) (featsOf s.m 0) = true
      ∧ someCore (onM (fun m => m.setCluster 0 { m.cluster 0 with fenced := true }) s).m (theCtx s) (featsOf s.m 0) = false)
    ∧ (1024 < 1024 + 1 ∧ 1023 + 1 ≤ 1024 ∧ (0x400 : Nat) % 2 ^ 10 = 0 ∧ (0x400 : Nat) / 2 ^ 10 % 2 ^ 11 = 1 ∧ (∀ e, ∃ k, k < 8 ∧ ¬ (0 ≤ 8 * e + k ∧ 8 * e + k < 0 + 1))
      ∧ amapWf base.m.teams = true ∧ amapWf base.m.groups = true ∧ base.m.grp? 2 = some g0 ∧ g0.team = 1 ∧ g0.core < 0 + 1 ∧ ¬ 5 ≤ g0.core
      ∧ g0.fabric.isOut = false ∧ g0.serving = none ∧ ∀ kk ∈ base.m.kerns, kk.2.queries = [])
    ∧ (let s := inState .faulted base
      (theCtx s).st = .faulted ∧ amapWf s.m.walks = true)
    ∧ ((∀ kg ∈ (having (gHost 3)).m.groups, kg = (2, gHost 3)) ∧ originOf (gHost 3) = 0x10003 % 2 ^ 16 ∧ (0x10003 : Nat).testBit 16 = true ∧ (3 : Nat).testBit 16 = false
      ∧ (∀ kg ∈ base.m.groups, kg.2.st ≠ .trapped .host ∧ kg.2.st ≠ .heldHost))
    ∧ ((theCtx base).quota = some fetchQuota ∧ (theCtx base).granted.getLsbD (7 / 8) = true ∧ fetchQuota.clusters.getLsbD (0 / 8) = true ∧ 4096 * fetchQuota.spbase ≤ 0x2000 ∧ 0x2000 < 4096 * (fetchQuota.spbase + fetchQuota.spsize)
      ∧ aget base.m.slots 0x2000 = none ∧ ringAt base.m 0x2000 = none ∧ logAt base.m 0x2000 = false ∧ indetAt base.m.indet (Loc.spad 0x2000).key = none) := by
  refine ⟨by decide +kernel, full_ctxs 4096, by decide +kernel, by decide +kernel, by decide +kernel, by decide +kernel, ⟨by decide +kernel, ?_, by rw [room_ctx]; rfl, room_for .active true, by decide +kernel⟩, by decide +kernel,
    ⟨by decide, by decide, by decide, by decide, fun e => ⟨1, by omega, by omega⟩, by decide +kernel⟩, by decide +kernel⟩
  have h : (theCtx base).desc.savesize = 0 := by decide +kernel
  rw [h, imageBytes]
  omega

def imageAt (a : Nat) : SavedImage := { kind := 2, ref := 1, part := 0, addr := a, size := 64, check := 0, seed := 0 }

/-- The program with its team saved, as its context is restored. -/
def restoring : State :=
  teamWith (fun t => { t with saved := true, share := 0 }) (inState .restoring (having { g0 with saved := true }))

theorem image_bad : [imageAt 0xA0000].all (imageGood restoring.m) = false := by
  have h : bit (readNat restoring.m (.dev ((imageAt 0xA0000).addr + 8)) 8) 0 = false := by decide +kernel
  simp [imageGood, h]

theorem witness_ContextLife :
    ((theCtx base).st ≠ .suspending ∧ (theCtx base).st ≠ .saving ∧ quiet (inState .suspending base).m 0 = true
      ∧ quiet (inState .suspending (having (gAt 0 (.pending [(5, 1)] [])))).m 0 = false)
    ∧ (let s := room (needed false) .suspending
      imageBytes s.m 0 (theCtx s) false ≤ (theCtx s).desc.savesize ∧ (theCtx s).st = .suspending ∧ quiet s.m 0 = true ∧ amapWf s.m.teams = true
      ∧ amapWf s.m.groups = true ∧ amapWf s.m.clusters = true ∧ ∃ kg ∈ s.m.groups, kg.2.kind ≠ .handler)
    ∧ [imageAt 0x1000, imageAt 0x1040].Pairwise (fun a b => a.addr + 64 ≤ b.addr)
    ∧ ((theCtx restoring).st = .restoring ∧ (theCtx restoring).images.all (imageGood restoring.m) = true ∧ namesAll restoring.m 0 [(1, placed1)] [] = true
      ∧ ((restoreTeams 0 (featsOf restoring.m 0) [(1, placed1)] restoring.m).bind (restoreWalks 0 [])).isSome = true)
    ∧ [imageAt 0xA0000].all (imageGood restoring.m) = false
    ∧ (0 + 9 < 10 ∧ 10 ≤ 0 + 10 ∧ 10 ≠ 0 ∧ (theCtx base).desc.npl = 0 ∧ (theCtx base).desc.svl = 1 ∧ 0 + 0 < 1 ∧ 1 ≤ 0 + 1)
    ∧ ((aget restoring.m.teams 1).isSome = true ∧ (placeSaved restoring.m 0 1 0 placed1).isSome = true ∧ amapWf restoring.m.groups = true
      ∧ (restoring.m.groups.find? fun kg => kg.2.team = 1).isSome = true ∧ placed1.slots.head? = some { core := 0, slot := 1 }) :=
  ⟨by decide +kernel, ⟨room_for .suspending false, by rw [room_ctx]; rfl, by decide +kernel⟩, by decide +kernel, by decide +kernel, image_bad,
    by decide +kernel⟩

/-- The entry of a table in the memory of the program. -/
def entryIn0 (s : State) (table va level : Nat) : Nat := readNat s.m (.dev (table + 8 * (va / 2 ^ (12 + 9 * level) % 512))) 8

/-- The program with the leaf of its first GiB as it is given. -/
def leafIs (e : Nat) : State := poke 0x3000 8 e base

theorem witness_TranslationAndInvalidation :
    ((theCtx (inState .saved base)).st = .saved ∧ (theCtx base).st ≠ .created ∧ (theCtx base).st ≠ .resident ∧ (theCtx base).st ≠ .saved)
    ∧ (base.m.busy = none ∧ (onM (fun m => { m with busy := some { kind := 1, ctx := 0, vpn := 3 } }) base).m.busy = some { kind := 1, ctx := 0, vpn := 3 })
    ∧ ((∃ kg ∈ (having (gAt 0 (.pending [(5, 1)] []))).m.groups, kg.2.ctx = 0 ∧ kg.2.fabric.isOut = true) ∧ ∀ kg ∈ base.m.groups, kg.2.fabric.isOut = false)
    ∧ ((0x0100000000000000 : Nat) / 2 ^ 56 = 1 ∧ (0xFF00000000000000 : Nat) / 2 ^ 56 = 255 ∧ (0x30000 : Nat) / 2 ^ 56 = 0)
    ∧ (aget base.m.ctxs 7 = none ∧ (aget base.m.ctxs 0).isSome = true)
    ∧ ((base.m.core 0).tlb = [] ∧ (base.m.cluster (0 / 8)).tlb = [] ∧ (base.m.die (0 / 128)).wcache = [] ∧ (theCtx base).root = some 0x1000 ∧ 0x1000 < devTop
      ∧ (theCtx (ctxWith (fun c => { c with root := none }) base)).root = none)
    ∧ ((entryIn0 base 0x1000 0x30000 4).testBit 0 = true ∧ (entryIn0 base 0x1000 0x30000 4).testBit 1 = false ∧ pteBroken (entryIn0 base 0x1000 0x30000 4) 4 0x30000 = false
      ∧ entryIn0 base 0x1000 0x30000 4 / 2 ^ 12 % 2 ^ 40 * 4096 = 0x2000
      ∧ (entryIn0 base 0x2000 0x30000 3).testBit 0 = true ∧ (entryIn0 base 0x2000 0x30000 3).testBit 1 = false ∧ pteBroken (entryIn0 base 0x2000 0x30000 3) 3 0x30000 = false
      ∧ entryIn0 base 0x2000 0x30000 3 / 2 ^ 12 % 2 ^ 40 * 4096 = 0x3000)
    ∧ ((entryIn0 base 0x1000 (2 ^ 48) 4).testBit 0 = false
      ∧ (entryIn0 (leafIs 0x80) 0x3000 0x30000 2).testBit 0 = false
      ∧ ((entryIn0 (leafIs 0x101) 0x3000 0x30000 2).testBit 0 = true ∧ pteBroken (entryIn0 (leafIs 0x40000003) 0x3000 0x30000 2) 2 0x30000 = false
        ∧ pteBroken (entryIn0 (leafIs 0x1003) 0x3000 0x30000 2) 2 0x30000 = true)
      ∧ (let e := entryIn0 (leafIs 0x17) 0x3000 0x30000 2
        e.testBit 0 = true ∧ pteBroken e 2 0x30000 = false ∧ e.testBit 1 = true ∧ e.testBit 2 = true ∧ e.testBit 3 = false ∧ e.testBit 4 = true ∧ e.testBit 7 = false)) := by
  refine ⟨by decide +kernel, by decide +kernel, by decide +kernel, by decide, by decide +kernel⟩

/-- Whether a machine is as `Ident` asks, with nothing indeterminate. -/
def identB (m : Mach) : Bool :=
  ((aget m.ctxs 0).map Context.root) == some (some 0x1000) && readNat m (.dev 0x1000) 8 == 0x2001 && readNat m (.dev 0x2000) 8 == 0x3001
    && readNat m (.dev 0x3000) 8 == 0x7F && (m.core 0).tlb.isEmpty && (m.cluster 0).tlb.isEmpty && (m.die 0).wcache.isEmpty && m.indet.isEmpty

theorem ident_of {m : Mach} (h : identB m = true) : Ident m ∧ m.indet = [] := by
  simp only [identB, Bool.and_eq_true, beq_iff_eq, List.isEmpty_iff, Option.map_eq_some_iff] at h
  obtain ⟨⟨⟨⟨⟨⟨⟨h0, h1⟩, h2⟩, h3⟩, h4⟩, h5⟩, h6⟩, h7⟩ := h
  exact ⟨⟨h0, h1, h2, h3, by rw [h4, h5]; simp, by rw [h6]; simp⟩, h7⟩

/-- A queue of context 0 with its ring at 0x80000, its tail at 0x8F000 and its status line at 0x8F040; its LAUNCH at 7 started kernel 0. -/
def ringQ : Queue :=
  { ctx := 0, cls := 0, rbase := 0x80000, taddr := 0x8F000, saddr := 0x8F040, szlog := 12, head := 0, st := .mapped, hcause := 0, slot := some 0,
    since := 0, told := true, packets := [], launches := [(7, 0)] }

def words (a : Nat) (ws : List Nat) (s : State) : State :=
  onM (fun m => ((List.range ws.length).zip ws).foldl (fun m x => writeNat m (.dev (a + 8 * x.1)) 8 x.2) m) s

/-- The program with that queue: the words of its ring, and its tail. -/
def ringState (ws : List Nat) (tail : Nat) (q : Queue) (s : State) : State :=
  onM (fun m => { m with queues := [(3, q)] }) (words 0x80000 ws (poke 0x8F000 8 tail s))

/-- The word of a header: type, length in units, node. -/
def hdr (kind len node : Nat) : Nat := kind + len * 2 ^ 16 + node * 2 ^ 32

/-- Whether the packet at head of the queue is read whole and is as a test says. -/
def readsAs (s : State) (q : Queue) (P : Header → Packet → Bool) : Bool :=
  identB s.m && ctxServed s.m q.ctx && decide (aget s.m.queues 3 = some q) && inReach s.m q
    && !(decide (aheadOf s.m q < 0) || decide ((2 ^ q.szlog / 16 : Int) < aheadOf s.m q)) && decide (aheadOf s.m q ≠ 0) && decide (causesAt s.m q = []) && decide (laterCauses s.m q = [])
    && decide (¬ (aheadOf s.m q).toNat < (headerAt s.m q).units q) && mayStart q (headerAt s.m q)
    && P (headerAt s.m q) (newPacket q (headerAt s.m q) (bytesOfHead s.m q))

/-- What the statements take of a packet at head: the queue and its context are served, and the packet may start. -/
def Starts (s : State) (q : Queue) (P : Mach → Header → Packet → Prop) : Prop :=
  aget s.m.queues 3 = some q ∧ ctxServed s.m q.ctx = true ∧ ∃ m1 h bs, (atHead s.m q fun _ => true) = .packet m1 h bs ∧ mayStart q h = true ∧ P m1 h (newPacket q h bs)

theorem starts_of {s : State} {q : Queue} {P : Header → Packet → Bool} (hq : q.core = 0 ∧ q.ctx = 0) (h : readsAs s q P = true) :
    Starts s q fun m1 h p => P h p = true ∧ Ident m1 ∧ Moved s.m m1 := by
  unfold readsAs at h
  simp only [Bool.and_eq_true, Bool.not_eq_true', decide_eq_true_eq] at h
  obtain ⟨⟨⟨⟨⟨⟨⟨⟨⟨⟨h0, h1⟩, h2⟩, h3⟩, h4⟩, h5⟩, h6⟩, h6b⟩, h7⟩, h8⟩, h9⟩ := h
  obtain ⟨m1, e, i, v⟩ := (at_head (ident_of h0).1 q hq h3 h4 h5).1 h6 h6b h7 h8
  exact ⟨h2, h1, m1, _, _, e, h8, h9, i, v⟩

def aLen (kind : Nat) : Nat := [1, 1, 2, 3, 3, 3, 3, 2, 3, 1].getD kind 1

def okStamp (s : State) (p : Packet) : Bool := p.node < (theCtx s).nodes.length && stampValid p.stamp && stampDepth p.stamp = (theCtx s).nodes.getD p.node 0

def bare (kind node : Nat) : State := ringState [hdr kind (aLen kind) node, 0] 256 ringQ base

/-- A packet of every type, with a stamp that is valid and with one whose node is not declared. -/
theorem packets_start : ∀ k ∈ List.range 10, ∀ n ∈ [0, 1], Starts (bare k n) ringQ fun m1 h p =>
    (h.kind = k ∧ (okStamp (bare k n) p = true ↔ n = 0)) ∧ Ident m1 ∧ Moved (bare k n).m m1 := by
  have h : ((List.range 10).all fun k => [0, 1].all fun n => readsAs (bare k n) ringQ fun h p => decide (h.kind = k) && (okStamp (bare k n) p == decide (n = 0))) = true := by
    decide +kernel
  intro k hk n hn
  obtain ⟨h1, h2, m1, hd, bs, h3, h4, h5, h6⟩ := starts_of ⟨rfl, rfl⟩ (List.all_eq_true.1 (List.all_eq_true.1 h k hk) n hn)
  simp only [Bool.and_eq_true, decide_eq_true_eq, beq_iff_eq] at h5
  exact ⟨h1, h2, m1, hd, bs, h3, h4, ⟨h5.1, by rw [h5.2, decide_eq_true_eq]⟩, h6⟩
theorem Starts.mono {s : State} {q : Queue} {P Q : Mach → Header → Packet → Prop} (h : Starts s q P) (f : ∀ m hd p, P m hd p → Q m hd p) : Starts s q Q := by
  obtain ⟨h1, h2, m1, hd, bs, h3, h4, h5⟩ := h
  exact ⟨h1, h2, m1, hd, bs, h3, h4, f _ _ _ h5⟩

/-- A packet whose first word names a record that is read. -/
theorem reads_record {s : State} {P : Header → Packet → Bool} (n : Nat) (h : readsAs s ringQ (fun hd p => P hd p && decide (p.word 0 + 8 * n ≤ 2 ^ 30)) = true) :
    Starts s ringQ fun m1 hd p => P hd p = true ∧ ∃ m3, readVirtual 0 0 n m1 (p.word 0) [] = .ok (m3, wordsAt s.m n (p.word 0)) ∧ Moved s.m m3 := by
  refine (starts_of ⟨rfl, rfl⟩ h).mono fun m1 hd p ⟨hp, hi, hm⟩ => ?_
  simp only [Bool.and_eq_true, decide_eq_true_eq] at hp
  obtain ⟨m3, hr, _, hm3⟩ := read_ident n hi (p.word 0) [] hp.2
  exact ⟨hp.1, m3, by rw [hr, List.nil_append, hm.wordsAt], hm.trans hm3⟩

/-- A packet whose first word is not canonical. -/
theorem reads_fault {s : State} {P : Header → Packet → Bool} (n : Nat) (h : readsAs s ringQ (fun hd p => P hd p && !canonical (p.word 0)) = true) :
    Starts s ringQ fun m1 hd p => P hd p = true ∧ (∃ f, readVirtual 0 0 (n + 1) m1 (p.word 0) [] = .error f)
      ∧ ∀ k, ∃ f, locateFor (countRoot m1 0 0 0 1) 0 0 (p.word 0) k = .error f := by
  refine (starts_of ⟨rfl, rfl⟩ h).mono fun m1 hd p ⟨hp, _, _⟩ => ?_
  simp only [Bool.and_eq_true, Bool.not_eq_true'] at hp
  exact ⟨hp.1, ⟨_, read_fails m1 n _ [] hp.2⟩, fun k => ⟨_, locate_fails _ _ k hp.2⟩⟩

/-- A launch record like that of the program, at 0xA0000. -/
def launchAt (s : State) : State :=
  words 0xA0000 [0x10000, 0x20000, 64 + 16 * 2 ^ 32, 0, 1 + 2 ^ 32, 1, 0x200001 + 0x1000 * 2 ^ 32, 0, 0, 0, 0, 0, 2 ^ 32, 0] s

def launching (a : Nat) : State := ringState [hdr 2 2 0, 0, a, 0] 256 ringQ (launchAt base)

theorem launch_passes (s : State) (hs : s = launching 0xA0000) : Starts s ringQ fun m1 hd p => (hd.kind = 2 ∧ okStamp s p = true)
    ∧ ∃ m3 rec, readVirtual 0 0 32 m1 (p.word 0) [] = .ok (m3, rec) ∧ launchCause m3 0 0 (theCtx s) (p.word 0) rec = 0
      ∧ rootHasRoom m3 0 (LaunchRec.ofBytes rec).node (LaunchRec.ofBytes rec).stamp = true := by
  have hc : launchCause s.m 0 0 (theCtx s) 0xA0000 (wordsAt s.m 32 0xA0000) = 0 := by rw [hs]; decide +kernel
  have hw : (LaunchRec.ofBytes (wordsAt s.m 32 0xA0000)).wqlog = 0 := by rw [hs]; decide +kernel
  have hr : rootHasRoom s.m 0 (LaunchRec.ofBytes (wordsAt s.m 32 0xA0000)).node (LaunchRec.ofBytes (wordsAt s.m 32 0xA0000)).stamp = true := by rw [hs]; decide +kernel
  have hb : readsAs s ringQ (fun hd p => (decide (hd.kind = 2) && okStamp s p && decide (p.word 0 = 0xA0000)) && decide (p.word 0 + 8 * 32 ≤ 2 ^ 30)) = true := by
    rw [hs]; decide +kernel
  refine (reads_record 32 hb).mono fun m1 hd p ⟨hp, m3, h3, hm⟩ => ?_
  simp only [Bool.and_eq_true, decide_eq_true_eq] at hp
  rw [hp.2] at h3 ⊢
  exact ⟨hp.1, m3, _, h3, by rw [hm.launchCause _ _ _ _ _ hw]; exact hc, by rw [show rootHasRoom m3 = rootHasRoom s.m from hm.room]; exact hr⟩

/-- A LAUNCH passes its checks whatever counts the root holds. -/
theorem launch_any_root (s : State) (hs : s = launching 0xA0000) (r : List Count) :
    let m := (onM (fun m => { m with root := r }) s).m
    launchCause m 0 0 (theCtx s) 0xA0000 (wordsAt m 32 0xA0000) = 0 ∧ (LaunchRec.ofBytes (wordsAt m 32 0xA0000)).node = 0 := by
  intro m
  have hr : ∀ k a, readBytes m (.dev a) k = readBytes s.m (.dev a) k := by
    intro k
    induction k with
    | zero => intro _; rfl
    | succ k ih => intro a; simp only [readBytes, Loc.plus, ih]; rfl
  have e : ∀ n a, wordsAt m n a = wordsAt s.m n a := by
    intro n
    induction n with
    | zero => intro _; rfl
    | succ n ih => intro a; simp only [wordsAt, ih, hr]
  rw [e, show launchCause m = launchCause s.m from rfl, hs]
  exact by decide +kernel

/-- A LAUNCH for whose count the root has no room. -/
theorem full_launch (s : State) (hs : s = launching 0xA0000) :
    (let m := (fullRoot s).m
     launchCause m 0 0 (theCtx s) 0xA0000 (wordsAt m 32 0xA0000) = 0 ∧ (LaunchRec.ofBytes (wordsAt m 32 0xA0000)).node = 0)
    ∧ rootHasRoom (fullRoot s).m 0 0 0 = false :=
  ⟨launch_any_root s hs _, full_root s (by rw [hs]; decide +kernel)⟩

theorem witness_LaunchStarts_full : ∃ s, s = launching 0xA0000 ∧ rootHasRoom (fullRoot s).m 0 0 0 = false
    ∧ launchCause (fullRoot s).m 0 0 (theCtx s) 0xA0000 (wordsAt (fullRoot s).m 32 0xA0000) = 0 :=
  ⟨_, rfl, (full_launch _ rfl).2, (full_launch _ rfl).1.1⟩

theorem witness_LaunchStarts :
    Starts (launching 0xA0000) ringQ (fun m1 hd p => (hd.kind = 2 ∧ okStamp (launching 0xA0000) p = true)
      ∧ ∃ m3 rec, readVirtual 0 0 32 m1 (p.word 0) [] = .ok (m3, rec) ∧ launchCause m3 0 0 (theCtx (launching 0xA0000)) (p.word 0) rec = 0
        ∧ rootHasRoom m3 0 (LaunchRec.ofBytes rec).node (LaunchRec.ofBytes rec).stamp = true)
    ∧ Starts (launching 0xA1000) ringQ (fun m1 hd p => (hd.kind = 2 ∧ okStamp (launching 0xA1000) p = true)
      ∧ ∃ m3 rec, readVirtual 0 0 32 m1 (p.word 0) [] = .ok (m3, rec) ∧ launchCause m3 0 0 (theCtx (launching 0xA1000)) (p.word 0) rec ≠ 0)
    ∧ ∀ a ∈ [2 ^ 57, 2 ^ 57 + 1], Starts (launching a) ringQ fun m1 hd p => (hd.kind = 2 ∧ okStamp (launching a) p = true ∧ p.word 0 = a)
      ∧ ∃ f, readVirtual 0 0 32 m1 (p.word 0) [] = .error f := by
  refine ⟨launch_passes _ rfl, ?_, fun a ha => ?_⟩
  · have hc : launchCause (launching 0xA1000).m 0 0 (theCtx (launching 0xA1000)) 0xA1000 (wordsAt (launching 0xA1000).m 32 0xA1000) ≠ 0 := by decide +kernel
    have hw : (LaunchRec.ofBytes (wordsAt (launching 0xA1000).m 32 0xA1000)).wqlog = 0 := by decide +kernel
    have hb : readsAs (launching 0xA1000) ringQ (fun hd p => (decide (hd.kind = 2) && okStamp (launching 0xA1000) p && decide (p.word 0 = 0xA1000))
        && decide (p.word 0 + 8 * 32 ≤ 2 ^ 30)) = true := by decide +kernel
    refine (reads_record 32 hb).mono fun m1 hd p ⟨hp, m3, h3, hm⟩ => ?_
    simp only [Bool.and_eq_true, decide_eq_true_eq] at hp
    rw [hp.2] at h3 ⊢
    exact ⟨hp.1, m3, _, h3, by rw [hm.launchCause _ _ _ _ _ hw]; exact hc⟩
  · have h : ([2 ^ 57, 2 ^ 57 + 1].all fun a => readsAs (launching a) ringQ fun hd p =>
        (decide (hd.kind = 2) && okStamp (launching a) p && decide (p.word 0 = a)) && !canonical (p.word 0)) = true := by decide +kernel
    refine (reads_fault 31 (List.all_eq_true.1 h a ha)).mono fun m1 hd p ⟨hp, hf, _⟩ => ?_
    simp only [Bool.and_eq_true, decide_eq_true_eq] at hp
    exact ⟨⟨hp.1.1, hp.1.2, hp.2⟩, hf⟩

/-- The program with a work queue of 16 records, so many of them taken. -/
def feeding (count n target : Nat) : State :=
  ringState ([hdr 3 (2 + n) 0, 0, target, n] ++ List.replicate (2 * n) 7) 256 ringQ
    (kernWith (fun k => { k with wqBase := some 0, wqCount := count, lrec := { k.lrec with wq := true, wqlog := 4 } }) base)

theorem feeds {count n target : Nat} (s : State) (_ : s = feeding count n target) (r : Option Nat)
    (h : readsAs s ringQ (fun hd p => decide (hd.kind = 3) && okStamp s p && decide (((feedTarget s.m ringQ p).map Prod.fst) = r)
      && decide (p.word 1 % 2 ^ 16 = n) && !feedAhead ringQ p && decide (2 + 2 * n ≤ p.body.length)) = true) :
    Starts s ringQ fun m1 hd p => hd.kind = 3 ∧ okStamp s p = true ∧ (feedTarget m1 ringQ p).map Prod.fst = r ∧ p.word 1 % 2 ^ 16 = n
      ∧ feedAhead ringQ p = false ∧ 2 + 2 * n ≤ p.body.length := by
  refine (starts_of ⟨rfl, rfl⟩ h).mono fun m1 hd p ⟨hp, _, hm⟩ => ?_
  simp only [Bool.and_eq_true, decide_eq_true_eq, Bool.not_eq_true'] at hp
  rw [show feedTarget m1 ringQ p = feedTarget s.m ringQ p by rw [hm.rest]; rfl]
  exact ⟨hp.1.1.1.1.1, hp.1.1.1.1.2, hp.1.1.1.2, hp.1.1.2, hp.1.2, hp.2⟩

theorem witness_FeedStarts :
    (∀ x ∈ [(0, 1, 9, none), (0, 17, 7, some 0), (16, 1, 7, some 0), (15, 1, 7, some 0)], Starts (feeding x.1 x.2.1 x.2.2.1) ringQ fun m1 hd p =>
      hd.kind = 3 ∧ okStamp (feeding x.1 x.2.1 x.2.2.1) p = true ∧ (feedTarget m1 ringQ p).map Prod.fst = x.2.2.2 ∧ p.word 1 % 2 ^ 16 = x.2.1
      ∧ feedAhead ringQ p = false ∧ 2 + 2 * x.2.1 ≤ p.body.length)
    ∧ 2 ^ 4 < 17 ∧ 2 ^ 4 < 16 + 1 ∧ 15 + 1 ≤ 2 ^ 4 := by
  have h : ([(0, 1, 9, none), (0, 17, 7, some 0), (16, 1, 7, some 0), (15, 1, 7, some 0)].all fun x => readsAs (feeding x.1 x.2.1 x.2.2.1) ringQ fun hd p =>
      decide (hd.kind = 3) && okStamp (feeding x.1 x.2.1 x.2.2.1) p && decide (((feedTarget (feeding x.1 x.2.1 x.2.2.1).m ringQ p).map Prod.fst) = x.2.2.2)
      && decide (p.word 1 % 2 ^ 16 = x.2.1) && !feedAhead ringQ p && decide (2 + 2 * x.2.1 ≤ p.body.length)) = true := by decide +kernel
  exact ⟨fun x hx => feeds _ rfl _ (List.all_eq_true.1 h x hx), by decide, by decide, by decide⟩

/-- A WALK packet on an engine, whose record at 0xB0000 is that of the program's walks, or is of zeros. -/
def walkAsked (eng a target : Nat) : State :=
  ringState [hdr 4 3 0, 0, a, target, eng, 0] 256 ringQ (words 0xB0000 [2 + 2 * 2 ^ 32, 2, 2 ^ 32 + 2 * 2 ^ 16 + 2, flagsWord 0] base)

def walkReads (s : State) (a eng : Nat) (k : Option Nat) : Bool :=
  readsAs s ringQ (fun hd p => (decide (hd.kind = 4) && okStamp s p && decide (p.word 0 = a) && decide (p.word 2 % 256 = eng)
    && decide ((walkKernel s.m ringQ p).map Prod.fst = k)) && decide (p.word 0 + 8 * 32 ≤ 2 ^ 30))

theorem walk_asked (s : State) (a eng : Nat) (k : Option Nat) (h : walkReads s a eng k = true) :
    Starts s ringQ fun m1 hd p => hd.kind = 4 ∧ okStamp s p = true ∧ p.word 2 % 256 = eng ∧ (walkKernel m1 ringQ p).map Prod.fst = k
      ∧ ∃ m3 rec, readVirtual 0 0 32 m1 (p.word 0) [] = .ok (m3, rec)
        ∧ walkCause m3 (theCtx s) (theKern s) (p.word 0) 0 rec = walkCause s.m (theCtx s) (theKern s) a 0 (wordsAt s.m 32 a)
        ∧ rootHasRoom m3 0 (WalkRec.ofBytes rec).node (WalkRec.ofBytes rec).stamp = rootHasRoom s.m 0 (WalkRec.ofBytes (wordsAt s.m 32 a)).node (WalkRec.ofBytes (wordsAt s.m 32 a)).stamp
        ∧ (m3.engine 0).intake = (s.m.engine 0).intake := by
  obtain ⟨g1, g2, m1, hd, bs, g3, g4, g5, gi, gm⟩ := starts_of ⟨rfl, rfl⟩ h
  simp only [Bool.and_eq_true, decide_eq_true_eq] at g5
  obtain ⟨m3, hr, _, hm3⟩ := read_ident 32 gi ((newPacket ringQ hd bs).word 0) [] g5.2
  have hm := gm.trans hm3
  rw [List.nil_append, gm.wordsAt, g5.1.1.1.2] at hr
  refine ⟨g1, g2, m1, hd, bs, g3, g4, g5.1.1.1.1.1, g5.1.1.1.1.2, g5.1.1.2, ?_, m3, _, by rw [g5.1.1.1.2]; exact hr, ?_, ?_, ?_⟩
  · rw [show walkKernel m1 ringQ (newPacket ringQ hd bs) = walkKernel s.m ringQ (newPacket ringQ hd bs) by rw [gm.rest]; rfl]; exact g5.1.2
  · rw [g5.1.1.1.2, show walkCause m3 = walkCause s.m by rw [hm.rest]; rfl]
  · rw [show rootHasRoom m3 = rootHasRoom s.m from hm.room]
  · rw [show m3.engine 0 = s.m.engine 0 by rw [hm.rest]; rfl]

theorem witness_WalkPacketStarts :
    (∀ x ∈ [(0, 7, some 0), (129, 7, some 0), (1, 9, none)], walkReads (walkAsked x.1 0xB0000 x.2.1) 0xB0000 x.1 x.2.2 = true)
    ∧ (walkReads (walkAsked 1 0xB0000 7) 0xB0000 1 (some 0) = true
      ∧ walkCause (walkAsked 1 0xB0000 7).m (theCtx (walkAsked 1 0xB0000 7)) (theKern (walkAsked 1 0xB0000 7)) 0xB0000 0 (wordsAt (walkAsked 1 0xB0000 7).m 32 0xB0000) = 0
      ∧ ((walkAsked 1 0xB0000 7).m.engine 0).intake.length < 32)
    ∧ (walkReads (walkAsked 128 0xB1000 7) 0xB1000 128 (some 0) = true
      ∧ walkCause (walkAsked 128 0xB1000 7).m (theCtx (walkAsked 128 0xB1000 7)) (theKern (walkAsked 128 0xB1000 7)) 0xB1000 0 (wordsAt (walkAsked 128 0xB1000 7).m 32 0xB1000) ≠ 0)
    ∧ ∀ a ∈ [2 ^ 57, 2 ^ 57 + 1], Starts (walkAsked 1 a 7) ringQ fun m1 hd p => (hd.kind = 4 ∧ okStamp (walkAsked 1 a 7) p = true ∧ p.word 0 = a)
      ∧ ∃ f, readVirtual 0 0 32 m1 (p.word 0) [] = .error f := by
  refine ⟨by decide +kernel, by decide +kernel, by decide +kernel, fun a ha => ?_⟩
  have h : ([2 ^ 57, 2 ^ 57 + 1].all fun a => readsAs (walkAsked 1 a 7) ringQ fun hd p =>
      (decide (hd.kind = 4) && okStamp (walkAsked 1 a 7) p && decide (p.word 0 = a)) && !canonical (p.word 0)) = true := by decide +kernel
  refine (reads_fault 31 (List.all_eq_true.1 h a ha)).mono fun m1 hd p ⟨hp, hf, _⟩ => ?_
  simp only [Bool.and_eq_true, decide_eq_true_eq] at hp
  exact ⟨⟨hp.1.1, hp.1.2, hp.2⟩, hf⟩

/-- The stamp and the input hold of a packet, as R299 and R401 test them. -/
def justifiedBy (s : State) (p : Packet) : Bool := inputJustifies (theCtx s) p.node p.stamp

def waiting (w0 w1 : Nat) (s : State) : State := ringState [hdr 5 3 0, 0, w0, w1, 0, 0] 256 ringQ s

def waitOk (p : Packet) : Bool :=
  (p.word 0 % 4 = 0 && p.word 0 / 2 ^ 8 % 2 ^ 3 < 6 && p.word 1 % 8 = 0) || p.word 0 % 4 = 1

theorem witness_WaitPacketStarts : ∀ x ∈ [(0x500, 0x30000, true), (1, 0, true), (0x600, 0x30000, false), (0, 0x30004, false), (2, 0, false)],
    Starts (waiting x.1 x.2.1 base) ringQ fun m1 hd p => (decide (hd.kind = 5) && okStamp base p && (waitOk p == x.2.2)) = true
      ∧ Ident m1 ∧ Moved (waiting x.1 x.2.1 base).m m1 := by
  have h : ([(0x500, 0x30000, true), (1, 0, true), (0x600, 0x30000, false), (0, 0x30004, false), (2, 0, false)].all fun x =>
      readsAs (waiting x.1 x.2.1 base) ringQ fun hd p => decide (hd.kind = 5) && okStamp base p && (waitOk p == x.2.2)) = true := by decide +kernel
  exact fun x hx => starts_of ⟨rfl, rfl⟩ (List.all_eq_true.1 h x hx)

def noInput (s : State) : State := ctxWith (fun c => { c with input := none }) s

def signalling (va op : Nat) (s : State) : State := ringState [hdr 6 3 0, 0, va, 5, op, 0] 256 ringQ s

theorem signal_located {va op : Nat} (s : State) (_ : s = signalling va op base)
    (h : readsAs s ringQ (fun hd p => decide (hd.kind = 6) && okStamp s p && justifiedBy s p && rootHasRoom s.m 0 0 0 && decide (p.word 0 = va) && decide (p.word 2 = op)
      && decide (va % 8 = 0 ∧ op ≤ 1 ∧ va + 8 ≤ 2 ^ 30)) = true) :
    Starts s ringQ fun m1 hd p => hd.kind = 6 ∧ okStamp s p = true ∧ justifiedBy s p = true ∧ rootHasRoom m1 0 0 0 = true ∧ p.word 0 % 8 = 0 ∧ p.word 2 = op ∧ op ≤ 1
      ∧ ∀ k, k = .atomic ∨ k = .write → ∃ m3 l, locateFor (countRoot m1 0 0 0 1) 0 0 (p.word 0) k = .ok (m3, l) ∧ plainAt m3 l 8 := by
  refine (starts_of ⟨rfl, rfl⟩ h).mono fun m1 hd p ⟨hp, hi, hm⟩ => ?_
  simp only [Bool.and_eq_true, decide_eq_true_eq] at hp
  obtain ⟨⟨⟨⟨⟨⟨p1, p2⟩, p3⟩, p4⟩, p5⟩, p6⟩, p7⟩ := hp
  refine ⟨p1, p2, p3, by rw [hm.room]; exact p4, by rw [p5]; exact p7.1, p6, p7.2.1, fun k hk => ?_⟩
  obtain ⟨m3, hl, _, _⟩ := locate_ident hi.counted (p.word 0) (by omega) k (by rcases hk with rfl | rfl <;> decide)
  exact ⟨m3, _, hl, by show p.word 0 + 8 ≤ devTop; unfold devTop; omega⟩

theorem witness_SignalStarts :
    (∀ op ∈ [0, 1], Starts (signalling 0x30000 op base) ringQ fun m1 hd p => hd.kind = 6 ∧ okStamp (signalling 0x30000 op base) p = true
      ∧ justifiedBy (signalling 0x30000 op base) p = true ∧ rootHasRoom m1 0 0 0 = true ∧ p.word 0 % 8 = 0 ∧ p.word 2 = op ∧ op ≤ 1
      ∧ ∀ k, k = .atomic ∨ k = .write → ∃ m3 l, locateFor (countRoot m1 0 0 0 1) 0 0 (p.word 0) k = .ok (m3, l) ∧ plainAt m3 l 8)
    ∧ (∀ x ∈ [(0x30004, 0), (0x30000, 2)], Starts (signalling x.1 x.2 base) ringQ fun m1 hd p =>
      (decide (hd.kind = 6) && okStamp base p && justifiedBy base p && (decide (p.word 0 % 8 ≠ 0) || decide (1 < p.word 2))) = true ∧ Ident m1
      ∧ Moved (signalling x.1 x.2 base).m m1)
    ∧ (∀ op ∈ [0, 1], Starts (signalling (2 ^ 57) op base) ringQ fun m1 hd p => (decide (hd.kind = 6) && okStamp base p && decide (p.word 0 % 8 = 0) && decide (p.word 2 = op)) = true
      ∧ (∃ f, readVirtual 0 0 1 m1 (p.word 0) [] = .error f) ∧ ∀ k, ∃ f, locateFor (countRoot m1 0 0 0 1) 0 0 (p.word 0) k = .error f)
    ∧ Starts (signalling 0x30000 0 (noInput base)) ringQ fun m1 hd p => (decide (hd.kind = 6) && okStamp base p && !justifiedBy (noInput base) p) = true
      ∧ Ident m1 ∧ Moved (signalling 0x30000 0 (noInput base)).m m1 := by
  have h1 : ([0, 1].all fun op => readsAs (signalling 0x30000 op base) ringQ fun hd p => decide (hd.kind = 6) && okStamp (signalling 0x30000 op base) p
      && justifiedBy (signalling 0x30000 op base) p && rootHasRoom (signalling 0x30000 op base).m 0 0 0 && decide (p.word 0 = 0x30000) && decide (p.word 2 = op)
      && decide (0x30000 % 8 = 0 ∧ op ≤ 1 ∧ 0x30000 + 8 ≤ 2 ^ 30)) = true := by decide +kernel
  have h2 : ([(0x30004, 0), (0x30000, 2)].all fun x => readsAs (signalling x.1 x.2 base) ringQ fun hd p =>
      decide (hd.kind = 6) && okStamp base p && justifiedBy base p && (decide (p.word 0 % 8 ≠ 0) || decide (1 < p.word 2))) = true := by decide +kernel
  have h3 : ([0, 1].all fun op => readsAs (signalling (2 ^ 57) op base) ringQ fun hd p =>
      (decide (hd.kind = 6) && okStamp base p && decide (p.word 0 % 8 = 0) && decide (p.word 2 = op)) && !canonical (p.word 0)) = true := by decide +kernel
  exact ⟨fun op ho => signal_located _ rfl (List.all_eq_true.1 h1 op ho), fun x hx => starts_of ⟨rfl, rfl⟩ (List.all_eq_true.1 h2 x hx),
    fun op ho => reads_fault 0 (List.all_eq_true.1 h3 op ho), starts_of ⟨rfl, rfl⟩ (by decide +kernel)⟩

def fronting (w0 : Nat) (s : State) : State := ringState [hdr 7 2 0, 0, w0, 0] 256 ringQ s

/-- A context whose one floor is ⊤. -/
def topFloor (s : State) : State := ctxWith (fun c => { c with floors := [.top] }) s

def regresses (s : State) (p : Packet) : Bool :=
  (List.range (theCtx s).nodes.length).any fun n => (summaryIn (theCtx s).sums p.node n p.stamp).ltF ((theCtx s).floorAt n)

theorem witness_FrontStarts : ∀ x ∈ [(1, base), (0, noInput base), (0, topFloor base), (0, base)], Starts (fronting x.1 x.2) ringQ fun m1 hd p =>
    (decide (hd.kind = 7) && okStamp (fronting x.1 x.2) p && decide (p.word 0 = x.1)
      && (decide (x.2 = base) == ((theCtx (fronting x.1 x.2)).input.isSome && !regresses (fronting x.1 x.2) p))) = true ∧ Ident m1 ∧ Moved (fronting x.1 x.2).m m1 := by
  have h : ([(1, base), (0, noInput base), (0, topFloor base), (0, base)].all fun x => readsAs (fronting x.1 x.2) ringQ fun hd p =>
      decide (hd.kind = 7) && okStamp (fronting x.1 x.2) p && decide (p.word 0 = x.1)
      && (decide (x.2 = base) == ((theCtx (fronting x.1 x.2)).input.isSome && !regresses (fronting x.1 x.2) p))) = true := by decide +kernel
  exact fun x hx => starts_of ⟨rfl, rfl⟩ (List.all_eq_true.1 h x hx)

def copying (src n : Nat) (s : State) : State := ringState [hdr 8 3 0, 0, src, 0x30000, n, 0] 256 ringQ s

def copyOk (p : Packet) : Bool := p.word 0 % 4 = 0 && p.word 1 % 4 = 0 && p.word 2 % 2 ^ 24 % 4 = 0

theorem witness_CopyStarts : ∀ x ∈ [(0x40000, 16, base, true), (0x40002, 16, base, false), (0x40000, 15, base, false), (2 ^ 57, 4, base, true), (0x40000, 0, noInput base, true)],
    Starts (copying x.1 x.2.1 x.2.2.1) ringQ fun m1 hd p => (decide (hd.kind = 8) && okStamp base p && (copyOk p == x.2.2.2) && (justifiedBy x.2.2.1 p == decide (x.2.2.1 = base))
      && rootHasRoom x.2.2.1.m 0 0 0) = true ∧ Ident m1 ∧ Moved (copying x.1 x.2.1 x.2.2.1).m m1 := by
  have h : ([(0x40000, 16, base, true), (0x40002, 16, base, false), (0x40000, 15, base, false), (2 ^ 57, 4, base, true), (0x40000, 0, noInput base, true)].all fun x =>
      readsAs (copying x.1 x.2.1 x.2.2.1) ringQ fun hd p => decide (hd.kind = 8) && okStamp base p && (copyOk p == x.2.2.2)
        && (justifiedBy x.2.2.1 p == decide (x.2.2.1 = base)) && rootHasRoom x.2.2.1.m 0 0 0) = true := by decide +kernel
  exact fun x hx => starts_of ⟨rfl, rfl⟩ (List.all_eq_true.1 h x hx)

/-! What else the slot finds. -/

theorem at_empty {m : Mach} (hi : Ident m) (q : Queue) (hq : q.core = 0 ∧ q.ctx = 0) (ht : q.taddr.toNat + 8 ≤ 2 ^ 30) (h : aheadOf m q = 0) :
    (∃ m1 tail, readTail m q = .ok (m1, tail)) ∧ ∃ m1, (atHead m q fun _ => true) = .empty m1 := by
  obtain ⟨m1, e1, _, _⟩ := tail_ident hi q hq ht
  refine ⟨⟨m1, _, e1⟩, m1, ?_⟩
  unfold atHead
  simp only [e1]
  rw [show signed 64 ((Machine.ofBytes (wordsAt m 1 q.taddr.toNat) + 2 ^ 64 - q.head % 2 ^ 64) % 2 ^ 64) = aheadOf m q from rfl, h]
  rw [if_neg (by simp; exact Int.ediv_nonneg (Int.pow_nonneg (by decide)) (by decide)), if_pos rfl]

/-- The queue with its tail word at another address. -/
def tailQ (a : Nat) : Queue := { ringQ with taddr := BitVec.ofNat 64 a }

/-- A queue whose tail word lies behind port 5: what the port gives and what it holds are all ones, one unit ahead of head. -/
def polledQ : Queue := { tailQ 0x40001000 with head := 2 ^ 64 - 2 }

/-- The program with its first two GiB mapped, the second to port 5, where the tail of the queue lies. -/
def polled : State :=
  onM (fun m => { writeNat m (.ext 5 0x200000001000) 8 (2 ^ 64 - 1) with queues := [(3, polledQ)] }) (words 0x80FE0 [hdr 0 1 0, 0] (routed base))

theorem witness_WhatTheSlotFinds :
    (let s := ringState [] 0 ringQ base;
      tailWatched s.m ringQ = true ∧ (∃ m1 tail, readTail s.m ringQ = .ok (m1, tail)) ∧ ∃ m1, (atHead s.m ringQ fun _ => true) = .empty m1)
    ∧ (let s := ringState [hdr 10 1 0, 0] 1 ringQ base;
      tailWatched s.m ringQ = true ∧ ∃ m1, (atHead s.m ringQ fun _ => true) = .halt m1 3)
    ∧ (let s := ringState [] 1 (tailQ (2 ^ 57)) base;
      tailWatched s.m (tailQ (2 ^ 57)) = true ∧ ∃ m1, readTail s.m (tailQ (2 ^ 57)) = .error m1)
    ∧ (({ ringQ with packets := [{ newPacket ringQ (headerAt base.m ringQ) [] with kind := 5, st := .waiting }] } : Queue).packets.any (fun x => x.kind = 5 && x.st = .waiting) = true
      ∧ ringQ.packets.any (fun x => x.kind = 5 && x.st = .waiting) = false)
    ∧ (2 ^ ringQ.szlog / 16 < 257 ∧ ringQ.szlog ≤ 24 ∧ ringQ.head < 2 ^ 64 ∧ ringQ.st = .mapped ∧ ctxServed base.m ringQ.ctx = true) := by
  refine ⟨⟨by decide +kernel, at_empty (ident_of (by decide +kernel)).1 _ ⟨rfl, rfl⟩ (by decide) (by decide +kernel)⟩,
    ⟨by decide +kernel, (at_head (ident_of (by decide +kernel)).1 _ ⟨rfl, rfl⟩ (by decide +kernel) (by decide +kernel) (by decide +kernel)).2 3 (by decide +kernel)⟩,
    ⟨by decide +kernel, _, tail_fails _ ⟨rfl, rfl⟩ (by decide)⟩, by decide +kernel⟩

def identT (m : Mach) : Bool :=
  ((aget m.ctxs 0).map Context.root) == some (some 0x1000) && readNat m (.dev 0x1000) 8 == 0x2001 && readNat m (.dev 0x2000) 8 == 0x3001
    && readNat m (.dev 0x3000) 8 == 0x7F && ((m.core 0).tlb ++ (m.cluster 0).tlb).all (fun t => decide (t = leafT) || decide (2 ^ 30 ≤ t.base))
    && (m.die 0).wcache.all fun w => decide (w = table3) || decide (w = table2)

theorem ident_after {m : Mach} (h : identT m = true) : Ident m := by
  simp only [identT, Bool.and_eq_true, beq_iff_eq, Option.map_eq_some_iff, List.all_eq_true, Bool.or_eq_true, decide_eq_true_eq] at h
  obtain ⟨⟨⟨⟨⟨h0, h1⟩, h2⟩, h3⟩, h4⟩, h5⟩ := h
  exact ⟨h0, h1, h2, h3, h4, h5⟩

/-- Reading a tail behind a port, whether the access completes or is ended: all ones, and what memory held before. -/
theorem polled_tail {m0 : Mach} {far : Nat} (h : locateFor polled.m 0 0 0x40001000 .read = .ok (m0, .ext 5 far)) (hi : Ident m0)
    (hu : ((m0.ports[5]?).map Port.inUse).getD false = false) (hb : readBytes m0 (.ext 5 far) 8 = List.replicate 8 0xFF) :
    ∃ m1, readTail polled.m polledQ = .ok (m1, 2 ^ 64 - 1) ∧ Ident m1 ∧ ∀ n a, wordsAt m1 n a = wordsAt m0 n a := by
  have e : ∀ m1, farRead m0 (.ext 5 far) 8 = (m1, List.replicate 8 0xFF) → readTail polled.m polledQ = .ok (m1, 2 ^ 64 - 1) := fun m1 hf => by
    have hr : readVirtual 0 0 1 polled.m 0x40001000 [] = .ok (m1, List.replicate 8 0xFF) := by
      simp only [readVirtual, h, hf, List.nil_append]
    simp only [readTail, show polledQ.core = 0 from rfl, show polledQ.ctx = 0 from rfl, show polledQ.taddr.toNat = 0x40001000 from rfl, hr]
    rfl
  have keep : ∀ (m1 : Mach), m1 = { m0 with ports := m1.ports, free := m1.free } → Ident m1 ∧ ∀ n a, wordsAt m1 n a = wordsAt m0 n a := fun m1 hm => by
    have er : ∀ n a, readBytes m1 (.dev a) n = readBytes m0 (.dev a) n := by
      intro n
      induction n with
      | zero => intro _; rfl
      | succ n ih => intro a; simp only [readBytes, Loc.plus, ih]; rw [hm]; rfl
    have ew : ∀ n a, wordsAt m1 n a = wordsAt m0 n a := by
      intro n
      induction n with
      | zero => intro _; rfl
      | succ n ih => intro a; simp only [wordsAt, ih, er]
    have en : ∀ a, readNat m1 (.dev a) 8 = readNat m0 (.dev a) 8 := fun a => by unfold readNat; rw [er]
    exact ⟨⟨by rw [hm]; exact hi.root, by rw [en]; exact hi.e4, by rw [en]; exact hi.e3, by rw [en]; exact hi.e2, by rw [hm]; exact hi.tlb, by rw [hm]; exact hi.wc⟩, ew⟩
  cases hf : farEnds m0 (.ext 5 far) 8 with
  | some p =>
    have : farRead m0 (.ext 5 far) 8 = ((countEnded m0 p).bump, List.replicate 8 0xFF) := by simp only [farRead, hf]
    exact ⟨_, e _ this, keep _ rfl⟩
  | none =>
    have hk : keepLines m0.bump 5 far 8 = m0.bump := by
      have : ((m0.bump.ports[5]?).map Port.inUse).getD false = false := hu
      unfold keepLines
      rw [this]
      rfl
    have : farRead m0 (.ext 5 far) 8 = (m0.bump, List.replicate 8 0xFF) := by simp only [farRead, hf, hk, hb]
    exact ⟨_, e _ this, keep _ rfl⟩

/-- A queue whose tail lies behind a Brixolink port is read at intervals. -/
theorem witness_TailPolled : tailWatched polled.m polledQ = false ∧ aget polled.m.queues 3 = some polledQ ∧ ctxServed polled.m 0 = true
    ∧ ∃ m1 h bs, (atHead polled.m polledQ fun _ => true) = .packet m1 h bs ∧ h.kind = 0 ∧ mayStart polledQ h = true := by
  have ht : okThat (fun x => decide (x.2 = .ext 5 0x200000001000) && identT x.1 && ((x.1.ports[5]?).map Port.inUse).getD false == false
      && decide (readBytes x.1 x.2 8 = List.replicate 8 0xFF) && decide (headerAt x.1 polledQ = { kind := 0, bar := false, cpl := false, len := 1, node := 0, res := 0, stamp := 0 })
      && decide (laterCauses x.1 polledQ = [])) (locateFor polled.m 0 0 0x40001000 .read) = true := by decide +kernel
  obtain ⟨⟨m0, l⟩, hl, hp⟩ := of_okThat ht
  simp only [Bool.and_eq_true, decide_eq_true_eq, beq_iff_eq] at hp
  obtain ⟨⟨⟨⟨⟨rfl, h1⟩, h2⟩, h3⟩, h4⟩, h5⟩ := hp
  obtain ⟨m1, e, i, w⟩ := polled_tail hl (ident_after h1) h2 h3
  have hh : headerAt m1 polledQ = { kind := 0, bar := false, cpl := false, len := 1, node := 0, res := 0, stamp := 0 } := by
    rw [← h4]; unfold headerAt; rw [w]
  have hl : laterCauses m1 polledQ = [] := by
    rw [← h5]; unfold laterCauses bytesOfHead; rw [hh, h4, w]
  have h := (after_tail e i ⟨rfl, rfl⟩ 1 (by decide) (by decide) (by decide) (by decide) (by rw [hh]; decide) fun _ => true).1
    (by unfold causesAt; rw [hh]; decide) hl (by rw [hh]; decide) (by rw [hh]; decide) rfl
  obtain ⟨m2, e, _, _⟩ := h
  exact ⟨by decide +kernel, by decide +kernel, by decide +kernel, m2, _, _, e, by rw [hh], by rw [hh]; decide⟩

/-- A descriptor of a queue at 0x90000. -/
def queueDesc (saddr : Nat) (s : State) : State :=
  onM (fun m => setCp m 0 fun c => { c with qarg := 0x90000 }) (words 0x90000 [0x80000, 0x8F000, saddr, 12] s)

def descQueue (s : State) : Option Queue := readQueue (readBytes s.m (.dev (s.m.cp 0).qarg.toNat) 64)

theorem length_toBytes (n : Nat) : ∀ x, (toBytes n x).length = n := by
  induction n with
  | zero => intro x; rfl
  | succ n ih => intro x; simp [toBytes, ih]

theorem open_ident {s : State} {q : Queue} (h : identB s.m = true) (hq : q.core = 0 ∧ q.ctx = 0) (ht : q.taddr.toNat + 8 ≤ 2 ^ 30)
    (hs : 0x4000 ≤ q.saddr.toNat ∧ q.saddr.toNat + 16 < 2 ^ 30) : ∃ r, openQueue s.m q = .ok r := by
  obtain ⟨m1, e1, i1, v1⟩ := tail_ident (ident_of h).1 q hq ht
  have hn : m1.indet = [] := by rw [v1.rest]; exact (ident_of h).2
  obtain ⟨m2, e2⟩ := write_ident [toBytes 8 (Machine.ofBytes (wordsAt s.m 1 q.taddr.toNat)), toBytes 8 q.statusWord] i1 hn q.saddr.toNat hs.1
    (by simp only [List.flatten_cons, List.flatten_nil, List.append_nil, List.length_append, length_toBytes]; omega)
  have e3 : writeVirtual q.core q.ctx [toBytes 8 (Machine.ofBytes (wordsAt s.m 1 q.taddr.toNat)), toBytes 8 q.statusWord] m1 q.saddr.toNat = .ok m2 := by
    rw [hq.1, hq.2]; exact e2
  have hc : ∀ x, Queue.core { q with head := x } = q.core := fun _ => rfl
  have hw : ∀ x, Queue.statusWord { q with head := x } = q.statusWord := fun _ => rfl
  unfold openQueue
  simp only [e1, hc, hw, e3]
  exact ⟨_, rfl⟩

def fullQueues (k : Nat) : State := onM (fun m => { m with queues := (List.range k).map fun n => (n, ringQ) }) base

theorem full_queues (k n : Nat) (h : n < k) : (aget (fullQueues k).m.queues n).isSome = true := aget_range _ k n h

theorem witness_QueueCommands :
    (let s := queueDesc 0x8F040 base;
      (s.m.cp 0).qarg.toNat % 64 = 0 ∧ target s.m (s.m.cp 0).qarg.toNat = some (.dev 0x90000) ∧ (farRead s.m (.dev 0x90000) 64).1 = s.m
      ∧ readQueue (farRead s.m (.dev 0x90000) 64).2 = descQueue s ∧ descQueue s = some { ringQ with st := .unmapped, slot := none, launches := [] }
      ∧ ctxTakesQueues s.m 0 = true ∧ aget s.m.queues 0 = none ∧ ∃ r, openQueue s.m { ringQ with st := .unmapped, slot := none, launches := [] } = .ok r)
    ∧ (let s := queueDesc (2 ^ 57) base;
      descQueue s = some { ringQ with st := .unmapped, slot := none, launches := [], saddr := 2 ^ 57 }
      ∧ fails (openQueue s.m { ringQ with st := .unmapped, slot := none, launches := [], saddr := 2 ^ 57 }) = true)
    ∧ (target base.m (2 ^ 50) = none ∧ target base.m (2 ^ 51) = none)
    ∧ (descQueue (queueDesc 0x8F044 base) = none ∧ ctxTakesQueues (ctxWith (fun c => { c with st := .saved }) base).m 0 = false)
    ∧ (∀ n, n < 4096 → (aget (fullQueues 4096).m.queues n).isSome = true)
    ∧ ((∀ st ∈ [QState.halted, .draining, .mapped], aget (ringState [] 0 { ringQ with st := st } base).m.queues 3 = some { ringQ with st := st })
      ∧ aget (ringState [] 0 ringQ base).m.queues 4 = none) := by
  refine ⟨⟨by decide +kernel, by decide +kernel, rfl, rfl, by decide +kernel, by decide +kernel, by decide +kernel, ?_⟩, by decide +kernel, by decide +kernel, by decide +kernel,
    full_queues 4096, by decide +kernel⟩
  · exact open_ident (by decide +kernel) ⟨rfl, rfl⟩ (by decide) ⟨by decide, by decide⟩

/-- An unmapped queue with a packet at head. -/
def pendQ : Queue := { ringQ with st := .unmapped, slot := none }

/-- A module whose first k slots serve a queue each, with that queue pending. -/
def busySlots (k : Nat) : State := onM (fun m => { m with queues := ((List.range k).map fun n => (n, { ringQ with slot := some n })) ++ [(300, pendQ)] }) (ringState [] 1 pendQ base)

theorem busy_slots (k n : Nat) (h : n < k) : ∃ kq ∈ (busySlots k).m.queues, kq.2.slot = some n :=
  ⟨(n, { ringQ with slot := some n }), List.mem_append_left _ (List.mem_map.2 ⟨n, List.mem_range.2 h, rfl⟩), rfl⟩

theorem witness_SlotsAndClasses :
    (let s := ringState [] 1 pendQ base;
      aget s.m.queues 3 = some pendQ ∧ pendingQueue s.m pendQ = true ∧ (∀ kq ∈ s.m.queues, pendQ.cls = kq.2.cls ∧ kq.2.longer pendQ = false) ∧ (∀ kq ∈ s.m.queues, kq.2.slot ≠ some 3)
      ∧ (3 % 32 < 16 ∧ 3 % 32 / 4 = pendQ.cls) ∧ ¬ (4 % 32 / 4 = pendQ.cls) ∧ pendingQueue s.m ringQ = false)
    ∧ ((∀ k, k < 256 → ∃ kq ∈ (busySlots 256).m.queues, kq.2.slot = some k) ∧ pendingQueue (busySlots 256).m pendQ = true ∧ (300, pendQ) ∈ (busySlots 256).m.queues
      ∧ (∃ m1 tail, readTail (busySlots 256).m { ringQ with head := 1 } = .ok (m1, tail) ∧ tail % 2 ^ 64 = 1 % 2 ^ 64)
      ∧ (aget (busySlots 3).m.queues 2).map Queue.st = some .mapped) := by
  have hi : identB (busySlots 256).m = true := by decide +kernel
  obtain ⟨m1, e, _, _⟩ := tail_ident (ident_of hi).1 { ringQ with head := 1 } ⟨rfl, rfl⟩ (by decide)
  have ht : Machine.ofBytes (wordsAt (busySlots 256).m 1 ({ ringQ with head := 1 } : Queue).taddr.toNat) = 1 := by decide +kernel
  refine ⟨by decide +kernel, busy_slots 256, by decide +kernel, List.mem_append_right _ (List.mem_singleton.2 rfl), ⟨m1, _, e, by rw [ht]⟩, by decide +kernel⟩

/-- A packet that has started. -/
def packetOf (pos kind : Nat) (st : PState) (body : List Dword) : Packet :=
  { pos := pos, kind := kind, bar := false, node := 0, stamp := 0, cpl := none, body := body, st := st, ref := none, held := false }

def holding (ps : List Packet) (st : QState) (s : State) : State := ringState [] 0 { ringQ with packets := ps, st := st } s

/-- An intake with n walks. -/
def intakeOf (n : Nat) (s : State) : State := onM (fun m => m.setEngine 0 { m.engine 0 with intake := List.replicate n 9 }) s

theorem witness_WaitingPackets :
    (∀ kind ∈ [3, 4, 5], ({ ringQ with packets := [packetOf 5 kind .waiting []] } : Queue).packet 5 = some (packetOf 5 kind .waiting []))
    ∧ (32 ≤ ((intakeOf 32 base).m.engine 0).intake.length ∧ ((intakeOf 31 base).m.engine 0).intake.length < 32 ∧ { packetOf 5 4 .waiting [] with ref := some 0 }.ref = some 0)
    ∧ (∀ st ∈ [QState.mapped, .blocked, .halted, .draining], (aget (holding [packetOf 5 5 .waiting [1, 0, 0]] st base).m.queues 3).map Queue.st = some st)
    ∧ ((packetOf 5 5 .waiting [1, 0, 0]).word 0 % 4 = 1 ∧ ((theCtx base).floorAt 0).above 0 = false ∧ ((theCtx (topFloor base)).floorAt 0).above 0 = true)
    ∧ (∃ f, readVirtual 0 0 1 base.m (2 ^ 57) [] = .error f)
    ∧ (∃ m1 bs, readVirtual 0 0 1 base.m 0x30000 [] = .ok (m1, bs) ∧ waitCond 0 (BitVec.ofNat 64 (Machine.ofBytes bs)) 0 = true
      ∧ waitCond 1 (BitVec.ofNat 64 (Machine.ofBytes bs)) 0 = false) := by
  refine ⟨by decide +kernel, by decide +kernel, by decide +kernel, by decide +kernel, ⟨_, read_fails _ 0 _ [] (by decide)⟩, ?_⟩
  obtain ⟨m1, e, _, _⟩ := read_ident 1 (ident_of (m := base.m) (by decide +kernel)).1 0x30000 [] (by decide)
  have h : wordsAt base.m 1 0x30000 = List.replicate 8 0 := by decide +kernel
  exact ⟨m1, _, e, by rw [h]; decide, by rw [h]; decide⟩

/-- A packet done, whose completion block lies at 0x30000, and that holds a count or not. -/
def donePacket (held : Bool) : Packet := { packetOf 5 6 (.done 0) [] with held := held, cpl := some (0x30000, 7) }

theorem witness_Completion :
    (∀ held ∈ [true, false], ({ ringQ with packets := [donePacket held] } : Queue).packet 5 = some (donePacket held) ∧ (donePacket held).st = .done 0)
    ∧ (ctxCompletes base.m 0 = true ∧ (packetOf 5 9 .running []).kind = 9 ∧ (packetOf 5 9 .running []).st = .running
      ∧ ({ ringQ with packets := [packetOf 5 9 .running []] } : Queue).packets.head?.map Packet.pos = some 5)
    ∧ [packetOf 5 9 .running [], packetOf 6 0 .running []].Pairwise (fun a b => a.pos ≠ b.pos)
    ∧ (packetOf 5 6 (.done 0) []).cpl = none
    ∧ (let s := holding [donePacket true] .mapped base;
      ∃ m1 m2 l1 l2, locateFor (s.m.setQueue 3 ringQ) 0 0 ((0x30000 : Dword) + 8).toNat .write = .ok (m1, l1)
        ∧ locateFor (farWrite m1 l1 (bytesOf 8 0)) 0 0 (0x30000 : Dword).toNat .write = .ok (m2, l2) ∧ (∀ port far, l2 ≠ .ext port far)
        ∧ ∀ k, k < 8 → ∀ j, j < 8 → (l1.plus k).key ≠ (l2.plus j).key) := by
  refine ⟨by decide +kernel, by decide +kernel, by decide, rfl, ?_⟩
  have hi : identB ((holding [donePacket true] .mapped base).m.setQueue 3 ringQ) = true := by decide +kernel
  obtain ⟨m1, e1, i1, v1⟩ := locate_ident (ident_of hi).1 0x30008 (by decide) .write (by decide)
  have hn : m1.indet = [] := by rw [v1.rest]; exact (ident_of hi).2
  obtain ⟨m2, e2, _, _⟩ := locate_ident (i1.stored (bytesOf 8 0) hn 0x30008 (by decide)).1 0x30000 (by decide) .write (by decide)
  refine ⟨m1, m2, _, _, e1, e2, fun _ _ h => (nomatch h), fun k hk j hj => ?_⟩
  show 0x30008 + k ≠ 0x30000 + j
  omega

/-- Port 5 as it is given. -/
def portIs (x : Port) (s : State) : State := onM (fun m => { m with ports := m.ports.set 5 x }) s

def portIn (st : LState) : Port := { Port.reset with en := true, st := st }

/-- Ports 1 to n in use as CXL ports. -/
def cxlPorts (n : Nat) (s : State) : State :=
  onM (fun m => (List.range n).foldl (fun m k => { m with ports := m.ports.set! (k + 1) { portIn .up with pers := true, inUse := true } }) m) s

def cxlInUse (s : State) (p : Nat) : Nat := ((List.range 18).filter fun q => q != p && (s.m.port q).inUse && (s.m.port q).st != .down).length

def gOut (ws : List (Nat × Nat)) : Group := gAt 0 (.pending ws [])

/-- A posted store of four bytes, or one still to be acknowledged alone. -/
def pstFour : Pst := { pstOf 2 with left := [(0, [1, 2, 3, 4])] }

/-- The context's budget on port 5 spent in one direction. -/
def spentOn (dir : Nat) (s : State) : State :=
  onM (fun m => { m with flitBudget := [(0, 3)], ports := m.ports.set 5 { portIn .up with flits := [(2 * 0 + dir, 3)] } }) s

def withPst (x : Pst) (s : State) : State := onM (fun m => { m with psts := [(7, x)] }) s

theorem witness_LinksAndTraffic :
    (amapWf base.m.groups = true ∧ amapWf base.m.psts = true ∧ amapWf (withPst (pstOf 2) base).m.psts = true)
    ∧ ((base.m.port 5).st = .down ∧ cxlInUse base 5 = 0 ∧ cxlInUse (cxlPorts 4 base) 5 = 4 ∧ ∀ st ∈ [LState.training, .up, .degraded, .fenced], ((portIs (portIn st) base).m.port 5).st = st)
    ∧ ((∀ ky ∈ base.m.psts, ¬ (ky.2.port = 5 ∧ ky.2.lost = false)) ∧ aget (withPst (pstOf 2) base).m.psts 7 = some (pstOf 2) ∧ (pstOf 2).port = 5 ∧ (pstOf 2).lost = false)
    ∧ ((having (gOut [(5, 1), (6, 2)])).m.grp? 2 = some (gOut [(5, 1), (6, 2)]) ∧ (gOut [(5, 1)]).fabric = .pending [(5, 1)] [] ∧ [(5, 1)] ≠ ([] : List (Nat × Nat))
      ∧ (∀ w ∈ [(5, 1), (6, 2)], w.1 < 18) ∧ g0.fabric.isOut = false)
    ∧ ((pstOf 2).after.all (EngineEntry.performed base.m) = true ∧ { pstOf 2 with lost := true }.lost = true
      ∧ (pstFour.left ≠ [] ∧ (∀ b ∈ pstFour.left, pstFour.far ≤ b.1 ∧ b.1 + b.2.length ≤ pstFour.far + pstFour.size ∧ b.2 ≠ [])
        ∧ pstFour.left.Pairwise (fun a b => a.1 + a.2.length ≤ b.1 ∨ b.1 + b.2.length ≤ a.1) ∧ pstFour.port < 18 ∧ pstFour.lost = false ∧ pstFour.after = [])
      ∧ (aget base.m.flitBudget 0 = none ∧ ∀ dir ∈ [0, 1], aget (spentOn dir base).m.flitBudget 0 = some 3 ∧ (aget ((spentOn dir base).m.port 5).flits (2 * 0 + dir)).getD 0 = 3)
      ∧ (pstFour.group = 2 ∧ ((portIs { portIn .up with inUse := true } base).m.port pstFour.port).inUse = true ∧ (base.m.port 5).inUse = false)
      ∧ ¬ ({ pstOf 2 with after := [.pst 7] }.after.all (EngineEntry.performed (withPst (pstOf 2) base).m) = true) ∧ (pstOf 2).left = [])
    ∧ ((farAtomic (.atom 0 7) 0 0 0).isNone = true ∧ (farAtomic (.cas 12) 0 5 0).isSome = true ∧ farAtomic (.satom 9) 0 5 1 = some (8, true, none)
      ∧ Ty.ofCode 0 = some .i32 ∧ (.i32 : Ty) ∈ [Ty.i32, .n32, .i64, .n64] ∧ (Ty.ofCode 12).map Ty.bits = some 32)
    ∧ ((17 : Nat) < 18 ∧ ¬ (18 : Nat) < 18 ∧ 2 ^ 52 - 8 + 8 ≤ 2 ^ 52 ∧ 2 ^ 52 < 2 ^ 52 - 7 + 8)
    ∧ (0x30000 + 8 ≤ devTop ∧ 0x30000 % 8 = 0 ∧ 0x30004 % 8 ≠ 0 ∧ devTop < devTop - 4 + 8)
    ∧ (base.mg.boot = .ready ∧ 0xFFF8 < 0x10000 ∧ 0xFFF8 % 8 = 0 ∧ 0x7FF8 < 0x8000 ∧ 0x7008 % 0x1000 = 0x008 ∧ 0x7038 % 0x1000 = 0x038 ∧ 0x8000 + 16 * 17 < 0x8120 ∧ 0x9000 + 8 * 63 < 0x9200)
    ∧ (aget base.m.queues (base.m.cp 0).qnum = none ∧ (aget (onM (fun m => { m with queues := [(0, { ringQ with st := .halted, hcause := 3 })] }) base).m.queues 0).isSome = true)
    ∧ (base.m.routes[63]? = some 0 ∧ (base.m.port 17).cause < 16 ∧ (base.m.port 17).replay < 2 ^ 16 ∧ (base.m.port 17).tmo < 2 ^ 16 ∧ (base.m.port 17).lost < 2 ^ 16)
    ∧ ((∀ n, n < 9 → (BitVec.ofNat 64 n).toNat % 256 = n) ∧ (255 : Dword).toNat % 256 = 255 ∧ (1 : Dword).getLsbD 0 = true ∧ (2 : Dword).getLsbD 0 = false ∧ (theCtx base).vacating = none) :=
  ⟨by decide +kernel, by decide +kernel, by decide +kernel, by decide +kernel, by decide +kernel, by decide +kernel, by decide, by decide, by decide +kernel⟩

def bootIs (b : Boot) (s : State) : State := { s with mg := { s.mg with boot := b } }

/-- Cluster 0 as it is given. -/
def clusterIs (f : Cluster → Cluster) (s : State) : State := onM (fun m => m.setCluster 0 (f (m.cluster 0))) s

/-- Every cluster of die 0 fenced. -/
def dieFenced : State := onM (fun m => (List.range 16).foldl (fun m k => m.setCluster k { m.cluster k with fenced := true }) m) base

theorem witness_Management :
    ((∀ l : Loc, l = .dev 0 → l.key < 2 ^ 60) ∧ (∀ kx ∈ (withPst pstFour base).m.psts, kx.2.port < 18 ∧ ∀ b ∈ kx.2.left, b.1 + b.2.length ≤ 2 ^ 52) ∧ (∀ d ∈ base.m.indet, 2 ^ 60 ≤ d.lo ∨ d.hi ≤ 2 ^ 60))
    ∧ (base.mg.tripped = [] ∧ { base.mg with tripped := [0] }.tripped ≠ [])
    ∧ ((∀ b ∈ [Boot.inReset, .refused, .ready], (bootIs b base).mg.boot = b) ∧ State.reset.m.clusters = [])
    ∧ (State.reset.mg.life = .deployed)
    ∧ (2 ^ 16 ≤ base.mg.period ∧ base.mg.period ≤ 2 ^ 16 ∧ (17 : Nat) < 18 ∧ 18 + 127 = 145 ∧ (127 : Nat) < 128)
    ∧ (0 ∈ ((clusterIs (fun c => { c with counted := [0] }) base).m.cluster 0).counted ∧ (aget base.m.ctxs 0).isSome = true)
    ∧ ((∀ d, d < 8 → State.reset.mg.interval[d]? = some (2 ^ 20)) ∧ (base.m.die 0).nextTest = 0)
    ∧ ((∀ k, k < 16 → (dieFenced.m.cluster (16 * 0 + ((dieFenced.m.die 0).nextTest + k) % 16)).fenced = true)
      ∧ ((16 * 0 + ((base.m.die 0).nextTest + 0) % 16 = 0) ∧ (base.m.cluster 0).fenced = false)
      ∧ ((16 * 0 + (((clusterIs (fun c => { c with fenced := true }) base).m.die 0).nextTest + 1) % 16 = 1)
        ∧ ((clusterIs (fun c => { c with fenced := true }) base).m.cluster 1).fenced = false ∧ ((clusterIs (fun c => { c with fenced := true }) base).m.cluster 0).fenced = true))
    ∧ (atRest base.m 0 = true ∧ atRest (having (gAt 0 (.pending [(5, 1)] []))).m 0 = false
      ∧ (∃ x ∈ ctxsOn (inState .saving base).m 0, ∃ y, aget (inState .saving base).m.ctxs x = some y ∧ y.st = .saving)
      ∧ ∀ x ∈ ctxsOn base.m 0, ∀ y, aget base.m.ctxs x = some y → y.st ≠ .suspending ∧ y.st ≠ .saving ∧ y.st ≠ .restoring)
    ∧ (amapWf base.m.teams = true ∧ amapWf base.m.groups = true ∧ amapWf base.m.clusters = true ∧ amapWf base.m.ctxs = true ∧ amapWf base.m.walks = true
      ∧ (∃ tm, aget base.m.teams 1 = some tm ∧ (1, tm) ∈ clusterTeams base.m 0) ∧ ∀ kt ∈ clusterTeams base.m 1, kt.1 ≠ 1) := by
  refine ⟨⟨fun l h => by rw [h]; decide, by decide +kernel⟩, by decide +kernel, by decide +kernel, rfl, by decide +kernel, by decide +kernel, by decide +kernel, by decide +kernel,
    ⟨by decide +kernel, by decide +kernel, ⟨0, by decide +kernel, _, rfl, by decide +kernel⟩, fun x hx y hy => ?_⟩,
    ⟨by decide +kernel, by decide +kernel, by decide +kernel, by decide +kernel, by decide +kernel, ⟨_, rfl, by decide +kernel⟩, by decide +kernel⟩⟩
  have hc : ∀ kc ∈ base.m.ctxs, kc.2.st = .active := by decide +kernel
  have : ∀ l : AMap Context, (∀ kc ∈ l, kc.2.st = .active) → aget l x = some y → y.st = .active := by
    intro l
    induction l with
    | nil => intro _ h; simp [aget] at h
    | cons a l ih =>
      intro h hg
      unfold aget at hg
      split at hg
      · cases hg; exact h _ (List.mem_cons_self ..)
      · exact ih (fun kc hk => h kc (List.mem_cons_of_mem _ hk)) hg
  rw [this _ hc hy]
  decide

open MemOrder in
/-- MP with a third group's atomic, in one order: the message and the data are seen. -/
def inOneOrder : Execution :=
  { Litmus.mp .apart (some .dev) (some .dev) with
    evs := (Litmus.mp .apart (some .dev) (some .dev)).evs ++ [Litmus.plain 2 0 .rmw [2]],
    rf := [(1, 2, some 1), (0, 3, some 0), (2, 4, none)], co := [(0, [0]), (1, [1]), (2, [4])] }

open MemOrder in
theorem ev_bound {i : Nat} {a : MemOrder.Ev} (h : inOneOrder.ev i = some a) : i < 5 := (List.getElem?_eq_some_iff.1 h).1

open MemOrder in
theorem witness_InterleavingsAllowed :
    let pos (n : Nat) : Nat := n
    let up (es : List (Nat × Nat)) : Prop := ∀ p ∈ es, pos p.1 < pos p.2
    let x := inOneOrder
    (∀ i j a b, x.ev i = some a → x.ev j = some b → a.io b = true → pos i < pos j) ∧ up x.jo ∧ (∀ e ∈ x.effects, pos e.src < pos e.dst)
    ∧ (∀ l, up (x.coAt l)) ∧ (∀ l, up (x.rfAt l)) ∧ (∀ l, up (x.frAt l)) ∧ (∀ l r w, x.rfOf l r = some w → w ∈ x.coOf l)
    ∧ ∀ u e, x.ev u = some e → e.kind = .rmw → ∀ l ∈ e.locs, u ∈ x.coOf l ∧ ∃ f ∈ x.rf, f.1 = l ∧ f.2.1 = u := by
  have order : ∀ i, i < 5 → ∀ j, j < 5 → (match inOneOrder.ev i, inOneOrder.ev j with
      | some a, some b => !a.io b || decide (i < j)
      | _, _ => true) = true := by decide
  have atoms : ∀ u, u < 5 → (match inOneOrder.ev u with
      | some e => e.kind != .rmw || e.locs.all fun l => (inOneOrder.coOf l).contains u && inOneOrder.rf.any fun f => f.1 = l && f.2.1 = u
      | none => true) = true := by decide
  refine ⟨fun i j a b ha hb hio => ?_, by decide, by decide, fun l => ?_, fun l => ?_, fun l => ?_, fun l r w h => ?_, fun u e he hk l hl => ?_⟩
  · have := order i (ev_bound ha) j (ev_bound hb)
    rw [ha, hb] at this
    simpa [hio] using this
  · rcases l with _ | _ | _ | l
    · decide
    · decide
    · decide
    · simp [Execution.coAt, Execution.coOf, inOneOrder, orderedPairs]
  · rcases l with _ | _ | _ | l
    · decide
    · decide
    · decide
    · simp [Execution.rfAt, inOneOrder]
  · rcases l with _ | _ | _ | l
    · decide
    · decide
    · decide
    · simp [Execution.frAt, inOneOrder]
  · have hr : ∀ f ∈ inOneOrder.rf, ∀ w, f.2.2 = some w → w ∈ inOneOrder.coOf f.1 := by decide
    unfold Execution.rfOf at h
    cases hf : inOneOrder.rf.find? fun f => f.1 = l && f.2.1 = r with
    | none => rw [hf] at h; cases h
    | some f =>
      rw [hf] at h
      have hp := List.find?_some hf
      simp only [Bool.and_eq_true, decide_eq_true_eq] at hp
      rw [← hp.1]
      exact hr f (List.mem_of_find?_eq_some hf) w h
  · have := atoms u (ev_bound he)
    rw [he] at this
    simp only [hk, bne_self_eq_false, Bool.false_or, List.all_eq_true, Bool.and_eq_true, List.contains_iff_mem, List.any_eq_true, decide_eq_true_eq] at this
    exact this l hl

open MemOrder in
/-- What two groups did: one stores 5, the other loads it and stores what it loaded, and prefetches and splits 16 bytes behind a port. -/
def deeds : List Did :=
  [{ gid := 0, seq := 0, ins := .sstw 4 6 0, beats := 1, lanes := [], touches := [{ lane := none, at_ := 0, size := 4, fabric := false, data := 5, cmp := 0 }], was := 0, now := 0, binding := none },
   { gid := 1, seq := 0, ins := .sldw 5 6 0, beats := 1, lanes := [], touches := [{ lane := none, at_ := 0, size := 4, fabric := false, data := 0, cmp := 0 }], was := 0, now := 0, binding := none },
   { gid := 1, seq := 1, ins := .sstw 5 6 0, beats := 1, lanes := [], touches := [{ lane := none, at_ := 4, size := 4, fabric := false, data := 5, cmp := 0 }], was := 0, now := 0, binding := none }]

open MemOrder in
def didLane (i : Instr) (size : Nat) (fabric : Bool) : Did :=
  { gid := 0, seq := 0, ins := i, beats := 1, lanes := [0], touches := [{ lane := some 0, at_ := 64, size := size, fabric := fabric, data := 0, cmp := 0 }], was := 0, now := 0, binding := none }

open MemOrder in
def traced : Execution :=
  { Execution.ofTrace [{ gid := 0, team := 0, cluster := 0 }, { gid := 1, team := 0, cluster := 0 }] deeds [] with
    rf := [(0, 1, some 0), (1, 1, some 0), (2, 1, some 0), (3, 1, some 0)],
    co := [(0, [0]), (1, [0]), (2, [0]), (3, [0]), (4, [2]), (5, [2]), (6, [2]), (7, [2])] }

open MemOrder in
theorem witness_InterleavingsAllowed_traces :
    traced.allowedWith deeds { got := [(1, 5)], put := [(0, 5), (2, 5)], init := [] } = true ∧ depOf deeds = [(1, 2)]
    ∧ (traced.ev 1).map Ev.reads = some true ∧ traced.rfOf 0 1 = some 0 ∧ ((numbered deeds 0)[0]?).map Prod.fst = some 0
    ∧ (∀ d ∈ deeds, d.events.length = 1)
    ∧ (∀ i ∈ [Instr.ld (memWord 0 8 0x1A0 0 0 0x85), .st (memWord 0 8 0x1A0 0 0 0x85)], (didLane i 16 true).binding = none ∧ (didLane i 16 true).events.length = 2
      ∧ (didLane i 8 true).events.length = 1 ∧ (didLane i 16 false).events.length = 1) := by decide +kernel

/-- A state whose next move is given. -/
def moving (a : List Move) (s : State) : State := onM (fun m => { m with agenda := a }) s

/-- The program of one word. -/
def program (nbits w : Nat) : State := let s := State.reset.withFetchWord nbits w; { s with m := { s.m with cur := 2, agenda := [] } }

/-- What the group of the program fetches: the address, and the words there. -/
def fetched (s : State) (g : Group) : Option (Nat × Nat × Nat) :=
  match fetchPa (focus s.m 2 g) g (sections s.m g).physical g.spc.toNat with
  | .ok (m2, pa) => if ((aget m2.touched (pa / 4)).getD [] ++ (aget m2.touched (pa / 4 + 1)).getD []).all (fun o => o.1 ≤ g.kern) then some (pa, readNat m2 (.dev pa) 4, readNat m2 (.dev (pa + 4)) 4) else none
  | .error _ => none

def onlyGroup (l : List (Nat × Group)) (g : Group) : Bool := decide (l = [(2, g)])

def gLane (w : Nat) : Group := fetchStart 0 1 96 w

theorem witness_StepRunsDecoded :
    (State.reset.m.agenda = [] ∧ (let m := (ringState [] 0 ringQ base).m
      (∀ kc ∈ m.clusters, batchEntries kc.2.deltas < 2048) ∧ (∀ kd ∈ m.dies, batchEntries kd.2.deltas < 2048) ∧ (∀ kc ∈ m.ctxs, kc.2.waits = [])
      ∧ ∀ kq ∈ m.queues, kq.2.told = true ∧ (pendingQueue m kq.2 = true ↔ kq.2.since ≠ 0)))
    ∧ (isRequest .telemetry = true ∧ isEvent (.tailWake 3) = true ∧ isRequest (.tailWake 3) = false ∧ base.mg.boot = .ready ∧ (bootIs .refused base).mg.boot ≠ .ready)
    ∧ ((base.m.cluster 127).fenced = false ∧ (clusterIs (fun c => { c with fenced := true }) base).m.cluster 0 ≠ base.m.cluster 0 ∧ (127 : Nat) < 128 ∧ ¬ (128 : Nat) < 128 ∧ (1023 : Nat) < 1024)
    ∧ (laneChoices (markThrottled base.m 0) 0 = []
      ∧ (∀ w ∈ [0x23881281105D180068000000, 0x13881281105D180068000000], onlyGroup (laneChoices (markThrottled (having (gLane w)).m 0) 0) (gLane w) = true)
      ∧ ((gLane 0x23881281105D180068000000).qs.liq.head?.map fun e => (e.bad, e.ins.isSome)) = some (none, true)
      ∧ ((gLane 0x03881281105D180068000000).qs.liq.head?.map fun e => e.bad) = some (some (.illegal, 0)))
    ∧ (scalarTurns State.reset.m 0 = [] ∧ onlyGroup (scalarTurns base.m 0) g0 = true
      ∧ onlyGroup (scalarTurns (having { g0 with st := .waiting (.phase 0 0) }).m 0) { g0 with st := .waiting (.phase 0 0) } = true
      ∧ onlyGroup (scalarTurns (having { g0 with lx := some { left := 1, resume := 0 } }).m 0) { g0 with lx := some { left := 1, resume := 0 } } = true
      ∧ regrp (focus base.m 2 g0) 2 g0 = g0 ∧ g0.lx = none ∧ g0.st = .ready)
    ∧ ((sections base.m g0).sbase ≤ g0.spc.toNat ∧ g0.spc.toNat + 4 ≤ (sections base.m g0).sbase + (sections base.m g0).slen
      ∧ 0x10000 + 60 + 4 ≤ (sections base.m g0).sbase + (sections base.m g0).slen ∧ ¬ (0x10000 + 64 + 4 ≤ (sections base.m g0).sbase + (sections base.m g0).slen))
    ∧ ((∃ e, fetchPa (ctxWith (fun c => { c with root := none }) base).m g0 false 0x10000 = .error e) ∧ (sections base.m g0).physical = false)
    ∧ (fetched (program 32 0x0830FFF8) g0 = some (0x10000, 0x0830FFF8, 0) ∧ decodeScalar 0x0830FFF8 0 = .ok (.addi 3 3 0x3FF8)
      ∧ fetched (program 32 0xFC000000) g0 = some (0x10000, 0xFC000000, 0) ∧ decodeScalar 0xFC000000 0 = .error .reservedMajor
      ∧ fetched (program 64 0x8CB95300A0000000) g0 = some (0x10000, 0xA0000000, 0x8CB95300) ∧ decodeScalar 0xA0000000 0x8CB95300 = .ok (.sigChk 0x8CB95300)
      ∧ 0x10000 % 4096 < 4092 ∧ 0x10000 + 8 ≤ (sections base.m g0).sbase + (sections base.m g0).slen) := by
  refine ⟨by decide +kernel, by decide +kernel, by decide +kernel, by decide +kernel, by decide +kernel, by decide +kernel, ⟨?_, by decide +kernel⟩, by decide +kernel⟩
  have h : (match fetchPa (ctxWith (fun c => { c with root := none }) base).m g0 false 0x10000 with | .ok _ => false | .error _ => true) = true := by decide +kernel
  cases hf : fetchPa (ctxWith (fun c => { c with root := none }) base).m g0 false 0x10000 with
  | ok x => rw [hf] at h; cases h
  | error e => exact ⟨e, rfl⟩

theorem witness_DecodeOfEncode :
    ((Instr.addi 3 3 0x3FF8).wf = true ∧ laneWord? (.addi 3 3 0x3FF8) = none ∧ encode (.addi 3 3 0x3FF8) = [0x0830FFF8])
    ∧ ((Instr.sigChk 0x8CB95300).wf = true ∧ encode (.sigChk 0x8CB95300) = [0xA0000000, 0x8CB95300])
    ∧ (laneWord? (.iadd popWord) = some popWord ∧ decodeScalar 0x0830FFF8 0 = .ok (.addi 3 3 0x3FF8))
    ∧ ((0x03FFFFFF : Word).toNat / 2 ^ 26 = 0 ∧ 0x31 ≤ (0xC4000000 : Word).toNat / 2 ^ 26) := by decide +kernel

theorem hint_opcode : ∀ h : BitVec 4, (0xF : BitVec 4) ++ h ≠ (0xE0 : BitVec 8) := by decide

theorem reserved_opcode : ∀ i x, laneWord? i = some x → laneOpcode i ≠ 0xE0 := by
  intro i x h
  cases i <;> first | (simp [laneWord?] at h; done) | (simp [laneOpcode]; done) | exact hint_opcode _

/-- A program about to run ADDI s5, s5, 1. -/
def running : State := State.reset.withFetchWord 32 0x08514001

theorem witness_StepKeepsForm : Kept running ∧ NumbersFresh running.m ∧ (∃ t, step running = .next t) ∧ SettingsInRange running.mg ∧ (∀ kg ∈ running.m.groups, Group.QueuesLanes kg.2)
    ∧ ∀ i, running.m.agenda.head?.getD (Config.nextMove running.tick) ≠ .event i := by
  have hg : running.m.groups = [(2, g0)] := by decide +kernel
  have hl : Group.QueuesLanes g0 := by
    intro e he
    rw [show g0.qs.liq ++ (g0.aside.map Queues.liq).getD [] ++ (g0.chain.map Chain.issued).getD [] = [] by decide] at he
    cases he
  have hq : ∀ kg ∈ running.m.groups, Group.QueuesLanes kg.2 := by
    rw [hg]
    intro kg hk
    rw [List.mem_singleton.1 hk]
    exact hl
  have hr : ∀ kg ∈ running.m.groups, amapWf kg.2.v = true ∧ kg.2.rgn = [] := by decide +kernel
  refine ⟨⟨by unfold MemoryCanonical; decide +kernel, by unfold MapsRise; decide +kernel, by decide +kernel,
    fun kg hk => ⟨hq kg hk, (hr kg hk).1, by rw [(hr kg hk).2]; simp⟩, by decide +kernel⟩, by unfold NumbersFresh; decide +kernel, ?_, by unfold SettingsInRange; decide +kernel, hq, ?_⟩
  · have h : (match step running with | .next _ => true | _ => false) = true := by decide +kernel
    cases hs : step running with
    | next t => exact ⟨t, rfl⟩
    | fault f => rw [hs] at h; cases h
    | refused r => rw [hs] at h; cases h
  · have h : running.m.agenda = [.scalar 0] := by decide +kernel
    rw [h]
    intro i hi
    cases hi

/-- ALU words of R30 and R45, with d = 5, a = 6, b = 7. -/
theorem test_alu_words : ∀ x ∈ ([
    (0x04518700, .add 5 6 7),
    (0x04518701, .sub 5 6 7),
    (0x04518702, .and 5 6 7),
    (0x04518703, .or 5 6 7),
    (0x04518704, .xor 5 6 7),
    (0x04518705, .andn 5 6 7),
    (0x04518706, .orn 5 6 7),
    (0x04518707, .xnor 5 6 7),
    (0x04518708, .shl 5 6 7),
    (0x04518709, .shr 5 6 7),
    (0x0451870A, .sar 5 6 7),
    (0x0451870B, .rol 5 6 7),
    (0x0451870C, .ror 5 6 7),
    (0x04518710, .mul 5 6 7),
    (0x04518711, .mulh 5 6 7),
    (0x04518712, .mulhu 5 6 7),
    (0x04518714, .div 5 6 7),
    (0x04518715, .divu 5 6 7),
    (0x04518716, .rem 5 6 7),
    (0x04518717, .remu 5 6 7),
    (0x04518718, .min 5 6 7),
    (0x04518719, .max 5 6 7),
    (0x0451871A, .minu 5 6 7),
    (0x0451871B, .maxu 5 6 7),
    (0x04018720, .cmp 6 7),
    (0x04018721, .tst 6 7),
    (0x04518028, .popc 5 6),
    (0x04518029, .clz 5 6),
    (0x0451802A, .ctz 5 6),
    (0x0451802B, .brev 5 6),
    (0x04518730, .scadd 0 5 6 7),
    (0x04518731, .scadd 1 5 6 7),
    (0x04518732, .scadd 2 5 6 7),
    (0x04518733, .scadd 3 5 6 7),
    (0x04518734, .scadd 4 5 6 7),
    (0x04518740, .sel 0 5 6 7),
    (0x04518749, .sel 9 5 6 7),
    (0x0451874E, .sel 14 5 6 7)
  ] : List (Nat × Instr)), decodeTableWord 32 x.1 = some x.2 := by decide +kernel

/-- Immediate, load, store, atomic, branch and run words of R30 and R44. -/
theorem test_immediate_words : ∀ x ∈ ([
    (0x0851AABC, .addi 5 6 0x2ABC),
    (0x0C51AABC, .andi 5 6 0x2ABC),
    (0x1051AABC, .ori 5 6 0x2ABC),
    (0x1451AABC, .xori 5 6 0x2ABC),
    (0x1851802B, .shli 5 6 0x2B),
    (0x1C51802B, .shri 5 6 0x2B),
    (0x2051802B, .sari 5 6 0x2B),
    (0x2401AABC, .cmpi 6 0x2ABC),
    (0x2801AABC, .cmpui 6 0x2ABC),
    (0x2C51AABC, .muli 5 6 0x2ABC),
    (0x3059ABCD, .lih 5 0x9ABCD),
    (0x3459ABCD, .addpc 5 0x9ABCD),
    (0x3851AABC, .sldb 5 6 0x2ABC),
    (0x3C51AABC, .sldh 5 6 0x2ABC),
    (0x4051AABC, .sldw 5 6 0x2ABC),
    (0x4451AABC, .sldd 5 6 0x2ABC),
    (0x4851AABC, .sldbx 5 6 0x2ABC),
    (0x4C51AABC, .sldhx 5 6 0x2ABC),
    (0x5051AABC, .sldwx 5 6 0x2ABC),
    (0x5451AABC, .sstb 5 6 0x2ABC),
    (0x5851AABC, .ssth 5 6 0x2ABC),
    (0x5C51AABC, .sstw 5 6 0x2ABC),
    (0x6051AABC, .sstd 5 6 0x2ABC),
    (0x64518700, .satom 0 0 5 6 7),
    (0x64518789, .satom 4 9 5 6 7),
    (0x64518765, .satom 3 5 5 6 7),
    (0x69712345, .b 5 0x312345),
    (0x6EF12345, .bm 1 3 0x312345),
    (0x6CB12345, .bm 0 2 0x312345),
    (0x70F12345, .bf 3 0x312345),
    (0x74312345, .call 0x312345),
    (0x7BF12345, .lx 15 0x312345),
    (0x7C312345, .lj 0x312345)
  ] : List (Nat × Instr)), decodeTableWord 32 x.1 = some x.2 := by decide +kernel

/-- Queue, mask, synchronisation, walk, task, time, region, barrier and system words of R30 and R45. -/
theorem test_system_words : ∀ x ∈ ([
    (0x80018000, .sqPush 6),
    (0x80500001, .lqPop 5),
    (0x80500002, .fqPop 5),
    (0x87D18000, .msplit 61 6),
    (0x87F18001, .mjoin 63 6),
    (0x88000000, .fence 0),
    (0x88000001, .fence 1),
    (0x88000002, .fence 2),
    (0x88000003, .fence 3),
    (0x88000004, .fence 4),
    (0x88018008, .qfence 6),
    (0x88518710, .waita 0 5 6 7),
    (0x88518715, .waita 5 5 6 7),
    (0x8C518700, .walkPost 5 6 7),
    (0x8C518001, .walkStat 5 6),
    (0x8C018002, .walkAbort 6),
    (0x8C018008, .hndlPark 6),
    (0x8C000009, .hndlDone),
    (0x90518700, .taskAlloc 5 6 7),
    (0x90018701, .taskPub 6 7),
    (0x90018002, .taskSig 6),
    (0x90518003, .taskSpawn 5 6),
    (0x90018004, .taskExit 6),
    (0x94018700, .stampSet 6 7),
    (0x94518701, .stampGet 5 6 7),
    (0x94518702, .stampInc 5 6 7),
    (0x94518003, .stampEnter 5 6),
    (0x94518004, .stampLeave 5 6),
    (0x94018708, .frontWait 6 7),
    (0x94518709, .frontTest 5 6 7),
    (0x9451870A, .frontHold 5 6 7),
    (0x9401800B, .frontDrop 6),
    (0x94018010, .summLd 6),
    (0x98018701, .rgnKeep 6 7),
    (0x98000002, .rgnClose),
    (0x9C52ABCD, .rgnOpen 5 0x2ABCD),
    (0xA4018700, .barInit 6 7),
    (0xA4018019, .barBind 9 6),
    (0xA4018029, .barExpect 9 6),
    (0xA4500039, .barArrive 9 5),
    (0xA4018049, .barWait 9 6),
    (0xA4518059, .barTry 9 5 6),
    (0xA4018060, .barDrop 6),
    (0xA8518000, .copyq 5 6),
    (0xAE712345, .yieldBar 9 1 0x112345),
    (0xB0018000, .wdqNext 6),
    (0xB0018701, .pipeLim 6 7),
    (0xB45000F0, .scrRd 5 0x0F0),
    (0xB8018010, .scrWr 0x010 6),
    (0xBC000000, .nop),
    (0xBC002A01, .trap 42),
    (0xBC000002, .tret),
    (0xBC000003, .exit),
    (0xBC000004, .brk),
    (0xC0018000, .jr 6),
    (0xC0018001, .callr 6)
  ] : List (Nat × Instr)), decodeTableWord 32 x.1 = some x.2 := by decide +kernel

/-- Words that are no instruction: a reserved major or func, a nonzero unused field, an excluded value (R47). -/
theorem test_refused_words : ∀ w ∈ ([0x00000000, 0xC4000000, 0xFC000000, 0x0451870D, 0x04518713, 0x04518735, 0x04518750, 0x80000003, 0x87D18002, 0x88000005, 0x88000016, 0x8C000003, 0x90000005, 0x94000005, 0x98000000, 0xA4018070, 0xA8518001, 0xB0000002, 0xBC000005, 0xC0000002, 0x04518720, 0x04518728, 0x18518040, 0x24518000, 0x74400000, 0x7C400000, 0x80518000, 0xA4018719, 0xA4018701, 0xBC100000, 0xA0100000, 0x0451874F, 0x6BC00000, 0x6D000000, 0x71000000, 0x6451870A, 0x645187A0, 0x87C18000, 0x9C540000, 0xA8500000, 0xA85E8000, 0xB4500005] : List Nat), decodeTableWord 32 w = none := by decide +kernel

/-- SIG.CHK is two words, the second the check value (R31). -/
theorem test_sigchk_words : decodeTableWord 64 0x8CB95300A0000000 = some (.sigChk 0x8CB95300) := by decide +kernel

/-- The fields of the FMA worked out in spec/02: FMA.f32 v4:b1, v8, s5, 3 guarded by p1 and ~p2. -/
def fmaFields : LaneWord := { ty := 0x11, dst := 4, cap := 5, nw := 0, a := 8, b := 0x105, c := 0x1A3, d := 0, g1 := 1, g2 := 10, slot := 0, hint := 0, sched := 0, modB := 0 }

/-- Every field of the format of R34 at a value of its own. -/
def ownFields : LaneWord := { ty := 0x1E, dst := 0x155, cap := 5, nw := 1, a := 0x0CC, b := 0x133, c := 0x10F, d := 0x1E3, g1 := 9, g2 := 6, slot := 3, hint := 5, sched := 0xA7, modB := 0x9C5 }

/-- The opcodes of R46, each over the fields of that FMA. -/
theorem test_lane_words : ∀ x ∈ ([
    (0x00, .iadd), (0x01, .isub), (0x02, .imul), (0x03, .imulh), (0x04, .imad), (0x05, .imin),
    (0x06, .imax), (0x07, .iabs), (0x08, .ineg), (0x09, .laneShl), (0x0A, .laneShr), (0x0B, .laneSar),
    (0x0C, .lanePopc), (0x0D, .laneClz), (0x0E, .laneBrev), (0x10, .laneAnd), (0x11, .laneOr), (0x12, .laneXor),
    (0x13, .not), (0x14, .lop3), (0x15, .bfe), (0x16, .bfi), (0x17, .laneSel), (0x20, .fadd),
    (0x21, .fsub), (0x22, .fmul), (0x23, .fma), (0x24, .fmin), (0x25, .fmax), (0x26, .fabs),
    (0x27, .fneg), (0x40, .icmp), (0x41, .fcmp), (0x42, .pand), (0x43, .por), (0x44, .pxor),
    (0x45, .pnot), (0x46, .pmov), (0x47, .psum), (0x48, .ptoq), (0x50, .cvt), (0x51, .cvts),
    (0x52, .cvtp), (0x53, .frnd), (0x60, .rcp), (0x61, .rsq), (0x62, .sqrt), (0x63, .exp2),
    (0x64, .log2), (0x65, .sin), (0x66, .cos), (0x67, .tanh), (0x70, .dot2), (0x71, .dot4),
    (0x72, .dot8), (0x80, .mov), (0x81, .bcast), (0x82, .shfl), (0x83, .redq), (0x90, .ld),
    (0x91, .st), (0x92, .pref), (0x93, .discard), (0x94, .pst), (0xA0, .atom), (0xA1, .atomcas),
    (0xA2, .fatom), (0xA3, .red), (0xB0, .shdw), (0xB1, .accLd)
  ] : List (Nat × (LaneWord → Instr))), decodeLane (BitVec.ofNat 96 (x.1 * 2 ^ 88 + 0x881281105D180068000000)) = .ok (x.2 fmaFields) := by decide +kernel

/-- Each field of R34 comes from its own bits. -/
theorem test_lane_fields : decodeLane 0xB0F556D993387F8E59DA79C5 = .ok (.shdw ownFields) ∧ decodeLane 0xF9F556D993387F8E59DA79C5 = .ok (.laneHint 9 ownFields) := by decide +kernel

/-- Every other opcode is reserved (R46). -/
theorem test_reserved_opcodes : (List.range 256).filter (fun o => decodeLane (BitVec.ofNat 96 (o * 2 ^ 88)) = .error .reservedOpcode) = [
    0x0F, 0x18, 0x19, 0x1A, 0x1B, 0x1C, 0x1D, 0x1E, 0x1F, 0x28, 0x29, 0x2A, 0x2B, 0x2C, 0x2D, 0x2E, 0x2F, 0x30, 0x31, 0x32,
    0x33, 0x34, 0x35, 0x36, 0x37, 0x38, 0x39, 0x3A, 0x3B, 0x3C, 0x3D, 0x3E, 0x3F, 0x49, 0x4A, 0x4B, 0x4C, 0x4D, 0x4E, 0x4F,
    0x54, 0x55, 0x56, 0x57, 0x58, 0x59, 0x5A, 0x5B, 0x5C, 0x5D, 0x5E, 0x5F, 0x68, 0x69, 0x6A, 0x6B, 0x6C, 0x6D, 0x6E, 0x6F,
    0x73, 0x74, 0x75, 0x76, 0x77, 0x78, 0x79, 0x7A, 0x7B, 0x7C, 0x7D, 0x7E, 0x7F, 0x84, 0x85, 0x86, 0x87, 0x88, 0x89, 0x8A,
    0x8B, 0x8C, 0x8D, 0x8E, 0x8F, 0x95, 0x96, 0x97, 0x98, 0x99, 0x9A, 0x9B, 0x9C, 0x9D, 0x9E, 0x9F, 0xA4, 0xA5, 0xA6, 0xA7,
    0xA8, 0xA9, 0xAA, 0xAB, 0xAC, 0xAD, 0xAE, 0xAF, 0xB2, 0xB3, 0xB4, 0xB5, 0xB6, 0xB7, 0xB8, 0xB9, 0xBA, 0xBB, 0xBC, 0xBD,
    0xBE, 0xBF, 0xC0, 0xC1, 0xC2, 0xC3, 0xC4, 0xC5, 0xC6, 0xC7, 0xC8, 0xC9, 0xCA, 0xCB, 0xCC, 0xCD, 0xCE, 0xCF, 0xD0, 0xD1,
    0xD2, 0xD3, 0xD4, 0xD5, 0xD6, 0xD7, 0xD8, 0xD9, 0xDA, 0xDB, 0xDC, 0xDD, 0xDE, 0xDF, 0xE0, 0xE1, 0xE2, 0xE3, 0xE4, 0xE5,
    0xE6, 0xE7, 0xE8, 0xE9, 0xEA, 0xEB, 0xEC, 0xED, 0xEE, 0xEF] := by decide +kernel


/-- Fields that are well formed for IADD.i32 v8, v0, v2; each ill-formed term below changes one of them. -/
def good : LaneWord := lword 0 8 0 2 0 0

/-- The same for an x32 load and store of 4 bytes at .dev, v8 or v4 the data, the base in s6 and the offset 0. -/
def goodLd : LaneWord := { lword 12 8 0x106 0x1A0 0 0x068 with dst := 8 }

def goodSt : LaneWord := { lword 12 0x148 0x106 0x1A0 4 0x068 with hint := 1 }

theorem test_wf_accepts : ∀ i ∈ ([.iadd good, .iadd { good with modB := 0x100 }, .iadd { good with cap := 4 }, .iadd { good with dst := 0x148, cap := 7, nw := 1 },
    .iadd { good with sched := 0xFE }, .fadd { good with ty := 0x11, modB := 0x900 }, .ld goodLd, .ld { goodLd with hint := 7, cap := 4 }, .st goodSt,
    .psum psumWord, .laneHint 9 { ownFields with sched := 0xA6 }] : List Instr), i.wf = true := by decide +kernel

/-- R41: a type that the opcode does not accept, or a reserved code. -/
theorem test_wf_types : ∀ i ∈ ([.iadd { good with ty := 0x11 }, .iadd { good with ty := 0x0A }, .iadd { good with ty := 0x19 }, .fadd good, .imulh { good with ty := 4 },
    .iabs { good with ty := 1, b := 0 }, .lanePopc { good with b := 0 }, .laneAnd good, .icmp { good with ty := 4, dst := 1 }, .fcmp { good with ty := 0x12, dst := 1 },
    .pand { good with ty := 1, dst := 1, a := 0, b := 2 }, .cvt { good with ty := 0x11, b := 0, modB := 0x11 }, .cvt { good with ty := 0x12, b := 0, modB := 0x11 },
    .cvtp { good with ty := 0x11, modB := 0x11 }, .frnd { good with ty := 0x14, b := 0 }, .exp2 { good with ty := 0x10, b := 0 }, .dot2 { good with ty := 0x06 },
    .redq { good with ty := 0x10, dst := 0x145, b := 0 }, .atom { goodLd with ty := 4 }, .red { goodSt with ty := 0x14 }] : List Instr), i.wf = false := by decide +kernel

/-- R35, R36: a destination code that is reserved or out of place, or odd with a pair. -/
theorem test_wf_dst : ∀ i ∈ ([.iadd { good with dst := 0x100 }, .iadd { good with dst := 0x140 }, .iadd { good with dst := 0x145 }, .iadd { good with dst := 0x149 },
    .iadd { good with ty := 2, dst := 9 }, .icmp { good with dst := 8 }, .psum { psumWord with dst := 0x145 }, .ptoq { psumWord with dst := 0x146 },
    .st { goodSt with dst := 8 }, .ld { goodLd with ty := 13, dst := 10, modB := 0x070 }, .bcast { bcastWord with ty := 13 }] : List Instr), i.wf = false := by decide +kernel

/-- R35, R36: a source code that is reserved or out of place, misaligned, or in a field that the opcode does not use. -/
theorem test_wf_sources : ∀ i ∈ ([.iadd { good with a := 0x145 }, .iadd { good with a := 0x146 }, .iadd { good with a := 0x149 }, .iadd { good with a := 0x17F },
    .iadd { good with b := 0x149 }, .iadd { good with ty := 2, a := 1 }, .iadd { good with ty := 2, b := 0x144 }, .iadd { good with c := 1 }, .iadd { good with d := 1 },
    .imad { good with c := 0x149 }, .bfi { good with c := 0, d := 0x149 }, .fadd { good with ty := 0x14, b := 0x1A1 }, .pand { good with dst := 1, a := 8 },
    .ld { goodLd with a := 0x1A0 }, .ld { goodLd with a := 1 }, .ld { goodLd with a := 0x144 }, .ld { goodLd with b := 0x146 }, .ld { goodLd with c := 1 },
    .st { goodSt with ty := 13, c := 0x104, modB := 0x070 }, .st { goodSt with ty := 13, c := 6, modB := 0x070 }, .st { goodSt with ty := 13, c := 5, modB := 0x06C },
    .accLd { good with ty := 0x11, a := 0, b := 0x1A0 }] : List Instr), i.wf = false := by decide +kernel

/-- R35, R38: a reserved capture code, a capture or nw where no result can be captured, nw with another destination than zero. -/
theorem test_wf_capture : ∀ i ∈ ([.iadd { good with cap := 1 }, .iadd { good with cap := 2 }, .iadd { good with cap := 3 }, .iadd { good with nw := 1 },
    .psum { psumWord with cap := 4 }, .psum { psumWord with nw := 1 }, .st { goodSt with cap := 4 }, .st { goodSt with nw := 1 },
    .icmp { good with dst := 1, cap := 4 }] : List Instr), i.wf = false := by decide +kernel

/-- R39, R42, R43: the reserved sched bit, a slot, hint, rounding or saturation that must be zero, a reserved code. -/
theorem test_wf_fields : ∀ i ∈ ([.iadd { good with sched := 1 }, .iadd { good with slot := 1 }, .iadd { good with hint := 1 }, .iadd { good with modB := 0x200 },
    .imin { good with modB := 0x100 }, .fadd { good with ty := 0x11, modB := 0xA00 }, .fmin { good with ty := 0x11, modB := 0x200 }, .iadd { good with modB := 1 },
    .icmp { good with dst := 1, modB := 6 }, .fcmp { good with ty := 0x11, dst := 1, modB := 8 }, .laneSel { good with modB := 16 }, .shfl { good with ty := 12, modB := 4 },
    .ld { goodLd with modB := 0x0A8 }, .ld { goodLd with modB := 0x074 }, .ld { goodLd with modB := 0x06A }, .st { goodSt with modB := 0x069 },
    .ld { goodLd with modB := 0x268 }, .st { goodSt with modB := 0x168 }, .atom { goodLd with ty := 0, d := 7 }, .fatom { goodLd with ty := 0x11, modB := 0x468 },
    .pref { goodLd with dst := 0x148 }, .discard { goodSt with modB := 0x080, hint := 0 }, .pst { goodSt with modB := 0x068 }] : List Instr), i.wf = false := by decide +kernel

/-- R40, R51, R159: stick on an instruction that only the last member may be, the reserved bit of a hint, a SHDW with a guard. -/
theorem test_wf_members : ∀ i ∈ ([.st { goodSt with sched := 0x80 }, .psum { psumWord with sched := 0x80 }, .bcast { bcastWord with sched := 0x80 },
    .atom { goodLd with ty := 0, c := 4, sched := 0x80 }, .laneHint 9 { ownFields with sched := 1 }, .shdw { good with a := 0, b := 0, g1 := 0 },
    .shdw { good with a := 0, b := 0, cap := 4 }, .shdw { good with a := 0, b := 0, dst := 0x148 }] : List Instr), i.wf = false := by decide +kernel

/-- R47: a scalar field that holds a value its description excludes. -/
theorem test_wf_scalars : ∀ i ∈ ([.scadd 5 5 6 7, .sel 15 5 6 7, .satom 5 0 5 6 7, .satom 0 10 5 6 7, .b 15 0, .bm 0 4 0, .bf 4 0, .msplit 60 6, .mjoin 0 6,
    .fence 5, .waita 6 5 6 7, .rgnOpen 5 0x40000, .copyq 5 0, .copyq 5 58, .scrRd 5 5, .scrWr 0x0F1 6] : List Instr), i.wf = false := by decide +kernel

/-! Small runs of one instruction, with results from the spec's worked examples or by hand from its tables. -/

theorem test_add_logic : alu [(.add, 0xFFFFFFFFFFFFFFFF, 2, 1), (.sub, 1, 2, 0xFFFFFFFFFFFFFFFF), (.and, 0xC, 0xA, 8), (.or, 0xC, 0xA, 0xE), (.xor, 0xC, 0xA, 6),
    (.andn, 0xC, 0xA, 4), (.orn, 0xC, 0xA, 0xFFFFFFFFFFFFFFFD), (.xnor, 0xC, 0xA, 0xFFFFFFFFFFFFFFF9)] = true := by decide +kernel

theorem test_shifts : alu [(.shl, 1, 65, 2), (.shr, 0x8000000000000000, 63, 1), (.sar, 0x8000000000000000, 63, 0xFFFFFFFFFFFFFFFF),
    (.rol, 0x8000000000000001, 4, 0x18), (.ror, 0x18, 4, 0x8000000000000001), (.scadd 4, 3, 2, 35)] = true := by decide +kernel

theorem test_multiply_divide : alu [(.mul, 0xFFFFFFFFFFFFFFFF, 3, 0xFFFFFFFFFFFFFFFD), (.mulh, 0xFFFFFFFFFFFFFFFF, 3, 0xFFFFFFFFFFFFFFFF),
    (.mulhu, 0xFFFFFFFFFFFFFFFF, 3, 2), (.div, 0xFFFFFFFFFFFFFFF9, 2, 0xFFFFFFFFFFFFFFFD), (.rem, 0xFFFFFFFFFFFFFFF9, 2, 0xFFFFFFFFFFFFFFFF),
    (.divu, 7, 2, 3), (.remu, 7, 2, 1), (.divu, 7, 0, 0xFFFFFFFFFFFFFFFF), (.remu, 7, 0, 7)] = true := by decide +kernel

theorem test_ordering : alu [(.min, 0xFFFFFFFFFFFFFFFF, 1, 0xFFFFFFFFFFFFFFFF), (.max, 0xFFFFFFFFFFFFFFFF, 1, 1), (.minu, 0xFFFFFFFFFFFFFFFF, 1, 1),
    (.maxu, 0xFFFFFFFFFFFFFFFF, 1, 0xFFFFFFFFFFFFFFFF)] = true := by decide +kernel

theorem test_counts : alu [(fun d a _ => .popc d a, 0xF0, 0, 4), (fun d a _ => .clz d a, 1, 0, 63), (fun d a _ => .ctz d a, 0, 0, 64),
    (fun d a _ => .brev d a, 1, 0, 0x8000000000000000)] = true := by decide +kernel

theorem test_immediates : alu [(fun d a _ => .addi d a 0x3FF8, 4, 0, 0xFFFFFFFFFFFFFFFC), (fun d a _ => .andi d a 0x3FFF, 0x1234567, 0, 0x1234567),
    (fun d a _ => .ori d a 0x2000, 1, 0, 0xFFFFFFFFFFFFE001), (fun d a _ => .xori d a 0x3FFF, 0, 0, 0xFFFFFFFFFFFFFFFF), (fun d a _ => .shli d a 63, 3, 0, 0x8000000000000000),
    (fun d a _ => .shri d a 63, 0x8000000000000000, 0, 1), (fun d a _ => .sari d a 4, 0x8000000000000000, 0, 0xF800000000000000),
    (fun d a _ => .muli d a 0x3FFF, 5, 0, 0xFFFFFFFFFFFFFFFB), (fun d _ _ => .lih d 0x80000, 0, 0, 0xFFFFFFFF80000000),
    (fun d _ _ => .lih d 0x12346, 0, 0, 0x12346000), (fun d _ _ => .addpc d 0xFFFFF, 0, 0, 0xFFFF)] = true := by decide +kernel

/-- The scalar PC and the flags (z, n, c, v) after an instruction, from values of s6 and s7. -/
def flow (i : Instr) (x y : Nat) (f : Flags) : Nat × Flags :=
  let g := grpAfter i (having { sregs [(6, x), (7, y)] g0 with flags := f })
  (g.spc.toNat, g.flags)

def noFlags : Flags := { z := false, n := false, c := false, v := false }

/-- The two comparisons worked out at R111. -/
theorem test_compare : flow (.cmp 6 7) 1 0xFFFFFFFFFFFFFFFF noFlags = (0x10004, noFlags)
    ∧ flow (.cmp 6 7) 0x8000000000000000 1 noFlags = (0x10004, { noFlags with c := true, v := true })
    ∧ flow (.cmpui 6 0x3FFF) 0x3FFF 0 noFlags = (0x10004, { noFlags with z := true, c := true })
    ∧ (flow (.tst 6 7) 0xC 3 noFlags).2.z = true := by decide +kernel

theorem test_branches : flow (.b 0 0x3FFFFE) 0 0 { noFlags with z := true } = (0xFFF8, { noFlags with z := true })
    ∧ (flow (.b 1 0x3FFFFE) 0 0 { noFlags with z := true }).1 = 0x10004 ∧ (flow (.b 14 2) 0 0 noFlags).1 = 0x10008
    ∧ (flow (.jr 6) 0x20000 0 noFlags).1 = 0x20000 ∧ (flow (.call 2) 0 0 noFlags).1 = 0x10008 ∧ (flow (.callr 6) 0x20000 0 noFlags).1 = 0x20000
    ∧ (grpAfter (.call 2) base).s 60 = 0x10004 ∧ (flow .nop 0 0 noFlags).1 = 0x10004 := by decide +kernel

theorem test_destination_s0 : (grpAfter (.addi 0 6 5) base).s 0 = 0 ∧ (grpAfter (.addi 0 6 5) base).spc = 0x10004 := by decide +kernel

theorem test_queues : (grpAfter (.sqPush 6) (having (sregs [(6, 0x123456789)] g0))).qs.sq = [0x23456789] ∧ (grpAfter (.lqPop 5) (having gLq)).s 5 = 7
    ∧ (grpAfter (.fqPop 5) (having gLq)).s 5 = 2 := by decide +kernel

/-- v8 of lane 0 after a lane instruction on v0, v2, v4 and v6 of that lane alone. -/
def laneRun (i : LaneWord → Instr) (w : LaneWord) (v : List Nat) : Nat :=
  let g : Group := { g0 with qs := { g0.qs with liq := [{ entryOf (i w) with m0 := 1 }] } }
  let g := (v.zip [0, 2, 4, 6]).foldl (fun g x => g.setV x.2 0 (BitVec.ofNat 32 x.1) none) g
  ((grpAfter (i w) (having g)).vreg 8 0).toNat

theorem test_lane_integers : laneRun .iadd (nWord 0 2 0x100) [0x7FFFFFFF, 1] = 0x7FFFFFFF ∧ laneRun .iadd (nWord 4 2 0) [0x0001FFFF, 0x00010001] = 0x00020000
    ∧ laneRun .isub (nWord 1 2 0x100) [1, 2] = 0 ∧ laneRun .imul (nWord 7 2 0) [0x10FF0203, 0x10020304] = 0x00FE060C ∧ laneRun .imulh (nWord 0 2 0) [0xFFFFFFFF, 2] = 0xFFFFFFFF
    ∧ laneRun .imad (nWord 0 3 0) [3, 4, 5] = 17 ∧ laneRun .imin (nWord 0 2 0) [0xFFFFFFFF, 1] = 0xFFFFFFFF ∧ laneRun .imax (nWord 1 2 0) [0xFFFFFFFF, 1] = 0xFFFFFFFF
    ∧ laneRun .iabs (nWord 0 1 0x100) [0x80000000] = 0x7FFFFFFF ∧ laneRun .ineg (nWord 4 1 0) [0x0001FFFF] = 0xFFFF0001 := by decide +kernel

theorem test_lane_bits : laneRun .laneShl (nWord 4 2 0) [0x00010001, 0x0001000F] = 0x00028000 ∧ laneRun .laneShr (nWord 12 2 0) [0x80000000, 31] = 1
    ∧ laneRun .laneSar (nWord 0 2 0) [0x80000000, 31] = 0xFFFFFFFF ∧ laneRun .lanePopc (nWord 12 1 0) [0xF0F] = 8 ∧ laneRun .laneClz (nWord 12 1 0) [0] = 32
    ∧ laneRun .laneBrev (nWord 12 1 0) [1] = 0x80000000 ∧ laneRun .laneAnd (nWord 12 2 0) [12, 10] = 8 ∧ laneRun .laneOr (nWord 12 2 0) [12, 10] = 14
    ∧ laneRun .laneXor (nWord 12 2 0) [12, 10] = 6 ∧ laneRun .not (nWord 12 1 0) [0] = 0xFFFFFFFF ∧ laneRun .lop3 (nWord 12 3 0x96) [12, 10, 9] = 15
    ∧ laneRun .mov (nWord 12 1 0) [0x1234] = 0x1234 := by decide +kernel

theorem test_lane_floats : laneRun .fadd (nWord 0x11 2 0) [0x3F800000, 0x40000000] = 0x40400000 ∧ laneRun .fsub (nWord 0x11 2 0) [0x3F800000, 0x3F800000] = 0
    ∧ laneRun .fmul (nWord 0x12 2 0) [0x3C004000, 0x40004000] = 0x40004400 ∧ laneRun .fma (nWord 0x11 3 0) [0x40000000, 0x40400000, 0xBF800000] = 0x40A00000
    ∧ laneRun .fmin (nWord 0x11 2 0) [0x80000000, 0] = 0x80000000 ∧ laneRun .fmax (nWord 0x11 2 0) [0x3F800000, 0xBF800000] = 0x3F800000
    ∧ laneRun .fabs (nWord 0x11 1 0) [0xBF800000] = 0x3F800000 ∧ laneRun .fneg (nWord 0x13 1 0) [0x3F803F80] = 0xBF80BF80
    ∧ laneRun .rcp (nWord 0x11 1 0) [0x40800000] = 0x3E800000 ∧ laneRun .sqrt (nWord 0x11 1 0) [0x41100000] = 0x40400000
    ∧ laneRun .frnd (nWord 0x11 1 0x400) [0x3FC00000] = 0x3F800000 := by decide +kernel

/-- The two conversions worked out after R57's table: −1.0 to n32 without and with saturation. -/
theorem test_conversions : laneRun .cvt (nWord 1 1 0x011) [0xBF800000] = 0xFFFFFFFF ∧ laneRun .cvt (nWord 1 1 0x111) [0xBF800000] = 0
    ∧ laneRun .cvt (nWord 1 1 0x211) [0xBECCCCCD] = 0 ∧ laneRun .cvt (nWord 0x11 1 0) [0xFFFFFFFF] = 0xBF800000
    ∧ laneRun .cvtp (nWord 0x12 2 0x011) [0x3F800000, 0x40000000] = 0x40003C00 ∧ laneRun .cvtp (nWord 0x11 1 0x0B2) [0x40003C00] = 0x40000000
    ∧ laneRun .dot4 (nWord 6 3 0) [0x01FF0203, 0x01010101, 10] = 15 := by decide +kernel

/-- The two rows worked out at R165, and ports 5 and 9 on I/O dies 1 and 2 (R10). -/
theorem test_interleave : (granuleOf 0x35000, rotationOf 4, stackOf 0x35000, stackAddr 0x35000, homeDie 0x35000) = ((4, 5), 4, 9, 0x4000, 6)
    ∧ (granuleOf 0x174000, rotationOf 31, stackOf 0x174000, stackAddr 0x174000, homeDie 0x174000) = ((31, 0), 2, 2, 0x1F000, 1)
    ∧ (cxlHomeDie 5 0x1000, cxlHomeDie 9 0) = (3, 4) := by decide +kernel

/-- Precedence and order of R433: 1 + 2 * 3 << 1 | 8, −7 / 2 and −7 − 2 − 1. -/
theorem test_expressions :
    ((exprOf [.number 1, .op .add, .number 2, .op .mul, .number 3, .op .shl, .number 1, .op .or, .number 1]).bind (AsmExpr.value [])) = .ok 15
    ∧ ((exprOf [.op .sub, .number 7, .op .div, .number 2]).bind (AsmExpr.value [])) = .ok (-3)
    ∧ ((exprOf [.op .sub, .name "x", .op .sub, .opening, .number 2, .op .sub, .number 1, .closing]).bind (AsmExpr.value [("x", 7)])) = .ok (-8)
    ∧ ((exprOf [.number 1, .op .div, .number 0]).bind (AsmExpr.value [])) = .error .divisionByZero
    ∧ ((exprOf [.number 1, .op .mul]).bind (AsmExpr.value [])) = .error .badExpression
    ∧ asmNumber "0x1_F".toList = some 31 ∧ asmNumber "0b1_01".toList = some 5 ∧ asmNumber "1_0".toList = some 10 := by decide +kernel

theorem test_asm_fields : (targetField 22 0x20 0 : Except AsmError (BitVec 22)) = .ok 0x3FFFF8 ∧ (targetField 22 0 0x800000 : Except AsmError (BitVec 22)) = .error .outOfReach
    ∧ constantCode 95 = .ok 0x1FF ∧ constantCode (-32) = .ok 0x180 ∧ constantCode 96 = .error .outOfRange
    ∧ emitData 2 [0x1234, -1] = .ok [0x34, 0x12, 0xFF, 0xFF] ∧ emitAlign 5 4 = [0, 0, 0] := by decide +kernel

/-- The lane section of the fragment of R93. -/
def absLanes : List Instr := [.icmp (pWord 0 1 2 0x1A0 2), .ptoq (pWord 0 0x145 1 0 0), .ineg (lword 0 2 2 0 0 0)]

/-- Its scalar section: lines A and B, and the rest. -/
def absLine (i : Instr) : AsmLine := { labelled := false, ins := i }

def absTail : List AsmLine := [absLine (.msplit 61 11), absLine (.lx 0 0x3FFFFF), absLine (.mjoin 61 10)]

/-- The five outcomes that R438 settles. -/
theorem test_balance_check : balanced 32 absLanes ([absLine (.or 10 61 0), absLine (.lx 1 0), absLine (.lqPop 11)] ++ absTail) = .ok ()
    ∧ balanced 32 absLanes ([absLine (.or 10 61 0), absLine (.lqPop 11), absLine (.lx 1 0)] ++ absTail) = .error .lqEmpty
    ∧ balanced 32 absLanes ([absLine (.lx 1 0x3FFFFF), absLine (.lqPop 11)] ++ absTail) = .error .lanePcUnknown
    ∧ balanced 32 absLanes ([absLine (.or 10 61 0), absLine (.lx 1 0), { labelled := true, ins := .lqPop 11 }] ++ absTail) = .error .unbalanced
    ∧ balanced 64 absLanes ([absLine (.or 10 61 0), absLine (.lx 1 0), absLine (.lqPop 11)] ++ absTail) = .error .unbalanced := by decide +kernel

end Sys2Proof.Tests
end

section
/-! PROOF. The claim that every step keeps (O59): memory canonical, keyed collections rising, lane instructions alone in the
lane issue queues, port counts in their widths, and numbers given out only upward.  It is said of a whole module as `Inv`; a
function that may give out numbers has `Grew` of the module that it answers, and an instruction or event has `Leads`.
-/

namespace Sys2Proof.Machine

/-- Which of the two halves of the step's invariant is claimed, and the next number to be given out. -/
structure Claim where
  form : Prop
  fresh : Prop
  next : Nat

/-- A later claim of the same halves: no number has been taken back. -/
structure Claim.Le (σ τ : Claim) : Prop where
  form : τ.form → σ.form
  fresh : τ.fresh → σ.fresh
  next : σ.next ≤ τ.next

/-- A lane issue queue that holds lane instructions alone (R83). -/
def LaneEntries (l : List LiqEntry) : Prop := ∀ e ∈ l, ∀ i, e.ins = some i → (laneWord? i).isSome = true

/-- What is claimed of a group's record with its number, said of the fields it depends on. -/
def GroupPartsIn (σ : Claim) (gid team : Nat) (liq : List LiqEntry) (aside : Option Queues) (chain : Option Chain)
    (v : AMap Word) (rgn : List Region) : Prop :=
  (σ.form → LaneEntries liq ∧ (∀ q, aside = some q → LaneEntries q.liq) ∧ (∀ c, chain = some c → LaneEntries c.issued)
    ∧ amapWf v = true ∧ ∀ r ∈ rgn, Region.SavedInMask r)
  ∧ (σ.fresh → gid < σ.next ∧ team < σ.next)

/-- What is claimed of a group's record with its number. -/
def GroupIn (σ : Claim) (gid : Nat) (g : Group) : Prop := GroupPartsIn σ gid g.team g.qs.liq g.aside g.chain g.v g.rgn

/-- What is claimed of a context. -/
def CtxIn (σ : Claim) (c : Context) : Prop := σ.form → amapWf c.pool = true

/-- What is claimed of a port (R410). -/
def PortIn (σ : Claim) (p : Port) : Prop := σ.form → p.cause < 16 ∧ p.replay < 2 ^ 16 ∧ p.tmo < 2 ^ 16 ∧ p.lost < 2 ^ 16

/-- A number of a group or team has been given out. -/
def NumIn (σ : Claim) (k : Nat) : Prop := σ.fresh → k < σ.next

/-- What is claimed of a module. -/
structure Inv (σ : Claim) (m : Mach) : Prop where
  mem : σ.form → Memory.wf m.mem = true
  groupsRise : σ.form → amapWf m.groups = true
  teamsRise : σ.form → amapWf m.teams = true
  slotsRise : σ.form → amapWf m.slots = true
  kernsRise : σ.form → amapWf m.kerns = true
  walksRise : σ.form → amapWf m.walks = true
  summonsRise : σ.form → amapWf m.summons = true
  enginesRise : σ.form → amapWf m.engines = true
  coresRise : σ.form → amapWf m.cores = true
  clustersRise : σ.form → amapWf m.clusters = true
  diesRise : σ.form → amapWf m.dies = true
  ctxsRise : σ.form → amapWf m.ctxs = true
  pstsRise : σ.form → amapWf m.psts = true
  queuesRise : σ.form → amapWf m.queues = true
  featRise : σ.form → amapWf m.feat = true
  touchedRise : σ.form → amapWf m.touched = true
  flitsRise : σ.form → amapWf m.flitBudget = true
  tilesRise : σ.form → amapWf m.tileBudget = true
  groups : ∀ kg ∈ m.groups, GroupIn σ kg.1 kg.2
  teams : ∀ kt ∈ m.teams, NumIn σ kt.1
  ctxs : ∀ kc ∈ m.ctxs, CtxIn σ kc.2
  ports : ∀ p ∈ m.ports.toList, PortIn σ p
  next : σ.fresh → m.nextId = σ.next

/-- The claim holds of a module when numbers given out since are counted in. -/
def Grew (σ : Claim) (m : Mach) : Prop := ∃ n, σ.next ≤ n ∧ Inv { σ with next := n } m

/-- An instruction's outcome leads only to modules of which the claim holds. -/
def Leads (σ : Claim) (o : Host.Outcome State Fault Refusal) : Prop := ∀ t, o = .next t → Grew σ t.m

end Sys2Proof.Machine
end

section
/-! PROOF. What the claim says of the parts of a module, and one rule for each operation that writes one.
-/

namespace Sys2Proof.Machine

/-! Keyed collections. -/

theorem amapWf_amap {α : Type} (f : Nat → α → α) : ∀ m : AMap α, amapWf m = true → amapWf (amap f m) = true
  | [], _ => rfl
  | [_], _ => rfl
  | (k, _) :: (k', v') :: r, h => by
    simp only [amapWf, Bool.and_eq_true, decide_eq_true_eq] at h
    have ih := amapWf_amap f ((k', v') :: r) h.2
    simp only [amap, List.map_cons, amapWf, Bool.and_eq_true, decide_eq_true_eq] at ih ⊢
    exact ⟨h.1, ih⟩

theorem amapWf_afilter {α : Type} (p : Nat → α → Bool) (m : AMap α) (h : amapWf m = true) : amapWf (afilter p m) = true :=
  amapWf_filter _ m h

theorem amapWf_foldl_aput {α β : Type} (k : β → Nat) (v : AMap α → β → α) : ∀ (l : List β) (m : AMap α), amapWf m = true →
    amapWf (l.foldl (fun m x => aput m (k x) (v m x)) m) = true
  | [], _, h => h
  | _ :: l, _, h => amapWf_foldl_aput k v l _ (amapWf_aput _ _ _ h)

theorem mem_of_aget {α : Type} {m : AMap α} {k : Nat} {v : α} (h : aget m k = some v) : (k, v) ∈ m := by
  induction m with
  | nil => cases h
  | cons e r ih =>
    obtain ⟨k', v'⟩ := e
    unfold aget at h
    split at h
    · next hk =>
      cases h
      subst hk
      exact List.mem_cons_self
    · exact List.mem_cons_of_mem _ (ih h)

theorem mem_aput {α : Type} {m : AMap α} {k : Nat} {v : α} {e : Nat × α} (h : e ∈ aput m k v) : e = (k, v) ∨ e ∈ m := by
  induction m with
  | nil => exact .inl (List.mem_singleton.1 h)
  | cons x r ih =>
    obtain ⟨k', v'⟩ := x
    unfold aput at h
    split at h
    · exact (List.mem_cons.1 h).imp id (List.mem_cons_of_mem _)
    · split at h
      · exact List.mem_cons.1 h
      · rcases List.mem_cons.1 h with rfl | h
        · exact .inr List.mem_cons_self
        · exact (ih h).imp id (List.mem_cons_of_mem _)

theorem forall_mem_aput {α : Type} {P : Nat × α → Prop} {m : AMap α} {k : Nat} {v : α} (hm : ∀ e ∈ m, P e) (hv : P (k, v)) :
    ∀ e ∈ aput m k v, P e := fun e he => (mem_aput he).elim (fun h => h ▸ hv) (hm e)

theorem forall_mem_adel {α : Type} {P : Nat × α → Prop} {m : AMap α} {k : Nat} (hm : ∀ e ∈ m, P e) : ∀ e ∈ adel m k, P e :=
  fun e he => hm e (List.mem_filter.1 he).1

theorem forall_mem_amap {α : Type} {P : Nat × α → Prop} {m : AMap α} {f : Nat → α → α} (hm : ∀ e ∈ m, P (e.1, f e.1 e.2)) :
    ∀ e ∈ amap f m, P e := fun e he => by
  obtain ⟨x, hx, rfl⟩ := List.mem_map.1 he
  exact hm x hx

theorem forall_mem_filter {α : Type} {P : Nat × α → Prop} {m : AMap α} {p : Nat × α → Bool} (hm : ∀ e ∈ m, P e) :
    ∀ e ∈ m.filter p, P e := fun e he => hm e (List.mem_filter.1 he).1

theorem forall_mem_afilter {α : Type} {P : Nat × α → Prop} {m : AMap α} {p : Nat → α → Bool} (hm : ∀ e ∈ m, P e) :
    ∀ e ∈ afilter p m, P e := forall_mem_filter hm

/-! The order of claims. -/

theorem Claim.Le.grown {σ : Claim} {n : Nat} (h : σ.next ≤ n) : σ.Le { σ with next := n } := ⟨id, id, h⟩

variable {σ τ : Claim} {m : Mach} {gid : Nat} {g : Group}

theorem NumIn.mono {k : Nat} (h : NumIn σ k) (hl : σ.Le τ) : NumIn τ k := fun hf => (h (hl.fresh hf)).trans_le hl.next

theorem GroupIn.mono (h : GroupIn σ gid g) (hl : σ.Le τ) : GroupIn τ gid g :=
  ⟨fun hf => h.1 (hl.form hf), fun hf => ⟨(h.2 (hl.fresh hf)).1.trans_le hl.next, (h.2 (hl.fresh hf)).2.trans_le hl.next⟩⟩

theorem CtxIn.mono {c : Context} (h : CtxIn σ c) (hl : σ.Le τ) : CtxIn τ c := fun hf => h (hl.form hf)

theorem GroupIn.team (h : GroupIn σ gid g) : NumIn σ g.team := fun hf => (h.2 hf).2

theorem GroupIn.ite {c : Prop} [Decidable c] {x y : Group} (hx : GroupIn σ gid x) (hy : GroupIn σ gid y) :
    GroupIn σ gid (if c then x else y) := by
  split
  · exact hx
  · exact hy

theorem CtxIn.ite {c : Prop} [Decidable c] {x y : Context} (hx : CtxIn σ x) (hy : CtxIn σ y) :
    CtxIn σ (if c then x else y) := by
  split
  · exact hx
  · exact hy

/-! The parts of what is claimed of a group. -/

theorem GroupIn.liq (hg : GroupIn σ gid g) (hf : σ.form) : LaneEntries g.qs.liq := (hg.1 hf).1

theorem GroupIn.aside (hg : GroupIn σ gid g) (hf : σ.form) {q : Queues} (hq : g.aside = some q) : LaneEntries q.liq :=
  (hg.1 hf).2.1 q hq

theorem GroupIn.issued (hg : GroupIn σ gid g) (hf : σ.form) {c : Chain} (hc : g.chain = some c) : LaneEntries c.issued :=
  (hg.1 hf).2.2.1 c hc

theorem GroupIn.v (hg : GroupIn σ gid g) (hf : σ.form) : amapWf g.v = true := (hg.1 hf).2.2.2.1

theorem GroupIn.rgn (hg : GroupIn σ gid g) (hf : σ.form) : ∀ r ∈ g.rgn, Region.SavedInMask r := (hg.1 hf).2.2.2.2

/-- A group's record changed in the lane issue queue or its copies, with what is claimed of the rest as before. -/
theorem GroupIn.requeue {x : Group} (hg : GroupIn σ gid g) (hq : σ.form → LaneEntries x.qs.liq)
    (ha : σ.form → ∀ q, x.aside = some q → LaneEntries q.liq) (hc : σ.form → ∀ c, x.chain = some c → LaneEntries c.issued)
    (hv : x.v = g.v) (hr : x.rgn = g.rgn) (ht : x.team = g.team) : GroupIn σ gid x :=
  ⟨fun hf => ⟨hq hf, ha hf, hc hf, hv ▸ hg.v hf, hr ▸ hg.rgn hf⟩, fun hf => ht ▸ hg.2 hf⟩

/-- A group's record changed in the v registers or the regions, with what is claimed of the rest as before. -/
theorem GroupIn.reload {x : Group} (hg : GroupIn σ gid g) (hv : σ.form → amapWf x.v = true)
    (hr : σ.form → ∀ r ∈ x.rgn, Region.SavedInMask r) (hq : x.qs.liq = g.qs.liq) (ha : x.aside = g.aside)
    (hc : x.chain = g.chain) (ht : x.team = g.team) : GroupIn σ gid x :=
  ⟨fun hf => ⟨hq ▸ hg.liq hf, fun _ h => hg.aside hf (ha ▸ h), fun _ h => hg.issued hf (hc ▸ h), hv hf, hr hf⟩,
    fun hf => ht ▸ hg.2 hf⟩

theorem laneEntries_nil : LaneEntries [] := fun _ he => nomatch he

theorem LaneEntries.append {a b : List LiqEntry} (ha : LaneEntries a) (hb : LaneEntries b) : LaneEntries (a ++ b) :=
  fun e he => (List.mem_append.1 he).elim (ha e) (hb e)

theorem LaneEntries.of_subset {a b : List LiqEntry} (hb : LaneEntries b) (h : a ⊆ b) : LaneEntries a := fun e he => hb e (h he)

/-- Entries that hold the instructions of others. -/
theorem LaneEntries.map {l : List LiqEntry} {f : LiqEntry → LiqEntry} (hl : LaneEntries l) (hf : ∀ e, (f e).ins = e.ins) :
    LaneEntries (l.map f) := fun e he i hi => by
  obtain ⟨x, hx, rfl⟩ := List.mem_map.1 he
  exact hl x hx i (hf x ▸ hi)

/-! The parts of what is claimed of a lane issue queue. -/

/-- What is claimed of an entry of a lane issue queue. -/
def EntryIn (σ : Claim) (e : LiqEntry) : Prop := σ.form → ∀ i, e.ins = some i → (laneWord? i).isSome = true

/-- What is claimed of a chain under way. -/
def ChainIn (σ : Claim) (c : Chain) : Prop := σ.form → LaneEntries c.issued

/-- What is claimed of a lane instruction as it issues: of its group, and of its entry of the queue. -/
def HeadIn (σ : Claim) (gid : Nat) (x : LaneIn) : Prop := GroupIn σ gid x.g ∧ EntryIn σ x.e

/-- What is claimed of some regions of a group. -/
def SavedIn (σ : Claim) (rs : List Region) : Prop := σ.form → ∀ r ∈ rs, Region.SavedInMask r

theorem GroupIn.of_head {x : LaneIn} (h : HeadIn σ gid x) : GroupIn σ gid x.g := h.1

theorem EntryIn.of_head {x : LaneIn} (h : HeadIn σ gid x) : EntryIn σ x.e := h.2

theorem ChainIn.getD (hg : GroupIn σ gid g) : ChainIn σ (g.chain.getD Chain.empty) := fun hf => by
  cases hc : g.chain with
  | none => exact laneEntries_nil
  | some c => exact hg.issued hf hc

theorem EntryIn.of_liq {e : LiqEntry} {r : List LiqEntry} (hl : g.qs.liq = e :: r) (hg : GroupIn σ gid g) : EntryIn σ e :=
  fun hf => hg.liq hf e (hl ▸ List.mem_cons_self)

theorem EntryIn.of_snd {α : Type} {p : α × LiqEntry} {x : α} {e : LiqEntry} (h : p = (x, e)) (he : EntryIn σ p.2) :
    EntryIn σ e := by
  subst h
  exact he

theorem SavedIn.of_group (hg : GroupIn σ gid g) : SavedIn σ g.rgn := hg.rgn

theorem GroupIn.getD {o : Option Group} (ho : ∀ x, o = some x → GroupIn σ gid x) (hg : GroupIn σ gid g) :
    GroupIn σ gid (o.getD g) := by
  cases o with
  | none => exact hg
  | some x => exact ho x rfl

/-! What is read from a module. -/

theorem GroupIn.of_grp? {gid : Nat} {g : Group} (e : m.grp? gid = some g) (h : Inv σ m) : GroupIn σ gid g :=
  h.groups _ (mem_of_aget e)

protected theorem GroupIn.regrp (h : Inv σ m) (hg : GroupIn σ gid g) : GroupIn σ gid (regrp m gid g) :=
  GroupIn.getD (fun _ e => h.groups _ (mem_of_aget e)) hg

theorem GroupIn.of_mem {kg : Nat × Group} (e : kg ∈ m.groups) (h : Inv σ m) : GroupIn σ kg.1 kg.2 := h.groups _ e

theorem NumIn.of_aget_teams {k : Nat} {t : Team} (e : aget m.teams k = some t) (h : Inv σ m) : NumIn σ k :=
  h.teams _ (mem_of_aget e)

theorem CtxIn.of_aget {k : Nat} {c : Context} (e : aget m.ctxs k = some c) (h : Inv σ m) : CtxIn σ c := h.ctxs _ (mem_of_aget e)

/-! What each operation of the state keeps. -/

theorem Inv.of_frame {indet cur free root routes cps busy replies fjarul agenda} (h : Inv σ m) :
    Inv σ { m with indet := indet, cur := cur, free := free, root := root, routes := routes, cps := cps, busy := busy,
                   replies := replies, fjarul := fjarul, agenda := agenda } :=
  { h with }

theorem Inv.upd_mem {mem indet} (h : Inv σ m) (hw : σ.form → Memory.wf mem = true) : Inv σ
    { m with mem := mem, indet := indet } :=
  { h with mem := hw }

protected theorem Inv.setCore {k : Nat} {x : Core} (h : Inv σ m) : Inv σ (m.setCore k x) :=
  { h with coresRise := fun hf => amapWf_aput _ _ _ (h.coresRise hf) }

protected theorem Inv.setCluster {k : Nat} {x : Cluster} (h : Inv σ m) : Inv σ (m.setCluster k x) :=
  { h with clustersRise := fun hf => amapWf_aput _ _ _ (h.clustersRise hf) }

protected theorem Inv.setDie {k : Nat} {x : Die} (h : Inv σ m) : Inv σ (m.setDie k x) :=
  { h with diesRise := fun hf => amapWf_aput _ _ _ (h.diesRise hf) }

protected theorem Inv.setEngine {k : Nat} {x : Engine} (h : Inv σ m) : Inv σ (m.setEngine k x) :=
  { h with enginesRise := fun hf => amapWf_aput _ _ _ (h.enginesRise hf) }

protected theorem Inv.setKern {k : Nat} {x : Kernel} (h : Inv σ m) : Inv σ (m.setKern k x) :=
  { h with kernsRise := fun hf => amapWf_aput _ _ _ (h.kernsRise hf) }

protected theorem Inv.setWalk {k : Nat} {x : Walk} (h : Inv σ m) : Inv σ (m.setWalk k x) :=
  { h with walksRise := fun hf => amapWf_aput _ _ _ (h.walksRise hf) }

protected theorem Inv.setQueue {k : Nat} {x : Queue} (h : Inv σ m) : Inv σ (m.setQueue k x) :=
  { h with queuesRise := fun hf => amapWf_aput _ _ _ (h.queuesRise hf) }

protected theorem Inv.setGrp {k : Nat} {x : Group} (h : Inv σ m) (hx : GroupIn σ k x) : Inv σ (m.setGrp k x) :=
  { h with groupsRise := fun hf => amapWf_aput _ _ _ (h.groupsRise hf), groups := forall_mem_aput h.groups hx }

protected theorem Inv.setTeam {k : Nat} {x : Team} (h : Inv σ m) (hk : NumIn σ k) : Inv σ (m.setTeam k x) :=
  { h with teamsRise := fun hf => amapWf_aput _ _ _ (h.teamsRise hf), teams := forall_mem_aput h.teams hk }

protected theorem Inv.setCtx {k : Nat} {x : Context} (h : Inv σ m) (hx : CtxIn σ x) : Inv σ (m.setCtx k x) :=
  { h with ctxsRise := fun hf => amapWf_aput _ _ _ (h.ctxsRise hf), ctxs := forall_mem_aput h.ctxs hx }

protected theorem Inv.bump (h : Inv σ m) : Inv σ m.bump := { h with }

theorem Inv.upd_slots {x : AMap (BSlot)} (h : Inv σ m) (hx : σ.form → amapWf x = true) : Inv σ { m with slots := x } :=
  { h with slotsRise := hx }

theorem Inv.upd_kerns {x : AMap (Kernel)} (h : Inv σ m) (hx : σ.form → amapWf x = true) : Inv σ { m with kerns := x } :=
  { h with kernsRise := hx }

theorem Inv.upd_walks {x : AMap (Walk)} (h : Inv σ m) (hx : σ.form → amapWf x = true) : Inv σ { m with walks := x } :=
  { h with walksRise := hx }

theorem Inv.upd_summons {x : AMap (Summons)} (h : Inv σ m) (hx : σ.form → amapWf x = true) : Inv σ { m with summons := x } :=
  { h with summonsRise := hx }

theorem Inv.upd_cores {x : AMap (Core)} (h : Inv σ m) (hx : σ.form → amapWf x = true) : Inv σ { m with cores := x } :=
  { h with coresRise := hx }

theorem Inv.upd_dies {x : AMap (Die)} (h : Inv σ m) (hx : σ.form → amapWf x = true) : Inv σ { m with dies := x } :=
  { h with diesRise := hx }

theorem Inv.upd_psts {x : AMap (Pst)} (h : Inv σ m) (hx : σ.form → amapWf x = true) : Inv σ { m with psts := x } :=
  { h with pstsRise := hx }

theorem Inv.upd_queues {x : AMap (Queue)} (h : Inv σ m) (hx : σ.form → amapWf x = true) : Inv σ { m with queues := x } :=
  { h with queuesRise := hx }

theorem Inv.upd_touched {x : AMap (List (Nat × Word))} (h : Inv σ m) (hx : σ.form → amapWf x = true) : Inv σ
    { m with touched := x } :=
  { h with touchedRise := hx }

theorem Inv.upd_flitBudget {x : AMap (Nat)} (h : Inv σ m) (hx : σ.form → amapWf x = true) : Inv σ { m with flitBudget := x } :=
  { h with flitsRise := hx }

theorem Inv.upd_tileBudget {x : AMap (Nat)} (h : Inv σ m) (hx : σ.form → amapWf x = true) : Inv σ { m with tileBudget := x } :=
  { h with tilesRise := hx }

theorem Inv.upd_groups {x : AMap Group} (h : Inv σ m) (hx : σ.form → amapWf x = true) (hg : ∀ kg ∈ x, GroupIn σ kg.1 kg.2) :
    Inv σ { m with groups := x } :=
  { h with groupsRise := hx, groups := hg }

theorem Inv.upd_teams {x : AMap Team} (h : Inv σ m) (hx : σ.form → amapWf x = true) (ht : ∀ kt ∈ x, NumIn σ kt.1) :
    Inv σ { m with teams := x } :=
  { h with teamsRise := hx, teams := ht }

theorem Inv.upd_ctxs {x : AMap Context} (h : Inv σ m) (hx : σ.form → amapWf x = true) (hc : ∀ kc ∈ x, CtxIn σ kc.2) :
    Inv σ { m with ctxs := x } :=
  { h with ctxsRise := hx, ctxs := hc }

theorem mem_updateAt {α : Type} {n : Nat} {v : Vector α n} {i : Nat} {f : α → α} {x : α} (h : x ∈ (updateAt v i f).toList) :
    x ∈ v.toList ∨ ∃ y ∈ v.toList, x = f y := by
  unfold updateAt at h
  split at h
  next y hy =>
    rw [Vector.toList_setIfInBounds] at h
    rcases List.mem_or_eq_of_mem_set h with h | rfl
    · exact .inl h
    · exact .inr ⟨y, by simpa using Vector.mem_of_getElem? hy, rfl⟩
  · exact .inl h

theorem Inv.upd_port {p : Nat} {f : Port → Port} (h : Inv σ m) (hf : ∀ x, PortIn σ x → PortIn σ (f x)) :
    Inv σ { m with ports := updateAt m.ports p f } :=
  { h with ports := fun x hx => (mem_updateAt hx).elim (h.ports x) fun ⟨y, hy, e⟩ => e ▸ hf y (h.ports y hy) }

protected theorem Inv.setPort {p : Nat} {f : Port → Port} (h : Inv σ m) (hf : ∀ x, PortIn σ x → PortIn σ (f x)) :
    Inv σ (setPort m p f) := h.upd_port hf

/-! Folds. -/

protected theorem Inv.foldl {α : Type} {f : Mach → α → Mach} {l : List α} (h : Inv σ m)
    (hf : ∀ m x, x ∈ l → Inv σ m → Inv σ (f m x)) : Inv σ (l.foldl f m) := by
  induction l generalizing m with
  | nil => exact h
  | cons x l ih => exact ih (hf m x List.mem_cons_self h) fun m y hy => hf m y (List.mem_cons_of_mem _ hy)

/-! What a function that answers a module with something beside it leaves. -/

theorem Inv.of_fst {α : Type} {p : Mach × α} {x : α} (e : p = (m, x)) (h : Inv σ p.1) : Inv σ m := by
  subst e
  exact h

/-- Something holds of what a computation answers, or of the error that it answers. -/
def ResultIs {ε α : Type} (P : ε → Prop) (Q : α → Prop) : Except ε α → Prop
  | .error x => P x
  | .ok x => Q x

/-- Something holds of what a computation answers, where it answers anything. -/
def SomeIs {α : Type} (Q : α → Prop) : Option α → Prop
  | some x => Q x
  | none => True

/-- The claim holds of the module of an access's outcome. -/
def GotIn {α : Type} (σ : Claim) : Got α → Prop
  | .trap m _ _ => Inv σ m
  | .hold m => Inv σ m
  | .done m _ => Inv σ m

section

variable {ε α β : Type} {P : ε → Prop} {Q : α → Prop}

theorem ResultIs.ok {r : Except ε α} {x : α} (e : r = .ok x) (h : ResultIs P Q r) : Q x := by
  subst e
  exact h

theorem Inv.of_ok {r : Except ε Mach} (e : r = .ok m) (h : ResultIs P (fun x => Inv σ x) r) : Inv σ m := by
  subst e
  exact h

theorem Inv.of_ok_fst {r : Except ε (Mach × α)} {x : α} (e : r = .ok (m, x)) (h : ResultIs P (fun x => Inv σ x.1) r) :
    Inv σ m := by
  subst e
  exact h

theorem Inv.of_error {r : Except Mach α} (e : r = .error m) (h : ResultIs (fun x => Inv σ x) Q r) : Inv σ m := by
  subst e
  exact h

theorem Inv.of_error_fst {r : Except (Mach × β) α} {x : β} (e : r = .error (m, x)) (h : ResultIs (fun x => Inv σ x.1) Q r) :
    Inv σ m := by
  subst e
  exact h

theorem Inv.of_some {r : Option Mach} (e : r = some m) (h : SomeIs (fun x => Inv σ x) r) : Inv σ m := by
  subst e
  exact h

theorem Inv.of_some_fst {r : Option (Mach × α)} {x : α} (e : r = some (m, x)) (h : SomeIs (fun x => Inv σ x.1) r) :
    Inv σ m := by
  subst e
  exact h

theorem Inv.of_trap {r : Got α} {c : Cause} {a : Dword} (e : r = .trap m c a) (h : GotIn σ r) : Inv σ m := by
  subst e
  exact h

theorem Inv.of_hold {r : Got α} (e : r = .hold m) (h : GotIn σ r) : Inv σ m := by
  subst e
  exact h

theorem Inv.of_done {r : Got α} {x : α} (e : r = .done m x) (h : GotIn σ r) : Inv σ m := by
  subst e
  exact h
end

theorem Inv.located {r : Except (Cause × Dword) Located} {l : Located} {P} (e : r = .ok l)
    (h : ResultIs P (fun x => Inv σ x.m) r) : Inv σ l.m := by
  subst e
  exact h

theorem Inv.grew (h : Inv σ m) : Grew σ m := ⟨σ.next, le_rfl, h⟩

/-- What keeps a later claim, applied to a module of which one holds. -/
theorem Grew.bind {m' : Mach} (h : Grew σ m) (hf : ∀ τ : Claim, σ.Le τ → Inv τ m → Grew τ m') : Grew σ m' := by
  obtain ⟨n, hn, h⟩ := h
  obtain ⟨k, hk, h'⟩ := hf _ (.grown hn) h
  exact ⟨k, hn.trans hk, h'⟩

theorem Leads.next {t : State} (h : Grew σ t.m) : Leads σ (.next t) := fun _ e => by
  cases e
  exact h

theorem Leads.fault {f : Fault} : Leads σ (.fault f) := fun _ e => nomatch e

protected theorem Leads.event {s : State} {f : Mach → Mach} (h : Grew σ (f s.m)) : Leads σ (event s f) := Leads.next h

protected theorem Leads.groupStep {s : State} {f : Nat → Group → Mach} (h : Inv σ s.m)
    (hf : ∀ g, s.m.grp? s.m.cur = some g → GroupIn σ s.m.cur g → Grew σ (f s.m.cur g)) : Leads σ (groupStep s f) := by
  unfold groupStep onMach onGroup
  cases e : s.m.grp? s.m.cur with
  | none => exact Leads.fault
  | some g => exact Leads.next (hf g e (GroupIn.of_grp? e h))

theorem NumIn.of_ringAt {a k : Nat} {t : Team} (e : ringAt m a = some (k, t)) (h : Inv σ m) : NumIn σ k :=
  h.teams _ (List.mem_of_find?_eq_some e)

end Sys2Proof.Machine
end

section
/-! PROOF. Memory and counts, reports, traps, and the end of a scalar instruction.
-/

namespace Sys2Proof.Machine
variable {σ τ : Claim} {m : Mach} {gid : Nat} {g : Group}

theorem Inv.putTeam {k : Nat} {x : Team} (h : Inv σ m) (hk : NumIn σ k) : Inv σ { m with teams := aput m.teams k x } :=
  h.setTeam hk

protected theorem Inv.pokeByte {l : Loc} {b : Byte} (h : Inv σ m) : Inv σ (pokeByte m l b) := by
  unfold Machine.pokeByte
  exact h.upd_mem (fun hx => wf_memWrite _ _ _ (h.mem hx))

protected theorem Inv.writeByte {l : Loc} {b : Byte} (h : Inv σ m) : Inv σ (writeByte m l b) := by
  unfold Machine.writeByte
  split
  · split
    · exact h
    · split
      · exact h
      · split
        next he1 => exact h.putTeam (NumIn.of_ringAt he1 h)
        · exact h.pokeByte
  · exact h.pokeByte

protected theorem Inv.putBytes {bs : List Byte} : ∀ {m : Mach} {l : Loc}, Inv σ m → Inv σ (putBytes m l bs) := by
  induction bs with
  | nil => exact fun h => h
  | cons b bs ih => exact fun h => ih h.writeByte

protected theorem Inv.touchWord {w : Nat} (h : Inv σ m) : Inv σ (touchWord m w) := by
  unfold Machine.touchWord
  exact h.upd_touched (fun hx => amapWf_aput _ _ _ (h.touchedRise hx))

protected theorem Inv.touch {l : Loc} {n : Nat} (h : Inv σ m) : Inv σ (touch m l n) := by
  unfold Machine.touch
  split
  · exact h.foldl (fun _ _ _ h1 => h1.touchWord)
  · exact h

protected theorem Inv.writeBytes {l : Loc} {bs : List Byte} (h : Inv σ m) : Inv σ (writeBytes m l bs) := by
  unfold Machine.writeBytes
  exact h.touch.putBytes

protected theorem Inv.writeNat {l : Loc} {n x : Nat} (h : Inv σ m) : Inv σ (writeNat m l n x) := by
  unfold Machine.writeNat
  exact h.writeBytes

protected theorem Inv.makeIndet {l : Loc} {n : Nat} (h : Inv σ m) : Inv σ (makeIndet m l n) := by
  unfold Machine.makeIndet
  split
  · exact h
  · exact h.of_frame

protected theorem Inv.discardIndet {gid : Nat} {l : Loc} {n : Nat} (h : Inv σ m) : Inv σ (discardIndet m gid l n) := by
  unfold Machine.discardIndet
  split
  · exact h
  · exact h.of_frame

protected theorem Inv.wipeRange {lo hi : Nat} (h : Inv σ m) : Inv σ (wipeRange m lo hi) := by
  unfold Machine.wipeRange
  exact h.upd_mem (fun hx => wf_filter _ _ (h.mem hx))

protected theorem Inv.countAt {unit ctx node : Nat} {stamp : Dword} {n : Int} (h : Inv σ m) :
    Inv σ (countAt m unit ctx node stamp n) := by
  unfold Machine.countAt
  exact h.setCluster

protected theorem Inv.progress {ctx : Nat} (h : Inv σ m) : Inv σ (progress m ctx) := by
  unfold Machine.progress
  split
  next he =>
    have hc := CtxIn.of_aget he h
    exact h.setCtx hc
  · exact h

protected theorem Inv.applyRoot {ds : List Count} (h : Inv σ m) : Inv σ (applyRoot m ds) := by
  unfold Machine.applyRoot
  exact h.of_frame.foldl (fun _ _ _ h1 => h1.progress)

protected theorem Inv.flushUnit {unit : Nat} (h : Inv σ m) : Inv σ (flushUnit m unit) := by
  unfold Machine.flushUnit
  exact h.setCluster.setDie.applyRoot

protected theorem Inv.sendUnit {unit : Nat} (h : Inv σ m) : Inv σ (sendUnit m unit) := by
  unfold Machine.sendUnit
  exact h.setCluster.setDie

protected theorem Inv.sendDie {die : Nat} (h : Inv σ m) : Inv σ (sendDie m die) := by
  unfold Machine.sendDie
  exact h.setDie.applyRoot

protected theorem Inv.flushAll (h : Inv σ m) : Inv σ (flushAll m) := by
  unfold Machine.flushAll
  exact (h.foldl (fun _ _ _ h1 => h1.sendUnit)).foldl (fun _ _ _ h1 => h1.sendDie)

protected theorem Inv.takeFrom {own unit ctx node : Nat} {stamp : Dword} (h : Inv σ m) :
    Inv σ (takeFrom m own unit ctx node stamp) := by
  unfold Machine.takeFrom
  extract_lets
  split
  · exact h.countAt
  · split
    · exact h.countAt.sendUnit
    · exact h.countAt.flushUnit

protected theorem Inv.takeHere {g : Group} {node : Nat} {stamp : Dword} (h : Inv σ m) : Inv σ (takeHere m g node stamp) := by
  unfold Machine.takeHere
  exact h.takeFrom

protected theorem Inv.sendFull (h : Inv σ m) : Inv σ (sendFull m) := by
  unfold Machine.sendFull
  exact (h.foldl (fun _ _ _ h1 => h1.sendUnit)).foldl (fun _ _ _ h1 => h1.sendDie)

protected theorem Inv.countRoot {ctx node : Nat} {stamp : Dword} {n : Int} (h : Inv σ m) :
    Inv σ (countRoot m ctx node stamp n) := by
  unfold Machine.countRoot
  exact h.applyRoot

protected theorem Inv.dropAt {unit ctx node : Nat} {stamp : Dword} (h : Inv σ m) : Inv σ (dropAt m unit ctx node stamp) := by
  unfold Machine.dropAt
  exact h.countAt

protected theorem Inv.report {ctx : Nat} {r : Report} (h : Inv σ m) : Inv σ (report m ctx r) := by
  unfold Machine.report
  split
  · exact h
  next he =>
    have hc := CtxIn.of_aget he h
    exact h.writeNat.writeNat.writeNat.writeNat.writeNat.writeNat.writeNat.writeNat.setCtx hc

protected theorem GroupIn.fold {g : Group} {code : Dword} (hg : GroupIn σ gid g) : GroupIn σ gid (Group.fold g code) := by
  unfold Machine.Group.fold
  split
  · exact hg
  · split
    · exact hg
    · exact hg

protected theorem GroupIn.dropHoles {g : Group} (hg : GroupIn σ gid g) : GroupIn σ gid (Group.dropHoles g) := by
  unfold Machine.Group.dropHoles
  split
  · exact hg

protected theorem GroupIn.setS {g : Group} {r : Sreg} {x : Dword} (hg : GroupIn σ gid g) :
    GroupIn σ gid (Group.setS g r x) := by
  unfold Machine.Group.setS
  exact GroupIn.ite hg hg

protected theorem GroupIn.setPred {g : Group} {k l : Nat} {b : Bool} (hg : GroupIn σ gid g) :
    GroupIn σ gid (Group.setPred g k l b) := by
  unfold Machine.Group.setPred
  exact GroupIn.ite hg hg

protected theorem GroupIn.restartChain (hg : GroupIn σ gid g) : GroupIn σ gid g.restartChain := by
  unfold Group.restartChain
  split
  · exact hg
  next c hc =>
    exact hg.requeue
      (fun hf => .append (.map (hg.issued hf hc) fun _ => rfl) (hg.liq hf))
      (fun hf _ => hg.aside hf) (fun _ _ h => nomatch h) rfl rfl rfl

protected theorem Inv.freezeTile {wid : Nat} (h : Inv σ m) : Inv σ (freezeTile m wid) := by
  unfold Machine.freezeTile
  split
  · exact h
  · extract_lets nt nk m1 m2 parts w1
    have h1 : Inv σ m1 := h.upd_summons fun hf => amapWf_afilter _ _ (h.summonsRise hf)
    have h2 : Inv σ m2 := h1.upd_summons fun hf => amapWf_amap _ _ (h1.summonsRise hf)
    split
    · exact h
    · split
      · exact h.setWalk
      · exact h2.setWalk

protected theorem Inv.suspendQueues {ctx : Nat} (h : Inv σ m) : Inv σ (suspendQueues m ctx) := by
  unfold Machine.suspendQueues
  exact h.upd_queues (fun hx => amapWf_amap _ _ (h.queuesRise hx))

protected theorem Inv.freezeWalks {ctx : Nat} (h : Inv σ m) : Inv σ (freezeWalks m ctx) := by
  unfold Machine.freezeWalks
  exact h.foldl (fun _ _ _ h1 => h1.freezeTile)

protected theorem Inv.restartChains {ctx : Nat} (h : Inv σ m) : Inv σ (restartChains m ctx) := by
  unfold Machine.restartChains
  refine { h with groupsRise := ?_, coresRise := ?_, groups := ?_ } <;> dsimp only
  · exact fun hf => amapWf_amap _ _ (h.groupsRise hf)
  · exact fun hf => amapWf_amap _ _ (h.coresRise hf)
  · exact forall_mem_amap fun kg hk => GroupIn.ite (h.groups kg hk).restartChain (h.groups kg hk)

protected theorem Inv.stopContext {ctx : Nat} (h : Inv σ m) : Inv σ (stopContext m ctx) := by
  unfold Machine.stopContext
  split
  · exact h
  next he =>
    have hc := CtxIn.of_aget he h
    extract_lets m1
    have hm1 : Inv σ m1 := by
      unfold m1
      split
      · exact Inv.suspendQueues (h.setCtx hc)
      · exact h
    exact hm1.restartChains.freezeWalks

protected theorem Inv.stopGroup {gid cause : Nat} {t : TrapInfo} (h : Inv σ m) : Inv σ (stopGroup m gid cause t) := by
  unfold Machine.stopGroup
  split
  · exact h
  next he =>
    have hg := GroupIn.of_grp? he h
    exact Inv.stopContext (Inv.report (h.setGrp hg))

protected theorem Inv.overload {gid : Nat} {t : TrapInfo} (h : Inv σ m) : Inv σ (overload m gid t) := by
  unfold Machine.overload
  split
  · exact h
  next he =>
    have hg := GroupIn.of_grp? he h
    exact Inv.stopContext (Inv.report (h.setGrp hg))

protected theorem Inv.hostGroup {gid : Nat} {t : TrapInfo} (h : Inv σ m) : Inv σ (hostGroup m gid t) := by
  unfold Machine.hostGroup
  split
  · exact h
  next he =>
    have hg := GroupIn.of_grp? he h
    exact Inv.report (h.setGrp hg)

protected theorem Inv.raiseTrap {gid : Nat} {t : TrapInfo} (h : Inv σ m) : Inv σ (raiseTrap m gid t) := by
  unfold Machine.raiseTrap
  split
  · exact h
  next he =>
    have hg := GroupIn.of_grp? he h
    split
    · exact h
    · extract_lets
      split
      · exact h.overload
      · split
        · exact h.setGrp hg
        · split
          · exact h.hostGroup
          · exact h.stopGroup

protected theorem Inv.takeTrap {gid : Nat} {t : TrapInfo} (h : Inv σ m) : Inv σ (takeTrap m gid t) := by
  unfold Machine.takeTrap
  split
  · exact h
  · split
    · exact h.overload
    · exact h.raiseTrap

protected theorem Inv.scalarTrapTo {gid : Nat} {cause : Cause} {code : Nat} {addr resume : Dword} (h : Inv σ m) :
    Inv σ (scalarTrapTo m gid cause code addr resume) := by
  unfold Machine.scalarTrapTo
  split
  · exact h
  next he =>
    have hg := GroupIn.of_grp? he h
    extract_lets
    split
    · exact Inv.takeTrap (h.setGrp hg)
    · exact h.setGrp hg

protected theorem Inv.scalarTrapAt {gid : Nat} {cause : Cause} {addr : Dword} (h : Inv σ m) :
    Inv σ (scalarTrapAt m gid cause addr) := by
  unfold Machine.scalarTrapAt
  split
  · exact h
  · exact h.scalarTrapTo

protected theorem Inv.scalarTrap {gid : Nat} {cause : Cause} (h : Inv σ m) : Inv σ (scalarTrap m gid cause) := by
  unfold Machine.scalarTrap
  exact h.scalarTrapAt

protected theorem Inv.advance {gid : Nat} {g : Group} {pc : Dword} (h : Inv σ m) (hg : GroupIn σ gid g) :
    Inv σ (advance m gid g pc) := by
  unfold Machine.advance
  exact h.setGrp hg

protected theorem Inv.finish {gid : Nat} {g : Group} {pc code : Dword} (h : Inv σ m) (hg : GroupIn σ gid g) :
    Inv σ (finish m gid g pc code) := by
  unfold Machine.finish
  exact h.advance hg.fold

protected theorem Inv.retire {gid : Nat} {g : Group} {code : Dword} (h : Inv σ m) (hg : GroupIn σ gid g) :
    Inv σ (retire m gid g code) := by
  unfold Machine.retire
  exact h.finish hg

protected theorem Inv.waitFor {gid : Nat} {g : Group} {why : WaitWhy} (h : Inv σ m) (hg : GroupIn σ gid g) :
    Inv σ (waitFor m gid g why) := by
  unfold Machine.waitFor
  split
  · exact h.setGrp hg
  · exact h.setGrp hg

protected theorem Inv.wait {gid : Nat} {g : Group} (h : Inv σ m) (hg : GroupIn σ gid g) : Inv σ (wait m gid g) := by
  unfold Machine.wait
  exact h.waitFor hg

end Sys2Proof.Machine
end

section
/-! PROOF. Translation, the fabric, caches and the accesses of a group.
-/

namespace Sys2Proof.Machine
variable {σ τ : Claim} {m : Mach} {gid : Nat} {g : Group}

protected theorem Inv.dropLeaf {core ctx va : Nat} (h : Inv σ m) : Inv σ (dropLeaf m core ctx va) := by
  unfold Machine.dropLeaf
  exact h.setCore.setCluster

protected theorem ResultIs.walkFresh {core ctx va : Nat} {k : AKind} (h : Inv σ m) : ResultIs (fun _ => True)
    (fun x => Inv σ x.1) (walkFresh m core ctx va k) := by
  unfold Machine.walkFresh
  extract_lets
  split
  · exact trivial
  · split
    · exact trivial
    · split
      · exact trivial
      · split
        · split
          · exact trivial
          · extract_lets _ m1
            have hm1 : Inv σ m1 := by
              unfold m1
              split
              · exact h.dropLeaf
              · exact h.dropLeaf.writeNat
            split
            · exact trivial
            · exact hm1.setCore.setCluster.setDie.bump

protected theorem ResultIs.translate {core ctx va : Nat} {k : AKind} (h : Inv σ m) : ResultIs (fun _ => True)
    (fun x => Inv σ x.1) (translate m core ctx va k) := by
  unfold Machine.translate
  split
  · exact trivial
  · split
    · split
      · exact h.bump
      · exact ResultIs.walkFresh h
    · exact ResultIs.walkFresh h

protected theorem Inv.afterFault {core ctx va : Nat} {k : AKind} (h : Inv σ m) : Inv σ (afterFault m core ctx va k) := by
  unfold Machine.afterFault
  split
  next he => exact Inv.of_ok_fst he (ResultIs.translate h)
  · split
    · exact h.dropLeaf
    · exact h

protected theorem Inv.keepLines {port far n : Nat} (h : Inv σ m) : Inv σ (keepLines m port far n) := by
  unfold Machine.keepLines
  extract_lets
  split
  · split
    · exact h.setDie.bump
    · exact h.bump
  · exact h

/-- Counts of a port that stay in their widths. -/
theorem PortIn.counts {x : Port} (hx : PortIn σ x) {r t l : Nat} (hr : r < 2 ^ 16 ∨ r = x.replay) (ht : t < 2 ^ 16 ∨ t = x.tmo)
    (hl : l < 2 ^ 16 ∨ l = x.lost) : PortIn σ { x with replay := r, tmo := t, lost := l } := fun hf => by
  obtain ⟨hc, hr0, ht0, hl0⟩ := hx hf
  refine ⟨hc, ?_, ?_, ?_⟩
  · rcases hr with h | rfl <;> assumption
  · rcases ht with h | rfl <;> assumption
  · rcases hl with h | rfl <;> assumption

protected theorem Inv.countEnded {port : Nat} (h : Inv σ m) : Inv σ (countEnded m port) :=
  h.upd_port fun _ hx => hx.counts (.inr rfl) (.inl (by omega)) (.inr rfl)

protected theorem Inv.farRead {l : Loc} {n : Nat} (h : Inv σ m) : Inv σ (farRead m l n).1 := by
  unfold Machine.farRead
  split
  · split
    · exact h.countEnded.bump
    · exact h.bump.keepLines
  · exact h

protected theorem Inv.farWrite {l : Loc} {bs : List Byte} (h : Inv σ m) : Inv σ (farWrite m l bs) := by
  unfold Machine.farWrite
  split
  · split
    · extract_lets
      split
      · exact h.countEnded.bump.bump
      · exact h.countEnded.bump.bump.writeBytes
    · exact h.bump.keepLines.writeBytes
  · exact h.writeBytes

protected theorem ResultIs.locateFor {core ctx va : Nat} {k : AKind} (h : Inv σ m) : ResultIs (fun x => Inv σ x.1)
    (fun x => Inv σ x.1) (locateFor m core ctx va k) := by
  unfold Machine.locateFor
  split
  · exact h.afterFault
  next he =>
    split
    · exact Inv.of_ok_fst he (ResultIs.translate h)
    · exact Inv.of_ok_fst he (ResultIs.translate h)

protected theorem ResultIs.readVirtual {core ctx n : Nat} : ∀ {m : Mach} {va : Nat} {acc : List Byte}, Inv σ m →
    ResultIs (fun x => Inv σ x.1) (fun x => Inv σ x.1) (readVirtual core ctx n m va acc) := by
  induction n with
  | zero => exact fun h => h
  | succ n ih =>
    intro m va acc h
    unfold Machine.readVirtual
    split
    next he => exact Inv.of_error_fst he (ResultIs.locateFor h)
    next he =>
      have h1 := Inv.of_ok_fst he (ResultIs.locateFor h)
      split
      next he1 => exact ih (Inv.of_fst he1 h1.farRead)

protected theorem ResultIs.writeVirtual {core ctx : Nat} {bs : List (List Byte)} : ∀ {m : Mach} {va : Nat}, Inv σ m →
    ResultIs (fun x => Inv σ x.1) (fun x => Inv σ x) (writeVirtual core ctx bs m va) := by
  induction bs with
  | nil => exact fun h => h
  | cons b bs ih =>
    intro m va h
    unfold Machine.writeVirtual
    split
    next he => exact Inv.of_error_fst he (ResultIs.locateFor h)
    next he => exact ih (Inv.of_ok_fst he (ResultIs.locateFor h)).farWrite

protected theorem Inv.filterCaches {keepLeaf : TlbEntry → Bool} {keepTable : WalkEntry → Bool} (h : Inv σ m) :
    Inv σ (filterCaches m keepLeaf keepTable) := by
  unfold Machine.filterCaches
  refine { h with coresRise := ?_, clustersRise := ?_, diesRise := ?_ } <;> dsimp only
  · exact fun hx => amapWf_amap _ _ (h.coresRise hx)
  · exact fun hx => amapWf_amap _ _ (h.clustersRise hx)
  · exact fun hx => amapWf_amap _ _ (h.diesRise hx)

protected theorem Inv.dropContextCaches {ctx : Nat} (h : Inv σ m) : Inv σ (dropContextCaches m ctx) := by
  unfold Machine.dropContextCaches
  exact h.filterCaches

protected theorem ResultIs.locateVirtual {g : Group} {va : Nat} {k : AKind} (h : Inv σ m) : ResultIs (fun _ => True)
    (fun x => Inv σ x.m) (locateVirtual m g va k) := by
  unfold Machine.locateVirtual
  split
  · exact trivial
  next he =>
    extract_lets found
    clear_value found
    split
    · exact trivial
    · exact Inv.of_ok_fst he (ResultIs.translate h)

protected theorem ResultIs.locate {g : Group} {lane va size : Nat} {k : AKind} {arm : Bool} (h : Inv σ m) :
    ResultIs (fun _ => True) (fun x => Inv σ x.m) (locate m g lane va size k arm) := by
  unfold Machine.locate
  extract_lets _ _ win _ spad
  split
  · exact trivial
  · split
    · exact ResultIs.locateVirtual h
    · clear_value win
      split
      · split
        · unfold spad
          split
          · exact h
          · exact trivial
        · exact trivial
      · split
        · unfold spad
          split
          · exact h
          · exact trivial
        · exact trivial
      · split
        · split
          · exact h
          · exact trivial
        · exact trivial
      · split
        · split
          · exact h
          · exact trivial
        · exact trivial
      · split
        · split
          · split
            · exact ResultIs.locateVirtual h
            · exact trivial
          · exact trivial
        · exact trivial

protected theorem Inv.afterLocate {g : Group} {lane va : Nat} {k : AKind} (h : Inv σ m) :
    Inv σ (afterLocate m g lane va k) := by
  unfold Machine.afterLocate
  split
  · exact h.afterFault
  · split
    · split
      · exact h.afterFault
      · exact h
    · exact h

protected theorem Inv.countFlits {ctx port dir n : Nat} (h : Inv σ m) : Inv σ (countFlits m ctx port dir n) := by
  unfold Machine.countFlits
  exact h.upd_port (fun _ h1 => h1)

protected theorem Inv.landPst {id port far n : Nat} (h : Inv σ m) : Inv σ (landPst m id port far n) := by
  unfold Machine.landPst
  split
  · extract_lets now m0 m1
    have h0 : Inv σ m0 := by
      unfold m0
      split
      · exact h
      · exact h.countFlits
    have h1 : Inv σ m1 := h0.foldl fun _ _ _ h => h.writeBytes
    exact h1.upd_psts fun hf => amapWf_aput _ _ _ (h1.pstsRise hf)
  · exact h

protected theorem Inv.landPsts {l : Loc} {n upTo : Nat} (h : Inv σ m) : Inv σ (landPsts m l n upTo) := by
  unfold Machine.landPsts
  split
  · exact h.foldl (fun _ _ _ h1 => h1.landPst)
  · exact h

protected theorem Inv.landAll {l : Loc} {n : Nat} (h : Inv σ m) : Inv σ (landAll m l n) := by
  unfold Machine.landAll
  exact h.landPsts

protected theorem Inv.missBytes {g : Group} {l : Located} {pa size hint : Nat} (h : Inv σ m) :
    Inv σ (missBytes m g l pa size hint).1 := by
  unfold Machine.missBytes
  extract_lets
  split
  · exact h.setCore.bump
  · exact h.setCore

protected theorem Inv.loadBytes {g : Group} {l : Located} {size : Nat} {s : Scope} {hint : Nat} (h : Inv σ m) :
    Inv σ (loadBytes m g l size s hint).1 := by
  unfold Machine.loadBytes
  extract_lets
  split
  · split
    · split
      · split
        · exact h.bump
        · exact h.bump.missBytes
      · exact h.missBytes
    · exact h.setCore
  · exact h.landAll

protected theorem Inv.afterStore {gid : Nat} {g : Group} {l : Loc} (h : Inv σ m) : Inv σ (afterStore m gid g l) := by
  unfold Machine.afterStore
  split
  · split
    · exact h.makeIndet
    · exact h
  · split
    next he =>
      split
      · exact h.setTeam (NumIn.of_ringAt he h)
      · exact h
    · exact h
  · exact h

protected theorem CtxIn.scramble {c : Context} {f pa n : Nat} (hc : CtxIn σ c) : CtxIn σ (c.scramble f pa n) :=
  fun hf => amapWf_foldl_aput _ _ _ _ (hc hf)

protected theorem Inv.poolStored {pa n : Nat} (h : Inv σ m) : Inv σ (poolStored m pa n) := by
  unfold Machine.poolStored
  split
  · refine { h with ctxsRise := ?_, ctxs := ?_ } <;> dsimp only
    · exact fun hx => amapWf_amap _ _ (h.ctxsRise hx)
    · exact forall_mem_amap (fun _ hx => (h.ctxs _ hx).scramble)
  · exact h

protected theorem Inv.storeBytes {gid : Nat} {g : Group} {l : Located} {bs : List Byte} {hint : Nat} (h : Inv σ m) :
    Inv σ (storeBytes m gid g l bs hint) := by
  unfold Machine.storeBytes
  extract_lets
  split
  · exact h.landAll.writeBytes.setCore.poolStored
  · exact h.landAll.writeBytes.afterStore

protected theorem Inv.atomicBytes {gid : Nat} {g : Group} {l : Located} {size : Nat} {f : Nat → Option Nat} (h : Inv σ m) :
    Inv σ (atomicBytes m gid g l size f).1 := by
  unfold Machine.atomicBytes
  extract_lets _ _ _ m1
  have hm1 : Inv σ m1 := by
    unfold m1
    split
    · exact h.landAll.setCore
    · exact h.landAll
  split
  · exact hm1
  · extract_lets
    split
    · exact hm1.writeBytes.poolStored
    · exact hm1.writeBytes.afterStore

protected theorem Inv.seeBinds {g : Group} (h : Inv σ m) : Inv σ (seeBinds m g) := by
  unfold Machine.seeBinds
  split
  next he =>
    split
    · exact h
    · exact h.setTeam (NumIn.of_aget_teams he h)
  · exact h

protected theorem Inv.acquireAt {g : Group} {s : Scope} (h : Inv σ m) : Inv σ (acquireAt m g s) := by
  unfold Machine.acquireAt
  extract_lets _ m1
  have hm1 : Inv σ m1 := by
    unfold m1
    split
    · exact h
    · exact h.seeBinds
  split
  · exact hm1.setCore
  · exact hm1

protected theorem Inv.releaseBy {gid : Nat} {g : Group} (h : Inv σ m) : Inv σ (releaseBy m gid g) := by
  unfold Machine.releaseBy
  refine { h with teamsRise := ?_, teams := ?_ } <;> dsimp only
  · exact fun hx => amapWf_amap _ _ (h.teamsRise hx)
  · exact forall_mem_amap h.teams

protected theorem Inv.sendOver {gid : Nat} {g : Group} {ports : List Nat} (h : Inv σ m) (hg : GroupIn σ gid g) :
    Inv σ (sendOver m gid g ports) := by
  unfold Machine.sendOver
  exact Inv.bump (h.setGrp hg)

protected theorem Inv.useLine {l : Loc} {n : Nat} (h : Inv σ m) : Inv σ (useLine m l n) := by
  unfold Machine.useLine
  split
  · exact h.keepLines
  · exact h

end Sys2Proof.Machine
end

section
/-! PROOF. Scalar accesses, the end of groups, teams, kernels and walks, and the rollback of a region.
-/

namespace Sys2Proof.Machine
variable {σ τ : Claim} {m : Mach} {gid : Nat} {g : Group}

protected theorem GroupIn.returnFromTrap {core : Core} (hg : GroupIn σ gid g) : GroupIn σ gid (returnFromTrap core g) :=
  hg.requeue
    (fun hf => by
      unfold returnFromTrap
      cases ha : g.aside with
      | none => exact hg.liq hf
      | some q => exact hg.aside hf ha)
    (fun _ _ h => nomatch h) (fun hf _ => hg.issued hf) rfl rfl rfl

protected theorem Inv.onGot {α : Type} {x : Got α} {k : Mach → α → Mach} (hx : GotIn σ x)
    (hk : ∀ m v, x = .done m v → Inv σ m → Inv σ (k m v)) : Inv σ (onGot gid x k) := by
  unfold Machine.onGot
  split
  · exact Inv.scalarTrapAt hx
  · exact hx
  · exact hk _ _ rfl hx

theorem foldl_aput_wf {α β : Type} {k : β → Nat} {v : β → α} (l : List β) {m : AMap α} (h : amapWf m = true) :
    amapWf (l.foldl (fun m x => aput m (k x) (v x)) m) = true := amapWf_foldl_aput k (fun _ => v) l m h

protected theorem GroupIn.restore {r : Region} (hg : GroupIn σ gid g) : GroupIn σ gid (r.restore g) := by
  unfold Region.restore GroupIn GroupPartsIn
  dsimp only
  exact ⟨fun hf => ⟨hg.liq hf, fun _ => hg.aside hf, fun _ => hg.issued hf, foldl_aput_wf _ (amapWf_afilter _ _ (hg.v hf)),
    hg.rgn hf⟩, hg.2⟩

protected theorem GroupIn.rearm {g : Group} (hg : GroupIn σ gid g) : GroupIn σ gid (Group.rearm g) := by
  unfold Machine.Group.rearm
  exact hg

protected theorem GroupIn.stopStreams (hg : GroupIn σ gid g) : GroupIn σ gid g.stopStreams :=
  hg.requeue (fun _ => laneEntries_nil) (fun _ _ h => nomatch h) (fun _ _ h => nomatch h) rfl rfl rfl

protected theorem GotIn.throughPort {α : Type} {port : Option Nat} {perform ended : Mach → Mach × α} (h : Inv σ m)
    (hg : GroupIn σ gid g) (hp : ∀ m, Inv σ m → Inv σ (perform m).1) (he : ∀ m, Inv σ m → Inv σ (ended m).1) :
    GotIn σ (throughPort m gid g port perform ended) := by
  unfold Machine.throughPort
  split
  · exact hp m h
  · split
    · exact h.sendOver hg
    · exact h
    · split
      next e =>
        split at e
        · exact Inv.of_fst e (he m h)
        · exact Inv.of_fst e (hp m h)

protected theorem GotIn.scalarLoad {gid : Nat} {g : Group} {va size : Nat} {s : Scope} {arm : Bool} (h : Inv σ m)
    (hg : GroupIn σ gid g) : GotIn σ (scalarLoad m gid g va size s arm) := by
  unfold Machine.scalarLoad
  split
  · exact h
  · split
    · exact h.afterLocate
    next he =>
      refine GotIn.throughPort (Inv.located he (ResultIs.locate h)) hg ?_ (fun _ h1 => h1)
      intro m1 h1
      split
      next he1 => exact Inv.of_fst he1 h1.useLine.loadBytes

protected theorem GotIn.scalarStore {gid : Nat} {g : Group} {va size x : Nat} (h : Inv σ m) (hg : GroupIn σ gid g) :
    GotIn σ (scalarStore m gid g va size x) := by
  unfold Machine.scalarStore
  split
  · exact h
  · split
    · exact h.afterLocate
    next he =>
      refine GotIn.throughPort (Inv.located he (ResultIs.locate h)) hg (fun _ h1 => h1.useLine.storeBytes) ?_
      intro m1 h1
      split
      · exact h1.bump
      · exact h1.storeBytes.bump

protected theorem GotIn.scalarAtomic {gid : Nat} {g : Group} {va : Nat} {f : Nat → Option Nat} (h : Inv σ m)
    (hg : GroupIn σ gid g) : GotIn σ (scalarAtomic m gid g va f) := by
  unfold Machine.scalarAtomic
  extract_lets
  split
  · exact h
  · split
    · exact h.afterLocate
    next he =>
      refine GotIn.throughPort (Inv.located he (ResultIs.locate h)) hg (fun _ h1 => h1.useLine.atomicBytes) ?_
      intro m1 h1
      split
      · exact h1.bump
      · exact h1.atomicBytes.bump

protected theorem GotIn.recordBytes {n : Nat} : ∀ {m : Mach} {va : Nat} {acc : List Byte}, Inv σ m →
    GotIn σ (recordBytes g n m va acc) := by
  induction n with
  | zero => exact fun h => h
  | succ n ih =>
    intro m va acc h
    unfold Machine.recordBytes
    split
    · exact h.afterLocate
    next hl =>
      have h1 := Inv.located hl (ResultIs.locate h)
      split
      next e =>
        split at e
        · exact ih (Inv.of_fst e h1)
        · exact ih (Inv.of_fst e h1.useLine.loadBytes)

protected theorem GotIn.recordAll {n : Nat} {more : List Byte → Nat} {va : Nat} (h : Inv σ m) :
    GotIn σ (recordAll g n more m va) := by
  unfold Machine.recordAll
  split
  next e => exact GotIn.recordBytes (Inv.of_done e (GotIn.recordBytes h))
  · exact GotIn.recordBytes h

protected theorem GotIn.recordLoadMore {gid : Nat} {g : Group} {n : Nat} {more : List Byte → Nat} {va : Nat} (h : Inv σ m)
    (hg : GroupIn σ gid g) : GotIn σ (recordLoadMore gid g n more m va) := by
  unfold Machine.recordLoadMore
  split
  · exact h
  · exact GotIn.recordAll h
  · split
    · exact GotIn.recordAll h
    · exact h.sendOver hg

protected theorem GotIn.recordLoad {gid : Nat} {g : Group} {n va : Nat} (h : Inv σ m) (hg : GroupIn σ gid g) :
    GotIn σ (recordLoad gid g n m va) := by
  unfold Machine.recordLoad
  exact GotIn.recordLoadMore h hg

protected theorem Inv.endPackets {kind ref : Nat} {status : Dword} (h : Inv σ m) : Inv σ (endPackets m kind ref status) := by
  unfold Machine.endPackets
  exact h.upd_queues (fun hx => amapWf_amap _ _ (h.queuesRise hx))

protected theorem Inv.settleContext {ctx : Nat} (h : Inv σ m) : Inv σ (settleContext m ctx) := by
  unfold Machine.settleContext
  split
  · exact h
  next he =>
    have hc := CtxIn.of_aget he h
    split
    · exact h.setCtx hc
    · exact h

protected theorem Inv.checkKernel {kid : Nat} (h : Inv σ m) : Inv σ (checkKernel m kid) := by
  unfold Machine.checkKernel
  split
  · exact h
  · extract_lets
    split
    · split
      · exact h.setKern.progress.endPackets.settleContext
      · exact h.setKern
    · exact h

protected theorem Inv.endTeam {tid : Nat} (h : Inv σ m) : Inv σ (endTeam m tid) := by
  unfold Machine.endTeam
  split
  · exact h
  next t _ =>
    split
    · exact h
    · extract_lets mine kerns m1 m2
      have hk : σ.form → amapWf kerns = true := fun hf => by
        unfold kerns
        split
        · exact amapWf_aput _ _ _ (h.kernsRise hf)
        · exact h.kernsRise hf
      have h1 : Inv σ m1 :=
        { h with slotsRise := fun hf => amapWf_filter _ _ (h.slotsRise hf),
                 teamsRise := fun hf => amapWf_adel _ _ (h.teamsRise hf), teams := forall_mem_adel h.teams, kernsRise := hk }
      have h2 : Inv σ m2 := h1.foldl fun _ _ _ hm => hm.writeNat
      split
      · exact h2.writeNat
      · exact h2

protected theorem Inv.removeGroup {gid : Nat} (h : Inv σ m) : Inv σ (removeGroup m gid) := by
  unfold Machine.removeGroup
  split
  · exact h
  · extract_lets c m1 m2 m3
    have h1 : Inv σ m1 := h.upd_groups (fun hf => amapWf_adel _ _ (h.groupsRise hf)) (forall_mem_adel h.groups)
    have h3 : Inv σ m3 := by
      unfold m3
      split
      · exact h1.setCore.makeIndet
      · exact h1.setCore
    exact h3.endTeam

protected theorem Inv.dropOwn {gid : Nat} (h : Inv σ m) : Inv σ (dropOwn m gid) := by
  unfold Machine.dropOwn
  split
  · exact h
  next he =>
    have hg := GroupIn.of_grp? he h
    split
    · exact Inv.dropAt (h.setGrp hg)
    · exact h

protected theorem Inv.endParked {kid : Nat} (h : Inv σ m) : Inv σ (endParked m kid) := by
  unfold Machine.endParked
  extract_lets
  split
  · exact h
  · split
    · exact h.foldl (fun _ _ _ h1 => h1.removeGroup)
    · exact h

protected theorem Inv.sweepSpawned {ctx eng : Nat} (h : Inv σ m) : Inv σ (sweepSpawned m ctx eng) := by
  unfold Machine.sweepSpawned
  split
  · exact h
  · exact h.foldl (fun _ _ _ h1 => h1.removeGroup)

protected theorem Inv.settleKernel {kid : Nat} (h : Inv σ m) : Inv σ (settleKernel m kid) := by
  unfold Machine.settleKernel
  exact h.endParked.checkKernel

protected theorem Inv.writeResult {w : Walk} (h : Inv σ m) : Inv σ (writeResult m w) := by
  unfold Machine.writeResult
  extract_lets
  split
  next he => exact Inv.of_ok he (ResultIs.writeVirtual h)
  next he => exact Inv.of_error_fst he (ResultIs.writeVirtual h)

protected theorem Inv.retireWalk {wid : Nat} {w : Walk} (h : Inv σ m) : Inv σ (retireWalk m wid w) := by
  unfold Machine.retireWalk
  extract_lets m1 e m2 left m3
  have h1 : Inv σ m1 := Inv.foldl (h.upd_walks fun hf => amapWf_adel _ _ (h.walksRise hf)) fun _ _ _ h => h.setEngine
  have h2 : Inv σ m2 := h1.setEngine
  have h3 : Inv σ m3 := h2.upd_summons fun hf => amapWf_amap _ _ (amapWf_afilter _ _ (h2.summonsRise hf))
  exact h3.foldl fun _ _ _ h => h.sweepSpawned

protected theorem Inv.finishAbort {wid : Nat} (h : Inv σ m) : Inv σ (finishAbort m wid) := by
  unfold Machine.finishAbort
  split
  · exact h
  · extract_lets
    split
    · exact h
    · exact h.writeResult.retireWalk.endPackets.settleKernel

protected theorem Inv.abortWalk {wid cause : Nat} (h : Inv σ m) : Inv σ (abortWalk m wid cause) := by
  unfold Machine.abortWalk
  split
  · exact h
  · extract_lets
    split
    · exact h
    · exact ((h.setWalk.foldl (fun _ _ _ h1 => h1.setEngine)).upd_summons (fun hx => amapWf_amap _ _ (amapWf_afilter _ _
      ((h.setWalk.foldl (fun _ _ _ h1 => h1.setEngine)).summonsRise hx)))).finishAbort

protected theorem Inv.leaveService {g : Group} {cause : Nat} (h : Inv σ m) : Inv σ (leaveService m g cause) := by
  unfold Machine.leaveService
  split
  · exact h
  · extract_lets
    split
    · exact h
    · exact ((h.upd_summons (fun hx => amapWf_adel _ _ (h.summonsRise hx))).abortWalk).finishAbort

protected theorem Inv.killOne {gid cause src : Nat} (h : Inv σ m) : Inv σ (killOne m gid cause src) := by
  unfold Machine.killOne
  extract_lets
  split
  · exact h
  · extract_lets _ m3
    have hm3 : Inv σ m3 := by
      unfold m3
      split
      · exact h.report.setKern
      · exact h.report
    exact hm3.removeGroup.leaveService.settleKernel

protected theorem Inv.abandon {os : List Origin} (h : Inv σ m) : Inv σ (abandon m os) := by
  unfold Machine.abandon
  exact h.foldl (fun _ _ _ h1 => h1.killOne)

protected theorem Inv.killGroup {gid cause src : Nat} (h : Inv σ m) : Inv σ (killGroup m gid cause src) := by
  unfold Machine.killGroup
  exact h.killOne.abandon

protected theorem ResultIs.restoreKeep {n : Nat} : ∀ {m : Mach} {va : Nat} {bs : List Byte}, Inv σ m →
    ResultIs (fun x => Inv σ x) (fun x => Inv σ x) (restoreKeep gid g n m va bs) := by
  induction n with
  | zero => exact fun h => h
  | succ n ih =>
    intro m va bs h
    cases bs with
    | nil => exact h
    | cons b bs =>
      unfold Machine.restoreKeep
      extract_lets
      split
      · exact h.afterLocate
      next hl => exact ih (Inv.located hl (ResultIs.locate h)).storeBytes

protected theorem ResultIs.restoreKeeps {ks : List KeepRec} : ∀ {m : Mach}, Inv σ m →
    ResultIs (fun x => Inv σ x) (fun x => Inv σ x) (restoreKeeps gid g ks m) := by
  induction ks with
  | nil => exact fun h => h
  | cons k ks ih =>
    intro m h
    unfold Machine.restoreKeeps
    split
    next e => exact Inv.of_error e (ResultIs.restoreKeep h)
    next e => exact ih (Inv.of_ok e (ResultIs.restoreKeep h))

/-- A group whose regions are others, all of them saved in their masks. -/
theorem GroupIn.upd_rgn {rs : List Region} (hg : GroupIn σ gid g) (hr : SavedIn σ rs) : GroupIn σ gid { g with rgn := rs } :=
  hg.reload (fun hf => hg.v hf) hr rfl rfl rfl rfl

protected theorem Inv.rollback {src : Nat} {rs : List Region} : ∀ {m : Mach}, Inv σ m → SavedIn σ rs →
    Inv σ (rollback gid src rs m) := by
  induction rs with
  | nil => exact fun h _ => h.killGroup
  | cons r rs ih =>
    intro m h hr
    have hrs : SavedIn σ rs := fun hf x hx => hr hf x (List.mem_cons_of_mem _ hx)
    unfold Machine.rollback
    split
    · exact h
    next e =>
      have hg := GroupIn.of_grp? e h
      split
      next e1 => exact (Inv.of_error e1 (ResultIs.restoreKeeps h)).killGroup
      next m1 e1 =>
        have h1 := Inv.of_ok e1 (ResultIs.restoreKeeps h)
        have hg1 := GroupIn.regrp h1 hg
        extract_lets g1 g2
        split
        · exact h1.setGrp ((GroupIn.restore hg1).upd_rgn fun hf x hx => by
            rcases List.mem_cons.1 hx with rfl | hx
            · exact hr hf r List.mem_cons_self
            · exact hrs hf x hx)
        · exact ih (h1.setGrp (hg1.upd_rgn hrs)) hrs

protected theorem Inv.detectedError {gid src : Nat} (h : Inv σ m) : Inv σ (detectedError m gid src) := by
  unfold Machine.detectedError
  split
  · exact h
  next he =>
    have hg := GroupIn.of_grp? he h
    exact Inv.rollback (Inv.setCore (h.setGrp hg.stopStreams)) (SavedIn.of_group hg)

end Sys2Proof.Machine
end

section
/-! PROOF. The step of a lane instruction, the run that an LX takes, control flow, traps and system registers.
-/

namespace Sys2Proof.Machine
variable {σ τ : Claim} {m : Mach} {gid : Nat} {g : Group}

theorem amapWf_putV {v : AMap Word} {k : Nat} {x : Word} (h : amapWf v = true) : amapWf (putV v k x) = true := by
  unfold putV
  split
  · exact amapWf_adel _ _ h
  · exact amapWf_aput _ _ _ h

/-- A group whose v registers are others, with rising keys. -/
theorem GroupIn.upd_v {v : AMap Word} (hg : GroupIn σ gid g) (hv : σ.form → amapWf v = true) : GroupIn σ gid
    { g with v := v } :=
  hg.reload hv (fun hf => hg.rgn hf) rfl rfl rfl rfl

protected theorem GroupIn.setV {r l : Nat} {x : Word} {chk : Option Check} (hg : GroupIn σ gid g) :
    GroupIn σ gid (g.setV r l x chk) :=
  hg.upd_v fun hf => amapWf_putV (hg.v hf)

protected theorem GroupIn.raise {g : Group} {f : FFlags} (hg : GroupIn σ gid g) : GroupIn σ gid (Group.raise g f) := by
  unfold Machine.Group.raise
  exact hg

protected theorem GroupIn.writeReg {x : LaneIn} {shadow : Bool} {n : Nat} : ∀ {r l v : Nat} {g : Group}, GroupIn σ gid g →
    GroupIn σ gid (x.writeReg shadow r l v n g) := by
  induction n with
  | zero => exact fun h => h
  | succ n ih => exact fun h => ih h.setV

protected theorem GroupIn.foldl {α : Type} {f : Group → α → Group} {l : List α} (hg : GroupIn σ gid g)
    (hf : ∀ g x, GroupIn σ gid g → GroupIn σ gid (f g x)) : GroupIn σ gid (l.foldl f g) := by
  induction l generalizing g with
  | nil => exact hg
  | cons x l ih => exact ih (hf g x hg)

protected theorem GroupIn.write {x : LaneIn} {shadow : Bool} {n : Nat} {rs : List (Nat × Nat)} (hx : HeadIn σ gid x) :
    GroupIn σ gid (x.write shadow n rs) := by
  unfold LaneIn.write
  split
  · exact (GroupIn.of_head hx).foldl fun _ _ h => h.writeReg
  · exact GroupIn.of_head hx

protected theorem ChainIn.capture {x : LaneIn} {rs : List (Nat × Nat)} {c : Chain} (hc : ChainIn σ c) :
    ChainIn σ (x.capture rs c) := by
  unfold LaneIn.capture
  split
  · exact hc
  · exact hc

protected theorem Inv.laneFinish {e : LiqEntry} {i : Instr} {w : LaneWord} {c : Chain} (h : Inv σ m) (hg : GroupIn σ gid g)
    (he : EntryIn σ e) (hc : ChainIn σ c) : Inv σ (laneFinish m gid g e i w c) := by
  unfold Machine.laneFinish
  split
  extract_lets _ _ c1 _ g1 _ m1
  have hg1 : GroupIn σ gid g1 := by
    refine hg.requeue (fun hf => (hg.liq hf).of_subset (List.drop_subset 1 _)) (fun hf _ => hg.aside hf) (fun hf x hx => ?_)
      rfl rfl rfl
    have hx : (if w.stick then some c1 else none) = some x := hx
    split at hx
    · cases hx
      exact (hc hf).append fun y hy i hi => he hf i (by cases List.mem_singleton.1 hy; exact hi)
    · cases hx
  have h1 : Inv σ m1 := (h.setGrp hg1).setCore
  split
  · exact h1.of_frame
  · exact h1

protected theorem Inv.laneTrap {e : LiqEntry} {cause : Cause} {addr : Dword} (h : Inv σ m) (hg : GroupIn σ gid g) :
    Inv σ (laneTrap m gid g e cause addr) := by
  unfold Machine.laneTrap
  extract_lets first popped again g1 _ qs g2 m1
  have hg1 : GroupIn σ gid g1.rearm := hg.dropHoles.rearm
  have hg2 : GroupIn σ gid g2 :=
    hg1.requeue (fun _ => laneEntries_nil) (fun hf _ => hg1.aside hf) (fun _ _ h => nomatch h) rfl rfl rfl
  exact (h.setGrp hg2).setCore.takeTrap

theorem HeadIn.of_laneIn {s : State} {e : LiqEntry} {r : List LiqEntry} {i : Instr} {w : LaneWord} (hl : g.qs.liq = e :: r)
    (hg : GroupIn σ gid g) : HeadIn σ gid (laneIn s.m g e i w) :=
  ⟨hg, EntryIn.of_liq hl hg⟩

protected theorem Leads.laneStep {s : State} {i : Instr} {w : LaneWord} {f : Nat → LaneIn → Mach} (h : Inv σ s.m)
    (hf : ∀ x, HeadIn σ s.m.cur x → Grew σ (f s.m.cur x)) : Leads σ (laneStep s i w f) := by
  unfold laneStep
  split
  · exact Leads.fault
  next e =>
    have hg := GroupIn.of_grp? e h
    split
    · exact Leads.fault
    next hl =>
      split
      · exact Leads.next (h.laneTrap hg).grew
      · split
        · exact Leads.next h.grew
        · exact Leads.next (hf _ (.of_laneIn hl hg))

protected theorem Leads.laneArith {s : State} {i : Instr} {w : LaneWord} {n : Nat} {f : LaneIn → Nat → Nat × FFlags}
    (h : Inv σ s.m) : Leads σ (laneArith s i w n f) := by
  unfold Machine.laneArith
  refine Leads.laneStep h ?_
  intro x hx
  extract_lets _ _ _ _ _ c1
  split
  · exact h.detectedError.grew
  · refine Inv.grew ?_
    refine h.laneFinish ((GroupIn.write hx).raise) (EntryIn.of_head hx) ?_
    unfold c1
    split
    · exact (ChainIn.getD (GroupIn.of_head hx)).capture
    · exact (ChainIn.getD (GroupIn.of_head hx)).capture

protected theorem Leads.lanePure {s : State} {i : Instr} {w : LaneWord} {n : Nat} {f : LaneIn → Nat → Nat} (h : Inv σ s.m) :
    Leads σ (lanePure s i w n f) := by
  unfold Machine.lanePure
  exact Leads.laneArith h

protected theorem Leads.lanePred {s : State} {i : Instr} {w : LaneWord} {f : LaneIn → Nat → Bool × FFlags} (h : Inv σ s.m) :
    Leads σ (lanePred s i w f) := by
  unfold Machine.lanePred
  refine Leads.laneStep h ?_
  intro x hx
  extract_lets
  split
  · exact h.detectedError.grew
  · exact (h.laneFinish (((GroupIn.of_head hx).foldl (fun _ _ h1 => h1.setPred)).raise) (EntryIn.of_head hx) (ChainIn.getD
    (GroupIn.of_head hx))).grew

protected theorem Leads.lanePush {s : State} {i : Instr} {w : LaneWord} {lanes : LaneIn → List Nat}
    {f : LaneIn → List Word × FFlags} (h : Inv σ s.m) : Leads σ (lanePush s i w lanes f) := by
  unfold Machine.lanePush
  refine Leads.laneStep h ?_
  intro x hx
  extract_lets
  split
  · exact h.detectedError.grew
  · split
    · exact Inv.grew (h.laneFinish (GroupIn.raise (GroupIn.of_head hx)) (EntryIn.of_head hx) (ChainIn.getD (GroupIn.of_head
      hx)))

protected theorem ResultIs.fetchPa {g : Group} {physical : Bool} {va : Nat} (h : Inv σ m) : ResultIs (fun _ => True)
    (fun x => Inv σ x.1) (fetchPa m g physical va) := by
  unfold Machine.fetchPa
  split
  · exact h
  · split
    · exact trivial
    · split
      · exact trivial
      · split
        · exact trivial
        next he =>
          split
          · exact Inv.of_ok_fst he (ResultIs.translate h)
          · exact trivial

protected theorem Inv.afterFetch {g : Group} {physical : Bool} {va : Nat} (h : Inv σ m) :
    Inv σ (afterFetch m g physical va) := by
  unfold Machine.afterFetch
  split
  · exact h
  · exact h.afterFault

protected theorem ResultIs.fetchWords {g : Group} {physical : Bool} {va n : Nat} (h : Inv σ m) : ResultIs (fun x => Inv σ x.1)
    (fun x => Inv σ x.1) (fetchWords m g physical va n) := by
  unfold Machine.fetchWords
  extract_lets
  split
  · exact h.afterFetch
  next he =>
    split
    · exact Inv.of_ok_fst he (ResultIs.fetchPa h)
    · split
      · exact (Inv.of_ok_fst he (ResultIs.fetchPa h)).afterFetch
      next he1 => exact Inv.of_ok_fst he1 (ResultIs.fetchPa (Inv.of_ok_fst he (ResultIs.fetchPa h)))

protected theorem Inv.nextScalar {g : Group} (h : Inv σ m) : Inv σ (nextScalar m g).1 := by
  unfold Machine.nextScalar
  extract_lets
  split
  · exact h
  · split
    next he => exact Inv.of_error_fst he (ResultIs.fetchWords h)
    next he =>
      extract_lets
      split
      · split
        · exact h
        · split
          next he2 => exact Inv.of_error_fst he2 (ResultIs.fetchWords h)
          next he2 => exact Inv.of_ok_fst he2 (ResultIs.fetchWords h)
      · exact Inv.of_ok_fst he (ResultIs.fetchWords h)

/-- What a lane word decodes to is a lane instruction (R46). -/
theorem isSome_laneWord?_of_decodeLaneOp {op : BitVec 8} {w : LaneWord} {i : Instr} (h : decodeLaneOp op w = .ok i) :
    (laneWord? i).isSome = true := by
  unfold decodeLaneOp at h
  split at h
  case h_71 =>
    split at h <;> cases h
    rfl
  all_goals
    cases h
    rfl

theorem EntryIn.of_laneVerdict {left : Nat} {chain : List LiqEntry} {ws : List Word} {i : Instr}
    (h : (laneVerdict m g left chain ws).1 = some i) : (laneWord? i).isSome = true := by
  unfold laneVerdict at h
  split at h
  · cases h
  next hd =>
    have hi := isSome_laneWord?_of_decodeLaneOp hd
    split at h
    · cases h
      exact hi
    · split at h
      · cases h
        exact hi
      · cases h
        exact hi

protected theorem Inv.takeEntry {g : Group} {left : Nat} {resume : Dword} (h : Inv σ m) :
    Inv σ (takeEntry m g left resume).1 := by
  unfold Machine.takeEntry
  extract_lets
  split
  · exact h
  · split
    next he => exact Inv.of_error_fst he (ResultIs.fetchWords h)
    next he => exact Inv.of_ok_fst he (ResultIs.fetchWords h)

theorem EntryIn.takeEntry {left : Nat} {resume : Dword} : EntryIn σ (takeEntry m g left resume).2 := by
  unfold Machine.takeEntry
  extract_lets s older again entry
  have hn (bad : Option (Cause × Dword)) : EntryIn σ (entry none bad) := fun _ _ h => nomatch h
  split
  · exact hn _
  · split
    · exact hn _
    · split
      next i bad e => exact fun _ j hj => EntryIn.of_laneVerdict (by rw [e]; exact hj)

protected theorem GroupIn.enqueue {e : LiqEntry} {left : Nat} {resume : Dword} (hg : GroupIn σ gid g) (he : EntryIn σ e) :
    GroupIn σ gid (g.enqueue e left resume) :=
  hg.requeue (fun hf => (hg.liq hf).append fun x hx => by
    cases List.mem_singleton.1 hx
    exact he hf) (fun hf _ => hg.aside hf) (fun hf _ => hg.issued hf) rfl rfl rfl

protected theorem Inv.takeRun {fuel : Nat} : ∀ {m : Mach}, Inv σ m → Inv σ (takeRun gid fuel m) := by
  induction fuel with
  | zero => exact fun h => h
  | succ fuel ih =>
    intro m h
    unfold Machine.takeRun
    split
    · exact h
    next e =>
      have hg := GroupIn.of_grp? e h
      split
      · exact h
      · split
        · exact h
        · split
          next e1 => exact ih ((Inv.of_fst e1 h.takeEntry).setGrp (hg.enqueue (EntryIn.of_snd e1 EntryIn.takeEntry)))

protected theorem Inv.queueDeadlock {gid : Nat} {g : Group} {dlq : Nat} {tspc : Dword} {lxrem : Nat} (h : Inv σ m)
    (hg : GroupIn σ gid g) : Inv σ (queueDeadlock m gid g dlq tspc lxrem) := by
  unfold Machine.queueDeadlock
  exact Inv.takeTrap (Inv.setCore (h.setGrp hg.restartChain))

protected theorem Inv.continueRun {gid : Nat} {g : Group} {p : LxPending} (h : Inv σ m) (hg : GroupIn σ gid g) :
    Inv σ (continueRun m gid g p) := by
  unfold Machine.continueRun
  extract_lets
  split
  · split
    · exact h.queueDeadlock hg
    · exact h.wait hg
  · split
    · exact h.takeRun
    next he =>
      have hg1 := GroupIn.of_grp? he h.takeRun
      split
      · exact h.takeRun.wait hg1
      · exact h.takeRun.setGrp hg1

protected theorem Grew.awaitLanes {k : Unit → Mach} (h : Inv σ m) (hg : GroupIn σ gid g) (hk : Grew σ (k ())) :
    Grew σ (awaitLanes m gid g k) := by
  unfold Machine.awaitLanes
  split
  · exact hk
  · split
    · exact (h.queueDeadlock hg).grew
    · exact (h.wait hg).grew

protected theorem GroupIn.popFq {g : Group} (hg : GroupIn σ gid g) : GroupIn σ gid (Group.popFq g) := by
  unfold Machine.Group.popFq
  exact hg

protected theorem GroupIn.popLq {g : Group} (hg : GroupIn σ gid g) : GroupIn σ gid (Group.popLq g) := by
  unfold Machine.Group.popLq
  exact hg

protected theorem GroupIn.arm {g : Group} {x : Dword} (hg : GroupIn σ gid g) : GroupIn σ gid (Group.arm g x) := by
  unfold Machine.Group.arm
  exact GroupIn.ite hg hg

protected theorem GroupIn.setScr {g : Group} {n : Nat} {x : Dword} (hg : GroupIn σ gid g) :
    GroupIn σ gid (Group.setScr g n x) := by
  unfold Machine.Group.setScr
  split
  · exact hg
  · exact hg
  · exact hg
  · exact GroupIn.ite hg hg
  · exact GroupIn.ite hg hg
  · exact hg.arm
  · exact hg

protected theorem GroupIn.resumed {core : Core} (hg : GroupIn σ gid g) : GroupIn σ gid (g.resumed core) := by
  unfold Group.resumed
  extract_lets
  split
  · exact hg.returnFromTrap (core := core)
  · exact hg.returnFromTrap (core := core)

/-- What EXIT leaves of a group that waits for its copies (R125): no lane instruction, no chain. -/
theorem GroupIn.emptied (hg : GroupIn σ gid g) : GroupIn σ gid
    { g.dropHoles with qs := { g.qs with liq := [] }, chain := none } :=
  hg.dropHoles.requeue (fun _ => laneEntries_nil) (fun hf _ => hg.dropHoles.aside hf) (fun _ _ h => nomatch h) rfl rfl rfl

protected theorem Leads.execIllegalScalarInstruction {x : BitVec 32} {s : State} (h : Inv σ s.m) :
    Leads σ (execIllegalScalarInstruction x s) := by
  unfold Machine.execIllegalScalarInstruction
  exact Leads.groupStep h (fun _ _ _ => h.scalarTrap.grew)

protected theorem Leads.execScalarPcRange {s : State} (h : Inv σ s.m) : Leads σ (execScalarPcRange s) := by
  unfold Machine.execScalarPcRange
  exact Leads.groupStep h (fun _ _ _ => h.scalarTrap.grew)

protected theorem Leads.execInstructionFetchFault {cause : BitVec 8} {level : Nat} {addr : BitVec 64} {s : State}
    (h : Inv σ s.m) : Leads σ (execInstructionFetchFault cause level addr s) := by
  unfold Machine.execInstructionFetchFault
  exact Leads.groupStep h (fun _ _ _ => h.scalarTrapAt.grew)

protected theorem Leads.execB {cc : BitVec 4} {off : BitVec 22} {s : State} (h : Inv σ s.m) : Leads σ (execB cc off s) := by
  unfold Machine.execB
  refine Leads.groupStep h ?_
  intro g he hg
  split
  · exact h.scalarTrap.grew
  · exact (h.finish hg).grew

protected theorem Leads.execBm {nz : BitVec 1} {sel : BitVec 3} {off : BitVec 22} {s : State} (h : Inv σ s.m) :
    Leads σ (execBm nz sel off s) := by
  unfold Machine.execBm
  refine Leads.groupStep h ?_
  intro g he hg
  extract_lets
  split
  · exact h.scalarTrap.grew
  · exact (h.finish hg).grew

protected theorem Inv.popWait {gid : Nat} {g : Group} {dlq : Nat} {pushes : Instr → Nat} (h : Inv σ m) (hg : GroupIn σ gid g) :
    Inv σ (popWait m gid g dlq pushes) := by
  unfold Machine.popWait
  split
  · exact h.wait hg
  · exact h.queueDeadlock hg

protected theorem Leads.execBf {cc : BitVec 4} {off : BitVec 22} {s : State} (h : Inv σ s.m) : Leads σ (execBf cc off s) := by
  unfold Machine.execBf
  refine Leads.groupStep h ?_
  intro g he hg
  split
  · exact h.scalarTrap.grew
  · split
    · exact (h.popWait hg).grew
    · exact (h.finish hg.popFq).grew

protected theorem Leads.execCall {off : BitVec 22} {s : State} (h : Inv σ s.m) : Leads σ (execCall off s) := by
  unfold Machine.execCall
  exact Leads.groupStep h (fun _ _ h1 => (h.finish h1.setS).grew)

protected theorem Inv.jumpTo {gid : Nat} {g : Group} {target : Dword} {func : Nat} (h : Inv σ m) (hg : GroupIn σ gid g) :
    Inv σ (jumpTo m gid g target func) := by
  unfold Machine.jumpTo
  split
  · exact h.scalarTrapAt
  · exact h.finish hg

protected theorem Leads.execJr {sa : Sreg} {s : State} (h : Inv σ s.m) : Leads σ (execJr sa s) := by
  unfold Machine.execJr
  exact Leads.groupStep h (fun _ _ h1 => (h.jumpTo h1).grew)

protected theorem Leads.execCallr {sa : Sreg} {s : State} (h : Inv σ s.m) : Leads σ (execCallr sa s) := by
  unfold Machine.execCallr
  exact Leads.groupStep h (fun _ _ h1 => (h.jumpTo h1.setS).grew)

protected theorem Leads.execLx {n1 : BitVec 4} {lidx : BitVec 22} {s : State} (h : Inv σ s.m) : Leads σ (execLx n1 lidx s) := by
  unfold Machine.execLx
  exact Leads.groupStep h (fun _ _ h1 => Inv.grew (Inv.takeRun (h.finish h1)))

protected theorem Leads.execLj {lidx : BitVec 22} {s : State} (h : Inv σ s.m) : Leads σ (execLj lidx s) := by
  unfold Machine.execLj
  exact Leads.groupStep h (fun _ _ h1 => Inv.grew (h.retire h1))

protected theorem Leads.execSqPush {sa : Sreg} {s : State} (h : Inv σ s.m) : Leads σ (execSqPush sa s) := by
  unfold Machine.execSqPush
  refine Leads.groupStep h ?_
  intro g he hg
  extract_lets
  split
  · exact Inv.grew (h.retire hg)
  · split
    · exact (h.wait hg).grew
    · exact (h.popWait hg).grew

protected theorem Leads.execLqPop {sd : Sreg} {s : State} (h : Inv σ s.m) : Leads σ (execLqPop sd s) := by
  unfold Machine.execLqPop
  refine Leads.groupStep h ?_
  intro g he hg
  split
  · exact (h.popWait hg).grew
  · exact (h.retire hg.popLq.setS).grew

protected theorem Leads.execFqPop {sd : Sreg} {s : State} (h : Inv σ s.m) : Leads σ (execFqPop sd s) := by
  unfold Machine.execFqPop
  refine Leads.groupStep h ?_
  intro g he hg
  split
  · exact (h.popWait hg).grew
  · exact (h.retire hg.popFq.setS).grew

protected theorem Leads.maskStep {s : State} {sd : Sreg} {func : Nat} {f : Group → Dword} (h : Inv σ s.m) :
    Leads σ (maskStep s sd func f) := by
  unfold Machine.maskStep
  refine Leads.groupStep h ?_
  intro g he hg
  split
  · exact (h.retire hg.setS.fold).grew
  · exact h.scalarTrap.grew

protected theorem Leads.execMsplit {sd sa : Sreg} {s : State} (h : Inv σ s.m) : Leads σ (execMsplit sd sa s) := by
  unfold Machine.execMsplit
  exact Leads.maskStep h

protected theorem Leads.execMjoin {sd sa : Sreg} {s : State} (h : Inv σ s.m) : Leads σ (execMjoin sd sa s) := by
  unfold Machine.execMjoin
  exact Leads.maskStep h

protected theorem Leads.execNop {s : State} (h : Inv σ s.m) : Leads σ (execNop s) := by
  unfold Machine.execNop
  exact Leads.groupStep h (fun _ _ h1 => (h.retire h1).grew)

protected theorem Leads.trapStep {s : State} {cause : Cause} {code func : Nat} (h : Inv σ s.m) :
    Leads σ (trapStep s cause code func) := by
  unfold Machine.trapStep
  refine Leads.groupStep h ?_
  intro g he hg
  split
  · exact ((h.setGrp hg.fold).scalarTrapTo).grew
  · exact Inv.grew (h.setGrp hg)

protected theorem Leads.execTrap {n : BitVec 6} {s : State} (h : Inv σ s.m) : Leads σ (execTrap n s) := by
  unfold Machine.execTrap
  exact Leads.trapStep h

protected theorem Leads.execBrk {s : State} (h : Inv σ s.m) : Leads σ (execBrk s) := by
  unfold Machine.execBrk
  exact Leads.trapStep h

protected theorem Inv.returnLane {from_ : Nat} {o : Origin} (h : Inv σ m) : Inv σ (returnLane from_ m o) := by
  unfold Machine.returnLane
  split
  · exact h
  next he =>
    have hg := GroupIn.of_grp? he h
    extract_lets m1
    have hm1 : Inv σ m1 := by
      unfold m1
      split
      · exact h
      · exact h.acquireAt
    split
    · split
      · exact hm1.setGrp hg
      · exact hm1.setGrp hg
    · exact h

protected theorem Inv.compactedReturn {gid : Nat} {g : Group} (h : Inv σ m) : Inv σ (compactedReturn m gid g) := by
  unfold Machine.compactedReturn
  exact h.removeGroup.foldl (fun _ _ _ h1 => h1.returnLane)

protected theorem Inv.trapReturn {gid : Nat} {g : Group} (h : Inv σ m) (hg : GroupIn σ gid g) : Inv σ (trapReturn m gid g) := by
  unfold Machine.trapReturn
  exact (h.setGrp hg.resumed).takeRun

protected theorem Leads.execTret {s : State} (h : Inv σ s.m) : Leads σ (execTret s) := by
  unfold Machine.execTret
  refine Leads.groupStep h ?_
  intro g he hg
  split
  · exact h.scalarTrap.grew
  · split
    · exact h.compactedReturn.grew
    · exact (h.trapReturn hg).grew

protected theorem Inv.exitGroup {gid : Nat} {g : Group} (h : Inv σ m) : Inv σ (exitGroup m gid g) := by
  unfold Machine.exitGroup
  exact h.dropOwn.removeGroup.leaveService.abandon.settleKernel

protected theorem Leads.execExit {s : State} (h : Inv σ s.m) : Leads σ (execExit s) := by
  unfold Machine.execExit
  refine Leads.groupStep h fun g he hg => ?_
  split
  · exact h.scalarTrap.grew
  · split
    · exact h.scalarTrap.grew
    · split
      · exact (h.wait hg).grew
      · split
        · exact (h.wait hg.emptied).grew
        · exact h.exitGroup.grew

protected theorem Leads.execScrRd {sd : Sreg} {n : BitVec 12} {s : State} (h : Inv σ s.m) : Leads σ (execScrRd sd n s) := by
  unfold Machine.execScrRd
  extract_lets
  refine Leads.groupStep h ?_
  intro g he hg
  extract_lets
  split
  · exact h.scalarTrap.grew
  · split
    · exact (h.wait hg).grew
    · split
      · exact (h.setCore.bump.retire hg.setS).grew
      · split
        · exact (h.retire hg.setS).grew
        · exact (h.bump.retire hg.setS).grew

protected theorem Leads.execScrWr {n : BitVec 12} {sa : Sreg} {s : State} (h : Inv σ s.m) : Leads σ (execScrWr n sa s) := by
  unfold Machine.execScrWr
  refine Leads.groupStep h ?_
  intro g he hg
  split
  · exact h.scalarTrap.grew
  · split
    · exact (h.wait hg).grew
    · exact (h.retire hg.setScr).grew

end Sys2Proof.Machine
end

section
/-! PROOF. Scalar and lane memory instructions, fences, and posted peer stores.
-/

namespace Sys2Proof.Machine
variable {σ τ : Claim} {m : Mach} {gid : Nat} {g : Group}

protected theorem Inv.foldl_fst {α β : Type} {f : Mach × β → α → Mach × β} {l : List α} {y : β} (h : Inv σ m)
    (hf : ∀ m y x, Inv σ m → Inv σ (f (m, y) x).1) : Inv σ (l.foldl f (m, y)).1 := by
  induction l generalizing m y with
  | nil => exact h
  | cons x l ih => exact ih (hf m y x h)

protected theorem Leads.loadStep {s : State} {major size : Nat} {sd sa : Sreg} {imm : BitVec 14} {f : Nat → Dword}
    (h : Inv σ s.m) : Leads σ (loadStep s major size sd sa imm f) := by
  unfold Machine.loadStep
  exact Leads.groupStep h (fun _ _ h1 => (Inv.onGot (GotIn.scalarLoad h h1) (fun _ _ _ h2 => h2.retire h1.setS)).grew)

protected theorem Leads.storeStep {s : State} {major size : Nat} {sd sa : Sreg} {imm : BitVec 14} (h : Inv σ s.m) :
    Leads σ (storeStep s major size sd sa imm) := by
  unfold Machine.storeStep
  exact Leads.groupStep h (fun _ _ h1 => (Inv.onGot (GotIn.scalarStore h h1) (fun _ _ _ h2 => h2.retire h1)).grew)

protected theorem Leads.execSldb {sd sa : Sreg} {imm : BitVec 14} {s : State} (h : Inv σ s.m) :
    Leads σ (execSldb sd sa imm s) := by
  unfold Machine.execSldb
  exact Leads.loadStep h

protected theorem Leads.execSldh {sd sa : Sreg} {imm : BitVec 14} {s : State} (h : Inv σ s.m) :
    Leads σ (execSldh sd sa imm s) := by
  unfold Machine.execSldh
  exact Leads.loadStep h

protected theorem Leads.execSldw {sd sa : Sreg} {imm : BitVec 14} {s : State} (h : Inv σ s.m) :
    Leads σ (execSldw sd sa imm s) := by
  unfold Machine.execSldw
  exact Leads.loadStep h

protected theorem Leads.execSldd {sd sa : Sreg} {imm : BitVec 14} {s : State} (h : Inv σ s.m) :
    Leads σ (execSldd sd sa imm s) := by
  unfold Machine.execSldd
  exact Leads.loadStep h

protected theorem Leads.execSldbx {sd sa : Sreg} {imm : BitVec 14} {s : State} (h : Inv σ s.m) :
    Leads σ (execSldbx sd sa imm s) := by
  unfold Machine.execSldbx
  exact Leads.loadStep h

protected theorem Leads.execSldhx {sd sa : Sreg} {imm : BitVec 14} {s : State} (h : Inv σ s.m) :
    Leads σ (execSldhx sd sa imm s) := by
  unfold Machine.execSldhx
  exact Leads.loadStep h

protected theorem Leads.execSldwx {sd sa : Sreg} {imm : BitVec 14} {s : State} (h : Inv σ s.m) :
    Leads σ (execSldwx sd sa imm s) := by
  unfold Machine.execSldwx
  exact Leads.loadStep h

protected theorem Leads.execSstb {sd sa : Sreg} {imm : BitVec 14} {s : State} (h : Inv σ s.m) :
    Leads σ (execSstb sd sa imm s) := by
  unfold Machine.execSstb
  exact Leads.storeStep h

protected theorem Leads.execSsth {sd sa : Sreg} {imm : BitVec 14} {s : State} (h : Inv σ s.m) :
    Leads σ (execSsth sd sa imm s) := by
  unfold Machine.execSsth
  exact Leads.storeStep h

protected theorem Leads.execSstw {sd sa : Sreg} {imm : BitVec 14} {s : State} (h : Inv σ s.m) :
    Leads σ (execSstw sd sa imm s) := by
  unfold Machine.execSstw
  exact Leads.storeStep h

protected theorem Leads.execSstd {sd sa : Sreg} {imm : BitVec 14} {s : State} (h : Inv σ s.m) :
    Leads σ (execSstd sd sa imm s) := by
  unfold Machine.execSstd
  exact Leads.storeStep h

protected theorem Leads.execSatom {scope : BitVec 3} {op : BitVec 5} {sd sa sb : Sreg} {s : State} (h : Inv σ s.m) :
    Leads σ (execSatom scope op sd sa sb s) := by
  unfold Machine.execSatom
  refine Leads.groupStep h ?_
  intro g he hg
  extract_lets
  split
  · exact h.scalarTrap.grew
  · split
    · exact h.scalarTrap.grew
    · exact (Inv.onGot (GotIn.scalarAtomic h hg) (fun _ _ _ h1 => h1.retire hg.setS)).grew

protected theorem Leads.execFence {scope : BitVec 3} {s : State} (h : Inv σ s.m) : Leads σ (execFence scope s) := by
  unfold Machine.execFence
  refine Leads.groupStep h ?_
  intro g he hg
  split
  · exact h.scalarTrap.grew
  · split
    · exact h.scalarTrap.grew
    · split
      · exact (h.wait hg).grew
      · exact (h.acquireAt.retire hg).grew

protected theorem Inv.settleJoins {gid : Nat} {g : Group} (h : Inv σ m) (hg : GroupIn σ gid g) :
    Inv σ (settleJoins m gid g) := by
  unfold Machine.settleJoins
  extract_lets
  split
  · exact Inv.acquireAt (h.setGrp hg)
  · exact h.setGrp hg

protected theorem Leads.execQfence {sa : Sreg} {s : State} (h : Inv σ s.m) : Leads σ (execQfence sa s) := by
  unfold Machine.execQfence
  extract_lets
  refine Leads.groupStep h ?_
  intro g he hg
  extract_lets
  split
  · exact h.scalarTrap.grew
  · split
    · exact h.scalarTrap.grew
    · split
      · refine Inv.grew ?_
        refine Inv.retire ?_ hg
        split
        · exact h.acquireAt
        · exact h
      · exact Inv.grew (h.retire hg)

protected theorem Leads.execWaita {cc : BitVec 3} {sd sa sb : Sreg} {s : State} (h : Inv σ s.m) :
    Leads σ (execWaita cc sd sa sb s) := by
  unfold Machine.execWaita
  refine Leads.groupStep h ?_
  intro g he hg
  extract_lets
  split
  · exact h.scalarTrap.grew
  · refine Inv.grew ?_
    extract_lets
    refine Inv.onGot (GotIn.scalarLoad h hg) ?_
    intro m v he1 h1
    extract_lets
    split
    · exact h1.retire hg.setS
    · exact h1.wait hg

protected theorem Inv.compactLanes {gid : Nat} {g : Group} {e : LiqEntry} {fs : List (LaneFault × Nat)} (h : Inv σ m) :
    Inv σ (compactLanes m gid g e fs) := by
  unfold Machine.compactLanes
  exact h.setDie

/-- What a lane fault leaves of its group's record (R366): the chain begun again, holes dropped, the queue empty. -/
theorem GroupIn.stopped (hg : GroupIn σ gid g) :
    GroupIn σ gid { g.restartChain.rearm.dropHoles with qs := { g.restartChain.qs with liq := [] }, lx := none } := by
  have h1 := hg.restartChain.rearm.dropHoles
  exact h1.requeue (fun _ => laneEntries_nil) (fun hf _ => h1.aside hf) (fun hf _ => h1.issued hf) rfl rfl rfl

protected theorem Inv.laneFaults {e : LiqEntry} {fs : List LaneFault} (h : Inv σ m) (hg : GroupIn σ gid g) :
    Inv σ (laneFaults m gid g e fs) := by
  unfold Machine.laneFaults
  extract_lets m0 held _ _ stopped
  have h0 : Inv σ m0 := h.setCore
  have hs : GroupIn σ gid stopped := hg.stopped
  split
  · extract_lets vecs disps _ _ m1
    split
    · exact (h0.setGrp hs).overload
    · split
      · exact Inv.stopContext (Inv.report (h0.setGrp hs))
      · split
        · exact Inv.foldl (h0.setGrp hg.restartChain) fun m f _ h => h.report
        · exact Inv.compactLanes (h0.setGrp hg.restartChain)
  · exact h

protected theorem Inv.checkLane {g : Group} {l ea size : Nat} {k : AKind} {arm : Bool} (h : Inv σ m) :
    Inv σ (checkLane m g l ea size k arm).1 := by
  unfold Machine.checkLane
  split
  · exact h
  · split
    · exact h.afterLocate
    next he => exact Inv.located he (ResultIs.locate h)

protected theorem Inv.checkLanes {check : Mach → Nat → Mach × Except LaneFault LaneAccess} {ls : List Nat}
    (hc : ∀ m l, Inv σ m → Inv σ (check m l).1) : ∀ {m : Mach}, Inv σ m → Inv σ (checkLanes check ls m).1 := by
  induction ls with
  | nil => exact fun h => h
  | cons l r ih =>
    intro m h
    unfold Machine.checkLanes
    split
    · next e => exact ih (Inv.of_fst e (hc m l h))
    · next e => exact ih (Inv.of_fst e (hc m l h))

protected theorem Inv.laneOrder {size : Nat} {as_ : List LaneAccess} (h : Inv σ m) : Inv σ (laneOrder m size as_).1 := by
  unfold Machine.laneOrder
  split
  · exact h.of_frame
  · exact h

protected theorem Inv.overFabric {ports : List Nat} {send perform : Unit → Mach} (h : Inv σ m) (hs : Inv σ (send ()))
    (hp : Inv σ (perform ())) : Inv σ (overFabric m g ports send perform) := by
  unfold Machine.overFabric
  split
  · exact hs
  · exact h
  · exact hp

protected theorem Inv.sendHalf {gid : Nat} {g : Group} {f : Flight} {data : Option (Nat → Nat)} {mh : Mach × AMap Dword}
    {a : LaneAccess} (h : Inv σ mh.1) : Inv σ (sendHalf gid g f data mh a).1 := by
  unfold Machine.sendHalf
  split
  · extract_lets
    split
    · exact h
    · split
      · exact h.useLine.landAll
      · exact h.useLine.landAll.writeBytes
  · exact h

protected theorem Inv.sendLanes {gid : Nat} {g : Group} {size : Nat} {as_ : List LaneAccess} {data : Option (Nat → Nat)}
    (h : Inv σ m) (hg : GroupIn σ gid g) : Inv σ (sendLanes m gid g size as_ data) := by
  unfold Machine.sendLanes
  extract_lets m1
  have h1 : Inv σ m1 := h.sendOver hg
  split
  · split
    · split
      next e =>
        have h2 := Inv.of_fst e (h1.foldl_fst fun _ _ _ h => h.sendHalf)
        exact h2.setGrp (GroupIn.regrp h2 hg)
    · exact h1
  · exact h1

protected theorem Inv.withLanes {x : LaneIn} {size : Nat} {k : AKind} {arm : Bool} {data : Option (Nat → Nat)}
    {perform : Mach → List LaneAccess → Mach} (h : Inv σ m) (hx : HeadIn σ gid x)
    (hp : ∀ m as_, Inv σ m → Inv σ (perform m as_)) : Inv σ (withLanes m gid x size k arm data perform) := by
  unfold Machine.withLanes
  split
  next e =>
    have h1 := Inv.of_fst e (h.checkLanes fun m l h => h.checkLane)
    split
    · exact h1.laneFaults hx.1
    · exact h1.overFabric (h1.sendLanes hx.1) (hp _ _ h1.laneOrder)

protected theorem Leads.laneMemory {s : State} {i : Instr} {w : LaneWord} {publishes : Bool} {f : Nat → LaneIn → Mach}
    (h : Inv σ s.m) (hf : ∀ x, HeadIn σ s.m.cur x → Grew σ (f s.m.cur x)) : Leads σ (laneMemory s i w publishes f) := by
  unfold Machine.laneMemory
  refine Leads.laneStep h fun x hx => ?_
  split
  · exact h.detectedError.grew
  · split
    · exact (h.laneTrap hx.1).grew
    · exact hf x hx

protected theorem Inv.laneDeliver {gid : Nat} {x : LaneIn} {i : Instr} {w : LaneWord} {n : Nat} {vals : List (Nat × Nat)}
    (h : Inv σ m) (hx : HeadIn σ gid x) : Inv σ (laneDeliver m gid x i w n vals) := by
  unfold Machine.laneDeliver
  extract_lets _ _ m1
  have hm1 : Inv σ m1 := by
    unfold m1
    split
    · exact h.acquireAt
    · exact h
  exact hm1.laneFinish (GroupIn.write hx) (EntryIn.of_head hx) ((ChainIn.getD (GroupIn.of_head hx)).capture)

protected theorem Inv.loadLane {x : LaneIn} {size : Nat} {s : Scope} {hint : Nat} {mv : Mach × List (Nat × Nat)}
    {a : LaneAccess} (h : Inv σ mv.1) : Inv σ (loadLane x size s hint mv a).1 := by
  unfold Machine.loadLane
  extract_lets
  split
  · exact h
  · split
    next he => exact Inv.of_fst he h.useLine.loadBytes

protected theorem Leads.execLd {w : LaneWord} {s : State} (h : Inv σ s.m) : Leads σ (execLd w s) := by
  unfold Machine.execLd
  extract_lets
  refine Leads.laneMemory h ?_
  intro x hx
  refine Inv.grew ?_
  refine h.withLanes hx ?_
  intro m as_ h1
  split
  next he => exact (Inv.of_fst he (h1.foldl_fst (fun _ _ _ h2 => h2.loadLane))).laneDeliver hx

protected theorem Inv.storeLane {gid : Nat} {x : LaneIn} {size hint : Nat} {a : LaneAccess} (h : Inv σ m) :
    Inv σ (storeLane gid x size hint m a) := by
  unfold Machine.storeLane
  refine h.foldl ?_
  intro m1 x1 ha h1
  extract_lets
  split
  · split
    · exact h1.bump
    · exact h1.useLine.storeBytes.bump
  · exact h1.useLine.storeBytes

protected theorem Leads.execSt {w : LaneWord} {s : State} (h : Inv σ s.m) : Leads σ (execSt w s) := by
  unfold Machine.execSt
  refine Leads.laneMemory h fun x hx => Inv.grew ?_
  refine h.withLanes hx fun m as_ h1 => ?_
  extract_lets m1
  have h2 : Inv σ m1 := h1.foldl fun _ _ _ h => h.storeLane
  exact h2.laneFinish (GroupIn.regrp h2 hx.1) hx.2 (ChainIn.getD hx.1)

protected theorem Inv.atomicLane {gid : Nat} {x : LaneIn} {size : Nat} {f : Nat → Nat → Option Nat}
    {mv : Mach × List (Nat × Nat)} {a : LaneAccess} (h : Inv σ mv.1) : Inv σ (atomicLane gid x size f mv a).1 := by
  unfold Machine.atomicLane
  split
  next he =>
    split
    · split
      · exact h.bump
      · exact (Inv.of_fst he h.useLine.atomicBytes).bump
    · exact Inv.of_fst he h.useLine.atomicBytes

protected theorem Leads.laneAtomic {s : State} {i : Instr} {w : LaneWord} {f : LaneIn → Nat → Nat → Option Nat}
    (h : Inv σ s.m) : Leads σ (laneAtomic s i w f) := by
  unfold Machine.laneAtomic
  extract_lets
  refine Leads.laneMemory h ?_
  intro x hx
  refine Inv.grew ?_
  refine h.withLanes hx ?_
  intro m as_ h1
  split
  next he => exact (Inv.of_fst he (h1.foldl_fst (fun _ _ _ h2 => h2.atomicLane))).laneDeliver hx

protected theorem Leads.execAtom {w : LaneWord} {s : State} (h : Inv σ s.m) : Leads σ (execAtom w s) := by
  unfold Machine.execAtom
  exact Leads.laneAtomic h

protected theorem Leads.execAtomcas {w : LaneWord} {s : State} (h : Inv σ s.m) : Leads σ (execAtomcas w s) := by
  unfold Machine.execAtomcas
  exact Leads.laneAtomic h

protected theorem Leads.execFatom {w : LaneWord} {s : State} (h : Inv σ s.m) : Leads σ (execFatom w s) := by
  unfold Machine.execFatom
  exact Leads.laneAtomic h

protected theorem Leads.execRed {w : LaneWord} {s : State} (h : Inv σ s.m) : Leads σ (execRed w s) := by
  unfold Machine.execRed
  exact Leads.laneAtomic h

protected theorem Inv.prefetchLane {x : LaneIn} {l : Nat} (h : Inv σ m) : Inv σ (prefetchLane x m l) := by
  unfold Machine.prefetchLane
  extract_lets
  split
  · exact h
  · split
    · exact h
    · extract_lets
      split
      · exact h
      · exact h.setCore.bump

protected theorem Leads.execPref {w : LaneWord} {s : State} (h : Inv σ s.m) : Leads σ (execPref w s) := by
  unfold Machine.execPref
  refine Leads.laneMemory h fun x hx => Inv.grew ?_
  exact Inv.laneFinish (h.foldl fun _ _ _ h => h.prefetchLane) hx.1 hx.2 (ChainIn.getD hx.1)

/-- Numbers are given out: the next one is greater than before. -/
theorem Inv.setNext {n : Nat} (h : Inv σ m) (hn : m.nextId ≤ n) : Grew σ { m with nextId := n } := by
  obtain ⟨k, hk, hkn⟩ : ∃ k, σ.next ≤ k ∧ (σ.fresh → n = k) := by
    by_cases hf : σ.fresh
    · exact ⟨n, h.next hf ▸ hn, fun _ => rfl⟩
    · exact ⟨σ.next, le_rfl, fun hf' => absurd hf' hf⟩
  have hl := Claim.Le.grown hk
  exact ⟨k, hk, { h with
    groups := fun kg hg => (h.groups kg hg).mono hl, teams := fun kt ht => (h.teams kt ht).mono hl, next := hkn }⟩

/-- What keeps every later claim, applied to a module of which one holds. -/
theorem Grew.map {m' : Mach} (h : Grew σ m) (hf : ∀ τ : Claim, σ.Le τ → Inv τ m → Inv τ m') : Grew σ m' :=
  h.bind fun τ hl h => (hf τ hl h).grew

protected theorem Grew.foldl {α : Type} {f : Mach → α → Mach} {l : List α} (h : Grew σ m)
    (hf : ∀ τ m x, x ∈ l → σ.Le τ → Inv τ m → Grew τ (f m x)) : Grew σ (l.foldl f m) := by
  induction l generalizing m with
  | nil => exact h
  | cons x l ih =>
    exact ih (h.bind fun τ hl h => hf τ m x List.mem_cons_self hl h) fun τ m y hy => hf τ m y (List.mem_cons_of_mem _ hy)

theorem HeadIn.mono {x : LaneIn} (h : HeadIn σ gid x) (hl : σ.Le τ) : HeadIn τ gid x :=
  ⟨h.1.mono hl, fun hf => h.2 (hl.form hf)⟩

protected theorem ResultIs.locatePieces {lane : Nat} {k : AKind} {arm : Bool} {ps : List (Nat × Nat)} : ∀ {m : Mach}, Inv σ m →
    ResultIs (fun _ => True) (fun x => Inv σ x.1) (locatePieces g lane k arm ps m) := by
  induction ps with
  | nil => exact fun h => h
  | cons p r ih =>
    intro m h
    unfold Machine.locatePieces
    split
    · trivial
    next l e =>
      have hl := Inv.located e (ResultIs.locate h)
      split
      · trivial
      next e1 => exact Inv.of_ok_fst e1 (ih hl)

protected theorem Inv.failingPiece {lane : Nat} {k : AKind} {arm : Bool} {ps : List (Nat × Nat)} : ∀ {m : Mach}, Inv σ m →
    Inv σ (failingPiece g lane k arm ps m).1 := by
  induction ps with
  | nil => exact fun h => h
  | cons p r ih =>
    intro m h
    unfold Machine.failingPiece
    split
    · exact h.afterLocate
    next e => exact ih (Inv.located e (ResultIs.locate h))

protected theorem Inv.discardLane {x : LaneIn} {l : Nat} (h : Inv σ m) : Inv σ (discardLane x m l).1 := by
  unfold Machine.discardLane
  extract_lets
  split
  · exact h
  · split
    · split
      next he1 => exact Inv.of_fst he1 h.failingPiece
    next he => exact Inv.of_ok_fst he (ResultIs.locatePieces h)

protected theorem Inv.discardLanes {x : LaneIn} {ls : List Nat} : ∀ {m : Mach}, Inv σ m → Inv σ (discardLanes x ls m).1 := by
  induction ls with
  | nil => exact fun h => h
  | cons l r ih =>
    intro m h
    unfold Machine.discardLanes
    split
    · next e => exact ih (Inv.of_fst e h.discardLane)
    · next e => exact ih (Inv.of_fst e h.discardLane)

protected theorem Inv.discardPiece {gid core : Nat} {p : Located × Nat} (h : Inv σ m) : Inv σ (discardPiece gid core m p) := by
  unfold Machine.discardPiece
  split
  · exact h.discardIndet.setCore
  · exact h

protected theorem Leads.execDiscard {w : LaneWord} {s : State} (h : Inv σ s.m) : Leads σ (execDiscard w s) := by
  unfold Machine.execDiscard
  refine Leads.laneMemory h ?_
  intro x hx
  split
  next he =>
    split
    · exact ((Inv.of_fst he h.discardLanes).laneFaults (GroupIn.of_head hx)).grew
    · exact (((Inv.of_fst he h.discardLanes).foldl (fun _ _ _ h1 => h1.discardPiece)).laneFinish (GroupIn.of_head hx)
      (EntryIn.of_head hx) (ChainIn.getD (GroupIn.of_head hx))).grew

protected theorem Inv.checkPst {x : LaneIn} {size l : Nat} (h : Inv σ m) : Inv σ (checkPst x size m l).1 := by
  unfold Machine.checkPst
  split
  next he => exact Inv.of_fst he h.checkLane
  next he =>
    split
    · exact Inv.of_fst he h.checkLane
    · exact Inv.of_fst he h.checkLane

protected theorem Inv.sendGranule {id port : Nat} {b : Nat × List Byte} (h : Inv σ m) : Inv σ (sendGranule id port m b) := by
  unfold Machine.sendGranule
  split
  · exact h.bump
  · exact h.landPsts.bump

protected theorem Grew.sendPst {x : LaneIn} {size batch : Nat} {a : LaneAccess} (h : Inv σ m) :
    Grew σ (sendPst gid x size batch m a) := by
  unfold Machine.sendPst
  split
  · extract_lets unit p c m1 m2
    have h1 : Inv σ m1 := h.setCluster
    have h2 : Grew σ m2 := (h1.upd_psts fun hf => amapWf_aput _ _ _ (h1.pstsRise hf)).setNext (Nat.le_succ _)
    exact h2.map fun τ _ h2 => h2.foldl fun m b _ h => h.sendGranule
  · exact h.grew

protected theorem Leads.execPst {s : State} {w : LaneWord} (h : Inv σ s.m) : Leads σ (execPst w s) := by
  unfold Machine.execPst
  refine Leads.laneMemory h fun x hx => ?_
  extract_lets size
  split
  next e =>
    have h1 := Inv.of_fst e (h.checkLanes fun m l h => h.checkPst)
    split
    · exact (h1.laneFaults hx.1).grew
    · extract_lets m2
      have h2 : Inv σ m2 := by
        unfold m2
        split
        · exact h1
        · exact h1.takeHere
      clear_value m2
      split
      next e1 =>
        extract_lets m4
        have h4 : Grew σ m4 := Grew.foldl (Inv.of_fst e1 h2.laneOrder).grew fun τ m a _ _ h => Grew.sendPst h
        refine h4.map fun τ hl h4 => ?_
        have hx := hx.mono hl
        exact h4.laneFinish hx.1 hx.2 (ChainIn.getD hx.1)

end Sys2Proof.Machine
end

section
/-! PROOF. Regions, barriers, waits and the copy ring.
-/

namespace Sys2Proof.Machine
variable {σ τ : Claim} {m : Mach} {gid : Nat} {g : Group}

theorem Inv.fst_of_error {α β : Type} {r : Except (Mach × β) α} {x : Mach × β} {Q} (e : r = .error x)
    (h : ResultIs (fun x => Inv σ x.1) Q r) : Inv σ x.1 := by
  subst e
  exact h

theorem savedInMask_newRegion (hg : GroupIn σ gid g) (hf : σ.form) (mask : BitVec 20) (top : Nat) :
    Region.SavedInMask (newRegion g mask top) := by
  unfold newRegion Region.SavedInMask
  dsimp only
  exact ⟨amapWf_afilter _ _ (hg.v hf), fun e he => (List.mem_filter.1 he).2⟩

protected theorem Inv.openRegion {mask : BitVec 20} {log : Option LogArea} (h : Inv σ m) (hg : GroupIn σ gid g) :
    Inv σ (openRegion m gid g mask log) := by
  unfold Machine.openRegion
  split
  · exact h.scalarTrap
  · extract_lets r g1
    split
    · exact h.scalarTrap
    · have hg1 : GroupIn σ gid g1 := hg.upd_rgn fun hf x hx => (List.mem_cons.1 hx).elim
        (fun e => e ▸ savedInMask_newRegion hg hf _ _) (hg.rgn hf x)
      exact h.advance hg1

protected theorem Leads.execRgnOpen {sd : Sreg} {rmask : BitVec 20} {s : State} (h : Inv σ s.m) :
    Leads σ (execRgnOpen sd rmask s) := by
  unfold Machine.execRgnOpen
  refine Leads.groupStep h ?_
  intro g he hg
  split
  · exact h.scalarTrap.grew
  · split
    · exact h.scalarTrap.grew
    · refine Grew.awaitLanes h hg ?_
      split
      · exact h.scalarTrap.grew
      · split
        · exact (h.openRegion hg).grew
        · split
          · exact h.scalarTrapAt.grew
          · exact (h.openRegion hg).grew

protected theorem Inv.readPieces {ps : List (Located × Nat)} : ∀ {m : Mach} {acc : List Byte}, Inv σ m →
    Inv σ (readPieces g ps m acc).1 := by
  induction ps with
  | nil => exact fun h => h
  | cons p r ih =>
    intro m acc h
    unfold Machine.readPieces
    split
    · exact ih h
    · split
      next e => exact ih (Inv.of_fst e h.useLine.loadBytes)

protected theorem GroupIn.addKeep {k : KeepRec} {top : Nat} (hg : GroupIn σ gid g) : GroupIn σ gid (g.addKeep k top) := by
  unfold Group.addKeep
  refine hg.upd_rgn fun hf x hx => ?_
  have hr := hg.rgn hf
  split at hx
  · cases hx
  next r rest e =>
    rw [e] at hr
    rcases List.mem_cons.1 hx with rfl | hx
    · exact hr r List.mem_cons_self
    · exact hr x (List.mem_cons_of_mem _ hx)

protected theorem Inv.keepRange {gid : Nat} {g : Group} {addr : Dword} {n : Nat} {ps : List (Located × Nat)} (h : Inv σ m)
    (hg : GroupIn σ gid g) : Inv σ (keepRange m gid g addr n ps) := by
  unfold Machine.keepRange
  extract_lets
  split
  · exact h.scalarTrap
  · extract_lets
    split
    · exact h.scalarTrapAt
    · refine h.overFabric (h.sendOver hg) ?_
      split
      next he1 => exact (Inv.of_fst he1 h.readPieces).retire hg.addKeep

protected theorem Leads.execRgnKeep {sa sb : Sreg} {s : State} (h : Inv σ s.m) : Leads σ (execRgnKeep sa sb s) := by
  unfold Machine.execRgnKeep
  refine Leads.groupStep h ?_
  intro g he hg
  extract_lets
  split
  · exact h.scalarTrap.grew
  · split
    · exact h.scalarTrapAt.grew
    · split
      · exact (h.retire hg).grew
      · split
        · exact h.failingPiece.scalarTrapAt.grew
        next he1 =>
          split
          · exact (((Inv.of_ok_fst he1 (ResultIs.locatePieces h)).failingPiece).scalarTrapAt).grew
          next he2 =>
            exact ((Inv.of_ok_fst he2 (ResultIs.locatePieces (Inv.of_ok_fst he1 (ResultIs.locatePieces h)))).keepRange hg).grew

protected theorem GroupIn.popRegion (hg : GroupIn σ gid g) : GroupIn σ gid g.popRegion := by
  unfold Group.popRegion
  split
  · exact hg
  next r rest e => exact hg.upd_rgn fun hf x hx => hg.rgn hf x (e ▸ List.mem_cons_of_mem _ hx)

protected theorem GroupIn.fireSig {g : Group} (hg : GroupIn σ gid g) : GroupIn σ gid (Group.fireSig g) := by
  unfold Machine.Group.fireSig
  split
  · exact hg
  · exact hg

protected theorem GroupIn.wakeWait {g : Group} {off now : Nat} (hg : GroupIn σ gid g) :
    GroupIn σ gid (Group.wakeWait g off now) := by
  unfold Machine.Group.wakeWait
  split
  · exact GroupIn.ite hg hg
  · exact GroupIn.ite hg hg
  · exact hg

protected theorem Inv.retireLog {g : Group} (h : Inv σ m) : Inv σ (retireLog m g) := by
  unfold Machine.retireLog
  split
  · exact h.makeIndet
  · exact h

protected theorem Leads.execRgnClose {s : State} (h : Inv σ s.m) : Leads σ (execRgnClose s) := by
  unfold Machine.execRgnClose
  refine Leads.groupStep h ?_
  intro g he hg
  split
  · exact h.scalarTrap.grew
  · exact Grew.awaitLanes h hg ((h.retireLog.retire hg.popRegion).grew)

protected theorem Leads.execSigChk {imm : BitVec 32} {s : State} (h : Inv σ s.m) : Leads σ (execSigChk imm s) := by
  unfold Machine.execSigChk
  refine Leads.groupStep h ?_
  intro g he hg
  extract_lets
  split
  · exact (h.wait hg).grew
  · split
    · exact ((h.setGrp hg.fireSig).detectedError).grew
    · exact Inv.grew (h.advance hg.fireSig)

protected theorem Inv.resumeYield {off : Nat} {kg : Nat × Group} (h : Inv σ m) (hkg : GroupIn σ kg.1 kg.2) :
    Inv σ (resumeYield off m kg) := by
  unfold Machine.resumeYield
  split
  · extract_lets
    split
    · split
      · exact h.acquireAt.setGrp hkg
      · exact h.acquireAt.setGrp hkg
    · exact h

protected theorem Inv.wakeAll {tid off : Nat} (h : Inv σ m) : Inv σ (wakeAll m tid off) := by
  unfold Machine.wakeAll
  extract_lets m1
  have h1 : Inv σ m1 := h.upd_groups (fun hf => amapWf_amap _ _ (h.groupsRise hf))
    (forall_mem_amap fun _ hx => GroupIn.ite (GroupIn.of_mem hx h).wakeWait (GroupIn.of_mem hx h))
  exact h1.foldl fun m x hx h => h.resumeYield (h1.groups x (List.mem_filter.1 hx).1)

protected theorem Inv.updateSlot {key : Nat} {s : BSlot} (h : Inv σ m) : Inv σ (updateSlot m key s) := by
  unfold Machine.updateSlot
  split
  · extract_lets m1
    have h1 : Inv σ m1 := h.upd_slots fun hf => amapWf_aput _ _ _ (h.slotsRise hf)
    split
    · exact h1
    next ht =>
      extract_lets m2
      have h2 : Inv σ m2 := h1.progress.wakeAll
      split
      · split
        · exact (h2.setTeam (NumIn.of_aget_teams ht h1)).bump
        · exact h2
      · exact h2
  · exact h.upd_slots fun hf => amapWf_aput _ _ _ (h.slotsRise hf)

protected theorem Leads.execBarInit {sa sb : Sreg} {s : State} (h : Inv σ s.m) : Leads σ (execBarInit sa sb s) := by
  unfold Machine.execBarInit
  extract_lets
  refine Leads.groupStep h ?_
  intro g he hg
  split
  · exact h.scalarTrap.grew
  · split
    · exact h.scalarTrapAt.grew
    · exact h.scalarTrap.grew
    · split
      · exact h.scalarTrapAt.grew
      · exact ((h.upd_slots (fun hx => amapWf_aput _ _ _ (h.slotsRise hx))).retire hg).grew

protected theorem Leads.execBarBind {name : BitVec 4} {sa : Sreg} {s : State} (h : Inv σ s.m) :
    Leads σ (execBarBind name sa s) := by
  unfold Machine.execBarBind
  refine Leads.groupStep h ?_
  intro g he hg
  split
  · exact h.scalarTrapAt.grew
  · split
    · exact ((h.setTeam hg.team).retire hg).grew
    · exact h.scalarTrapAt.grew

protected theorem Leads.execBarExpect {name : BitVec 4} {sa : Sreg} {s : State} (h : Inv σ s.m) :
    Leads σ (execBarExpect name sa s) := by
  unfold Machine.execBarExpect
  refine Leads.groupStep h ?_
  intro g he hg
  extract_lets
  split
  · exact h.scalarTrap.grew
  · split
    · exact h.scalarTrap.grew
    · split
      · exact h.scalarTrap.grew
      · extract_lets
        split
        · exact h.scalarTrap.grew
        · exact (h.updateSlot.retire (GroupIn.regrp h.updateSlot hg)).grew

protected theorem Leads.execBarArrive {name : BitVec 4} {sd : Sreg} {s : State} (h : Inv σ s.m) :
    Leads σ (execBarArrive name sd s) := by
  unfold Machine.execBarArrive
  refine Leads.groupStep h ?_
  intro g he hg
  extract_lets
  split
  · exact h.scalarTrap.grew
  · split
    · exact h.scalarTrap.grew
    · extract_lets
      split
      · exact h.scalarTrap.grew
      · exact (h.updateSlot.retire ((GroupIn.regrp h.updateSlot hg).setS)).grew

protected theorem Leads.execBarWait {name : BitVec 4} {sa : Sreg} {s : State} (h : Inv σ s.m) :
    Leads σ (execBarWait name sa s) := by
  unfold Machine.execBarWait
  refine Leads.groupStep h ?_
  intro g he hg
  extract_lets
  split
  · exact (h.acquireAt.retire hg).grew
  · split
    · exact (h.waitFor hg).grew
    · exact (h.acquireAt.retire hg).grew
  · split
    · exact h.scalarTrap.grew
    · split
      · exact Inv.grew (h.waitFor hg)
      · exact (h.acquireAt.retire hg).grew

protected theorem Leads.execBarTry {name : BitVec 4} {sd sa : Sreg} {s : State} (h : Inv σ s.m) :
    Leads σ (execBarTry name sd sa s) := by
  unfold Machine.execBarTry
  refine Leads.groupStep h ?_
  intro g he hg
  extract_lets
  split
  · exact h.scalarTrap.grew
  · extract_lets
    refine Inv.grew ?_
    refine Inv.retire ?_ hg.setS
    split
    · exact h
    · exact h.acquireAt

protected theorem Leads.execBarDrop {sa : Sreg} {s : State} (h : Inv σ s.m) : Leads σ (execBarDrop sa s) := by
  unfold Machine.execBarDrop
  extract_lets
  refine Leads.groupStep h ?_
  intro g he hg
  extract_lets
  split
  · exact h.scalarTrap.grew
  · split
    · exact h.scalarTrapAt.grew
    · split
      · extract_lets
        split
        · exact h.scalarTrapAt.grew
        · exact Inv.grew (Inv.retire (Inv.writeNat { h with
            teamsRise := fun hx => amapWf_aput _ _ _ (h.teamsRise hx), slotsRise := fun hx => amapWf_adel _ _ (h.slotsRise hx),
            teams := forall_mem_aput h.teams hg.team }) hg)
      · exact h.scalarTrapAt.grew

protected theorem Inv.appendEntry {gid : Nat} {g : Group} {t : Team} {e : CopyEntry} (h : Inv σ m) :
    Inv σ (appendEntry m gid g t e) := by
  unfold Machine.appendEntry
  extract_lets
  split
  · exact h.writeBytes
  next he => exact h.writeBytes.setTeam (NumIn.of_aget_teams he h.writeBytes)

protected theorem Leads.execCopyq {sd sa : Sreg} {s : State} (h : Inv σ s.m) : Leads σ (execCopyq sd sa s) := by
  unfold Machine.execCopyq
  refine Leads.groupStep h ?_
  intro g he hg
  extract_lets
  split
  · exact h.scalarTrap.grew
  · split
    · exact h.scalarTrap.grew
    · split
      · exact h.scalarTrap.grew
      · split
        · exact h.scalarTrap.grew
        · split
          · exact h.scalarTrap.grew
          · split
            · exact (h.wait hg).grew
            · exact (h.appendEntry.retire hg.setS).grew

theorem ResultIs.ite {ε α : Type} {P : ε → Prop} {Q : α → Prop} {c : Prop} [Decidable c] {x y : Except ε α}
    (hx : ResultIs P Q x)
    (hy : ResultIs P Q y) : ResultIs P Q (if c then x else y) := by
  split
  · exact hx
  · exact hy

protected theorem ResultIs.engineLocate {core ctx va n c : Nat} {k : AKind} (h : Inv σ m) :
    ResultIs (fun x => Inv σ x.1) (fun x => Inv σ x.1) (engineLocate m core ctx va n k c) := by
  unfold Machine.engineLocate
  split
  · split
    · exact ResultIs.ite h h
    · exact ResultIs.ite h h
    · exact h
  · have hl := ResultIs.locateFor (core := core) (ctx := ctx) (va := va) (k := k) h
    split
    next e =>
      have he := Inv.fst_of_error e hl
      exact he
    next e => exact Inv.of_ok_fst e hl

protected theorem ResultIs.locateRow {core ctx c n : Nat} {k : AKind} : ∀ {m : Mach} {va : Nat}, Inv σ m →
    ResultIs (fun x => Inv σ x.1) (fun x => Inv σ x.1) (locateRow core ctx k c n m va) := by
  induction n with
  | zero => exact fun h => h
  | succ n ih =>
    intro m va h
    unfold Machine.locateRow
    split
    · next e => exact Inv.of_error_fst e (ResultIs.engineLocate h)
    next e =>
      have h1 := ih (va := (va + 4) % 2 ^ 64) (Inv.of_ok_fst e (ResultIs.engineLocate h))
      split
      · next e1 => exact Inv.of_error_fst e1 h1
      · next e1 => exact Inv.of_ok_fst e1 h1

protected theorem Inv.agentWrite {l : Loc} {bs : List Byte} (h : Inv σ m) : Inv σ (agentWrite m l bs) := by
  unfold Machine.agentWrite
  extract_lets
  split
  · split
    · exact h.farWrite.makeIndet
    · exact h.farWrite
  · exact h.farWrite.poolStored
  · exact h.farWrite

protected theorem Inv.writeRow {e : CopyEntry} {r n : Nat} {src dst : List Loc} : ∀ {m : Mach}, Inv σ m →
    Inv σ (writeRow e r src dst n m) := by
  induction n with
  | zero => exact fun h => h
  | succ n ih =>
    intro m h
    unfold Machine.writeRow
    extract_lets i
    split
    next m1 bs e =>
      have h1 : Inv σ m1 := by
        split at e
        · exact Inv.of_fst e h.farRead
        · exact Inv.of_fst e h
      refine ih ?_
      split
      · exact h1.agentWrite
      · exact h1

protected theorem SomeIs.subtractRow {slot : Option Nat} {n : Nat} (h : Inv σ m) : SomeIs (fun x => Inv σ x)
    (subtractRow m slot n) := by
  unfold Machine.subtractRow
  split
  · exact h
  · split
    · exact h
    · split
      · exact trivial
      · exact h.updateSlot

protected theorem ResultIs.performRow {core ctx : Nat} {e : CopyEntry} {slot : Option Nat} {r : Nat} (h : Inv σ m) :
    ResultIs (fun x => Inv σ x.1) (fun x => Inv σ x) (performRow m core ctx e slot r) := by
  unfold Machine.performRow
  extract_lets n sva dva
  have hs : ResultIs (fun x => Inv σ x.1) (fun x => Inv σ x.1)
      (if e.op = 1 then locateRow core ctx .read 1 n m sva else .ok (m, [])) := ResultIs.ite (ResultIs.locateRow h) h
  split
  next e1 => exact Inv.fst_of_error e1 hs
  next e1 =>
    have h1 := Inv.of_ok_fst e1 hs
    split
    next e2 => exact Inv.fst_of_error e2 (ResultIs.locateRow h1)
    next e2 =>
      extract_lets m3
      have h3 : Inv σ m3 := Inv.writeRow (Inv.of_ok_fst e2 (ResultIs.locateRow h1))
      split
      · exact h3
      next e3 => exact Inv.of_some e3 (SomeIs.subtractRow h3)

protected theorem Inv.haltRing {tid cause : Nat} (h : Inv σ m) : Inv σ (haltRing m tid cause) := by
  unfold Machine.haltRing
  split
  · exact h
  next he => exact h.setTeam (NumIn.of_aget_teams he h)

protected theorem Inv.copyFault {gid addr : Nat} (h : Inv σ m) : Inv σ (copyFault m gid addr) := by
  unfold Machine.copyFault
  split
  · exact h
  · exact h.raiseTrap

protected theorem Inv.takeEntryDone {tid lat : Nat} (h : Inv σ m) : Inv σ (takeEntryDone m tid lat) := by
  unfold Machine.takeEntryDone
  split
  · exact h
  next he => exact (h.setTeam (NumIn.of_aget_teams he h)).settleKernel

protected theorem Inv.failEntry {tid : Nat} {owner : Option Nat} {cause addr : Nat} (h : Inv σ m) :
    Inv σ (failEntry m tid owner cause addr) := by
  unfold Machine.failEntry
  extract_lets
  split
  · exact h.haltRing.copyFault
  · exact h.haltRing

protected theorem Inv.rowStep {tid lat : Nat} {t : Team} {r : CopyRun} (h : Inv σ m) : Inv σ (rowStep m tid lat t r) := by
  have hr := ResultIs.performRow (core := t.share / spadSize) (ctx := t.ctx) (e := r.entry) (slot := r.slot) (r := r.rows) h
  unfold Machine.rowStep
  split
  · exact h.takeEntryDone
  · split
    next e => exact (Inv.of_error_fst e hr).failEntry
    next e =>
      have h1 := Inv.of_ok e hr
      split
      · exact h1
      next ht =>
        extract_lets r1 m2
        have h2 : Inv σ m2 := h1.setTeam (NumIn.of_aget_teams ht h1)
        split
        · exact h2.takeEntryDone
        · exact h2

protected theorem Leads.execCopyEntryPerform {team lat : Nat} {s : State} (h : Inv σ s.m) :
    Leads σ (execCopyEntryPerform team lat s) := by
  unfold Machine.execCopyEntryPerform
  refine Leads.event ?_
  extract_lets
  split
  · exact h.grew
  next he =>
    extract_lets
    split
    · exact h.grew
    · split
      · exact h.haltRing.grew
      · split
        · exact h.rowStep.grew
        · split
          · exact h.grew
          · split
            · exact h.failEntry.grew
            · extract_lets
              split
              · exact ((h.setTeam (NumIn.of_aget_teams he h)).takeEntryDone).grew
              · exact (h.setTeam (NumIn.of_aget_teams he h)).grew

protected theorem Inv.finishRows {tid lat n : Nat} : ∀ {m : Mach}, Inv σ m → Inv σ (finishRows tid lat n m) := by
  induction n with
  | zero => exact fun h => h
  | succ n ih =>
    intro m h
    unfold Machine.finishRows
    split
    · exact h
    · split
      · exact ih h.rowStep
      · exact h

protected theorem Inv.quiesceRing {tid : Nat} (h : Inv σ m) : Inv σ (quiesceRing m tid) := by
  unfold Machine.quiesceRing
  split
  · exact h.bump.finishRows
  · exact h

protected theorem Leads.execCopyRingResume {team : Nat} {s : State} (h : Inv σ s.m) : Leads σ (execCopyRingResume team s) := by
  unfold Machine.execCopyRingResume
  refine Leads.event ?_
  split
  · exact h.grew
  next he => exact (h.setTeam (NumIn.of_aget_teams he h)).grew

protected theorem Inv.deactivate {pc code : Dword} {off phase : Nat} (h : Inv σ m) (hg : GroupIn σ gid g) :
    Inv σ (deactivate m gid g pc code off phase) := by
  unfold Machine.deactivate
  have hf := hg.fold (code := code)
  exact h.setCore.setGrp (hf.requeue hf.liq (fun h _ => hf.aside h) (fun _ _ h => nomatch h) rfl rfl rfl)

protected theorem Leads.execYieldBar {name : BitVec 4} {par : BitVec 1} {off : BitVec 21} {s : State} (h : Inv σ s.m) :
    Leads σ (execYieldBar name par off s) := by
  unfold Machine.execYieldBar
  refine Leads.groupStep h ?_
  intro g he hg
  split
  · exact h.scalarTrap.grew
  · split
    · exact (h.acquireAt.finish hg).grew
    · refine Grew.awaitLanes h hg ?_
      split
      · exact (h.wait hg).grew
      · exact (h.deactivate hg).grew

protected theorem Inv.continueYield {gid : Nat} {g : Group} {off phase : Nat} (h : Inv σ m) (hg : GroupIn σ gid g) :
    Inv σ (continueYield m gid g off phase) := by
  unfold Machine.continueYield
  split
  · exact h
  · split
    · exact h
    · split
      · exact h
      · exact h.acquireAt.setGrp hg

protected theorem Leads.execPipeLim {sa sb : Sreg} {s : State} (h : Inv σ s.m) : Leads σ (execPipeLim sa sb s) := by
  unfold Machine.execPipeLim
  refine Leads.groupStep h ?_
  intro g he hg
  extract_lets
  split
  · exact h.scalarTrap.grew
  · split
    · exact (h.retire hg).grew
    · exact ((h.setTeam hg.team).retire hg).grew

end Sys2Proof.Machine
end

section
/-! PROOF. The families of lane arithmetic, and CVTS.
-/

namespace Sys2Proof.Machine
variable {σ τ : Claim} {m : Mach} {gid : Nat} {g : Group}

protected theorem Leads.laneInt {s : State} {i : Instr} {w : LaneWord} {f : LaneIn → Nat → Nat → Int} (h : Inv σ s.m) :
    Leads σ (laneInt s i w f) := by
  unfold Machine.laneInt
  exact Leads.lanePure h

protected theorem Leads.laneBits {s : State} {i : Instr} {w : LaneWord} {f : LaneIn → Nat → Nat → Nat} (h : Inv σ s.m) :
    Leads σ (laneBits s i w f) := by
  unfold Machine.laneBits
  exact Leads.lanePure h

protected theorem Leads.laneFp {s : State} {i : Instr} {w : LaneWord}
    {f : LaneIn → Nat → Nat → Fmt → Rnd → Bool → Nat × FFlags} (h : Inv σ s.m) : Leads σ (laneFp s i w f) := by
  unfold Machine.laneFp
  exact Leads.laneArith h

protected theorem Leads.laneDot {s : State} {i : Instr} {w : LaneWord} (h : Inv σ s.m) : Leads σ (laneDot s i w) := by
  unfold Machine.laneDot
  exact Leads.laneArith h

protected theorem Inv.checkScales {rs : List ScaleRead} : ∀ {m : Mach}, Inv σ m → Inv σ (checkScales g rs m).1 := by
  induction rs with
  | nil => exact fun h => h
  | cons r rest ih =>
    intro m h
    unfold Machine.checkScales
    split
    · next e => exact ih (Inv.of_fst e h.checkLane)
    · next e => exact ih (Inv.of_fst e h.checkLane)

protected theorem Inv.readScale {x : LaneIn} {mv : Mach × Scales} {ra : ScaleRead × LaneAccess} (h : Inv σ mv.1) :
    Inv σ (readScale x mv ra).1 := by
  unfold Machine.readScale
  split
  next he => exact Inv.of_fst he h.loadLane

protected theorem Inv.cvtsFinish {gid : Nat} {x : LaneIn} {d : SlotDesc} {ss : Scales} (h : Inv σ m) (hx : HeadIn σ gid x) :
    Inv σ (cvtsFinish m gid x d ss) := by
  unfold Machine.cvtsFinish
  exact h.laneFinish ((GroupIn.write hx).raise) (EntryIn.of_head hx) ((ChainIn.getD (GroupIn.of_head hx)).capture)

protected theorem Leads.execCvts {w : LaneWord} {s : State} (h : Inv σ s.m) : Leads σ (execCvts w s) := by
  unfold Machine.execCvts
  refine Leads.laneMemory h ?_
  intro x hx
  extract_lets
  split
  next he =>
    extract_lets
    split
    · exact ((Inv.of_fst he h.checkScales).laneFaults (GroupIn.of_head hx)).grew
    · refine Inv.grew ?_
      refine (Inv.of_fst he h.checkScales).overFabric ((Inv.of_fst he h.checkScales).sendOver (GroupIn.of_head hx)) ?_
      split
      next he1 =>
        exact (Inv.of_fst he1 ((Inv.of_fst he h.checkScales).foldl_fst (fun _ _ _ h1 => h1.readScale))).cvtsFinish hx

end Sys2Proof.Machine
end

section
/-! PROOF. New groups and teams, stamps, summaries and tasks.
-/

namespace Sys2Proof.Machine
variable {σ τ : Claim} {m : Mach} {gid : Nat} {g : Group}

protected theorem Grew.newId (h : Inv σ m) : Grew σ m.newId.2 := h.setNext (Nat.le_succ _)

theorem NumIn.of_newId (h : Inv σ m.newId.2) : NumIn σ m.newId.1 := fun hf => by
  rw [← h.next hf]
  exact Nat.lt_succ_self _

theorem GroupIn.freshGroup {ctx kern team core slot gidx width nregs cyc : Nat} {kind : GKind} (hg : NumIn σ gid)
    (ht : NumIn σ team) : GroupIn σ gid (freshGroup ctx kern team kind core slot gidx width nregs cyc) := by
  unfold Machine.freshGroup GroupIn GroupPartsIn
  dsimp only
  exact ⟨fun _ => ⟨laneEntries_nil, fun _ h => (nomatch h), fun _ h => (nomatch h), rfl, fun _ h => (nomatch h)⟩,
    fun hf => ⟨hg hf, ht hf⟩⟩

/-- A kernel's group as it is begun at the kernel's entry (R353). -/
theorem GroupIn.begun {r : Sreg} {x spc stamp : Dword} {node : Nat} {own : Bool} (hg : GroupIn σ gid g) :
    GroupIn σ gid { g.setS r x with spc := spc, node := node, stamp := stamp, own := own } := hg.setS (r := r) (x := x)

/-- What comes of a group admitted as a team of its own, whose numbers are fresh. -/
theorem Grew.of_admitOne {m1 m' : Mach} {ctx kid width nregs feat : Nat} {kind : GKind} {at_ : Slot} {r : Option LaunchRec}
    (e : admitOne m ctx kid kind at_ width nregs feat r = some (m1, gid, g)) (h : Inv σ m)
    (hk : ∀ τ : Claim, σ.Le τ → Inv τ m1 → GroupIn τ gid g → Grew τ m') : Grew σ m' := by
  unfold admitOne at e
  extract_lets frame at e
  split at e
  · split at e
    next id m2 en =>
      obtain ⟨rfl, rfl, rfl⟩ : _ ∧ _ ∧ _ := by simpa using e
      have h2 : Grew σ m2 := by
        have := Grew.newId h
        rwa [en] at this
      refine h2.bind fun τ hl h2 => ?_
      have hn : NumIn τ id := by
        have := NumIn.of_newId (m := m) (σ := τ)
        rw [en] at this
        exact this h2
      have hg : GroupIn τ id (freshGroup ctx kid id kind at_.core at_.slot 0 width nregs (m.core at_.core).cyc) :=
        .freshGroup hn hn
      refine hk τ hl ?_ hg
      have hb := h2.bump
      exact (hb.upd_teams (fun hf => amapWf_aput _ _ _ (h2.teamsRise hf)) (forall_mem_aput h2.teams hn)).upd_groups
        (fun hf => amapWf_aput _ _ _ (h2.groupsRise hf)) (forall_mem_aput h2.groups hg)
  · cases e

protected theorem Grew.placeGroups {ctx kid tid : Nat} {r : LaunchRec} {s1 : Dword} {l : List Slot} : ∀ {σ : Claim} {ix : Nat}
    {m : Mach}, Inv σ m → NumIn σ tid → Grew σ (placeGroups ctx kid tid r s1 l ix m) := by
  induction l with
  | nil => exact fun h _ => h.grew
  | cons x rest ih =>
    intro σ ix m h ht
    unfold placeGroups
    refine (Grew.newId h).bind fun τ hl h1 => ?_
    have hg := GroupIn.freshGroup (NumIn.of_newId h1) (ht.mono hl) (ctx := ctx) (kern := kid) (kind := .kernel) (core := x.core)
      (slot := x.slot) (gidx := ix) (width := 32 * (r.wcode + 1)) (nregs := 8 * r.regs) (cyc := (m.core x.core).cyc)
    exact ih (Inv.countAt (h1.setGrp hg.begun)) (ht.mono hl)

protected theorem Grew.admitTeam {ctx kid t : Nat} {r : LaunchRec} {p : Placement} (h : Inv σ m) :
    Grew σ (admitTeam m ctx kid t r p) := by
  unfold admitTeam
  refine (Grew.newId h).bind fun τ hl h1 => ?_
  have hn := NumIn.of_newId h1
  exact Grew.placeGroups (h1.setTeam hn) hn

protected theorem Leads.stampStep {s : State} {func : Nat} {sd sa : Sreg} {f : Group → Except Cause Dword} (h : Inv σ s.m) :
    Leads σ (stampStep s func sd sa f) := by
  unfold Machine.stampStep
  refine Leads.groupStep h ?_
  intro g he hg
  split
  · exact h.scalarTrap.grew
  · split
    · exact h.scalarTrap.grew
    · exact (h.retire hg.setS).grew

protected theorem Leads.execStampGet {sd sa sb : Sreg} {s : State} (h : Inv σ s.m) : Leads σ (execStampGet sd sa sb s) := by
  unfold Machine.execStampGet
  exact Leads.stampStep h

protected theorem Leads.execStampInc {sd sa sb : Sreg} {s : State} (h : Inv σ s.m) : Leads σ (execStampInc sd sa sb s) := by
  unfold Machine.execStampInc
  exact Leads.stampStep h

protected theorem Leads.execStampEnter {sd sa : Sreg} {s : State} (h : Inv σ s.m) : Leads σ (execStampEnter sd sa s) := by
  unfold Machine.execStampEnter
  exact Leads.stampStep h

protected theorem Leads.execStampLeave {sd sa : Sreg} {s : State} (h : Inv σ s.m) : Leads σ (execStampLeave sd sa s) := by
  unfold Machine.execStampLeave
  exact Leads.stampStep h

protected theorem Leads.nodeStep {s : State} {sa sb : Sreg} {before : Group → Option Cause}
    {f : Nat → Group → Context → Nat → Dword → Mach} (h : Inv σ s.m)
    (hf : ∀ g c n t, GroupIn σ s.m.cur g → CtxIn σ c → Grew σ (f s.m.cur g c n t)) : Leads σ (nodeStep s sa sb before f) := by
  unfold Machine.nodeStep
  refine Leads.groupStep h fun g _ hg => ?_
  split
  · exact h.scalarTrap.grew
  · exact h.grew
  next e =>
    split
    · exact h.scalarTrap.grew
    · exact hf _ _ _ _ hg (CtxIn.of_aget e h)

protected theorem Inv.moveCount {gid : Nat} {g : Group} {n : Nat} {t : Dword} (h : Inv σ m) (hg : GroupIn σ gid g) :
    Inv σ (moveCount m gid g n t) := by
  unfold Machine.moveCount
  exact h.countAt.dropAt.retire hg

protected theorem Leads.execStampSet {sa sb : Sreg} {s : State} (h : Inv σ s.m) : Leads σ (execStampSet sa sb s) := by
  unfold Machine.execStampSet
  refine Leads.nodeStep h ?_
  intro g c n t hg ha
  split
  · exact h.scalarTrap.grew
  · split
    · exact (h.retire hg).grew
    · refine Grew.awaitLanes h hg ?_
      split
      · exact (h.moveCount hg).grew
      · exact (h.wait hg).grew

protected theorem Leads.execFrontWait {sa sb : Sreg} {s : State} (h : Inv σ s.m) : Leads σ (execFrontWait sa sb s) := by
  unfold Machine.execFrontWait
  refine Leads.nodeStep h ?_
  intro g c n t hg ha
  split
  · exact h.scalarTrap.grew
  · split
    · exact (h.acquireAt.retire hg).grew
    · exact (h.wait hg).grew

protected theorem Leads.execFrontTest {sd sa sb : Sreg} {s : State} (h : Inv σ s.m) : Leads σ (execFrontTest sd sa sb s) := by
  unfold Machine.execFrontTest
  refine Leads.nodeStep h ?_
  intro g c n t hg ha
  extract_lets
  refine Inv.grew ?_
  refine Inv.retire ?_ hg.setS
  split
  · exact h.acquireAt
  · exact h

protected theorem Leads.execFrontHold {sd sa sb : Sreg} {s : State} (h : Inv σ s.m) : Leads σ (execFrontHold sd sa sb s) := by
  unfold Machine.execFrontHold
  refine Leads.nodeStep h ?_
  intro g c n t hg ha
  extract_lets
  split
  · exact h.scalarTrap.grew
  · split
    · exact h.scalarTrap.grew
    · split
      · exact (h.wait hg).grew
      · exact Inv.grew (Inv.retire (Inv.bump (Inv.takeHere (h.setCtx ha))) hg.setS)

protected theorem CtxIn.freeHold {c : Context} {i : Nat} (hc : CtxIn σ c) : CtxIn σ (Context.freeHold c i) := by
  unfold Machine.Context.freeHold
  exact hc

protected theorem Leads.execFrontDrop {sa : Sreg} {s : State} (h : Inv σ s.m) : Leads σ (execFrontDrop sa s) := by
  unfold Machine.execFrontDrop
  refine Leads.groupStep h ?_
  intro g he hg
  extract_lets
  split
  · exact h.grew
  next he1 =>
    have hc := CtxIn.of_aget he1 h
    split
    · exact h.scalarTrap.grew
    · split
      · exact h.scalarTrap.grew
      · split
        · exact h.scalarTrap.grew
        · exact Grew.awaitLanes h hg ((((h.setCtx hc.freeHold).dropAt).retire hg).grew)

protected theorem CtxIn.install {c : Context} {i : SummImage} (hc : CtxIn σ c) : CtxIn σ (Context.install c i) := by
  unfold Machine.Context.install
  exact hc

theorem CtxIn.getD {k : Nat} {c : Context} (h : Inv σ m) (hc : CtxIn σ c) : CtxIn σ ((aget m.ctxs k).getD c) := by
  cases e : aget m.ctxs k with
  | none => exact hc
  | some x => exact CtxIn.of_aget e h

protected theorem Inv.loadImage {gid : Nat} {g : Group} {c : Context} {base : Dword} {bs : List Byte} {nn ne : Nat}
    (h : Inv σ m) (hg : GroupIn σ gid g) (hc : CtxIn σ c) : Inv σ (loadImage m gid g c base bs nn ne) := by
  unfold Machine.loadImage
  extract_lets
  split
  · exact h.scalarTrapAt
  · split
    · exact h.scalarTrap
    · exact ((h.flushAll.setCtx ((CtxIn.getD h.flushAll hc).install)).bump).retire hg

protected theorem Leads.execSummLd {sa : Sreg} {s : State} (h : Inv σ s.m) : Leads σ (execSummLd sa s) := by
  unfold Machine.execSummLd
  refine Leads.groupStep h ?_
  intro g he hg
  extract_lets
  split
  · exact h.grew
  next he1 =>
    have hc := CtxIn.of_aget he1 h
    split
    · exact h.scalarTrap.grew
    · split
      · exact h.scalarTrapAt.grew
      · refine Inv.grew ?_
        refine Inv.onGot (GotIn.recordLoadMore h hg) ?_
        intro m v he2 h1
        split
        · exact h1.scalarTrapAt
        · exact h1.loadImage hg hc

protected theorem Leads.execCountBatchSend {unit : Nat} {s : State} (h : Inv σ s.m) : Leads σ (execCountBatchSend unit s) := by
  unfold Machine.execCountBatchSend
  refine Leads.event ?_
  split
  · exact h.sendUnit.grew
  · split
    · exact h.sendDie.grew
    · exact h.grew

protected theorem Leads.execSnapshotStart {ctx : Nat} {s : State} (h : Inv σ s.m) : Leads σ (execSnapshotStart ctx s) := by
  unfold Machine.execSnapshotStart
  refine Leads.event ?_
  split
  · exact h.grew
  next he =>
    have hc := CtxIn.of_aget he h
    exact Inv.grew (h.setCtx hc)

protected theorem Leads.execFloorAnnounce {ctx : Nat} {lagging : List Nat} {s : State} (h : Inv σ s.m) :
    Leads σ (execFloorAnnounce ctx lagging s) := by
  unfold Machine.execFloorAnnounce
  refine Leads.event ?_
  extract_lets
  split
  · exact h.grew
  next he =>
    have hc := CtxIn.of_aget he h
    extract_lets
    split
    · exact h.grew
    · exact Inv.grew (h.flushAll.setCtx (CtxIn.getD h.flushAll hc))

/-! Tasks. -/

protected theorem CtxIn.setTask {c : Context} {i : Nat} {r : TaskRec} (hc : CtxIn σ c) : CtxIn σ (c.setTask i r) :=
  fun hf => amapWf_aput _ _ _ (hc hf)

protected theorem Grew.onGot {α : Type} {x : Got α} {k : Mach → α → Mach} (hx : GotIn σ x)
    (hk : ∀ m v, x = .done m v → Inv σ m → Grew σ (k m v)) : Grew σ (onGot gid x k) := by
  unfold Machine.onGot
  split
  · exact (Inv.scalarTrapAt hx).grew
  · exact Inv.grew hx
  · exact hk _ _ rfl hx

protected theorem GotIn.readPacket {gid : Nat} {g : Group} {va : Nat} (h : Inv σ m) (hg : GroupIn σ gid g) :
    GotIn σ (readPacket m gid g va) := by
  unfold Machine.readPacket
  split
  next he => exact Inv.of_trap he (GotIn.recordLoadMore h hg)
  next he => exact Inv.of_hold he (GotIn.recordLoadMore h hg)
  next he => exact Inv.of_done he (GotIn.recordLoadMore h hg)

protected theorem Inv.takeApplied {g : Group} {n : Nat} {t : Dword} (h : Inv σ m) : Inv σ (takeApplied m g n t) := by
  unfold Machine.takeApplied
  exact h.countAt.flushUnit

protected theorem Grew.setTask {ctx i : Nat} {r : TaskRec} (h : Inv σ m) : Grew σ (setTask m ctx i r) := by
  unfold setTask
  split
  · exact h.grew
  next e => exact (h.setCtx (CtxIn.of_aget e h).setTask).setNext (Nat.le_succ _)

protected theorem Leads.taskStep {s : State} {f : Nat → Group → Context → Mach} (h : Inv σ s.m)
    (hf : ∀ g c, GroupIn σ s.m.cur g → CtxIn σ c → Grew σ (f s.m.cur g c)) : Leads σ (taskStep s f) := by
  unfold Machine.taskStep
  refine Leads.groupStep h fun g _ hg => ?_
  split
  · exact h.grew
  next e =>
    split
    · exact h.scalarTrap.grew
    · exact hf _ _ hg (CtxIn.of_aget e h)

protected theorem Grew.allocate {c : Context} {sd : Sreg} {n k : Nat} {t : Dword} (h : Inv σ m) (hg : GroupIn σ gid g) :
    Grew σ (allocate m gid g c sd n t k) := by
  unfold Machine.allocate
  split
  · exact h.scalarTrap.grew
  · split
    · exact (h.wait hg).grew
    · exact (Grew.setTask h).map fun τ hl h1 => Inv.retire h1.takeApplied.bump (hg.mono hl).setS

protected theorem Leads.execTaskAlloc {sd sa sb : Sreg} {s : State} (h : Inv σ s.m) : Leads σ (execTaskAlloc sd sa sb s) := by
  unfold Machine.execTaskAlloc
  refine Leads.taskStep h fun g c hg hc => ?_
  extract_lets a
  split
  · exact h.scalarTrap.grew
  · split
    · exact h.scalarTrap.grew
    · split
      · exact h.scalarTrap.grew
      · exact Grew.allocate h hg

protected theorem Grew.publishTask {i : Nat} {r : TaskRec} {p : TaskPacket} (h : Inv σ m) (hg : GroupIn σ gid g) :
    Grew σ (publishTask m gid g i r p) := by
  unfold Machine.publishTask
  split
  · exact (h.wait hg).grew
  · exact (Grew.setTask h).map fun τ hl h1 => h1.retire (hg.mono hl)

protected theorem Leads.execTaskPub {sa sb : Sreg} {s : State} (h : Inv σ s.m) : Leads σ (execTaskPub sa sb s) := by
  unfold Machine.execTaskPub
  refine Leads.taskStep h fun g c hg hc => ?_
  split
  · exact h.scalarTrapAt.grew
  · split
    · exact h.scalarTrapAt.grew
    · split
      · exact h.scalarTrap.grew
      · refine Grew.onGot (GotIn.readPacket h hg) fun m p _ h1 => ?_
        extract_lets ok
        split
        · exact Grew.publishTask h1 hg
        · exact h1.scalarTrap.grew

protected theorem ResultIs.signalTask {ctx core : Nat} {x : Dword} (h : Inv σ m) :
    ResultIs (fun _ => True) (fun m => Grew σ m) (signalTask m ctx core x) := by
  unfold Machine.signalTask
  split
  · trivial
  · split
    · trivial
    · split
      · trivial
      · exact Grew.setTask h

protected theorem Leads.execTaskSig {sa : Sreg} {s : State} (h : Inv σ s.m) : Leads σ (execTaskSig sa s) := by
  unfold Machine.execTaskSig
  refine Leads.taskStep h fun g c hg hc => ?_
  split
  · exact h.scalarTrapAt.grew
  · exact h.scalarTrap.grew
  next e => exact (ResultIs.ok e (ResultIs.signalTask h)).map fun τ hl h1 => h1.retire (hg.mono hl)

protected theorem Grew.spawnTask {c : Context} {sd : Sreg} {p : TaskPacket} (h : Inv σ m) (hg : GroupIn σ gid g) :
    Grew σ (spawnTask m gid g c sd p) := by
  unfold Machine.spawnTask
  split
  · exact h.scalarTrap.grew
  · split
    · exact (h.wait hg).grew
    · exact (Grew.setTask h).map fun τ hl h1 => Inv.retire h1.takeApplied.bump (hg.mono hl).setS

protected theorem Leads.execTaskSpawn {sd sa : Sreg} {s : State} (h : Inv σ s.m) : Leads σ (execTaskSpawn sd sa s) := by
  unfold Machine.execTaskSpawn
  refine Leads.taskStep h fun g c hg hc => ?_
  split
  · exact h.scalarTrapAt.grew
  · refine Grew.onGot (GotIn.readPacket h hg) fun m p _ h1 => ?_
    extract_lets ok
    split
    · exact h1.scalarTrap.grew
    · split
      · exact h1.scalarTrap.grew
      · exact Grew.spawnTask h1 hg

protected theorem Grew.signalAll {ctx core : Nat} {l : List Dword} : ∀ {m : Mach} {bad : Option (Cause × Dword)}, Grew σ m →
    Grew σ (signalAll ctx core l (m, bad)).1 := by
  induction l with
  | nil => exact fun h => h
  | cons x r ih =>
    intro m bad h
    unfold Machine.signalAll
    split
    next e => exact ih (h.bind fun τ _ h => ResultIs.ok e (ResultIs.signalTask h))
    · exact ih h

protected theorem Grew.endTasks {l : List (Nat × Nat)} : ∀ {m : Mach} {bad : Option (Cause × Dword)}, Grew σ m →
    Grew σ (endTasks g l (m, bad)).1 := by
  induction l with
  | nil => exact fun h => h
  | cons x r ih =>
    intro m bad h
    unfold Machine.endTasks
    split
    · exact ih h
    · extract_lets t
      split
      next m1 bad1 e =>
        have h1 : Grew σ m1 := by
          have := Grew.signalAll h (ctx := g.ctx) (core := g.core) (l := t.succs) (bad := bad)
          rwa [e] at this
        exact ih (h1.bind fun τ _ h1 => Grew.setTask h1.dropAt)

protected theorem Grew.exitTasks {c : Context} {mask : Nat} (h : Inv σ m) (hg : GroupIn σ gid g) :
    Grew σ (exitTasks m gid g c mask) := by
  unfold Machine.exitTasks
  extract_lets named kept
  split
  next m1 bad e =>
    have h1 : Grew σ m1 := by
      have := Grew.endTasks h.grew (g := g) (l := named) (bad := none)
      rwa [e] at this
    extract_lets m2
    have h2 : Grew σ m2 := h1.map fun τ hl h1 => h1.progress.retire (hg.mono hl)
    split
    · exact h2
    · exact h2.map fun τ hl h2 => h2.scalarTrapTo

protected theorem Leads.execTaskExit {sa : Sreg} {s : State} (h : Inv σ s.m) : Leads σ (execTaskExit sa s) := by
  unfold Machine.execTaskExit
  refine Leads.taskStep h fun g c hg hc => ?_
  split
  · exact h.scalarTrap.grew
  · split
    · exact h.scalarTrap.grew
    · exact Grew.awaitLanes h hg (Grew.exitTasks h hg)

protected theorem GroupIn.startTasks {r : LaunchRec} {b : List ReadyTask} (hg : GroupIn σ gid g) :
    GroupIn σ gid (g.startTasks r b) := by
  have hv : σ.form → amapWf ((numbered b).foldl (fun v x => (List.range x.2.r.payload.length).foldl
      (fun v n => putV v (n * 128 + x.1) (x.2.r.payload.getD n 0)) v) g.v) = true := fun hf =>
    List.foldlRecOn _ _ (motive := fun v => amapWf v = true) (hg.v hf) fun v h x _ =>
      List.foldlRecOn _ _ (motive := fun v => amapWf v = true) h fun v h n _ => amapWf_putV h
  unfold Group.startTasks
  exact (hg.setS.setS.upd_v hv :)

protected theorem Grew.runTasks {b : List ReadyTask} (h : Inv σ m) : Grew σ (runTasks m b) :=
  Grew.foldl h.grew fun _ _ _ _ _ h => Grew.setTask h

protected theorem Leads.execTaskGather {die : Nat} {late : Bool} {at_ : Slot} {s : State} (h : Inv σ s.m) :
    Leads σ (execTaskGather die late at_ s) := by
  unfold Machine.execTaskGather
  refine Leads.event ?_
  extract_lets all heads
  split
  · exact h.grew
  · split
    · split
      · exact h.grew
      · extract_lets b
        split
        · exact h.grew
        next e =>
          refine Grew.of_admitOne e h.bump fun τ _ h1 hg => ?_
          exact (Grew.runTasks h1).map fun υ hl h2 => (h2.setGrp (hg.mono hl).startTasks).acquireAt
    · exact h.grew

end Sys2Proof.Machine
end

section
/-! PROOF. Walks, summonses and the walk engines.
-/

namespace Sys2Proof.Machine
variable {σ τ : Claim} {m : Mach} {gid : Nat} {g : Group}

protected theorem Grew.appendWalk {ctx kern eng : Nat} {poster : Option Nat} {addr : Dword} {r : WalkRec}
    {after : List EngineEntry} (h : Inv σ m) : Grew σ (appendWalk m ctx kern poster addr r eng after).1 := by
  unfold appendWalk
  exact (h.setEngine.setWalk).setNext (Nat.le_succ _)

protected theorem Grew.appendPosted {sd : Sreg} {addr : Dword} {r : WalkRec} {eng : Nat} (h : Inv σ m) (hg : GroupIn σ gid g) :
    Grew σ (appendPosted m gid g sd addr r eng) := by
  unfold Machine.appendPosted
  split
  · exact (h.wait hg).grew
  · exact (Grew.appendWalk h).map fun τ hl h1 => h1.retire (hg.mono hl).setS

protected theorem Grew.takePost {sd : Sreg} {addr : Dword} {r : WalkRec} {eng : Nat} (h : Inv σ m) (hg : GroupIn σ gid g) :
    Grew σ (takePost m gid g sd addr r eng) := by
  unfold Machine.takePost
  split
  · exact (h.wait hg).grew
  · exact Grew.appendPosted h.takeFrom (GroupIn.ite hg hg)

protected theorem Grew.postWalk {c : Context} {sd : Sreg} {addr : Dword} {eng : Nat} {bs : List Byte} (h : Inv σ m)
    (hg : GroupIn σ gid g) : Grew σ (postWalk m gid g c sd addr eng bs) := by
  unfold Machine.postWalk
  extract_lets r
  split
  · exact h.scalarTrap.grew
  · split
    · exact h.scalarTrap.grew
    · split
      · exact h.scalarTrap.grew
      · split
        · exact h.scalarTrap.grew
        · split
          · exact h.scalarTrap.grew
          · exact Grew.takePost h hg

protected theorem Leads.execWalkPost {sd sa sb : Sreg} {s : State} (h : Inv σ s.m) : Leads σ (execWalkPost sd sa sb s) := by
  unfold Machine.execWalkPost
  refine Leads.groupStep h fun g _ hg => ?_
  extract_lets addr sel
  split
  · exact Grew.appendPosted h hg
  · exact h.grew
  · split
    · exact h.scalarTrap.grew
    · split
      · exact h.scalarTrapAt.grew
      · split
        · exact h.scalarTrap.grew
        · exact Grew.onGot (GotIn.recordLoad h hg) fun m bs _ h1 => Grew.postWalk h1 hg

protected theorem Leads.execWalkStat {sd sa : Sreg} {s : State} (h : Inv σ s.m) : Leads σ (execWalkStat sd sa s) := by
  unfold Machine.execWalkStat
  refine Leads.groupStep h ?_
  intro g he hg
  extract_lets
  split
  · exact h.scalarTrap.grew
  · refine Inv.grew ?_
    refine Inv.retire ?_ hg.setS
    split
    · exact h.acquireAt
    · exact h

protected theorem Leads.execWalkAbort {sa : Sreg} {s : State} (h : Inv σ s.m) : Leads σ (execWalkAbort sa s) := by
  unfold Machine.execWalkAbort
  refine Leads.groupStep h ?_
  intro g he hg
  extract_lets
  split
  · exact h.scalarTrap.grew
  · split
    · exact h.scalarTrap.grew
    · split
      · split
        · exact ((h.retire hg).abortWalk).grew
        · exact (h.retire hg).grew
      · exact (h.retire hg).grew

protected theorem Inv.settleWalk {wid : Nat} (h : Inv σ m) : Inv σ (settleWalk m wid) := by
  unfold Machine.settleWalk
  split
  · exact h
  · extract_lets
    split
    · exact h.finishAbort
    · split
      · exact h.writeResult.retireWalk.dropAt.endPackets.settleKernel
      · split
        · exact h.setWalk
        · exact h

protected theorem GroupIn.park {pool since : Nat} (hg : GroupIn σ gid g) : GroupIn σ gid (g.park pool since) :=
  hg.requeue hg.liq (fun _ _ h => nomatch h) (fun hf _ => hg.issued hf) rfl rfl rfl

protected theorem Inv.afterPark {g : Group} (h : Inv σ m) : Inv σ (afterPark m g) := by
  unfold Machine.afterPark
  exact h.sweepSpawned.settleKernel

protected theorem Grew.parkOn {pool : Nat} (h : Inv σ m) (hg : GroupIn σ gid g) : Grew σ (parkOn m gid g pool) := by
  unfold Machine.parkOn
  extract_lets m1 g1
  have h1 : Inv σ m1 := (h.retire hg).dropOwn
  have hg1 : GroupIn σ gid g1 := (GroupIn.regrp h1 hg).park
  exact ((h1.setGrp hg1).setNext (Nat.le_succ _)).map fun τ _ h2 => h2.afterPark

protected theorem Leads.execHndlPark {sa : Sreg} {s : State} (h : Inv σ s.m) : Leads σ (execHndlPark sa s) := by
  unfold Machine.execHndlPark
  refine Leads.groupStep h fun g _ hg => ?_
  extract_lets pool
  split
  · exact h.scalarTrap.grew
  · split
    · exact h.scalarTrap.grew
    · split
      · exact h.scalarTrap.grew
      · refine Grew.awaitLanes h hg ?_
        split
        · exact (h.retire hg).grew
        · split
          · exact (h.wait hg).grew
          · exact Grew.parkOn h hg

protected theorem Inv.freeBank {eng bank : Nat} (h : Inv σ m) : Inv σ (freeBank m eng bank) := by
  unfold Machine.freeBank
  exact h.setEngine

protected theorem Inv.returnSummons {sid : Nat} {s : Summons} (h : Inv σ m) : Inv σ (returnSummons m sid s) := by
  unfold Machine.returnSummons
  extract_lets m1
  have h1 : Inv σ m1 := h.upd_summons fun hf => amapWf_adel _ _ (h.summonsRise hf)
  split
  · exact h1
  · extract_lets
    split
    · exact h1.settleWalk
    · refine Inv.settleWalk ?_
      split
      · exact h1.setWalk.freeBank
      · exact h1.setWalk

protected theorem Leads.execHndlDone {s : State} (h : Inv σ s.m) : Leads σ (execHndlDone s) := by
  unfold Machine.execHndlDone
  refine Leads.groupStep h fun g _ hg => ?_
  split
  · exact h.scalarTrap.grew
  · split
    · exact h.scalarTrap.grew
    · refine Grew.awaitLanes h hg ?_
      extract_lets m1 g1 _ m2
      have h1 : Inv σ m1 := h.retire hg
      have hg1 : GroupIn σ _ g1 := (GroupIn.regrp h1 hg).park
      have h2 : Grew σ m2 := ((h1.setGrp hg1).setNext (Nat.le_succ _)).map fun τ _ h2 => h2.progress
      exact h2.map fun τ _ h2 => h2.returnSummons.afterPark

protected theorem Leads.execAccLd {w : LaneWord} {s : State} (h : Inv σ s.m) : Leads σ (execAccLd w s) := by
  unfold Machine.execAccLd
  extract_lets
  refine Leads.laneStep h ?_
  intro x hx
  extract_lets
  split
  · exact (h.laneTrap (GroupIn.of_head hx)).grew
  · extract_lets _ _ m1
    have hm1 : Inv σ m1 := by
      unfold m1
      split
      · exact h
      · exact h.of_frame
    split
    · exact (h.laneTrap (GroupIn.of_head hx)).grew
    · split
      · exact h.detectedError.grew
      · exact (hm1.laneFinish (GroupIn.write hx) (EntryIn.of_head hx) ((ChainIn.getD (GroupIn.of_head hx)).capture)).grew

protected theorem Inv.takePlace {wid e : Nat} (h : Inv σ m) : Inv σ (takePlace wid m e) := by
  unfold Machine.takePlace
  exact h.setEngine

protected theorem Inv.loadBank {w : Walk} {b : SavedBank} (h : Inv σ m) : Inv σ (loadBank w m b) := by
  unfold Machine.loadBank
  exact h.setEngine

protected theorem CtxIn.dropCasts {c : Context} {wid : Nat} (hc : CtxIn σ c) : CtxIn σ (Context.dropCasts c wid) := by
  unfold Machine.Context.dropCasts
  exact hc

protected theorem Inv.tellWalk {wid : Nat} {w : Walk} (h : Inv σ m) : Inv σ (tellWalk m wid w) := by
  unfold Machine.tellWalk
  split
  · exact h
  · exact h.report.setWalk

protected theorem Inv.resumeAt {wid : Nat} {w : Walk} (h : Inv σ m) : Inv σ (resumeAt m wid w) := by
  unfold Machine.resumeAt
  extract_lets m1 w1 m2
  have h1 : Inv σ m1 := Inv.foldl (h.foldl fun _ _ _ h => h.takePlace) fun _ _ _ h => h.loadBank
  have h2 : Inv σ m2 := h1.setWalk
  split
  next e => exact h2.setCtx (CtxIn.of_aget e h2).dropCasts
  · exact h2

protected theorem Leads.execWalkPlace {eng : Nat} {s : State} (h : Inv σ s.m) : Leads σ (execWalkPlace eng s) := by
  unfold Machine.execWalkPlace
  refine Leads.event ?_
  extract_lets
  split
  · exact h.tellWalk.grew
  · split
    · exact h.setWalk.grew
    · split
      · exact h.grew
      · split
        · exact h.resumeAt.grew
        · exact ((h.foldl (fun _ _ _ h1 => h1.takePlace)).setWalk).grew

protected theorem Leads.execWalkReserve {eng : Nat} {offs : List (List Nat)} {s : State} (h : Inv σ s.m) :
    Leads σ (execWalkReserve eng offs s) := by
  unfold Machine.execWalkReserve
  refine Leads.event ?_
  extract_lets
  split
  · exact h.grew
  · extract_lets
    split
    · exact h.grew
    · extract_lets
      split
      · exact h.setWalk.grew
      · exact h.grew

protected theorem Grew.issue {s : Summons} (h : Inv σ m) : Grew σ (issue m s) :=
  (h.upd_summons fun hf => amapWf_aput _ _ _ (h.summonsRise hf)).setNext (Nat.le_succ _)

protected theorem Inv.setPart {wid : Nat} {w : Walk} {part : Nat} {f : Part → Part} (h : Inv σ m) :
    Inv σ (setPart m wid w part f) := by
  unfold Machine.setPart
  exact h.setWalk

protected theorem Grew.issueDue {wid part slotA slotB : Nat} {w : Walk} {d : Due} (h : Inv σ m) :
    Grew σ (issueDue m wid w part slotA slotB d) := by
  unfold Machine.issueDue
  cases d with
  | drain t b => exact Grew.issue h.setPart
  | init t => exact Grew.issue h.setPart
  | pair q => exact (Grew.issue h.setPart).bind fun τ _ h1 => Grew.issue h1
  | passPair n => exact h.setPart.grew
  | passInit => exact h.setPart.grew

protected theorem Leads.execSummonsIssue {eng slotA slotB : Nat} {s : State} (h : Inv σ s.m) :
    Leads σ (execSummonsIssue eng slotA slotB s) := by
  unfold Machine.execSummonsIssue
  refine Leads.event ?_
  extract_lets l
  split
  · exact h.grew
  · exact Grew.issueDue h.bump

/-- A group's record with what a summons changes beside its registers (R270). -/
theorem GroupIn.served {spc stamp : Dword} {node readyAt pool : Nat} {st : GState} {serving : Option Nat}
    (hg : GroupIn σ gid g) :
    GroupIn σ gid { g with spc := spc, node := node, stamp := stamp, st := st, readyAt := readyAt, serving := serving,
                           pool := pool } := hg

protected theorem GroupIn.summoned {core : Core} {l : LaunchRec} {wid sid : Nat} {w : Walk} {s : Summons}
    (hg : GroupIn σ gid g) :
    GroupIn σ gid (g.summoned core l wid w sid s) :=
  GroupIn.served hg.setS.setS.setS.setS.setS.setS

protected theorem Inv.deliverTo {sid wid : Nat} {l : LaunchRec} {w : Walk} {s : Summons} (h : Inv σ m) (hg : GroupIn σ gid g) :
    Inv σ (deliverTo m sid gid g l wid w s) := by
  unfold Machine.deliverTo
  extract_lets m1 m2
  have h1 : Inv σ m1 := h.acquireAt.setGrp hg.summoned
  have h2 : Inv σ m2 := h1.upd_summons fun hf => amapWf_aput _ _ _ (h1.summonsRise hf)
  split
  · exact h2.makeIndet
  · exact h2.setEngine

protected theorem Leads.execSummonsDeliver {sid : Nat} {at_ : Slot} {s : State} (h : Inv σ s.m) :
    Leads σ (execSummonsDeliver sid at_ s) := by
  unfold Machine.execSummonsDeliver
  refine Leads.event ?_
  split
  · exact h.grew
  · split
    · exact h.grew
    · split
      · exact h.grew
      · extract_lets eng
        split
        · exact h.grew
        · split
          · split
            next e => exact (h.deliverTo (GroupIn.of_grp? e h)).grew
            · exact h.grew
          · split
            · split
              · exact h.grew
              next e => exact Grew.of_admitOne e h fun τ _ h1 hg => (h1.setWalk.deliverTo hg).grew
            · exact h.grew

protected theorem Inv.chooseTurn {e : Nat} (h : Inv σ m) : Inv σ (chooseTurn m e) := by
  unfold Machine.chooseTurn
  split
  · exact h.foldl (fun _ _ _ h1 => h1.setEngine)
  · exact h

protected theorem Inv.setRr {e place : Nat} {w : Walk} (h : Inv σ m) : Inv σ (setRr m e place w) := by
  unfold Machine.setRr
  exact h.foldl (fun _ _ _ h1 => h1.setEngine)

protected theorem Inv.startPart {wid : Nat} {w : Walk} {part : Nat} (h : Inv σ m) : Inv σ (startPart wid w m part) := by
  unfold Machine.startPart
  extract_lets
  split
  · exact h
  · exact h.setEngine.setPart

protected theorem Inv.startTile {wid : Nat} {w : Walk} {e place : Nat} (h : Inv σ m) : Inv σ (startTile m wid w e place) := by
  unfold Machine.startTile
  exact (((h.setWalk.setRr.foldl (fun _ _ _ h1 => h1.setEngine)).foldl (fun _ _ _ h1 => h1.startPart)).bump).progress

protected theorem Leads.execTileStart {eng : Nat} {s : State} (h : Inv σ s.m) : Leads σ (execTileStart eng s) := by
  unfold Machine.execTileStart
  refine Leads.event ?_
  split
  · exact h.chooseTurn.grew
  · exact h.startTile.grew

protected theorem Inv.reloadPart {wid : Nat} {w : Walk} {part : Nat} (h : Inv σ m) : Inv σ (reloadPart wid w m part) := by
  unfold Machine.reloadPart
  extract_lets
  split
  · exact h
  · extract_lets
    split
    · exact h
    · exact h.setEngine.setPart

protected theorem Inv.startStep {wid : Nat} {w : Walk} (h : Inv σ m) : Inv σ (startStep m wid w) := by
  unfold Machine.startStep
  extract_lets
  split
  · split
    · exact h.setWalk.foldl (fun _ _ _ h1 => h1.reloadPart)
    · exact h.setWalk
  · exact h.setWalk

protected theorem Leads.execKstepStart {walk : Nat} {s : State} (h : Inv σ s.m) : Leads σ (execKstepStart walk s) := by
  unfold Machine.execKstepStart
  refine Leads.event ?_
  split
  · split
    · exact h.startStep.grew
    · exact h.grew
  · exact h.grew

protected theorem ResultIs.walkScale {core ctx : Nat} {f : Fmt} {size va : Nat} (h : Inv σ m) :
    ResultIs (fun x => Inv σ x.mach) (fun x => Inv σ x.1) (walkScale core ctx f size va m) := by
  unfold Machine.walkScale
  split
  next he => exact Inv.of_error_fst he (ResultIs.locateFor h)
  next he =>
    split
    next he1 => exact Inv.of_fst he1 ((Inv.of_ok_fst he (ResultIs.locateFor h)).farRead)

/-- An error that a computation hands on. -/
theorem ResultIs.pass {ε α β : Type} {P : ε → Prop} {Q : α → Prop} {Q' : β → Prop} {r : Except ε α} {x : ε} (e : r = .error x)
    (h : ResultIs P Q r) : ResultIs P Q' (.error x : Except ε β) := by
  subst e
  exact h

theorem Inv.mach_of_error {α : Type} {Q : α → Prop} {r : Except ScaleFault α} {f : ScaleFault} (e : r = .error f)
    (h : ResultIs (fun f => Inv σ f.mach) Q r) : Inv σ f.mach := by
  subst e
  exact h

protected theorem ResultIs.value {o : OperandOf} {r i e kk : Nat} (h : Inv σ m) :
    ResultIs (fun f => Inv σ f.mach) (fun x => Inv σ x.1) (o.value m r i e kk) := by
  unfold OperandOf.value
  extract_lets el one
  split
  · next e => exact ResultIs.pass e (ResultIs.ite (Q := fun x : Mach × FVal => Inv σ x.1) h (ResultIs.walkScale h))
  · next e =>
    have h1 := Inv.of_ok_fst e (ResultIs.ite (Q := fun x : Mach × FVal => Inv σ x.1) h (ResultIs.walkScale h))
    split
    · next e1 => exact ResultIs.pass e1 (ResultIs.ite (Q := fun x : Mach × FVal => Inv σ x.1) (ResultIs.walkScale h1) h1)
    · next e1 => exact Inv.of_ok_fst e1 (ResultIs.ite (Q := fun x : Mach × FVal => Inv σ x.1) (ResultIs.walkScale h1) h1)

protected theorem ResultIs.row {o : OperandOf} {r i k0 n : Nat} (h : Inv σ m) :
    ResultIs (fun f => Inv σ f.mach) (fun x => Inv σ x.1) (o.row r i k0 n m) := by
  induction n with
  | zero => exact h
  | succ n ih =>
    unfold OperandOf.row
    split
    · next e => exact ResultIs.pass e ih
    · next e =>
      have hv := ResultIs.value (o := o) (r := r) (i := i) (e := n) (kk := k0 + n) (Inv.of_ok_fst e ih)
      split
      · next e1 => exact ResultIs.pass e1 hv
      · next e1 => exact Inv.of_ok_fst e1 hv

protected theorem ResultIs.rows {o : OperandOf} {i0 k0 pk n : Nat} (h : Inv σ m) :
    ResultIs (fun f => Inv σ f.mach) (fun x => Inv σ x.1) (o.rows i0 k0 pk n m) := by
  induction n with
  | zero => exact h
  | succ n ih =>
    unfold OperandOf.rows
    split
    · next e => exact ResultIs.pass e ih
    · next e =>
      have hv := ResultIs.row (o := o) (r := n) (i := i0 + n) (k0 := k0) (n := pk) (Inv.of_ok_fst e ih)
      split
      · next e1 => exact ResultIs.pass e1 hv
      · next e1 => exact Inv.of_ok_fst e1 hv

protected theorem ResultIs.accumulatePart {w : Walk} {l : LaunchRec} {part : Nat} (h : Inv σ m) :
    ResultIs (fun f => Inv σ f.mach) (fun x => Inv σ x) (accumulatePart m w l part) := by
  unfold Machine.accumulatePart
  extract_lets r pc
  split
  · split
    · exact h
    · extract_lets e
      split
      · next e1 => exact ResultIs.pass e1 (ResultIs.rows h)
      · next e1 =>
        have h1 := Inv.of_ok_fst e1 (ResultIs.rows h)
        split
        · next e2 => exact ResultIs.pass e2 (ResultIs.rows h1)
        · next e2 => exact (Inv.of_ok_fst e2 (ResultIs.rows h1)).setEngine
  · exact h

protected theorem ResultIs.accumulateAll {w : Walk} {l : LaunchRec} {n : Nat} (h : Inv σ m) :
    ResultIs (fun f => Inv σ f.mach) (fun x => Inv σ x) (accumulateAll w l n m) := by
  induction n with
  | zero => exact h
  | succ n ih =>
    unfold Machine.accumulateAll
    split
    · next e => exact ResultIs.pass e ih
    · next e => exact ResultIs.accumulatePart (ih.ok e)

protected theorem Inv.endBank {wid : Nat} {w : Walk} {part : Nat} (h : Inv σ m) : Inv σ (endBank wid w m part) := by
  unfold Machine.endBank
  extract_lets
  split
  · exact h
  · split
    · exact h
    · extract_lets
      split
      · exact h.setEngine.setPart
      · exact h.setEngine.setPart

protected theorem Inv.endTile {wid : Nat} {w : Walk} (h : Inv σ m) : Inv σ (endTile m wid w) := by
  unfold Machine.endTile
  extract_lets
  split
  · exact h.foldl (fun _ _ _ h1 => h1.endBank)
  · exact ((h.foldl (fun _ _ _ h1 => h1.endBank)).setWalk).settleWalk

protected theorem Inv.endStep {wid : Nat} {w : Walk} (h : Inv σ m) : Inv σ (endStep m wid w) := by
  unfold Machine.endStep
  extract_lets
  split
  · exact h.setWalk.endTile
  · exact h.setWalk

protected theorem Inv.zeroBank {wid e : Nat} (h : Inv σ m) : Inv σ (zeroBank wid m e) := by
  unfold Machine.zeroBank
  exact h.setEngine

protected theorem Inv.reportCluster {w : Walk} (h : Inv σ m) : Inv σ (reportCluster m w) := by
  unfold Machine.reportCluster
  exact h.bump.of_frame

protected theorem Inv.rollTile {wid : Nat} {w : Walk} (h : Inv σ m) : Inv σ (rollTile m wid w) := by
  unfold Machine.rollTile
  extract_lets
  split
  · exact h.reportCluster.abortWalk
  · exact ((h.upd_summons (fun hx => amapWf_amap _ _ (amapWf_afilter _ _ (h.summonsRise hx)))).foldl (fun _ _ _ h1 =>
    h1.zeroBank)).setWalk

protected theorem Inv.scaleFault {wid : Nat} {w : Walk} {f : ScaleFault} (h : Inv σ f.mach) : Inv σ (scaleFault wid w f) := by
  unfold Machine.scaleFault
  exact h.report.abortWalk

protected theorem Inv.spoil {w : Walk} {part row col : Nat} (h : Inv σ m) : Inv σ (spoil m w part row col) := by
  unfold Machine.spoil
  extract_lets
  split
  · exact h
  · exact h.setEngine

protected theorem Inv.finishStep {walk : Nat} {err : AccError} (h : Inv σ m) : Inv σ (finishStep m walk err) := by
  unfold Machine.finishStep
  split
  · exact h
  · split
    · exact h
    · split
      · exact h
      · split
        · exact h.rollTile
        · split
          · next e => exact Inv.scaleFault (Inv.mach_of_error e (ResultIs.accumulateAll h))
          · next e =>
            have h1 := (ResultIs.accumulateAll h).ok e
            split
            · split
              · exact h1.spoil.endStep
              · exact h1.endStep
            · exact h1.endStep

protected theorem Leads.execKstepEnd {walk : Nat} {err : AccError} {s : State} (h : Inv σ s.m) :
    Leads σ (execKstepEnd walk err s) := by
  unfold Machine.execKstepEnd
  exact Leads.event h.finishStep.grew

protected theorem Inv.chargeEngine {e cause : Nat} (h : Inv σ m) : Inv σ (chargeEngine m e cause) := by
  unfold Machine.chargeEngine
  extract_lets
  split
  · exact h.setEngine
  · exact h.setEngine

protected theorem Inv.walkCycle {wid : Nat} (h : Inv σ m) : Inv σ (walkCycle m wid) := by
  unfold Machine.walkCycle
  split
  · exact h
  · extract_lets
    split
    · exact (h.foldl (fun _ _ _ h1 => h1.chargeEngine)).setWalk
    · split
      · exact h
      · exact (h.foldl (fun _ _ _ h1 => h1.chargeEngine)).setWalk

protected theorem Inv.stepWalk {wid : Nat} (h : Inv σ m) : Inv σ (stepWalk m wid) := by
  unfold Machine.stepWalk
  split
  · split
    · exact h.startStep
    · exact h
  · exact h

protected theorem Inv.engineCycle {eng : Nat} (h : Inv σ m) : Inv σ (engineCycle m eng) := by
  unfold Machine.engineCycle
  extract_lets _ m1
  have hm1 : Inv σ m1 := by
    unfold m1
    split
    · exact (h.foldl (fun _ _ _ h1 => h1.finishStep)).startTile
    · exact (h.foldl (fun _ _ _ h1 => h1.finishStep)).chooseTurn
  exact (hm1.foldl (fun _ _ _ h1 => h1.stepWalk)).foldl (fun _ _ _ h1 => h1.walkCycle)

end Sys2Proof.Machine
end

section
/-! PROOF. Placement and saving, team admission, work queues, trap delivery, the compactor and throttling.
-/

namespace Sys2Proof.Machine
variable {σ τ : Claim} {m : Mach} {gid : Nat} {g : Group}

protected theorem GroupIn.markChain {g : Group} (hg : GroupIn σ gid g) : GroupIn σ gid (Group.markChain g) := by
  unfold Machine.Group.markChain
  split
  · exact hg
  · exact hg

protected theorem GroupIn.save {g : Group} (hg : GroupIn σ gid g) : GroupIn σ gid (Group.save g) := by
  unfold Machine.Group.save
  exact hg.markChain.restartChain

protected theorem Inv.saveGroup {kg : Nat × Group} (h : Inv σ m) (hkg : GroupIn σ kg.1 kg.2) : Inv σ (saveGroup m kg) := by
  unfold Machine.saveGroup
  exact (h.releaseBy.setGrp hkg.save).setCore

theorem mem_groups_of_groupsOf {tid : Nat} {kg : Nat × Group} (h : kg ∈ groupsOf m tid) : kg ∈ m.groups :=
  (List.mem_filter.1 h).1

protected theorem Inv.saveResident {tid : Nat} {t : Team} (h : Inv σ m) (ht : NumIn σ tid) : Inv σ (saveResident m tid t) := by
  unfold Machine.saveResident
  extract_lets live bytes held m1
  have h1 : Inv σ m1 := h.foldl fun m kg hk h1 => h1.saveGroup (h.groups kg (mem_groups_of_groupsOf hk))
  exact (h1.upd_teams (fun hf => amapWf_aput _ _ _ (h1.teamsRise hf)) (forall_mem_aput h1.teams ht)).upd_slots
    fun hf => amapWf_afilter _ _ (h1.slotsRise hf)

protected theorem Inv.saveTeam {tid : Nat} (h : Inv σ m) : Inv σ (saveTeam m tid) := by
  unfold Machine.saveTeam
  extract_lets
  split
  · exact h.quiesceRing
  next he =>
    split
    · exact h.quiesceRing
    · exact h.quiesceRing.saveResident (NumIn.of_aget_teams he h.quiesceRing)

protected theorem Inv.moveLanes {gid src dst : Nat} (h : Inv σ m) : Inv σ (moveLanes m gid src dst) := by
  unfold Machine.moveLanes
  extract_lets
  split
  · exact h
  · split
    · exact h
    · exact h.setDie.setDie

protected theorem Inv.placeGroup {gid : Nat} {g : Group} {x : Slot} (h : Inv σ m) (hg : GroupIn σ gid g) :
    Inv σ (placeGroup m gid g x) := by
  unfold Machine.placeGroup
  exact Inv.moveLanes (h.setCore.setGrp hg)

protected theorem Inv.pokeBytes {bs : List Byte} : ∀ {m : Mach} {l : Loc}, Inv σ m → Inv σ (pokeBytes m l bs) := by
  induction bs with
  | nil => exact fun h => h
  | cons b bs ih => exact fun h => ih h.pokeByte

protected theorem Inv.unsaveTeam {tid : Nat} {t : Team} {p : Placement} (h : Inv σ m) (ht : NumIn σ tid) :
    Inv σ (unsaveTeam m tid t p) := by
  unfold Machine.unsaveTeam
  extract_lets share gs m1 m2 m3 m4
  have h1 : Inv σ m1 := h.foldl fun m x hx h1 => h1.placeGroup (h.groups x.1 (mem_groups_of_groupsOf (List.of_mem_zip hx).1))
  have h2 : Inv σ m2 := h1.pokeBytes
  have h3 : Inv σ m3 := h2.upd_slots fun hf => amapWf_foldl_aput _ (fun _ => Prod.snd) _ _ (h2.slotsRise hf)
  have h4 : Inv σ m4 := by
    unfold m4
    split
    · exact h3.setKern
    · exact h3
  exact h4.setTeam ht

protected theorem CtxIn.dropTeamImage {c : Context} {tid : Nat} (hc : CtxIn σ c) : CtxIn σ (Context.dropTeamImage c tid) := by
  unfold Machine.Context.dropTeamImage
  exact hc

protected theorem SomeIs.placeSaved {ctx tid feat : Nat} {p : Placement} (h : Inv σ m) : SomeIs (fun x => Inv σ x)
    (placeSaved m ctx tid feat p) := by
  unfold Machine.placeSaved
  split
  next he he1 =>
    have hc := CtxIn.of_aget he1 h
    split
    · exact (h.setCtx hc.dropTeamImage).unsaveTeam (NumIn.of_aget_teams he h)
    · exact trivial
  · exact trivial

protected theorem Grew.admitAll {ctx kid : Nat} {r : LaunchRec} {l : List Placement} : ∀ {σ : Claim} {t : Nat} {m : Mach},
    Inv σ m → ∀ m1, admitAll ctx kid r l t m = some m1 → Grew σ m1 := by
  induction l with
  | nil =>
    intro σ t m h m1 e
    cases e
    exact h.grew
  | cons p rest ih =>
    intro σ t m h m1 e
    unfold Machine.admitAll at e
    split at e
    · exact (Grew.admitTeam h).bind fun τ _ h => ih h m1 e
    · cases e

protected theorem Inv.dropKernelCount {kid : Nat} {k : Kernel} (h : Inv σ m) : Inv σ (dropKernelCount m kid k) := by
  unfold Machine.dropKernelCount
  exact h.flushAll.setKern.countRoot.progress.settleKernel

protected theorem Grew.admitNext {kern : Nat} {k : Kernel} {ats : List Placement} (h : Inv σ m) :
    Grew σ (admitNext m kern k ats) := by
  unfold Machine.admitNext
  extract_lets n
  split
  · exact h.grew
  · split
    · exact h.grew
    next m1 e =>
      have h1 := Grew.admitAll h m1 e
      split
      · exact h1.map fun τ _ h1 => h1.dropKernelCount
      · exact h1.map fun τ _ h1 => h1.setKern

protected theorem Inv.getD {o : Option Mach} (ho : SomeIs (fun x => Inv σ x) o) (h : Inv σ m) : Inv σ (o.getD m) := by
  cases o with
  | none => exact h
  | some x => exact ho

protected theorem Leads.execTeamAdmit {kern : Nat} {ats : List Placement} {s : State} (h : Inv σ s.m) :
    Leads σ (execTeamAdmit kern ats s) := by
  unfold Machine.execTeamAdmit
  refine Leads.event ?_
  split
  · exact h.grew
  · split
    · exact (Inv.getD (SomeIs.placeSaved h) h).grew
    · exact h.grew
    · split
      · exact Grew.admitNext h
      · exact h.grew

protected theorem Inv.postQuery {gid : Nat} {g : Group} {k : Kernel} {a : Nat} (h : Inv σ m) (hg : GroupIn σ gid g) :
    Inv σ (postQuery m gid g k a) := by
  unfold Machine.postQuery
  exact h.writeNat.setKern.retire hg

protected theorem Leads.execWdqNext {sa : Sreg} {s : State} (h : Inv σ s.m) : Leads σ (execWdqNext sa s) := by
  unfold Machine.execWdqNext
  refine Leads.groupStep h ?_
  intro g he hg
  split
  · exact h.scalarTrap.grew
  · split
    · exact h.scalarTrapAt.grew
    · split
      · split
        · exact (h.wait hg).grew
        · exact (h.postQuery hg).grew
      · exact h.scalarTrap.grew

protected theorem Inv.giveItem {kid gid addr : Nat} {it : WorkItem} {k : Kernel} (h : Inv σ m) :
    Inv σ (giveItem m kid gid addr it k) := by
  unfold Machine.giveItem
  exact h.setKern.agentWrite.progress

protected theorem Inv.answerQuery {kid gid : Nat} {k : Kernel} (h : Inv σ m) : Inv σ (answerQuery m kid gid k) := by
  unfold Machine.answerQuery
  extract_lets
  split
  · split
    · exact h.setKern
    · split
      · exact h.giveItem
      · exact h
  · exact h.setKern

protected theorem Leads.execWorkAnswer {g : Nat} {s : State} (h : Inv σ s.m) : Leads σ (execWorkAnswer g s) := by
  unfold Machine.execWorkAnswer
  refine Leads.event ?_
  split
  · exact h.answerQuery.grew
  · exact h.grew

protected theorem GroupIn.loadTrap {g : Group} {t : TrapRec} (hg : GroupIn σ gid g) : GroupIn σ gid (Group.loadTrap g t) := by
  unfold Machine.Group.loadTrap
  exact GroupIn.ite hg hg

protected theorem GroupIn.interrupted {g : Group} (hg : GroupIn σ gid g) : GroupIn σ gid (Group.interrupted g) := by
  unfold Machine.Group.interrupted
  exact hg

protected theorem GroupIn.enterHandler {tsbase target : Nat} (hg : GroupIn σ gid g) :
    GroupIn σ gid (g.enterHandler tsbase target) :=
  hg.requeue (fun _ => laneEntries_nil) (fun hf q hq => by cases hq; exact hg.liq hf) (fun hf _ => hg.issued hf) rfl rfl rfl

/-- A group's record with its first pending trap taken. -/
theorem GroupIn.upd_traps {traps : List TrapRec} (hg : GroupIn σ gid g) : GroupIn σ gid { g with traps := traps } := hg

protected theorem Inv.deliverTrap {c : Context} {t : TrapRec} (h : Inv σ m) (hg : GroupIn σ gid g) :
    Inv σ (deliverTrap m gid g c t) := by
  unfold Machine.deliverTrap
  extract_lets g0 g1
  have hg1 : GroupIn σ gid g1 := hg.loadTrap.interrupted.upd_traps
  clear_value g1
  split
  · exact h.setGrp hg1.enterHandler
  · exact Inv.report (h.setGrp hg1)
  · exact Inv.stopContext (Inv.report (h.setGrp hg1))

protected theorem Leads.execTrapDelivery {g : Nat} {s : State} (h : Inv σ s.m) : Leads σ (execTrapDelivery g s) := by
  unfold Machine.execTrapDelivery
  refine Leads.event ?_
  split
  · exact h.grew
  next he =>
    have hg := GroupIn.of_grp? he h
    split
    · split
      · exact (h.deliverTrap hg).grew
      · exact h.grew
    · exact h.grew

protected theorem GroupIn.startLanes {pc cause : Nat} {b : List FaultLane} (hg : GroupIn σ gid g) :
    GroupIn σ gid (g.startLanes pc cause b) := by
  have hv : σ.form → amapWf (((List.range b.length).zip b).foldl (fun v x => (List.range 4).foldl
      (fun v n => putV v (n * 128 + x.1) (x.2.tag.getD n 0)) v) g.v) = true := fun hf =>
    List.foldlRecOn _ _ (motive := fun v => amapWf v = true) (hg.v hf) fun v h x _ =>
      List.foldlRecOn _ _ (motive := fun v => amapWf v = true) h fun v h n _ => amapWf_putV h
  unfold Group.startLanes
  exact (hg.setS.setS.setS.upd_v hv :)

protected theorem Grew.emitLanes {die : Nat} {at_ : Slot} {f : FaultLane} {c : Context} (h : Inv σ m) :
    Grew σ (emitLanes m die at_ f c) := by
  unfold Machine.emitLanes
  extract_lets d b
  split
  · exact h.grew
  next e => exact Grew.of_admitOne e h fun τ _ h1 hg => (h1.setDie.setGrp hg.startLanes).grew

protected theorem Leads.execCompactorEmit {die : Nat} {late : Bool} {at_ : Slot} {s : State} (h : Inv σ s.m) :
    Leads σ (execCompactorEmit die late at_ s) := by
  unfold Machine.execCompactorEmit
  refine Leads.event ?_
  extract_lets es
  split
  · exact h.grew
  · split
    · split
      · exact Grew.emitLanes h.bump
      · exact h.grew
    · exact h.grew

protected theorem Leads.recheck {s : State} {gid cycles : Nat} {x : Group} (h : Inv σ s.m) :
    Leads σ (recheck s gid cycles x) := by
  unfold Machine.recheck
  extract_lets c m0 m1
  have h1 : Inv σ m1 := h.setCore.of_frame
  split
  · next e => exact Leads.execWaita (Inv.of_fst e h1.nextScalar)
  · exact Leads.next h.grew

protected theorem Leads.execWaitaRecheck {gid cycles : Nat} {s : State} (h : Inv σ s.m) :
    Leads σ (execWaitaRecheck gid cycles s) := by
  unfold Machine.execWaitaRecheck
  split
  · exact Leads.next h.grew
  · split
    · exact Leads.recheck h
    · exact Leads.next h.grew

protected theorem Leads.execThrottleWindow {core hits : Nat} {s : State} (h : Inv σ s.m) :
    Leads σ (execThrottleWindow core hits s) := by
  unfold Machine.execThrottleWindow
  extract_lets
  refine Leads.event ?_
  extract_lets
  split
  · exact h.grew
  · exact h.setCore.grew

protected theorem GroupIn.markThrottled {g : Group} {m : Mach} (hg : GroupIn σ gid g) :
    GroupIn σ gid (Group.markThrottled g m gid) := by
  unfold Machine.Group.markThrottled
  exact hg

protected theorem Inv.markThrottled {core : Nat} (h : Inv σ m) : Inv σ (markThrottled m core) := by
  unfold Machine.markThrottled
  exact h.upd_groups (fun hx => amapWf_amap _ _ (h.groupsRise hx)) (forall_mem_amap (fun _ hx => GroupIn.ite ((GroupIn.of_mem
    hx h).markThrottled) (GroupIn.of_mem hx h)))

protected theorem Inv.leaveSet {before : Mach} {gid : Nat} {g : Group} (h : Inv σ m) : Inv σ (leaveSet before m gid g) := by
  unfold Machine.leaveSet
  extract_lets
  split
  · exact h.setCore
  · exact h

protected theorem Inv.leaveSets {before : Mach} (h : Inv σ m) : Inv σ (leaveSets before m) := by
  unfold Machine.leaveSets
  exact h.foldl (fun _ _ _ h1 => h1.leaveSet)

protected theorem Leads.execThrottleDisplace {g : Nat} {s : State} (h : Inv σ s.m) : Leads σ (execThrottleDisplace g s) := by
  unfold Machine.execThrottleDisplace
  refine Leads.event ?_
  extract_lets
  split
  · exact h.grew
  · extract_lets
    split
    · split
      · exact h.setCore.grew
      · exact h.grew
    · exact h.grew

protected theorem Leads.execMemorySetLeave {g : Nat} {s : State} (h : Inv σ s.m) : Leads σ (execMemorySetLeave g s) := by
  unfold Machine.execMemorySetLeave
  refine Leads.event ?_
  extract_lets
  split
  · exact h.grew
  · extract_lets
    split
    · split
      · exact h.setCore.grew
      · exact h.grew
    · exact h.grew

end Sys2Proof.Machine
end

section
/-! PROOF. Contexts and their commands, watchdogs, roots and invalidations.
-/

namespace Sys2Proof.Machine
variable {σ τ : Claim} {m : Mach} {gid : Nat} {g : Group}

protected theorem Inv.writeImage {ctx : Nat} {valid : Bool} {i : ImageOf} (h : Inv σ m) : Inv σ (writeImage m ctx valid i) := by
  unfold Machine.writeImage
  extract_lets
  split
  · exact h
  next he =>
    have hc := CtxIn.of_aget he h
    extract_lets _ _ _ m3
    have hm3 : Inv σ m3 := by
      unfold m3
      split
      · exact h.makeIndet.writeBytes.writeNat
      · exact h.makeIndet.writeBytes
    split
    · exact h
    · exact hm3.setCtx hc

protected theorem Inv.setValid {c : Context} {v : Nat} (h : Inv σ m) : Inv σ (setValid m c v) := by
  unfold Machine.setValid
  exact h.foldl (fun _ _ _ h1 => h1.writeNat)

protected theorem Inv.leaveEngines {wid : Nat} {w : Walk} (h : Inv σ m) : Inv σ (leaveEngines m wid w) := by
  unfold Machine.leaveEngines
  exact (h.foldl (fun _ _ _ h1 => h1.setEngine)).foldl (fun _ _ _ h1 => h1.sweepSpawned)

protected theorem Inv.writeCasts {valid : Bool} {wid : Nat} {w : Walk} (h : Inv σ m) : Inv σ (writeCasts valid m wid w) := by
  unfold Machine.writeCasts
  exact h.foldl (fun _ _ _ h1 => h1.writeImage)

protected theorem Inv.freezeNow {wid : Nat} (h : Inv σ m) : Inv σ (freezeNow m wid) := by
  unfold Machine.freezeNow
  extract_lets
  split
  · exact h
  · extract_lets
    split
    · exact h
    · split
      · exact h.freezeTile
      · exact ((h.upd_summons (fun hx => amapWf_amap _ _ (amapWf_afilter _ _ (h.summonsRise hx)))).setWalk).leaveEngines

protected theorem Inv.freezeAs {now : Bool} {wid : Nat} (h : Inv σ m) : Inv σ (freezeAs now m wid) := by
  unfold Machine.freezeAs
  split
  · exact h.freezeNow
  · exact h.freezeTile

protected theorem Inv.writeNewCasts {valid : Bool} {ctx : Nat} (h : Inv σ m) : Inv σ (writeNewCasts valid m ctx) := by
  unfold Machine.writeNewCasts
  refine h.foldl ?_
  intro m1 x ha h1
  split
  · exact h1.writeCasts
  · exact h1

protected theorem Inv.suspendNow {ctx : Nat} {c : Context} {now : Bool} (h : Inv σ m) (hc : CtxIn σ c) :
    Inv σ (suspendNow m ctx c now) := by
  unfold Machine.suspendNow
  exact Inv.foldl (Inv.suspendQueues (h.setCtx hc)) (fun _ _ _ h1 => h1.freezeAs)

protected theorem Inv.releaseFrozen {wid : Nat} (h : Inv σ m) : Inv σ (releaseFrozen m wid) := by
  unfold Machine.releaseFrozen
  split
  · exact h
  · extract_lets
    split
    · exact h
    · exact h.setWalk.leaveEngines

protected theorem Inv.writeImages {ctx : Nat} (h : Inv σ m) : Inv σ (writeImages m ctx) := by
  unfold Machine.writeImages
  extract_lets m1 m2
  have h1 : Inv σ m1 := h.foldl fun _ _ _ h => by
    split
    · exact h.writeImage
    · exact h
  have h2 : Inv σ m2 := h1.writeNewCasts
  split
  · exact h2.writeImage
  · exact h2

protected theorem Inv.keepQueues {ctx : Nat} (h : Inv σ m) : Inv σ (keepQueues m ctx) := by
  unfold Machine.keepQueues
  exact h.upd_kerns (fun hx => amapWf_amap _ _ (h.kernsRise hx))

protected theorem Inv.putQueues {ctx : Nat} (h : Inv σ m) : Inv σ (putQueues m ctx) := by
  unfold Machine.putQueues
  extract_lets m1
  have h1 : Inv σ m1 := h.foldl fun m kk _ h => by
    split
    · split
      · exact h.pokeBytes
      · exact h
    · exact h
  exact Inv.upd_kerns h1 fun hf => amapWf_amap _ _ (h1.kernsRise hf)

protected theorem Inv.saveContext {ctx : Nat} (h : Inv σ m) : Inv σ (saveContext m ctx) := by
  unfold Machine.saveContext
  extract_lets m0 m1 m2 m3
  have h0 : Inv σ m0 := Inv.flushAll (h.foldl fun _ _ _ h => h.quiesceRing)
  have h1 : Inv σ m1 := h0.foldl fun _ _ _ h => h.saveTeam
  have h2 : Inv σ m2 := Inv.keepQueues (h1.foldl fun _ _ _ h => h.releaseFrozen)
  have h3 : Inv σ m3 := h2.dropContextCaches.writeImages
  split
  next c e =>
    have hc : CtxIn σ c := CtxIn.of_aget e h3
    exact h3.setCtx hc
  · exact h3

protected theorem Leads.execContextSaved {ctx : Nat} {s : State} (h : Inv σ s.m) : Leads σ (execContextSaved ctx s) := by
  unfold Machine.execContextSaved
  refine Leads.event ?_
  split
  · exact h.grew
  next he =>
    have hc := CtxIn.of_aget he h
    split
    · split
      · exact h.saveContext.grew
      · exact h.grew
    · exact Inv.grew (Inv.report (h.setValid.setCtx hc))
    · exact h.grew

protected theorem SomeIs.restoreWalk {ctx wid eng : Nat} (h : Inv σ m) : SomeIs (fun x => Inv σ x)
    (restoreWalk m ctx wid eng) := by
  unfold Machine.restoreWalk
  extract_lets
  split
  · exact trivial
  · extract_lets
    split
    · exact trivial
    · split
      · split
        · exact h.setEngine.setWalk
        · exact trivial
      · split
        · exact h.resumeAt
        · exact trivial

protected theorem SomeIs.restoreTeams {ctx feat : Nat} {l : List (Nat × Placement)} : ∀ {m : Mach}, Inv σ m →
    SomeIs (fun x => Inv σ x) (restoreTeams ctx feat l m) := by
  induction l with
  | nil => exact fun h => h
  | cons x r ih =>
    intro m h
    unfold Machine.restoreTeams
    split
    · trivial
    next e => exact ih (Inv.of_some e (SomeIs.placeSaved h))

protected theorem SomeIs.restoreWalks {ctx : Nat} {l : List (Nat × Nat)} : ∀ {m : Mach}, Inv σ m →
    SomeIs (fun x => Inv σ x) (restoreWalks ctx l m) := by
  induction l with
  | nil => exact fun h => h
  | cons x r ih =>
    intro m h
    unfold Machine.restoreWalks
    split
    · trivial
    next e => exact ih (Inv.of_some e (SomeIs.restoreWalk h))

theorem SomeIs.bind {α β : Type} {P : α → Prop} {Q : β → Prop} {o : Option α} {f : α → Option β} (h : SomeIs P o)
    (hf : ∀ x, P x → SomeIs Q (f x)) : SomeIs Q (o.bind f) := by
  cases o with
  | none => trivial
  | some x => exact hf x h

protected theorem Grew.unsuspendQueues {ctx : Nat} (h : Inv σ m) : Grew σ (unsuspendQueues m ctx) :=
  (h.setNext (Nat.le_succ _)).map fun _ _ h1 => Inv.upd_queues h1 fun hf => amapWf_amap _ _ (h1.queuesRise hf)

protected theorem Grew.backInService {ctx : Nat} (h : Inv σ m) : Grew σ (backInService m ctx) := by
  unfold Machine.backInService
  split
  · exact h.grew
  next c e =>
    extract_lets live m1 told
    have hc : CtxIn σ c := CtxIn.of_aget e h
    have h1 : Inv σ m1 := Inv.putQueues (Inv.setCtx h hc)
    have h2 : Inv σ told := h1.foldl fun m wid _ h => by
      cases aget m.walks wid with
      | none => exact h
      | some w => exact h.tellWalk
    exact Grew.unsuspendQueues h2

protected theorem Leads.execRestoreComplete {ctx : Nat} {teams : List (Nat × Placement)} {walks : List (Nat × Nat)} {s : State}
    (h : Inv σ s.m) : Leads σ (execRestoreComplete ctx teams walks s) := by
  unfold Machine.execRestoreComplete
  refine Leads.event ?_
  split
  · exact h.grew
  · split
    · exact h.grew
    · split
      · exact h.grew
      next e => exact Grew.backInService (Inv.of_some e ((SomeIs.restoreTeams h).bind fun _ h => SomeIs.restoreWalks h))

protected theorem Leads.execRestoreFault {ctx : Nat} {badImage : Bool} {s : State} (h : Inv σ s.m) :
    Leads σ (execRestoreFault ctx badImage s) := by
  unfold Machine.execRestoreFault
  refine Leads.event ?_
  split
  · exact h.grew
  next he =>
    have hc := CtxIn.of_aget he h
    split
    · exact h.grew
    · exact Inv.grew (Inv.report (h.setCtx hc))

protected theorem Inv.vacateTeam {ctx : Nat} {kt : Nat × Team} (h : Inv σ m) : Inv σ (vacateTeam ctx m kt) := by
  unfold Machine.vacateTeam
  extract_lets
  split
  · split
    · exact h.saveTeam.flushAll.writeImage
    · exact h.saveTeam.flushAll.writeImage.report
  · exact h.saveTeam.flushAll.writeImage

protected theorem Inv.vacateMore {ctx : Nat} {c : Context} {v : Vacate} (h : Inv σ m) : Inv σ (vacateMore m ctx c v) := by
  unfold Machine.vacateMore
  extract_lets can m1 done
  have h1 : Inv σ m1 := by
    refine Inv.foldl ?_ fun m kt _ h => h.vacateTeam
    split
    · exact h
    · exact h.flushAll
  split
  · split
    next e =>
      have hc := CtxIn.of_aget e h1
      exact Inv.setCtx h1 hc
    · exact h1
  · exact h1

protected theorem Inv.vacateFirst {ctx : Nat} {c : Context} {v : Vacate} (h : Inv σ m) (hc : CtxIn σ c) :
    Inv σ (vacateFirst m ctx c v) := by
  unfold Machine.vacateFirst
  extract_lets
  split
  · exact Inv.writeNewCasts (Inv.flushAll (Inv.foldl (h.setCtx hc) (fun _ _ _ h1 => h1.freezeAs)))
  · exact Inv.foldl (h.setCtx hc) (fun _ _ _ h1 => h1.freezeAs)

protected theorem Inv.setCp {i : Nat} {f : CmdProc → CmdProc} (h : Inv σ m) : Inv σ (setCp m i f) := by
  unfold Machine.setCp
  exact h.of_frame

protected theorem Inv.cxDone {cp ctx res : Nat} (h : Inv σ m) : Inv σ (cxDone m cp ctx res) := by
  unfold Machine.cxDone
  exact h.setCp

protected theorem Grew.command {cp ctx absent : Nat} {x : CtxCommand} {f : CtxCommand → Context → Mach} (h : Inv σ m)
    (hf : ∀ c, CtxIn σ c → Grew σ (f x c)) : Grew σ (command m cp ctx absent x f) := by
  unfold Machine.command
  split
  · exact h.cxDone.grew
  next e =>
    have hc := CtxIn.of_aget e h
    split
    · exact Inv.grew (Inv.setCtx h hc)
    · exact hf _ hc

theorem CtxIn.of_readDescriptor {addr : Nat} {c : Context} (e : readDescriptor m addr = some c) : CtxIn σ c := by
  unfold Machine.readDescriptor at e
  split at e
  · cases e
  · dsimp only at e
    split at e
    · obtain ⟨i, _, rfl⟩ := Option.map_eq_some_iff.1 e
      exact fun _ => rfl
    · cases e

protected theorem Inv.createContext {cp : Nat} (h : Inv σ m) : Inv σ (createContext m cp) := by
  unfold Machine.createContext
  split
  · exact h.cxDone
  next e =>
    split
    · exact h.cxDone
    · exact (h.setCtx (CtxIn.of_readDescriptor e)).cxDone

protected theorem Leads.execCreate {cp : Nat} {s : State} (h : Inv σ s.m) : Leads σ (execCreate cp s) := by
  unfold Machine.execCreate
  exact Leads.event h.createContext.grew

protected theorem Inv.quotaContext {ctx : Nat} {x : CtxCommand} {c : Context} (h : Inv σ m) (hc : CtxIn σ c) :
    Inv σ (quotaContext m ctx x c) := by
  unfold Machine.quotaContext
  extract_lets
  split
  · exact Inv.cxDone (h.setCtx hc)
  · exact h.cxDone

protected theorem Leads.execQuota {cp ctx : Nat} {s : State} (h : Inv σ s.m) : Leads σ (execQuota cp ctx s) := by
  unfold Machine.execQuota
  exact Leads.event (Grew.command h (fun _ h1 => (h.quotaContext h1).grew))

protected theorem Inv.suspendContext {ctx : Nat} {x : CtxCommand} {c : Context} (h : Inv σ m) (hc : CtxIn σ c) :
    Inv σ (suspendContext m ctx x c) := by
  unfold Machine.suspendContext
  extract_lets
  split
  · exact h.cxDone
  · split
    · exact h.cxDone
    · exact h.cxDone.suspendNow hc

protected theorem Leads.execSuspend {cp ctx : Nat} {s : State} (h : Inv σ s.m) : Leads σ (execSuspend cp ctx s) := by
  unfold Machine.execSuspend
  exact Leads.event (Grew.command h (fun _ h1 => (h.suspendContext h1).grew))

protected theorem Inv.restoreContext {ctx : Nat} {x : CtxCommand} {c : Context} (h : Inv σ m) (hc : CtxIn σ c) :
    Inv σ (restoreContext m ctx x c) := by
  unfold Machine.restoreContext
  extract_lets
  split
  · exact h.cxDone
  · split
    · exact h.cxDone.setCtx hc
    · exact h.cxDone.report

protected theorem Leads.execRestore {cp ctx : Nat} {s : State} (h : Inv σ s.m) : Leads σ (execRestore cp ctx s) := by
  unfold Machine.execRestore
  exact Leads.event (Grew.command h (fun _ h1 => (h.restoreContext h1).grew))

protected theorem Inv.preemptContext {ctx : Nat} {x : CtxCommand} {c : Context} (h : Inv σ m) (hc : CtxIn σ c) :
    Inv σ (preemptContext m ctx x c) := by
  unfold Machine.preemptContext
  extract_lets
  split
  · exact h.cxDone
  · split
    · exact h.cxDone
    · split
      · exact (h.cxDone.vacateFirst hc).vacateMore
      · exact h.cxDone.vacateFirst hc

protected theorem Leads.execPreempt {cp ctx : Nat} {s : State} (h : Inv σ s.m) : Leads σ (execPreempt cp ctx s) := by
  unfold Machine.execPreempt
  refine Leads.event ?_
  split
  · exact h.cxDone.grew
  · split
    · exact h.vacateMore.grew
    · exact Grew.command h (fun _ h1 => (h.preemptContext h1).grew)

protected theorem Grew.continueContext {ctx : Nat} {x : CtxCommand} {c : Context} (h : Inv σ m) (hc : CtxIn σ c) :
    Grew σ (continueContext m ctx x c) := by
  unfold Machine.continueContext
  extract_lets cp m1
  have h1 : Inv σ m1 := h.cxDone.setCtx hc
  split
  · exact h.cxDone.grew
  · exact Grew.unsuspendQueues (h1.upd_walks fun hf => amapWf_amap _ _ (h1.walksRise hf))

protected theorem Leads.execContinueCtx {cp ctx : Nat} {s : State} (h : Inv σ s.m) : Leads σ (execContinueCtx cp ctx s) := by
  unfold Machine.execContinueCtx
  exact Leads.event (Grew.command h fun c hc => Grew.continueContext h hc)

protected theorem Inv.answerResume {gid : Nat} {g : Group} (h : Inv σ m) (hg : GroupIn σ gid g) :
    Inv σ (answerResume m gid g) := by
  unfold Machine.answerResume
  split
  · exact h.setGrp hg
  · exact h.trapReturn hg

theorem GroupIn.of_awaitingHost {ctx origin : Nat} (e : awaitingHost m ctx origin = some (gid, g)) (h : Inv σ m) :
    GroupIn σ gid g :=
  h.groups _ (List.mem_of_find?_eq_some e)

protected theorem Inv.answerContext {ctx : Nat} {x : CtxCommand} {c : Context} (h : Inv σ m) :
    Inv σ (answerContext m ctx x c) := by
  unfold Machine.answerContext
  extract_lets
  split
  · exact h.cxDone
  next he =>
    split
    · exact h.cxDone
    · split
      · exact h.cxDone.killGroup
      · exact h.cxDone.answerResume (GroupIn.of_awaitingHost he h)

protected theorem Leads.execAnswer {cp ctx : Nat} {s : State} (h : Inv σ s.m) : Leads σ (execAnswer cp ctx s) := by
  unfold Machine.execAnswer
  exact Leads.event (Grew.command h (fun _ _ => h.answerContext.grew))

protected theorem Grew.perform {ctx : Nat} {x : CtxCommand} {c : Context} (h : Inv σ m) (hc : CtxIn σ c) :
    Grew σ (perform m ctx x c) := by
  unfold Machine.perform
  split
  · exact (h.quotaContext hc).grew
  · exact (h.suspendContext hc).grew
  · exact (h.restoreContext hc).grew
  · exact (h.preemptContext hc).grew
  · exact Grew.continueContext h hc
  · exact h.answerContext.grew
  · exact h.cxDone.grew

protected theorem Grew.performWait {ctx : Nat} (h : Inv σ m) : Grew σ (performWait m ctx) := by
  unfold Machine.performWait
  split
  · exact h.grew
  next e =>
    have hc := CtxIn.of_aget e h
    split
    · exact h.grew
    · split
      · exact h.grew
      · exact Grew.perform (h.setCtx hc) hc

protected theorem Grew.performWaits (h : Inv σ m) : Grew σ (performWaits m) :=
  Grew.foldl h.grew fun _ _ _ _ _ h => Grew.performWait h

protected theorem Inv.endWalk {wid : Nat} (h : Inv σ m) : Inv σ (endWalk m wid) := by
  unfold Machine.endWalk
  split
  · exact h
  · extract_lets
    split
    · exact h.upd_walks (fun hx => amapWf_adel _ _ (h.walksRise hx))
    · exact h.writeResult.retireWalk

protected theorem Inv.wipeReserved {q : Quota} (h : Inv σ m) : Inv σ (wipeReserved m q) := by
  unfold Machine.wipeReserved
  exact (h.foldl (fun _ _ _ h1 => h1.wipeRange)).foldl (fun _ _ _ h1 => h1.wipeRange)

protected theorem Inv.wipeL1s {granted : BitVec 128} (h : Inv σ m) : Inv σ (wipeL1s m granted) := by
  unfold Machine.wipeL1s
  exact h.upd_cores (fun hx => amapWf_amap _ _ (h.coresRise hx))

protected theorem Inv.deliverPsts {ctx : Nat} (h : Inv σ m) : Inv σ (deliverPsts m ctx) := by
  unfold Machine.deliverPsts
  exact h.foldl (fun _ _ _ h1 => h1.foldl (fun _ _ _ h2 => h2.writeBytes))

theorem SomeIs.map {α β : Type} {Q : β → Prop} {o : Option α} {f : α → β} (hf : ∀ x, Q (f x)) : SomeIs Q (o.map f) := by
  cases o with
  | none => trivial
  | some x => exact hf x

protected theorem Inv.wipeContext {ctx : Nat} (h : Inv σ m) : Inv σ (wipeContext m ctx) := by
  unfold Machine.wipeContext
  extract_lets gone tids m1 m2 m3
  have h1 : Inv σ m1 := h.deliverPsts.foldl fun m kw _ h => h.endWalk
  have h2 : Inv σ m2 := by
    unfold m2
    refine { h1 with
      groupsRise := ?_, teamsRise := ?_, slotsRise := ?_, kernsRise := ?_, coresRise := ?_, diesRise := ?_, pstsRise := ?_,
      queuesRise := ?_, groups := ?_, teams := ?_ } <;> dsimp only
    · exact fun hf => amapWf_afilter _ _ (h1.groupsRise hf)
    · exact fun hf => amapWf_afilter _ _ (h1.teamsRise hf)
    · exact fun hf => amapWf_afilter _ _ (h1.slotsRise hf)
    · exact fun hf => amapWf_afilter _ _ (h1.kernsRise hf)
    · exact fun hf => amapWf_amap _ _ (h1.coresRise hf)
    · exact fun hf => amapWf_amap _ _ (h1.diesRise hf)
    · exact fun hf => amapWf_afilter _ _ (h1.pstsRise hf)
    · exact fun hf => amapWf_afilter _ _ (h1.queuesRise hf)
    · exact forall_mem_afilter h1.groups
    · exact forall_mem_afilter h1.teams
  have h3 : Inv σ m3 := h2.dropContextCaches
  split
  next c e => exact (Inv.getD (SomeIs.map fun q => h3.wipeReserved) h3).wipeL1s
  · exact h3

protected theorem Inv.dropCounts {ctx : Nat} (h : Inv σ m) : Inv σ (dropCounts m ctx) := by
  unfold Machine.dropCounts
  refine { h with enginesRise := ?_, clustersRise := ?_, diesRise := ?_ } <;> dsimp only
  · exact fun hx => amapWf_amap _ _ (h.enginesRise hx)
  · exact fun hx => amapWf_amap _ _ (h.clustersRise hx)
  · exact fun hx => amapWf_amap _ _ (h.diesRise hx)

protected theorem Inv.destroyContext {cp ctx : Nat} (h : Inv σ m) : Inv σ (destroyContext m cp ctx) := by
  unfold Machine.destroyContext
  extract_lets
  split
  · exact h.cxDone
  · exact (h.wipeContext.dropCounts.upd_ctxs (fun hx => amapWf_adel _ _ (h.wipeContext.dropCounts.ctxsRise hx))
    (forall_mem_adel h.wipeContext.dropCounts.ctxs)).cxDone

protected theorem Leads.execDestroy {cp ctx : Nat} {s : State} (h : Inv σ s.m) : Leads σ (execDestroy cp ctx s) := by
  unfold Machine.execDestroy
  exact Leads.event h.destroyContext.grew

protected theorem Leads.execNoProgressWatchdog {ctx cycles : Nat} {s : State} (h : Inv σ s.m) :
    Leads σ (execNoProgressWatchdog ctx cycles s) := by
  unfold Machine.execNoProgressWatchdog
  refine Leads.event ?_
  extract_lets
  split
  · exact h.grew
  next he =>
    have hc := CtxIn.of_aget he h
    extract_lets
    split
    · exact Inv.grew (Inv.suspendNow (Inv.report (h.setCtx hc)) (CtxIn.getD (Inv.report (h.setCtx hc)) hc))
    · exact Inv.grew (h.setCtx hc)

protected theorem Inv.freezeAll {ctx : Nat} (h : Inv σ m) : Inv σ (freezeAll m ctx) := by
  unfold Machine.freezeAll
  exact (h.foldl (fun _ _ _ h1 => h1.freezeNow)).writeNewCasts

protected theorem Inv.loseContext {ctx : Nat} {c0 : Context} (h : Inv σ m) (hc0 : CtxIn σ c0) :
    Inv σ (loseContext m ctx c0) := by
  unfold Machine.loseContext
  exact Inv.report ((((((h.setCtx hc0).freezeAll).setValid).flushAll).wipeContext).setCtx (CtxIn.getD ((h.setCtx
    hc0).freezeAll) hc0))

protected theorem Leads.execSaveWatchdog {ctx cycles : Nat} {s : State} (h : Inv σ s.m) :
    Leads σ (execSaveWatchdog ctx cycles s) := by
  unfold Machine.execSaveWatchdog
  refine Leads.event ?_
  extract_lets
  split
  · exact h.grew
  next he =>
    have hc := CtxIn.of_aget he h
    extract_lets
    split
    · exact h.grew
    · split
      · exact Inv.grew (h.loseContext hc)
      · exact Inv.grew (h.setCtx hc)

protected theorem Inv.writeRoot {cp : Nat} {val : Dword} (h : Inv σ m) : Inv σ (writeRoot m cp val) := by
  unfold Machine.writeRoot
  extract_lets
  split
  next he =>
    have hc := CtxIn.of_aget he h
    split
    · exact Inv.setCp (h.setCtx hc)
    · exact h.setCp
  · exact h.setCp

protected theorem Leads.execTrrootWrite {cp : Nat} {val : BitVec 64} {s : State} (h : Inv σ s.m) :
    Leads σ (execTrrootWrite cp val s) := by
  unfold Machine.execTrrootWrite
  exact Leads.event h.writeRoot.grew

protected theorem Inv.startInval {i : Inval} (h : Inv σ m) : Inv σ (startInval m i) := by
  unfold Machine.startInval
  split
  · exact h
  · exact h.of_frame

protected theorem Leads.execInvalidateAddress {cp ctx : Nat} {s : State} (h : Inv σ s.m) :
    Leads σ (execInvalidateAddress cp ctx s) := by
  unfold Machine.execInvalidateAddress
  exact Leads.event h.startInval.grew

protected theorem Leads.execInvalidateContext {x ctx : Nat} {s : State} (h : Inv σ s.m) :
    Leads σ (execInvalidateContext x ctx s) := by
  unfold Machine.execInvalidateContext
  exact Leads.event h.startInval.grew

protected theorem Leads.execInvalidateAll {x : Nat} {s : State} (h : Inv σ s.m) : Leads σ (execInvalidateAll x s) := by
  unfold Machine.execInvalidateAll
  exact Leads.event h.startInval.grew

protected theorem Leads.execInvalidationComplete {x : Nat} {s : State} (h : Inv σ s.m) :
    Leads σ (execInvalidationComplete x s) := by
  unfold Machine.execInvalidationComplete
  refine Leads.event ?_
  extract_lets
  split
  · exact h.grew
  · extract_lets
    split
    · exact h.grew
    · exact h.filterCaches.of_frame.grew

end Sys2Proof.Machine
end

section
/-! PROOF. Lane moves and checks, queues and packets.
-/

namespace Sys2Proof.Machine
variable {σ τ : Claim} {m : Mach} {gid : Nat} {g : Group}

protected theorem Leads.execBcast {w : LaneWord} {s : State} (h : Inv σ s.m) : Leads σ (execBcast w s) := by
  unfold Machine.execBcast
  split
  · exact Leads.lanePush h
  · refine Leads.laneStep h ?_
    intro x hx
    extract_lets
    split
    · exact h.detectedError.grew
    · exact (h.laneFinish (GroupIn.write hx) (EntryIn.of_head hx) ((ChainIn.getD (GroupIn.of_head hx)).capture)).grew

theorem ChainIn.upd_shadows {c : Chain} {l : List ShadowResult} (hc : ChainIn σ c) : ChainIn σ { c with shadows := l } := hc

theorem ChainIn.ite {p : Prop} [Decidable p] {x y : Chain} (hx : ChainIn σ x) (hy : ChainIn σ y) :
    ChainIn σ (if p then x else y) := by
  split
  · exact hx
  · exact hy

protected theorem Leads.execShfl {w : LaneWord} {s : State} (h : Inv σ s.m) : Leads σ (execShfl w s) := by
  unfold Machine.execShfl
  refine Leads.laneStep h ?_
  intro x hx
  extract_lets
  split
  · exact h.detectedError.grew
  · exact Inv.grew (h.laneFinish (GroupIn.write hx) (EntryIn.of_head hx) (ChainIn.ite (((ChainIn.getD (GroupIn.of_head
    hx)).capture).upd_shadows) ((ChainIn.getD (GroupIn.of_head hx)).capture)))

protected theorem GroupIn.injectFlip {inject : Option (Nat × Nat)} {r : ShadowResult} (hg : GroupIn σ gid g) :
    GroupIn σ gid (injectFlip g inject r) := by
  unfold Machine.injectFlip
  split
  · exact hg.upd_v fun hf => amapWf_putV (hg.v hf)
  · exact hg

protected theorem GroupIn.fired (hg : GroupIn σ gid g) : GroupIn σ gid g.fired := by
  unfold Group.fired
  split
  next e r hl =>
    refine hg.requeue (fun hf x hx => ?_) (fun hf _ => hg.aside hf) (fun hf _ => hg.issued hf) rfl rfl rfl
    have hq : LaneEntries (e :: r) := hl ▸ hg.liq hf
    rcases List.mem_cons.1 hx with rfl | hx
    · exact hq e List.mem_cons_self
    · exact hq x (List.mem_cons_of_mem _ hx)
  · exact hg

protected theorem Leads.execShdw {w : LaneWord} {s : State} (h : Inv σ s.m) : Leads σ (execShdw w s) := by
  unfold Machine.execShdw
  refine Leads.laneStep h ?_
  intro x hx
  extract_lets
  split
  · exact (h.laneFinish (GroupIn.of_head hx) (EntryIn.of_head hx) (ChainIn.getD (GroupIn.of_head hx))).grew
  · split
    · exact h.detectedError.grew
    · split
      · exact ((h.setGrp ((GroupIn.of_head hx).fired)).detectedError).grew
      · split
        · exact h.detectedError.grew
        · exact Inv.grew (h.laneFinish (GroupIn.injectFlip (GroupIn.of_head hx)) (EntryIn.of_head hx) (ChainIn.getD
          (GroupIn.of_head hx)))

protected theorem Leads.execPsum {w : LaneWord} {s : State} (h : Inv σ s.m) : Leads σ (execPsum w s) := by
  unfold Machine.execPsum
  exact Leads.laneStep h (fun _ h1 => Inv.grew (h.laneFinish (GroupIn.of_head h1) (EntryIn.of_head h1) (ChainIn.getD
    (GroupIn.of_head h1))))

protected theorem Leads.execLaneHint {k : BitVec 4} {w : LaneWord} {s : State} (h : Inv σ s.m) :
    Leads σ (execLaneHint k w s) := by
  unfold Machine.execLaneHint
  exact Leads.laneStep h fun x hx => (h.laneFinish hx.1 hx.2 (ChainIn.getD hx.1)).grew

protected theorem Grew.startKernel {ctx queue pos die : Nat} {c : Context} {addr : Dword} {r : LaunchRec} (h : Inv σ m)
    (hc : CtxIn σ c) : Grew σ (startKernel m ctx queue pos die c addr r).1 := by
  unfold Machine.startKernel
  exact (Grew.newId h.countRoot).map fun τ hl h1 => Inv.setCtx h1.setKern (hc.mono hl)

protected theorem Inv.tell {qn : Nat} (h : Inv σ m) : Inv σ (tell m qn) := by
  unfold Machine.tell
  split
  · exact h
  · extract_lets
    split
    next he1 => exact (Inv.of_ok he1 (ResultIs.writeVirtual h)).setQueue
    next he1 => exact (Inv.of_error_fst he1 (ResultIs.writeVirtual h)).setQueue

protected theorem Inv.retell {qn : Nat} {q : Queue} (h : Inv σ m) : Inv σ (retell m qn q) := by
  unfold Machine.retell
  exact h.setQueue.tell

protected theorem Inv.tellAll (h : Inv σ m) : Inv σ (tellAll m) := h.foldl fun _ _ _ h => h.tell

protected theorem ResultIs.readTail {q : Queue} (h : Inv σ m) : ResultIs (fun x => Inv σ x) (fun x => Inv σ x.1)
    (readTail m q) := by
  unfold Machine.readTail
  split
  next he => exact Inv.of_ok_fst he (ResultIs.readVirtual h)
  next he => exact Inv.of_error_fst he (ResultIs.readVirtual h)

protected theorem ResultIs.readUnits {q : Queue} {u n : Nat} (h : Inv σ m) : ResultIs (fun x => Inv σ x) (fun x => Inv σ x.1)
    (readUnits m q u n) := by
  unfold Machine.readUnits
  split
  next he => exact Inv.of_ok_fst he (ResultIs.readVirtual h)
  next he => exact Inv.of_error_fst he (ResultIs.readVirtual h)

/-- The claim holds of the module that a slot has looked at its queue's head in. -/
def FoundIn (σ : Claim) : AtHead → Prop
  | .empty m => Inv σ m
  | .halt m _ => Inv σ m
  | .packet m _ _ => Inv σ m

theorem FoundIn.haltElse {cs : List Nat} {go : AtHead} (h : Inv σ m) (hg : FoundIn σ go) : FoundIn σ (haltElse m cs go) := by
  unfold Machine.haltElse
  split
  · exact h.bump
  · exact hg

theorem FoundIn.checkHeader {q : Queue} {avail : Nat} {hd : Header} {wanted : Bool} (h : Inv σ m) :
    FoundIn σ (checkHeader m q avail hd wanted) := by
  unfold Machine.checkHeader
  refine FoundIn.haltElse h ?_
  split
  · exact h
  · split
    next e => exact Inv.of_error e (ResultIs.readUnits h)
    next e =>
      have h1 := Inv.of_ok_fst e (ResultIs.readUnits h)
      exact FoundIn.haltElse h1 h1

theorem FoundIn.atHead {q : Queue} {wants : Nat → Bool} (h : Inv σ m) : FoundIn σ (atHead m q wants) := by
  unfold Machine.atHead
  split
  next e => exact Inv.of_error e (ResultIs.readTail h)
  next e =>
    have h1 := Inv.of_ok_fst e (ResultIs.readTail h)
    extract_lets ahead
    split
    · exact h1
    · split
      · exact h1
      · split
        next e1 => exact Inv.of_error e1 (ResultIs.readUnits h1)
        next e1 => exact FoundIn.checkHeader (Inv.of_ok_fst e1 (ResultIs.readUnits h1))

protected theorem Inv.qDone {cp qn res : Nat} (h : Inv σ m) : Inv σ (qDone m cp qn res) := by
  unfold Machine.qDone
  exact h.setCp

protected theorem ResultIs.openQueue {q : Queue} (h : Inv σ m) : ResultIs (fun x => Inv σ x) (fun x => Inv σ x.1)
    (openQueue m q) := by
  unfold Machine.openQueue
  split
  next he => exact Inv.of_error he (ResultIs.readTail h)
  next he =>
    extract_lets
    split
    next he1 => exact Inv.of_ok he1 (ResultIs.writeVirtual (Inv.of_ok_fst he (ResultIs.readTail h)))
    next he1 => exact Inv.of_error_fst he1 (ResultIs.writeVirtual (Inv.of_ok_fst he (ResultIs.readTail h)))

protected theorem Inv.describedQueue {addr : Nat} (h : Inv σ m) : Inv σ (describedQueue m addr).1 := by
  unfold Machine.describedQueue
  split
  · exact h
  · split
    next he1 => exact Inv.of_fst he1 h.farRead

protected theorem Inv.createQueue {cp : Nat} (h : Inv σ m) : Inv σ (createQueue m cp) := by
  unfold Machine.createQueue
  split
  next he => exact (Inv.of_fst he h.describedQueue).qDone
  next he =>
    split
    · exact (Inv.of_fst he h.describedQueue).qDone
    · split
      next he2 => exact (Inv.of_error he2 (ResultIs.openQueue (Inv.of_fst he h.describedQueue))).qDone
      next he2 => exact ((Inv.of_ok_fst he2 (ResultIs.openQueue (Inv.of_fst he h.describedQueue))).setQueue).qDone

protected theorem Leads.execQcreate {cp : Nat} {s : State} (h : Inv σ s.m) : Leads σ (execQcreate cp s) := by
  unfold Machine.execQcreate
  exact Leads.event h.createQueue.grew

protected theorem Inv.unmapQueue {qn : Nat} {q : Queue} (h : Inv σ m) : Inv σ (unmapQueue m qn q) := by
  unfold Machine.unmapQueue
  exact h.retell

protected theorem Inv.resumeQueue {cp qn : Nat} (h : Inv σ m) : Inv σ (resumeQueue m cp qn) := by
  unfold Machine.resumeQueue
  split
  · split
    · exact h.qDone.unmapQueue
    · exact h.qDone
  · exact h.qDone

protected theorem Leads.execQresume {cp q : Nat} {s : State} (h : Inv σ s.m) : Leads σ (execQresume cp q s) := by
  unfold Machine.execQresume
  exact Leads.event h.resumeQueue.grew

protected theorem Inv.settleQueue {qn : Nat} (h : Inv σ m) : Inv σ (settleQueue m qn) := by
  unfold Machine.settleQueue
  split
  · split
    · exact h.upd_queues (fun hx => amapWf_adel _ _ (h.queuesRise hx))
    · exact h
  · exact h

protected theorem Inv.destroyQueue {cp qn : Nat} (h : Inv σ m) : Inv σ (destroyQueue m cp qn) := by
  unfold Machine.destroyQueue
  split
  · extract_lets
    split
    · exact h.qDone
    · split
      · exact h.qDone.retell.upd_queues (fun hx => amapWf_adel _ _ (h.qDone.retell.queuesRise hx))
      · exact h.qDone.retell
  · exact h.qDone

protected theorem Leads.execQdestroy {cp q : Nat} {s : State} (h : Inv σ s.m) : Leads σ (execQdestroy cp q s) := by
  unfold Machine.execQdestroy
  exact Leads.event h.destroyQueue.grew

protected theorem Inv.agePending (h : Inv σ m) : Inv σ (agePending m) := by
  unfold Machine.agePending
  refine h.foldl ?_
  intro m1 x ha h1
  extract_lets
  split
  · split
    · exact h1
    · exact h1.setQueue
  · split
    · exact h1.setQueue
    · exact h1

protected theorem Leads.execQueueMap {q slot : Nat} {s : State} (h : Inv σ s.m) : Leads σ (execQueueMap q slot s) := by
  unfold Machine.execQueueMap
  refine Leads.event ?_
  split
  · exact h.grew
  · split
    · exact h.retell.grew
    · exact h.grew

protected theorem Leads.execQueueIdleUnmap {q cycles : Nat} {s : State} (h : Inv σ s.m) :
    Leads σ (execQueueIdleUnmap q cycles s) := by
  unfold Machine.execQueueIdleUnmap
  refine Leads.event ?_
  extract_lets
  split
  · exact h.grew
  · extract_lets
    split
    · exact h.unmapQueue.grew
    · exact h.grew

protected theorem Inv.storeCpl {qn : Nat} {q : Queue} {p : Packet} {status : Dword} (h : Inv σ m) :
    Inv σ (storeCpl m qn q p status) := by
  unfold Machine.storeCpl
  split
  · exact h
  · split
    next e => exact (Inv.of_error_fst e (ResultIs.writeVirtual h)).report
    next e =>
      have h1 := Inv.of_ok e (ResultIs.writeVirtual h)
      split
      next e1 => exact (Inv.of_error_fst e1 (ResultIs.writeVirtual h1)).report
      next e1 => exact Inv.of_ok e1 (ResultIs.writeVirtual h1)

protected theorem Inv.finishPacket {qn : Nat} {q : Queue} {p : Packet} {status : Dword} (h : Inv σ m) :
    Inv σ (finishPacket m qn q p status) := by
  unfold Machine.finishPacket
  extract_lets _ m2
  have hm2 : Inv σ m2 := by
    unfold m2
    split
    · exact h.setQueue.storeCpl.countRoot
    · exact h.setQueue.storeCpl
  exact hm2.progress.settleQueue

protected theorem Leads.execPacketComplete {q pos : Nat} {s : State} (h : Inv σ s.m) :
    Leads σ (execPacketComplete q pos s) := by
  unfold Machine.execPacketComplete
  refine Leads.event ?_
  split
  · exact h.grew
  · split
    · exact h.grew
    · split
      · split
        · exact h.finishPacket.grew
        · exact h.grew
      · exact h.grew

protected theorem Inv.begin_ {a : At} {units : Nat} {p : Packet} (h : Inv σ m) : Inv σ (a.begin_ m units p) := by
  unfold At.begin_
  split
  · exact h.retell
  · exact h

protected theorem Inv.settle {a : At} {units status : Nat} {p : Packet} (h : Inv σ m) : Inv σ (a.settle m units p status) :=
  h.begin_

theorem Grew.of_startKernel {m1 : Mach} {ctx queue pos die kid : Nat} {c : Context} {addr : Dword} {r : LaunchRec}
    (e : startKernel m ctx queue pos die c addr r = (m1, kid)) (h : Inv σ m) (hc : CtxIn σ c) : Grew σ m1 := by
  have h1 := Grew.startKernel (queue := queue) (pos := pos) (die := die) (ctx := ctx) (addr := addr) (r := r) h hc
  rwa [e] at h1

protected theorem Grew.startLaunch {a : At} {units : Nat} {p : Packet} (h : Inv σ m) (hc : CtxIn σ a.c) :
    Grew σ (startLaunch a m units p) := by
  unfold Machine.startLaunch
  extract_lets addr
  split
  · exact h.settle.grew
  · have hr := ResultIs.readVirtual (core := a.q.core) (ctx := a.q.ctx) (n := 32) (va := addr) (acc := []) h
    split
    next e => exact (Inv.settle (Inv.of_error_fst e hr)).grew
    next e =>
      have h1 := Inv.of_ok_fst e hr
      extract_lets die
      split
      · split
        · exact h1.grew
        · split
          next e2 =>
            refine (Grew.of_startKernel e2 h1 hc).map fun τ _ h2 => ?_
            extract_lets m3
            have h3 : Inv τ m3 := h2.begin_
            split
            · exact h3.setQueue
            · exact h3
      · exact h1.settle.grew

protected theorem Inv.appendRecords {base log n : Nat} : ∀ {bs : List Byte} {at_ : Nat} {m : Mach}, Inv σ m →
    Inv σ (appendRecords base log bs at_ n m) := by
  induction n with
  | zero => exact fun h => h
  | succ n ih => exact fun h => ih h.writeBytes

protected theorem Inv.feedNow {q : Queue} {p : Packet} (h : Inv σ m) : Inv σ (feedNow m q p).1 := by
  unfold Machine.feedNow
  extract_lets
  split
  · exact h
  · extract_lets
    split
    · exact h
    · split
      · exact h
      · exact h.appendRecords.setKern

protected theorem Inv.startFeed {a : At} {units : Nat} {p : Packet} (h : Inv σ m) : Inv σ (startFeed a m units p) := by
  unfold Machine.startFeed
  split
  · exact h.settle
  · split
    next he => exact (Inv.of_fst he h.feedNow).settle
    next he => exact (Inv.of_fst he h.feedNow).begin_

protected theorem Inv.retryFeed {qn : Nat} {q : Queue} {p : Packet} (h : Inv σ m) : Inv σ (retryFeed m qn q p) := by
  unfold Machine.retryFeed
  split
  next he => exact (Inv.of_fst he h.feedNow).setQueue
  next he => exact Inv.of_fst he h.feedNow

protected theorem Grew.postPacketWalk {ctx kid eng : Nat} {p : Packet} {bs : List Byte} (h : Inv σ m) :
    Grew σ (postPacketWalk m ctx kid p eng bs).1 := by
  unfold Machine.postPacketWalk
  split
  · exact Grew.appendWalk h
  · exact h.grew

protected theorem Inv.takeWalk {ctx node : Nat} {stamp : Dword} {eng : Nat} (h : Inv σ m) :
    Inv σ (takeWalk m ctx node stamp eng) := by
  unfold Machine.takeWalk
  exact h.countAt.flushUnit

protected theorem Grew.startWalk {a : At} {units : Nat} {p : Packet} (h : Inv σ m) : Grew σ (startWalk a m units p) := by
  unfold Machine.startWalk
  extract_lets eng
  split
  · exact h.settle.grew
  · split
    · exact h.settle.grew
    · split
      · exact h.settle.grew
      · have hr := ResultIs.readVirtual (core := a.q.core) (ctx := a.q.ctx) (n := 32) (va := p.word 0) (acc := []) h
        split
        next e => exact (Inv.settle (Inv.of_error_fst e hr)).grew
        next e =>
          have h1 := Inv.of_ok_fst e hr
          split
          · extract_lets r
            split
            · exact h1.grew
            · exact (Grew.postPacketWalk h1.takeWalk).map fun τ _ h2 => h2.begin_
          · exact h1.settle.grew

protected theorem Grew.retryWalk {qn : Nat} {q : Queue} {p : Packet} (h : Inv σ m) : Grew σ (retryWalk m qn q p) := by
  unfold Machine.retryWalk
  split
  · exact h.grew
  · extract_lets bs
    split
    next e =>
      split
      · exact h.grew
      · exact (e ▸ Grew.postPacketWalk h).map fun τ _ h1 => h1.setQueue

protected theorem Inv.startWait {a : At} {units : Nat} {p : Packet} (h : Inv σ m) : Inv σ (startWait a m units p) := by
  unfold Machine.startWait
  extract_lets
  split
  · exact h.settle
  · split
    · exact h.settle
    · exact h.retell

protected theorem Inv.testWait {q : Queue} {c : Context} {p : Packet} (h : Inv σ m) : Inv σ (testWait m q c p).1 := by
  unfold Machine.testWait
  split
  · exact h
  · split
    next he => exact Inv.of_error_fst he (ResultIs.readVirtual h)
    next he => exact Inv.of_ok_fst he (ResultIs.readVirtual h)

protected theorem Leads.execWaitPacketSatisfied {q pos : Nat} {s : State} (h : Inv σ s.m) :
    Leads σ (execWaitPacketSatisfied q pos s) := by
  unfold Machine.execWaitPacketSatisfied
  refine Leads.event ?_
  extract_lets
  split
  · exact h.grew
  · split
    · split
      · split
        next he4 =>
          extract_lets
          split
          · exact (((Inv.of_fst he4 h.testWait).retell).finishPacket).grew
          · exact ((Inv.of_fst he4 h.testWait).retell).grew
        next he4 =>
          split
          · exact ((Inv.of_fst he4 h.testWait).retell).grew
          · exact (Inv.of_fst he4 h.testWait).grew
      · exact h.grew
    · exact h.grew

protected theorem ResultIs.signalAccess {q : Queue} {va val op : Nat} (h : Inv σ m) : ResultIs (fun x => Inv σ x)
    (fun x => Inv σ x) (signalAccess m q va val op) := by
  unfold Machine.signalAccess
  split
  next he => exact Inv.of_error_fst he (ResultIs.locateFor h)
  next he => exact (Inv.of_ok_fst he (ResultIs.locateFor h)).agentWrite

protected theorem Inv.take {a : At} {p : Packet} (h : Inv σ m) : Inv σ (a.take m p) := h.countRoot

protected theorem Inv.startCounted {a : At} {units : Nat} {p : Packet} {valid : Bool} {f : Mach → Mach × Nat} (h : Inv σ m)
    (hf : ∀ m, Inv σ m → Inv σ (f m).1) : Inv σ (startCounted a m units p valid f) := by
  unfold Machine.startCounted
  split
  · exact h.settle
  · split
    · exact h
    · extract_lets m1
      have h1 : Inv σ m1 := h.take
      split
      next e =>
        refine Inv.settle ?_
        split at e
        · exact Inv.of_fst e (hf m1 h1)
        · exact Inv.of_fst e h1

protected theorem Inv.startSignal {a : At} {units : Nat} {p : Packet} (h : Inv σ m) : Inv σ (startSignal a m units p) := by
  unfold Machine.startSignal
  refine h.startCounted fun m h => ?_
  split
  next e => exact (ResultIs.signalAccess h).ok e
  next e => exact Inv.of_error e (ResultIs.signalAccess h)

protected theorem Inv.startFront {a : At} {units : Nat} {p : Packet} (h : Inv σ m) (hc : CtxIn σ a.c) :
    Inv σ (startFront a m units p) := by
  unfold Machine.startFront
  split
  · exact h.settle
  · split
    · exact Inv.settle (Inv.setCtx h hc)
    · split
      · exact h.settle
      · exact Inv.settle (Inv.setCtx h hc)

protected theorem ResultIs.copyPlaces {core ctx n : Nat} : ∀ {src dst : Nat} {m : Mach} {acc : List (Loc × Loc)}, Inv σ m →
    ResultIs (fun x => Inv σ x) (fun x => Inv σ x.1) (copyPlaces core ctx n src dst m acc) := by
  induction n with
  | zero => exact fun h => h
  | succ n ih =>
    intro src dst m acc h
    unfold Machine.copyPlaces
    split
    next e => exact Inv.of_error_fst e (ResultIs.locateFor h)
    next e =>
      have h1 := Inv.of_ok_fst e (ResultIs.locateFor h)
      split
      next e1 => exact Inv.of_error_fst e1 (ResultIs.locateFor h1)
      next e1 => exact ih (Inv.of_ok_fst e1 (ResultIs.locateFor h1))

protected theorem Inv.copyWord {lk : Loc × Loc} (h : Inv σ m) : Inv σ (copyWord m lk) := by
  unfold Machine.copyWord
  split
  next he => exact (Inv.of_fst he h.farRead).agentWrite

protected theorem Inv.copyWords {core ctx n src dst : Nat} (h : Inv σ m) : Inv σ (copyWords core ctx n src dst m).1 := by
  unfold Machine.copyWords
  split
  next he => exact Inv.of_error he (ResultIs.copyPlaces h)
  next he => exact (Inv.of_ok_fst he (ResultIs.copyPlaces h)).foldl (fun _ _ _ h1 => h1.copyWord)

protected theorem Inv.startCopy {a : At} {units : Nat} {p : Packet} (h : Inv σ m) : Inv σ (startCopy a m units p) :=
  h.startCounted fun _ h => h.copyWords

protected theorem Inv.startNop {a : At} {units : Nat} {p : Packet} (h : Inv σ m) : Inv σ (startNop a m units p) := by
  unfold Machine.startNop
  extract_lets
  split
  · exact h.begin_.finishPacket
  · exact h.begin_

protected theorem Inv.startPad {a : At} {units : Nat} (h : Inv σ m) : Inv σ (startPad a m units) := by
  unfold Machine.startPad
  exact h.progress.retell

protected theorem Inv.startFence {a : At} {units : Nat} {p : Packet} (h : Inv σ m) : Inv σ (startFence a m units p) := by
  unfold Machine.startFence
  split
  · exact h.settle
  · exact h.begin_

protected theorem Grew.startPacket {a : At} {hd : Header} {p : Packet} (h : Inv σ m) (hc : CtxIn σ a.c) :
    Grew σ (startPacket a m hd p) := by
  unfold Machine.startPacket
  extract_lets n
  split
  · exact h.startNop.grew
  · exact h.startPad.grew
  · exact Grew.startLaunch h hc
  · exact h.startFeed.grew
  · exact Grew.startWalk h
  · exact h.startWait.grew
  · exact h.startSignal.grew
  · exact (h.startFront hc).grew
  · exact h.startCopy.grew
  · exact h.startFence.grew

protected theorem Grew.lookAtHead {qn : Nat} {wants : Nat → Nat → Bool} (h : Inv σ m) : Grew σ (lookAtHead m qn wants) := by
  unfold Machine.lookAtHead
  split
  · exact h.grew
  next q _ =>
    split
    · exact h.grew
    next c ec =>
      split
      · exact h.grew
      · have hf := FoundIn.atHead (q := q) (wants := fun k => wants k (q.head % 2 ^ 64)) h
        split
        next e => exact Inv.grew (e ▸ hf :)
        next e =>
          have h1 : Inv σ _ := (e ▸ hf :)
          exact h1.retell.grew
        next e => exact Grew.startPacket (e ▸ hf :) (CtxIn.of_aget ec h)

protected theorem Leads.execTailWake {q : Nat} {s : State} (h : Inv σ s.m) : Leads σ (execTailWake q s) := by
  unfold Machine.execTailWake
  refine Leads.event ?_
  split
  · split
    · exact Grew.lookAtHead h
    · exact h.grew
  · exact h.grew

protected theorem Leads.execTailPoll {q cycles : Nat} {s : State} (h : Inv σ s.m) : Leads σ (execTailPoll q cycles s) := by
  unfold Machine.execTailPoll
  refine Leads.event ?_
  split
  · split
    · exact Grew.lookAtHead h
    · exact h.grew
  · exact h.grew

protected theorem Leads.packetEvent {s : State} {q pos kind : Nat} (h : Inv σ s.m) : Leads σ (packetEvent s q pos kind) := by
  unfold Machine.packetEvent
  exact Leads.event (Grew.lookAtHead h)

protected theorem Leads.retryEvent {s : State} {q pos kind : Nat} {retry : Mach → Queue → Packet → Mach} (h : Inv σ s.m)
    (hr : ∀ x p, Grew σ (retry s.m x p)) : Leads σ (retryEvent s q pos kind retry) := by
  unfold Machine.retryEvent
  refine Leads.event ?_
  split
  · exact h.grew
  · split
    · split
      · exact hr _ _
      · exact h.grew
    · exact Grew.lookAtHead h

protected theorem Leads.execFeed {q pos : Nat} {s : State} (h : Inv σ s.m) : Leads σ (execFeed q pos s) :=
  Leads.retryEvent h fun _ _ => h.retryFeed.grew

protected theorem Leads.execWalkPacket {q pos : Nat} {s : State} (h : Inv σ s.m) : Leads σ (execWalkPacket q pos s) :=
  Leads.retryEvent h fun _ _ => Grew.retryWalk h

end Sys2Proof.Machine
end

section
/-! PROOF. Links, the control window, and accesses from outside.
-/

namespace Sys2Proof.Machine
variable {σ τ : Claim} {m : Mach} {gid : Nat} {g : Group}

/-! Ports. -/

theorem sat16_lt (n : Nat) : sat16 n < 2 ^ 16 := by
  unfold sat16
  omega

theorem w1c_lt (old new : Nat) : w1c old new < 2 ^ 16 := BitVec.isLt _

/-- A port's cause that stays in its width. -/
theorem PortIn.upd_cause {x : Port} (hx : PortIn σ x) {c : Nat} (hc : c < 16) : PortIn σ { x with cause := c } :=
  fun hf => ⟨hc, (hx hf).2⟩

protected theorem Inv.enablePort {p : Nat} (h : Inv σ m) : Inv σ (enablePort m p) := by
  unfold Machine.enablePort
  extract_lets
  split
  · exact h.setPort fun _ hx => hx
  · split
    · exact h.setPort fun _ hx => hx.upd_cause (by omega)
    · exact h.setPort fun _ hx => hx

protected theorem Inv.endAccess {p gid : Nat} (h : Inv σ m) : Inv σ (endAccess m p gid) := by
  unfold Machine.endAccess
  split
  · exact h
  next g e =>
    split
    exact Inv.setPort (h.setGrp (k := gid) (GroupIn.of_grp? e h :)) fun _ hx =>
      hx.counts (.inr rfl) (.inl (sat16_lt _)) (.inr rfl)

protected theorem Inv.endPst {id : Nat} (h : Inv σ m) : Inv σ (endPst m id) := by
  unfold Machine.endPst
  split
  · exact h
  · extract_lets
    split
    · exact h.foldl (fun _ _ _ h1 => h1.sendGranule)
    · exact (h.foldl (fun _ _ _ h1 => h1.sendGranule)).upd_psts (fun hx => amapWf_aput _ _ _ ((h.foldl (fun _ _ _ h1 =>
      h1.sendGranule)).pstsRise hx))

protected theorem Inv.losePst {p id : Nat} (h : Inv σ m) : Inv σ (losePst m p id) :=
  h.endPst.setPort fun x hx => hx.counts (.inr rfl)
    (by
      split
      · exact .inl (sat16_lt _)
      · exact .inr rfl)
    (.inl (sat16_lt _))

protected theorem Inv.dropLines {p : Nat} {f : Nat → Bool} (h : Inv σ m) : Inv σ (dropLines m p f) :=
  h.upd_dies fun hf => amapWf_amap _ _ (h.diesRise hf)

protected theorem Inv.endTraffic {p : Nat} (h : Inv σ m) : Inv σ (endTraffic m p) := by
  unfold Machine.endTraffic
  exact ((h.foldl (fun _ _ _ h1 => h1.endAccess)).foldl (fun _ _ _ h1 => h1.losePst)).dropLines

protected theorem Inv.reportFence {p : Nat} (h : Inv σ m) : Inv σ (reportFence m p) := by
  unfold Machine.reportFence
  exact h.of_frame

protected theorem Inv.disablePort {p : Nat} (h : Inv σ m) : Inv σ (disablePort m p) := by
  unfold Machine.disablePort
  extract_lets off down told
  have hoff : ∀ {m}, Inv σ m → Inv σ (off m) := fun h => h.setPort fun _ hx => hx
  have hdown : ∀ {m}, Inv σ m → Inv σ (down m) := fun h => h.setPort fun _ hx => hx.upd_cause (by omega)
  have ht : Inv σ told := by
    unfold told
    split
    · exact h
    · exact h.reportFence
  split
  · exact hoff h
  · exact hdown h
  · exact h.setPort fun _ hx => hx
  · exact hdown ht.endTraffic

protected theorem Leads.execLinkEnable {port : Nat} {pers : Bool} {s : State} (h : Inv σ s.m) :
    Leads σ (execLinkEnable port pers s) :=
  Leads.event (Inv.grew (Inv.enablePort (Inv.setPort h fun _ hx => hx)))

protected theorem Leads.execLinkDisable {port : Nat} {s : State} (h : Inv σ s.m) : Leads σ (execLinkDisable port s) :=
  Leads.event h.disablePort.grew

protected theorem Leads.execLinkTrained {port lanes : Nat} {s : State} (h : Inv σ s.m) :
    Leads σ (execLinkTrained port lanes s) := by
  refine Leads.event ?_
  split
  · exact h.grew
  · exact Inv.grew (Inv.setPort h fun _ hx => hx)

protected theorem Leads.execTrainingTimeout {port cycles : Nat} {s : State} (h : Inv σ s.m) :
    Leads σ (execTrainingTimeout port cycles s) := by
  refine Leads.event ?_
  split
  · exact Inv.grew (Inv.setPort h fun _ hx => hx.upd_cause (by omega))
  · exact h.grew

theorem PortIn.retrained {x : Port} {good replays : Nat} (hx : PortIn σ x) : PortIn σ (x.retrained good replays) := by
  have hq : PortIn σ { x with replay := sat16 (x.replay + replays) } := hx.counts (.inl (sat16_lt _)) (.inr rfl) (.inr rfl)
  unfold Port.retrained
  dsimp only
  split
  · exact hq
  · exact hq

protected theorem Leads.execLaneErrors {port good replays : Nat} {s : State} (h : Inv σ s.m) :
    Leads σ (execLaneErrors port good replays s) := by
  refine Leads.event ?_
  split
  · exact Inv.grew (Inv.setPort h fun _ hx => hx.retrained)
  · exact h.grew

theorem PortIn.fence {x : Port} {cause : Nat} (hx : PortIn σ x) (hc : cause < 16) : PortIn σ (x.fence cause) := by
  have hr : (if cause = 3 then sat16 (x.replay + 8) else x.replay) < 2 ^ 16
      ∨ (if cause = 3 then sat16 (x.replay + 8) else x.replay) = x.replay := by
    split
    · exact .inl (sat16_lt _)
    · exact .inr rfl
  exact PortIn.upd_cause (hx.counts hr (.inr rfl) (.inr rfl)) hc

protected theorem Leads.execLinkFence {port cause : Nat} {s : State} (h : Inv σ s.m) :
    Leads σ (execLinkFence port cause s) := by
  refine Leads.event ?_
  split
  next hc =>
    have hlt : cause < 16 := by
      simp only [Bool.and_eq_true, Bool.or_eq_true, decide_eq_true_eq] at hc
      omega
    exact (Inv.endTraffic (h.reportFence.setPort fun _ hx => hx.fence hlt)).grew
  · exact h.grew

protected theorem Inv.countAccess {g : Group} {i : Nat} (h : Inv σ m) : Inv σ (countAccess m g i) := by
  unfold Machine.countAccess
  split
  · split
    · exact h.countFlits.countFlits
    · exact h
  · exact h

protected theorem Leads.execNonPostedCompletion {g : Nat} {s : State} (h : Inv σ s.m) :
    Leads σ (execNonPostedCompletion g s) := by
  unfold Machine.execNonPostedCompletion
  refine Leads.event ?_
  extract_lets
  split
  · exact h.grew
  next he =>
    have hg := GroupIn.of_grp? he h
    extract_lets
    split
    · exact Inv.grew (Inv.bump (h.countAccess.setGrp hg))
    · exact h.grew

protected theorem Inv.timeoutPst {id port : Nat} (h : Inv σ m) : Inv σ (timeoutPst m id port) := by
  unfold Machine.timeoutPst
  exact h.endPst.countEnded

protected theorem Leads.execNonpostedTimeout {g cycles : Nat} {s : State} (h : Inv σ s.m) :
    Leads σ (execNonpostedTimeout g cycles s) := by
  unfold Machine.execNonpostedTimeout
  refine Leads.event ?_
  extract_lets
  split
  · exact h.grew
  · split
    · exact h.bump.endAccess.grew
    · exact h.bump.timeoutPst.grew
    · exact h.grew

protected theorem Inv.dropPst {p : Pst} (h : Inv σ m) : Inv σ (dropPst m p) := by
  unfold Machine.dropPst
  split
  · exact h.countRoot
  · exact h.dropAt

protected theorem Leads.execPstAck {id : Nat} {s : State} (h : Inv σ s.m) : Leads σ (execPstAck id s) := by
  unfold Machine.execPstAck
  refine Leads.event ?_
  split
  · exact h.grew
  · extract_lets m1 m2
    have h1 : Inv σ m1 := h.landPsts
    have h2 : Inv σ m2 := h1.upd_psts fun hf => amapWf_adel _ _ (h1.pstsRise hf)
    split
    · exact h.grew
    · refine Inv.grew (Inv.settleKernel ?_)
      split
      · exact h2
      · exact h2.dropPst

/-! The control window. -/

protected theorem Grew.writeCxcmd {cp v : Nat} (h : Inv σ m) : Grew σ (writeCxcmd m cp v) := by
  unfold Machine.writeCxcmd
  extract_lets ctx x
  split
  · exact h.createContext.grew
  · exact Grew.command h fun _ hc => (h.quotaContext hc).grew
  · exact Grew.command h fun _ hc => (h.suspendContext hc).grew
  · exact Grew.command h fun _ hc => (h.restoreContext hc).grew
  · exact Grew.command h fun _ hc => (h.preemptContext hc).grew
  · exact Grew.command h fun _ hc => Grew.continueContext h hc
  · exact Grew.command h fun _ _ => h.answerContext.grew
  · exact h.destroyContext.grew
  · exact h.cxDone.grew

protected theorem Inv.writeQcmd {cp v : Nat} (h : Inv σ m) : Inv σ (writeQcmd m cp v) := by
  unfold Machine.writeQcmd
  extract_lets
  split
  · exact h.createQueue
  · exact h.resumeQueue
  · exact h.destroyQueue
  · exact h.qDone

protected theorem Inv.writeTrinv {cp v : Nat} (h : Inv σ m) : Inv σ (writeTrinv m cp v) := by
  unfold Machine.writeTrinv
  split
  · exact h
  · exact h.startInval
  · exact h.startInval
  · exact h.startInval

protected theorem Grew.writeCp {cp reg : Nat} {val : Dword} (h : Inv σ m) : Grew σ (writeCp m cp reg val) := by
  unfold Machine.writeCp
  split
  · exact Grew.writeCxcmd h
  · exact h.setCp.grew
  · exact h.writeRoot.grew
  · exact h.setCp.grew
  · exact h.writeTrinv.grew
  · exact h.writeQcmd.grew
  · exact h.setCp.grew
  · exact h.grew

protected theorem Inv.writeCtl {p v : Nat} (h : Inv σ m) : Inv σ (writeCtl m p v) := by
  have h1 : Inv σ (setPort m p fun x => { x with pers := bit v 1 }) := h.setPort fun _ hx => hx
  unfold Machine.writeCtl
  extract_lets
  split
  · exact h1.enablePort
  · exact h1.disablePort

protected theorem Inv.writeStat {p v : Nat} (h : Inv σ m) : Inv σ (writeStat m p v) :=
  h.setPort fun _ hx => hx.counts (.inl (w1c_lt _ _)) (.inl (w1c_lt _ _)) (.inl (w1c_lt _ _))

protected theorem Grew.writeWindow {off : Nat} {val : Dword} (h : Inv σ m) : Grew σ (writeWindow m off val) := by
  unfold Machine.writeWindow
  extract_lets
  split
  · exact Grew.writeCp h
  · split
    · split
      · exact h.writeCtl.grew
      · exact h.writeStat.grew
    · split
      · exact h.of_frame.grew
      · exact h.grew

protected theorem Leads.execRegisterWrite {off size : Nat} {val : BitVec 64} {s : State} (h : Inv σ s.m) :
    Leads σ (execRegisterWrite off size val s) := by
  unfold Machine.execRegisterWrite
  split
  · exact Leads.event (Grew.writeWindow h)
  · exact Leads.next h.grew

protected theorem Inv.reply {r : Reply} (h : Inv σ m) : Inv σ (m.reply r) := h.of_frame

protected theorem Inv.incomingAtomic {pa : Nat} {op : FarAtomic} {val cmp : Nat} (h : Inv σ m) :
    Inv σ (incomingAtomic m pa op val cmp) := by
  unfold Machine.incomingAtomic
  split
  · exact h
  · extract_lets _ m1
    have hm1 : Inv σ m1 := by
      unfold m1
      split
      · exact h.agentWrite
      · exact h
    split
    · exact hm1.reply
    · exact h

protected theorem Inv.writeBehind {port far : Nat} {bs : List Byte} (h : Inv σ m) : Inv σ (writeBehind m port far bs) := by
  unfold Machine.writeBehind
  split
  · exact h.writeBytes.dropLines
  · exact h

protected theorem Inv.incoming {acc : Incoming} (h : Inv σ m) : Inv σ (incoming m acc) := by
  unfold Machine.incoming
  split
  · split
    · exact h.reply
    · exact h
  · split
    · exact h.agentWrite.reply
    · exact h
  · split
    · exact h.agentWrite.reply
    · exact h
  · extract_lets
    split
    · exact h.agentWrite.reply
    · exact h
  · exact h.incomingAtomic
  · exact h
  · exact h

protected theorem Leads.execIncomingAccess {port : Nat} {acc : Incoming} {s : State} (h : Inv σ s.m) :
    Leads σ (execIncomingAccess port acc s) := by
  unfold Machine.execIncomingAccess
  split
  · exact Leads.event h.reply.grew
  · exact Leads.event h.writeBehind.grew
  · refine Leads.event ?_
    split
    · exact h.incoming.grew
    · exact h.grew

end Sys2Proof.Machine
end

section
/-! PROOF. Reset and firmware, Fjarul, the fencing of a cluster with the in-field test, and the scalar arithmetic.
-/

namespace Sys2Proof.Machine
variable {σ τ : Claim} {m : Mach} {gid : Nat} {g : Group}

/-! Fjarul. -/

protected theorem Leads.fjarul {s : State} {f : State → State} (h : Inv σ s.m) (hf : Grew σ (f s).m) :
    Leads σ (fjarul s f) := by
  unfold Machine.fjarul
  split
  · exact Leads.next hf
  · exact Leads.next h.grew
  · exact Leads.next h.grew

protected theorem Leads.setting {s : State} {ok : Bool} {f : Mgmt → Mgmt} (h : Inv σ s.m) : Leads σ (setting s ok f) := by
  refine Leads.fjarul h ?_
  split
  · exact h.grew
  · exact h.grew

/-! Reset and firmware. -/

theorem PortIn.reset : PortIn σ Port.reset := fun _ => by
  simp [Port.reset]

/-- A module at its reset state in all but what R423 keeps. -/
theorem Inv.reset {mem : List Host.Cell} {feat : AMap (BitVec 2)} {indet free nextId replies fjarul}
    (hm : σ.form → Memory.wf mem = true) (hf : σ.form → amapWf feat = true) (hn : σ.fresh → nextId = σ.next) :
    Inv σ { Mach.reset with mem := mem, indet := indet, free := free, nextId := nextId, feat := feat, replies := replies,
                            fjarul := fjarul } where
  mem := hm
  featRise := hf
  next := hn
  groupsRise _ := rfl
  teamsRise _ := rfl
  slotsRise _ := rfl
  kernsRise _ := rfl
  walksRise _ := rfl
  summonsRise _ := rfl
  enginesRise _ := rfl
  coresRise _ := rfl
  clustersRise _ := rfl
  diesRise _ := rfl
  ctxsRise _ := rfl
  pstsRise _ := rfl
  queuesRise _ := rfl
  touchedRise _ := rfl
  flitsRise _ := rfl
  tilesRise _ := rfl
  groups _ he := nomatch he
  teams _ he := nomatch he
  ctxs _ he := nomatch he
  ports p hp := by
    have hr : p = Port.reset := List.eq_of_mem_replicate (by rwa [Mach.reset, Vector.toList_replicate] at hp)
    exact hr ▸ PortIn.reset

protected theorem Inv.wipeModule (h : Inv σ m) : Inv σ (wipeModule m) := by
  unfold Machine.wipeModule
  extract_lets m1
  have h1 : Inv σ m1 := Inv.foldl h fun _ _ _ h => Inv.foldl h fun _ _ _ h => h.losePst
  exact Inv.reset (fun hf => wf_filter _ _ (h1.mem hf)) h1.featRise h1.next

protected theorem Inv.fenceAtReset {failing : List Nat} (h : Inv σ m) : Inv σ (fenceAtReset m failing) := by
  unfold Machine.fenceAtReset
  exact h.foldl (fun _ _ _ h1 => h1.setCluster)

protected theorem Inv.bringUp {s : State} {img : Firmware} {failing : List Nat} {stacksOk : Bool} (h : Inv σ s.m) :
    Inv σ (bringUp s img failing stacksOk).m := by
  unfold Machine.bringUp
  split
  · exact h
  · split
    · exact h.of_frame
    · exact h.fenceAtReset.of_frame

protected theorem Inv.resetModule {s : State} {img : Firmware} {failing : List Nat} {stacksOk : Bool} (h : Inv σ s.m) :
    Inv σ (resetModule s img failing stacksOk).m := Inv.bringUp h.wipeModule

protected theorem Leads.execModuleReset {img : Firmware} {failing : List Nat} {stacksOk : Bool} {s : State} (h : Inv σ s.m) :
    Leads σ (execModuleReset img failing stacksOk s) := Leads.next h.resetModule.grew

protected theorem Inv.bringUpFree {s : State} {img : Firmware} (h : Inv σ s.m) : Inv σ (bringUpFree s img).m :=
  Inv.bringUp h.of_frame

protected theorem Leads.execFirmwareLoad {img : Firmware} {s : State} (h : Inv σ s.m) : Leads σ (execFirmwareLoad img s) := by
  unfold Machine.execFirmwareLoad
  split
  · exact Leads.next h.grew
  · refine Leads.next ?_
    split
    · exact h.bringUpFree.grew
    · exact h.grew
  · refine Leads.next ?_
    split
    · exact h.grew
    · exact h.grew

protected theorem Leads.execLifeCycleToken {target : LifeCycle} {tok img : Firmware} {s : State} (h : Inv σ s.m) :
    Leads σ (execLifeCycleToken target tok img s) := by
  refine Leads.fjarul h ?_
  split
  · exact Inv.grew (Inv.bringUpFree h.wipeModule)
  · exact h.grew

protected theorem Leads.execAttestation {nonce : BitVec 256} {s : State} (h : Inv σ s.m) : Leads σ (execAttestation nonce s) :=
  Leads.fjarul h h.grew

/-! Telemetry, schedule, budgets and power. -/

protected theorem Leads.execTelemetry {s : State} (h : Inv σ s.m) : Leads σ (execTelemetry s) := Leads.fjarul h h.grew

protected theorem Leads.execTestSchedule {die interval : Nat} {s : State} (h : Inv σ s.m) :
    Leads σ (execTestSchedule die interval s) :=
  Leads.setting h

protected theorem Inv.holdBudget {act : Budgeted} {part amount : Nat} (h : Inv σ m) : Inv σ (holdBudget m act part amount) := by
  unfold Machine.holdBudget
  split
  · exact h.upd_flitBudget fun hf => amapWf_aput _ _ _ (h.flitsRise hf)
  · exact h.upd_tileBudget fun hf => amapWf_aput _ _ _ (h.tilesRise hf)
  · exact h

protected theorem Leads.execBudgetSet {act : Budgeted} {part amount : Nat} {s : State} (h : Inv σ s.m) :
    Leads σ (execBudgetSet act part amount s) := by
  unfold Machine.execBudgetSet
  split
  · exact Leads.setting h
  · exact Leads.fjarul h h.holdBudget.grew

protected theorem Inv.renewBudgets {block : Nat} (h : Inv σ m) : Inv σ (renewBudgets m block) := by
  unfold Machine.renewBudgets
  split
  · exact Inv.setPort h fun _ hx => hx
  · split
    · exact h.setEngine
    · exact h

protected theorem Leads.execBudgetPeriod {block cycles : Nat} {s : State} (h : Inv σ s.m) :
    Leads σ (execBudgetPeriod block cycles s) := by
  unfold Machine.execBudgetPeriod
  split
  · exact Leads.next h.grew
  · exact Leads.event h.renewBudgets.grew

protected theorem Leads.execPowerCap {watts : Nat} {s : State} (h : Inv σ s.m) : Leads σ (execPowerCap watts s) :=
  Leads.setting h

protected theorem Leads.execThermalTrip {die : Nat} {s : State} (h : Inv σ s.m) : Leads σ (execThermalTrip die s) :=
  Leads.next (Inv.grew h.of_frame)

protected theorem Leads.execThermalReset {cycles : Nat} {img : Firmware} {s : State} (h : Inv σ s.m) :
    Leads σ (execThermalReset cycles img s) := by
  unfold Machine.execThermalReset
  split
  · exact Leads.next h.grew
  · exact Leads.next (Inv.grew (Inv.resetModule h.of_frame))

/-! Counters. -/

protected theorem SomeIs.snapshot {kind : BlockKind} {ix : Nat} (h : Inv σ m) : SomeIs (fun x => Inv σ x.1)
    (snapshot m kind ix) := by
  unfold Machine.snapshot
  split
  · split
    · exact Inv.of_frame h.setCore
    · exact trivial
  · split
    · exact Inv.of_frame h.setCluster
    · exact trivial
  · split
    · exact h
    · exact trivial
  · split
    · exact Inv.of_frame h.setCp
    · exact trivial

protected theorem Leads.execCounterSnapshot {kind : BlockKind} {ix : Nat} {s : State} (h : Inv σ s.m) :
    Leads σ (execCounterSnapshot kind ix s) := by
  refine Leads.fjarul h ?_
  split
  next e => exact (Inv.of_some_fst e (SomeIs.snapshot h) :).grew
  · exact h.grew

/-! Fencing a cluster. -/

protected theorem Inv.fenceGroup {gid : Nat} (h : Inv σ m) : Inv σ (fenceGroup m gid) := by
  unfold Machine.fenceGroup
  split
  · exact h
  next g eg =>
    split
    · exact h
    next o _ =>
      have hr := ResultIs.restoreKeeps (gid := gid) (g := g) (ks := g.rgn.flatMap Region.keeps) h
      split
      next e => exact (Inv.of_error e hr).killGroup
      next m1 e =>
        have h1 : Inv σ m1 := Inv.of_ok e hr
        have hg1 : GroupIn σ gid (o.restore ((m1.grp? gid).getD g).stopStreams) :=
          ((GroupIn.getD (fun _ e => GroupIn.of_grp? e h1) (GroupIn.of_grp? eg h)).stopStreams).restore
        extract_lets g1 c m2
        exact Inv.setGrp h1.retireLog.setCore
          (hg1.reload (fun hf => hg1.v hf) (fun _ _ hr => nomatch hr) rfl rfl rfl rfl)

protected theorem Inv.clearCluster {cluster : Nat} {fenced : Bool} (h : Inv σ m) : Inv σ (clearCluster m cluster fenced) := by
  unfold Machine.clearCluster
  extract_lets m1
  have hm1 : Inv σ m1 := by
    unfold m1
    split
    · exact h.foldl (fun _ _ _ h1 => h1.fenceGroup)
    · exact h
  exact hm1.flushAll.foldl (fun _ _ _ h1 => h1.vacateTeam)

protected theorem Inv.writeWords {ws : List Nat} : ∀ {m : Mach} {pa : Nat}, Inv σ m → Inv σ (writeWords m pa ws) := by
  induction ws with
  | nil => exact fun h => h
  | cons w r ih => exact fun h => ih h.writeNat

protected theorem Inv.writeWindowReport {pa cluster tstart tfail : Nat} {es : List WindowEntry} (h : Inv σ m) :
    Inv σ (writeWindowReport m pa cluster tstart tfail es) := by
  unfold Machine.writeWindowReport
  exact h.writeWords.writeNat

protected theorem Inv.windowReports {cluster tstart tfail : Nat} {es : List WindowEntry} (h : Inv σ m) :
    Inv σ (windowReports m cluster tstart tfail es) := by
  unfold Machine.windowReports
  exact h.bump.writeWindowReport.foldl (fun _ _ _ h1 => h1.report)

protected theorem Inv.settleUnit {cluster : Nat} {sent : Bool} (h : Inv σ m) : Inv σ (settleUnit m cluster sent) := by
  unfold Machine.settleUnit
  extract_lets u
  split
  · exact h.flushUnit
  · have h1 : Inv σ (m.setCluster cluster { u with deltas := [] }) := h.setCluster
    exact Inv.upd_ctxs h1 (fun hf => amapWf_amap _ _ (h1.ctxsRise hf))
      (forall_mem_amap fun kc hk => CtxIn.ite (h1.ctxs kc hk) (h1.ctxs kc hk))

protected theorem Inv.fenceCluster {cluster tfail : Nat} {sent : Bool} (h : Inv σ m) :
    Inv σ (fenceCluster m cluster tfail sent) := by
  unfold Machine.fenceCluster
  exact ((((h.settleUnit.clearCluster.foldl (fun _ _ _ h1 => h1.abortWalk)).setCluster).applyRoot).of_frame).windowReports

protected theorem Inv.beginVacate {cluster : Nat} (h : Inv σ m) : Inv σ (beginVacate m cluster) := by
  unfold Machine.beginVacate
  refine h.foldl ?_
  intro m1 x ha h1
  split
  next he =>
    have hc := CtxIn.of_aget he h1
    split
    · exact h1.vacateFirst hc
    · exact h1
  · exact h1

protected theorem Inv.endVacate {cluster : Nat} (h : Inv σ m) : Inv σ (endVacate m cluster) :=
  h.upd_ctxs (fun hf => amapWf_amap _ _ (h.ctxsRise hf)) (forall_mem_amap fun kc hk => CtxIn.ite (h.ctxs kc hk) (h.ctxs kc hk))

protected theorem Inv.testCluster {cluster clock : Nat} {verdict : Verdict} (h : Inv σ m) :
    Inv σ (testCluster m cluster clock verdict) := by
  unfold Machine.testCluster
  extract_lets
  split
  · exact h.clearCluster.setCluster
  · exact h.clearCluster
  · exact h.fenceCluster

protected theorem Leads.execInFieldTest {die cycles : Nat} {verdict : Verdict} {s : State} (h : Inv σ s.m) :
    Leads σ (execInFieldTest die cycles verdict s) := by
  unfold Machine.execInFieldTest
  refine Leads.event ?_
  extract_lets
  split
  · exact h.grew
  · extract_lets
    split
    · exact h.grew
    · split
      · exact h.testCluster.endVacate.setDie.grew
      · exact h.beginVacate.grew

/-! Scalar instructions. -/

protected theorem Leads.aluStep {s : State} {major func : Nat} {sd : Sreg} {f : Group → Dword} (h : Inv σ s.m) :
    Leads σ (aluStep s major func sd f) := Leads.groupStep h fun _ _ hg => Inv.grew (Inv.retire h hg.setS)

protected theorem Leads.flagStep {s : State} {major func : Nat} {f : Group → Flags} (h : Inv σ s.m) :
    Leads σ (flagStep s major func f) := Leads.groupStep h fun _ _ hg => Inv.grew (Inv.retire h hg)

protected theorem Leads.execSel {cc : BitVec 4} {sd sa sb : Sreg} {s : State} (h : Inv σ s.m) :
    Leads σ (execSel cc sd sa sb s) := by
  unfold Machine.execSel
  split
  · exact Leads.groupStep h fun _ _ hg => (h.scalarTrap).grew
  · exact Leads.aluStep h

end Sys2Proof.Machine
end

section
/-! PROOF. Every instruction and event, the moves, and the step.
-/

namespace Sys2Proof.Machine
variable {σ τ : Claim} {m : Mach} {gid : Nat} {g : Group}

/-- What an instruction or an event leads to. -/
protected theorem Leads.exec {i : Instr} {s : State} (h : Inv σ s.m) : Leads σ (exec i s) := by
  unfold Machine.exec
  cases i with
  | add | sub | and | or | xor | andn | orn | xnor | shl | shr | sar | rol | ror | mul | mulh | mulhu | div | divu
  | rem | remu | min | max | minu | maxu | popc | clz | ctz | brev | scadd | addi | andi | ori | xori | shli | shri
  | sari | muli | lih | addpc => exact Leads.aluStep h
  | cmp | tst | cmpi | cmpui => exact Leads.flagStep h
  | iadd | isub | imul | imulh | imad | imin | imax | iabs | ineg => exact Leads.laneInt h
  | laneShl | laneShr | laneSar | lanePopc | laneClz | laneBrev | laneAnd | laneOr | laneXor | not => exact Leads.laneBits h
  | lop3 | bfe | bfi | laneSel | mov => exact Leads.lanePure h
  | fadd | fsub | fmul | fma | fmin | fmax | fabs | fneg | frnd | rcp | rsq | sqrt | exp2 | log2 | sin
  | cos | tanh => exact Leads.laneFp h
  | icmp | fcmp | pand | por | pxor | pnot | pmov => exact Leads.lanePred h
  | ptoq | redq => exact Leads.lanePush h
  | cvt | cvtp => exact Leads.laneArith h
  | dot2 | dot4 | dot8 => exact Leads.laneDot h
  | nopPacket | pad | launch | waitPacket | signal | frontPacket | copyPacket | fencePacket => exact Leads.packetEvent h
  | sel => exact Leads.execSel h
  | sldb => exact Leads.execSldb h
  | sldh => exact Leads.execSldh h
  | sldw => exact Leads.execSldw h
  | sldd => exact Leads.execSldd h
  | sldbx => exact Leads.execSldbx h
  | sldhx => exact Leads.execSldhx h
  | sldwx => exact Leads.execSldwx h
  | sstb => exact Leads.execSstb h
  | ssth => exact Leads.execSsth h
  | sstw => exact Leads.execSstw h
  | sstd => exact Leads.execSstd h
  | satom => exact Leads.execSatom h
  | b => exact Leads.execB h
  | bm => exact Leads.execBm h
  | bf => exact Leads.execBf h
  | call => exact Leads.execCall h
  | lx => exact Leads.execLx h
  | lj => exact Leads.execLj h
  | sqPush => exact Leads.execSqPush h
  | lqPop => exact Leads.execLqPop h
  | fqPop => exact Leads.execFqPop h
  | msplit => exact Leads.execMsplit h
  | mjoin => exact Leads.execMjoin h
  | fence => exact Leads.execFence h
  | qfence => exact Leads.execQfence h
  | waita => exact Leads.execWaita h
  | walkPost => exact Leads.execWalkPost h
  | walkStat => exact Leads.execWalkStat h
  | walkAbort => exact Leads.execWalkAbort h
  | hndlPark => exact Leads.execHndlPark h
  | hndlDone => exact Leads.execHndlDone h
  | taskAlloc => exact Leads.execTaskAlloc h
  | taskPub => exact Leads.execTaskPub h
  | taskSig => exact Leads.execTaskSig h
  | taskSpawn => exact Leads.execTaskSpawn h
  | taskExit => exact Leads.execTaskExit h
  | stampSet => exact Leads.execStampSet h
  | stampGet => exact Leads.execStampGet h
  | stampInc => exact Leads.execStampInc h
  | stampEnter => exact Leads.execStampEnter h
  | stampLeave => exact Leads.execStampLeave h
  | frontWait => exact Leads.execFrontWait h
  | frontTest => exact Leads.execFrontTest h
  | frontHold => exact Leads.execFrontHold h
  | frontDrop => exact Leads.execFrontDrop h
  | summLd => exact Leads.execSummLd h
  | rgnKeep => exact Leads.execRgnKeep h
  | rgnClose => exact Leads.execRgnClose h
  | rgnOpen => exact Leads.execRgnOpen h
  | sigChk => exact Leads.execSigChk h
  | barInit => exact Leads.execBarInit h
  | barBind => exact Leads.execBarBind h
  | barExpect => exact Leads.execBarExpect h
  | barArrive => exact Leads.execBarArrive h
  | barWait => exact Leads.execBarWait h
  | barTry => exact Leads.execBarTry h
  | barDrop => exact Leads.execBarDrop h
  | copyq => exact Leads.execCopyq h
  | yieldBar => exact Leads.execYieldBar h
  | wdqNext => exact Leads.execWdqNext h
  | pipeLim => exact Leads.execPipeLim h
  | scrRd => exact Leads.execScrRd h
  | scrWr => exact Leads.execScrWr h
  | nop => exact Leads.execNop h
  | trap => exact Leads.execTrap h
  | tret => exact Leads.execTret h
  | exit => exact Leads.execExit h
  | brk => exact Leads.execBrk h
  | jr => exact Leads.execJr h
  | callr => exact Leads.execCallr h
  | psum => exact Leads.execPsum h
  | cvts => exact Leads.execCvts h
  | bcast => exact Leads.execBcast h
  | shfl => exact Leads.execShfl h
  | ld => exact Leads.execLd h
  | st => exact Leads.execSt h
  | pref => exact Leads.execPref h
  | discard => exact Leads.execDiscard h
  | pst => exact Leads.execPst h
  | atom => exact Leads.execAtom h
  | atomcas => exact Leads.execAtomcas h
  | fatom => exact Leads.execFatom h
  | red => exact Leads.execRed h
  | shdw => exact Leads.execShdw h
  | accLd => exact Leads.execAccLd h
  | laneHint => exact Leads.execLaneHint h
  | illegalScalarInstruction => exact Leads.execIllegalScalarInstruction h
  | scalarPcRange => exact Leads.execScalarPcRange h
  | instructionFetchFault => exact Leads.execInstructionFetchFault h
  | trapDelivery => exact Leads.execTrapDelivery h
  | compactorEmit => exact Leads.execCompactorEmit h
  | taskGather => exact Leads.execTaskGather h
  | teamAdmit => exact Leads.execTeamAdmit h
  | copyEntryPerform => exact Leads.execCopyEntryPerform h
  | copyRingResume => exact Leads.execCopyRingResume h
  | walkPlace => exact Leads.execWalkPlace h
  | walkReserve => exact Leads.execWalkReserve h
  | summonsIssue => exact Leads.execSummonsIssue h
  | summonsDeliver => exact Leads.execSummonsDeliver h
  | tileStart => exact Leads.execTileStart h
  | kstepStart => exact Leads.execKstepStart h
  | kstepEnd => exact Leads.execKstepEnd h
  | waitaRecheck => exact Leads.execWaitaRecheck h
  | countBatchSend => exact Leads.execCountBatchSend h
  | snapshotStart => exact Leads.execSnapshotStart h
  | floorAnnounce => exact Leads.execFloorAnnounce h
  | workAnswer => exact Leads.execWorkAnswer h
  | throttleWindow => exact Leads.execThrottleWindow h
  | throttleDisplace => exact Leads.execThrottleDisplace h
  | memorySetLeave => exact Leads.execMemorySetLeave h
  | create => exact Leads.execCreate h
  | quota => exact Leads.execQuota h
  | suspend => exact Leads.execSuspend h
  | contextSaved => exact Leads.execContextSaved h
  | restore => exact Leads.execRestore h
  | restoreComplete => exact Leads.execRestoreComplete h
  | preempt => exact Leads.execPreempt h
  | continueCtx => exact Leads.execContinueCtx h
  | answer => exact Leads.execAnswer h
  | destroy => exact Leads.execDestroy h
  | noProgressWatchdog => exact Leads.execNoProgressWatchdog h
  | saveWatchdog => exact Leads.execSaveWatchdog h
  | trrootWrite => exact Leads.execTrrootWrite h
  | invalidateAddress => exact Leads.execInvalidateAddress h
  | invalidateContext => exact Leads.execInvalidateContext h
  | invalidateAll => exact Leads.execInvalidateAll h
  | invalidationComplete => exact Leads.execInvalidationComplete h
  | qcreate => exact Leads.execQcreate h
  | qresume => exact Leads.execQresume h
  | qdestroy => exact Leads.execQdestroy h
  | queueMap => exact Leads.execQueueMap h
  | queueIdleUnmap => exact Leads.execQueueIdleUnmap h
  | tailWake => exact Leads.execTailWake h
  | tailPoll => exact Leads.execTailPoll h
  | feed => exact Leads.execFeed h
  | walkPacket => exact Leads.execWalkPacket h
  | waitPacketSatisfied => exact Leads.execWaitPacketSatisfied h
  | packetComplete => exact Leads.execPacketComplete h
  | linkEnable => exact Leads.execLinkEnable h
  | linkDisable => exact Leads.execLinkDisable h
  | linkTrained => exact Leads.execLinkTrained h
  | trainingTimeout => exact Leads.execTrainingTimeout h
  | laneErrors => exact Leads.execLaneErrors h
  | linkFence => exact Leads.execLinkFence h
  | pstAck => exact Leads.execPstAck h
  | nonpostedTimeout => exact Leads.execNonpostedTimeout h
  | incomingAccess => exact Leads.execIncomingAccess h
  | budgetPeriod => exact Leads.execBudgetPeriod h
  | moduleReset => exact Leads.execModuleReset h
  | firmwareLoad => exact Leads.execFirmwareLoad h
  | lifeCycleToken => exact Leads.execLifeCycleToken h
  | attestation => exact Leads.execAttestation h
  | telemetry => exact Leads.execTelemetry h
  | testSchedule => exact Leads.execTestSchedule h
  | budgetSet => exact Leads.execBudgetSet h
  | powerCap => exact Leads.execPowerCap h
  | counterSnapshot => exact Leads.execCounterSnapshot h
  | inFieldTest => exact Leads.execInFieldTest h
  | thermalTrip => exact Leads.execThermalTrip h
  | thermalReset => exact Leads.execThermalReset h
  | registerWrite => exact Leads.execRegisterWrite h
  | nonPostedCompletion => exact Leads.execNonPostedCompletion h
  | restoreFault => exact Leads.execRestoreFault h

/-! Moves. -/

/-- What follows an outcome, applied to each module that it leads to. -/
protected theorem Leads.onward {o : Host.Outcome State Fault Refusal} {f : State → State} (ho : Leads σ o)
    (hf : ∀ (τ : Claim) t, Inv τ t.m → Grew τ (f t).m) : Leads σ (onward o f) := by
  intro t ht
  cases o with
  | next s =>
    cases ht
    exact (ho s rfl).bind fun τ _ h => hf τ s h
  | fault x => cases ht
  | refused x => cases ht

protected theorem Inv.holdSide {key gid : Nat} (h : Inv σ m) : Inv σ (holdSide key m gid) := by
  unfold Machine.holdSide
  split
  · exact h
  next he =>
    have hg := GroupIn.of_grp? he h
    exact Inv.bump (h.setGrp hg)

protected theorem Inv.afterRelease {gid : Nat} {g : Group} {i : Instr} {done : Bool} (h : Inv σ m) :
    Inv σ (afterRelease m gid g i done) := by
  unfold Machine.afterRelease
  split
  · exact h.releaseBy
  · exact h

protected theorem Inv.idleCycle {core : Nat} (h : Inv σ m) : Inv σ (idleCycle m core) := by
  unfold Machine.idleCycle
  exact h.setCore

protected theorem Inv.focus {gid : Nat} {g : Group} (h : Inv σ m) (hg : GroupIn σ gid g) : Inv σ (focus m gid g) := by
  unfold Machine.focus
  exact (h.settleJoins hg).of_frame

protected theorem Leads.issueLane {s : State} {gid : Nat} {g : Group} (h : Inv σ s.m) (hg : GroupIn σ gid g) :
    Leads σ (issueLane s gid g) := by
  unfold Machine.issueLane
  split
  · exact Leads.next h.grew
  next e r hl =>
    extract_lets m1
    have h1 : Inv σ m1 := h.focus hg
    split
    · exact Leads.next (Inv.grew (h1.laneTrap (hg.regrp h1)))
    · exact Leads.exec h1
    · exact Leads.next h.grew

protected theorem Inv.afterLane {before : Mach} {gid : Nat} {g : Group} {s : State} (h : Inv σ s.m) :
    Inv σ (afterLane before gid g s).m := by
  unfold Machine.afterLane
  dsimp only
  refine Inv.holdSide (Inv.leaveSets ?_)
  split
  · exact h.afterRelease
  · exact h

/-! The groups that a move chooses from are groups of the module. -/

theorem mem_insertOrdered {x y : Nat × Group} {l : List (Nat × Group)} (h : y ∈ insertOrdered x l) : y = x ∨ y ∈ l := by
  induction l with
  | nil => exact .inl (List.mem_singleton.1 h)
  | cons z r ih =>
    unfold insertOrdered at h
    split at h
    · exact List.mem_cons.1 h
    · rcases List.mem_cons.1 h with rfl | h
      · exact .inr List.mem_cons_self
      · exact (ih h).imp id (List.mem_cons_of_mem _)

theorem mem_of_mem_issueOrder {y : Nat × Group} {l : List (Nat × Group)} (h : y ∈ issueOrder l) : y ∈ l := by
  induction l with
  | nil => exact h
  | cons z r ih => exact (mem_insertOrdered h).elim (fun e => e ▸ List.mem_cons_self) fun h => List.mem_cons_of_mem _ (ih h)

theorem mem_of_mem_groupsOn {core : Nat} {y : Nat × Group} {p : Nat × Group → Bool} (h : y ∈ (groupsOn m core).filter p) :
    y ∈ m.groups := (List.mem_filter.1 (List.mem_filter.1 h).1).1

theorem GroupIn.of_chainOwner {core : Nat} {x : Nat × Group} (e : chainOwner m core = some x) (h : Inv σ m) :
    GroupIn σ x.1 x.2 := by
  unfold chainOwner at e
  split at e
  · cases e
  next gid _ =>
    obtain ⟨g, hg, rfl⟩ := Option.map_eq_some_iff.1 e
    exact GroupIn.of_grp? (Option.filter_eq_some_iff.1 hg).1 h

theorem GroupIn.of_laneChoices {core : Nat} {x : Nat × Group} (hx : x ∈ laneChoices m core) (h : Inv σ m) :
    GroupIn σ x.1 x.2 := by
  unfold laneChoices at hx
  split at hx
  next y e =>
    split at hx
    · exact List.mem_singleton.1 hx ▸ GroupIn.of_chainOwner e h
    · cases hx
  · have hl : x ∈ issueOrder ((groupsOn m core).filter fun kg => mayIssueLane m kg.1 kg.2) :=
      (List.mem_append.1 hx).elim (fun hx => (List.mem_filter.1 hx).1) fun hx => (List.mem_filter.1 hx).1
    exact h.groups x (mem_of_mem_groupsOn (mem_of_mem_issueOrder hl))

theorem GroupIn.of_scalarTurns {core : Nat} {x : Nat × Group} (hx : x ∈ scalarTurns m core) (h : Inv σ m) :
    GroupIn σ x.1 x.2 :=
  h.groups x <| (List.mem_append.1 hx).elim (fun hx => mem_of_mem_groupsOn (mem_of_mem_issueOrder (List.mem_of_mem_take hx)))
    mem_of_mem_groupsOn

protected theorem Leads.laneMove {s : State} {core : Nat} (h : Inv σ s.m) : Leads σ (laneMove s core) := by
  unfold Machine.laneMove
  extract_lets s1
  have h1 : Inv σ s1.m := h.markThrottled
  split
  next gid g r e =>
    have hg : GroupIn σ gid g := GroupIn.of_laneChoices (x := (gid, g)) (e ▸ List.mem_cons_self) h1
    exact (Leads.issueLane h1 hg).onward fun _ _ h => h.afterLane.grew
  · exact Leads.next (Inv.grew h1.idleCycle)

/-! Scalar issue. -/

protected theorem Leads.issueNext {s : State} {gid : Nat} {g : Group} (h : Inv σ s.m) (hg : GroupIn σ gid g) :
    Leads σ (issueNext s gid g) := by
  unfold Machine.issueNext
  split
  next m1 i e =>
    have h1 : Inv σ m1 := Inv.of_fst e h.nextScalar
    extract_lets s1
    split
    · exact Leads.next (Inv.grew (h1.wait hg))
    · exact Leads.exec h1

protected theorem Leads.issueScalar {s : State} {gid : Nat} {g : Group} (h : Inv σ s.m) (hg : GroupIn σ gid g) :
    Leads σ (issueScalar s gid g) := by
  unfold Machine.issueScalar
  extract_lets m1 g1 s1
  have h1 : Inv σ m1 := h.focus hg
  have hg1 : GroupIn σ gid g1 := hg.regrp h1
  split
  · exact Leads.next (Inv.grew (h1.continueYield hg1))
  · split
    · exact Leads.next (Inv.grew (h1.continueRun hg1))
    · exact Leads.issueNext h1 hg1

protected theorem Inv.afterScalar {before : Mach} {gid : Nat} {g : Group} {s : State} (h : Inv σ s.m) :
    Inv σ (afterScalar before gid g s).m := by
  unfold Machine.afterScalar
  dsimp only
  refine Inv.holdSide (Inv.leaveSets ?_)
  split
  · exact h.afterRelease
  · exact h

protected theorem Inv.chosen {s : State} {n : Nat} (h : Inv σ s.m) : Inv σ (s.chosen n).m := by
  unfold State.chosen
  split
  · exact h
  · exact h.bump

protected theorem Leads.scalarMove {s : State} {core : Nat} (h : Inv σ s.m) : Leads σ (scalarMove s core) := by
  unfold Machine.scalarMove
  extract_lets l
  split
  · exact Leads.next h.grew
  next gid g e =>
    have hg : GroupIn σ gid g := GroupIn.of_scalarTurns (x := (gid, g)) (List.mem_of_getElem? e) h
    exact (Leads.issueScalar h.chosen hg).onward fun _ _ h => h.afterScalar.grew

/-! The step. -/

protected theorem Leads.runMove {mv : Move} {s : State} (h : Inv σ s.m) : Leads σ (runMove mv s) := by
  have h0 : Inv σ s.noGroup.m := h.of_frame
  unfold Machine.runMove
  split
  · split
    · exact (Leads.exec h0).onward fun _ _ h => Inv.grew h.leaveSets
    · exact Leads.next h.grew
  · split
    · exact Leads.laneMove h
    · exact Leads.next h.grew
  · split
    · exact Leads.scalarMove h
    · exact Leads.next h.grew
  · split
    · exact Leads.next (Inv.grew h0.engineCycle)
    · exact Leads.next h.grew

protected theorem Inv.nextMove {s : State} (h : Inv σ s.m) : Inv σ (nextMove s).2.m := by
  unfold Machine.nextMove
  split
  · exact h.of_frame
  · exact h

protected theorem Grew.settleMach (h : Inv σ m) : Grew σ (settleMach m) :=
  (Grew.performWaits h.sendFull).map fun _ _ h => h.agePending.tellAll

/-- Every step keeps the claim, and gives out numbers only upward. -/
protected theorem Leads.step {s : State} (h : Inv σ s.m) : Leads σ (step s) :=
  (Leads.runMove h.nextMove).onward fun _ _ h => Grew.settleMach h

end Sys2Proof.Machine
end

section
/-! PROOF. The statement from the claim: O59.
-/

namespace Sys2Proof.Machine
variable {m : Mach} {g : Group}

/-! The statement's words are the claim's two halves. -/

/-- The claim of the form alone. -/
def formClaim : Claim := { form := True, fresh := False, next := 0 }

/-- The claim of fresh numbers alone. -/
def freshClaim (n : Nat) : Claim := { form := False, fresh := True, next := n }

theorem queuesLanes_iff : Group.QueuesLanes g ↔
    LaneEntries g.qs.liq ∧ (∀ q, g.aside = some q → LaneEntries q.liq) ∧ ∀ c, g.chain = some c → LaneEntries c.issued := by
  have ha : LaneEntries ((g.aside.map Queues.liq).getD []) ↔ ∀ q, g.aside = some q → LaneEntries q.liq := by
    cases g.aside <;> simp [laneEntries_nil]
  have hc : LaneEntries ((g.chain.map Chain.issued).getD []) ↔ ∀ c, g.chain = some c → LaneEntries c.issued := by
    cases g.chain <;> simp [laneEntries_nil]
  rw [← ha, ← hc, ← and_assoc]
  refine ⟨fun h => ⟨⟨fun e he => h e ?_, fun e he => h e ?_⟩, fun e he => h e ?_⟩, fun ⟨⟨hq, ha⟩, hc⟩ => (hq.append ha).append hc⟩
  · exact List.mem_append_left _ (List.mem_append_left _ he)
  · exact List.mem_append_left _ (List.mem_append_right _ he)
  · exact List.mem_append_right _ he

theorem Inv.of_kept {s : State} (h : Kept s) : Inv formClaim s.m := by
  obtain ⟨hmem, ⟨hgrp, htm, hslot, hkern, hwalk, hsumm, heng, hcore, hcl, hdie, hctx, hpst, hq, hfeat, htch, hfl, htl⟩,
    hpool, hgroups, hports⟩ := h
  exact {
    mem := fun _ => hmem
    groupsRise := fun _ => hgrp
    teamsRise := fun _ => htm
    slotsRise := fun _ => hslot
    kernsRise := fun _ => hkern
    walksRise := fun _ => hwalk
    summonsRise := fun _ => hsumm
    enginesRise := fun _ => heng
    coresRise := fun _ => hcore
    clustersRise := fun _ => hcl
    diesRise := fun _ => hdie
    ctxsRise := fun _ => hctx
    pstsRise := fun _ => hpst
    queuesRise := fun _ => hq
    featRise := fun _ => hfeat
    touchedRise := fun _ => htch
    flitsRise := fun _ => hfl
    tilesRise := fun _ => htl
    groups := fun kg hk => by
      obtain ⟨hq, hv, hr⟩ := hgroups kg hk
      obtain ⟨hl, ha, hc⟩ := queuesLanes_iff.1 hq
      exact ⟨fun _ => ⟨hl, ha, hc, hv, hr⟩, False.elim⟩
    teams := fun _ _ => False.elim
    ctxs := fun kc hk _ => hpool kc hk
    ports := fun p hp _ => hports p hp
    next := False.elim }

theorem Inv.kept {σ : Claim} {s : State} (h : Inv σ s.m) (hf : σ.form) : Kept s := by
  refine ⟨h.mem hf, ⟨h.groupsRise hf, h.teamsRise hf, h.slotsRise hf, h.kernsRise hf, h.walksRise hf, h.summonsRise hf,
    h.enginesRise hf, h.coresRise hf, h.clustersRise hf, h.diesRise hf, h.ctxsRise hf, h.pstsRise hf, h.queuesRise hf,
    h.featRise hf, h.touchedRise hf, h.flitsRise hf, h.tilesRise hf⟩, fun kc hk => h.ctxs kc hk hf, fun kg hk => ?_,
    fun p hp => h.ports p hp hf⟩
  obtain ⟨hl, ha, hc, hv, hr⟩ := (h.groups kg hk).1 hf
  exact ⟨queuesLanes_iff.2 ⟨hl, ha, hc⟩, hv, hr⟩

theorem Inv.of_numbersFresh (h : NumbersFresh m) : Inv (freshClaim m.nextId) m := by
  obtain ⟨hgroups, hteams⟩ := h
  exact ⟨False.elim, False.elim, False.elim, False.elim, False.elim, False.elim, False.elim, False.elim, False.elim, False.elim,
    False.elim, False.elim, False.elim, False.elim, False.elim, False.elim, False.elim, False.elim,
    fun kg hk => ⟨False.elim, fun _ => hgroups kg hk⟩, fun kt hk _ => hteams kt hk, fun _ _ => False.elim, fun _ _ => False.elim,
    fun _ => rfl⟩

theorem Inv.numbersFresh {σ : Claim} (h : Inv σ m) (hf : σ.fresh) : NumbersFresh m :=
  ⟨fun kg hk => h.next hf ▸ (h.groups kg hk).2 hf, fun kt hk => h.next hf ▸ h.teams kt hk hf⟩

theorem Kept.step {s t : State} (e : step s = .next t) (h : Kept s) : Kept t := by
  obtain ⟨_, _, h'⟩ := Leads.step (Inv.of_kept h) t e
  exact h'.kept trivial

theorem NumbersFresh.step {s t : State} (e : step s = .next t) (h : NumbersFresh s.m) : NumbersFresh t.m := by
  obtain ⟨_, _, h'⟩ := Leads.step (Inv.of_numbersFresh h) t e
  exact h'.numbersFresh trivial

end Sys2Proof.Machine

namespace Sys2Proof

/-- Settles O59: memory, keyed collections, lane queues and port counts keep their form through every operation of a step, and
numbers are given out only upward. -/
theorem stepKeepsForm : Obligations.StepKeepsForm := by
  unfold Obligations.StepKeepsForm
  intro s t e
  exact ⟨Machine.Kept.step e, Machine.NumbersFresh.step e⟩

end Sys2Proof
end

section
/-! PROOF. O55 fails at a scalar PC that is no multiple of 4. Within the last 3 bytes of a page no whole word fits, so that
`fetchWords` translates the address twice and runs the instruction at the state after the second translation, where the
statement has it at the state after the first one.
-/

namespace Sys2Proof.Machine

/-! Translation by a walk that finds a and d set. -/

/-- The caches of a core, its cluster and its die with a leaf and the tables above it put in anew (R388). -/
def refilled (m : Mach) (core ctx va : Nat) (t : TlbEntry) (seen : List WalkEntry) : Mach :=
  let m0 := dropLeaf m core ctx va
  let m1 := m0.setCore core { m0.core core with tlb := tlbFill 64 (m0.core core).tlb t }
  let c := m0.cluster (clusterOf core)
  let m2 := m1.setCluster (clusterOf core) { c with tlb := tlbFill 2048 c.tlb t }
  let d := m0.die (dieOf core)
  m2.setDie (dieOf core) { d with wcache := (seen ++ d.wcache).take 512 }

theorem walkFresh_of_marked {m : Mach} {core ctx va lvl table root : Nat} {k : AKind} {c : Context} {t : TlbEntry}
    {seen : List WalkEntry} (hc : aget m.ctxs ctx = some c) (hr : c.root = some root) (hd : root < devTop)
    (hs : startOf m (dieOf core) ctx va root = (lvl, table)) (hw : walkTables m ctx va lvl table [] = .ok (t, seen))
    (hf : leafFault t k va = none) (hm : t.marked k = t) :
    walkFresh m core ctx va k = .ok ((refilled m core ctx va t seen).bump, leafPa t.pte.toNat t.level va, t) := by
  unfold walkFresh
  simp only [hc, hr, Nat.not_le.2 hd, hs, hw, hf, hm, if_true, if_false]
  rfl

/-- Where the free choice is not 0, no cached table pointer is used. -/
theorem startOf_of_pick {m : Mach} (h : m.pick 2 ≠ 0) (die ctx va root : Nat) : startOf m die ctx va root = (4, root) := by
  unfold startOf
  split
  · rw [if_neg (by simp [h])]
  · rfl

theorem translate_of_none {m : Mach} {core ctx va : Nat} {k : AKind} (hc : canonical va = true) (hr : hasRoot m ctx = true)
    (hf : (((m.core core).tlb ++ (m.cluster (clusterOf core)).tlb).find? fun t => t.covers ctx va) = none) :
    translate m core ctx va k = walkFresh m core ctx va k := by
  unfold translate
  simp only [hc, hr, hf]
  rfl

theorem translate_of_some {m : Mach} {core ctx va : Nat} {k : AKind} {t : TlbEntry} (hc : canonical va = true)
    (hr : hasRoot m ctx = true)
    (hf : (((m.core core).tlb ++ (m.cluster (clusterOf core)).tlb).find? fun t => t.covers ctx va) = some t)
    (hs : t.serves k va = true) :
    translate m core ctx va k
      = if m.pick 2 = 0 then .ok (m.bump, leafPa t.pte.toNat t.level va, t) else walkFresh m core ctx va k := by
  unfold translate
  simp only [hc, hr, hf, hs, Bool.true_and, decide_eq_true_eq]
  rfl

theorem fetchPa_of_translate {m m1 : Mach} {g : Group} {va pa : Nat} {t : TlbEntry} (hc : canonical va = true)
    (hl : isLocal va = false) (ht : translate m g.core g.ctx va .fetch = .ok (m1, pa, t)) (hp : pa < devTop) :
    fetchPa m g false va = .ok (m1, pa) := by
  unfold fetchPa
  simp only [hc, hl, ht, hp, if_true]
  rfl

/-! Fetching the word at an address within the last 3 bytes of a page. -/

theorem fetchWords_straddling {m m1 m2 : Mach} {g : Group} {physical : Bool} {va pa pa2 : Nat} (hp : 4093 ≤ va % 4096)
    (h1 : fetchPa m g physical va = .ok (m1, pa)) (h2 : fetchPa m1 g physical va = .ok (m2, pa2)) :
    fetchWords m g physical va 1 = .ok (m2, [fetchWord m2 g pa2]) := by
  have hk : (4096 - va % 4096) / 4 = 0 := by omega
  unfold fetchWords
  simp only [h1, hk, Nat.mul_zero, Nat.add_zero, h2]
  rfl

theorem nextScalar_of_word {m m1 : Mach} {g : Group} {w : Word} {i : Instr} (hb : (sections m g).sbase ≤ g.spc.toNat)
    (he : g.spc.toNat + 4 ≤ (sections m g).sbase + (sections m g).slen)
    (hw : fetchWords m g (sections m g).physical g.spc.toNat 1 = .ok (m1, [w])) (hi : decodeScalar w 0 = .ok i)
    (hs : ∀ x, i ≠ .sigChk x) : nextScalar m g = (m1, i) := by
  have hr : ¬ ((decide (g.spc.toNat < (sections m g).sbase)
      || decide ((sections m g).sbase + (sections m g).slen < g.spc.toNat + 4)) = true) := by simp; omega
  unfold nextScalar
  simp only [hr, hw, scalarOf, List.headD_cons, hi]
  cases i with
  | sigChk x => exact absurd rfl (hs x)
  | _ => rfl

/-! The scalar move of a core where one group is Ready, at a PC within its section, and no other group may look. -/

/-- The module as that group issues in it. -/
def issuing (s : State) (gid : Nat) (g : Group) : Mach := focus { s.m with agenda := [] } gid g

structure LoneTurn (s : State) (core gid : Nat) (g : Group) : Prop where
  agenda : s.m.agenda = [.scalar core]
  boot : s.mg.boot = .ready
  core_lt : core < 1024
  turns : scalarTurns { s.m with agenda := [] } core = [(gid, g)]
  regrp : regrp (issuing s gid g) gid g = g
  st : g.st = .ready
  lx : g.lx = none
  low : (sections (issuing s gid g) g).sbase ≤ g.spc.toNat
  high : g.spc.toNat + 4 ≤ (sections (issuing s gid g) g).sbase + (sections (issuing s gid g) g).slen

variable {s : State} {core gid pa pa2 : Nat} {g : Group} {m1 m2 : Mach} {i : Instr}

/-- What the step does from the point on where an instruction stands decoded in a module, if it is no release. -/
def issued (s : State) (gid : Nat) (g : Group) (i : Instr) (m : Mach) : Host.Outcome State Fault Refusal :=
  settleStep (onward (exec i { s with m := m }) fun t =>
    { t with m := holdSide scalarKey (leaveSets (issuing s gid g) t.m) gid })

theorem LoneTurn.step_eq (h : LoneTurn s core gid g) :
    step s = settleStep (onward (issueNext { s with m := issuing s gid g } gid g) (afterScalar (issuing s gid g) gid g)) := by
  have hn : nextMove s = (.scalar core, { s with m := { s.m with agenda := [] } }) := by unfold nextMove; rw [h.agenda]
  have hg := h.regrp
  unfold issuing at hg ⊢
  unfold step
  simp only [hn, runMove, h.boot, h.core_lt, scalarMove, h.turns, decide_true, Bool.and_self, if_true, List.length_singleton,
    Mach.pick, Nat.le_refl, List.getElem?_cons_zero, State.chosen, issueScalar, hg, h.st, h.lx]

theorem afterScalar_of_next {before : Mach} (hst : g.st = .ready) (hlx : g.lx = none) (hn : nextScalar before g = (m1, i))
    (hi : isRelease i = false) :
    afterScalar before gid g = fun t => { t with m := holdSide scalarKey (leaveSets before t.m) gid } := by
  unfold afterScalar Group.scalarInstr
  simp [hst, hlx, hn, afterRelease, hi]

/-- A step that runs the instruction which a group has next. -/
theorem LoneTurn.step_of_next (h : LoneTurn s core gid g) (hn : nextScalar (issuing s gid g) g = (m1, i))
    (hm : reachesMemory i = false) (hi : isRelease i = false) : step s = issued s gid g i m1 := by
  rw [h.step_eq, afterScalar_of_next h.st h.lx hn hi, issueNext]
  simp only [hn, hm, Bool.false_and, Bool.false_eq_true, if_false]
  rfl

/-- What O55 says the step is, where the word at the PC decodes. -/
theorem LoneTurn.step_claimed (h : LoneTurn s core gid g) (claim : Obligations.StepRunsDecoded)
    (hf : fetchPa (issuing s gid g) g (sections (issuing s gid g) g).physical g.spc.toNat = .ok (m1, pa))
    (hn : ∀ k, k < 2 → ∀ o ∈ (aget m1.touched (pa / 4 + k)).getD [], o.1 ≤ g.kern)
    (hi : decodeScalar (BitVec.ofNat 32 (numberOf ((List.range 4).map fun b => readByte m1 (.dev (pa + b))))) 0 = .ok i)
    (hs : ∀ x, i ≠ .sigChk x) (hnext : nextScalar (issuing s gid g) g = (m2, i)) (hm : reachesMemory i = false)
    (hrel : isRelease i = false) : step s = issued s gid g i m1 := by
  unfold issued
  rw [← afterScalar_of_next h.st h.lx hnext hrel]
  unfold Obligations.StepRunsDecoded at claim
  obtain ⟨-, -, -, -, -, hscalar⟩ := claim
  obtain ⟨-, hturn⟩ := hscalar s core [] h.agenda h.boot h.core_lt
  specialize hturn gid g
  have hg := h.regrp
  have hlow := h.low
  have hhigh := h.high
  unfold issuing at hg hlow hhigh hf ⊢
  simp only [h.turns, List.length_singleton, Mach.pick, Nat.le_refl, if_true, List.getElem?_cons_zero, State.chosen, hg,
    forall_const] at hturn
  obtain ⟨-, hready⟩ := hturn
  obtain ⟨-, hfetches⟩ := hready (by rw [h.st]; intro _ _ e; cases e)
  obtain ⟨-, hin⟩ := hfetches h.lx
  obtain ⟨-, hok⟩ := hin hlow hhigh
  obtain ⟨hdec, -, -⟩ := hok m1 pa hf hn
  simpa [hm] using hdec i (by simpa using hi) hs

/-! The counterexample: a group at 0x10FFD, where bytes 0x10FFD to 0x11000 hold NOP. -/

def strayGroup : Group := { fetchGroup 0 1 with spc := 0x10FFD }

/-- The module of a program of one instruction, its group moved to 0x10FFD in a section that reaches so far. -/
def strayModule : Mach :=
  { pokeByte (State.reset.withFetchWord 32 0).m (.dev 0x11000) 0xBC with
    groups := [(2, strayGroup)], kerns := [(0, { fetchKernel with lrec := { fetchRecord with slen := 0x2000 } })] }

def strayState : State := { State.reset with m := strayModule }

/-- The leaf that maps the first GiB to itself. -/
def strayLeaf : TlbEntry := { ctx := 0, base := 0, log := 30, level := 2, pte := 0x7F, pteAt := 0x3000 }

/-- The tables above it that a walk passes. -/
def strayTables : List WalkEntry :=
  [{ ctx := 0, level := 2, pre := 0, table := 0x3000 }, { ctx := 0, level := 3, pre := 0, table := 0x2000 }]

/-- The module as the group issues. -/
def stray0 : Mach := issuing strayState 2 strayGroup

/-- The module after a walk for the group's PC. -/
def strayWalked (m : Mach) : Mach := (refilled m 0 0 0x10FFD strayLeaf strayTables).bump

/-- The module after the first translation. -/
def stray1 : Mach := strayWalked stray0

/-- The module after the second one, through the cached leaf or by a walk again. -/
def stray2 : Mach := if stray1.pick 2 = 0 then stray1.bump else strayWalked stray1

theorem loneTurn_stray : LoneTurn strayState 0 2 strayGroup where
  agenda := by decide +kernel
  boot := by decide +kernel
  core_lt := by decide
  turns := by decide +kernel
  regrp := by decide +kernel
  st := rfl
  lx := rfl
  low := by decide +kernel
  high := by decide +kernel

theorem strayLeaf_pa : leafPa strayLeaf.pte.toNat strayLeaf.level 0x10FFD = 0x10FFD := by decide +kernel

/-- A walk for the PC, if it starts at the root, finds the leaf. -/
theorem walkFresh_stray {m : Mach} (hc : aget m.ctxs 0 = some fetchContext)
    (hs : startOf m (dieOf 0) 0 0x10FFD 0x1000 = (4, 0x1000))
    (hw : walkTables m 0 0x10FFD 4 0x1000 [] = .ok (strayLeaf, strayTables)) :
    walkFresh m 0 0 0x10FFD .fetch = .ok (strayWalked m, 0x10FFD, strayLeaf) := by
  have h := walkFresh_of_marked (core := 0) (k := .fetch) hc rfl (by decide) hs hw (by decide +kernel) (by decide +kernel)
  rw [strayLeaf_pa] at h
  exact h

theorem translate_stray0 : translate stray0 0 0 0x10FFD .fetch = .ok (stray1, 0x10FFD, strayLeaf) := by
  rw [translate_of_none (by decide) (by decide +kernel) (by decide +kernel)]
  exact walkFresh_stray (by decide +kernel) (by decide +kernel) (by decide +kernel)

theorem translate_stray1 : translate stray1 0 0 0x10FFD .fetch = .ok (stray2, 0x10FFD, strayLeaf) := by
  rw [translate_of_some (t := strayLeaf) (by decide) (by decide +kernel) (by decide +kernel) (by decide +kernel), stray2,
    strayLeaf_pa]
  split
  next => rfl
  next hpick => exact walkFresh_stray (by decide +kernel) (startOf_of_pick hpick ..) (by decide +kernel)

theorem fetchPa_stray0 : fetchPa stray0 strayGroup false 0x10FFD = .ok (stray1, 0x10FFD) :=
  fetchPa_of_translate (by decide) (by decide) translate_stray0 (by decide)

theorem fetchPa_stray1 : fetchPa stray1 strayGroup false 0x10FFD = .ok (stray2, 0x10FFD) :=
  fetchPa_of_translate (by decide) (by decide) translate_stray1 (by decide)

theorem fetchWord_stray2 : fetchWord stray2 strayGroup 0x10FFD = 0xBC000000 := by
  unfold stray2
  split
  · decide +kernel
  · decide +kernel

theorem sections_stray0 : sections stray0 strayGroup
    = { sbase := 0x10000, slen := 0x2000, lbase := 0x20000, llen := 16, physical := false } := by decide +kernel

theorem fetchPa_of_sections {r : Except (Cause × Nat) (Mach × Nat)} (h : fetchPa stray0 strayGroup false 0x10FFD = r) :
    fetchPa stray0 strayGroup (sections stray0 strayGroup).physical strayGroup.spc.toNat = r := by
  rw [sections_stray0]
  exact h

theorem nextScalar_stray0 : nextScalar stray0 strayGroup = (stray2, .nop) := by
  have hw := fetchWords_straddling (by decide) fetchPa_stray0 fetchPa_stray1
  rw [fetchWord_stray2] at hw
  refine nextScalar_of_word (w := 0xBC000000) ?_ ?_ ?_ (by decide +kernel) (fun _ e => by cases e)
  · exact loneTurn_stray.low
  · exact loneTurn_stray.high
  · rw [sections_stray0]
    exact hw

/-- The step runs NOP at the state after the second translation. -/
theorem step_stray : step strayState = issued strayState 2 strayGroup .nop stray2 :=
  loneTurn_stray.step_of_next nextScalar_stray0 rfl rfl

/-- O55 has it run NOP at the state after the first one. -/
theorem step_stray_claimed (claim : Obligations.StepRunsDecoded) :
    step strayState = issued strayState 2 strayGroup .nop stray1 :=
  loneTurn_stray.step_claimed claim (fetchPa_of_sections fetchPa_stray0) (by decide +kernel) (by decide +kernel)
    (fun _ e => by cases e) nextScalar_stray0 rfl rfl

/-! Each translation takes a free value, and the counter of them tells the two apart. -/

/-- The counter of free values in the state that an outcome goes on with. -/
def freeAfter : Host.Outcome State Fault Refusal → Option Nat
  | .next t => some t.m.free
  | _ => none

theorem freeAfter_stray1 : freeAfter (issued strayState 2 strayGroup .nop stray1) = some 2 := by decide +kernel

theorem freeAfter_stray2 : freeAfter (issued strayState 2 strayGroup .nop stray2) = some 3 := by
  unfold stray2
  split
  · decide +kernel
  · decide +kernel

end Sys2Proof.Machine

namespace Sys2Proof

/-- Refutes O55: at PC 0x10FFD, which is no multiple of 4 and where no whole word fits in the page, NOP runs at the state after
two translations of the PC, not at the one after the first. -/
theorem not_stepRunsDecoded : ¬ Obligations.StepRunsDecoded := by
  intro claim
  have h := congrArg Machine.freeAfter ((Machine.step_stray_claimed claim).symm.trans Machine.step_stray)
  rw [Machine.freeAfter_stray1, Machine.freeAfter_stray2] at h
  exact absurd h (by decide)

end Sys2Proof
end

section
/-! PROOF. The fields of words (R30, R34). A format puts fields side by side, so that it makes a word just when its fields are
those that the decoder reads from the word. Each format has one equivalence, which both directions of the round trip use.
-/

namespace Sys2Proof
open Machine

theorem append_eq_iff {m n : Nat} {hi : BitVec m} {lo : BitVec n} {x : BitVec (m + n)} :
    hi ++ lo = x ↔ x.extractLsb' n m = hi ∧ x.extractLsb' 0 n = lo := by
  refine ⟨?_, ?_⟩
  · rintro rfl
    exact ⟨BitVec.extractLsb'_append_eq_left, BitVec.extractLsb'_append_eq_right⟩
  · rintro ⟨rfl, rfl⟩
    exact BitVec.extractLsb'_append_extractLsb'

theorem field_eq_append_iff {m n k start : Nat} {hi : BitVec m} {lo : BitVec n} {x : BitVec k} :
    x.extractLsb' start (m + n) = hi ++ lo ↔ x.extractLsb' (start + n) m = hi ∧ x.extractLsb' start n = lo := by
  rw [eq_comm, append_eq_iff, ← BitVec.extractLsb'_append_extractLsb'_eq_extractLsb' rfl, BitVec.extractLsb'_append_eq_left,
    BitVec.extractLsb'_append_eq_right]

section
variable {m : BitVec 6} {sd sa sb : Sreg} {w : Word}

theorem wordSR_eq_iff {func : BitVec 8} : wordSR m sd sa sb func = w ↔ w.extractLsb' 26 6 = m ∧ w.extractLsb' 20 6 = sd
    ∧ w.extractLsb' 14 6 = sa ∧ w.extractLsb' 8 6 = sb ∧ w.extractLsb' 0 8 = func := by
  unfold wordSR
  rw [append_eq_iff]
  iterate 3 rw [field_eq_append_iff]
  simp only [and_assoc]

theorem wordSI_eq_iff {imm : BitVec 14} : wordSI m sd sa imm = w ↔
    w.extractLsb' 26 6 = m ∧ w.extractLsb' 20 6 = sd ∧ w.extractLsb' 14 6 = sa ∧ w.extractLsb' 0 14 = imm := by
  unfold wordSI
  rw [append_eq_iff, field_eq_append_iff, field_eq_append_iff, and_assoc, and_assoc]

theorem wordSU_eq_iff {imm : BitVec 20} : wordSU m sd imm = w ↔
    w.extractLsb' 26 6 = m ∧ w.extractLsb' 20 6 = sd ∧ w.extractLsb' 0 20 = imm := by
  unfold wordSU
  rw [append_eq_iff, field_eq_append_iff, and_assoc]

theorem wordSB_eq_iff {cond : BitVec 4} {off : BitVec 22} : wordSB m cond off = w ↔
    w.extractLsb' 26 6 = m ∧ w.extractLsb' 22 4 = cond ∧ w.extractLsb' 0 22 = off := by
  unfold wordSB
  rw [append_eq_iff, field_eq_append_iff, and_assoc]

end

theorem laneBitsOf_eq_iff {op : BitVec 8} {w : LaneWord} {x : LaneBits} :
    laneBitsOf op w = x ↔ x.extractLsb' 88 8 = op ∧ laneWordOf x = w := by
  unfold laneBitsOf
  rw [append_eq_iff]
  iterate 13 rw [field_eq_append_iff]
  cases w
  simp only [laneWordOf, LaneWord.mk.injEq, and_assoc]

/-- The three words of a lane instruction, the last one on top, are its 96 bits (R34). -/
theorem words_append (x : LaneBits) : x.extractLsb' 64 32 ++ x.extractLsb' 32 32 ++ x.extractLsb' 0 32 = x := by
  rw [append_eq_iff, field_eq_append_iff]
  exact ⟨⟨rfl, rfl⟩, rfl⟩

theorem toNat_append_eq {m n : Nat} (hi : BitVec m) (lo : BitVec n) : (hi ++ lo).toNat = lo.toNat + 2 ^ n * hi.toNat := by
  rw [BitVec.toNat_append, ← Nat.shiftLeft_add_eq_or_of_lt lo.isLt, Nat.shiftLeft_eq, Nat.add_comm, Nat.mul_comm]

/-- A field below a bound, written as a number, so that the values below the bound can be gone through. -/
theorem exists_ofNat_of_toNat_lt {n k : Nat} {x : BitVec n} (h : x.toNat < k) : ∃ j, j < k ∧ x = BitVec.ofNat n j :=
  ⟨x.toNat, h, (BitVec.toNat_eq_nat.1 rfl).2⟩

end Sys2Proof
end

section
/-! PROOF. A word that decodes to a scalar instruction is that instruction's first word (R30, R31, R44, R45, R47): no row of the
decoder drops a bit, since what a row does not read it asks to be zero.
-/

namespace Sys2Proof
open Machine

theorem accept_eq_ok_iff {zero : Bool} {i j : Instr} :
    accept zero i = .ok j ↔ zero = true ∧ scalarLegal i = true ∧ i = j := by
  unfold accept
  cases zero
  case false => simp
  case true => cases scalarLegal i <;> simp

theorem accept_of_legal {i : Instr} (h : scalarLegal i = true) : accept true i = .ok i :=
  accept_eq_ok_iff.2 ⟨rfl, h, rfl⟩

/-- i is a scalar instruction that R47 admits, w is its first word, and w2 its second one if it has one. -/
structure ScalarOf (w w2 : Word) (i : Instr) : Prop where
  scalar : laneWord? i = none
  legal : scalarLegal i = true
  first : scalarWord i = w
  second : scalarBytes i = 8 → scalarWord2 i = w2

/-- A decoder's answer to the words w and w2: an error, or an instruction that they are the encoding of. -/
def Faithful (w w2 : Word) (r : Except DecodeError Instr) : Prop := ∀ i, r = .ok i → ScalarOf w w2 i

section
variable {w w2 : Word} {m : BitVec 6} {sd sa sb : Sreg} {func : BitVec 8}

theorem faithful_error {e : DecodeError} : Faithful w w2 (.error e) := fun _ h => nomatch h

theorem faithful_accept {zero : Bool} {i : Instr} (hs : laneWord? i = none) (h2 : scalarBytes i = 8 → scalarWord2 i = w2)
    (hw : zero = true → scalarWord i = w) : Faithful w w2 (accept zero i) := by
  intro j hj
  obtain ⟨hz, hl, rfl⟩ := accept_eq_ok_iff.1 hj
  exact ⟨hs, hl, hw hz, h2⟩

theorem faithful_accept_oneWord {zero : Bool} {i : Instr} (hs : laneWord? i = none) (hb : scalarBytes i = 4)
    (hw : zero = true → scalarWord i = w) : Faithful w w2 (accept zero i) :=
  faithful_accept hs (fun h => absurd (hb.symm.trans h) (by decide)) hw

theorem faithful_decodeAlu (hw : wordSR 0x01 sd sa sb func = w) : Faithful w w2 (decodeAlu sd sa sb func) := by
  unfold decodeAlu
  split
  case h_31 =>
    split
    next h =>
      rw [Bool.and_eq_true, decide_eq_true_eq] at h
      exact faithful_accept_oneWord rfl rfl fun _ => (congrArg (wordSR 0x01 sd sa sb) (append_eq_iff.2 ⟨h.1, rfl⟩)).trans hw
    · split
      next h => exact faithful_accept_oneWord rfl rfl fun _ => (congrArg (wordSR 0x01 sd sa sb) (append_eq_iff.2 ⟨h, rfl⟩)).trans hw
      next => exact faithful_error
  all_goals
    next hf =>
    refine faithful_accept_oneWord rfl rfl fun hz => ?_
    replace hf := (BitVec.toNat_eq_nat.1 hf).2
    simp_all only [decide_eq_true_eq]
    exact hw

theorem append_low_of_div {hi : BitVec 5} (h : func.toNat / 8 = hi.toNat) : hi ++ func.extractLsb' 0 3 = func :=
  append_eq_iff.2 ⟨BitVec.eq_of_toNat_eq (by rw [BitVec.extractLsb'_toNat, Nat.shiftRight_eq_div_pow]; omega), rfl⟩

theorem faithful_decodeFunc (hw : wordSR m sd sa sb func = w) : Faithful w w2 (decodeFunc m.toNat sd sa sb func) := by
  unfold decodeFunc
  split
  -- FENCE and WAITA
  case h_7 hm _ =>
    obtain rfl := (BitVec.toNat_eq_nat.1 hm).2
    split
    next hf =>
      refine faithful_accept_oneWord rfl rfl fun hz => ?_
      simp only [Bool.and_eq_true, decide_eq_true_eq] at hz
      obtain ⟨⟨rfl, rfl⟩, rfl⟩ := hz
      exact (congrArg (wordSR 0x22 0 0 0) (append_low_of_div (Nat.div_eq_of_lt (by omega)))).trans hw
    · split
      next hf =>
        simp only [Bool.and_eq_true, decide_eq_true_eq] at hf
        have hhigh : func.toNat / 8 = (0b00010#5).toNat := by
          show func.toNat / 8 = 2
          omega
        exact faithful_accept_oneWord rfl rfl fun _ => (congrArg (wordSR 0x22 sd sa sb) (append_low_of_div hhigh)).trans hw
      next => exact faithful_error
  case h_40 => exact faithful_error
  all_goals
    next hm hf =>
    refine faithful_accept_oneWord rfl rfl fun hz => ?_
    replace hm := (BitVec.toNat_eq_nat.1 hm).2
    replace hf := (BitVec.toNat_eq_nat.1 hf).2
    simp_all only [Bool.and_eq_true, decide_eq_true_eq]
    exact hw

theorem faithful_decodeBar (hw : wordSR 0x29 sd sa sb func = w) : Faithful w w2 (decodeBar sd sa sb func) := by
  unfold decodeBar
  split
  case h_8 => exact faithful_error
  all_goals
    next hop =>
    refine faithful_accept_oneWord rfl rfl fun hz => ?_
    rw [← append_eq_iff.2 ⟨(BitVec.toNat_eq_nat.1 hop).2, rfl⟩] at hw
    simp_all only [Bool.and_eq_true, decide_eq_true_eq]
    exact hw

theorem major_eq_ofNat {k : Nat} (h : (w.extractLsb' 26 6).toNat = k) : w.extractLsb' 26 6 = BitVec.ofNat 6 k :=
  (BitVec.toNat_eq_nat.1 h).2

end

theorem faithful_decodeScalar (w w2 : Word) : Faithful w w2 (decodeScalar w w2) := by
  unfold decodeScalar
  split
  -- the majors whose func field selects the instruction
  case h_1 hm => exact faithful_decodeAlu (wordSR_eq_iff.2 ⟨major_eq_ofNat hm, rfl, rfl, rfl, rfl⟩)
  case h_34 hm => exact faithful_decodeBar (wordSR_eq_iff.2 ⟨major_eq_ofNat hm, rfl, rfl, rfl, rfl⟩)
  case h_38 =>
    split
    next => exact faithful_error
    next => exact faithful_decodeFunc (wordSR_eq_iff.2 ⟨rfl, rfl, rfl, rfl, rfl⟩)
  -- SATOM
  case h_25 hm =>
    have hfunc := (append_eq_iff (m := 3) (n := 5) (x := w.extractLsb' 0 8)).2 ⟨rfl, rfl⟩
    exact faithful_accept_oneWord rfl rfl fun _ => wordSR_eq_iff.2 ⟨major_eq_ofNat hm, rfl, rfl, rfl, hfunc.symm⟩
  -- S-I with an immediate of 14 bits
  case h_2 hm | h_3 hm | h_4 hm | h_5 hm | h_11 hm | h_14 hm | h_15 hm | h_16 hm | h_17 hm | h_18 hm | h_19 hm | h_20 hm | h_21 hm
      | h_22 hm | h_23 hm | h_24 hm =>
    exact faithful_accept_oneWord rfl rfl fun _ => wordSI_eq_iff.2 ⟨major_eq_ofNat hm, rfl, rfl, rfl⟩
  -- CMPI, CMPUI
  case h_9 hm | h_10 hm =>
    exact faithful_accept_oneWord rfl rfl fun hz => wordSI_eq_iff.2 ⟨major_eq_ofNat hm, of_decide_eq_true hz, rfl, rfl⟩
  -- the shifts by an immediate
  case h_6 hm | h_7 hm | h_8 hm =>
    refine faithful_accept_oneWord rfl rfl fun hz => wordSI_eq_iff.2 ⟨major_eq_ofNat hm, rfl, rfl, ?_⟩
    exact (field_eq_append_iff (m := 8) (n := 6) (start := 0)).2 ⟨of_decide_eq_true hz, rfl⟩
  -- SCR.RD, SCR.WR
  case h_36 hm =>
    refine faithful_accept_oneWord rfl rfl fun hz => ?_
    rw [Bool.and_eq_true, decide_eq_true_eq, decide_eq_true_eq] at hz
    exact wordSI_eq_iff.2 ⟨major_eq_ofNat hm, rfl, hz.1, (append_eq_iff.2 ⟨hz.2, rfl⟩).symm⟩
  case h_37 hm =>
    refine faithful_accept_oneWord rfl rfl fun hz => ?_
    rw [Bool.and_eq_true, decide_eq_true_eq, decide_eq_true_eq] at hz
    exact wordSI_eq_iff.2 ⟨major_eq_ofNat hm, hz.1, rfl, (append_eq_iff.2 ⟨hz.2, rfl⟩).symm⟩
  -- S-U
  case h_12 hm | h_13 hm | h_32 hm =>
    exact faithful_accept_oneWord rfl rfl fun _ => wordSU_eq_iff.2 ⟨major_eq_ofNat hm, rfl, rfl⟩
  -- SIG.CHK
  case h_33 hm =>
    refine faithful_accept rfl (fun _ => rfl) fun hz => ?_
    rw [Bool.and_eq_true, decide_eq_true_eq, decide_eq_true_eq] at hz
    exact wordSU_eq_iff.2 ⟨major_eq_ofNat hm, hz⟩
  -- S-B and S-X
  case h_26 hm | h_28 hm | h_30 hm =>
    exact faithful_accept_oneWord rfl rfl fun _ => wordSB_eq_iff.2 ⟨major_eq_ofNat hm, rfl, rfl⟩
  case h_29 hm | h_31 hm =>
    exact faithful_accept_oneWord rfl rfl fun hz => wordSB_eq_iff.2 ⟨major_eq_ofNat hm, of_decide_eq_true hz, rfl⟩
  -- BM
  case h_27 hm =>
    have hcond := (append_eq_iff (m := 1) (n := 3) (x := w.extractLsb' 22 4)).2 ⟨rfl, rfl⟩
    exact faithful_accept_oneWord rfl rfl fun _ => wordSB_eq_iff.2 ⟨major_eq_ofNat hm, hcond.symm, rfl⟩
  -- YIELD.BAR
  case h_35 hm =>
    have hoff := (append_eq_iff (m := 1) (n := 21) (x := w.extractLsb' 0 22)).2 ⟨rfl, rfl⟩
    exact faithful_accept_oneWord rfl rfl fun _ => wordSB_eq_iff.2 ⟨major_eq_ofNat hm, rfl, hoff.symm⟩

end Sys2Proof
end

section
/-! PROOF. The first word of a scalar instruction that R47 admits decodes to the instruction, format by format (R30, R31, R45). A
word of a reserved major opcode decodes to none (R44).
-/

namespace Sys2Proof
open Machine

section
variable {w w2 : Word} {m : BitVec 6} {sd sa sb : Sreg} {func : BitVec 8} {i : Instr}

theorem decodeScalar_alu (hw : wordSR 0x01 sd sa sb func = w) : decodeScalar w w2 = decodeAlu sd sa sb func := by
  obtain ⟨hm, rfl, rfl, rfl, rfl⟩ := wordSR_eq_iff.1 hw
  unfold decodeScalar
  rw [hm]
  rfl

theorem decodeScalar_bar (hw : wordSR 0x29 sd sa sb func = w) : decodeScalar w w2 = decodeBar sd sa sb func := by
  obtain ⟨hm, rfl, rfl, rfl, rfl⟩ := wordSR_eq_iff.1 hw
  unfold decodeScalar
  rw [hm]
  rfl

theorem decodeScalar_func (hw : wordSR m sd sa sb func = w)
    (hm : m ∈ [0x20, 0x21, 0x22, 0x23, 0x24, 0x25, 0x26, 0x2A, 0x2C, 0x2F, 0x30]) :
    decodeScalar w w2 = decodeFunc m.toNat sd sa sb func := by
  obtain ⟨h, rfl, rfl, rfl, rfl⟩ := wordSR_eq_iff.1 hw
  unfold decodeScalar
  rw [h]
  fin_cases hm <;> rfl

theorem decodeAlu_scadd {n : BitVec 3} (hn : n.toNat ≤ 4) :
    decodeAlu sd sa sb (0b00110#5 ++ n) = accept true (.scadd n sd sa sb) := by
  obtain ⟨k, hk, rfl⟩ := exists_ofNat_of_toNat_lt (Nat.lt_succ_of_le hn)
  interval_cases k <;> rfl

theorem decodeAlu_sel {cc : BitVec 4} (hcc : cc.toNat < 15) :
    decodeAlu sd sa sb (0x4#4 ++ cc) = accept true (.sel cc sd sa sb) := by
  obtain ⟨k, hk, rfl⟩ := exists_ofNat_of_toNat_lt hcc
  interval_cases k <;> rfl

theorem decodeFunc_fence {scope : BitVec 3} (hscope : scope.toNat < 5) :
    decodeFunc 0x22 0 0 0 (0#5 ++ scope) = accept true (.fence scope) := by
  obtain ⟨k, hk, rfl⟩ := exists_ofNat_of_toNat_lt hscope
  interval_cases k <;> rfl

theorem decodeFunc_waita {cc : BitVec 3} (hcc : cc.toNat < 6) :
    decodeFunc 0x22 sd sa sb (0b00010#5 ++ cc) = accept true (.waita cc sd sa sb) := by
  obtain ⟨k, hk, rfl⟩ := exists_ofNat_of_toNat_lt hcc
  interval_cases k <;> rfl

theorem decodeScalar_of_scalarOf (h : ScalarOf w w2 i) (h0 : w ≠ 0) : decodeScalar w w2 = .ok i := by
  obtain ⟨-, hl, hw, h2⟩ := h
  cases i with
  | add | sub | and | or | xor | andn | orn | xnor | shl | shr | sar | rol | ror | mul | mulh | mulhu | div | divu | rem | remu | min
  | max | minu | maxu | cmp | tst | popc | clz | ctz | brev => exact (decodeScalar_alu hw).trans (accept_of_legal hl)
  | scadd => exact (decodeScalar_alu hw).trans ((decodeAlu_scadd (of_decide_eq_true hl)).trans (accept_of_legal hl))
  | sel => exact (decodeScalar_alu hw).trans ((decodeAlu_sel (of_decide_eq_true hl)).trans (accept_of_legal hl))
  | addi | andi | ori | xori | cmpi | cmpui | muli | sldb | sldh | sldw | sldd | sldbx | sldhx | sldwx | sstb | ssth | sstw | sstd =>
    obtain ⟨hm, hsd, hsa, himm⟩ := wordSI_eq_iff.1 hw
    unfold decodeScalar
    rw [hm, hsd, hsa, himm]
    exact accept_of_legal hl
  | shli | shri | sari =>
    obtain ⟨hm, rfl, rfl, himm⟩ := wordSI_eq_iff.1 hw
    obtain ⟨hhigh, rfl⟩ := (field_eq_append_iff (m := 8) (n := 6) (start := 0)).1 himm
    unfold decodeScalar
    rw [hm]
    exact accept_eq_ok_iff.2 ⟨decide_eq_true hhigh, hl, rfl⟩
  | scrRd | scrWr =>
    obtain ⟨hm, hsd, hsa, himm⟩ := wordSI_eq_iff.1 hw
    obtain ⟨hhigh, rfl⟩ := append_eq_iff.1 himm.symm
    unfold decodeScalar
    rw [hm, hsd, hsa]
    exact accept_eq_ok_iff.2 ⟨decide_eq_true hhigh, hl, rfl⟩
  | lih | addpc | rgnOpen =>
    obtain ⟨hm, hsd, himm⟩ := wordSU_eq_iff.1 hw
    unfold decodeScalar
    rw [hm, hsd, himm]
    exact accept_of_legal hl
  | sigChk =>
    obtain ⟨hm, hsd, himm⟩ := wordSU_eq_iff.1 hw
    obtain rfl := h2 rfl
    unfold decodeScalar
    rw [hm, hsd, himm]
    exact accept_of_legal hl
  | satom =>
    obtain ⟨hm, rfl, rfl, rfl, hfunc⟩ := wordSR_eq_iff.1 hw
    obtain ⟨rfl, rfl⟩ := append_eq_iff.1 hfunc.symm
    unfold decodeScalar
    rw [hm]
    exact accept_of_legal hl
  | b | bf | call | lx | lj =>
    obtain ⟨hm, hcond, hoff⟩ := wordSB_eq_iff.1 hw
    unfold decodeScalar
    rw [hm, hcond, hoff]
    exact accept_of_legal hl
  | bm =>
    obtain ⟨hm, hcond, rfl⟩ := wordSB_eq_iff.1 hw
    obtain ⟨rfl, rfl⟩ := append_eq_iff.1 hcond.symm
    unfold decodeScalar
    rw [hm]
    exact accept_of_legal hl
  | yieldBar =>
    obtain ⟨hm, rfl, hoff⟩ := wordSB_eq_iff.1 hw
    obtain ⟨rfl, rfl⟩ := append_eq_iff.1 hoff.symm
    unfold decodeScalar
    rw [hm]
    exact accept_of_legal hl
  | fence => exact (decodeScalar_func hw (by decide)).trans ((decodeFunc_fence (of_decide_eq_true hl)).trans (accept_of_legal hl))
  | waita => exact (decodeScalar_func hw (by decide)).trans ((decodeFunc_waita (of_decide_eq_true hl)).trans (accept_of_legal hl))
  | sqPush | lqPop | fqPop | msplit | mjoin | qfence | walkPost | walkStat | walkAbort | hndlPark | hndlDone | taskAlloc | taskPub
  | taskSig | taskSpawn | taskExit | stampSet | stampGet | stampInc | stampEnter | stampLeave | frontWait | frontTest | frontHold
  | frontDrop | summLd | rgnKeep | rgnClose | copyq | wdqNext | pipeLim | nop | trap | tret | exit | brk | jr | callr =>
    exact (decodeScalar_func hw (by decide)).trans (accept_of_legal hl)
  | barBind | barExpect | barArrive | barWait | barTry =>
    refine (decodeScalar_bar hw).trans ?_
    rw [decodeBar, BitVec.extractLsb'_append_eq_left, BitVec.extractLsb'_append_eq_right]
    exact accept_of_legal hl
  | barInit | barDrop => exact (decodeScalar_bar hw).trans (accept_of_legal hl)
  | _ => exact absurd hw.symm h0

theorem decodeScalar_eq_ok_iff : decodeScalar w w2 = .ok i ↔ ScalarOf w w2 i ∧ w ≠ 0 := by
  refine ⟨fun h => ⟨faithful_decodeScalar w w2 i h, ?_⟩, fun ⟨h, h0⟩ => decodeScalar_of_scalarOf h h0⟩
  rintro rfl
  cases h

theorem decodeScalar_reservedMajor (h : w.toNat / 2 ^ 26 = 0 ∨ 0x31 ≤ w.toNat / 2 ^ 26) :
    decodeScalar w w2 = .error .reservedMajor := by
  have hm : (w.extractLsb' 26 6).toNat = w.toNat / 2 ^ 26 := by
    rw [BitVec.extractLsb'_toNat, Nat.shiftRight_eq_div_pow]
    omega
  unfold decodeScalar
  rw [hm]
  generalize w.toNat / 2 ^ 26 = major at h
  split
  case h_38 => exact if_pos (by simpa using h)
  all_goals omega

end

end Sys2Proof
end

section
/-! PROOF. The lane decoder takes apart what the encoder puts together, and the reverse (R34, R46).
-/

namespace Sys2Proof
open Machine

theorem decodeLane_laneBitsOf (op : BitVec 8) (w : LaneWord) : decodeLane (laneBitsOf op w) = decodeLaneOp op w := by
  obtain ⟨hop, hw⟩ := laneBitsOf_eq_iff.1 (rfl : laneBitsOf op w = _)
  rw [decodeLane, hop, hw]

theorem decodeLaneOp_laneOpcode {i : Instr} {w : LaneWord} (h : laneWord? i = some w) :
    decodeLaneOp (laneOpcode i) w = .ok i := by
  cases i
  case laneHint hint x => exact Laws.LaneOpcode.laneHint hint x w h
  all_goals cases h
  all_goals rfl

/-- What the lane decoder answers: the instruction of the opcode, or that the opcode is reserved (R46). -/
theorem decodeLaneOp_cases (op : BitVec 8) (w : LaneWord) :
    (∃ i, decodeLaneOp op w = .ok i ∧ laneWord? i = some w ∧ laneOpcode i = op) ∨ decodeLaneOp op w = .error .reservedOpcode := by
  unfold decodeLaneOp
  split
  case h_71 =>
    split
    next hop =>
      have hhigh : op.extractLsb' 4 4 = 0xF#4 := by
        refine BitVec.eq_of_toNat_eq ?_
        rw [BitVec.extractLsb'_toNat, Nat.shiftRight_eq_div_pow]
        show _ = 15
        omega
      exact .inl ⟨_, rfl, rfl, append_eq_iff.2 ⟨hhigh, rfl⟩⟩
    next => exact .inr rfl
  all_goals
    next hop => exact .inl ⟨_, rfl, rfl, (BitVec.toNat_eq_nat.1 hop).2.symm⟩

theorem eq_laneBitsOf_of_decodeLane {x : LaneBits} {i : Instr} (h : decodeLane x = .ok i) :
    ∃ w, laneWord? i = some w ∧ laneBitsOf (laneOpcode i) w = x := by
  rcases decodeLaneOp_cases (x.extractLsb' 88 8) (laneWordOf x) with ⟨j, hj, hw, hop⟩ | hr
  · obtain rfl : j = i := Except.ok.inj (hj.symm.trans h)
    exact ⟨laneWordOf x, hw, laneBitsOf_eq_iff.2 ⟨hop.symm, rfl⟩⟩
  · cases hr.symm.trans h

theorem decodeLaneOp_reserved {op : BitVec 8} (h : ∀ i x, laneWord? i = some x → laneOpcode i ≠ op) (w : LaneWord) :
    decodeLaneOp op w = .error .reservedOpcode := by
  rcases decodeLaneOp_cases op w with ⟨i, -, hw, hop⟩ | hr
  · exact absurd hop (h i w hw)
  · exact hr

end Sys2Proof
end

section
/-! PROOF. The encoder, and from it the round trips of O57; the worked encodings of O56.
-/

namespace Sys2Proof
open Machine

theorem encode_lane {i : Instr} {w : LaneWord} (h : laneWord? i = some w) :
    encode i = [(laneBitsOf (laneOpcode i) w).extractLsb' 0 32, (laneBitsOf (laneOpcode i) w).extractLsb' 32 32,
      (laneBitsOf (laneOpcode i) w).extractLsb' 64 32] := by
  unfold encode
  rw [h]

theorem eq_sigChk_of_scalarBytes {i : Instr} (h : scalarBytes i = 8) : ∃ imm, i = .sigChk imm := by
  unfold scalarBytes at h
  split at h
  next imm => exact ⟨imm, rfl⟩
  next => cases h

theorem wf_eq_scalarLegal {i : Instr} (h : laneWord? i = none) : i.wf = scalarLegal i := by
  unfold Instr.wf
  rw [h]

theorem scalarWord_ne_zero {i : Instr} (h : laneWord? i = none) (he : encode i ≠ []) : scalarWord i ≠ 0 := by
  intro h0
  unfold encode at he
  split at he
  next hw => cases h.symm.trans hw
  split at he
  next => cases h0
  next => exact he (if_pos h0)

theorem ScalarOf.encode_eq {w w2 : Word} {i : Instr} (h : ScalarOf w w2 i) (h0 : w ≠ 0) :
    encode i = if scalarBytes i = 8 then [w, w2] else [w] := by
  obtain ⟨hs, -, rfl, h2⟩ := h
  unfold encode
  split
  next hw => cases hs.symm.trans hw
  split
  next => rw [← h2 rfl]; rfl
  next hi =>
    rw [if_neg h0, if_neg]
    intro hb
    obtain ⟨imm, rfl⟩ := eq_sigChk_of_scalarBytes hb
    exact hi imm rfl

theorem wf_and_encode_of_decodeScalar {w w2 : Word} {i : Instr} (h : decodeScalar w w2 = .ok i) :
    i.wf = true ∧ (encode i = [w] ∨ encode i = [w, w2]) := by
  obtain ⟨hof, h0⟩ := decodeScalar_eq_ok_iff.1 h
  refine ⟨(wf_eq_scalarLegal hof.scalar).trans hof.legal, ?_⟩
  rw [hof.encode_eq h0]
  split
  next => exact .inr rfl
  next => exact .inl rfl

/-- The two shapes of the encoding of a well-formed scalar instruction: one word, which decodes whatever word follows, or two. -/
theorem encode_scalar_cases {i : Instr} (hwf : i.wf = true) (hs : laneWord? i = none) (he : encode i ≠ []) :
    (scalarBytes i ≠ 8 ∧ ∃ w, encode i = [w] ∧ ∀ w2, decodeScalar w w2 = .ok i)
    ∨ (scalarBytes i = 8 ∧ ∃ w w2, encode i = [w, w2] ∧ decodeScalar w w2 = .ok i) := by
  have h0 := scalarWord_ne_zero hs he
  have hof (w2 : Word) (h2 : scalarBytes i = 8 → scalarWord2 i = w2) : ScalarOf (scalarWord i) w2 i :=
    ⟨hs, wf_eq_scalarLegal hs ▸ hwf, rfl, h2⟩
  by_cases hb : scalarBytes i = 8
  · have h := hof (scalarWord2 i) fun _ => rfl
    exact .inr ⟨hb, _, _, (h.encode_eq h0).trans (if_pos hb), decodeScalar_of_scalarOf h h0⟩
  · have h (w2 : Word) := hof w2 fun h8 => absurd h8 hb
    exact .inl ⟨hb, _, ((h 0).encode_eq h0).trans (if_neg hb), fun w2 => decodeScalar_of_scalarOf (h w2) h0⟩

theorem decodeWords_encode {i : Instr} (hwf : i.wf = true) (hs : laneWord? i = none) (he : encode i ≠ []) (rest : List Word) :
    decodeWords (encode i ++ rest) = .ok (i, rest) := by
  rcases encode_scalar_cases hwf hs he with ⟨hb, w, hw, hd⟩ | ⟨hb, w, w2, hw, hd⟩
  · simp only [hw, List.cons_append, List.nil_append, decodeWords, hd, if_neg hb]
  · simp only [hw, List.cons_append, List.nil_append, decodeWords, List.headD_cons, hd, if_pos hb]

theorem decodeTableWord_lane {i : Instr} {w : LaneWord} (hw : laneWord? i = some w) (hwf : i.wf = true) :
    decodeTableWord 96 (laneBitsOf (laneOpcode i) w).toNat = some i := by
  unfold decodeTableWord
  rw [if_pos rfl, BitVec.ofNat_toNat, BitVec.setWidth_eq, decodeLane_laneBitsOf, decodeLaneOp_laneOpcode hw]
  exact if_pos hwf

theorem decodeTableWord_scalar {n : Nat} {w w2 : Word} {i : Instr} (hn : n ≠ 96) (h : decodeScalar w w2 = .ok i) :
    decodeTableWord n (w.toNat + 2 ^ 32 * w2.toNat) = some i := by
  have hlow : BitVec.ofNat 32 (w.toNat + 2 ^ 32 * w2.toNat) = w :=
    BitVec.eq_of_toNat_eq (by rw [BitVec.toNat_ofNat]; omega)
  have hhigh : BitVec.ofNat 32 ((w.toNat + 2 ^ 32 * w2.toNat) >>> 32) = w2 :=
    BitVec.eq_of_toNat_eq (by rw [BitVec.toNat_ofNat, Nat.shiftRight_eq_div_pow]; omega)
  unfold decodeTableWord
  rw [if_neg hn, hlow, hhigh, h]

theorem decodeTableWord_encode {i : Instr} (hwf : i.wf = true) (he : encode i ≠ []) :
    decodeTableWord (32 * (encode i).length) ((encode i).foldr (fun w n => w.toNat + 2 ^ 32 * n) 0) = some i := by
  cases hw : laneWord? i with
  | some w =>
    have hn := congrArg BitVec.toNat (words_append (laneBitsOf (laneOpcode i) w))
    rw [toNat_append_eq, toNat_append_eq] at hn
    rw [encode_lane hw]
    exact (congrArg (decodeTableWord 96) hn).trans (decodeTableWord_lane hw hwf)
  | none =>
    rcases encode_scalar_cases hwf hw he with ⟨-, w, he, hd⟩ | ⟨-, w, w2, he, hd⟩
    · rw [he]
      exact decodeTableWord_scalar (n := 32) (w2 := 0) (by decide) (hd 0)
    · rw [he]
      exact decodeTableWord_scalar (n := 64) (by decide) hd

/-- Settles O57: a format makes a word just when its fields are those read from the word, so that the decoder of either stream and
the encoder undo each other row by row. -/
theorem decodeOfEncode : Obligations.DecodeOfEncode := by
  unfold Obligations.DecodeOfEncode
  refine ⟨?scalarWords, ?tableWord, ?lane, ?scalarFaithful, ?laneFaithful, ?reservedMajor, ?reservedOpcode⟩
  case scalarWords => exact fun i hwf hs he rest => decodeWords_encode hwf hs he rest
  case tableWord => exact fun i hwf he => decodeTableWord_encode hwf he
  case lane =>
    intro i w hw
    exact ⟨(decodeLane_laneBitsOf _ w).trans (decodeLaneOp_laneOpcode hw), _, _, _, encode_lane hw, words_append _⟩
  case scalarFaithful => exact fun w w2 i h => wf_and_encode_of_decodeScalar h
  case laneFaithful => exact fun x i h => eq_laneBitsOf_of_decodeLane h
  case reservedMajor => exact fun w w2 h => decodeScalar_reservedMajor h
  case reservedOpcode => exact fun op w h => decodeLaneOp_reserved h w

/-- Settles O56: each of the words, which are fixed, decoded. -/
theorem decodesTheSpecsWords : Obligations.DecodesTheSpecsWords := by
  unfold Obligations.DecodesTheSpecsWords
  decide

end Sys2Proof
end

section
/-! PROOF. Rounding (R55, R68, R69): the neighbour of a fraction that a direction chooses, and that a finite encoding rounds to
itself in every format.
-/

namespace Sys2Proof.Machine

/-- Whether a quotient i that leaves a remainder rem of den goes up to its upper neighbour (R68). -/
def Rnd.goesUp (r : Rnd) (neg : Bool) (i rem den : Nat) : Bool :=
  match r with
  | .rne => den < 2 * rem || (2 * rem = den && i % 2 = 1)
  | .rtz => false
  | .rdn => neg && 0 < rem
  | .rup => !neg && 0 < rem

@[simp] theorem scaleUp_zero (x : Nat) : scaleUp x 0 = x := by simp [scaleUp]

theorem scaleUp_pos {x : Nat} (h : 0 < x) (e : Int) : 0 < scaleUp x e := Nat.mul_pos h (Nat.two_pow_pos _)

theorem roundUnits_eq (r : Rnd) (neg : Bool) (n d : Nat) (e q : Int) :
    roundUnits r neg n d e q
      = if r.goesUp neg (scaleUp n (e - q) / scaleUp d (q - e)) (scaleUp n (e - q) % scaleUp d (q - e)) (scaleUp d (q - e))
        then scaleUp n (e - q) / scaleUp d (q - e) + 1 else scaleUp n (e - q) / scaleUp d (q - e) := by
  cases r <;> rfl

/-- An exact quotient never goes up. -/
theorem Rnd.rem_pos_of_goesUp {r : Rnd} {neg : Bool} {i rem den : Nat} (hd : 0 < den) (h : r.goesUp neg i rem den = true) :
    0 < rem := by
  cases r <;> simp [Rnd.goesUp] at h <;> omega

/-- The neighbour that a direction chooses of num over den (R68). -/
theorem goesUp_nearest (r : Rnd) (neg : Bool) (num den : Nat) (hd : 0 < den) :
    let i := if r.goesUp neg (num / den) (num % den) den then num / den + 1 else num / den
    (i * den ≤ num → num < (i + 1) * den) ∧ (num < i * den → (i - 1) * den < num)
    ∧ (r = .rtz → i * den ≤ num) ∧ (r = .rdn → if neg then num ≤ i * den else i * den ≤ num)
    ∧ (r = .rup → if neg then i * den ≤ num else num ≤ i * den)
    ∧ (r = .rne → 2 * (i * den) ≤ 2 * num + den ∧ 2 * num ≤ 2 * (i * den) + den
        ∧ (2 * (i * den) = 2 * num + den ∨ 2 * num = 2 * (i * den) + den → i % 2 = 0)) := by
  have hnum : num / den * den + num % den = num := Nat.div_add_mod' num den
  have hrem : num % den < den := Nat.mod_lt num hd
  intro i
  by_cases hup : r.goesUp neg (num / den) (num % den) den = true
  · have hi : i = num / den + 1 := if_pos hup
    have hpos := Rnd.rem_pos_of_goesUp hd hup
    rw [hi, Nat.succ_mul, Nat.succ_mul, Nat.add_sub_cancel]
    refine ⟨fun h => by omega, fun _ => by omega, ?_, ?_, ?_, ?_⟩
    · rintro rfl; cases hup
    · rintro rfl; simp [Rnd.goesUp] at hup; rw [if_pos hup.1]; omega
    · rintro rfl; simp [Rnd.goesUp] at hup; rw [if_neg (by simp [hup.1])]; omega
    · rintro rfl; simp [Rnd.goesUp] at hup; omega
  · have hi : i = num / den := if_neg hup
    rw [hi, Nat.succ_mul]
    refine ⟨fun _ => by omega, fun h => by omega, fun _ => by omega, ?_, ?_, ?_⟩
    · rintro rfl; cases neg <;> simp [Rnd.goesUp] at hup ⊢ <;> omega
    · rintro rfl; cases neg <;> simp [Rnd.goesUp] at hup ⊢ <;> omega
    · rintro rfl; simp [Rnd.goesUp] at hup; omega

theorem roundUnits_same (r : Rnd) (neg : Bool) (n : Nat) (e : Int) : roundUnits r neg n 1 e e = n := by
  rw [roundUnits_eq]
  simp only [Int.sub_self, scaleUp_zero, Nat.div_one, Nat.mod_one]
  exact if_neg fun h => absurd (Rnd.rem_pos_of_goesUp Nat.one_pos h) (lt_irrefl 0)

/-! The fields of an encoding (R53, R54). -/

theorem eq_signBit_add_mod {f : Fmt} {a : Nat} (ha : a < 2 ^ f.width) :
    a = signBit f (f.hasSign && a.testBit (f.ew + f.mw)) + a % 2 ^ (f.ew + f.mw) := by
  have hdiv : a = 2 ^ (f.ew + f.mw) * (a / 2 ^ (f.ew + f.mw)) + a % 2 ^ (f.ew + f.mw) := (Nat.div_add_mod a _).symm
  have hw : a / 2 ^ (f.ew + f.mw) < 2 ^ (if f.hasSign then 1 else 0) :=
    Nat.div_lt_of_lt_mul (by rw [← pow_add]; exact ha)
  unfold signBit
  rw [Nat.testBit_eq_decide_div_mod_eq]
  generalize a / 2 ^ (f.ew + f.mw) = top at hdiv hw
  cases hs : f.hasSign with
  | false =>
    obtain rfl : top = 0 := by simpa [hs] using hw
    simpa using hdiv
  | true =>
    have htop : top = 0 ∨ top = 1 := by simp only [hs, if_true] at hw; omega
    rcases htop with rfl | rfl <;> simpa [Nat.add_comm] using hdiv

theorem mod_eq_exponent_mantissa (f : Fmt) (a : Nat) :
    a % 2 ^ (f.ew + f.mw) = (a >>> f.mw) % 2 ^ f.ew * 2 ^ f.mw + a % 2 ^ f.mw := by
  rw [Nat.add_comm f.ew, pow_add, Nat.mod_mul, Nat.shiftRight_eq_div_pow]
  ring

theorem maxFinite_of_hasInf {f : Fmt} (h : f.hasInf = true) : maxFinite f + 1 = (2 ^ f.ew - 1) * 2 ^ f.mw := by
  cases f
  case e4m3 => cases h
  case e2m1 => cases h
  case e3m5 => cases h
  all_goals decide

theorem maxFinite_of_not_hasInf {f : Fmt} (h : f.hasInf = false) (hf : f ≠ .e4m3) : maxFinite f + 1 = 2 ^ (f.ew + f.mw) := by
  cases f
  case e2m1 => decide
  case e3m5 => decide
  case e4m3 => exact absurd rfl hf
  all_goals cases h

/-- What is neither an infinity nor a NaN is at most the largest magnitude. -/
theorem le_maxFinite {f : Fmt} {x y : Nat} (hx : x < 2 ^ f.mw) (hy : y < 2 ^ f.ew) (hinf : ¬ (f.hasInf = true ∧ y = 2 ^ f.ew - 1))
    (hnan : ¬ (f = .e4m3 ∧ y = 15 ∧ x = 7)) : y * 2 ^ f.mw + x ≤ maxFinite f := by
  cases hf : f.hasInf with
  | true =>
    have hmax := maxFinite_of_hasInf hf
    have hne : y ≠ 2 ^ f.ew - 1 := fun h => hinf ⟨hf, h⟩
    have hle : (y + 1) * 2 ^ f.mw ≤ (2 ^ f.ew - 1) * 2 ^ f.mw := Nat.mul_le_mul_right _ (by omega)
    rw [Nat.succ_mul] at hle
    omega
  | false =>
    by_cases h4 : f = .e4m3
    · subst h4
      have hne : ¬ (y = 15 ∧ x = 7) := fun h => hnan ⟨rfl, h⟩
      change x < 2 ^ 3 at hx
      change y < 2 ^ 4 at hy
      change y * 2 ^ 3 + x ≤ 0x7E
      omega
    · have hmax := maxFinite_of_not_hasInf hf h4
      have hle : (y + 1) * 2 ^ f.mw ≤ 2 ^ f.ew * 2 ^ f.mw := Nat.mul_le_mul_right _ hy
      rw [Nat.succ_mul, ← pow_add] at hle
      omega

/-- The encoding of a finite value: its sign, at most the largest magnitude, and either a subnormal one, with exponent field 0,
or a normal one (R53, R55). -/
theorem decodeF_eq_fin {f : Fmt} {a m : Nat} {neg : Bool} {e : Int} (h : decodeF f a = .fin neg m e) :
    neg = (f.hasSign && a.testBit (f.ew + f.mw)) ∧ (a >>> f.mw) % 2 ^ f.ew * 2 ^ f.mw + a % 2 ^ f.mw ≤ maxFinite f
    ∧ (((a >>> f.mw) % 2 ^ f.ew = 0 ∧ m = a % 2 ^ f.mw ∧ e = f.qmin)
      ∨ (0 < (a >>> f.mw) % 2 ^ f.ew ∧ m = a % 2 ^ f.mw + 2 ^ f.mw
        ∧ e = ((a >>> f.mw) % 2 ^ f.ew : Nat) - (f.bias : Int) - f.mw)) := by
  have hx : a % 2 ^ f.mw < 2 ^ f.mw := Nat.mod_lt _ (Nat.two_pow_pos _)
  have hy : (a >>> f.mw) % 2 ^ f.ew < 2 ^ f.ew := Nat.mod_lt _ (Nat.two_pow_pos _)
  unfold decodeF at h
  dsimp only at h
  split at h
  · split at h <;> cases h
  next hinf =>
  split at h
  · cases h
  next hnan =>
  have hmax := le_maxFinite hx hy (by simpa using hinf) (by simpa [and_assoc] using hnan)
  split at h
  next h0 =>
    obtain ⟨rfl, rfl, rfl⟩ := FVal.fin.inj h
    exact ⟨rfl, hmax, .inl ⟨h0, rfl, rfl⟩⟩
  next h0 =>
    obtain ⟨rfl, rfl, rfl⟩ := FVal.fin.inj h
    exact ⟨rfl, hmax, .inr ⟨Nat.pos_of_ne_zero h0, rfl, rfl⟩⟩

/-! Finite encodings round to themselves. -/

theorem leading_one {m : Nat} (hm : m ≠ 0) (e : Int) : leading m 1 e = (m.log2 : Int) + e := by
  have hle : scaleUp 1 (m.log2 : Int) ≤ scaleUp m (-(m.log2 : Int)) := by
    simpa [scaleUp] using Nat.log2_self_le hm
  simp [leading, show Nat.log2 1 = 0 from rfl, hle]

theorem roundTo_zero (f : Fmt) (r : Rnd) (sat neg : Bool) (d : Nat) (e : Int) :
    roundTo f r sat neg 0 d e = (signBit f neg, .clear) := if_pos rfl

theorem roundTo_subnormal {f : Fmt} {m : Nat} (r : Rnd) (sat neg : Bool) (hm : m ≠ 0) (hlt : m < 2 ^ f.mw) :
    roundTo f r sat neg m 1 f.qmin = (signBit f neg + m, .clear) := by
  have hlog : m.log2 < f.mw := (Nat.log2_lt hm).2 hlt
  have hq : max (leading m 1 f.qmin - f.mw) f.qmin = f.qmin := by rw [leading_one hm]; omega
  have hne : m ≠ 2 ^ (f.mw + 1) := by rw [pow_succ]; omega
  unfold roundTo
  simp only [if_neg hm, hq, roundUnits_same, if_neg hne, if_pos hlt]

theorem roundTo_normal {f : Fmt} {x y : Nat} (r : Rnd) (sat neg : Bool) (hx : x < 2 ^ f.mw) (hy : 0 < y)
    (hmax : y * 2 ^ f.mw + x ≤ maxFinite f) :
    roundTo f r sat neg (x + 2 ^ f.mw) 1 ((y : Int) - f.bias - f.mw) = (signBit f neg + (y * 2 ^ f.mw + x), .clear) := by
  have hm : x + 2 ^ f.mw ≠ 0 := by have := Nat.two_pow_pos f.mw; omega
  have hlog : (x + 2 ^ f.mw).log2 = f.mw := (Nat.log2_eq_iff hm).2 ⟨by omega, by rw [pow_succ]; omega⟩
  have hq : max (leading (x + 2 ^ f.mw) 1 ((y : Int) - f.bias - f.mw) - f.mw) f.qmin = (y : Int) - f.bias - f.mw := by
    rw [leading_one hm, hlog]; unfold Fmt.qmin; omega
  have hne : x + 2 ^ f.mw ≠ 2 ^ (f.mw + 1) := by rw [pow_succ]; omega
  have hge : ¬ x + 2 ^ f.mw < 2 ^ f.mw := by omega
  have hex : ((y : Int) - f.bias - f.mw + f.bias + f.mw).toNat = y := by omega
  unfold roundTo
  simp only [if_neg hm, hq, roundUnits_same, if_neg hne, if_neg hge, hex, Nat.add_sub_cancel, if_neg (Nat.not_lt.2 hmax)]

theorem roundTo_decodeF {f : Fmt} {a m : Nat} {neg : Bool} {e : Int} (r : Rnd) (sat : Bool) (ha : a < 2 ^ f.width)
    (h : decodeF f a = .fin neg m e) : roundTo f r sat neg m 1 e = (a, .clear) := by
  obtain ⟨hneg, hmax, hval⟩ := decodeF_eq_fin h
  have hcode := eq_signBit_add_mod ha
  rw [← hneg, mod_eq_exponent_mantissa] at hcode
  have hlt : a % 2 ^ f.mw < 2 ^ f.mw := Nat.mod_lt _ (Nat.two_pow_pos _)
  rcases hval with ⟨hy, rfl, rfl⟩ | ⟨hy, rfl, rfl⟩
  · rw [hy, Nat.zero_mul, Nat.zero_add] at hcode
    by_cases hm : a % 2 ^ f.mw = 0
    · rw [hm, Nat.add_zero] at hcode
      rw [hm, roundTo_zero, ← hcode]
    · rw [roundTo_subnormal r sat neg hm hlt, ← hcode]
  · rw [roundTo_normal r sat neg hlt hy hmax, ← hcode]

end Sys2Proof.Machine

namespace Sys2Proof
open Machine

/-- Settles O21: the quotient's remainder decides between its two neighbours, and a finite encoding is its own count of units in
the last place, of the subnormals or of its exponent. -/
theorem roundingDirections : Obligations.RoundingDirections := by
  unfold Obligations.RoundingDirections
  refine ⟨?neighbour, ?exact⟩
  case neighbour =>
    intro r neg n d e q hd
    dsimp only
    rw [roundUnits_eq]
    exact goesUp_nearest r neg _ _ (scaleUp_pos hd _)
  case exact => exact fun f r sat a neg m e ha h => roundTo_decodeF r sat ha h

end Sys2Proof
end

section
/-! PROOF. O44 fails where CVTS decodes an inline constant. R36 reads the source by modA, so that the constant stands as a value of
the destination's type, and the element is taken from its bits; the statement takes the element from the constant as a value of
the slot's own type, for which R36 has no inline constants.
-/

namespace Sys2Proof.Machine

/-! A group that decodes element 0 of the constant 1, as f32, through a slot of E4M3 elements without scales: a word that LX takes
(R48, R151). -/

/-- CVTS.dec of the constant 1 to v8, at row 0 and position 0 of a row of one element. -/
def constWord : LaneWord :=
  { ty := 0x11, dst := 8, cap := 0, nw := 0, a := 0x1A1, b := 0x1A0, c := 0x1A0, d := 0x1A1, g1 := 7, g2 := 7, slot := 0, hint := 0,
    sched := 0, modB := 0 }

def constEntry : LiqEntry := { fetchEntry 0 with ins := some (.cvts constWord), bad := none }

def constGroup : Group := { fetchGroup 0 1 with qs := { Queues.empty with liq := [constEntry] } }

/-- What the slots of its kernel describe: E4M3 elements (R62). -/
def constSlot : SlotDesc := SlotDesc.of 4

def constRecord : LaunchRec := { fetchRecord with slots := List.replicate 8 4 }

def constModule : Mach :=
  { State.reset.m with cur := 2, groups := [(2, constGroup)], kerns := [(0, { fetchKernel with lrec := constRecord })] }

def constState : State := { State.reset with m := constModule }

def constIn : LaneIn := laneIn constModule constGroup constEntry (.cvts constWord) constWord

theorem wf_const : (Instr.cvts constWord).wf = true := by decide +kernel

theorem issues_const : Issues constState 2 constGroup constEntry (.cvts constWord) :=
  ⟨⟨rfl, rfl⟩, rfl, rfl, by decide +kernel, by decide⟩

theorem readsPass_const : ReadsPass (.cvts constWord) constGroup constIn.lanes := by
  unfold ReadsPass
  decide +kernel

theorem effective_const : effective constGroup constEntry constWord 0 := ⟨by decide, by decide, by decide +kernel, by decide +kernel⟩

theorem scaleReads_eq_nil {d : SlotDesc} (hblk : d.blk = 0) (hband : d.band = false) (x : LaneIn) (base l : Nat) :
    scaleReads x d base l = [] := by
  unfold scaleReads
  rw [hblk, hband]
  exact ite_self _

theorem checkScales_const :
    checkScales constGroup (constIn.lanes.flatMap (scaleReads constIn constSlot 0)) constModule = (constModule, [], []) := by
  have hnone : constIn.lanes.flatMap (scaleReads constIn constSlot 0) = [] :=
    List.flatMap_eq_nil_iff.2 fun l _ => scaleReads_eq_nil (by decide) (by decide) constIn 0 l
  rw [hnone]
  rfl

/-- What the first lane holds in v8 after an outcome. -/
def firstLane (o : Host.Outcome State Fault Refusal) : Option Nat :=
  ((after? o).bind fun t => t.m.grp? 2).map fun g => (g.vreg 8 0).toNat

theorem firstLane_of_leavesIn {m : Mach} {g g1 : Group} {e : LiqEntry} {i : Instr} {w : LaneWord} {more : Group → Prop} {s : State}
    (h : LaneLeavesIn i w s 2 m g e g1 more) : firstLane (exec i s) = some (g1.vreg 8 0).toNat := by
  obtain ⟨g', fr, hex, ⟨hg', -⟩, -⟩ := h
  have hread : firstLane (exec i s) = some (g'.vreg 8 0).toNat := by
    rw [hex]
    exact congrArg (Option.map fun g => (g.vreg 8 0).toNat) (setGrp_grp? m 2 g')
  rw [hread, hg']
  rfl

/-- The model: byte 0 of 1.0 as f32 is the E4M3 element 0x00, which is +0. -/
theorem firstLane_exec_const : firstLane (exec (.cvts constWord) constState) = some 0 := by decide +kernel

/-- The statement: byte 0 of 1.0 as E4M3 in every element is 0x38, which is 1. -/
theorem claimed_const : (deliver .fp32 .rne false (scaledValue (decodeF .e4m3 (elem 8 (constIn.a .e4m3x4 0) 0))
    (.fin false 1 0) (.fin false 1 0)).1).1 % 2 ^ 32 = 0x3F800000 := by decide +kernel

end Sys2Proof.Machine

namespace Sys2Proof
open Machine

/-- Refutes O44: of the constant 1 as f32, CVTS decodes element 0 to +0, where the statement claims 1. -/
theorem not_accumulatorsAndScales : ¬ Obligations.AccumulatorsAndScales := by
  unfold Obligations.AccumulatorsAndScales
  intro claim
  have hcvts := (claim constState 2 constGroup constEntry constWord).2 wf_const issues_const readsPass_const constRecord rfl
  obtain ⟨-, -, hperform⟩ := hcvts constModule [] [] checkScales_const
  obtain ⟨m2, g1, -, hleaves, -, -, -, hvalue⟩ := hperform rfl (.inl rfl)
  obtain ⟨-, hinside⟩ := hvalue 0 effective_const (by decide)
  obtain ⟨blk, band, hblk, hband, -, -, hdecode, -⟩ := hinside (by decide +kernel)
  have hnew := hdecode (by decide)
  rw [hblk rfl, hband rfl] at hnew
  have hzero := (firstLane_of_leavesIn hleaves).symm.trans firstLane_exec_const
  have hone : (g1.vreg 8 0).toNat = 0x3F800000 := hnew.trans claimed_const
  rw [hone] at hzero
  exact absurd hzero (by decide)

end Sys2Proof
end

section
/-! PROOF. The queue moves and the masks: O8. An instruction that moves a queue entry completes, waits, or takes the queue
deadlock by the one test of R89, and a mask instruction completes or traps by the one test of R92.
-/

namespace Sys2Proof.Machine

section
variable {m : Mach} {s : State} {i : Instr} {gid : Nat} {g g1 : Group} {code : Dword}

/-- A scalar instruction that completes, and is followed by the next one, leaves its group so. -/
theorem leaves_retire (h : Here s gid g) (hi : exec i s = .next { s with m := retire s.m gid g1 code }) (hpc : g1.spc = g.spc)
    (hr : g1.rgn = g.rgn) (hl : g1.log = g.log) (ht : g1.team = g.team) : Leaves i s gid g1 (g.spc + 4) code :=
  leaves_finish h i g1 _ code (by rw [hi, retire, hpc]) hr hl ht

/-! Waiting, or the queue deadlock (R81, R89). -/

theorem waitFor_eq (why : WaitWhy) : waitFor m gid g why = m.setGrp gid (heldGroup g why) := by
  unfold waitFor heldGroup Group.isTrapped
  cases g.st <;> rfl

theorem wait_eq : wait m gid g = m.setGrp gid (heldGroup g .retry) := waitFor_eq .retry

theorem queued_iff {moves : Instr → Nat} :
    g.queued moves = true ↔ ∃ e ∈ g.qs.liq, e.bad = none ∧ ∃ i, e.ins = some i ∧ 0 < moves i := by
  unfold Group.queued
  simp only [List.any_eq_true, Bool.and_eq_true, Option.isNone_iff_eq_none]
  refine exists_congr fun e => and_congr_right fun _ => and_congr_right fun _ => ?_
  cases e.ins <;> simp

/-- An instruction that finds no entry or slot waits while a queued lane instruction moves the queue. -/
theorem waits_of_queued {dlq : Nat} {moves : Instr → Nat} (hi : exec i s = .next { s with m := popWait s.m gid g dlq moves })
    (hq : ∃ e ∈ g.qs.liq, e.bad = none ∧ ∃ j, e.ins = some j ∧ 0 < moves j) : Waits i s gid g := by
  rw [Waits, hi, popWait, if_pos (queued_iff.2 hq), wait_eq]

/-- It takes the queue deadlock where none does. -/
theorem deadlocks_of_not_queued {dlq : Nat} {moves : Instr → Nat}
    (hi : exec i s = .next { s with m := popWait s.m gid g dlq moves })
    (hq : ¬ ∃ e ∈ g.qs.liq, e.bad = none ∧ ∃ j, e.ins = some j ∧ 0 < moves j) :
    exec i s = .next { s with m := queueDeadlock s.m gid g dlq g.spc 0 } := by
  rw [hi, popWait, if_neg fun h => hq (queued_iff.1 h)]

/-! SQ.PUSH, LQ.POP and FQ.POP (R87). -/

theorem exec_sqPush_of_room (h : Here s gid g) (hroom : g.sqUsed < 8) (sa : Sreg) : exec (.sqPush sa) s = .next { s with
    m := retire s.m gid { g with qs := { g.qs with sq := g.qs.sq ++ [(g.s sa).truncate 32] } } (scalarCode 0x20 0) } := by
  refine (groupStep_next h _).trans ?_
  rw [if_pos hroom]

theorem exec_sqPush_of_held (h : Here s gid g) (hfull : 8 ≤ g.sqUsed) (hsq : g.qs.sq.length < 8) (sa : Sreg) :
    exec (.sqPush sa) s = .next { s with m := wait s.m gid g } := by
  refine (groupStep_next h _).trans ?_
  rw [if_neg hfull.not_gt, if_pos hsq]

theorem exec_sqPush_of_full (h : Here s gid g) (hsq : 8 ≤ g.qs.sq.length) (sa : Sreg) :
    exec (.sqPush sa) s = .next { s with m := popWait s.m gid g 0 sqNeeds } := by
  have hused : 8 ≤ g.sqUsed := hsq.trans (Nat.le_add_right _ _)
  refine (groupStep_next h _).trans ?_
  rw [if_neg hused.not_gt, if_neg hsq.not_gt]

theorem exec_lqPop_cons (h : Here s gid g) {x : Word} {rest : List Word} (hlq : g.qs.lq = x :: rest) (sd : Sreg) :
    exec (.lqPop sd) s = .next { s with
      m := retire s.m gid ({ g with qs := { g.qs with lq := rest } }.setS sd (x.zeroExtend 64)) (scalarCode 0x20 1) } := by
  refine (groupStep_next h _).trans ?_
  simp only [hlq, Group.popLq, List.drop_one, List.tail_cons]

theorem exec_lqPop_nil (h : Here s gid g) (hlq : g.qs.lq = []) (sd : Sreg) :
    exec (.lqPop sd) s = .next { s with m := popWait s.m gid g 1 fun i => lqPushes i g.beats } := by
  refine (groupStep_next h _).trans ?_
  simp only [hlq]

theorem exec_fqPop_cons (h : Here s gid g) {x : BitVec 2} {rest : List (BitVec 2)} (hfq : g.qs.fq = x :: rest) (sd : Sreg) :
    exec (.fqPop sd) s = .next { s with
      m := retire s.m gid ({ g with qs := { g.qs with fq := rest } }.setS sd (x.zeroExtend 64)) (scalarCode 0x20 2) } := by
  refine (groupStep_next h _).trans ?_
  simp only [hfq, Group.popFq, List.drop_one, List.tail_cons]

theorem exec_fqPop_nil (h : Here s gid g) (hfq : g.qs.fq = []) (sd : Sreg) :
    exec (.fqPop sd) s = .next { s with m := popWait s.m gid g 2 fqPushes } := by
  refine (groupStep_next h _).trans ?_
  simp only [hfq]

/-! MSPLIT and MJOIN (R92). -/

theorem exec_msplit (sd sa : Sreg) : exec (.msplit sd sa) s = maskStep s sd 0 fun g => g.s sd &&& g.s sa := rfl

theorem exec_mjoin (sd sa : Sreg) : exec (.mjoin sd sa) s = maskStep s sd 1 fun g => g.s sd ||| g.s sa := rfl

theorem namesMask_iff {sd : Sreg} : g.namesMask sd = true ↔ 61 ≤ sd.toNat ∧ sd.toNat - 61 < g.width / 32 := by
  rw [Group.namesMask, Bool.and_eq_true, decide_eq_true_iff, decide_eq_true_iff]
  rfl

/-- A mask instruction that names a beat's mask writes it and folds its own code and then its marker. -/
theorem leaves_maskStep (h : Here s gid g) {sd : Sreg} {func : Nat} {f : Group → Dword} (hi : exec i s = maskStep s sd func f)
    {marker : Dword} (hm : BitVec.ofNat 64 (0x30001 + func) = marker) (hn : g.namesMask sd = true) :
    Leaves i s gid ((g.setS sd (f g)).fold (scalarCode 0x21 func)) (g.spc + 4) marker := by
  subst hm
  refine leaves_retire h ?_ (by simp) (by simp) (by simp) (by simp)
  rw [hi, maskStep, groupStep_next h, if_pos hn]

/-- One that names none is illegal. -/
theorem traps_maskStep (h : Here s gid g) {sd : Sreg} {func : Nat} {f : Group → Dword} (hi : exec i s = maskStep s sd func f)
    (hn : ¬ g.namesMask sd = true) : Traps i s gid .illegal := by
  rw [Traps, hi, maskStep, groupStep_next h, if_neg hn]

end

end Sys2Proof.Machine

namespace Sys2Proof
open Machine

/-- Settles O8: each instruction by what it finds in its queue, and each mask instruction by what sd names. -/
theorem queueAndMaskMoves : Obligations.QueueAndMaskMoves := by
  unfold Obligations.QueueAndMaskMoves
  constructor
  case left =>
    intro s gid g h
    dsimp only
    refine ⟨fun sa => ⟨fun hroom => ?_, fun hfull hwait => ?_, fun hsq hq => ?_⟩, fun sd x rest hlq => ?_, fun sd x rest hfq => ?_,
      fun sd => ⟨fun hlq hq => ?_, fun hlq hq => ?_, fun hfq hq => ?_, fun hfq hq => ?_⟩⟩
    · exact leaves_retire h (exec_sqPush_of_room h hroom sa) rfl rfl rfl rfl
    · rcases Nat.lt_or_ge g.qs.sq.length 8 with hsq | hsq
      · rw [Waits, exec_sqPush_of_held h hfull hsq, wait_eq]
      · exact waits_of_queued (exec_sqPush_of_full h hsq sa) (hwait.resolve_left hsq.not_gt)
    · exact deadlocks_of_not_queued (exec_sqPush_of_full h hsq sa) hq
    · exact leaves_retire h (exec_lqPop_cons h hlq sd) (by simp) (by simp) (by simp) (by simp)
    · exact leaves_retire h (exec_fqPop_cons h hfq sd) (by simp) (by simp) (by simp) (by simp)
    · exact waits_of_queued (exec_lqPop_nil h hlq sd) hq
    · exact deadlocks_of_not_queued (exec_lqPop_nil h hlq sd) hq
    · exact waits_of_queued (exec_fqPop_nil h hfq sd) hq
    · exact deadlocks_of_not_queued (exec_fqPop_nil h hfq sd) hq
  case right =>
    intro s gid g sd sa h
    refine ⟨fun hn => ⟨?_, ?_⟩, fun hn => ⟨?_, ?_⟩⟩
    · exact leaves_maskStep h (exec_msplit sd sa) rfl (namesMask_iff.2 hn)
    · exact leaves_maskStep h (exec_mjoin sd sa) rfl (namesMask_iff.2 hn)
    · exact traps_maskStep h (exec_msplit sd sa) (mt namesMask_iff.1 hn)
    · exact traps_maskStep h (exec_mjoin sd sa) (mt namesMask_iff.1 hn)

end Sys2Proof
end

section
/-! PROOF. Keyed collections whose keys rise: an entry that is listed is the one that a read finds, and a removal takes just it.
-/

namespace Sys2Proof.Machine

section
variable {α : Type} {m : AMap α}

theorem aget_of_mem {k : Nat} {v : α} (h : amapWf m = true) (hm : (k, v) ∈ m) : aget m k = some v := by
  induction m with
  | nil => cases hm
  | cons x r ih =>
    obtain ⟨k', v'⟩ := x
    rcases List.mem_cons.1 hm with heq | hr
    · cases heq
      exact if_pos rfl
    · rw [aget, if_neg (amapWf_lt r k' v' h _ hr).ne, ih (amapWf_tail h) hr]

theorem eq_of_mem_of_key_eq {x y : Nat × α} (h : amapWf m = true) (hx : x ∈ m) (hy : y ∈ m) (hk : x.1 = y.1) : x = y :=
  Prod.ext hk (Option.some_inj.1 ((aget_of_mem h hx).symm.trans (hk ▸ aget_of_mem h hy)))

theorem length_adel {x : Nat × α} (h : amapWf m = true) (hx : x ∈ m) : (adel m x.1).length + 1 = m.length := by
  induction m with
  | nil => cases hx
  | cons y r ih =>
    have hlt := amapWf_lt r y.1 y.2 h
    rcases List.mem_cons.1 hx with rfl | hr
    · have hrest : r.filter (fun e => e.1 != x.1) = r :=
        List.filter_eq_self.2 fun e he => bne_iff_ne.2 (hlt e he).ne'
      simp [adel, hrest]
    · have hne : (y.1 != x.1) = true := bne_iff_ne.2 (hlt x hr).ne
      have htail := ih (amapWf_tail h) hr
      simp only [adel] at htail ⊢
      have hcons : (y :: r).filter (fun e => e.1 != x.1) = y :: r.filter fun e => e.1 != x.1 := List.filter_cons_of_pos hne
      rw [hcons, List.length_cons, List.length_cons, htail]

theorem mem_adel {x : Nat × α} {k : Nat} : x ∈ adel m k ↔ x ∈ m ∧ x.1 ≠ k := by simp [adel]

/-- A key is listed, or nothing is found at it. -/
theorem mem_keys_or_aget_eq_none (m : AMap α) (k : Nat) : k ∈ m.map Prod.fst ∨ aget m k = none := by
  cases h : aget m k with
  | none => exact .inr rfl
  | some v => exact .inl (List.mem_map_of_mem (mem_of_aget h))

end

end Sys2Proof.Machine
end

section
/-! PROOF. The batches of counts (R301, R302): what a count unit, an aggregator and a flush of all of them leave, and the totals
at the root.
-/

namespace Sys2Proof.Machine

theorem cluster_setCluster (m : Mach) (k j : Nat) (x : Cluster) :
    (m.setCluster k x).cluster j = if j = k then x else m.cluster j := by
  unfold Mach.cluster Mach.setCluster
  rw [aget_aput]
  split <;> rfl

theorem die_setDie (m : Mach) (k j : Nat) (x : Die) : (m.setDie k x).die j = if j = k then x else m.die j := by
  unfold Mach.die Mach.setDie
  rw [aget_aput]
  split <;> rfl

/-! The totals of a list of counts. -/

/-- The sum of what a list holds for a pair of a context (R298). -/
def countTotal (l : List Count) (x n : Nat) (t : Dword) : Int :=
  ((l.filter fun c => c.ctx = x && c.node = n && c.stamp = t).map Count.n).sum

theorem countTotal_cons (c : Count) (l : List Count) (x n : Nat) (t : Dword) :
    countTotal (c :: l) x n t = (if c.ctx = x ∧ c.node = n ∧ c.stamp = t then c.n else 0) + countTotal l x n t := by
  unfold countTotal
  by_cases h : c.ctx = x ∧ c.node = n ∧ c.stamp = t
  · rw [List.filter_cons_of_pos (by simpa [and_assoc] using h), if_pos h, List.map_cons, List.sum_cons]
  · rw [List.filter_cons_of_neg (by simpa [and_assoc] using h), if_neg h, zero_add]

/-- A changed count changes the total of its own pair, and no other: a count that comes to zero is worth what it was when it is
no longer listed. -/
theorem countTotal_addCount (l : List Count) (x' n' : Nat) (t' : Dword) (k : Int) (x n : Nat) (t : Dword) :
    countTotal (addCount l x' n' t' k) x n t = countTotal l x n t + if x' = x ∧ n' = n ∧ t' = t then k else 0 := by
  induction l with
  | nil =>
    unfold addCount
    split
    · next hk => simp [hk]
    · rw [countTotal_cons]
      simp [countTotal]
  | cons c r ih =>
    unfold addCount
    split
    · next hc =>
      simp only [Bool.and_eq_true, decide_eq_true_eq] at hc
      obtain ⟨⟨rfl, rfl⟩, rfl⟩ := hc
      split
      · next hzero =>
        rw [countTotal_cons]
        split <;> omega
      · simp only [countTotal_cons]
        split <;> omega
    · rw [countTotal_cons, countTotal_cons, ih, add_assoc]

theorem countTotal_applyDeltas (ds : List Count) (root : List Count) (x n : Nat) (t : Dword) :
    countTotal (applyDeltas root ds) x n t = countTotal root x n t + countTotal ds x n t := by
  induction ds generalizing root with
  | nil => simp [applyDeltas, countTotal]
  | cons d ds ih =>
    have hstep : applyDeltas root (d :: ds) = applyDeltas (addCount root d.ctx d.node d.stamp d.n) ds := rfl
    rw [hstep, ih, countTotal_addCount, countTotal_cons, add_assoc]

/-! The root (R301, R377). -/

theorem progress_eq (m : Mach) (ctx : Nat) : ∃ cs, progress m ctx = { m with ctxs := cs }
    ∧ ∀ x, aget cs x = (aget m.ctxs x).map fun c => { c with npCount := if ctx = x then 0 else c.npCount } := by
  unfold progress
  cases h : aget m.ctxs ctx with
  | none =>
    refine ⟨m.ctxs, rfl, fun x => ?_⟩
    by_cases hx : ctx = x
    · rw [← hx, h]
      rfl
    · simp [hx]
  | some c =>
    refine ⟨aput m.ctxs ctx { c with npCount := 0 }, rfl, fun x => ?_⟩
    rw [aget_aput]
    by_cases hx : x = ctx
    · simp [hx, h]
    · simp [hx, Ne.symm hx]

theorem foldl_progress_eq (ds : List Count) (m : Mach) : ∃ cs, ds.foldl (fun m d => progress m d.ctx) m = { m with ctxs := cs }
    ∧ ∀ x, aget cs x = (aget m.ctxs x).map fun c => { c with npCount := if ∃ d ∈ ds, d.ctx = x then 0 else c.npCount } := by
  induction ds generalizing m with
  | nil => exact ⟨m.ctxs, rfl, fun x => by simp⟩
  | cons d ds ih =>
    obtain ⟨cs1, heq1, hget1⟩ := progress_eq m d.ctx
    obtain ⟨cs, heq, hget⟩ := ih { m with ctxs := cs1 }
    refine ⟨cs, by rw [List.foldl_cons, heq1, heq], fun x => ?_⟩
    rw [hget, hget1, Option.map_map]
    congr 1
    funext c
    by_cases h1 : d.ctx = x <;> by_cases h2 : ∃ d ∈ ds, d.ctx = x <;> simp [h1, h2]

/-- An aggregator's batch is applied at the root; the watchdogs of the contexts that it drops a count of restart. -/
theorem sendDie_eq (m : Mach) (die : Nat) : ∃ cs, sendDie m die = { m with
      dies := aput m.dies die { m.die die with deltas := [] }, root := applyDeltas m.root (m.die die).deltas, ctxs := cs }
    ∧ ∀ x, aget cs x = (aget m.ctxs x).map fun c =>
        { c with npCount := if ∃ d ∈ (m.die die).deltas, d.ctx = x ∧ d.n < 0 then 0 else c.npCount } := by
  obtain ⟨cs, heq, hget⟩ := foldl_progress_eq ((m.die die).deltas.filter fun d => d.n < 0)
    { m.setDie die { m.die die with deltas := [] } with root := applyDeltas m.root (m.die die).deltas }
  have hdrops : ∀ x, (∃ d ∈ (m.die die).deltas.filter fun d => d.n < 0, d.ctx = x)
      ↔ ∃ d ∈ (m.die die).deltas, d.ctx = x ∧ d.n < 0 := by
    intro x
    simp only [List.mem_filter, decide_eq_true_eq, and_assoc, and_comm]
  refine ⟨cs, heq, fun x => (hget x).trans (congrArg (Option.map · (aget m.ctxs x)) (funext fun c => ?_))⟩
  congr 1
  exact if_congr (hdrops x) rfl rfl

theorem die_sendDie (m : Mach) (die d : Nat) :
    (sendDie m die).die d = if d = die then { m.die die with deltas := [] } else m.die d := by
  obtain ⟨cs, heq, -⟩ := sendDie_eq m die
  rw [heq]
  exact die_setDie m die d _

theorem clusters_sendDie (m : Mach) (die : Nat) : (sendDie m die).clusters = m.clusters := by
  obtain ⟨cs, heq, -⟩ := sendDie_eq m die
  rw [heq]

theorem cluster_sendUnit (m : Mach) (unit k : Nat) :
    (sendUnit m unit).cluster k = if k = unit then { m.cluster unit with deltas := [] } else m.cluster k :=
  cluster_setCluster m unit k _

theorem die_sendUnit (m : Mach) (unit d : Nat) : (sendUnit m unit).die d =
    if d = unit / 16 then { m.die (unit / 16) with deltas := (m.die (unit / 16)).deltas ++ (m.cluster unit).deltas } else m.die d :=
  die_setDie (m.setCluster unit _) (unit / 16) d _

/-! Every batch sent (R303). -/

/-- Counts have moved towards the root: nothing else differs but the watchdogs of contexts, which may have restarted. -/
structure CountsMoved (m m' : Mach) : Prop where
  frame : m' = { m with clusters := m'.clusters, dies := m'.dies, root := m'.root, ctxs := m'.ctxs }
  ctx : ∀ x c, aget m.ctxs x = some c → ∃ n, aget m'.ctxs x = some { c with npCount := n }

theorem CountsMoved.refl (m : Mach) : CountsMoved m m := ⟨rfl, fun _ c h => ⟨c.npCount, h⟩⟩

theorem CountsMoved.trans {m1 m2 m3 : Mach} (h : CountsMoved m1 m2) (h' : CountsMoved m2 m3) : CountsMoved m1 m3 := by
  refine ⟨by rw [h'.frame, h.frame], fun x c hc => ?_⟩
  obtain ⟨n, hn⟩ := h.ctx x c hc
  obtain ⟨n', hn'⟩ := h'.ctx x _ hn
  exact ⟨n', hn'⟩

theorem CountsMoved.foldl {f : Mach → Nat → Mach} (hf : ∀ m k, CountsMoved m (f m k)) (ks : List Nat) (m : Mach) :
    CountsMoved m (ks.foldl f m) := by
  induction ks generalizing m with
  | nil => exact .refl m
  | cons k ks ih => exact (hf m k).trans (ih (f m k))

theorem countsMoved_sendUnit (m : Mach) (unit : Nat) : CountsMoved m (sendUnit m unit) := ⟨rfl, (CountsMoved.refl m).ctx⟩

theorem countsMoved_sendDie (m : Mach) (die : Nat) : CountsMoved m (sendDie m die) := by
  obtain ⟨cs, heq, hget⟩ := sendDie_eq m die
  rw [heq]
  exact ⟨rfl, fun x c hc => ⟨_, by rw [hget, hc]; rfl⟩⟩

theorem countsMoved_flushAll (m : Mach) : CountsMoved m (flushAll m) :=
  (CountsMoved.foldl countsMoved_sendUnit _ m).trans (CountsMoved.foldl countsMoved_sendDie _ _)

/-- Sending each of the places that are listed or hold a batch leaves none with a batch. -/
theorem deltas_foldl_eq_nil {f : Mach → Nat → Mach} {deltas : Mach → Nat → List Count}
    (hself : ∀ m k, deltas (f m k) k = []) (hne : ∀ m k j, j ≠ k → deltas m j = [] → deltas (f m k) j = [])
    (ks : List Nat) (m : Mach) (j : Nat) (h : j ∈ ks ∨ deltas m j = []) : deltas (ks.foldl f m) j = [] := by
  induction ks generalizing m with
  | nil => exact h.resolve_left List.not_mem_nil
  | cons k ks ih =>
    refine ih (f m k) ?_
    by_cases hj : j = k
    · exact .inr (hj ▸ hself m k)
    · exact h.imp (fun hm => (List.mem_cons.1 hm).resolve_left hj) (hne m k j hj)

theorem clusters_foldl_sendDie (ds : List Nat) (m : Mach) : (ds.foldl sendDie m).clusters = m.clusters := by
  induction ds generalizing m with
  | nil => rfl
  | cons d ds ih => rw [List.foldl_cons, ih, clusters_sendDie]

theorem cluster_deltas_flushAll (m : Mach) (k : Nat) : ((flushAll m).cluster k).deltas = [] := by
  have hunits : (((m.clusters.map Prod.fst).foldl sendUnit m).cluster k).deltas = [] := by
    refine deltas_foldl_eq_nil (deltas := fun m k => (m.cluster k).deltas) (fun m k => ?_) (fun m k j hj hd => ?_) _ m k ?_
    · simp only [cluster_sendUnit, if_true]
    · simpa only [cluster_sendUnit, if_neg hj] using hd
    · exact (mem_keys_or_aget_eq_none m.clusters k).imp_right fun h => by rw [Mach.cluster, h]; rfl
  unfold flushAll Mach.cluster
  rw [clusters_foldl_sendDie]
  exact hunits

theorem die_deltas_flushAll (m : Mach) (d : Nat) : ((flushAll m).die d).deltas = [] := by
  refine deltas_foldl_eq_nil (deltas := fun m d => (m.die d).deltas) (fun m k => ?_) (fun m k j hj hd => ?_) _ _ d ?_
  · simp only [die_sendDie, if_true]
  · simpa only [die_sendDie, if_neg hj] using hd
  · exact (mem_keys_or_aget_eq_none _ d).imp_right fun h => by rw [Mach.die, h]; rfl

end Sys2Proof.Machine
end

section
/-! PROOF. The events of counts and floors, the memory set and WAITA's rereading: O46. -/

namespace Sys2Proof.Machine

section
variable {s : State}

/-! Batches (R301). -/

theorem exec_countBatchSend_unit {unit : Nat} (h : unit < 128) :
    exec (.countBatchSend unit) s = .next { s with m := sendUnit s.m unit } := by
  change execCountBatchSend unit s = _
  rw [execCountBatchSend, event_next, if_pos h]

theorem exec_countBatchSend_die {die : Nat} (h : die < 8) :
    exec (.countBatchSend (128 + die)) s = .next { s with m := sendDie s.m die } := by
  change execCountBatchSend (128 + die) s = _
  rw [execCountBatchSend, event_next, if_neg (by omega), if_pos (by omega), Nat.add_sub_cancel_left]

/-! Floors (R303, R304). -/

theorem exec_snapshotStart {ctx : Nat} {c : Context} (hc : aget s.m.ctxs ctx = some c) :
    exec (.snapshotStart ctx) s = .next { s with m := s.m.setCtx ctx { c with snap := true } } := by
  change execSnapshotStart ctx s = _
  rw [execSnapshotStart, event_next]
  simp only [hc]

/-- The floors of a context after a snapshot, by what is at the root: those of a lost context, and those that a lost cluster froze,
do not rise. -/
def announcedFloors (m : Mach) (ctx : Nat) (c : Context) : List Floor :=
  if c.frozen || c.st = .lost then c.floors else newFloors c (outstanding m ctx c)

theorem exec_floorAnnounce {ctx n : Nat} {c : Context} (lagging : List Nat) (hc : aget s.m.ctxs ctx = some c) (hsnap : c.snap = true)
    (hn : aget (flushAll s.m).ctxs ctx = some { c with npCount := n }) :
    exec (.floorAnnounce ctx lagging) s = .next { s with m := (flushAll s.m).setCtx ctx { c with
      snap := false, npCount := n, floors := announcedFloors (flushAll s.m) ctx c,
      copies := sendFloors c.copies (announcedFloors (flushAll s.m) ctx c) lagging } } := by
  change execFloorAnnounce ctx lagging s = _
  rw [execFloorAnnounce, event_next]
  simp only [hc, hsnap, hn, announcedFloors]
  rfl

theorem announcedFloors_of_held {m : Mach} {ctx : Nat} {c : Context} (h : c.frozen = true ∨ c.st = .lost) :
    announcedFloors m ctx c = c.floors := if_pos (by simpa using h)

theorem announcedFloors_of_live {m : Mach} {ctx : Nat} {c : Context} (hf : c.frozen = false) (hl : c.st ≠ .lost) :
    announcedFloors m ctx c = newFloors c (outstanding m ctx c) := if_neg (by simp [hf, hl])

theorem getElem?_newFloors {c : Context} {n : Nat} (hn : n < c.nodes.length) (out : List (Nat × Dword)) :
    (newFloors c out)[n]? =
      some (if (c.floorAt n).leF (floorOf c.sums out n) then floorOf c.sums out n else c.floorAt n) := by
  simp [newFloors, hn]

theorem aget_foldl_sent (ks lagging : List Nat) (fl : List Floor) (copies : AMap (List Floor)) (k : Nat) :
    aget (ks.foldl (fun cs k => if lagging.contains k then cs else aput cs k fl) copies) k
      = if k ∈ ks ∧ k ∉ lagging then some fl else aget copies k := by
  induction ks generalizing copies with
  | nil => simp
  | cons j ks ih =>
    rw [List.foldl_cons, ih]
    by_cases hj : j ∈ lagging
    · have hlags : (k ∈ j :: ks ∧ k ∉ lagging) ↔ k ∈ ks ∧ k ∉ lagging :=
        ⟨fun ⟨hm, hl⟩ => ⟨(List.mem_cons.1 hm).resolve_left fun h => hl (h ▸ hj), hl⟩, fun ⟨hm, hl⟩ => ⟨.tail j hm, hl⟩⟩
      simp only [List.contains_iff_mem, hj, if_true, hlags]
    · by_cases hk : k = j
      · simp [hk, hj, aget_aput_self]
      · simp [hk, hj, aget_aput_ne]

theorem aget_sendFloors (copies : AMap (List Floor)) (fl : List Floor) (lagging : List Nat) {k : Nat} (hk : k < 128) :
    aget (sendFloors copies fl lagging) k = if k ∈ lagging then aget copies k else some fl := by
  rw [sendFloors, aget_foldl_sent]
  simp [hk]

/-! The memory set (R99). -/

theorem leastRecent_eq_none_iff {l : AMap Nat} : leastRecent l = none ↔ l = [] := by
  cases l with
  | nil => simp [leastRecent]
  | cons x r =>
    unfold leastRecent
    cases leastRecent r with
    | none => simp
    | some y =>
      dsimp only
      split <;> simp

/-- The least recent member is one of the set, and no member is less recent. -/
theorem leastRecent_spec {l : AMap Nat} {y : Nat × Nat} (h : leastRecent l = some y) : y ∈ l ∧ ∀ x ∈ l, y.2 ≤ x.2 := by
  induction l generalizing y with
  | nil => cases h
  | cons x r ih =>
    unfold leastRecent at h
    cases hr : leastRecent r with
    | none =>
      rw [leastRecent_eq_none_iff] at hr
      subst hr
      cases h
      simp
    | some z =>
      obtain ⟨hz, hmin⟩ := ih hr
      simp only [hr] at h
      split at h
      · next hle =>
        cases h
        exact ⟨List.mem_cons_self, List.forall_mem_cons.2 ⟨le_rfl, fun w hw => hle.trans (hmin w hw)⟩⟩
      · next hgt =>
        cases h
        exact ⟨List.mem_cons_of_mem x hz, List.forall_mem_cons.2 ⟨by omega, hmin⟩⟩

theorem leastRecent_eq_of_lt {l : AMap Nat} {y : Nat × Nat} (hy : y ∈ l) (hlt : ∀ x ∈ l, x ≠ y → y.2 < x.2) :
    leastRecent l = some y := by
  cases h : leastRecent l with
  | none => exact absurd hy (leastRecent_eq_none_iff.1 h ▸ List.not_mem_nil)
  | some z =>
    obtain ⟨hz, hmin⟩ := leastRecent_spec h
    by_contra hne
    exact (hlt z hz fun heq => hne (congrArg some heq)).not_ge (hmin y hy)

theorem trimSet_sublist (limit n : Nat) (l : AMap Nat) : (trimSet limit n l).Sublist l := by
  induction n generalizing l with
  | zero => exact .refl l
  | succ n ih =>
    unfold trimSet
    split
    · exact .refl l
    · split
      · exact .refl l
      · exact (ih _).trans List.filter_sublist

theorem trimSet_of_le {limit : Nat} {l : AMap Nat} (h : l.length ≤ limit) (n : Nat) : trimSet limit n l = l := by
  cases n with
  | zero => rfl
  | succ n => exact if_pos h

/-- What trimming leaves: as many members as the limit, none less recent than one that left. -/
theorem trimSet_spec (limit : Nat) (n : Nat) : ∀ l : AMap Nat, amapWf l = true → limit ≤ l.length → l.length ≤ limit + n →
    (trimSet limit n l).length = limit ∧ ∀ x ∈ trimSet limit n l, ∀ y ∈ l, y ∉ trimSet limit n l → y.2 ≤ x.2 := by
  induction n with
  | zero =>
    intro l _ hge hle
    exact ⟨Nat.le_antisymm hle hge, fun x _ y hy hn => absurd hy hn⟩
  | succ n ih =>
    intro l hwf hge hle
    rcases hge.eq_or_lt with heq | hlt
    · rw [trimSet_of_le heq.ge]
      exact ⟨heq.symm, fun x _ y hy hn => absurd hy hn⟩
    · cases hz : leastRecent l with
      | none =>
        rw [leastRecent_eq_none_iff.1 hz] at hlt
        exact absurd hlt (Nat.not_lt_zero limit)
      | some z =>
        obtain ⟨hzl, hmin⟩ := leastRecent_spec hz
        have hlen := length_adel hwf hzl
        have htrim : trimSet limit (n + 1) l = trimSet limit n (adel l z.1) := by
          simp only [trimSet, hlt.not_ge, if_false, hz]
        obtain ⟨hlength, hrecent⟩ := ih (adel l z.1) (amapWf_adel l z.1 hwf) (by omega) (by omega)
        rw [htrim]
        refine ⟨hlength, fun x hx y hy hn => ?_⟩
        by_cases hk : y.1 = z.1
        · rw [eq_of_mem_of_key_eq hwf hy hzl hk]
          exact hmin x (mem_adel.1 ((trimSet_sublist limit n _).subset hx)).1
        · exact hrecent x hx y (mem_adel.2 ⟨hy, hk⟩) hn

theorem exec_throttleWindow {core hits : Nat} (h : hits ≤ 1024) : exec (.throttleWindow core hits) s = .next { s with
    m := s.m.setCore core { s.m.core core with
      hits := hits, limit := max 4 (64 - hits / 16),
      memset := trimSet (max 4 (64 - hits / 16)) (members s.m core).length (members s.m core) } } := by
  change execThrottleWindow core hits s = _
  rw [execThrottleWindow, event_next]
  rw [if_neg h.not_gt]

theorem lanesIssue_iff {st : GState} : st.lanesIssue = true ↔ st = .ready ∨ (∃ why, st = .waiting why) ∨ st = .trapped .running := by
  unfold GState.lanesIssue
  split <;> simp_all

theorem headMemory_iff {g : Group} : g.headMemory = true ↔
    ∃ e, g.qs.liq.head? = some e ∧ e.bad = none ∧ ∃ j, e.ins = some j ∧ isMemory j = true := by
  unfold Group.headMemory
  cases g.qs.liq.head? with
  | none => simp
  | some e => cases hi : e.ins <;> simp [hi]

theorem throttled_iff {m : Mach} {gid : Nat} {g : Group} : throttled m gid g = true ↔
    (g.st = .ready ∨ (∃ why, g.st = .waiting why) ∨ g.st = .trapped .running) ∧ g.saved = false ∧ g.chain = none ∧ g.serving = none
      ∧ aget (members m g.core) gid = none ∧ (m.core g.core).limit ≤ (members m g.core).length
      ∧ ∃ e, g.qs.liq.head? = some e ∧ e.bad = none ∧ ∃ j, e.ins = some j ∧ isMemory j = true := by
  rw [← lanesIssue_iff, ← headMemory_iff, throttled]
  simp only [Bool.and_eq_true, Bool.not_eq_true', Option.isNone_iff_eq_none, decide_eq_true_eq]
  tauto

section
variable {gid : Nat} {g : Group} (hg : s.m.grp? gid = some g)
include hg

theorem exec_throttleDisplace {y : Nat × Nat} {since : Nat} (ht : throttled s.m gid g = true) (hs : g.throttledAt = some since)
    (h512 : since + 512 ≤ (s.m.core g.core).cyc) (hy : leastRecent (members s.m g.core) = some y) :
    exec (.throttleDisplace gid) s = .next { s with m := s.m.setCore g.core { s.m.core g.core with
      memset := aput (adel (members s.m g.core) y.1) gid (s.m.core g.core).cyc } } := by
  change execThrottleDisplace gid s = _
  rw [execThrottleDisplace, event_next]
  simp [hg, ht, hs, h512, hy]

theorem exec_throttleDisplace_of_not (h : throttled s.m gid g = false ∨
    ∀ since, g.throttledAt = some since → (s.m.core g.core).cyc < since + 512) :
    exec (.throttleDisplace gid) s = .next s := by
  have hwait : (throttled s.m gid g
      && (g.throttledAt.map fun t => decide (t + 512 ≤ (s.m.core g.core).cyc)).getD false) = false := by
    rw [Bool.and_eq_false_iff]
    refine h.imp_right fun h => ?_
    cases hs : g.throttledAt with
    | none => rfl
    | some since => exact decide_eq_false (h since hs).not_ge
  change execThrottleDisplace gid s = _
  rw [execThrottleDisplace, event_next]
  simp only [hg, hwait]
  cases leastRecent (members s.m g.core) <;> rfl

theorem exec_memorySetLeave {last : Nat} (hl : aget (s.m.core g.core).memset gid = some last)
    (h64 : last + 64 ≤ (s.m.core g.core).cyc) : exec (.memorySetLeave gid) s = .next { s with
      m := s.m.setCore g.core { s.m.core g.core with memset := adel (s.m.core g.core).memset gid } } := by
  change execMemorySetLeave gid s = _
  rw [execMemorySetLeave, event_next]
  simp [hg, hl, h64]

theorem exec_memorySetLeave_of_recent {last : Nat} (hl : aget (s.m.core g.core).memset gid = some last)
    (h64 : (s.m.core g.core).cyc < last + 64) : exec (.memorySetLeave gid) s = .next s := by
  change execMemorySetLeave gid s = _
  rw [execMemorySetLeave, event_next]
  simp [hg, hl, h64.not_ge]

/-! WAITA's rereading (R187). -/

theorem exec_waitaRecheck {cycles : Nat} {m : Mach} {cc : BitVec 3} {sd sa sb : Sreg}
    (hnext : nextScalar { s.m.setCore g.core { s.m.core g.core with clk := (s.m.core g.core).clk + cycles } with cur := gid } g
      = (m, .waita cc sd sa sb))
    (hwaits : g.waitedFrom.isSome = true) (hfab : g.fabric = .none) (hsaved : g.saved = false) (hruns : ctxRuns s.m g.ctx = true)
    (htraps : g.traps = []) : exec (.waitaRecheck gid cycles) s = exec (.waita cc sd sa sb) { s with m := m } := by
  have hgo : (g.waitedFrom.isSome && g.fabric = .none && !g.saved && ctxRuns s.m g.ctx && g.traps.isEmpty) = true := by
    simp [hwaits, hfab, hsaved, hruns, htraps]
  change execWaitaRecheck gid cycles s = execWaita cc sd sa sb { s with m := m }
  simp only [execWaitaRecheck, hg, hgo, if_true, recheck, hnext]

theorem exec_waitaRecheck_of_not_waiting {cycles : Nat} (h : g.waitedFrom = none) : exec (.waitaRecheck gid cycles) s = .next s := by
  change execWaitaRecheck gid cycles s = .next s
  simp [execWaitaRecheck, hg, h]

end

theorem exec_waita_next {m : Mach} (cc : BitVec 3) (sd sa sb : Sreg) (h : (m.grp? m.cur).isSome = true) :
    ∃ t, exec (.waita cc sd sa sb) { s with m := m } = .next t := by
  obtain ⟨g, hg⟩ := Option.isSome_iff_exists.1 h
  exact ⟨_, groupStep_next ⟨rfl, hg⟩ _⟩

end

end Sys2Proof.Machine

namespace Sys2Proof
open Machine

/-- Settles O46: each event by its effect on the module, and what the effect leaves. -/
theorem countsFloorsAndThrottle : Obligations.CountsFloorsAndThrottle := by
  unfold Obligations.CountsFloorsAndThrottle
  intro total
  refine ⟨fun s unit hu => ?unit, fun s die hd => ?aggregator, fun s ctx c hc => exec_snapshotStart hc,
    fun s ctx lagging c hc hsnap _ _ => ?announce, fun s core hits hh => ?window, fun s gid g y hg => ?displace,
    fun s gid cycles g m cc sd sa sb hg => ?recheck⟩
  case unit =>
    refine ⟨_, exec_countBatchSend_unit hu, rfl, ?_, fun k hk => ?_, ?_, fun d hd => ?_⟩
    · simp only [cluster_sendUnit, if_true]
    · simp only [cluster_sendUnit, if_neg hk]
    · simp only [die_sendUnit, if_true]
    · simp only [die_sendUnit, if_neg hd]
  case aggregator =>
    obtain ⟨cs, heq, hget⟩ := sendDie_eq s.m die
    refine ⟨_, exec_countBatchSend_die hd, by rw [heq], ?_, fun d hne => ?_, fun x n st => ?_, fun x c hc => ?_⟩
    · simp only [die_sendDie, if_true]
    · simp only [die_sendDie, if_neg hne]
    · rw [heq]
      exact countTotal_applyDeltas _ _ x n st
    · rw [heq]
      simp only [hget, hc, Option.map_some]
  case announce =>
    have hmoved := countsMoved_flushAll s.m
    obtain ⟨n, hn⟩ := hmoved.ctx ctx c hc
    refine ⟨_, exec_floorAnnounce lagging hc hsnap hn, ?_, cluster_deltas_flushAll s.m, die_deltas_flushAll s.m,
      _, aget_aput_self _ _ _, rfl, announcedFloors_of_held, fun hf hl k hk => ?_, fun k hk => ?_⟩
    · rw [hmoved.frame]
      rfl
    · rw [Context.floorAt, announcedFloors_of_live hf hl, getElem?_newFloors hk]
      rfl
    · exact aget_sendFloors c.copies (announcedFloors (flushAll s.m) ctx c) lagging hk
  case window =>
    refine ⟨_, exec_throttleWindow hh, rfl, fun k hk => setCore_core_ne s.m core k _ hk, ?_⟩
    simp only [setCore_core]
    exact ⟨trivial, trimSet_sublist _ _ _, fun hle => trimSet_of_le hle _,
      fun hwf hge => trimSet_spec _ _ _ hwf hge (Nat.le_add_left _ _)⟩
  case displace =>
    refine ⟨fun since ht hs h512 hy hlt => exec_throttleDisplace hg ht hs h512 (leastRecent_eq_of_lt hy hlt),
      exec_throttleDisplace_of_not hg, throttled_iff, fun last hl => ⟨exec_memorySetLeave hg hl, exec_memorySetLeave_of_recent hg hl⟩⟩
  case recheck =>
    intro c m0 hnext hcur hgrp
    refine ⟨fun hwaits hfab hsaved hruns htraps => ?_, exec_waitaRecheck_of_not_waiting hg⟩
    obtain ⟨t, ht⟩ := exec_waita_next (s := s) cc sd sa sb (hcur ▸ hgrp : (m.grp? m.cur).isSome = true)
    exact ⟨t, (exec_waitaRecheck hg hnext hwaits hfab hsaved hruns htraps).trans ht, ht⟩

end Sys2Proof
end

section
/-! PROOF. The elements of lane values (R60, R61, R72): bit fields, two's complement, values made element by element, and the
counts and reversals of bits.
-/

namespace Sys2Proof.Machine

/-! Bit fields. -/

theorem bits_eq (x lo n : Nat) : bits x lo n = x / 2 ^ lo % 2 ^ n := by rw [bits, Nat.shiftRight_eq_div_pow]

theorem bits_lt (x lo n : Nat) : bits x lo n < 2 ^ n := Nat.mod_lt _ (Nat.two_pow_pos n)

theorem testBit_bits (x lo n j : Nat) : (bits x lo n).testBit j = (decide (j < n) && x.testBit (lo + j)) := by
  rw [bits, Nat.testBit_mod_two_pow, Nat.testBit_shiftRight]

theorem elem_lt (w x k : Nat) : elem w x k < 2 ^ w := bits_lt ..

/-! Two's complement (R60): `signed` and `unsigned` are the integer and the pattern of a bit vector. -/

theorem signed_eq_toInt (w x : Nat) : signed w x = (BitVec.ofNat w x).toInt := by
  rw [BitVec.toInt_eq_toNat_cond, BitVec.toNat_ofNat]
  rfl

theorem unsigned_eq_toNat (w : Nat) (i : Int) : unsigned w i = (BitVec.ofInt w i).toNat := by
  rw [BitVec.toNat_ofInt]
  rfl

theorem unsigned_lt (w : Nat) (i : Int) : unsigned w i < 2 ^ w := by
  rw [unsigned_eq_toNat]
  exact BitVec.isLt _

theorem natCast_unsigned (w : Nat) (i : Int) : (unsigned w i : Int) = i % 2 ^ w :=
  Int.toNat_of_nonneg (Int.emod_nonneg _ (by positivity))

theorem neg_le_signed (w x : Nat) : -(2 ^ (w - 1) : Int) ≤ signed w x := by
  rw [signed_eq_toInt]
  exact BitVec.le_toInt _

theorem signed_lt (w x : Nat) : signed w x < (2 ^ (w - 1) : Int) := by
  rw [signed_eq_toInt]
  exact BitVec.toInt_lt

theorem dvd_signed_sub (w x : Nat) : (2 ^ w : Int) ∣ signed w x - x := by
  rw [signed_eq_toInt, BitVec.toInt_ofNat']
  exact_mod_cast Int.dvd_bmod_sub_self (x := (x : Int)) (m := 2 ^ w)

/-- A pattern reads as the number it was made from, where the width holds that number. -/
theorem signed_unsigned {w : Nat} (hw : 0 < w) {i : Int} (hlo : -(2 ^ (w - 1) : Int) ≤ i) (hhi : i < 2 ^ (w - 1)) :
    signed w (unsigned w i) = i := by
  have hpow : (2 ^ w : Int) = 2 ^ (w - 1) * 2 := by rw [← pow_succ, Nat.sub_add_cancel hw]
  rw [signed_eq_toInt, unsigned_eq_toNat, BitVec.ofNat_toNat, BitVec.setWidth_eq, BitVec.toInt_ofInt]
  exact Int.bmod_eq_of_le_mul_two (by push_cast; omega) (by push_cast; omega)

/-- A quotient keeps within the width of its dividend. -/
theorem signed_unsigned_ediv {w : Nat} (hw : 0 < w) (x n : Nat) :
    signed w (unsigned w (signed w x / 2 ^ n)) = signed w x / 2 ^ n := by
  have hpow : (1 : Int) ≤ 2 ^ n := one_le_pow₀ one_le_two
  have hwide : (2 ^ (w - 1) : Int) ≤ 2 ^ (w - 1) * 2 ^ n := le_mul_of_one_le_right (by positivity) hpow
  have hlo := neg_le_signed w x
  have hhi := signed_lt w x
  refine signed_unsigned hw ?_ ?_
  · rw [Int.le_ediv_iff_mul_le (by omega), neg_mul]
    omega
  · rw [Int.ediv_lt_iff_lt_mul (by omega)]
    omega

/-- The sign extension of a field of n bits to w bits. -/
theorem testBit_unsigned_signed (w n x j : Nat) :
    (unsigned w (signed n x)).testBit j = (decide (j < w) && if j < n then x.testBit j else decide (0 < n) && x.testBit (n - 1)) := by
  have hsign : BitVec.ofInt w (BitVec.ofNat n x).toInt = (BitVec.ofNat n x).signExtend w := rfl
  rw [unsigned_eq_toNat, signed_eq_toInt, hsign, BitVec.testBit_toNat, BitVec.getLsbD_signExtend, BitVec.msb_eq_getLsbD_last,
    BitVec.getLsbD_ofNat, BitVec.getLsbD_ofNat]
  by_cases hj : j < n
  · simp [hj]
  · by_cases hn : 0 < n <;> simp [hj, hn]

/-! Values made element by element (R72). -/

@[simp] theorem elem_joinElems (w : Nat) : ∀ (l : List Nat) (k : Nat) (h : k < l.length), elem w (joinElems w l) k = l[k] % 2 ^ w
  | e :: r, 0, _ => by simp [elem, bits_eq, joinElems, Nat.add_mul_mod_self_left]
  | e :: r, k + 1, h => by
    have hlt : e % 2 ^ w < 2 ^ w := Nat.mod_lt _ (Nat.two_pow_pos w)
    have hdiv : (e % 2 ^ w + 2 ^ w * joinElems w r) / 2 ^ w = joinElems w r := by
      rw [Nat.add_mul_div_left _ _ (Nat.two_pow_pos w), Nat.div_eq_of_lt hlt, Nat.zero_add]
    have ih := elem_joinElems w r k (Nat.lt_of_succ_lt_succ h)
    simp only [elem, bits_eq] at ih ⊢
    rw [joinElems, Nat.mul_succ, Nat.add_comm (w * k), pow_add, ← Nat.div_div_eq_div_mul, hdiv, ih]
    rfl

theorem elem_perElem (t : Ty) (f : Nat → Nat) {k : Nat} (hk : k < t.count) : elem t.ew (perElem t f) k = f k % 2 ^ t.ew := by
  rw [perElem, elem_joinElems _ _ _ (by simpa using hk)]
  simp

theorem elem_perElem_of_lt {t : Ty} {f : Nat → Nat} {k : Nat} (hk : k < t.count) (hf : f k < 2 ^ t.ew) :
    elem t.ew (perElem t f) k = f k := by
  rw [elem_perElem t f hk, Nat.mod_eq_of_lt hf]

theorem perElemF_fst (t : Ty) (f : Nat → Nat × FFlags) : (perElemF t f).1 = perElem t fun k => (f k).1 := by
  simp only [perElemF, perElem, List.map_map, Function.comp_def]

/-- Some elements' conditions gathered are those that an element has (R73). -/
theorem foldl_or_iff {p : FFlags → Bool} (hor : ∀ a b, p (a.or b) = (p a || p b)) (f : Nat → Nat × FFlags) (ks : List Nat) :
    ∀ a : FFlags, p ((ks.map f).foldl (fun a r => a.or r.2) a) = true ↔ p a = true ∨ ∃ k ∈ ks, p (f k).2 = true := by
  induction ks with
  | nil => simp
  | cons k ks ih =>
    intro a
    rw [List.map_cons, List.foldl_cons, ih, hor]
    simp [or_assoc]

theorem perElemF_flag (t : Ty) (f : Nat → Nat × FFlags) {p : FFlags → Bool} (hor : ∀ a b, p (a.or b) = (p a || p b))
    (hclear : p .clear = false) : p (perElemF t f).2 = true ↔ ∃ k, k < t.count ∧ p (f k).2 = true := by
  rw [perElemF, foldl_or_iff hor]
  simp [hclear]

theorem perElemF_ov (t : Ty) (f : Nat → Nat × FFlags) :
    (perElemF t f).2.ov = true ↔ ∃ k, k < t.count ∧ (f k).2.ov = true := perElemF_flag t f (fun _ _ => rfl) rfl

theorem perElemF_dz (t : Ty) (f : Nat → Nat × FFlags) :
    (perElemF t f).2.dz = true ↔ ∃ k, k < t.count ∧ (f k).2.dz = true := perElemF_flag t f (fun _ _ => rfl) rfl

theorem perElemF_iv (t : Ty) (f : Nat → Nat × FFlags) :
    (perElemF t f).2.iv = true ↔ ∃ k, k < t.count ∧ (f k).2.iv = true := perElemF_flag t f (fun _ _ => rfl) rfl

/-! The integers of an element type (R132, R135). -/

theorem Ty.ew_pos (t : Ty) : 0 < t.ew := by cases t <;> decide

theorem Ty.maxOf_eq (t : Ty) : t.maxOf = t.minOf + 2 ^ t.ew - 1 := by
  have hpow : (2 ^ t.ew : Int) = 2 ^ (t.ew - 1) * 2 := by rw [← pow_succ, Nat.sub_add_cancel t.ew_pos]
  unfold Ty.maxOf Ty.minOf
  split <;> omega

theorem Ty.minOf_le_maxOf (t : Ty) : t.minOf ≤ t.maxOf := by
  have hpos : (0 : Int) < 2 ^ t.ew := by positivity
  rw [t.maxOf_eq]
  omega

theorem Ty.minOf_le_read (t : Ty) (e : Nat) : t.minOf ≤ t.read e := by
  unfold Ty.minOf Ty.read
  split
  · exact neg_le_signed ..
  · exact Int.natCast_nonneg _

theorem Ty.read_le_maxOf (t : Ty) (e : Nat) : t.read e ≤ t.maxOf := by
  unfold Ty.maxOf Ty.read
  split
  · exact Int.le_sub_one_of_lt (signed_lt ..)
  · exact Int.le_sub_one_of_lt (by exact_mod_cast Nat.mod_lt e (Nat.two_pow_pos t.ew))

theorem Ty.dvd_read_sub (t : Ty) (e : Nat) : (2 ^ t.ew : Int) ∣ t.read e - e := by
  unfold Ty.read
  split
  · exact dvd_signed_sub ..
  · rw [Int.natCast_mod, Int.dvd_iff_emod_eq_zero, Int.sub_emod]
    simp

/-- In a type's range one integer alone stands for each pattern. -/
theorem Ty.eq_of_dvd_sub {t : Ty} {x y : Int} (hx : t.minOf ≤ x ∧ x ≤ t.maxOf) (hy : t.minOf ≤ y ∧ y ≤ t.maxOf)
    (h : (2 ^ t.ew : Int) ∣ x - y) : x = y := by
  have hmax := t.maxOf_eq
  have habs : |x - y| < 2 ^ t.ew := abs_lt.2 ⟨by omega, by omega⟩
  exact Int.eq_of_sub_eq_zero (Int.eq_zero_of_abs_lt_dvd h habs)

theorem clampInt_eq {i lo hi : Int} (h : lo ≤ hi) : clampInt i lo hi = max lo (min hi i) := by
  unfold clampInt
  split
  · omega
  · split <;> omega

/-- What an element reads as, that was made from an exact integer (R135). -/
theorem Ty.read_deliver (t : Ty) (sat : Bool) (x : Int) :
    if sat then t.read (t.deliver sat x) = max t.minOf (min t.maxOf x)
    else t.minOf ≤ t.read (t.deliver sat x) ∧ t.read (t.deliver sat x) ≤ t.maxOf ∧ (t.read (t.deliver sat x) - x) % 2 ^ t.ew = 0 := by
  have hrange := And.intro (t.minOf_le_read (t.deliver sat x)) (t.read_le_maxOf (t.deliver sat x))
  have hle := t.minOf_le_maxOf
  have hmade : ∀ y, (2 ^ t.ew : Int) ∣ t.read (unsigned t.ew y) - y := by
    intro y
    have hy : (2 ^ t.ew : Int) ∣ (unsigned t.ew y : Int) - y := by
      rw [natCast_unsigned]
      exact Int.dvd_emod_sub_self
    simpa using (t.dvd_read_sub (unsigned t.ew y)).add hy
  cases sat with
  | false => exact ⟨hrange.1, hrange.2, Int.emod_eq_zero_of_dvd (hmade x)⟩
  | true =>
    rw [if_pos rfl, ← clampInt_eq hle]
    exact Ty.eq_of_dvd_sub hrange (by rw [clampInt_eq hle]; omega) (hmade _)

theorem Ty.deliver_lt (t : Ty) (sat : Bool) (x : Int) : t.deliver sat x < 2 ^ t.ew := unsigned_lt ..

/-! Counts and reversals of bits (R136). -/

theorem popCount_eq (w : Nat) : ∀ x, popCount w x = ((List.range w).filter x.testBit).length := by
  induction w with
  | zero => intro x; rfl
  | succ w ih =>
    intro x
    have hshift : (x.testBit ∘ Nat.succ) = (x / 2).testBit := funext fun i => Nat.testBit_succ x i
    rw [popCount, ih, List.range_succ_eq_map, List.filter_cons, List.filter_map, hshift, Nat.testBit_zero]
    rcases Nat.mod_two_eq_zero_or_one x with h | h <;> simp [h, Nat.add_comm]

theorem popCount_lt (w x : Nat) : popCount w x < 2 ^ w := by
  have hle : popCount w x ≤ w := by
    rw [popCount_eq]
    exact (List.length_filter_le _ _).trans_eq List.length_range
  exact hle.trans_lt Nat.lt_two_pow_self

/-- The top 1 bit of a number stands below its bit length. -/
theorem bitLength_spec (w : Nat) : ∀ x, x < 2 ^ w →
    bitLength w x ≤ w ∧ x < 2 ^ bitLength w x ∧ (0 < bitLength w x → 2 ^ (bitLength w x - 1) ≤ x) := by
  induction w with
  | zero => intro x hx; simpa [bitLength] using hx
  | succ w ih =>
    intro x hx
    rw [pow_succ] at hx
    obtain ⟨hle, hlt, hge⟩ := ih (x / 2) (by omega)
    unfold bitLength
    split
    · next h0 => simp [h0]
    · next h0 =>
      refine ⟨by omega, by rw [pow_succ]; omega, fun _ => ?_⟩
      by_cases hb : 0 < bitLength w (x / 2)
      · have hpow : 2 ^ bitLength w (x / 2) = 2 ^ (bitLength w (x / 2) - 1) * 2 := by rw [← pow_succ, Nat.sub_add_cancel hb]
        have := hge hb
        rw [Nat.add_sub_cancel]
        omega
      · rw [Nat.eq_zero_of_not_pos hb]
        exact Nat.pos_of_ne_zero h0

/-- The leading 0 bits are those above the bit length. -/
theorem leadingZeros_spec {w x : Nat} (hx : x < 2 ^ w) :
    let r := (w - bitLength w x) % 2 ^ w
    r ≤ w ∧ x < 2 ^ (w - r) ∧ (r < w → 2 ^ (w - 1 - r) ≤ x) := by
  obtain ⟨hle, hlt, hge⟩ := bitLength_spec w x hx
  have hr : (w - bitLength w x) % 2 ^ w = w - bitLength w x :=
    Nat.mod_eq_of_lt ((Nat.sub_le _ _).trans_lt Nat.lt_two_pow_self)
  intro r
  have hlen : w - r = bitLength w x := by omega
  have hlen1 : w - 1 - r = bitLength w x - 1 := by omega
  rw [hlen, hlen1]
  exact ⟨by omega, hlt, fun h => hge (by omega)⟩

theorem testBit_complement {w x j : Nat} (hx : x < 2 ^ w) (hj : j < w) :
    ((2 ^ w - 1 - x) % 2 ^ w).testBit j = !x.testBit j := by
  have hsub : 2 ^ w - 1 - x = 2 ^ w - (x + 1) := by omega
  rw [Nat.testBit_mod_two_pow, hsub, Nat.testBit_two_pow_sub_succ hx]
  simp [hj]

theorem reverseBits_lt (w : Nat) : ∀ x, reverseBits w x < 2 ^ w := by
  induction w with
  | zero => intro x; exact Nat.one_pos
  | succ w ih =>
    intro x
    have := ih (x / 2)
    have : x % 2 * 2 ^ w ≤ 1 * 2 ^ w := Nat.mul_le_mul_right _ (by omega)
    rw [reverseBits, pow_succ]
    omega

theorem testBit_reverseBits (w : Nat) : ∀ x j, j < w → (reverseBits w x).testBit j = x.testBit (w - 1 - j) := by
  induction w with
  | zero => intro x j hj; omega
  | succ w ih =>
    intro x j hj
    rw [reverseBits, Nat.mul_comm, Nat.testBit_two_pow_mul_add _ (reverseBits_lt w _), Nat.add_sub_cancel]
    by_cases hlt : j < w
    · obtain ⟨i, hi⟩ : ∃ i, w - j = i + 1 := ⟨w - j - 1, by omega⟩
      rw [if_pos hlt, ih _ _ hlt, show w - 1 - j = i by omega, hi, Nat.testBit_succ]
    · obtain rfl : j = w := by omega
      rw [if_neg hlt, Nat.sub_self]
      simp [Nat.testBit_zero]

/-! Bits by a table, and fields (R137, R138). -/

/-- The place in LOP3's table of the bits j of its three sources (R137). -/
def lop3Index (a b c j : Nat) : Nat := 4 * (a / 2 ^ j % 2) + 2 * (b / 2 ^ j % 2) + c / 2 ^ j % 2

theorem lop3Index_eq (a b c j : Nat) :
    (if bit a j then 4 else 0) + (if bit b j then 2 else 0) + (if bit c j then 1 else 0) = lop3Index a b c j := by
  have hbit : ∀ x, x / 2 ^ j % 2 = if bit x j then 1 else 0 := by
    intro x
    rw [bit, Nat.testBit_eq_decide_div_mod_eq]
    have := Nat.mod_two_eq_zero_or_one (x / 2 ^ j)
    split <;> simp_all
  rw [lop3Index, hbit, hbit, hbit]
  cases bit a j <;> cases bit b j <;> cases bit c j <;> rfl

theorem lop3Bits_succ (lut a b c n : Nat) :
    lop3Bits lut a b c (n + 1) = 2 ^ n * (lut.testBit (lop3Index a b c n)).toNat + lop3Bits lut a b c n := by
  rw [lop3Bits, lop3Index_eq, bit, Nat.add_comm]
  cases lut.testBit (lop3Index a b c n) <;> simp

theorem lop3Bits_lt (lut a b c n : Nat) : lop3Bits lut a b c n < 2 ^ n := by
  induction n with
  | zero => exact Nat.one_pos
  | succ n ih =>
    have hle := Nat.mul_le_mul_left (2 ^ n) (lut.testBit (lop3Index a b c n)).toNat_le
    rw [lop3Bits_succ, pow_succ]
    omega

theorem testBit_lop3Bits (lut a b c n : Nat) : ∀ j, j < n → (lop3Bits lut a b c n).testBit j = lut.testBit (lop3Index a b c j) := by
  induction n with
  | zero => intro j hj; omega
  | succ n ih =>
    intro j hj
    rw [lop3Bits_succ, Nat.testBit_two_pow_mul_add _ (lop3Bits_lt lut a b c n)]
    by_cases hlt : j < n
    · rw [if_pos hlt, ih j hlt]
    · obtain rfl : j = n := by omega
      rw [if_neg hlt, Nat.sub_self]
      cases lut.testBit (lop3Index a b c j) <;> rfl

/-- The place and the length of the field that BFE and BFI work on, or none where it is empty or begins beyond the width
(R138). -/
def fieldOf (t : Ty) (pos len : Nat) : Option (Nat × Nat) :=
  if len % 256 = 0 ∨ t.ew ≤ pos % 256 then none else some (pos % 256, min (len % 256) (t.ew - pos % 256))

theorem fieldOf_bounds {t : Ty} {pos len p n : Nat} (h : fieldOf t pos len = some (p, n)) : 0 < n ∧ p + n ≤ t.ew := by
  unfold fieldOf at h
  split at h
  · cases h
  · cases h
    omega

theorem bfe_of_none {t : Ty} {pos len : Nat} (h : fieldOf t pos len = none) (a : Nat) : bfe t a pos len = 0 := by
  unfold fieldOf at h
  split at h
  next hnone => simp [bfe, hnone]
  next => cases h

theorem bfe_of_some {t : Ty} {pos len p n : Nat} (h : fieldOf t pos len = some (p, n)) (a : Nat) :
    bfe t a pos len = if t.isSigned then unsigned t.ew (signed n (bits a p n)) else bits a p n := by
  unfold fieldOf at h
  split at h
  next => cases h
  next hsome => cases h; simp [bfe, hsome]

theorem bfi_of_none {t : Ty} {pos len : Nat} (h : fieldOf t pos len = none) (a b : Nat) : bfi t a b pos len = b := by
  unfold fieldOf at h
  split at h
  next hnone => simp [bfi, hnone]
  next => cases h

theorem bfi_of_some {t : Ty} {pos len p n : Nat} (h : fieldOf t pos len = some (p, n)) (a b : Nat) :
    bfi t a b pos len = b - bits b p n * 2 ^ p + bits a 0 n * 2 ^ p := by
  unfold fieldOf at h
  split at h
  next => cases h
  next hsome => cases h; simp [bfi, hsome]

theorem testBit_extracted {t : Ty} {p n : Nat} (hn : 0 < n) (a : Nat) {j : Nat} (hj : j < t.ew) :
    (if t.isSigned then unsigned t.ew (signed n (bits a p n)) else bits a p n).testBit j
      = if j < n then a.testBit (p + j) else t.isSigned && a.testBit (p + n - 1) := by
  have hlast : p + (n - 1) = p + n - 1 := by omega
  cases t.isSigned
  · by_cases hjn : j < n <;> simp [testBit_bits, hjn]
  · by_cases hjn : j < n <;> simp [testBit_unsigned_signed, testBit_bits, hjn, hj, hn, hlast]

/-- A number with a field of n bits from p replaced. -/
theorem testBit_inserted (b x p n j : Nat) (hx : x < 2 ^ n) :
    (b - bits b p n * 2 ^ p + x * 2 ^ p).testBit j = if p ≤ j ∧ j < p + n then x.testBit (j - p) else b.testBit j := by
  have hjoin : b - bits b p n * 2 ^ p + x * 2 ^ p = 2 ^ p * (2 ^ n * (b / 2 ^ p / 2 ^ n) + x) + b % 2 ^ p := by
    have hsplit : b = 2 ^ p * (2 ^ n * (b / 2 ^ p / 2 ^ n)) + 2 ^ p * bits b p n + b % 2 ^ p := by
      rw [bits_eq, ← Nat.mul_add, Nat.div_add_mod, Nat.div_add_mod]
    rw [Nat.mul_add, Nat.mul_comm (bits b p n), Nat.mul_comm x]
    omega
  have hlow : b % 2 ^ p < 2 ^ p := Nat.mod_lt _ (Nat.two_pow_pos p)
  rw [hjoin, Nat.testBit_two_pow_mul_add _ hlow, Nat.testBit_two_pow_mul_add _ hx]
  by_cases hp : j < p
  · rw [if_pos hp, if_neg (by omega), Nat.testBit_mod_two_pow]
    simp [hp]
  · rw [if_neg hp]
    by_cases hn : j < p + n
    · rw [if_pos (by omega), if_pos (by omega)]
    · rw [if_neg (by omega), if_neg (by omega), Nat.testBit_div_two_pow, Nat.testBit_div_two_pow]
      congr 1
      omega

end Sys2Proof.Machine
end

section
/-! PROOF. The integer, shift, count and logic opcodes of the lanes: O15 and O16. Each is one lane computation, whose elements are
those of an element function.
-/

namespace Sys2Proof.Machine

section
variable {s : State} {gid n : Nat} {g : Group} {e : LiqEntry} {w : LaneWord} {i : Instr}

/-- An instruction that computes its results lane by lane does what its function says in every lane (R37, R38). -/
theorem laneComputes_laneArith {f : LaneIn → Nat → Nat × FFlags} (hi : exec i s = laneArith s i w n f)
    {P : Nat → Nat → FFlags → Prop} (hP : ∀ l, P l (f (laneIn s.m g e i w) l).1 (f (laneIn s.m g e i w) l).2) :
    LaneComputes i w s gid g e n P :=
  fun _ h hread => laneArith_writes h w n f P hi hread fun l _ => hP l

theorem laneComputes_lanePure {f : LaneIn → Nat → Nat} (hi : exec i s = lanePure s i w n f) {P : Nat → Nat → Prop}
    (hP : ∀ l, P l (f (laneIn s.m g e i w) l)) : LaneComputes i w s gid g e n fun l v fl => fl = .clear ∧ P l v :=
  laneComputes_laneArith hi fun l => ⟨rfl, hP l⟩

/-- An instruction of R135 delivers its exact result, clamped to the type's range or as the only integer of the range that is the
same modulo 2^w. -/
theorem laneComputes_laneInt {f : LaneIn → Nat → Nat → Int} (hi : exec i s = laneInt s i w f) :
    LaneComputes i w s gid g e w.t.regs fun l v fl => fl = .clear ∧ ∀ k, k < w.t.count →
      let d := w.t.read (elem w.t.ew v k)
      let exact := f (laneIn s.m g e i w) l k
      if w.sat then d = max w.t.minOf (min w.t.maxOf exact)
      else w.t.minOf ≤ d ∧ d ≤ w.t.maxOf ∧ (d - exact) % 2 ^ w.t.ew = 0 := by
  refine laneComputes_lanePure hi fun l k hk => ?_
  dsimp only
  rw [elem_perElem_of_lt hk (w.t.deliver_lt ..)]
  exact w.t.read_deliver ..

/-- An instruction on the raw bits of elements gives each element by its function, as far as the width goes. -/
theorem laneComputes_laneBits {f : LaneIn → Nat → Nat → Nat} (hi : exec i s = laneBits s i w f) {P : Nat → Nat → Nat → Prop}
    (hP : ∀ l k, P l k (f (laneIn s.m g e i w) l k % 2 ^ w.t.ew)) :
    LaneComputes i w s gid g e w.t.regs fun l v fl => fl = .clear ∧ ∀ k, k < w.t.count → P l k (elem w.t.ew v k) := by
  refine laneComputes_lanePure hi fun l k hk => ?_
  rw [elem_perElem _ _ hk]
  exact hP l k

theorem ar_lt (x : LaneIn) (l k : Nat) : x.ar l k < 2 ^ x.w.t.ew := elem_lt ..

theorem br_lt (x : LaneIn) (l k : Nat) : x.br l k < 2 ^ x.w.t.ew := elem_lt ..

theorem laneComputes_lop3 : LaneComputes (.lop3 w) w s gid g e w.t.regs fun l v fl =>
    let x := laneIn s.m g e (.lop3 w) w
    fl = .clear ∧ ∀ j, j < w.t.bits → v.testBit j = w.sub.testBit (lop3Index (x.a w.t l) (x.b w.t l) (x.c w.t l) j) :=
  laneComputes_lanePure (f := fun x l => lop3Bits w.sub (x.a w.t l) (x.b w.t l) (x.c w.t l) w.t.bits) rfl
    (P := fun _ v => ∀ j, j < w.t.bits → v.testBit j = w.sub.testBit (lop3Index _ _ _ j))
    fun _ j hj => testBit_lop3Bits w.sub _ _ _ w.t.bits j hj

/-- What the checks of R48 say of the word of an instruction that takes no rounding. -/
theorem fields_of_arith {k : Nat} {types : List Ty} {sat : Bool}
    (hwf : i.wf = ((Shape.arith w k (w.isOf types && w.sub = 0) false sat).legal false w && true)) (h : i.wf = true) :
    w.isOf types = true ∧ w.sub = 0 ∧ w.rnd = 0 ∧ (sat = false → w.sat = false) := by
  rw [hwf, Bool.and_true] at h
  unfold Shape.legal at h
  simp only [Bool.and_eq_true] at h
  obtain ⟨⟨⟨⟨⟨⟨⟨⟨⟨⟨⟨⟨hok, -⟩, -⟩, -⟩, -⟩, -⟩, -⟩, -⟩, -⟩, -⟩, hrnd⟩, hsat⟩, -⟩ := h
  obtain ⟨⟨htype, hsub⟩, -⟩ : (w.isOf types = true ∧ w.sub = 0) ∧ _ := by simpa [Shape.arith] using hok
  refine ⟨htype, hsub, by simpa [Shape.arith] using hrnd, ?_⟩
  rintro rfl
  simpa [Shape.arith] using hsat

end

end Sys2Proof.Machine

namespace Sys2Proof
open Machine

/-- Settles O15: an exact integer, delivered to an element, reads as itself held in the type's range or as its one representative
there. -/
theorem laneIntegerResults : Obligations.LaneIntegerResults := by
  unfold Obligations.LaneIntegerResults
  refine ⟨fun w => ?rows, fun s gid g e w => ?results⟩
  case rows =>
    intro row all wide signed
    have hrow {i : Instr} {op : BitVec 8} {types : List Ty} {sat : Bool} (k : Nat) (hw : laneWord? i = some w)
        (hop : laneOpcode i = op)
        (hwf : i.wf = ((Shape.arith w k (w.isOf types && w.sub = 0) false sat).legal false w && true)) : row i op types sat :=
      ⟨hop ▸ decodeLaneOp_laneOpcode hw, fields_of_arith hwf⟩
    clear_value row
    exact ⟨hrow 2 rfl rfl rfl, hrow 2 rfl rfl rfl, hrow 2 rfl rfl rfl, hrow 2 rfl rfl rfl, hrow 3 rfl rfl rfl, hrow 2 rfl rfl rfl,
      hrow 2 rfl rfl rfl, hrow 1 rfl rfl rfl, hrow 1 rfl rfl rfl⟩
  case results =>
    intro t lo hi delivers computes
    have int {i : Instr} {f : LaneIn → Nat → Nat → Int} (hi : exec i s = laneInt s i w f) : computes i f :=
      laneComputes_laneInt hi
    have hiabs : exec (.iabs w) s = laneInt s (.iabs w) w fun x l k => |x.ai l k| := by
      simp only [Int.abs_eq_natAbs]
      rfl
    clear_value computes
    exact ⟨int rfl, int rfl, int rfl, int rfl, int rfl, int rfl, int rfl, int hiabs, int rfl⟩

/-- Settles O16: each element of the result has the bits of its element function, as far as the width goes. -/
theorem laneShiftAndLogicResults : Obligations.LaneShiftAndLogicResults := by
  unfold Obligations.LaneShiftAndLogicResults
  intro s gid g e w t computes amount
  have bits {i : Instr} (f : LaneIn → Nat → Nat → Nat) (hi : exec i s = laneBits s i w f) {is : LaneIn → Nat → Nat → Nat → Prop}
      (h : ∀ x l k, x.w = w → is x l k (f x l k % 2 ^ w.t.ew)) : computes i is :=
    laneComputes_laneBits hi fun l k => h _ l k rfl
  clear_value computes
  refine ⟨bits (fun x l k => x.ar l k * 2 ^ (x.br l k % w.t.ew)) rfl ?shl,
    bits (fun x l k => x.ar l k / 2 ^ (x.br l k % w.t.ew)) rfl ?shr,
    bits (fun x l k => unsigned w.t.ew (signed w.t.ew (x.ar l k) / 2 ^ (x.br l k % w.t.ew))) rfl ?sar,
    bits (fun x l k => popCount w.t.ew (x.ar l k)) rfl ?popc,
    bits (fun x l k => w.t.ew - bitLength w.t.ew (x.ar l k)) rfl ?clz,
    bits (fun x l k => reverseBits w.t.ew (x.ar l k)) rfl ?brev,
    bits (fun x l k => x.ar l k &&& x.br l k) rfl ?and,
    bits (fun x l k => x.ar l k ||| x.br l k) rfl ?or,
    bits (fun x l k => x.ar l k ^^^ x.br l k) rfl ?xor,
    bits (fun x l k => 2 ^ w.t.ew - 1 - x.ar l k) rfl ?not, ?lop3⟩
  case lop3 => exact laneComputes_lop3
  all_goals rintro x l k rfl
  case shl => rfl
  case shr => exact Nat.mod_eq_of_lt ((Nat.div_le_self _ _).trans_lt (ar_lt ..))
  case sar =>
    rw [Nat.mod_eq_of_lt (unsigned_lt ..)]
    exact signed_unsigned_ediv x.w.t.ew_pos _ _
  case popc =>
    rw [Nat.mod_eq_of_lt (popCount_lt ..)]
    exact popCount_eq ..
  case clz => exact leadingZeros_spec (ar_lt ..)
  case brev =>
    rw [Nat.mod_eq_of_lt (reverseBits_lt ..)]
    exact testBit_reverseBits _ _
  case and =>
    rw [Nat.mod_eq_of_lt (Nat.and_lt_two_pow _ (br_lt ..))]
    exact fun j => Nat.testBit_and ..
  case or =>
    rw [Nat.mod_eq_of_lt (Nat.or_lt_two_pow (ar_lt ..) (br_lt ..))]
    exact fun j => Nat.testBit_or ..
  case xor =>
    rw [Nat.mod_eq_of_lt (Nat.xor_lt_two_pow (ar_lt ..) (br_lt ..))]
    exact fun j => Nat.testBit_xor ..
  case not => exact fun j hj => testBit_complement (ar_lt ..) hj

end Sys2Proof
end

section
/-! PROOF. Fields, selects and moves: O17. BCAST and SHFL check other lanes than they write, and end as every lane computation
does.
-/

namespace Sys2Proof.Machine

section
variable {s : State} {gid n : Nat} {g : Group} {e : LiqEntry} {w : LaneWord} {i : Instr}

@[simp] theorem raise_clear (g : Group) : g.raise .clear = g := by
  have hword : g.fpstat ||| FFlags.clear.word = g.fpstat := BitVec.or_zero
  rw [Group.raise, hword]

theorem foldl_or_clear (f : Nat → Nat) (ls : List Nat) :
    (ls.map fun l => (l, f l, FFlags.clear)).foldl (fun a r => a.or r.2.2) FFlags.clear = FFlags.clear := by
  induction ls with
  | nil => rfl
  | cons l ls ih => exact ih

theorem capture_issued (x : LaneIn) (rs : List (Nat × Nat)) (c : Chain) : (x.capture rs c).issued = c.issued := by
  unfold LaneIn.capture
  split <;> rfl

theorem capture_popped (x : LaneIn) (rs : List (Nat × Nat)) (c : Chain) : (x.capture rs c).popped = c.popped := by
  unfold LaneIn.capture
  split <;> rfl

/-- The latch that a word captures into takes the results of E (R38). -/
theorem capture_latches (f : Nat → Nat) (c : Chain) (hcap : 4 ≤ w.cap.toNat) {l : Nat} (hl : effective g e w l) :
    let x := laneIn s.m g e i w
    aget (x.capture (x.lanes.map fun l => (l, f l)) c).latches ((w.cap.toNat - 4) * 128 + l) = some (BitVec.ofNat 64 (f l)) := by
  intro x
  have hx : ¬ x.w.cap.toNat < 4 := Nat.not_lt.2 hcap
  unfold LaneIn.capture
  rw [if_neg hx]
  exact (latches_fold (w.cap.toNat - 4) (fun l => (f l, .clear)) x.lanes c.latches).1 l ((mem_lanes s g e i w l).2 hl)

/-- A lane instruction that ends with results written and captured, and no condition raised, completes so. -/
theorem laneWrites_laneFinish (h : Issues s gid g e i) {f : Nat → Nat} {sh : Bool} {c : Chain} {P : Nat → Nat → Prop}
    (hi : exec i s = .next { s with
      m := laneFinish s.m gid ((laneIn s.m g e i w).write sh n ((laneIn s.m g e i w).lanes.map fun l => (l, f l))) e i w c })
    (hsh : w.shadowed = false → sh = false)
    (hissued : c.issued = (g.chain.getD Chain.empty).issued) (hpopped : c.popped = (g.chain.getD Chain.empty).popped)
    (hlatches : c.latches = ((laneIn s.m g e i w).capture ((laneIn s.m g e i w).lanes.map fun l => (l, f l))
      (g.chain.getD Chain.empty)).latches)
    (hP : ∀ l, P l (f l)) : LaneWrites i w s gid g e n fun l v fl => fl = .clear ∧ P l v := by
  obtain ⟨-, -, -, -, hwidth⟩ := id h
  have hwrote := wrote_raise (s := s) (i := i) (e := e) w n (fun l => (f l, .clear)) sh hsh hwidth
  simp only [foldl_or_clear, raise_clear] at hwrote
  refine ⟨fun l => (f l, .clear), fun l _ => ⟨rfl, hP l⟩, _, hwrote, ?_⟩
  obtain ⟨hg1, -⟩ := hwrote
  refine laneFinish_leaves h w _ c _ hi ?_ ?_ ?_ ?_ ?_ ?_ ?_ ?_ hissued hpopped fun g' hchain hstick hcap => ?_
  case refine_9 =>
    obtain ⟨c', hc', hl'⟩ := hchain hstick
    exact ⟨c', hc', fun l hl => by rw [hl', hlatches]; exact capture_latches f _ hcap hl⟩
  all_goals rw [hg1]

/-! BFE, BFI and SEL (R138, R139). -/

theorem testBit_bfe_of_some {t : Ty} {pos len p n : Nat} (h : fieldOf t pos len = some (p, n)) (a : Nat) {j : Nat} (hj : j < t.ew) :
    (bfe t a pos len).testBit j = if j < n then a.testBit (p + j) else t.isSigned && a.testBit (p + n - 1) := by
  rw [bfe_of_some h]
  exact testBit_extracted (fieldOf_bounds h).1 a hj

theorem testBit_bfi_of_some {t : Ty} {pos len p n : Nat} (h : fieldOf t pos len = some (p, n)) (a b j : Nat) :
    (bfi t a b pos len).testBit j = if p ≤ j ∧ j < p + n then a.testBit (j - p) else b.testBit j := by
  rw [bfi_of_some h, testBit_inserted _ _ _ _ _ (bits_lt ..)]
  by_cases hj : p ≤ j ∧ j < p + n
  · have hlt : j - p < n := by omega
    simp [hj, testBit_bits, hlt]
  · rw [if_neg hj, if_neg hj]

theorem select_eq {α : Type} (p n : Bool) (a b : α) : (if p != n then a else b) = if p = n then b else a := by
  cases p <;> cases n <;> rfl

/-! BCAST and SHFL (R156, R157). -/

theorem exec_bcast_of_pass (h : Issues s gid g e (.bcast w)) (hdst : w.dst ≠ 0x145)
    (hread : ReadsPass (.bcast w) g [(laneIn s.m g e (.bcast w) w).bcastLane]) :
    let x := laneIn s.m g e (.bcast w) w
    let vals := x.lanes.map fun l => (l, x.a w.t x.bcastLane)
    exec (.bcast w) s = .next { s with
      m := laneFinish s.m gid (x.write false w.t.regs vals) e (.bcast w) w (x.capture vals (g.chain.getD Chain.empty)) } := by
  have hexec : exec (.bcast w) s = execBcast w s := rfl
  have hpass : ¬ (laneIn s.m g e (.bcast w) w).g.readFails (sourceRegs (.bcast w)) [(laneIn s.m g e (.bcast w) w).bcastLane] = true :=
    ne_true_of_eq_false hread
  rw [hexec, execBcast, if_neg hdst, laneStep_next h, if_neg hpass]
  rfl

/-- A chain that keeps the results of a shadowed word for the SHDW of its register (R335). -/
def Chain.keep (c : Chain) (w : LaneWord) (sh : Bool) (vals : List (Nat × Nat)) : Chain :=
  if sh && w.dst.toNat < 256 then
    { c with shadows :=
        { reg := w.dst.toNat, wide := w.t.regs = 2, vals := vals.map fun v => (v.1, BitVec.ofNat 64 v.2) } :: c.shadows }
  else c

section
variable (c : Chain) (w : LaneWord) (sh : Bool) (vals : List (Nat × Nat))

theorem Chain.keep_issued : (c.keep w sh vals).issued = c.issued := by
  unfold Chain.keep
  split <;> rfl

theorem Chain.keep_popped : (c.keep w sh vals).popped = c.popped := by
  unfold Chain.keep
  split <;> rfl

theorem Chain.keep_latches : (c.keep w sh vals).latches = c.latches := by
  unfold Chain.keep
  split <;> rfl

end

theorem exec_shfl_of_pass (h : Issues s gid g e (.shfl w))
    (hb : g.readFails ((SrcKind.typed w.t).vregs w.b) (laneIn s.m g e (.shfl w) w).lanes = false)
    (ha : g.readFails ((SrcKind.typed w.t).vregs w.a)
      ((laneIn s.m g e (.shfl w) w).lanes.map (laneIn s.m g e (.shfl w) w).shflFrom) = false) :
    let x := laneIn s.m g e (.shfl w) w
    let vals := x.lanes.map fun l => (l, x.a w.t (x.shflFrom l))
    let sh := isShadowed (s.m.features g.core) (.shfl w) w && w.nw = 0
    ∃ c : Chain, c.issued = (g.chain.getD Chain.empty).issued ∧ c.popped = (g.chain.getD Chain.empty).popped
      ∧ c.latches = (x.capture vals (g.chain.getD Chain.empty)).latches
      ∧ exec (.shfl w) s = .next { s with m := laneFinish s.m gid (x.write sh w.t.regs vals) e (.shfl w) w c } := by
  intro x vals sh
  have hexec : exec (.shfl w) s = execShfl w s := rfl
  have hpass : ¬ (x.g.readFails ((SrcKind.typed w.t).vregs w.b) x.lanes
      || x.g.readFails ((SrcKind.typed w.t).vregs w.a) (x.lanes.map x.shflFrom)) = true :=
    ne_true_of_eq_false (Bool.or_eq_false_iff.2 ⟨hb, ha⟩)
  refine ⟨(x.capture vals (g.chain.getD Chain.empty)).keep w sh vals, ?_, ?_, ?_, ?_⟩
  · exact (Chain.keep_issued ..).trans (capture_issued ..)
  · exact (Chain.keep_popped ..).trans (capture_popped ..)
  · exact Chain.keep_latches ..
  · rw [hexec, execShfl, laneStep_next h, if_neg hpass]
    rfl

theorem shflLane_eq (mode seg l k : Nat) : shflLane mode seg l k =
    if mode = 0 then l / 2 ^ seg * 2 ^ seg + k % 2 ^ seg
    else if mode = 1 then (if k ≤ l % 2 ^ seg then l - k else l)
    else if mode = 2 then (if l % 2 ^ seg + k < 2 ^ seg then l + k else l)
    else l / 2 ^ seg * 2 ^ seg + (l % 2 ^ seg ^^^ k) % 2 ^ seg := by
  have hbase : l - l % 2 ^ seg = l / 2 ^ seg * 2 ^ seg := by
    have := Nat.div_add_mod' l (2 ^ seg)
    omega
  unfold shflLane
  dsimp only
  rw [hbase]
  match mode with
  | 0 => rfl
  | 1 => rfl
  | 2 => rfl
  | _ + 3 => rfl

end

end Sys2Proof.Machine

namespace Sys2Proof
open Machine

/-- Settles O17: each element is the field, the choice or the lane that the rule names. -/
theorem laneFieldAndMoveResults : Obligations.LaneFieldAndMoveResults := by
  unfold Obligations.LaneFieldAndMoveResults
  intro s gid g e w t field
  have hfield : field = fieldOf w.t := rfl
  clear_value field
  subst hfield
  refine ⟨laneComputes_lanePure (f := fun x l => bfe w.t (x.a w.t l) (x.b w.t l) (x.c w.t l)) rfl fun l => ?bfe,
    laneComputes_lanePure (f := fun x l => bfi w.t (x.a w.t l) (x.b w.t l) (x.c w.t l) (x.d w.t l)) rfl fun l => ?bfi,
    laneComputes_lanePure (f := fun x l => if x.g.pred (w.sub % 8) l != bit w.sub 3 then x.a w.t l else x.b w.t l) rfl fun l => ?sel,
    laneComputes_lanePure (f := fun x l => x.a w.t l) rfl fun l => rfl, fun _ hdst h => ?bcast, fun _ h => ?shfl⟩
  case bfe =>
    cases hf : fieldOf w.t ((laneIn s.m g e (.bfe w) w).b w.t l) ((laneIn s.m g e (.bfe w) w).c w.t l) with
    | none => exact bfe_of_none hf _
    | some pn => exact fun j hj => testBit_bfe_of_some hf _ hj
  case bfi =>
    cases hf : fieldOf w.t ((laneIn s.m g e (.bfi w) w).c w.t l) ((laneIn s.m g e (.bfi w) w).d w.t l) with
    | none => exact bfi_of_none hf _ _
    | some pn => exact fun j => testBit_bfi_of_some hf _ _ j
  case sel => exact select_eq ..
  case bcast =>
    intro x from_ hread
    exact laneWrites_laneFinish h (exec_bcast_of_pass h hdst hread) (fun _ => rfl) (capture_issued ..) (capture_popped ..) rfl
      fun _ => rfl
  case shfl =>
    intro x idx seg from_ hb ha
    have hfrom : from_ = x.shflFrom := funext fun l => (shflLane_eq ..).symm
    clear_value from_
    subst hfrom
    obtain ⟨c, hissued, hpopped, hlatches, hexec⟩ := exec_shfl_of_pass h hb ha
    exact laneWrites_laneFinish h hexec (fun hs => by simp [isShadowed, hs]) hissued hpopped hlatches fun _ => rfl

end Sys2Proof
end

section
/-! PROOF. The element functions at their special operands: O19 and O20. No two values are each below the other; an approximate
function whose exact result is representable delivers it.
-/

namespace Sys2Proof.Machine

/-! The order of values (R142). -/

theorem alignedSum_swap (s s' : Bool) (m m' : Nat) (e e' : Int) :
    (alignedSum s' m' e' (!s) m e).1 = -(alignedSum s m e (!s') m' e').1 := by
  unfold alignedSum
  rw [min_comm e' e]
  cases s <;> cases s' <;> simp

theorem below_fin (s s' : Bool) (m m' : Nat) (e e' : Int) : (FVal.fin s m e).below (.fin s' m' e')
    = if m = 0 ∧ m' = 0 then s && !s' else decide ((alignedSum s m e (!s') m' e').1 < 0) := by
  simp [FVal.below]

theorem FVal.not_below_of_below {x y : FVal} (h : x.below y = true) : y.below x = false := by
  match x, y with
  | .nan _, .nan _ => rfl
  | .nan _, .fin _ _ _ => rfl
  | .fin _ _ _, .nan _ => rfl
  | .nan _, .inf s => cases s <;> simp_all [FVal.below]
  | .inf s, .nan _ => cases s <;> simp_all [FVal.below]
  | .inf s, .inf s' => cases s <;> cases s' <;> simp_all [FVal.below]
  | .inf s, .fin _ _ _ => cases s <;> simp_all [FVal.below]
  | .fin _ _ _, .inf s => cases s <;> simp_all [FVal.below]
  | .fin s m e, .fin s' m' e' =>
    rw [below_fin] at h ⊢
    by_cases h0 : m = 0 ∧ m' = 0
    · rw [if_pos h0] at h
      rw [if_pos h0.symm]
      cases s <;> simp_all
    · rw [if_neg h0, decide_eq_true_eq] at h
      rw [if_neg (fun hm => h0 hm.symm), decide_eq_false_iff_not, alignedSum_swap]
      omega

/-! FMIN, FMAX, FABS and FNEG (R142, R143). -/

theorem fMinMax_flags (f : Fmt) (isMax : Bool) (a b : Nat) :
    (fMinMax f isMax a b).2 = { FFlags.clear with iv := (decodeF f a).isSignalling || (decodeF f b).isSignalling } := rfl

section
variable {f : Fmt} {a b : Nat} (isMax : Bool)

theorem fMinMax_of_nan (ha : (decodeF f a).isNaN = true) :
    (fMinMax f isMax a b).1 = if (decodeF f b).isNaN then canonicalNaN f else b := by
  cases hb : (decodeF f b).isNaN <;> simp [fMinMax, ha, hb]

theorem fMinMax_of_nan_right (ha : (decodeF f a).isNaN = false) (hb : (decodeF f b).isNaN = true) :
    (fMinMax f isMax a b).1 = a := by simp [fMinMax, ha, hb]

theorem fMinMax_of_numbers (ha : (decodeF f a).isNaN = false) (hb : (decodeF f b).isNaN = false) :
    (fMinMax f isMax a b).1 = if (decodeF f a).below (decodeF f b) then (if isMax then b else a)
      else if (decodeF f b).below (decodeF f a) then (if isMax then a else b) else a := by simp [fMinMax, ha, hb]

end

theorem fSign_flags (f : Fmt) (isNeg : Bool) (a : Nat) :
    (fSign f isNeg a).2 = { FFlags.clear with iv := (decodeF f a).isSignalling } := by
  unfold fSign
  dsimp only
  split
  · rfl
  · split <;> rfl

theorem fSign_of_nan {f : Fmt} {a : Nat} (isNeg : Bool) (h : (decodeF f a).isNaN = true) :
    (fSign f isNeg a).1 = canonicalNaN f := by simp [fSign, h]

/-- FABS clears and FNEG inverts the top bit of an encoding. -/
theorem testBit_fSign {f : Fmt} {a : Nat} (isNeg : Bool) (hsign : f.hasSign = true) (ha : a < 2 ^ f.width)
    (h : (decodeF f a).isNaN = false) (j : Nat) : (fSign f isNeg a).1.testBit j =
      if j = f.ew + f.mw then isNeg && !a.testBit (f.ew + f.mw) else a.testBit j := by
  have hlow : a % 2 ^ (f.ew + f.mw) < 2 ^ (f.ew + f.mw) := Nat.mod_lt _ (Nat.two_pow_pos _)
  have hcode : a = 2 ^ (f.ew + f.mw) * (a.testBit (f.ew + f.mw)).toNat + a % 2 ^ (f.ew + f.mw) := by
    have hcode := eq_signBit_add_mod ha
    rw [hsign, Bool.true_and] at hcode
    cases htop : a.testBit (f.ew + f.mw) <;> simpa [htop, signBit, hsign] using hcode
  have hresult : (fSign f isNeg a).1
      = 2 ^ (f.ew + f.mw) * (isNeg && !a.testBit (f.ew + f.mw)).toNat + a % 2 ^ (f.ew + f.mw) := by
    cases isNeg with
    | false => simp [fSign, h]
    | true =>
      have hflip : (fSign f true a).1 = if 2 ^ (f.ew + f.mw) ≤ a then a - 2 ^ (f.ew + f.mw) else a + 2 ^ (f.ew + f.mw) := by
        simp [fSign, h]
      rw [hflip]
      cases htop : a.testBit (f.ew + f.mw) with
      | false =>
        rw [htop, Bool.toNat_false, Nat.mul_zero, Nat.zero_add] at hcode
        rw [if_neg (by omega), Bool.not_false, Bool.and_true, Bool.toNat_true, Nat.mul_one, ← hcode, Nat.add_comm]
      | true =>
        rw [htop, Bool.toNat_true, Nat.mul_one] at hcode
        rw [if_pos (by omega), Bool.not_true, Bool.and_false, Bool.toNat_false, Nat.mul_zero]
        omega
  rw [hresult, Nat.testBit_two_pow_mul_add _ hlow]
  rcases lt_trichotomy j (f.ew + f.mw) with hj | rfl | hj
  · rw [if_pos hj, if_neg hj.ne, Nat.testBit_mod_two_pow]
    simp [hj]
  · rw [if_neg (lt_irrefl _), if_pos rfl, Nat.sub_self, Nat.testBit_bool_toNat]
    rfl
  · have hwide : f.width ≤ j := by simp [Fmt.width, hsign]; omega
    rw [if_neg hj.not_gt, if_neg hj.ne', Nat.testBit_lt_two_pow (ha.trans_le (Nat.pow_le_pow_right Nat.two_pos hwide)),
      Nat.testBit_bool_toNat, decide_eq_false (by omega), Bool.false_and]

end Sys2Proof.Machine

namespace Sys2Proof
open Machine

/-- Settles O19: the order of values decides between the operands of FMIN and FMAX, and the sign bit alone moves in FABS and
FNEG. -/
theorem minMaxAndSignElements : Obligations.MinMaxAndSignElements := by
  unfold Obligations.MinMaxAndSignElements
  refine ⟨fun f a b _ _ _ isMax => ?minMax, fun f a hsign ha isNeg => ?sign, by decide, by decide⟩
  case minMax =>
    refine ⟨fMinMax_flags f isMax a b, fun hx hy => ?_, fun hx hy => ?_, fMinMax_of_nan_right isMax, fun hx hy => ?_⟩
    · rw [fMinMax_of_nan isMax hx, if_pos hy]
    · rw [fMinMax_of_nan isMax hx, hy]
      rfl
    · rw [fMinMax_of_numbers isMax hx hy]
      cases hxy : (decodeF f a).below (decodeF f b) with
      | true =>
        rw [FVal.not_below_of_below hxy]
        cases isMax <;> simp
      | false => cases (decodeF f b).below (decodeF f a) <;> cases isMax <;> simp
  case sign => exact ⟨fSign_flags f isNeg a, fSign_of_nan isNeg, testBit_fSign isNeg hsign ha⟩

end Sys2Proof
end

section
/-! PROOF. The special functions at zeros, infinities, NaNs and negative operands: O20. An approximate function whose exact result
is representable, and whose bound is zero, delivers that result.
-/

namespace Sys2Proof.Machine

section
variable {f : Fmt} {a : Nat}

/-! The encoding of one (R53): a power of two that is 1 rounds to it in every direction. -/

/-- The encoding of ±1. -/
def oneCode (f : Fmt) (neg : Bool) : Nat := signBit f neg + f.bias * 2 ^ f.mw

theorem roundUnits_two_pow_neg (r : Rnd) (neg : Bool) (k n : Nat) : roundUnits r neg (2 ^ k) 1 (-k) (-n) = 2 ^ n := by
  have hnum : scaleUp (2 ^ k) (-(k : Int) - -n) = 2 ^ n * scaleUp 1 (-(n : Int) - -k) := by
    unfold scaleUp
    rw [Nat.one_mul, ← pow_add, ← pow_add]
    congr 1
    omega
  have hden := scaleUp_pos Nat.one_pos (-(n : Int) - -k)
  rw [roundUnits_eq, hnum, Nat.mul_mod_left, Nat.mul_div_cancel _ hden]
  exact if_neg fun h => absurd (Rnd.rem_pos_of_goesUp hden h) (lt_irrefl 0)

theorem roundTo_two_pow_neg (f : Fmt) (r : Rnd) (sat neg : Bool) (k : Nat) :
    roundTo f r sat neg (2 ^ k) 1 (-k) = (oneCode f neg, .clear) := by
  have hbias : 1 ≤ f.bias ∧ f.bias * 2 ^ f.mw ≤ maxFinite f := by cases f <;> decide
  have hq : max (leading (2 ^ k) 1 (-(k : Int)) - f.mw) f.qmin = -(f.mw : Int) := by
    rw [leading_one (Nat.two_pow_pos k).ne', Nat.log2_two_pow]
    unfold Fmt.qmin
    omega
  have hne : 2 ^ f.mw ≠ 2 ^ (f.mw + 1) := (Nat.pow_lt_pow_succ Nat.one_lt_two).ne
  have hex : (-(f.mw : Int) + f.bias + f.mw).toNat = f.bias := by omega
  unfold roundTo
  simp only [if_neg (Nat.two_pow_pos k).ne', hq, roundUnits_two_pow_neg, if_neg hne, if_neg (lt_irrefl _), hex, Nat.sub_self,
    Nat.add_zero, if_neg (Nat.not_lt.2 hbias.2)]
  rfl

theorem roundTo_one (f : Fmt) (r : Rnd) (sat neg : Bool) : roundTo f r sat neg 1 1 0 = (oneCode f neg, .clear) :=
  roundTo_two_pow_neg f r sat neg 0

/-! Approximate results (R152). -/

theorem ofOrdinal_ordinal (f : Fmt) (c : Nat) : ofOrdinal f (ordinal f c) = c := by
  unfold ofOrdinal ordinal
  dsimp only
  split <;> split <;> omega

/-- Where both ends of the bound round to the encoding of the exact value, that encoding is delivered. -/
theorem within_of_code_eq {fn : Nat} {x : Real2} {y q : Int} (hlo : (x.plus (-y) q).code f .rup = x.code f .rne)
    (hhi : (x.plus y q).code f .rdn = x.code f .rne) : within f fn a x y q = x.code f .rne := by
  have hspan : ∀ n : Int, (n - n + 1).toNat = 1 := fun n => by omega
  rw [within, hlo, hhi, min_self, max_self, hspan, Nat.mod_one, Int.natCast_zero, add_zero, ofOrdinal_ordinal]

theorem toFixed_zero (neg : Bool) (e : Int) : toFixed neg 0 e = 0 := by
  cases neg <;> simp [toFixed, scaleUp]

theorem approxTo_one (sat : Bool) (fn : Nat) : approxTo f sat fn a { n := 1, e := 0 } 0 f.qmin = (oneCode f false, .clear) := by
  have hcode : ∀ r, ({ n := 1, e := 0 } : Real2).code f r = oneCode f false := fun r => congrArg Prod.fst (roundTo_one f r true false)
  have hqmin : f.qmin ≤ 0 ∧ f.qmin = -(f.qmin.natAbs : Int) := by
    have : f.qmin ≤ 0 := by cases f <;> decide
    omega
  have hplus : ∀ r, (({ n := 1, e := 0 } : Real2).plus 0 f.qmin).code f r = oneCode f false := by
    intro r
    have hp : ({ n := 1, e := 0 } : Real2).plus 0 f.qmin = { n := 2 ^ f.qmin.natAbs, e := -(f.qmin.natAbs : Int) } := by
      have hsub : (0 - f.qmin).toNat = f.qmin.natAbs := by omega
      rw [Real2.plus, min_eq_right hqmin.1]
      dsimp only
      rw [hsub, one_mul, zero_mul, add_zero, ← hqmin.2]
    have hneg : decide ((2 : Int) ^ f.qmin.natAbs < 0) = false := decide_eq_false (not_lt.2 (by positivity))
    have habs : ((2 : Int) ^ f.qmin.natAbs).natAbs = 2 ^ f.qmin.natAbs := by rw [Int.natAbs_pow]; rfl
    rw [hp, Real2.code, hneg, habs, roundTo_two_pow_neg]
  have hround : roundTo f .rne sat (decide ((1 : Int) < 0)) (Int.natAbs 1) 1 0 = (oneCode f false, .clear) :=
    roundTo_one f .rne sat false
  rw [approxTo, hround]
  dsimp only
  rw [within_of_code_eq (by rw [neg_zero, hplus, hcode]) (by rw [hplus, hcode]), hcode]
  rfl

/-! EXP2, COS and TANH where their exact result is 1 (R153). -/

theorem fExp2_zero {neg : Bool} {e : Int} (sat : Bool) (h : decodeF f a = .fin neg 0 e) :
    fExp2 f sat a = (oneCode f false, .clear) := by
  have hqmin : ¬ 0 < f.qmin := by cases f <;> decide
  rw [fExp2, h]
  simp only [toFixed_zero, Int.zero_ediv, if_neg hqmin, ne_eq, not_true_eq_false, decide_false, Bool.false_and,
    Bool.false_eq_true, if_false, decide_true, Bool.true_or, if_true]
  exact approxTo_one sat 2

theorem fTrig_zero {neg : Bool} {e : Int} (isCos : Bool) (h : decodeF f a = .fin neg 0 e) :
    fTrig f isCos a = (if isCos then oneCode f false else a, .clear) := by
  rw [fTrig, h]
  simp only [if_true, roundTo_one]

theorem fTanh_inf {neg : Bool} (h : decodeF f a = .inf neg) : fTanh f a = (oneCode f neg, .clear) := by
  rw [fTanh, h]
  simp only [roundTo_one]

end

end Sys2Proof.Machine

namespace Sys2Proof
open Machine

/-- Settles O20: by the kind of the operand. -/
theorem specialOperands : Obligations.SpecialOperands := by
  unfold Obligations.SpecialOperands
  intro f r sat a _ zero inf one nan ok dz
  cases h : decodeF f a with
  | nan s => simp only [fRcp, fRsq, fSqrt, fExp2, fLog2, fTrig, fTanh, h, nan, and_self]
  | inf n =>
    have hresults : fRcp f r sat a = ok (zero n) ∧ fSqrt f r sat a = (if n then (nan, .invalid) else ok a)
        ∧ fTrig f false a = (nan, .invalid) ∧ fTrig f true a = (nan, .invalid) := by
      simp only [fRcp, fSqrt, fTrig, h, and_self, ok, zero, nan]
    obtain ⟨hrcp, hsqrt, hsin, hcos⟩ := hresults
    refine ⟨hrcp, ?_, hsqrt, fun _ => ⟨?_, ?_, hsin, hcos, fTanh_inf h⟩⟩
    · rw [fRsq, h]
      rfl
    · rw [fExp2, h]
      cases n <;> rfl
    · rw [fLog2, h]
  | fin n m e =>
    refine ⟨?zero, ?nonzero⟩
    case zero =>
      rintro rfl
      have hresults : fRcp f r sat a = dz (inf n) ∧ fRsq f sat a = dz (inf n) ∧ fSqrt f r sat a = ok a ∧ fLog2 f a = dz (inf true)
          ∧ fTanh f a = ok a := by
        simp only [fRcp, fRsq, fSqrt, fLog2, fTanh, h, if_true, and_self, ok, dz, inf]
      obtain ⟨hrcp, hrsq, hsqrt, hlog, htanh⟩ := hresults
      exact ⟨hrcp, hrsq, hsqrt, fun _ => ⟨fExp2_zero sat h, hlog, fTrig_zero false h, fTrig_zero true h, htanh⟩⟩
    case nonzero =>
      intro hm
      have hneg (hn : n = true) : fRsq f sat a = (nan, .invalid) ∧ fSqrt f r sat a = (nan, .invalid) ∧ fLog2 f a = (nan, .invalid) := by
        simp only [fRsq, fSqrt, fLog2, h, if_neg hm, hn, if_true, and_self, nan]
      have hrcp : fRcp f r sat a = roundTo f r sat n 1 m (-e) := by
        simp only [fRcp, h, if_neg hm]
      exact ⟨hrcp, hneg⟩

end Sys2Proof
end

section
/-! PROOF. The floating-point opcodes, the conversions and the dot products: O18 and O22. Each is one lane computation, whose
conditions are those of its elements.
-/

namespace Sys2Proof.Machine

section
variable {s : State} {gid n : Nat} {g : Group} {e : LiqEntry} {w : LaneWord} {i : Instr}

/-- An instruction that computes element by element gives each element, and every condition that an element has (R72, R73). -/
theorem laneComputes_perElemF {el : LaneIn → Nat → Nat → Nat × FFlags}
    (hi : exec i s = laneArith s i w n fun x l => perElemF w.t (el x l)) :
    LaneComputes i w s gid g e n fun l v fl =>
      (∀ k, k < w.t.count → elem w.t.ew v k = (el (laneIn s.m g e i w) l k).1 % 2 ^ w.t.ew)
      ∧ (fl.ov = true ↔ ∃ k, k < w.t.count ∧ (el (laneIn s.m g e i w) l k).2.ov = true)
      ∧ (fl.dz = true ↔ ∃ k, k < w.t.count ∧ (el (laneIn s.m g e i w) l k).2.dz = true)
      ∧ (fl.iv = true ↔ ∃ k, k < w.t.count ∧ (el (laneIn s.m g e i w) l k).2.iv = true) := by
  refine laneComputes_laneArith hi fun l => ⟨fun k hk => ?_, perElemF_ov .., perElemF_dz .., perElemF_iv ..⟩
  rw [perElemF_fst, elem_perElem _ _ hk]

/-- A computation of which more is said than is asked. -/
theorem laneComputes_mono {P Q : Nat → Nat → FFlags → Prop} (h : LaneComputes i w s gid g e n P) (hPQ : ∀ l v fl, P l v fl → Q l v fl) :
    LaneComputes i w s gid g e n Q := by
  intro hwf hissues hread
  obtain ⟨f, hf, hdone⟩ := h hwf hissues hread
  exact ⟨f, fun l hl => hPQ l _ _ (hf l hl), hdone⟩

/-! Conversions (R148, R149). -/

/-- What CVT writes, and its conditions. -/
def cvtElement (w : LaneWord) (x : LaneIn) (l : Nat) : Nat × FFlags :=
  let st := w.srcType.getD .i32
  let c := convertTo w.t (x.rndTo w.t) (x.satTo w.t) (st.value (elem st.ew (x.val st 0 w.a l) 0))
  (c.1 % 2 ^ w.t.ew, c.2)

/-- Element k of what CVTP writes, and its conditions. -/
def cvtpElement (w : LaneWord) (x : LaneIn) (l k : Nat) : Nat × FFlags :=
  let st := w.srcType.getD .i32
  if w.sub < 128 then
    convertF w.t.fmt (x.rndOf w.t.fmt) (x.satOf w.t.fmt) (decodeF st.fmt (elem st.ew (x.source st (k / st.count) l) (k % st.count)))
  else convertF w.t.fmt .rne false (decodeF st.fmt (elem st.ew (x.a st l) (bits w.sub 5 2 * w.t.count + k)))

/-! Dot products (R154). -/

/-- What a dot product writes, and its conditions. -/
def dotLane (w : LaneWord) (x : LaneIn) (l : Nat) : Nat × FFlags :=
  let tb := if w.sub % 2 = 1 then otherFp8 w.t else w.t
  if w.t.isInt then (dotI w.t w.sat (x.a w.t l) (x.b w.t l) (x.c (dotAcc w.t) l), .clear)
  else dotF w.t tb (x.rndOf .fp32) (x.satOf .fp32) (x.a w.t l) (x.b tb l) (x.c .f32 l)

theorem dotLane_of_isInt (h : w.t.isInt = true) (x : LaneIn) (l : Nat) :
    dotLane w x l = (dotI w.t w.sat (x.a w.t l) (x.b w.t l) (x.c (dotAcc w.t) l), .clear) := if_pos h

theorem dotLane_of_not_isInt (h : w.t.isInt = false) (x : LaneIn) (l : Nat) :
    let tb := if w.sub % 2 = 1 then otherFp8 w.t else w.t
    dotLane w x l = dotF w.t tb (x.rndOf .fp32) (x.satOf .fp32) (x.a w.t l) (x.b tb l) (x.c .f32 l) :=
  if_neg (ne_true_of_eq_false h)

theorem foldl_add_eq_sum (p : Nat → Int) (ks : List Nat) (a : Int) : ks.foldl (fun a k => a + p k) a = a + (ks.map p).sum := by
  induction ks generalizing a with
  | nil => simp
  | cons k ks ih => rw [List.foldl_cons, ih, List.map_cons, List.sum_cons, add_assoc]

theorem dotI_eq (t : Ty) (sat : Bool) (a b c : Nat) : dotI t sat a b c = (dotAcc t).deliver sat ((dotAcc t).read c
    + ((List.range t.count).map fun k => t.read (elem t.ew a k) * t.read (elem t.ew b k)).sum) := by
  rw [dotI, foldl_add_eq_sum, zero_add]

end

end Sys2Proof.Machine

namespace Sys2Proof
open Machine

/-- Settles O18: each opcode runs its element function on every element. -/
theorem laneFloatResults : Obligations.LaneFloatResults := by
  unfold Obligations.LaneFloatResults
  intro s gid g e w t f computes
  have fp {i : Instr} {op : LaneIn → Nat → Nat → Rnd → Bool → Nat × FFlags} (hi : exec i s = laneArith s i w w.t.regs fun x l =>
      perElemF w.t fun k => op x l k (x.rndOf f) (x.satOf f)) : computes i op := laneComputes_perElemF hi
  clear_value computes
  exact ⟨fp rfl, fp rfl, fp rfl, fp rfl, fp rfl, fp rfl, fp rfl, fp rfl, fp rfl, fp rfl, fp rfl, fp rfl, fp rfl, fp rfl, fp rfl,
    fp rfl, fp rfl⟩

/-- Settles O22: CVT and the dot products give one value for a lane, CVTP one for each element. -/
theorem laneConvertAndDotResults : Obligations.LaneConvertAndDotResults := by
  unfold Obligations.LaneConvertAndDotResults
  intro s gid g e w t st
  refine ⟨?cvt, ?cvtp, fun i hi => ?dot⟩
  case cvt => exact laneComputes_laneArith (f := fun x l => cvtElement w x l) rfl fun l => ⟨rfl, rfl⟩
  case cvtp =>
    have hexec : exec (.cvtp w) s = laneArith s (.cvtp w) w w.t.regs fun x l => perElemF w.t (cvtpElement w x l) := by
      have hexec : exec (.cvtp w) s = execCvtp w s := rfl
      rw [hexec, execCvtp]
      unfold cvtpElement
      by_cases hsub : w.sub < 128 <;> simp only [hsub, if_true, if_false]
    exact laneComputes_mono (laneComputes_perElemF hexec) fun _ _ _ ⟨hel, hov, _, hiv⟩ => ⟨hel, hov, hiv⟩
  case dot =>
    have hexec : exec i s = laneArith s i w 1 (dotLane w) := by
      simp only [List.mem_cons, List.not_mem_nil, or_false] at hi
      rcases hi with rfl | rfl | rfl <;> rfl
    refine laneComputes_laneArith hexec fun l => ⟨fun hint => ?_, fun hfloat => ?_⟩
    · rw [dotLane_of_isInt hint]
      exact ⟨rfl, dotI_eq ..⟩
    · exact dotLane_of_not_isInt hfloat _ l

end Sys2Proof
end

section
/-! PROOF. The compares and the predicate logic of the lanes: O23. -/

namespace Sys2Proof.Machine

section
variable {s : State} {gid : Nat} {g : Group} {e : LiqEntry} {w : LaneWord} {i : Instr}

theorem laneDecides_lanePred {f : LaneIn → Nat → Bool × FFlags} (hi : exec i s = lanePred s i w f) {P : Nat → Bool → FFlags → Prop}
    (hP : i.wf = true → ∀ l, P l (f (laneIn s.m g e i w) l).1 (f (laneIn s.m g e i w) l).2) : LaneDecides i w s gid g e P :=
  fun hwf => lanePred_writes w f P hi (fun l _ => hP hwf l) hwf

/-- A source predicate is a predicate of the group: p7 reads 1 (R145). -/
theorem pred_iff (g : Group) (k l : Nat) : k = 7 ∨ g.pred k l = true ↔ g.pred k l = true :=
  or_iff_right_of_imp fun h => by rw [h]; rfl

theorem intCond_spec (cc : Nat) (a b : Int) :
    (cc = 0 → (intCond cc a b = true ↔ a = b)) ∧ (cc = 1 → (intCond cc a b = true ↔ a ≠ b))
    ∧ (cc = 2 → (intCond cc a b = true ↔ a < b)) ∧ (cc = 3 → (intCond cc a b = true ↔ a ≤ b))
    ∧ (cc = 4 → (intCond cc a b = true ↔ a > b)) ∧ (cc = 5 → (intCond cc a b = true ↔ a ≥ b)) := by
  refine ⟨?_, ?_, ?_, ?_, ?_, ?_⟩ <;> rintro rfl <;> simp [intCond]

/-! FCMP (R144). -/

/-- The condition of FCMP that a subfunction names, of whether its operands are unordered, equal, or below or above each
other. -/
def floatCond (cc : Nat) (un eq lt gt : Bool) : Bool :=
  match cc with
  | 0 => eq
  | 1 => !eq
  | 2 => lt
  | 3 => lt || eq
  | 4 => gt
  | 5 => gt || eq
  | 6 => un
  | _ => !un

theorem floatCond_un : ∀ cc < 8, floatCond cc true false false false = true ↔ cc = 1 ∨ cc = 6 := by decide

theorem floatCond_eq : ∀ cc < 8, floatCond cc false true false false = true ↔ cc ∈ [0, 3, 5, 7] := by decide

theorem floatCond_lt : ∀ cc < 8, floatCond cc false false true false = true ↔ cc ∈ [1, 2, 3, 7] := by decide

theorem floatCond_gt : ∀ cc < 8, floatCond cc false false false true = true ↔ cc ∈ [1, 4, 5, 7] := by decide

/-- Whether two values are equal as numbers: both zeros, or none below the other. -/
def FVal.same (x y : FVal) : Bool := (x.isZero && y.isZero) || (!x.below y && !y.below x)

section
variable {f : Fmt} {cc a b : Nat}

theorem fCompare_of_unordered (hcc : cc < 8) (h : (decodeF f a).isNaN = true ∨ (decodeF f b).isNaN = true) :
    (fCompare f cc a b).1 = true ↔ cc = 1 ∨ cc = 6 := by
  have hun : ((decodeF f a).isNaN || (decodeF f b).isNaN) = true := by simpa using h
  have hcond : (fCompare f cc a b).1 = floatCond cc true false false false := by
    unfold fCompare
    simp only [hun, Bool.not_true, Bool.false_and]
    rfl
  rw [hcond, floatCond_un cc hcc]

theorem fCompare_of_ordered (h : ¬ ((decodeF f a).isNaN = true ∨ (decodeF f b).isNaN = true)) :
    (fCompare f cc a b).1 = floatCond cc false ((decodeF f a).same (decodeF f b))
      (!(decodeF f a).same (decodeF f b) && (decodeF f a).below (decodeF f b))
      (!(decodeF f a).same (decodeF f b) && (decodeF f b).below (decodeF f a)) := by
  have hun : ((decodeF f a).isNaN || (decodeF f b).isNaN) = false := by simpa using h
  unfold fCompare
  simp only [hun, Bool.not_false, Bool.true_and]
  rfl

theorem fCompare_of_same (hcc : cc < 8) (h : ¬ ((decodeF f a).isNaN = true ∨ (decodeF f b).isNaN = true))
    (heq : (decodeF f a).same (decodeF f b) = true) : (fCompare f cc a b).1 = true ↔ cc ∈ [0, 3, 5, 7] := by
  rw [fCompare_of_ordered h, heq, Bool.not_true, Bool.false_and, Bool.false_and, floatCond_eq cc hcc]

theorem same_of_below {x y : FVal} (h0 : ¬ (x.isZero = true ∧ y.isZero = true)) (h : x.below y = true ∨ y.below x = true) :
    x.same y = false := by
  have hz : (x.isZero && y.isZero) = false := by simpa using h0
  rw [FVal.same, hz]
  rcases h with h | h <;> simp [h]

theorem fCompare_of_below (hcc : cc < 8) (h : ¬ ((decodeF f a).isNaN = true ∨ (decodeF f b).isNaN = true))
    (h0 : ¬ ((decodeF f a).isZero = true ∧ (decodeF f b).isZero = true)) (hlt : (decodeF f a).below (decodeF f b) = true) :
    (fCompare f cc a b).1 = true ↔ cc ∈ [1, 2, 3, 7] := by
  rw [fCompare_of_ordered h, same_of_below h0 (.inl hlt), hlt, FVal.not_below_of_below hlt]
  exact floatCond_lt cc hcc

theorem fCompare_of_above (hcc : cc < 8) (h : ¬ ((decodeF f a).isNaN = true ∨ (decodeF f b).isNaN = true))
    (h0 : ¬ ((decodeF f a).isZero = true ∧ (decodeF f b).isZero = true)) (hgt : (decodeF f b).below (decodeF f a) = true) :
    (fCompare f cc a b).1 = true ↔ cc ∈ [1, 4, 5, 7] := by
  rw [fCompare_of_ordered h, same_of_below h0 (.inr hgt), hgt, FVal.not_below_of_below hgt]
  exact floatCond_gt cc hcc

theorem sub_lt_of_wf_fcmp (hwf : (Instr.fcmp w).wf = true) : w.sub < 8 := by
  have hlegal : ((Shape.pred .pred (.typed w.t) (.typed w.t) (w.isOf [.f64, .f32, .f16, .bf16] && w.sub < 8)).legal false w && true)
      = true := hwf
  unfold Shape.legal Shape.pred at hlegal
  simp only [Bool.and_eq_true, decide_eq_true_eq] at hlegal
  tauto

end

end

end Sys2Proof.Machine

namespace Sys2Proof
open Machine

/-- Settles O23: each condition by the order of the operands, and each logic opcode by its truth table. -/
theorem predicateResults : Obligations.PredicateResults := by
  unfold Obligations.PredicateResults
  intro s gid g e w p logic
  have hp : ∀ (c : BitVec 9) l, p c l ↔ g.pred c.toNat l = true := fun c l => pred_iff g c.toNat l
  have hlogic {i : Instr} (f : LaneIn → Nat → Bool) (hi : exec i s = lanePred s i w fun x l => (f x l, .clear)) {is : Nat → Prop}
      (h : ∀ l, f (laneIn s.m g e i w) l = true ↔ is l) : logic i is := laneDecides_lanePred hi fun _ l => ⟨rfl, h l⟩
  clear_value logic p
  refine ⟨laneDecides_lanePred (f := fun x l => (intCond w.sub (x.ai l 0) (x.bi l 0), .clear)) rfl fun _ l => ⟨rfl, intCond_spec ..⟩,
    laneDecides_lanePred (f := fun x l => fCompare w.t.fmt w.sub (x.ar l 0) (x.br l 0)) rfl fun hwf l => ?fcmp,
    hlogic (fun x l => x.pa l && x.pb l) rfl fun l => ?and, hlogic (fun x l => x.pa l || x.pb l) rfl fun l => ?or,
    hlogic (fun x l => x.pa l != x.pb l) rfl fun l => ?xor, hlogic (fun x l => !x.pa l) rfl fun l => ?not,
    hlogic (fun x l => x.pa l) rfl fun l => (hp w.a l).symm⟩
  case fcmp =>
    have hcc := sub_lt_of_wf_fcmp hwf
    refine ⟨rfl, fCompare_of_unordered hcc, fun hun ha hc => fCompare_of_same hcc hun ?_, fun hun => fCompare_of_below hcc hun,
      fun hun h0 _ => fCompare_of_above hcc hun h0, fun hun hlt hgt => fCompare_of_same hcc hun ?_⟩
    · rw [FVal.same, ha, hc]
      rfl
    · rw [FVal.same, hlt, hgt, Bool.not_false, Bool.and_true, Bool.or_true]
  case and =>
    rw [hp, hp]
    exact Bool.and_eq_true_iff
  case or =>
    rw [hp, hp]
    exact Bool.or_eq_true_iff
  case xor =>
    rw [hp, hp, ← Bool.eq_iff_iff]
    exact bne_iff_ne
  case not =>
    rw [hp, Bool.not_eq_true]
    exact iff_of_eq (Bool.not_eq_true' _)

end Sys2Proof
end

section
/-! PROOF. The pushes to the queues, the shadow check and the hints: O24. A push happens once whatever E holds; SHDW leaves the
residues of the recomputed values in the check fields, the last write of a field standing.
-/

namespace Sys2Proof.Machine

section
variable {s : State} {gid : Nat} {g g1 : Group} {e : LiqEntry} {w : LaneWord} {i : Instr}

/-- An instruction that ends with its group changed in registers, checks and FQ alone, and captures nothing, completes so. -/
theorem laneLeaves_laneFinish (h : Issues s gid g e i)
    (hi : exec i s = .next { s with m := laneFinish s.m gid g1 e i w (g.chain.getD Chain.empty) })
    (hg1 : g1 = { g with v := g1.v, chk := g1.chk, qs := { g.qs with fq := g1.qs.fq } }) :
    LaneLeaves i w s gid g e g1 fun _ => True := by
  refine laneFinish_leaves h w g1 _ _ hi ?_ ?_ ?_ ?_ ?_ ?_ ?_ ?_ rfl rfl fun _ _ => trivial
  all_goals rw [hg1]

/-! PSUM and PTOQ (R146, R147). -/

/-- The FQ entry that PSUM pushes. -/
def sumEntry (ps : List Bool) : BitVec 2 := BitVec.ofNat 2 ((if ps.all id then 2 else 0) + (if ps.any id then 1 else 0))

theorem sumEntry_any (ps : List Bool) : (sumEntry ps).getLsbD 0 = ps.any id := by
  unfold sumEntry
  cases ps.all id <;> cases ps.any id <;> decide

theorem sumEntry_all (ps : List Bool) : (sumEntry ps).getLsbD 1 = ps.all id := by
  unfold sumEntry
  cases ps.all id <;> cases ps.any id <;> decide

theorem exec_psum (h : Issues s gid g e (.psum w)) :
    let x := laneIn s.m g e (.psum w) w
    exec (.psum w) s = .next { s with
      m := laneFinish s.m gid { g with qs := { g.qs with fq := g.qs.fq ++ [sumEntry (x.lanes.map x.pa)] } } e (.psum w) w
        (g.chain.getD Chain.empty) } := by
  have hexec : exec (.psum w) s = execPsum w s := rfl
  rw [hexec, execPsum, laneStep_next h]
  rfl

/-- A mask made bit by bit. -/
theorem foldl_mask_spec (p : Nat → Bool) (n : Nat) :
    let m := (List.range n).foldl (fun m j => m + if p j then 2 ^ j else 0) 0
    m < 2 ^ n ∧ ∀ j, j < n → m.testBit j = p j := by
  induction n with
  | zero => exact ⟨Nat.one_pos, fun j hj => absurd hj (Nat.not_lt_zero j)⟩
  | succ n ih =>
    obtain ⟨hlt, hbits⟩ := ih
    have htop : ∀ b : Bool, (if b then 2 ^ n else 0) = 2 ^ n * b.toNat := by intro b; cases b <;> simp
    rw [List.range_succ, List.foldl_append, List.foldl_cons, List.foldl_nil, htop, Nat.add_comm]
    refine ⟨?_, fun j hj => ?_⟩
    · have hle := Nat.mul_le_mul_left (2 ^ n) (p n).toNat_le
      rw [pow_succ]
      omega
    · rw [Nat.testBit_two_pow_mul_add _ hlt]
      by_cases hjn : j < n
      · rw [if_pos hjn, hbits j hjn]
      · obtain rfl : j = n := by omega
        rw [if_neg hjn, Nat.sub_self, Nat.testBit_bool_toNat]
        rfl

theorem getLsbD_beatMask (x : LaneIn) (b : Nat) {j : Nat} (hj : j < 32) :
    (x.beatMask b).getLsbD j = (x.inE (32 * b + j) && x.pa (32 * b + j)) := by
  rw [LaneIn.beatMask, BitVec.getLsbD_ofNat, (foldl_mask_spec (fun j => x.inE (32 * b + j) && x.pa (32 * b + j)) 32).2 j hj]
  simp [hj]

theorem inE_iff {l : Nat} (hl : l < g.width) : (laneIn s.m g e i w).inE l = true ↔ effective g e w l := by
  have hwidth : (laneIn s.m g e i w).g.width = g.width := rfl
  rw [← mem_lanes s g e i w l, LaneIn.lanes, List.mem_filter, List.mem_range, hwidth, and_iff_right hl]

theorem readsPass_nil (i : Instr) (g : Group) : ReadsPass i g [] := by
  simp [ReadsPass, Group.readFails, aany]

/-! REDQ (R158). -/

/-- The fixed tree over the leaves: level n + 1 combines neighbours of level n. -/
def reduction {α : Type} (f : α → α → α) (leaf : Nat → α) : Nat → Nat → α
  | 0, k => leaf k
  | n + 1, k => f (reduction f leaf n (2 * k)) (reduction f leaf n (2 * k + 1))

theorem pairUp_range {α : Type} (f : α → α → α) (n : Nat) : ∀ h : Nat → α,
    pairUp f ((List.range (2 * n)).map h) = (List.range n).map fun k => f (h (2 * k)) (h (2 * k + 1)) := by
  induction n with
  | zero => intro h; rfl
  | succ n ih =>
    intro h
    have htwo : List.range (2 * (n + 1)) = 0 :: 1 :: (List.range (2 * n)).map fun k => k + 2 := by
      rw [Nat.mul_succ, List.range_succ_eq_map, List.range_succ_eq_map, List.map_cons, List.map_map]
      rfl
    rw [htwo, List.map_cons, List.map_cons, List.map_map, pairUp, ih, List.range_succ_eq_map, List.map_cons, List.map_map]
    rfl

theorem treeReduce_range {α : Type} (f : α → α → α) (leaf : Nat → α) (n : Nat) : ∀ j,
    treeReduce f n ((List.range (2 ^ n)).map (reduction f leaf j)) = [reduction f leaf (j + n) 0] := by
  induction n with
  | zero => intro j; rfl
  | succ n ih =>
    intro j
    have hstep : (fun k => f (reduction f leaf j (2 * k)) (reduction f leaf j (2 * k + 1))) = reduction f leaf (j + 1) := rfl
    rw [treeReduce, pow_succ, Nat.mul_comm, pairUp_range, hstep, ih, Nat.add_right_comm]
    rfl

/-- What a lane brings to the tree: its value, or the identity outside E. -/
def redLeaf (w : LaneWord) (x : LaneIn) (l : Nat) : Nat × FFlags :=
  (if l < x.g.width && x.inE l then x.a w.t l else redIdentity w.t w.sub, .clear)

theorem redLeaf_of_effective {l : Nat} (h : effective g e w l) :
    redLeaf w (laneIn s.m g e i w) l = ((laneIn s.m g e i w).a w.t l, .clear) := by
  have hl : decide (l < (laneIn s.m g e i w).g.width) = true := decide_eq_true h.1
  rw [redLeaf, if_pos (Bool.and_eq_true_iff.2 ⟨hl, (inE_iff h.1).2 h⟩)]

theorem redLeaf_of_not_effective {l : Nat} (h : ¬ effective g e w l) :
    redLeaf w (laneIn s.m g e i w) l = (redIdentity w.t w.sub, .clear) := by
  have hcond : ¬ (decide (l < (laneIn s.m g e i w).g.width) && (laneIn s.m g e i w).inE l) = true := by
    intro hc
    obtain ⟨hl, hin⟩ := Bool.and_eq_true_iff.1 hc
    exact h ((inE_iff (of_decide_eq_true hl)).1 hin)
  rw [redLeaf, if_neg hcond]

/-- The tree of REDQ over 128 leaves: node k of level n. -/
def redTree (w : LaneWord) (x : LaneIn) : Nat → Nat → Nat × FFlags :=
  reduction (redStep w.t w.sub (x.rndOf .fp32) (x.satOf .fp32) w.sat) (redLeaf w x)

theorem exec_redq : exec (.redq w) s
    = lanePush s (.redq w) w LaneIn.lanes fun x => ([BitVec.ofNat 32 (redTree w x 7 0).1], (redTree w x 7 0).2) := by
  have hexec : exec (.redq w) s = execRedq w s := rfl
  have hroot (x : LaneIn) : treeReduce (redStep w.t w.sub (x.rndOf .fp32) (x.satOf .fp32) w.sat) 7
      ((List.range 128).map (redLeaf w x)) = [redTree w x 7 0] := treeReduce_range _ _ 7 0
  rw [hexec, execRedq]
  refine congrArg (lanePush s (.redq w) w LaneIn.lanes) (funext fun x => ?_)
  have h := hroot x
  unfold redLeaf at h
  dsimp only
  rw [h, List.headD_cons]

end

end Sys2Proof.Machine
end

section
/-! PROOF. The shadow check of SHDW (R159, R335, R344): which check fields it sets, and the bit that an injection flips. -/

namespace Sys2Proof.Machine

/-! Writes to a map one after another: of those to a key the last stands. -/

section
variable {α β : Type} {k : β → Nat} {v : β → α}

theorem aget_foldl_aput_of_ne (bs : List β) (m : AMap α) {j : Nat} (hj : ∀ b ∈ bs, j ≠ k b) :
    aget (bs.foldl (fun m b => aput m (k b) (v b)) m) j = aget m j := by
  induction bs generalizing m with
  | nil => rfl
  | cons b bs ih =>
    rw [List.foldl_cons, ih _ fun b' hb' => hj b' (List.mem_cons_of_mem _ hb'), aget_aput_ne _ _ _ _ (hj b List.mem_cons_self)]

theorem aget_foldl_aput_of_mem (bs : List β) (m : AMap α) {j : Nat} (hj : ∃ b ∈ bs, k b = j) :
    ∃ b ∈ bs, k b = j ∧ aget (bs.foldl (fun m b => aput m (k b) (v b)) m) j = some (v b) := by
  induction bs generalizing m with
  | nil =>
    obtain ⟨b, hb, -⟩ := hj
    cases hb
  | cons b bs ih =>
    rw [List.foldl_cons]
    by_cases hlater : ∃ b' ∈ bs, k b' = j
    · obtain ⟨b', hb', hkey, hget⟩ := ih (aput m (k b) (v b)) hlater
      exact ⟨b', List.mem_cons_of_mem _ hb', hkey, hget⟩
    · obtain ⟨b', hb', hkey⟩ := hj
      obtain rfl | hb' := List.mem_cons.1 hb'
      · refine ⟨b', List.mem_cons_self, hkey, ?_⟩
        rw [aget_foldl_aput_of_ne bs _ fun b hb h => hlater ⟨b, hb, h.symm⟩, ← hkey, aget_aput_self]
      · exact absurd ⟨b', hb', hkey⟩ hlater

end

/-! What SHDW compares and writes. -/

/-- The registers of the result that a SHDW checks: 2 of a wide one. -/
def ShadowResult.halves (r : ShadowResult) : Nat := if r.wide then 2 else 1

/-- The check field of register h of the result in a lane. -/
def ShadowResult.key (r : ShadowResult) (l h : Nat) : Nat := (r.reg + h) * 128 + l

/-- The lanes of a result with each of its registers. -/
def ShadowResult.fields (r : ShadowResult) : List ((Nat × Dword) × Nat) :=
  r.vals.flatMap fun v => (List.range r.halves).map fun h => (v, h)

theorem mem_fields {r : ShadowResult} {v : Nat × Dword} {h : Nat} : (v, h) ∈ r.fields ↔ v ∈ r.vals ∧ h < r.halves := by
  simp [ShadowResult.fields]

theorem checkCode_eq (y : Dword) (h : Nat) : checkCode y h = y.toNat / 2 ^ (32 * h) % 2 ^ 32 % 63 := by rw [checkCode, bits_eq]

theorem shadowMismatch_iff (g : Group) (r : ShadowResult) : shadowMismatch g r = true ↔
    ∃ v ∈ r.vals, ∃ h, h < r.halves ∧ (g.vreg (r.reg + h) v.1).toNat % 63 ≠ checkCode v.2 h := by
  simp only [shadowMismatch, List.any_eq_true, List.mem_range, bne_iff_ne]
  rfl

theorem shadowCheck_eq (g : Group) (r : ShadowResult) : shadowCheck g r
    = r.fields.foldl (fun m vh => aput m (r.key vh.1.1 vh.2) (.valid (checkCode vh.1.2 vh.2))) g.chk := by
  rw [shadowCheck, ShadowResult.fields, List.foldl_flatMap]
  simp only [List.foldl_map]
  rfl

theorem aget_shadowCheck (g : Group) (r : ShadowResult) {v : Nat × Dword} {h : Nat} (hv : v ∈ r.vals) (hh : h < r.halves) :
    ∃ v' ∈ r.vals, ∃ h', h' < r.halves ∧ r.key v'.1 h' = r.key v.1 h
      ∧ aget (shadowCheck g r) (r.key v.1 h) = some (.valid (checkCode v'.2 h')) := by
  obtain ⟨⟨v', h'⟩, hmem, hkey, hget⟩ := aget_foldl_aput_of_mem (k := fun vh => r.key vh.1.1 vh.2)
    (v := fun vh => Check.valid (checkCode vh.1.2 vh.2)) r.fields g.chk ⟨(v, h), mem_fields.2 ⟨hv, hh⟩, rfl⟩
  obtain ⟨hv', hh'⟩ := mem_fields.1 hmem
  exact ⟨v', hv', h', hh', hkey, by rw [shadowCheck_eq]; exact hget⟩

theorem aget_shadowCheck_of_ne (g : Group) (r : ShadowResult) {j : Nat} (hj : ∀ v ∈ r.vals, ∀ h, h < r.halves → j ≠ r.key v.1 h) :
    aget (shadowCheck g r) j = aget g.chk j := by
  rw [shadowCheck_eq]
  refine aget_foldl_aput_of_ne _ _ fun vh hvh => ?_
  obtain ⟨hv, hh⟩ := mem_fields.1 (show (vh.1, vh.2) ∈ r.fields from hvh)
  exact hj vh.1 hv vh.2 hh

/-! Injections (R344). -/

theorem forcesMismatch_iff (e : LiqEntry) : e.forcesMismatch = true ↔ ∃ a, e.inject = some (2, a) := by
  unfold LiqEntry.forcesMismatch
  split
  next a h => exact iff_of_true rfl ⟨a, h⟩
  next hne => exact iff_of_false Bool.false_ne_true fun ⟨a, h⟩ => hne a h

theorem injectFlip_sameButV (g : Group) (inject : Option (Nat × Nat)) (r : ShadowResult) :
    injectFlip g inject r = { g with v := (injectFlip g inject r).v } := by
  unfold injectFlip
  split <;> rfl

section
variable (g : Group) {r : ShadowResult} {a : Nat} {v : Nat × Dword} {rest : AMap Dword}

/-- An injection of kind 1 flips its bit in the first lane of the result. -/
theorem injectFlip_of_cons (hr : r.vals = v :: rest) : injectFlip g (some (1, a)) r
    = { g with v := putV g.v (r.reg * 128 + v.1) (g.vreg r.reg v.1 ^^^ BitVec.ofNat 32 (2 ^ (a % 32))) } := by
  unfold injectFlip
  rw [hr]
  rfl

theorem vreg_injectFlip_self (hr : r.vals = v :: rest) :
    (injectFlip g (some (1, a)) r).vreg r.reg v.1 = g.vreg r.reg v.1 ^^^ BitVec.ofNat 32 (2 ^ (a % 32)) := by
  rw [injectFlip_of_cons g hr]
  exact vreg_setV_self g r.reg v.1 _ none

theorem vreg_injectFlip_ne (hr : r.vals = v :: rest) {n l : Nat} (hne : n * 128 + l ≠ r.reg * 128 + v.1) :
    (injectFlip g (some (1, a)) r).vreg n l = g.vreg n l := by
  rw [injectFlip_of_cons g hr]
  exact vreg_setV_ne g r.reg v.1 n l _ none hne

end

theorem injectFlip_of_not (g : Group) {inject : Option (Nat × Nat)} {r : ShadowResult}
    (h : (∀ a, inject ≠ some (1, a)) ∨ r.vals = []) : injectFlip g inject r = g := by
  unfold injectFlip
  split
  next a v rest hr =>
    rcases h with h | h
    · exact absurd rfl (h a)
    · rw [h] at hr
      cases hr
  · rfl

section
variable {s : State} {gid : Nat} {g : Group} {e : LiqEntry} {w : LaneWord}

theorem fired_eq {e : LiqEntry} (h : g.qs.liq.head? = some e) :
    g.fired = { g with qs := { g.qs with liq := { e with inject := none } :: g.qs.liq.drop 1 } } := by
  unfold Group.fired
  split
  next e' r hl =>
    rw [hl] at h ⊢
    cases h
    rfl
  next hl =>
    rw [hl] at h
    cases h

/-- The result that a SHDW checks, where its chain holds one. -/
def shadowFound (g : Group) (w : LaneWord) : Option ShadowResult :=
  (g.chain.getD Chain.empty).shadows.find? fun r => r.reg = w.dst.toNat

theorem exec_shdw_of_none (h : Issues s gid g e (.shdw w)) (hf : shadowFound g w = none) :
    exec (.shdw w) s = .next { s with m := laneFinish s.m gid g e (.shdw w) w (g.chain.getD Chain.empty) } := by
  have hexec : exec (.shdw w) s = execShdw w s := rfl
  unfold shadowFound at hf
  rw [hexec, execShdw, laneStep_next h]
  dsimp only [laneIn]
  rw [hf]

theorem exec_shdw_of_some (h : Issues s gid g e (.shdw w)) {r : ShadowResult} (hf : shadowFound g w = some r) :
    exec (.shdw w) s = .next { s with
      m := if g.readFails (shadowSources (g.chain.getD Chain.empty) w.dst.toNat) (r.vals.map Prod.fst) then detectedError s.m gid 1
        else if e.forcesMismatch then detectedError (s.m.setGrp gid g.fired) gid 2
        else if shadowMismatch g r then detectedError s.m gid 2
        else laneFinish s.m gid (injectFlip { g with chk := shadowCheck g r } e.inject r) e (.shdw w) w (g.chain.getD Chain.empty) } := by
  have hexec : exec (.shdw w) s = execShdw w s := rfl
  unfold shadowFound at hf
  rw [hexec, execShdw, laneStep_next h]
  dsimp only [laneIn]
  rw [hf]
  rfl

/-- The group that a passing SHDW leaves. -/
def shadowPassed (g : Group) (e : LiqEntry) (r : ShadowResult) : Group := injectFlip { g with chk := shadowCheck g r } e.inject r

theorem shadowPassed_eq (g : Group) (e : LiqEntry) (r : ShadowResult) :
    shadowPassed g e r = { g with v := (shadowPassed g e r).v, chk := shadowCheck g r } := injectFlip_sameButV _ _ _

theorem shadowPassed_chk (g : Group) (e : LiqEntry) (r : ShadowResult) : (shadowPassed g e r).chk = shadowCheck g r :=
  congrArg Group.chk (shadowPassed_eq g e r)

theorem shadowPassed_qs (g : Group) (e : LiqEntry) (r : ShadowResult) : (shadowPassed g e r).qs = g.qs := by
  rw [shadowPassed_eq]

end

end Sys2Proof.Machine

namespace Sys2Proof
open Machine

/-- Settles O24: a push by its entries, the tree of REDQ by its levels, and SHDW by the first of its tests that fails. -/
theorem queuePushResults : Obligations.QueuePushResults := by
  unfold Obligations.QueuePushResults
  intro s gid g e w p pushes
  have hp : ∀ l, p l ↔ g.pred w.a.toNat l = true := fun l => pred_iff g w.a.toNat l
  have hpush {i : Instr} {lanes : LaneIn → List Nat} {f : LaneIn → List Word × FFlags} (h : Issues s gid g e i)
      (hi : exec i s = lanePush s i w lanes f) (hread : ReadsPass i g (lanes (laneIn s.m g e i w))) :
      pushes i (f (laneIn s.m g e i w)).1 (f (laneIn s.m g e i w)).2 := lanePush_leaves h w lanes f hi hread
  clear_value pushes p
  refine ⟨fun _ h => ?psum, fun _ h => ?ptoq, fun _ hdst h => ?bcast, fun _ h => ?redq, fun _ h => ?shdw, fun k _ h => ?hint⟩
  case psum =>
    refine ⟨_, ?_, ?_, laneLeaves_laneFinish h (exec_psum h) rfl⟩
    · simp only [sumEntry_any, List.any_map, List.any_eq_true, mem_lanes, hp]
      rfl
    · simp only [sumEntry_all, List.all_map, List.all_eq_true, mem_lanes, hp]
      rfl
  case ptoq =>
    refine ⟨(List.range g.beats).map (laneIn s.m g e (.ptoq w) w).beatMask, by simp [Group.beats], fun b x hx j hj => ?_,
      hpush (lanes := fun _ => []) (f := fun x => ((List.range x.g.beats).map x.beatMask, .clear)) h rfl (readsPass_nil _ _)⟩
    obtain ⟨hb, rfl⟩ : b < g.width / 32 ∧ (laneIn s.m g e (.ptoq w) w).beatMask b = x := by
      simpa [List.getElem?_eq_some_iff, Group.beats] using hx
    rw [getLsbD_beatMask _ b hj, Bool.and_eq_true, inE_iff (by omega), hp]
    rfl
  case bcast =>
    intro x from_ hread
    have hexec : exec (.bcast w) s = execBcast w s := rfl
    rw [execBcast, if_pos hdst] at hexec
    exact hpush h hexec hread
  case redq =>
    intro x hread
    exact ⟨redTree w x, fun _ hl => redLeaf_of_effective hl, fun _ _ hl => redLeaf_of_not_effective hl, fun _ _ _ _ => rfl,
      hpush h exec_redq hread⟩
  case shdw =>
    intro c found
    refine ⟨fun hnone => laneLeaves_laneFinish h (exec_shdw_of_none h hnone) rfl, ?_⟩
    intro r hr halves residue differs forced stale
    have hexec := exec_shdw_of_some h hr
    have hforced : e.forcesMismatch = true ↔ forced := forcesMismatch_iff e
    have hdiffers : shadowMismatch g r = true ↔ differs := by
      rw [shadowMismatch_iff]
      simp only [checkCode_eq]
      rfl
    refine ⟨fun hs => ?_, fun hs hf => ?_, fun hs hf hd => ?_, fun hs hf hd => ?_⟩
    · rw [hexec, if_pos hs]
    · rw [hexec, if_neg (ne_true_of_eq_false hs), if_pos (hforced.2 hf), fired_eq h.2.1]
    · rw [hexec, if_neg (ne_true_of_eq_false hs), if_neg (mt hforced.1 hf), if_pos (hdiffers.2 hd)]
    · rw [if_neg (ne_true_of_eq_false hs), if_neg (mt hforced.1 hf), if_neg (mt hdiffers.1 hd)] at hexec
      refine ⟨shadowPassed g e r, ?_, fun v hv k hk => ?_, fun k hk => ?_, fun a v rest hinj hvals => ⟨?_, fun n l hne => ?_⟩,
        fun hnot => ?_, laneLeaves_laneFinish h hexec ?_⟩
      · rw [shadowPassed_chk]
        exact shadowPassed_eq g e r
      · obtain ⟨v', hv', k', hk', hkey, hget⟩ := aget_shadowCheck g r hv hk
        rw [checkCode_eq, ← shadowPassed_chk g e] at hget
        exact ⟨v', hv', k', hk', hkey, hget⟩
      · rw [shadowPassed_chk]
        exact aget_shadowCheck_of_ne g r hk
      · rw [shadowPassed, hinj]
        exact vreg_injectFlip_self _ hvals
      · rw [shadowPassed, hinj]
        exact vreg_injectFlip_ne _ hvals hne
      · rw [shadowPassed, injectFlip_of_not _ hnot]
      · rw [shadowPassed_qs, shadowPassed_chk]
        exact shadowPassed_eq g e r
  case hint =>
    have hexec : exec (.laneHint k w) s = execLaneHint k w s := rfl
    rw [execLaneHint, laneStep_next h] at hexec
    exact laneLeaves_laneFinish h hexec rfl

end Sys2Proof
end

section
/-! PROOF. What a byte of memory reads as, and what a store does to it (R8, R166). Every place has a key, and where no barrier
slot, log area or ring header stands over it, its byte is the plain byte of that key; a store pokes the plain bytes of
consecutive keys and nothing else.
-/

namespace Sys2Proof.Machine

/-! Bytes and numbers (R5). -/

theorem ofBytes_eq_numberOf (bs : List Byte) : ofBytes bs = numberOf bs := by
  induction bs with
  | nil => rfl
  | cons b bs ih => rw [ofBytes, numberOf, ih]

theorem toBytes_eq_bytesOf (n : Nat) : ∀ x, toBytes n x = bytesOf n x := by
  induction n with
  | zero => intro x; rfl
  | succ n ih =>
    intro x
    rw [toBytes, ih, bytesOf, bytesOf, List.range_succ_eq_map, List.map_cons, List.map_map]
    refine congrArg₂ List.cons (by simp) (List.map_congr_left fun k _ => ?_)
    rw [Nat.div_div_eq_div_mul, Function.comp, show (256 : Nat) = 2 ^ 8 from rfl, ← Nat.pow_add, Nat.mul_succ, Nat.add_comm 8]

theorem length_bytesOf (n x : Nat) : (bytesOf n x).length = n := by simp [bytesOf]

theorem numberOf_lt (bs : List Byte) : numberOf bs < 2 ^ (8 * bs.length) := by
  induction bs with
  | nil => exact Nat.one_pos
  | cons b bs ih =>
    have hb := b.isLt
    rw [numberOf, List.length_cons, Nat.mul_succ, Nat.pow_add]
    omega

/-- The bytes of the number that bytes make are those bytes. -/
theorem ofNat_numberOf_div (bs : List Byte) (k : Nat) (h : k < bs.length) : BitVec.ofNat 8 (numberOf bs / 2 ^ (8 * k)) = bs[k] := by
  induction bs generalizing k with
  | nil => exact absurd h (Nat.not_lt_zero k)
  | cons b bs ih =>
    have hb := b.isLt
    have hmod : numberOf (b :: bs) % 2 ^ 8 = b.toNat := by rw [numberOf]; omega
    have hdiv : numberOf (b :: bs) / 2 ^ 8 = numberOf bs := by rw [numberOf]; omega
    cases k with
    | zero =>
      refine BitVec.eq_of_toNat_eq ?_
      simpa using hmod
    | succ k =>
      rw [Nat.mul_succ, Nat.add_comm, Nat.pow_add, ← Nat.div_div_eq_div_mul, hdiv, ih k (Nat.lt_of_succ_lt_succ h)]
      rfl

/-! Places. -/

@[simp] theorem Loc.plus_zero (l : Loc) : l.plus 0 = l := by cases l <;> rfl

@[simp] theorem Loc.plus_plus (l : Loc) (a b : Nat) : (l.plus a).plus b = l.plus (a + b) := by
  cases l <;> simp [Loc.plus, Nat.add_assoc]

@[simp] theorem Loc.key_plus (l : Loc) (n : Nat) : (l.plus n).key = l.key + n := by
  cases l <;> simp [Loc.plus, Loc.key, Nat.add_assoc]

theorem Loc.plus_eq_spad {l : Loc} {n a : Nat} (h : l.plus n = .spad a) : ∃ b, l = .spad b ∧ a = b + n := by
  cases l <;> cases h
  exact ⟨_, rfl, rfl⟩

/-- Below the keys of the scratchpads stand those of device memory alone. -/
theorem Loc.eq_dev_of_key_lt {l : Loc} (h : l.key < 2 ^ 52) : l = .dev l.key := by
  cases l with
  | dev pa => rfl
  | spad | chip | arm | ext => simp only [Loc.key] at h; omega

theorem readBytes_eq_map (m : Mach) (n : Nat) : ∀ l, readBytes m l n = (List.range n).map fun k => readByte m (l.plus k) := by
  induction n with
  | zero => intro l; rfl
  | succ n ih =>
    intro l
    rw [readBytes, ih, List.range_succ_eq_map, List.map_cons, List.map_map, Loc.plus_zero]
    refine congrArg (readByte m l :: ·) (List.map_congr_left fun k _ => ?_)
    rw [Loc.plus_plus, Nat.add_comm, Function.comp]

theorem readNat_eq_numberOf (m : Mach) (l : Loc) (n : Nat) : readNat m l n = numberOf ((List.range n).map fun k => readByte m (l.plus k)) := by
  rw [readNat, ofBytes_eq_numberOf, readBytes_eq_map]

/-! The plain byte of a key. -/

/-- What the byte of a key holds where nothing stands over it: an indeterminate value, or what was written last. -/
def keyByte (m : Mach) (k : Nat) : Byte :=
  match indetAt m.indet k with
  | some seed => if racesAt m.indet m.cur k then memRead m.mem k else Config.freeByte seed k
  | none => memRead m.mem k

/-- Nothing stands over a place: it is no scratchpad byte of a live slot, a live log area or a ring header. -/
def Bare (m : Mach) (l : Loc) : Prop :=
  ∀ a, l = .spad a → aget m.slots (a / 16 * 16) = none ∧ logAt m a = false ∧ ringAt m a = none

theorem Bare.unlogged {m : Mach} {l : Loc} (h : Bare m l) : unlogged m l := fun a ha => (h a ha).2.1

theorem bare_of_ne_spad {m : Mach} {l : Loc} (h : ∀ a, l ≠ .spad a) : Bare m l := fun a ha => absurd ha (h a)

theorem readByte_of_bare {m : Mach} {l : Loc} (h : Bare m l) : readByte m l = keyByte m l.key := by
  cases l with
  | spad a =>
    obtain ⟨hs, hl, hr⟩ := h a rfl
    unfold readByte
    simp only [hs, hl, hr]
    rfl
  | _ => rfl

theorem readByte_dev (m : Mach) (pa : Nat) : readByte m (.dev pa) = keyByte m pa := readByte_of_bare (bare_of_ne_spad fun a ha => by cases ha)

theorem writeByte_of_bare {m : Mach} {l : Loc} (h : Bare m l) (b : Byte) : writeByte m l b = pokeByte m l b := by
  cases l with
  | spad a =>
    obtain ⟨hs, hl, hr⟩ := h a rfl
    unfold writeByte
    simp only [hs, hl, hr]
    rfl
  | _ => rfl

/-- What stands over the scratchpads is the same: the live slots, and the groups and teams with their log areas and rings. -/
structure SameOver (m m' : Mach) : Prop where
  slots : m'.slots = m.slots
  teams : m'.teams = m.teams
  groups : m'.groups = m.groups

theorem SameOver.refl (m : Mach) : SameOver m m := ⟨rfl, rfl, rfl⟩

section
variable {m m' m2 : Mach} {l : Loc}

theorem SameOver.trans (h : SameOver m m') (h' : SameOver m' m2) : SameOver m m2 :=
  ⟨h'.slots.trans h.slots, h'.teams.trans h.teams, h'.groups.trans h.groups⟩

theorem SameOver.logAt_eq (h : SameOver m m') (a : Nat) : logAt m' a = logAt m a := by
  unfold logAt
  rw [h.groups, h.teams]

theorem SameOver.ringAt_eq (h : SameOver m m') (a : Nat) : ringAt m' a = ringAt m a := by
  unfold ringAt
  rw [h.teams]

theorem SameOver.unlogged (h : SameOver m m') (hl : unlogged m l) : unlogged m' l := fun a ha => by rw [h.logAt_eq]; exact hl a ha

theorem SameOver.bare (h : SameOver m m') (hl : Bare m l) : Bare m' l := fun a ha => by
  rw [h.logAt_eq, h.ringAt_eq, h.slots]
  exact hl a ha

/-- Outside the live log areas a byte depends only on what stands over it and on its plain byte. -/
theorem SameOver.readByte_eq (h : SameOver m m') (hl : Sys2Proof.unlogged m l) (hp : keyByte m' l.key = keyByte m l.key) :
    readByte m' l = readByte m l := by
  cases l with
  | spad a =>
    have hlog : logAt m a = false := hl a rfl
    have hplain := hp
    unfold keyByte at hplain
    unfold readByte
    simp only [h.logAt_eq, h.ringAt_eq, h.slots, hlog]
    split
    · rfl
    · rw [if_neg Bool.false_ne_true, if_neg Bool.false_ne_true]
      split
      · rfl
      · exact hplain
  | _ => exact hp

end

/-! Stores. -/

/-- What is left of a declared range when one byte of it is written. -/
def Indet.without (d : Indet) (k : Nat) : List Indet :=
  if d.lo ≤ k && k < d.hi then [{ d with hi := k }, { d with lo := k + 1 }].filter fun x => x.lo < x.hi else [d]

theorem indetClear_cons (d : Indet) (ds : List Indet) (k : Nat) : indetClear (d :: ds) k = d.without k ++ indetClear ds k := rfl

theorem indetAt_append (a b : List Indet) (k : Nat) : indetAt (a ++ b) k = (indetAt a k).or (indetAt b k) := by
  induction a with
  | nil => rfl
  | cons d a ih =>
    rw [List.cons_append, indetAt, indetAt, ih]
    split <;> rfl

theorem racesAt_append (a b : List Indet) (cur k : Nat) :
    racesAt (a ++ b) cur k = if (indetAt a k).isSome then racesAt a cur k else racesAt b cur k := by
  induction a with
  | nil => rfl
  | cons d a ih =>
    rw [List.cons_append, racesAt, racesAt, indetAt, ih]
    by_cases h : (decide (d.lo ≤ k) && decide (k < d.hi)) = true
    · rw [if_pos h, if_pos h, if_pos h, Option.isSome_some, if_pos rfl]
    · rw [if_neg h, if_neg h, if_neg h]

theorem mem_without {d x : Indet} {k : Nat} (h : x ∈ d.without k) : x.seed = d.seed ∧ x.by_ = d.by_ := by
  unfold Indet.without at h
  split at h
  · have := List.mem_of_mem_filter h
    simp only [List.mem_cons, List.not_mem_nil, or_false] at this
    rcases this with rfl | rfl <;> exact ⟨rfl, rfl⟩
  · rw [List.mem_singleton.1 h]
    exact ⟨rfl, rfl⟩

theorem covers_without (d : Indet) (k j : Nat) :
    (∃ x ∈ d.without k, x.lo ≤ j ∧ j < x.hi) ↔ j ≠ k ∧ d.lo ≤ j ∧ j < d.hi := by
  unfold Indet.without
  split
  next h =>
    simp only [Bool.and_eq_true, decide_eq_true_eq] at h
    simp only [List.mem_filter, List.mem_cons, List.not_mem_nil, or_false, decide_eq_true_eq]
    constructor
    · rintro ⟨x, ⟨rfl | rfl, -⟩, hx⟩ <;> simp only at hx <;> omega
    · rintro ⟨hj, hd⟩
      rcases Nat.lt_or_gt_of_ne hj with hlt | hgt
      · exact ⟨_, ⟨.inl rfl, by simp only; omega⟩, by simp only; omega⟩
      · exact ⟨_, ⟨.inr rfl, by simp only; omega⟩, by simp only; omega⟩
  next h =>
    simp only [Bool.and_eq_true, decide_eq_true_eq] at h
    simp only [List.mem_singleton, exists_eq_left]
    omega

theorem indetAt_of_covers {xs : List Indet} {seed j : Nat} (h : ∀ x ∈ xs, x.seed = seed) (hc : ∃ x ∈ xs, x.lo ≤ j ∧ j < x.hi) :
    indetAt xs j = some seed := by
  induction xs with
  | nil => simp at hc
  | cons x xs ih =>
    obtain ⟨hx, hxs⟩ := List.forall_mem_cons.1 h
    rw [indetAt]
    split
    next => rw [hx]
    next hn =>
      simp only [Bool.and_eq_true, decide_eq_true_eq] at hn
      simp only [List.mem_cons, exists_eq_or_imp] at hc
      exact ih hxs (hc.resolve_left hn)

theorem indetAt_of_not_covers {xs : List Indet} {j : Nat} (hc : ¬ ∃ x ∈ xs, x.lo ≤ j ∧ j < x.hi) : indetAt xs j = none := by
  induction xs with
  | nil => rfl
  | cons x xs ih =>
    simp only [List.mem_cons, exists_eq_or_imp, not_or] at hc
    rw [indetAt, if_neg (by simpa using hc.1), ih hc.2]

/-- The range that a byte lies in says whether others may race with its DISCARD. -/
theorem racesAt_cons (d : Indet) (ds : List Indet) (cur j : Nat) :
    racesAt (d :: ds) cur j = if d.lo ≤ j ∧ j < d.hi then d.by_.any (· != cur) else racesAt ds cur j := by
  rw [racesAt]
  by_cases h : d.lo ≤ j ∧ j < d.hi
  · simp only [h, decide_true, Bool.and_self, and_self, if_true]
    cases d.by_ <;> rfl
  · rw [if_neg h, if_neg (by simpa using h)]

theorem racesAt_of_covers {xs : List Indet} {by_ : Option Nat} {j : Nat} (h : ∀ x ∈ xs, x.by_ = by_)
    (hc : ∃ x ∈ xs, x.lo ≤ j ∧ j < x.hi) (cur : Nat) : racesAt xs cur j = by_.any (· != cur) := by
  induction xs with
  | nil => simp at hc
  | cons x xs ih =>
    obtain ⟨hx, hxs⟩ := List.forall_mem_cons.1 h
    rw [racesAt_cons]
    split
    next => rw [hx]
    next hn => exact ih hxs (by simpa [hn] using hc)

/-- After a byte is written it is no longer indeterminate, and every other byte is as it was. -/
theorem indetAt_indetClear (ds : List Indet) (k j : Nat) : indetAt (indetClear ds k) j = if j = k then none else indetAt ds j := by
  induction ds with
  | nil => simp [indetClear, indetAt]
  | cons d ds ih =>
    rw [indetClear_cons, indetAt_append, ih, indetAt]
    by_cases hc : j ≠ k ∧ d.lo ≤ j ∧ j < d.hi
    · rw [indetAt_of_covers (fun x hx => (mem_without hx).1) ((covers_without d k j).2 hc)]
      simp [hc]
    · rw [indetAt_of_not_covers (mt (covers_without d k j).1 hc), Option.none_or]
      split
      · rfl
      next hj => rw [if_neg (by simpa [hj] using hc)]

theorem racesAt_indetClear (ds : List Indet) (cur : Nat) {k j : Nat} (h : j ≠ k) :
    racesAt (indetClear ds k) cur j = racesAt ds cur j := by
  induction ds with
  | nil => rfl
  | cons d ds ih =>
    rw [indetClear_cons, racesAt_append, ih, racesAt_cons]
    by_cases hc : d.lo ≤ j ∧ j < d.hi
    · have hcovers := (covers_without d k j).2 ⟨h, hc⟩
      rw [indetAt_of_covers (fun x hx => (mem_without hx).1) hcovers, racesAt_of_covers (fun x hx => (mem_without hx).2) hcovers,
        Option.isSome_some, if_pos rfl, if_pos hc]
    · rw [indetAt_of_not_covers fun hn => hc ((covers_without d k j).1 hn).2, if_neg hc]
      rfl

theorem keyByte_pokeByte (m : Mach) (l : Loc) (b : Byte) (j : Nat) :
    keyByte (pokeByte m l b) j = if j = l.key then b else keyByte m j := by
  unfold keyByte pokeByte
  simp only [indetAt_indetClear]
  by_cases hj : j = l.key
  · rw [if_pos hj, if_pos hj, hj]
    exact memRead_memWrite_self ..
  · rw [if_neg hj, if_neg hj, racesAt_indetClear _ _ hj, memRead_memWrite_ne _ _ _ _ hj]

/-- Bytes are put at consecutive keys, and nothing else of the module changes but what fetches may still see. -/
structure Poked (m m' : Mach) (k : Nat) (bs : List Byte) : Prop where
  rest : m' = { m with mem := m'.mem, indet := m'.indet, touched := m'.touched }
  self : ∀ i b, bs[i]? = some b → keyByte m' (k + i) = b
  other : ∀ j, j < k ∨ k + bs.length ≤ j → keyByte m' j = keyByte m j

theorem Poked.sameOver {m m' : Mach} {k : Nat} {bs : List Byte} (h : Poked m m' k bs) : SameOver m m' := by
  constructor <;> rw [h.rest]

theorem poked_putBytes (bs : List Byte) : ∀ (m : Mach) (l : Loc), (∀ i, i < bs.length → Bare m (l.plus i)) →
    Poked m (putBytes m l bs) l.key bs := by
  induction bs with
  | nil => exact fun m l _ => ⟨rfl, fun i b hb => by simp at hb, fun _ _ => rfl⟩
  | cons b bs ih =>
    intro m l hbare
    have hpoke : writeByte m l b = pokeByte m l b := writeByte_of_bare (by simpa using hbare 0 (Nat.succ_pos _)) b
    have hover : SameOver m (pokeByte m l b) := ⟨rfl, rfl, rfl⟩
    have h := ih (pokeByte m l b) (l.plus 1) fun i hi => by
      rw [Loc.plus_plus, Nat.add_comm]
      exact hover.bare (hbare (i + 1) (Nat.succ_lt_succ hi))
    rw [putBytes_cons, hpoke]
    refine ⟨h.rest, fun i x hx => ?_, fun j hj => ?_⟩
    · cases i with
      | zero =>
        rw [h.other _ (.inl (by simp)), keyByte_pokeByte, Nat.add_zero, if_pos rfl]
        simpa using hx
      | succ i =>
        have := h.self i x (by simpa using hx)
        rwa [Loc.key_plus, Nat.add_assoc, Nat.add_comm 1] at this
    · rw [List.length_cons] at hj
      rw [h.other j (by rw [Loc.key_plus]; omega), keyByte_pokeByte, if_neg (by omega)]

/-- A store to bytes over which nothing stands puts them at their keys. -/
theorem poked_writeBytes {m : Mach} {l : Loc} {bs : List Byte} (h : ∀ i, i < bs.length → Bare m (l.plus i)) :
    Poked m (writeBytes m l bs) l.key bs := by
  obtain ⟨ws, hw⟩ := writeBytes_put m l bs
  have hp := poked_putBytes bs { m with touched := ws } l h
  rw [← hw] at hp
  exact ⟨hp.rest, hp.self, hp.other⟩

/-- Bytes stand at consecutive keys, and what stands over the scratchpads and every other key's byte is as it was. -/
structure KeysStored (m m' : Mach) (k : Nat) (bs : List Byte) : Prop where
  sameOver : SameOver m m'
  self : ∀ i b, bs[i]? = some b → keyByte m' (k + i) = b
  other : ∀ j, j < k ∨ k + bs.length ≤ j → keyByte m' j = keyByte m j

theorem Poked.keysStored {m m' : Mach} {k : Nat} {bs : List Byte} (h : Poked m m' k bs) : KeysStored m m' k bs := ⟨h.sameOver, h.self, h.other⟩

/-- Every byte reads as before. -/
structure SameBytes (m m' : Mach) : Prop where
  sameOver : SameOver m m'
  byte : ∀ k, keyByte m' k = keyByte m k

section
variable {m0 m m' m2 : Mach} {k : Nat} {bs : List Byte} {l : Loc}

theorem SameBytes.refl (m : Mach) : SameBytes m m := ⟨SameOver.refl m, fun _ => rfl⟩

theorem SameBytes.trans (h : SameBytes m m') (h' : SameBytes m' m2) : SameBytes m m2 :=
  ⟨h.sameOver.trans h'.sameOver, fun k => (h'.byte k).trans (h.byte k)⟩

theorem SameBytes.readByte_eq (h : SameBytes m m') (hl : Sys2Proof.unlogged m l) : readByte m' l = readByte m l :=
  h.sameOver.readByte_eq hl (h.byte _)

theorem SameBytes.sameOutside (h : SameBytes m m') (p : Nat → Prop) : SameOutside m m' p := fun _ _ hl => h.readByte_eq hl

theorem sameBytes_free (m : Mach) (fr : Nat) : SameBytes m { m with free := fr } := ⟨⟨rfl, rfl, rfl⟩, fun _ => rfl⟩

theorem sameBytes_setCore (m : Mach) (core : Nat) (c : Core) : SameBytes m (m.setCore core c) := ⟨⟨rfl, rfl, rfl⟩, fun _ => rfl⟩

theorem KeysStored.of_sameBytes (h : KeysStored m m' k bs) (h' : SameBytes m' m2) : KeysStored m m2 k bs :=
  ⟨h.sameOver.trans h'.sameOver, fun i b hb => (h'.byte _).trans (h.self i b hb), fun j hj => (h'.byte _).trans (h.other j hj)⟩

theorem KeysStored.since (h0 : SameBytes m0 m) (h : KeysStored m m' k bs) : KeysStored m0 m' k bs :=
  ⟨h0.sameOver.trans h.sameOver, h.self, fun j hj => (h.other j hj).trans (h0.byte j)⟩

theorem KeysStored.storedAt (h : KeysStored m m' l.key bs) (hbare : ∀ i, i < bs.length → Bare m (l.plus i)) : StoredAt m m' l bs := by
  refine ⟨fun k b hb => ?_, fun l' hout hl' => ?_⟩
  · obtain ⟨hk, -⟩ := List.getElem?_eq_some_iff.1 hb
    rw [readByte_of_bare (h.sameOver.bare (hbare k hk)), Loc.key_plus]
    exact h.self k b hb
  · refine h.sameOver.readByte_eq hl' (h.other _ ?_)
    by_contra hin
    exact hout ⟨l'.key - l.key, by omega, by rw [Loc.key_plus]; omega⟩

end

end Sys2Proof.Machine
end

section
/-! PROOF. What looking an address up leaves (R386 to R389): the caches, and the bits a and d of the one leaf entry that the walk
finds; and where a located access lies.
-/

namespace Sys2Proof.Machine

section
variable {m m1 m2 : Mach} {core ctx va : Nat} {k : AKind}

/-! Machines that differ in what the caches of translations hold. -/

structure SameButTlbs (m m' : Mach) : Prop where
  rest : m' = { m with cores := m'.cores, clusters := m'.clusters, dies := m'.dies, free := m'.free }
  core : ∀ c, m'.core c = { m.core c with tlb := (m'.core c).tlb }
  cluster : ∀ c, m'.cluster c = { m.cluster c with tlb := (m'.cluster c).tlb }
  die : ∀ d, m'.die d = { m.die d with wcache := (m'.die d).wcache }

theorem SameButTlbs.refl (m : Mach) : SameButTlbs m m := ⟨rfl, fun _ => rfl, fun _ => rfl, fun _ => rfl⟩

theorem SameButTlbs.bump (h : SameButTlbs m m1) : SameButTlbs m m1.bump := ⟨by rw [h.rest]; rfl, h.core, h.cluster, h.die⟩

theorem SameButTlbs.setCore (h : SameButTlbs m m1) (c : Nat) (l : List TlbEntry) :
    SameButTlbs m (m1.setCore c { m1.core c with tlb := l }) := by
  refine ⟨by rw [h.rest]; rfl, fun j => ?_, h.cluster, h.die⟩
  by_cases hj : j = c
  · subst hj
    rw [setCore_core, h.core j]
  · rw [setCore_core_ne _ _ _ _ hj]
    exact h.core j

theorem SameButTlbs.setCluster (h : SameButTlbs m m1) (c : Nat) (l : List TlbEntry) :
    SameButTlbs m (m1.setCluster c { m1.cluster c with tlb := l }) := by
  refine ⟨by rw [h.rest]; rfl, h.core, fun j => ?_, h.die⟩
  rw [cluster_setCluster]
  split
  next hj => rw [hj, h.cluster c]
  next => exact h.cluster j

theorem SameButTlbs.setDie (h : SameButTlbs m m1) (d : Nat) (l : List WalkEntry) :
    SameButTlbs m (m1.setDie d { m1.die d with wcache := l }) := by
  refine ⟨by rw [h.rest]; rfl, h.core, h.cluster, fun j => ?_⟩
  rw [die_setDie]
  split
  next hj => rw [hj, h.die d]
  next => exact h.die j

theorem SameButTlbs.dropLeaf (m : Mach) (core ctx va : Nat) : SameButTlbs m (dropLeaf m core ctx va) :=
  ((SameButTlbs.refl m).setCore core _).setCluster (clusterOf core) _

/-! The leaf that a walk finds. -/

/-- A walk finds its leaf in a table in device memory (R384), as the entry there says. -/
theorem walkTables_ok {lvl table : Nat} {seen seen' : List WalkEntry} {t : TlbEntry} (ht : table < devTop)
    (h : walkTables m ctx va lvl table seen = .ok (t, seen')) :
    t.pteAt < devTop + 4096 ∧ t.pte = BitVec.ofNat 64 (readNat m (.dev t.pteAt) 8) := by
  induction lvl generalizing table seen with
  | zero =>
    rw [walkTables_eq] at h
    have hb : bits va (12 + 9 * 0) 9 < 2 ^ 9 := bits_lt ..
    dsimp only at h
    split at h
    · cases h
    · split at h
      · cases h
      · split at h
        · cases h
          exact ⟨by dsimp only; omega, rfl⟩
        · cases h
  | succ lvl ih =>
    rw [walkTables_eq] at h
    have hb : bits va (12 + 9 * (lvl + 1)) 9 < 2 ^ 9 := bits_lt ..
    dsimp only at h
    split at h
    · cases h
    · split at h
      · cases h
      next hbroken =>
        split at h
        · cases h
          exact ⟨by dsimp only; omega, rfl⟩
        next hleaf =>
          refine ih ?_ h
          by_contra hfar
          refine hbroken ?_
          unfold pteBroken
          simp [hleaf, Nat.not_lt.1 hfar]

theorem startOf_lt {die root : Nat} (h : root < devTop) : (startOf m die ctx va root).2 < devTop := by
  unfold startOf
  split
  next w _ =>
    split
    next hw =>
      simp only [Bool.and_eq_true, decide_eq_true_eq] at hw
      exact hw.1
    next => exact h
  next => exact h

/-! The bits a and d (R389). -/

/-- The bits that an access sets in its leaf entry. -/
def AKind.marks (k : AKind) : Nat := if k.writes then 0x60 else 0x20

/-- The entry written back is the entry with its lowest byte marked. -/
theorem byte_marked (bs : List Byte) (hbs : bs.length = 8) (k : AKind) (i : Nat) (hi : i < bs.length) :
    BitVec.ofNat 8 ((BitVec.ofNat 64 (numberOf bs) ||| (if k.writes then 0x60 else 0x20)).toNat / 2 ^ (8 * i))
      = if i = 0 then bs[i] ||| BitVec.ofNat 8 k.marks else bs[i] := by
  have hlt : numberOf bs < 2 ^ 64 := by
    have := numberOf_lt bs
    rwa [hbs] at this
  have hmask : (if k.writes then (0x60 : Dword) else 0x20).toNat = k.marks := by unfold AKind.marks; split <;> rfl
  have hmarks : k.marks < 2 ^ 8 := by unfold AKind.marks; split <;> decide
  rw [BitVec.toNat_or, hmask, BitVec.toNat_ofNat, Nat.mod_eq_of_lt hlt, Nat.or_div_two_pow, BitVec.ofNat_or, ofNat_numberOf_div bs i hi]
  split
  next h0 =>
    subst h0
    rw [Nat.mul_zero, Nat.pow_zero, Nat.div_one]
  next h0 =>
    have hzero : k.marks / 2 ^ (8 * i) = 0 :=
      Nat.div_eq_of_lt (hmarks.trans_le (Nat.pow_le_pow_right (by decide) (by omega)))
    rw [hzero]
    exact BitVec.or_zero

/-- At most a, or a and d, are set in the byte of one key. -/
structure Marked (m m' : Mach) (pteAt : Nat) (k : AKind) : Prop where
  rest : m' = { m with mem := m'.mem, indet := m'.indet, touched := m'.touched }
  byte : ∀ j, keyByte m' j = keyByte m j ∨ j = pteAt ∧ keyByte m' j = keyByte m j ||| BitVec.ofNat 8 k.marks

theorem marked_writeNat {t : TlbEntry} (hpte : t.pte = BitVec.ofNat 64 (readNat m (.dev t.pteAt) 8)) (k : AKind) :
    Marked m (if (t.marked k).pte = t.pte then m else writeNat m (.dev t.pteAt) 8 (t.marked k).pte.toNat) t.pteAt k := by
  split
  · exact ⟨rfl, fun _ => .inl rfl⟩
  next =>
    have hp := poked_writeBytes (m := m) (l := .dev t.pteAt) (bs := toBytes 8 (t.marked k).pte.toNat)
      fun i _ => bare_of_ne_spad fun a ha => by cases ha
    refine ⟨hp.rest, fun j => ?_⟩
    by_cases hin : j < t.pteAt ∨ t.pteAt + 8 ≤ j
    · exact .inl (hp.other j (by rwa [toBytes_eq_bytesOf, length_bytesOf]))
    · obtain ⟨i, rfl⟩ := Nat.exists_eq_add_of_le (Nat.not_lt.1 fun hj => hin (.inl hj))
      have hi : i < 8 := by omega
      let old := (List.range 8).map fun k => readByte m (Loc.plus (.dev t.pteAt) k)
      have hnew := byte_marked old (by simp [old]) k i (by simpa [old] using hi)
      have hold : old[i]'(by simpa [old] using hi) = keyByte m (t.pteAt + i) := by
        simp only [old, List.getElem_map, List.getElem_range, Loc.plus, readByte_dev]
      have hbyte : BitVec.ofNat 8 ((t.marked k).pte.toNat / 2 ^ (8 * i))
          = if i = 0 then keyByte m (t.pteAt + i) ||| BitVec.ofNat 8 k.marks else keyByte m (t.pteAt + i) := by
        rw [TlbEntry.marked, hpte, readNat_eq_numberOf, hnew, hold]
      have hself := hp.self i (BitVec.ofNat 8 ((t.marked k).pte.toNat / 2 ^ (8 * i))) (by rw [toBytes_eq_bytesOf, bytesOf]; simp [hi])
      rw [hbyte] at hself
      split at hself
      next h0 => exact .inr ⟨by rw [h0, Nat.add_zero], hself⟩
      next => exact .inl hself

theorem SameButTlbs.keyByte_eq (h : SameButTlbs m m1) (j : Nat) : keyByte m1 j = keyByte m j := by rw [h.rest]; rfl

theorem SameButTlbs.sameOver (h : SameButTlbs m m1) : SameOver m m1 := by constructor <;> rw [h.rest]

theorem SameButTlbs.readByte_dev (h : SameButTlbs m m1) (a : Nat) : readByte m1 (.dev a) = readByte m (.dev a) := by rw [h.rest]; rfl

theorem lookedUp_of_tlbs (h : SameButTlbs m m1) (va : Option Nat) : LookedUp m m1 core ctx va := by
  refine ⟨?_, h.core, h.cluster, h.die, fun l hl => .inl (h.sameOver.readByte_eq hl (h.keyByte_eq _))⟩
  rw [h.rest]

theorem LookedUp.refl (m : Mach) (core ctx : Nat) (va : Option Nat) : LookedUp m m core ctx va := lookedUp_of_tlbs (SameButTlbs.refl m) va

/-- A walk that leaves the caches and marks the leaf entry of its address. -/
theorem lookedUp_of_marked {m0 m' : Mach} {pteAt : Nat} (h0 : SameButTlbs m m0) (h1 : Marked m0 m1 pteAt k) (h2 : SameButTlbs m1 m')
    (hleaf : leafEntry m core ctx va = some pteAt) (hat : pteAt < 2 ^ 52) : LookedUp m m' core ctx (some va) := by
  have hc : ∀ c, m1.core c = m0.core c := fun c => by rw [h1.rest]; rfl
  have hcl : ∀ c, m1.cluster c = m0.cluster c := fun c => by rw [h1.rest]; rfl
  have hd : ∀ d, m1.die d = m0.die d := fun d => by rw [h1.rest]; rfl
  have hover : SameOver m m' := by
    refine (h0.sameOver.trans ?_).trans h2.sameOver
    constructor <;> rw [h1.rest]
  refine ⟨?_, fun c => ?_, fun c => ?_, fun d => ?_, fun l hl => ?_⟩
  · rw [h2.rest, h1.rest, h0.rest]
  · rw [h2.core, hc, h0.core]
  · rw [h2.cluster, hcl, h0.cluster]
  · rw [h2.die, hd, h0.die]
  · have hkey := h1.byte l.key
    rw [h0.keyByte_eq, ← h2.keyByte_eq] at hkey
    rcases hkey with hkey | ⟨hkey, hmark⟩
    · exact .inl (hover.readByte_eq hl hkey)
    · have hdev : l = .dev pteAt := hkey ▸ Loc.eq_dev_of_key_lt (hkey ▸ hat)
      refine .inr ⟨va, pteAt, rfl, hleaf, hdev, ?_⟩
      subst hdev
      rw [readByte_dev, readByte_dev]
      unfold AKind.marks at hmark
      split at hmark
      · exact .inr hmark
      · exact .inl hmark

theorem lookedUp_of_walkFresh {pa : Nat} {t : TlbEntry} (h : walkFresh m core ctx va k = .ok (m1, pa, t)) :
    LookedUp m m1 core ctx (some va) := by
  unfold walkFresh at h
  split at h
  · cases h
  next c hc =>
    split at h
    · cases h
    next root hroot =>
      split at h
      · cases h
      next hdev =>
        dsimp only at h
        split at h
        · cases h
        next t0 seen hwalk =>
          split at h
          · cases h
          next =>
            cases h
            obtain ⟨hat, hpte⟩ := walkTables_ok (startOf_lt (Nat.not_le.1 hdev)) hwalk
            have hleaf : leafEntry m core ctx va = some t0.pteAt := by
              unfold leafEntry
              simp only [hc, Option.bind_some, hroot, hwalk]
            have h0 := SameButTlbs.dropLeaf m core ctx va
            have hread : readNat (dropLeaf m core ctx va) (.dev t0.pteAt) 8 = readNat m (.dev t0.pteAt) 8 := by
              rw [readNat_eq_numberOf, readNat_eq_numberOf]
              exact congrArg numberOf (List.map_congr_left fun i _ => h0.readByte_dev _)
            have h1 := marked_writeNat (hpte.trans (congrArg _ hread.symm)) k
            exact lookedUp_of_marked h0 h1 ((((SameButTlbs.refl _).setCore core _).setCluster (clusterOf core) _).setDie (dieOf core) _).bump hleaf
              (hat.trans (by decide))

theorem lookedUp_of_translate {pa : Nat} {t : TlbEntry} (h : translate m core ctx va k = .ok (m1, pa, t)) :
    LookedUp m m1 core ctx (some va) := by
  unfold translate at h
  split at h
  · cases h
  · split at h
    · split at h
      · cases h
        exact lookedUp_of_tlbs (SameButTlbs.refl m).bump _
      · exact lookedUp_of_walkFresh h
    · exact lookedUp_of_walkFresh h

end

/-! Located accesses (R161 to R164, R174). -/

section
variable {m : Mach} {g : Group} {lane va size : Nat} {k : AKind} {arm : Bool} {l : Located}

theorem locateVirtual_ok (h : locateVirtual m g va k = .ok l) :
    LookedUp m l.m g.core g.ctx (some va) ∧ ((∀ port far, l.loc ≠ .ext port far) → l.port = none) := by
  unfold locateVirtual at h
  split at h
  · cases h
  next m1 pa t htr =>
    dsimp only at h
    split at h
    · cases h
    next l' p hfound =>
      cases h
      refine ⟨lookedUp_of_translate htr, fun hloc => ?_⟩
      split at hfound
      · obtain ⟨x, -, hx⟩ := Option.map_eq_some_iff.1 hfound
        cases hx
        dsimp only at hloc ⊢
        cases l' with
        | ext port far => exact absurd rfl (hloc port far)
        | _ => rfl
      next f _ =>
        obtain ⟨x, hx, hp⟩ := Option.map_eq_some_iff.1 hfound
        cases hp
        unfold targetSent at hx
        unfold sentPort
        split at hx
        · obtain ⟨pf, -, hpf⟩ := Option.map_eq_some_iff.1 hx
          exact absurd hpf.symm (hloc _ _)
        next hin => rw [if_neg hin]

/-- What a located access leaves, and that it crosses a port only where it lies behind one. -/
theorem locate_ok (h : locate m g lane va size k arm = .ok l) :
    LookedUp m l.m g.core g.ctx (translatedAt m g lane va) ∧ ((∀ port far, l.loc ≠ .ext port far) → l.port = none) := by
  unfold locate at h
  split at h
  · cases h
  split at h
  next hl =>
    rw [translatedAt, if_pos (by simpa using hl)]
    exact locateVirtual_ok h
  next hl =>
    have hwindow : l.m = m → l.port = none → LookedUp m l.m g.core g.ctx (translatedAt m g lane va)
        ∧ ((∀ port far, l.loc ≠ .ext port far) → l.port = none) := fun hm hp => by
      rw [hm]
      exact ⟨LookedUp.refl .., fun _ => hp⟩
    dsimp only at h
    split at h
    case h_4 =>
      split at h
      · split at h
        · cases h; exact hwindow rfl rfl
        · cases h
      · cases h
    case h_5 =>
      split at h
      next hwin =>
        split at h
        next v hv =>
          split at h
          · rw [translatedAt, if_neg (by simpa using hl), if_pos hwin, hv]
            exact locateVirtual_ok h
          · cases h
        · cases h
      · cases h
    all_goals
      split at h
      · split at h
        · cases h; exact hwindow rfl rfl
        · cases h
      · cases h

end

end Sys2Proof.Machine
end

section
/-! PROOF. What accesses leave besides memory: the L1 of the group's core (R166, R169), the bindings that an acquire lets a group
see (R237), and, of an access that lies behind a port, its being outstanding there (R414).
-/

namespace Sys2Proof.Machine

section
variable {m m1 m2 : Mach} {core : Nat}

/-! Frames. -/

theorem OnlyL1.refl (m : Mach) (core : Nat) : OnlyL1 m m core := ⟨rfl, fun _ _ => rfl, rfl⟩

theorem OnlyL1.trans (h : OnlyL1 m m1 core) (h' : OnlyL1 m1 m2 core) : OnlyL1 m m2 core := by
  obtain ⟨he, hne, hc⟩ := h
  obtain ⟨he', hne', hc'⟩ := h'
  refine ⟨?_, fun c hcore => (hne' c hcore).trans (hne c hcore), ?_⟩
  · rw [he', he]
  · rw [hc', hc]

theorem OnlyL1.bump (h : OnlyL1 m m1 core) : OnlyL1 m m1.bump core := ⟨by rw [h.1]; rfl, h.2.1, h.2.2⟩

theorem OnlyL1.setL1 (m : Mach) (core : Nat) (l1 : AMap Byte) : OnlyL1 m (m.setCore core { m.core core with l1 := l1 }) core :=
  ⟨rfl, fun c hc => setCore_core_ne _ _ _ _ hc, by rw [setCore_core]⟩

end

/-! Acquires (R169). -/

section
variable {m : Mach} {g : Group}

theorem teamOnOneCore_eq_false_iff : teamOnOneCore m g = false ↔ ∃ t, aget m.teams g.team = some t ∧ t.spans = true := by
  unfold teamOnOneCore
  cases aget m.teams g.team <;> simp

theorem seeBinds_eq (m : Mach) (g : Group) : seeBinds m g = boundSeen m g := by
  unfold seeBinds boundSeen
  cases aget m.teams g.team with
  | none => rfl
  | some t =>
    simp only [List.isEmpty_iff]
    rfl

theorem acquireAt_team (m : Mach) (g : Group) : acquireAt m g .team = if teamOnOneCore m g then boundSeen m g else acquired m g := by
  unfold acquireAt
  rw [seeBinds_eq]
  cases teamOnOneCore m g <;> rfl

theorem acquireAt_wide {s : Scope} (h1 : s ≠ .grp) (h2 : s ≠ .team) : acquireAt m g s = acquired m g := by
  unfold acquireAt acquired invalidated
  rw [seeBinds_eq]
  cases s with
  | grp => exact absurd rfl h1
  | team => exact absurd rfl h2
  | clu | dev | sys => rfl

theorem ofCode_ne {n : Nat} (h : 2 ≤ n) : Scope.ofCode n ≠ .grp ∧ Scope.ofCode n ≠ .team := by
  unfold Scope.ofCode
  split
  · omega
  · omega
  all_goals exact ⟨by decide, by decide⟩

theorem acquireAt_ofCode_wide {n : Nat} (h : 2 ≤ n) : acquireAt m g (Scope.ofCode n) = acquired m g :=
  acquireAt_wide (ofCode_ne h).1 (ofCode_ne h).2

end

/-! Accesses that lie behind no port. -/

section
variable {m : Mach} {g : Group} {l : Loc} {n : Nat}

theorem landAll_of_near (h : ∀ port far, l ≠ .ext port far) : landAll m l n = m := by
  cases l with
  | ext port far => exact absurd rfl (h port far)
  | _ => rfl

theorem useLine_of_near (h : ∀ port far, l ≠ .ext port far) : useLine m l n = m := by
  cases l with
  | ext port far => exact absurd rfl (h port far)
  | _ => rfl

/-- A load that no L1 copy may serve gives the bytes as memory holds them (R168). -/
theorem loadBytes_of_not_hit {l : Located} {s : Scope} (h : ∀ port far, l.loc ≠ .ext port far) (hs : mayHit m g s = false)
    (hint : Nat) : ∃ m1, loadBytes m g l n s hint = (m1, readBytes m l.loc n) ∧ OnlyL1 m m1 g.core := by
  unfold loadBytes
  split
  next pa =>
    simp only [hs, Bool.false_and, Bool.false_eq_true, if_false]
    exact ⟨_, rfl, OnlyL1.setL1 m g.core _⟩
  next =>
    rw [landAll_of_near h]
    exact ⟨m, rfl, OnlyL1.refl m g.core⟩

end

/-! Accesses sent over the fabric (R411, R414). -/

/-- A group whose instruction has sent its accesses through some ports of a module, some halves having been performed early. -/
def Group.sent (g : Group) (m : Mach) (ports : List Nat) (halves : AMap Dword) : Group :=
  { g with fabric := .sent ports, flight := some { routes := m.routes, seed := Config.choice m.free, halves := halves } }

theorem sendOver_eq (m : Mach) (gid : Nat) (g : Group) (ports : List Nat) :
    sendOver m gid g ports = { m.setGrp gid (g.sent m ports []) with free := m.free + 1 } := rfl

theorem sentOver_sent (g : Group) (m : Mach) (ports : List Nat) (halves : AMap Dword) : SentOver g (g.sent m ports halves) m ports :=
  ⟨_, rfl, rfl⟩

/-! Scalar loads (R113, R114). -/

section
variable {s : State} {i : Instr} {gid va size : Nat} {g : Group} {sc : Scope} {arm : Bool} {c : Cause} {a : Dword} {l : Located}

theorem scalarLoad_misaligned (m : Mach) (h : va % size ≠ 0) :
    scalarLoad m gid g va size sc arm = .trap m .misaligned (BitVec.ofNat 64 va) := by
  unfold scalarLoad
  rw [if_pos (by simpa using h)]

theorem scalarLoad_error {m : Mach} (h : va % size = 0) (hl : locate m g 0 va size .read arm = .error (c, a)) :
    scalarLoad m gid g va size sc arm = .trap (afterLocate m g 0 va .read) c a := by
  unfold scalarLoad
  rw [if_neg (by simpa using h), hl]

theorem scalarLoad_ok {m : Mach} (h : va % size = 0) (hl : locate m g 0 va size .read arm = .ok l) :
    scalarLoad m gid g va size sc arm = throughPort l.m gid g l.port
        (fun m => ((loadBytes (useLine m l.loc size) g l size sc 0).1, ofBytes (loadBytes (useLine m l.loc size) g l size sc 0).2))
        (fun m => (m, 2 ^ (8 * size) - 1)) := by
  unfold scalarLoad
  rw [if_neg (by simpa using h), hl]

theorem throughPort_none {α : Type} (m : Mach) (gid : Nat) (g : Group) (perform ended : Mach → Mach × α) :
    throughPort m gid g none perform ended = .done (perform m).1 (perform m).2 := rfl

/-- An instruction whose access lies behind a port sends it, and waits while it is outstanding (R414). -/
theorem crossesFabric {α : Type} {m : Mach} {port : Option Nat} {perform ended : Mach → Mach × α} {k : Mach → α → Mach} {p : Nat}
    (hi : exec i s = .next { s with m := onGot gid (throughPort m gid g port perform ended) k }) (hp : port = some p) :
    CrossesFabric i s gid g m p := by
  subst hp
  refine ⟨fun hf => ⟨_, sentOver_sent g m [p] [], ?_⟩, fun ws lost hf => ?_⟩
  · rw [hi, throughPort, hf]
    rfl
  · rw [hi, throughPort, hf]
    rfl

end

end Sys2Proof.Machine
end

section
/-! PROOF. Fences, queue fences and WAITA (R185 to R187): O28. Each is one case split on what the instruction finds; what it leaves
is an acquire, a join, or one load.
-/

namespace Sys2Proof.Machine

/-! FENCE and QFENCE (R185, R186). -/

section
variable {s : State} {gid : Nat} {g : Group}

theorem depth_pos_iff : 0 < g.depth ↔ g.rgn ≠ [] := List.length_pos_iff

theorem exec_fence_of_illegal (h : Here s gid g) {scope : BitVec 3} (hs : 5 ≤ scope.toNat) : Traps (.fence scope) s gid .illegal := by
  refine (groupStep_next h _).trans ?_
  rw [if_pos hs]

theorem exec_fence_in_region (h : Here s gid g) {scope : BitVec 3} (hs : scope.toNat < 5) (hr : g.rgn ≠ []) (h0 : scope ≠ 0) :
    Traps (.fence scope) s gid .publishInRegion := by
  refine (groupStep_next h _).trans ?_
  rw [if_neg hs.not_ge, if_pos (by simpa [depth_pos_iff] using ⟨hr, h0⟩)]

/-- What holds back a FENCE that may be executed. -/
def fenceHeld (m : Mach) (gid : Nat) (g : Group) (scope : BitVec 3) : Bool :=
  g.heldBack || (scope = 4 && aany (fun _ p => p.group = gid) m.psts)

theorem fenceHeld_iff {m : Mach} {scope : BitVec 3} :
    fenceHeld m gid g scope = true ↔ g.heldBack = true ∨ (scope = 4 ∧ ∃ kp ∈ m.psts, kp.2.group = gid) := by
  simp [fenceHeld, aany]

theorem exec_fence (h : Here s gid g) {scope : BitVec 3} (hs : scope.toNat < 5) (hr : g.rgn = [] ∨ scope = 0) :
    exec (.fence scope) s = .next { s with
      m := if fenceHeld s.m gid g scope then wait s.m gid g
        else retire (acquireAt s.m g (Scope.ofCode scope.toNat)) gid g (scalarCode 0x22 scope.toNat) } := by
  refine (groupStep_next h _).trans ?_
  rw [if_neg hs.not_ge, if_neg (by simpa [depth_pos_iff, or_iff_not_imp_left] using hr)]
  rfl

theorem own_iff {m : Mach} : aany (fun _ w => w.poster = some gid && !w.over) m.walks = true
    ↔ ∃ kw ∈ m.walks, kw.2.poster = some gid ∧ kw.2.over = false := by
  simp [aany]

/-- What a QFENCE of a set waits for: the entries of the queues that it names, not performed yet. -/
theorem mem_engineEntries_copy {m : Mach} {set : BitVec 5} {team : Nat} {ix : BitVec 32} :
    EngineEntry.copy team ix ∈ engineEntries m gid g set ↔ set.getLsbD 1 = true ∧ team = g.team
      ∧ ∃ t, aget m.teams g.team = some t ∧ ∃ p ∈ t.pubs, p.group = gid ∧ p.ix = ix := by
  unfold engineEntries
  cases aget m.teams g.team with
  | none => simp
  | some t =>
    simp only [List.mem_append, List.mem_ite_nil_right, List.mem_map, List.mem_filter, decide_eq_true_eq, reduceCtorEq, and_false,
      exists_false, or_false, EngineEntry.copy.injEq, Option.some.injEq, exists_eq_left']
    exact and_congr_right fun _ => ⟨fun ⟨p, ⟨hp, hg⟩, ht, hix⟩ => ⟨ht.symm, p, hp, hg, hix⟩,
      fun ⟨ht, p, hp, hg, hix⟩ => ⟨p, ⟨hp, hg⟩, ht.symm, hix⟩⟩

theorem mem_engineEntries_walk {m : Mach} {set : BitVec 5} {id : Nat} :
    EngineEntry.walk id ∈ engineEntries m gid g set ↔ set.getLsbD 2 = true
      ∧ ∃ w, (id, w) ∈ m.walks ∧ w.poster = some gid ∧ w.over = false := by
  unfold engineEntries
  cases aget m.teams g.team <;> simp

theorem mem_engineEntries_pst {m : Mach} {set : BitVec 5} {id : Nat} :
    EngineEntry.pst id ∈ engineEntries m gid g set ↔ set.getLsbD 3 = true ∧ ∃ p, (id, p) ∈ m.psts ∧ p.group = gid := by
  unfold engineEntries
  cases aget m.teams g.team <;> simp

theorem exec_qfence_in_region (h : Here s gid g) {sa : Sreg} (hr : g.rgn ≠ []) (hs : (g.s sa).truncate 5 ≠ (0 : BitVec 5)) :
    Traps (.qfence sa) s gid .publishInRegion := by
  refine (groupStep_next h _).trans ?_
  dsimp only
  rw [if_pos (by simpa [depth_pos_iff] using ⟨hr, hs⟩)]

theorem exec_qfence_in_handler (h : Here s gid g) {sa : Sreg} (hr : g.rgn = [] ∨ (g.s sa).truncate 5 = (0 : BitVec 5))
    (hw : ((g.s sa).truncate 5 : BitVec 5).getLsbD 2 = true) (hserve : g.serving ≠ none)
    (hown : ∃ kw ∈ s.m.walks, kw.2.poster = some gid ∧ kw.2.over = false) : Traps (.qfence sa) s gid .handlerWait := by
  refine (groupStep_next h _).trans ?_
  dsimp only
  rw [if_neg (by simpa [depth_pos_iff, or_iff_not_imp_left] using hr),
    if_pos (by rw [Bool.and_eq_true, Bool.and_eq_true, Option.isSome_iff_ne_none, own_iff]; exact ⟨⟨hw, hserve⟩, hown⟩)]

/-- The join that a QFENCE of a set makes. -/
def fenceJoin (m : Mach) (gid : Nat) (g : Group) (set : BitVec 5) : Join := { set := set, waits := engineEntries m gid g set }

theorem join_acquires_iff (j : Join) : j.acquires = true ↔ j.set.getLsbD 0 = true ∧ j.set.toNat / 2 ≠ 0 := by
  have hset : j.set.toNat < 2 ^ 5 := j.set.isLt
  have hex : j.set.extractLsb' 1 4 = 0 ↔ j.set.toNat / 2 = 0 := by
    rw [← BitVec.toNat_inj]
    simp only [BitVec.extractLsb'_toNat, Nat.shiftRight_eq_div_pow]
    change j.set.toNat / 2 ^ 1 % 2 ^ 4 = 0 ↔ _
    omega
  unfold Join.acquires
  rw [Bool.and_eq_true, bne_iff_ne, Ne, hex]

theorem exec_qfence (h : Here s gid g) {sa : Sreg} (hr : g.rgn = [] ∨ (g.s sa).truncate 5 = (0 : BitVec 5))
    (hs : ¬ (((g.s sa).truncate 5 : BitVec 5).getLsbD 2 = true ∧ g.serving ≠ none
      ∧ ∃ kw ∈ s.m.walks, kw.2.poster = some gid ∧ kw.2.over = false)) :
    exec (.qfence sa) s = .next { s with
      m := let j := fenceJoin s.m gid g ((g.s sa).truncate 5)
        if j.waits.isEmpty then retire (if j.acquires then acquireAt s.m g .dev else s.m) gid g (scalarCode 0x22 8)
        else retire s.m gid { g with joins := g.joins ++ [j] } (scalarCode 0x22 8) } := by
  refine (groupStep_next h _).trans ?_
  dsimp only
  rw [if_neg (by simpa [depth_pos_iff, or_iff_not_imp_left] using hr),
    if_neg (by simpa [Option.isSome_iff_ne_none, own_iff, and_assoc] using hs)]
  rfl

/-! WAITA (R187). -/

variable {cc : BitVec 3} {sd sa sb : Sreg}

/-- Whether a WAITA that has read v at cycle now ends: its condition holds or its limit is reached. -/
def waitaEnds (g : Group) (cc : BitVec 3) (sd sb : Sreg) (now : Nat) (v : Dword) : Bool :=
  waitCond cc.toNat v (g.s sb) || (g.s sd).toNat ≤ now - g.waitedFrom.getD now

/-- How a WAITA that has read v goes on: it ends, or waits and keeps the clock at which it began. -/
def waitaGoesOn (gid : Nat) (g : Group) (cc : BitVec 3) (sd sb : Sreg) (m : Mach) (v : Dword) : Mach :=
  let now := (m.core g.core).clk
  if waitaEnds g cc sd sb now v then retire m gid (g.setS sd v) (scalarCode 0x22 (0x10 + cc.toNat))
  else wait m gid { g with waitedFrom := some (g.waitedFrom.getD now), fabric := .none, flight := none }

theorem exec_waita_of_illegal (h : Here s gid g) (hcc : 6 ≤ cc.toNat) : Traps (.waita cc sd sa sb) s gid .illegal := by
  refine (groupStep_next h _).trans ?_
  rw [if_pos hcc]

theorem exec_waita (h : Here s gid g) (hcc : cc.toNat < 6) : exec (.waita cc sd sa sb) s = .next { s with
      m := onGot gid (scalarLoad s.m gid g (g.s sa).toNat 8 .sys false) fun m x => waitaGoesOn gid g cc sd sb m (zext x) } := by
  refine (groupStep_next h _).trans ?_
  rw [if_neg hcc.not_ge]
  rfl

/-- A WAITA of a place that lies behind no port goes on with the 8 bytes there. -/
theorem exec_waita_of_near {l : Located} (h : Here s gid g) (hcc : cc.toNat < 6) (hva : (g.s sa).toNat % 8 = 0)
    (hl : locate s.m g 0 (g.s sa).toNat 8 .read false = .ok l) (hnear : ∀ port far, l.loc ≠ .ext port far) :
    ∃ m1, OnlyL1 l.m m1 g.core ∧ exec (.waita cc sd sa sb) s = .next { s with
      m := waitaGoesOn gid g cc sd sb m1 (BitVec.ofNat 64 (numberOf ((List.range 8).map fun k => readByte l.m (l.loc.plus k)))) } := by
  obtain ⟨m1, hload, hm1⟩ := loadBytes_of_not_hit (m := l.m) (g := g) (n := 8) (s := .sys) hnear rfl 0
  refine ⟨m1, hm1, ?_⟩
  rw [exec_waita h hcc, scalarLoad_ok hva hl, (locate_ok hl).2 hnear, throughPort_none, useLine_of_near hnear, hload,
    ofBytes_eq_numberOf, readBytes_eq_map]
  rfl

theorem waitCond_iff (hcc : cc.toNat < 6) (v b : Dword) : waitCond cc.toNat v b = true ↔
    (cc = 0 ∧ v = b) ∨ (cc = 1 ∧ v ≠ b) ∨ (cc = 2 ∧ v.toInt < b.toInt) ∨ (cc = 3 ∧ b.toInt ≤ v.toInt)
      ∨ (cc = 4 ∧ v.toNat < b.toNat) ∨ (cc = 5 ∧ b.toNat ≤ v.toNat) := by
  obtain ⟨n, hn, rfl⟩ : ∃ n, n < 6 ∧ cc = BitVec.ofNat 3 n := ⟨cc.toNat, hcc, by simp⟩
  interval_cases n <;> simp [waitCond, BitVec.slt, BitVec.ult]

end

end Sys2Proof.Machine

namespace Sys2Proof
open Machine

/-- Settles O28: each instruction by what stops it, by what holds it back, and by what it leaves. -/
theorem fencesAndWaits : Obligations.FencesAndWaits := by
  unfold Obligations.FencesAndWaits
  refine ⟨fun s gid g h => ?fences, fun s gid g cc sd sa sb h => ?waita⟩
  case fences =>
    intro spread
    have hspread : teamOnOneCore s.m g = false ↔ spread := teamOnOneCore_eq_false_iff
    refine ⟨fun scope => ⟨exec_fence_of_illegal h, exec_fence_in_region h, fun hs hr => ?_⟩, fun sa => ?_⟩
    · intro held
      have hexec := exec_fence h hs hr
      have hheld : fenceHeld s.m gid g scope = true ↔ held := fenceHeld_iff
      refine ⟨fun hw => ?_, fun hn => ?_⟩
      · rw [Waits, hexec, if_pos (hheld.2 hw), wait_eq]
      · rw [if_neg (mt hheld.1 hn)] at hexec
        refine ⟨fun hwide => ?_, fun h1 hone => ?_, fun h0 => ?_⟩
        · have hacquire : acquireAt s.m g (Scope.ofCode scope.toNat) = acquired s.m g := by
            rcases hwide with hwide | ⟨rfl, hwide⟩
            · exact acquireAt_ofCode_wide hwide
            · exact (acquireAt_team s.m g).trans (by rw [hspread.2 hwide]; rfl)
          rw [hacquire] at hexec
          exact leavesIn_finish _ _ _ _ _ hexec
        · subst h1
          have hacquire : acquireAt s.m g .team = boundSeen s.m g := by
            rw [acquireAt_team, if_pos (by simpa using mt hspread.1 hone)]
          exact leavesIn_finish _ _ _ _ _ (hexec.trans (by rw [← hacquire]; rfl))
        · subst h0
          exact leaves_finish h _ _ _ _ hexec rfl rfl rfl
    · intro i set own
      refine ⟨fun hr hs => exec_qfence_in_region h hr hs, fun hr => ⟨fun hw => ?_, fun hn => ?_⟩⟩
      · obtain ⟨hset, hserve, hown⟩ := hw
        exact exec_qfence_in_handler h hr hset hserve hown
      · have hexec := exec_qfence h hr hn
        refine ⟨engineEntries s.m gid g set, fun _ _ => mem_engineEntries_copy, fun _ => mem_engineEntries_walk,
          fun _ => mem_engineEntries_pst, fun hw => ?_, fun hw => ?_⟩
        · dsimp only at hexec
          rw [if_neg (by simpa [fenceJoin, List.isEmpty_iff] using hw)] at hexec
          exact leaves_retire h hexec rfl rfl rfl rfl
        · dsimp only at hexec
          rw [if_pos (by simpa [fenceJoin, List.isEmpty_iff] using hw)] at hexec
          simp only [join_acquires_iff, acquireAt_wide (show Scope.dev ≠ .grp by decide) (show Scope.dev ≠ .team by decide)] at hexec
          exact leavesIn_finish _ _ _ _ _ hexec
  case waita =>
    intro i va
    refine ⟨exec_waita_of_illegal h, fun hcc => ?_⟩
    have hexec := exec_waita (sd := sd) (sa := sa) (sb := sb) h hcc
    refine ⟨fun hva => ?_, fun c a hva hl => ?_, fun l hva hl => ?_⟩
    · rw [hexec, scalarLoad_misaligned _ hva]
      rw [BitVec.ofNat_toNat, BitVec.setWidth_eq, onGot]
    · rw [hexec, scalarLoad_error hva hl]
      rfl
    · obtain ⟨hlook, -⟩ := locate_ok hl
      refine ⟨hlook, fun p hp => crossesFabric (hexec.trans (by rw [scalarLoad_ok hva hl])) hp, fun hnear => ?_⟩
      obtain ⟨m1, hm1, hread⟩ := exec_waita_of_near h hcc hva hl hnear (sd := sd) (sb := sb)
      refine ⟨m1, hm1, ?_⟩
      intro v b now from_ holds ends waits
      have hclk : (m1.core g.core).clk = now := by
        obtain ⟨-, hlcore, -⟩ := hlook
        obtain ⟨-, -, hcore⟩ := hm1
        rw [hcore, hlcore]
      have hends : waitaEnds g cc sd sb now v = true ↔ ends := by
        rw [waitaEnds, Bool.or_eq_true, waitCond_iff hcc, decide_eq_true_iff]
      rw [waitaGoesOn, hclk] at hread
      refine ⟨fun he => ?_, fun hn => ?_⟩
      · rw [if_pos (hends.2 he), retire, setS_spc] at hread
        exact leavesIn_finish _ _ _ _ _ hread
      · rw [if_neg (mt hends.1 hn), wait_eq] at hread
        exact hread

end Sys2Proof
end

section
/-! PROOF. What every lane memory instruction does (R173 to R175, R414): its lanes are checked in turn, it faults where one fails, it
sends its accesses where one lies behind a port, and else performs them in an order of its lanes and completes.
-/

namespace Sys2Proof.Machine

/-! Stores behind ports: the module's own memory stays as it is. -/

structure OnlyFar (m m' : Mach) : Prop where
  rest : m' = { m with mem := m'.mem, indet := m'.indet, touched := m'.touched, psts := m'.psts, ports := m'.ports,
                       dies := m'.dies, free := m'.free }
  byte : ∀ k, k < 2 ^ 60 → keyByte m' k = keyByte m k

theorem OnlyFar.refl (m : Mach) : OnlyFar m m := ⟨rfl, fun _ _ => rfl⟩

section
variable {m m1 m2 : Mach}

theorem OnlyFar.trans (h : OnlyFar m m1) (h' : OnlyFar m1 m2) : OnlyFar m m2 :=
  ⟨by rw [h'.rest, h.rest], fun k hk => (h'.byte k hk).trans (h.byte k hk)⟩

theorem OnlyFar.sameOver (h : OnlyFar m m1) : SameOver m m1 := by constructor <;> rw [h.rest]

theorem OnlyFar.readByte_eq (h : OnlyFar m m1) {l : Loc} (hl : unlogged m l) (hk : l.key < 2 ^ 60) : readByte m1 l = readByte m l :=
  h.sameOver.readByte_eq hl (h.byte _ hk)

theorem OnlyFar.bump (h : OnlyFar m m1) : OnlyFar m m1.bump := ⟨by rw [h.rest]; rfl, h.byte⟩

theorem OnlyFar.setPsts (h : OnlyFar m m1) (ps : AMap Pst) : OnlyFar m { m1 with psts := ps } := ⟨by rw [h.rest], h.byte⟩

theorem OnlyFar.foldl {β : Type} {f : Mach → β → Mach} (l : List β) (hf : ∀ m, ∀ b ∈ l, OnlyFar m (f m b)) (m : Mach) :
    OnlyFar m (l.foldl f m) := by
  induction l generalizing m with
  | nil => exact OnlyFar.refl m
  | cons b l ih => exact (hf m b (.head l)).trans (ih (fun m c hc => hf m c (.tail b hc)) _)

theorem onlyFar_writeBytes (m : Mach) (port far : Nat) (bs : List Byte) : OnlyFar m (writeBytes m (.ext port far) bs) := by
  have hp := poked_writeBytes (m := m) (l := .ext port far) (bs := bs) fun i _ => bare_of_ne_spad fun a ha => by cases ha
  refine ⟨by rw [hp.rest], fun k hk => hp.other k (.inl ?_)⟩
  simp only [Loc.key]
  omega

theorem onlyFar_keepLines (m : Mach) (port far n : Nat) : OnlyFar m (keepLines m port far n) := by
  unfold keepLines
  dsimp only
  split
  · split <;> exact ⟨rfl, fun _ _ => rfl⟩
  · exact OnlyFar.refl m

theorem onlyFar_useLine (m : Mach) (l : Loc) (n : Nat) : OnlyFar m (useLine m l n) := by
  unfold useLine
  split
  · exact onlyFar_keepLines ..
  · exact OnlyFar.refl m

theorem onlyFar_landPst (m : Mach) (id port far n : Nat) : OnlyFar m (landPst m id port far n) := by
  unfold landPst
  split
  next p _ =>
    have hcount : OnlyFar m (if (p.meeting port far n).isEmpty then m else countFlits m p.ctx port 0 1) := by
      split
      · exact OnlyFar.refl m
      · exact ⟨rfl, fun _ _ => rfl⟩
    have hwrites := hcount.trans (OnlyFar.foldl (p.meeting port far n) (fun m b _ => onlyFar_writeBytes m port b.1 b.2) _)
    exact hwrites.setPsts _
  next => exact OnlyFar.refl m

theorem onlyFar_landPsts (m : Mach) (l : Loc) (n upTo : Nat) : OnlyFar m (landPsts m l n upTo) := by
  unfold landPsts
  split
  · exact OnlyFar.foldl _ (fun m kp _ => onlyFar_landPst ..) m
  · exact OnlyFar.refl m

theorem onlyFar_landAll (m : Mach) (l : Loc) (n : Nat) : OnlyFar m (landAll m l n) := onlyFar_landPsts ..

end

/-! The checks of the lanes (R174). -/

section
variable {m m' : Mach} {g : Group} {core ctx : Nat}

theorem lookedUpAll_frame : ∀ {vas : List (Option Nat)} {m m' : Mach}, LookedUpAll core ctx vas m m' →
    m' = { m with mem := m'.mem, indet := m'.indet, touched := m'.touched, cores := m'.cores, clusters := m'.clusters,
                  dies := m'.dies, free := m'.free }
  | [], m, m', h => by rw [LookedUpAll] at h; rw [h]
  | va :: vas, m, m', ⟨m1, ⟨h1, _⟩, h2⟩ => by rw [lookedUpAll_frame h2, h1]

theorem lookedUpAll_append : ∀ {a b : List (Option Nat)} {m m1 m2 : Mach}, LookedUpAll core ctx a m m1 → LookedUpAll core ctx b m1 m2 →
    LookedUpAll core ctx (a ++ b) m m2
  | [], _, _, _, _, h, h' => by rw [LookedUpAll] at h; rw [← h]; exact h'
  | _ :: _, _, _, _, _, ⟨m0, h1, h2⟩, h' => ⟨m0, h1, lookedUpAll_append h2 h'⟩

theorem translatedAt_congr (hk : m'.kerns = m.kerns) (ht : m'.teams = m.teams) (lane va : Nat) :
    translatedAt m' g lane va = translatedAt m g lane va := by
  unfold translatedAt privateVa Mach.lrec?
  rw [hk, ht]

/-- Where no lane fails, each lane has its access, of which what its check says holds, and the addresses have been looked up in
turn. -/
theorem checkLanes_ok {check : Mach → Nat → Mach × Except LaneFault LaneAccess} {va : Nat → Option Nat} {P : LaneAccess → Prop}
    {m0 : Mach} (hcheck : ∀ m l m1 a, m.kerns = m0.kerns → m.teams = m0.teams → check m l = (m1, .ok a) →
      a.lane = l ∧ LookedUp m m1 core ctx (va l) ∧ P a) (ls : List Nat) :
    ∀ {m m1 : Mach} {as_ : List LaneAccess}, m.kerns = m0.kerns → m.teams = m0.teams → checkLanes check ls m = (m1, as_, []) →
      as_.map LaneAccess.lane = ls ∧ LookedUpAll core ctx (ls.map va) m m1 ∧ ∀ a ∈ as_, P a := by
  induction ls with
  | nil =>
    intro m m1 as_ _ _ h
    cases h
    exact ⟨rfl, rfl, fun a ha => nomatch ha⟩
  | cons l ls ih =>
    intro m m1 as_ hk ht h
    rw [checkLanes] at h
    split at h
    · cases h
    next mid a hl =>
      obtain ⟨hlane, hlook, hp⟩ := hcheck m l mid a hk ht hl
      obtain ⟨hframe, -⟩ := id hlook
      generalize hr : checkLanes check ls mid = r at h
      obtain ⟨m2, as2, fs2⟩ := r
      cases h
      obtain ⟨hmap, hall, hps⟩ := ih (by rw [hframe]; exact hk) (by rw [hframe]; exact ht) hr
      exact ⟨by rw [List.map_cons, hlane, hmap], ⟨mid, hlook, hall⟩, List.forall_mem_cons.2 ⟨hp, hps⟩⟩

/-- An access crosses a port only where it lies behind one. -/
def LaneAccess.CrossesFar (a : LaneAccess) : Prop := (∀ port far, a.loc.loc ≠ .ext port far) → a.loc.port = none

theorem checkLane_ok {l ea size : Nat} {k : AKind} {arm : Bool} {m1 : Mach} {a : LaneAccess}
    (h : checkLane m g l ea size k arm = (m1, .ok a)) :
    a.lane = l ∧ LookedUp m m1 g.core g.ctx (translatedAt m g l ea) ∧ a.CrossesFar := by
  unfold checkLane at h
  split at h
  · cases h
  · split at h
    · cases h
    next loc hloc =>
      cases h
      exact ⟨rfl, locate_ok hloc⟩

end

/-! The accesses sent over the fabric (R411, R414). -/

section
variable {s : State} {i : Instr} {gid size : Nat} {g : Group} {m : Mach} {as_ : List LaneAccess} {data : Option (Nat → Nat)}

theorem Loc.exists_ext_of_port {a : LaneAccess} {p : Nat} (ha : a.CrossesFar) (hp : a.loc.port = some p) :
    ∃ port far, a.loc.loc = .ext port far := by
  by_contra hnear
  push Not at hnear
  rw [ha hnear] at hp
  cases hp

theorem onlyFar_sendHalf (f : Flight) (mh : Mach × AMap Dword) {a : LaneAccess} (ha : a.CrossesFar) :
    OnlyFar mh.1 (sendHalf gid g f data mh a).1 := by
  unfold sendHalf
  split
  next p h hp _ =>
    obtain ⟨port, far, hloc⟩ := Loc.exists_ext_of_port ha hp
    split
    · exact OnlyFar.refl _
    · rw [hloc]
      have hland := (onlyFar_useLine mh.1 (Loc.plus (.ext port far) (8 * h)) 8).trans (onlyFar_landAll _ (Loc.plus (.ext port far) (8 * h)) 8)
      dsimp only
      split
      · exact hland
      · exact hland.trans (onlyFar_writeBytes ..)
  next => exact OnlyFar.refl _

theorem onlyFar_sendHalves (f : Flight) (as_ : List LaneAccess) (h : ∀ a ∈ as_, a.CrossesFar) : ∀ mh : Mach × AMap Dword,
    OnlyFar mh.1 (as_.foldl (sendHalf gid g f data) mh).1 := by
  induction as_ with
  | nil => exact fun mh => OnlyFar.refl _
  | cons a as_ ih =>
    obtain ⟨ha, has⟩ := List.forall_mem_cons.1 h
    exact fun mh => (onlyFar_sendHalf f mh ha).trans (ih has _)

theorem sendLanes_of_small (h : size ≠ 16) : sendLanes m gid g size as_ data = sendOver m gid g (portsOf size as_) := by
  unfold sendLanes
  dsimp only
  split
  · rw [if_neg h]
  · rfl

/-- The flight of accesses sent just now, with the halves that were performed early. -/
def sentFlight (m : Mach) (halves : AMap Dword) : Flight := { routes := m.routes, seed := Config.choice m.free, halves := halves }

theorem sendLanes_of_large (has : ∀ a ∈ as_, a.CrossesFar) : ∃ halves m2,
    OnlyFar (sendOver m gid g (portsOf 16 as_)) m2 ∧ sendLanes m gid g 16 as_ data
      = m2.setGrp gid (g.sent m (portsOf 16 as_) halves) := by
  have hfound : (sendOver m gid g (portsOf 16 as_)).grp? gid = some (g.sent m (portsOf 16 as_) []) := setGrp_grp? ..
  have hfar := onlyFar_sendHalves (gid := gid) (g := g) (data := data) (sentFlight m []) as_ has (sendOver m gid g (portsOf 16 as_), [])
  generalize hr : as_.foldl (sendHalf gid g (sentFlight m []) data) (sendOver m gid g (portsOf 16 as_), []) = r at hfar
  obtain ⟨m2, halves⟩ := r
  have hfound2 : m2.grp? gid = some (g.sent m (portsOf 16 as_) []) := by
    rw [Mach.grp?, hfar.sameOver.groups]
    exact hfound
  refine ⟨halves, m2, hfar, ?_⟩
  unfold sendLanes
  simp only [hfound, show (some (g.sent m (portsOf 16 as_) [])).bind Group.flight = some (sentFlight m []) from rfl, if_true, hr, regrp,
    hfound2]
  rfl

theorem overFabric_none {p : Nat} {ps : List Nat} {send perform : Unit → Mach} (hf : g.fabric = .none) :
    overFabric m g (p :: ps) send perform = send () := by
  unfold overFabric
  simp only [hf]

theorem overFabric_pending {p : Nat} {ps lost : List Nat} {ws : List (Nat × Nat)} {send perform : Unit → Mach}
    (hf : g.fabric = .pending ws lost) : overFabric m g (p :: ps) send perform = m := by
  unfold overFabric
  simp only [hf]

theorem overFabric_nil {send perform : Unit → Mach} : overFabric m g [] send perform = perform () := by
  unfold overFabric
  cases g.fabric <;> rfl

/-- Sending changes no byte. -/
theorem readByte_sendOver {ports : List Nat} {l : Loc} (hg : m.grp? gid = some g) (hl : unlogged m l) :
    unlogged (sendOver m gid g ports) l ∧ readByte (sendOver m gid g ports) l = readByte m l := by
  have hlog : unlogged (m.setGrp gid (g.sent m ports [])) l := fun a ha =>
    (logAt_setGrp m gid g (g.sent m ports []) a hg rfl rfl rfl).trans (hl a ha)
  exact ⟨hlog, (readByte_free (m.setGrp gid (g.sent m ports [])) m.cores (m.free + 1) l hlog).trans
    (readByte_setGrp m gid g (g.sent m ports []) l hg rfl rfl rfl)⟩

/-- An instruction whose accesses lie behind ports sends them, and waits while they are outstanding. -/
theorem sendsLanes {ports : List Nat} {perform : Unit → Mach} (hports : portsOf size as_ = ports)
    (hi : exec i s = .next { s with m := overFabric m g ports (fun _ => sendLanes m gid g size as_ data) perform })
    (hg : m.grp? gid = some g) (has : ∀ a ∈ as_, a.CrossesFar) (hne : ports ≠ []) : SendsLanes i s gid g m size ports := by
  obtain ⟨p, ps, rfl⟩ := List.exists_cons_of_ne_nil hne
  refine ⟨fun hf => ?_, fun ws lost hf => ?_⟩
  · rw [overFabric_none hf] at hi
    rw [← hports]
    by_cases hsize : size = 16
    · subst hsize
      obtain ⟨halves, m2, hfar, hsend⟩ := sendLanes_of_large (m := m) (gid := gid) (g := g) (data := data) has
      refine ⟨_, sentOver_sent g m _ halves, fun hlt => absurd hlt (Nat.lt_irrefl 16), fun _ => ⟨_, hi, ?_, fun l hl hlog => ?_⟩⟩
      · rw [hsend]
        exact setGrp_grp? ..
      · have hsent : m2.grp? gid = some (g.sent m (portsOf 16 as_) []) := by
          rw [Mach.grp?, hfar.sameOver.groups]
          exact setGrp_grp? ..
        obtain ⟨hlog1, hread1⟩ := readByte_sendOver (ports := portsOf 16 as_) hg hlog
        rw [hsend]
        exact (readByte_setGrp m2 gid _ (g.sent m (portsOf 16 as_) halves) l hsent rfl rfl rfl).trans ((hfar.readByte_eq hlog1 hl).trans hread1)
    · rw [sendLanes_of_small hsize, sendOver_eq] at hi
      exact ⟨_, sentOver_sent g m _ [], fun _ => hi, fun h => absurd h hsize⟩
  · rw [hi, overFabric_pending hf]

end

/-! The issue of a memory instruction (R175, R331), and its completion. -/

section
variable {s : State} {i : Instr} {gid : Nat} {g g1 : Group} {e : LiqEntry} {w : LaneWord} {publishes : Bool} {f : Nat → LaneIn → Mach}

theorem laneMemory_next (h : Issues s gid g e i) (hread : ReadsPass i g (laneIn s.m g e i w).lanes)
    (hp : g.rgn = [] ∨ publishes = false) : laneMemory s i w publishes f = .next { s with m := f gid (laneIn s.m g e i w) } := by
  have hreads : (laneIn s.m g e i w).g.readFails (sourceRegs i) (laneIn s.m g e i w).lanes = false := hread
  have hpub : ¬ ((decide (0 < (laneIn s.m g e i w).g.depth) && publishes) = true) := by
    rcases hp with hp | hp
    · simp [laneIn, Group.depth, hp]
    · simp [hp]
  rw [laneMemory, laneStep_next h, if_neg (ne_true_of_eq_false hreads), if_neg hpub]

theorem laneMemory_publishes (h : Issues s gid g e i) (hread : ReadsPass i g (laneIn s.m g e i w).lanes) (hr : g.rgn ≠ [])
    (hp : publishes = true) : laneMemory s i w publishes f = .next { s with m := laneTrap s.m gid g e .publishInRegion 0 } := by
  have hreads : (laneIn s.m g e i w).g.readFails (sourceRegs i) (laneIn s.m g e i w).lanes = false := hread
  have hpub : (decide (0 < (laneIn s.m g e i w).g.depth) && publishes) = true := by
    rw [hp, Bool.and_true, decide_eq_true_iff]
    exact depth_pos_iff.2 hr
  rw [laneMemory, laneStep_next h, if_neg (ne_true_of_eq_false hreads), if_pos hpub]
  rfl

/-- The group that the completion of an instruction leaves at cycle cyc of its core, its latency being counted from there. -/
def Group.laneFinished (g : Group) (gid : Nat) (e : LiqEntry) (i : Instr) (w : LaneWord) (c : Chain) (cyc : Nat) : Group :=
  let folded := if e.fold then fillHole g.sig g.sigq (foldCode (laneOpcode i) w) else (g.sig, g.sigq)
  { g with
    sig := folded.1, sigq := folded.2,
    qs := { g.qs with liq := g.qs.liq.drop 1, sq := g.qs.sq.drop (sqNeeds i) },
    chain := if w.stick then
        some { c with issued := c.issued ++ [{ e with inject := none }], popped := c.popped ++ g.qs.sq.take (sqNeeds i) }
      else none,
    issuedAt := cyc, fabric := .none, flight := none,
    ready := (destRegs i).foldl (fun r n => aput r n (cyc + Config.latency cyc gid)) g.ready }

theorem laneFinish_eq (m : Mach) (c : Chain) (hcore : g1.core = g.core) (hwidth : g1.width = g.width) :
    laneFinish m gid g1 e i w c =
      { (m.setGrp gid (g1.laneFinished gid e i w c (m.core g.core).cyc)).setCore g.core (coreAfter (m.core g.core) gid g i w) with
        free := if usesLatch w then m.free + 512 else m.free } := by
  have hafter : coreAfter (m.core g.core) gid g i w = coreAfter (m.core g1.core) gid g1 i w := by
    rw [coreAfter, coreAfter, hcore, Group.beats, Group.beats, hwidth]
  rw [hafter, ← hcore]
  unfold laneFinish
  dsimp only
  split <;> rfl

theorem laneDone_laneFinished {c : Chain} {cyc : Nat} (hg1 : g1 = { g with v := g1.v, chk := g1.chk, fpstat := g1.fpstat })
    (hissued : c.issued = (g.chain.getD Chain.empty).issued) (hpopped : c.popped = (g.chain.getD Chain.empty).popped) :
    LaneDone i w g g1 (g1.laneFinished gid e i w c cyc) e cyc := by
  have hsig : g1.sig = g.sig := by rw [hg1]
  have hsigq : g1.sigq = g.sigq := by rw [hg1]
  have hsq : g1.qs.sq = g.qs.sq := by rw [hg1]
  refine ⟨rfl, fun r hr => aget_foldl_aput_ne _ _ _ _ hr, fun hst => if_neg (by simp [hst]), fun hst => ⟨_, if_pos hst, ?_, ?_⟩,
    fun hf => ?_, fun hf hone => ?_⟩
  · rw [← hissued]
  · rw [← hpopped, ← hsq]
  · unfold Group.laneFinished
    simp only [hf, Bool.false_eq_true, if_false]
    exact ⟨hsig, hsigq⟩
  · unfold Group.laneFinished
    simp only [hf, if_true, hsig, hsigq, hone, fillHole_one, and_true]
    rfl

/-- An instruction that ends in a module m1, with its group changed in registers, checks and flags alone, completes so there. -/
theorem laneLeavesIn_laneFinish {m1 : Mach} {c : Chain} {more : Group → Prop}
    (hi : exec i s = .next { s with m := laneFinish m1 gid g1 e i w c })
    (hg1 : g1 = { g with v := g1.v, chk := g1.chk, fpstat := g1.fpstat })
    (hissued : c.issued = (g.chain.getD Chain.empty).issued) (hpopped : c.popped = (g.chain.getD Chain.empty).popped)
    (hmore : ∀ g', (w.stick = true → ∃ c', g'.chain = some c' ∧ c'.latches = c.latches) → more g') :
    LaneLeavesIn i w s gid m1 g e g1 more := by
  rw [laneFinish_eq m1 c (by rw [hg1]) (by rw [hg1])] at hi
  exact ⟨_, _, hi, laneDone_laneFinished hg1 hissued hpopped, hmore _ fun hst => ⟨_, if_pos hst, rfl⟩⟩

/-- An instruction that changes nothing of its group completes so. -/
theorem laneLeavesIn_of_same {m1 : Mach} (hi : exec i s = .next { s with m := laneFinish m1 gid g e i w (g.chain.getD Chain.empty) }) :
    LaneLeavesIn i w s gid m1 g e g fun _ => True :=
  laneLeavesIn_laneFinish hi rfl rfl rfl fun _ _ => trivial

end

/-! The accesses performed (R171, R174). -/

section
variable {m m1 : Mach} {x : LaneIn} {gid size : Nat} {k : AKind} {arm : Bool} {data : Option (Nat → Nat)}
  {perform : Mach → List LaneAccess → Mach} {as_ : List LaneAccess} {fs : List LaneFault}

theorem withLanes_faults (h : checkLanes (fun m l => checkLane m x.g l (x.ea l) size k arm) x.lanes m = (m1, as_, fs)) (hne : fs ≠ []) :
    withLanes m gid x size k arm data perform = laneFaults m1 gid x.g x.e fs := by
  unfold withLanes
  rw [h]
  exact if_pos (by simpa using hne)

theorem withLanes_passes (h : checkLanes (fun m l => checkLane m x.g l (x.ea l) size k arm) x.lanes m = (m1, as_, [])) :
    withLanes m gid x size k arm data perform = overFabric m1 x.g (portsOf size as_) (fun _ => sendLanes m1 gid x.g size as_ data)
      fun _ => perform (laneOrder m1 size as_).1 (laneOrder m1 size as_).2 := by
  unfold withLanes
  rw [h]
  rfl

theorem grp?_of_lookedUpAll {core ctx : Nat} {vas : List (Option Nat)} (h : LookedUpAll core ctx vas m m1) : m1.grp? gid = m.grp? gid := by
  rw [Mach.grp?, lookedUpAll_frame h]
  rfl

/-- Where no lane fails, each has its access, and the addresses of the lanes have been looked up in turn. -/
theorem lanes_checked {g : Group} {ea : Nat → Nat} {ls : List Nat}
    (h : checkLanes (fun m l => checkLane m g l (ea l) size k arm) ls m = (m1, as_, [])) :
    as_.map LaneAccess.lane = ls ∧ LookedUpAll g.core g.ctx (ls.map fun l => translatedAt m g l (ea l)) m m1
      ∧ ∀ a ∈ as_, a.CrossesFar := by
  refine checkLanes_ok (m0 := m) (fun m' l m2 a hk ht hl => ?_) ls rfl rfl h
  rw [← translatedAt_congr (g := g) hk ht]
  exact checkLane_ok hl

theorem sizeBytes_pos (code : Nat) : 0 < sizeBytes code := Nat.two_pow_pos code

theorem perm_permute {α : Type} (seed : Nat) : ∀ (n : Nat) (l : List α), (permute seed n l).Perm l
  | 0, l => List.Perm.refl l
  | n + 1, [] => List.Perm.refl []
  | n + 1, y :: r => by
    have hi : Config.choice (seed + n) % (r.length + 1) < (y :: r).length := Nat.mod_lt _ (Nat.succ_pos _)
    rw [permute, List.getElem?_eq_getElem hi, Option.getD_some]
    exact ((perm_permute seed n _).cons _).trans (List.getElem_cons_eraseIdx_perm hi)

/-- The lanes take effect in some order, their own where no two overlap (R171). -/
theorem laneOrder_spec (m : Mach) (size : Nat) (as_ : List LaneAccess) :
    (∃ fr, (laneOrder m size as_).1 = { m with free := fr }) ∧ (laneOrder m size as_).2.Perm as_
      ∧ (anyOverlap size as_ = false → (laneOrder m size as_).2 = as_) := by
  unfold laneOrder
  split
  next h => exact ⟨⟨_, rfl⟩, perm_permute .., fun hn => absurd (hn.symm.trans h) Bool.false_ne_true⟩
  next => exact ⟨⟨m.free, rfl⟩, List.Perm.refl _, fun _ => rfl⟩

theorem ne_ext_of_plainAt {l : Loc} {n : Nat} (h : plainAt m l n) : ∀ port far, l ≠ .ext port far := by
  rintro port far rfl
  exact h

theorem portsOf_of_near (h : ∀ a ∈ as_, a.loc.port = none) : portsOf size as_ = [] := by
  unfold portsOf
  refine List.flatMap_eq_nil_iff.2 fun a ha => ?_
  rw [h a ha]
  simp

/-- Over plain memory a byte of an access has nothing over it. -/
theorem bare_of_plainAt {l : Loc} {n k : Nat} (h : plainAt m l n) (hk : k < n) : Bare m (l.plus k) := by
  intro a ha
  obtain ⟨b, rfl, rfl⟩ := Loc.plus_eq_spad ha
  obtain ⟨hs, hr, hl⟩ := h k hk
  exact ⟨hs, hl, hr⟩

end

/-! Several stores to plain memory, one after another. -/

section
variable {m m1 m2 : Mach} {core : Nat}

theorem onlyMemory_refl (m : Mach) (core : Nat) : OnlyMemory m m core := ⟨rfl, fun _ _ => rfl, rfl⟩

theorem onlyMemory_trans (h : OnlyMemory m m1 core) (h' : OnlyMemory m1 m2 core) : OnlyMemory m m2 core := by
  obtain ⟨he, hne, hc⟩ := h
  obtain ⟨he', hne', hc'⟩ := h'
  refine ⟨?_, fun c hcore => (hne' c hcore).trans (hne c hcore), ?_⟩
  · rw [he', he]
  · rw [hc', hc]

theorem onlyMemory_free (m : Mach) (core fr : Nat) : OnlyMemory m { m with free := fr } core := ⟨rfl, fun _ _ => rfl, rfl⟩

theorem onlyMemory_of_poked {k : Nat} {bs : List Byte} (h : Poked m m1 k bs) (core : Nat) : OnlyMemory m m1 core := by
  have hcore : ∀ c, m1.core c = m.core c := fun c => by rw [h.rest]; rfl
  exact ⟨by rw [h.rest], fun c _ => hcore c, by rw [hcore]⟩

theorem onlyMemory_setL1 (m : Mach) (core : Nat) (l1 : AMap Byte) :
    OnlyMemory m (m.setCore core { m.core core with l1 := l1 }) core :=
  ⟨rfl, fun c hc => setCore_core_ne _ _ _ _ hc, by rw [setCore_core]⟩

theorem onlyMemory_poolStored (m : Mach) (pa n core : Nat) : OnlyMemory m (poolStored m pa n) core := by
  unfold poolStored
  split
  · exact ⟨rfl, fun _ _ => rfl, rfl⟩
  · exact onlyMemory_refl m core

theorem over_of_onlyMemory (h : OnlyMemory m m1 core) : SameOver m m1 := by
  obtain ⟨h, -⟩ := h
  constructor <;> rw [h]

theorem grp?_of_onlyMemory {gid : Nat} (h : OnlyMemory m m1 core) : m1.grp? gid = m.grp? gid := by
  rw [Mach.grp?, (over_of_onlyMemory h).groups]
  rfl

theorem plainAt_of_onlyMemory (h : OnlyMemory m m1 core) {l : Loc} {n : Nat} (hp : plainAt m l n) : plainAt m1 l n := by
  have hover := over_of_onlyMemory h
  obtain ⟨h, -⟩ := h
  cases l with
  | spad a =>
    intro k hk
    rw [hover.slots, hover.ringAt_eq, hover.logAt_eq]
    exact hp k hk
  | chip a =>
    unfold plainAt workQueueAt at hp ⊢
    rw [h]
    exact hp
  | _ => exact hp

/-- A module whose bytes read alike but for those of some keys. -/
theorem sameOutside_trans {p q : Nat → Prop} (h : SameOutside m m1 p) (hover : SameOver m m1) (h' : SameOutside m1 m2 q) :
    SameOutside m m2 fun k => p k ∨ q k := fun l hl hlog =>
  (h' l (fun hq => hl (.inr hq)) (hover.unlogged hlog)).trans (h l (fun hp => hl (.inl hp)) hlog)

theorem sameOutside_mono {p q : Nat → Prop} (h : SameOutside m m1 p) (hpq : ∀ k, p k → q k) : SameOutside m m1 q :=
  fun l hl hlog => h l (fun hp => hl (hpq _ hp)) hlog

end

end Sys2Proof.Machine
end

section
/-! PROOF. Lane stores (R177): O30. A store to plain memory puts its bytes at the keys of its place, and the lanes' stores are such
stores one after another.
-/

namespace Sys2Proof.Machine

/-! One store. -/

section
variable {m : Mach} {gid : Nat} {g : Group} {l : Located} {bs : List Byte}

theorem sameBytes_poolStored (m : Mach) (pa n : Nat) : SameBytes m (poolStored m pa n) := by
  unfold poolStored
  split
  · exact ⟨⟨rfl, rfl, rfl⟩, fun _ => rfl⟩
  · exact SameBytes.refl m

/-- A store to plain memory reaches no work queue and no ring header. -/
theorem afterStore_of_plainAt {l : Loc} {n : Nat} (h : plainAt m l n) (hn : 0 < n) : afterStore m gid g l = m := by
  cases l with
  | chip a =>
    have hq : workQueueAt m a = none := h
    unfold afterStore
    simp only [hq]
  | spad a =>
    have hr : ringAt m a = none := (h 0 hn).2.1
    unfold afterStore
    simp only [hr]
  | _ => rfl

theorem storeBytes_plain (h : plainAt m l.loc bs.length) (hn : 0 < bs.length) (hint : Nat) :
    OnlyMemory m (storeBytes m gid g l bs hint) g.core ∧ KeysStored m (storeBytes m gid g l bs hint) l.loc.key bs := by
  have hp := poked_writeBytes (fun i hi => bare_of_plainAt h hi)
  have hmem := onlyMemory_of_poked hp g.core
  unfold storeBytes
  rw [landAll_of_near (ne_ext_of_plainAt h)]
  dsimp only
  split
  next pa hloc =>
    rw [hloc] at hp hmem ⊢
    exact ⟨onlyMemory_trans (onlyMemory_trans hmem (onlyMemory_setL1 ..)) (onlyMemory_poolStored ..),
      hp.keysStored.of_sameBytes ((sameBytes_setCore ..).trans (sameBytes_poolStored ..))⟩
  next =>
    rw [afterStore_of_plainAt (plainAt_of_onlyMemory hmem h) hn]
    exact ⟨hmem, hp.keysStored⟩

end

/-! Lanes one after another. -/

/-- Accesses of lanes performed one after another, each giving a value. -/
def runLanes (step : Mach → LaneAccess → Mach × Nat) : List LaneAccess → Mach → Mach × List (LaneAccess × Nat)
  | [], m => (m, [])
  | a :: r, m => ((runLanes step r (step m a).1).1, (a, (step m a).2) :: (runLanes step r (step m a).1).2)

/-- The keys of a lane's access. -/
def LaneAccess.keys (a : LaneAccess) (size key : Nat) : Prop := ∃ k, k < size ∧ key = (a.loc.loc.plus k).key

section
variable {step : Mach → LaneAccess → Mach × Nat} {P : Mach → LaneAccess → Nat → Mach → Prop} {size core : Nat}

theorem map_fst_runLanes : ∀ (ls : List LaneAccess) (m : Mach), (runLanes step ls m).2.map Prod.fst = ls
  | [], _ => rfl
  | a :: r, _ => congrArg (a :: ·) (map_fst_runLanes r _)

/-- If each lane's access to plain memory does what P says, those of all lanes do so in turn, and leave every other byte. -/
theorem inTurn_runLanes (hstep : ∀ m a, a.CrossesFar → plainAt m a.loc.loc size →
      P m a (step m a).2 (step m a).1 ∧ OnlyMemory m (step m a).1 core ∧ SameOutside m (step m a).1 (a.keys size)) :
    ∀ (ls : List LaneAccess) (m : Mach), (∀ a ∈ ls, a.CrossesFar) → (∀ a ∈ ls, plainAt m a.loc.loc size) →
      InTurn P (runLanes step ls m).2 m (runLanes step ls m).1 ∧ OnlyMemory m (runLanes step ls m).1 core
        ∧ SameOutside m (runLanes step ls m).1 fun key => ∃ a ∈ ls, a.keys size key
  | [], m, _, _ => ⟨rfl, onlyMemory_refl m core, fun _ _ _ => rfl⟩
  | a :: r, m, hfar, hplain => by
    obtain ⟨hfa, hfr⟩ := List.forall_mem_cons.1 hfar
    obtain ⟨hpa, hpr⟩ := List.forall_mem_cons.1 hplain
    obtain ⟨hP, hmem, hout⟩ := hstep m a hfa hpa
    obtain ⟨hPs, hmems, houts⟩ := inTurn_runLanes hstep r (step m a).1 hfr fun b hb => plainAt_of_onlyMemory hmem (hpr b hb)
    refine ⟨⟨_, hP, hPs⟩, onlyMemory_trans hmem hmems, sameOutside_mono (sameOutside_trans hout (over_of_onlyMemory hmem) houts) ?_⟩
    rintro key (hk | ⟨b, hb, hk⟩)
    · exact ⟨a, .head r, hk⟩
    · exact ⟨b, .tail a hb, hk⟩

theorem inTurn_imp {Q : Mach → LaneAccess → Nat → Mach → Prop} (h : ∀ m a v m', P m a v m' → Q m a v m') :
    ∀ {ls : List (LaneAccess × Nat)} {m m' : Mach}, InTurn P ls m m' → InTurn Q ls m m'
  | [], _, _, hp => hp
  | _ :: _, _, _, ⟨m1, h1, hr⟩ => ⟨m1, h _ _ _ _ h1, inTurn_imp h hr⟩

/-- The frame from a module that differs in its counter of free values. -/
theorem sameOutside_of_free {m m' : Mach} {fr : Nat} {p : Nat → Prop} (h : SameOutside { m with free := fr } m' p) : SameOutside m m' p :=
  fun l hl hlog => (h l hl ((sameBytes_free m fr).sameOver.unlogged hlog)).trans ((sameBytes_free m fr).readByte_eq hlog)

/-- What is done in turn from a module is done so from one that differs in its counter of free values. -/
theorem inTurn_of_free {m m' : Mach} {fr : Nat} {ls : List (LaneAccess × Nat)} (hplain : ∀ a ∈ ls, plainAt m a.1.loc.loc size)
    (hfree : ∀ m fr a v m', plainAt m a.loc.loc size → P { m with free := fr } a v m' → P m a v m')
    (h : InTurn P ls { m with free := fr } m') : InTurn P ls m m' := by
  cases ls with
  | nil => exact h
  | cons x r =>
    obtain ⟨m1, h1, hr⟩ := h
    exact ⟨m1, hfree _ _ _ _ _ (hplain x (.head r)) h1, hr⟩

/-- The accesses of all lanes in some order, from a module that differs in its counter of free values. -/
theorem inTurn_permuted (hstep : ∀ m a, a.CrossesFar → plainAt m a.loc.loc size →
      P m a (step m a).2 (step m a).1 ∧ OnlyMemory m (step m a).1 core ∧ SameOutside m (step m a).1 (a.keys size))
    (hfree : ∀ m fr a v m', plainAt m a.loc.loc size → P { m with free := fr } a v m' → P m a v m')
    {m1 : Mach} {fr : Nat} {as_ order : List LaneAccess} (hfar : ∀ a ∈ as_, a.CrossesFar)
    (hplain : ∀ a ∈ as_, plainAt m1 a.loc.loc size) (hperm : order.Perm as_) :
    let r := runLanes step order { m1 with free := fr }
    InTurn P r.2 m1 r.1 ∧ OnlyMemory m1 r.1 core ∧ SameOutside m1 r.1 fun key => ∃ a ∈ as_, a.keys size key := by
  have hmem1 := onlyMemory_free m1 core fr
  have hplain' : ∀ a ∈ order, plainAt m1 a.loc.loc size := fun a ha => hplain a (hperm.mem_iff.1 ha)
  obtain ⟨hturn, hmem, hout⟩ := inTurn_runLanes hstep order { m1 with free := fr } (fun a ha => hfar a (hperm.mem_iff.1 ha))
    fun a ha => plainAt_of_onlyMemory hmem1 (hplain' a ha)
  refine ⟨inTurn_of_free (size := size) (fun b hb => ?_) hfree hturn, onlyMemory_trans hmem1 hmem, ?_⟩
  · refine hplain' b.1 ?_
    rw [← map_fst_runLanes (step := step) order { m1 with free := fr }]
    exact List.mem_map_of_mem hb
  · exact sameOutside_mono (sameOutside_of_free hout) fun key ⟨a, ha, hk⟩ => ⟨a, hperm.mem_iff.1 ha, hk⟩

end

/-! ST (R177). -/

section
variable {s : State} {gid size : Nat} {g : Group} {e : LiqEntry} {w : LaneWord} {x : LaneIn} {m : Mach}

theorem length_toBytes_eq (n v : Nat) : (toBytes n v).length = n := by rw [toBytes_eq_bytesOf, length_bytesOf]

theorem ended_of_near {a : LaneAccess} {g : Group} (h : a.loc.port = none) : a.ended g = false := by
  rw [LaneAccess.ended, h]
  cases g.fabric <;> rfl

theorem storeLane_of_plain {a : LaneAccess} (hfar : a.CrossesFar) (hp : plainAt m a.loc.loc size) (hint : Nat) :
    storeLane gid x size hint m a = storeBytes m gid x.g a.loc (toBytes size (x.dataOf size a.lane)) hint := by
  have hport := hfar (ne_ext_of_plainAt hp)
  unfold storeLane storePieces
  simp only [hport, Option.isSome_none, Bool.and_false, Bool.false_eq_true, if_false, List.foldl_cons, List.foldl_nil, ended_of_near hport,
    useLine_of_near (ne_ext_of_plainAt hp)]

/-- What ST does with the accesses of its lanes in their order. -/
def storeAll (gid : Nat) (x : LaneIn) (w : LaneWord) (m : Mach) (as_ : List LaneAccess) : Mach :=
  let m1 := as_.foldl (storeLane gid x (sizeBytes w.size) w.hint.toNat) m
  laneFinish m1 gid (regrp m1 gid x.g) x.e (.st w) w (x.g.chain.getD Chain.empty)

theorem exec_st (w : LaneWord) (s : State) : exec (.st w) s = laneMemory s (.st w) w (releases w) fun gid x =>
    withLanes s.m gid x (sizeBytes w.size) .write true (some (x.dataOf (sizeBytes w.size))) (storeAll gid x w) := rfl

/-- What one lane's store does. -/
def StoresLane (x : LaneIn) (size : Nat) (m : Mach) (a : LaneAccess) (_ : Nat) (m' : Mach) : Prop :=
  StoredAt m m' a.loc.loc (bytesOf size (x.dataOf size a.lane))

/-- From a module whose counter of free values differs, a lane's store does the same. -/
theorem StoresLane.of_free {m' : Mach} {a : LaneAccess} {v : Nat} (fr : Nat)
    (h : StoresLane x size { m with free := fr } a v m') : StoresLane x size m a v m' := by
  obtain ⟨hself, hout⟩ := h
  exact ⟨hself, sameOutside_of_free hout⟩

theorem storeLane_spec (hsize : 0 < size) (hint : Nat) (a : LaneAccess) (hfar : a.CrossesFar) (hp : plainAt m a.loc.loc size) :
    StoresLane x size m a 0 (storeLane gid x size hint m a) ∧ OnlyMemory m (storeLane gid x size hint m a) x.g.core
      ∧ SameOutside m (storeLane gid x size hint m a) (a.keys size) := by
  have hlen : (toBytes size (x.dataOf size a.lane)).length = size := length_toBytes_eq ..
  rw [storeLane_of_plain hfar hp]
  obtain ⟨hmem, hkeys⟩ := storeBytes_plain (gid := gid) (g := x.g) (l := a.loc) (bs := toBytes size (x.dataOf size a.lane))
    (by rwa [hlen]) (by rwa [hlen]) hint
  rw [toBytes_eq_bytesOf] at hkeys ⊢
  have hstored := hkeys.storedAt fun i hi => bare_of_plainAt hp (by rwa [length_bytesOf] at hi)
  refine ⟨hstored, by rwa [toBytes_eq_bytesOf] at hmem, ?_⟩
  obtain ⟨-, hout⟩ := hstored
  rwa [length_bytesOf] at hout

theorem foldl_storeLane (hint : Nat) : ∀ (ls : List LaneAccess) (m : Mach),
    runLanes (fun m a => (storeLane gid x size hint m a, 0)) ls m = (ls.foldl (storeLane gid x size hint) m, ls.map fun a => (a, 0))
  | [], _ => rfl
  | a :: r, m => by rw [runLanes, foldl_storeLane hint r]; rfl

/-- The stores of the lanes in turn, from a module that differs in its counter of free values. -/
theorem inTurn_storeLane {m1 : Mach} {fr : Nat} {as_ order : List LaneAccess} (hsize : 0 < size) (hint : Nat)
    (hfar : ∀ a ∈ as_, a.CrossesFar) (hplain : ∀ a ∈ as_, plainAt m1 a.loc.loc size) (hperm : order.Perm as_) :
    let m2 := order.foldl (storeLane gid x size hint) { m1 with free := fr }
    InTurn (StoresLane x size) (order.map fun a => (a, 0)) m1 m2 ∧ OnlyMemory m1 m2 x.g.core
      ∧ SameOutside m1 m2 fun key => ∃ a ∈ as_, a.keys size key := by
  have h := inTurn_permuted (P := StoresLane x size) (step := fun m a => (storeLane gid x size hint m a, 0)) (fr := fr)
    (fun m a => storeLane_spec hsize hint a) (fun m fr a v m' _ hs => hs.of_free fr) hfar hplain hperm
  rwa [foldl_storeLane] at h

end

end Sys2Proof.Machine

namespace Sys2Proof
open Machine

/-- Settles O30: each lane's check, its store and the order of the lanes are those of every lane memory instruction, and a
store to plain memory puts the lane's data at the keys of its place. -/
theorem laneStores : Obligations.LaneStores := by
  intro s gid g e w i hwf hiss hread x size
  obtain ⟨hhere, -⟩ := id hiss
  obtain ⟨-, hg⟩ := hhere
  refine ⟨fun hr hrel => (exec_st w s).trans (laneMemory_publishes hiss hread hr hrel), fun hr m1 as_ fs hcheck => ?_⟩
  have hexec : exec i s = .next { s with m := withLanes s.m gid x size .write true (some (x.dataOf size)) (storeAll gid x w) } :=
    (exec_st w s).trans (laneMemory_next hiss hread hr)
  refine ⟨fun hne => by rw [hexec, withLanes_faults hcheck hne]; rfl, ?_⟩
  rintro rfl
  obtain ⟨hlanes, hlook, hfar⟩ := lanes_checked hcheck
  have hg1 : m1.grp? gid = some g := by rw [grp?_of_lookedUpAll hlook]; exact hg
  rw [withLanes_passes hcheck] at hexec
  refine ⟨hlanes, hlook, fun hne => sendsLanes rfl hexec hg1 hfar hne, fun hplain => ?_⟩
  obtain ⟨⟨fr, hfr⟩, hperm, hkeep⟩ := laneOrder_spec m1 size as_
  obtain ⟨hturn, hmem, hout⟩ := inTurn_storeLane (gid := gid) (x := x) (fr := fr) (sizeBytes_pos w.size) w.hint.toNat hfar hplain hperm
  rw [portsOf_of_near fun a ha => hfar a ha (ne_ext_of_plainAt (hplain a ha)), overFabric_nil, hfr] at hexec
  refine ⟨_, _, hperm, hkeep, hturn, hmem, hout, laneLeavesIn_of_same ?_⟩
  rw [hexec, storeAll, regrp, (grp?_of_onlyMemory hmem).trans hg1]
  rfl

end Sys2Proof
end

section
/-! PROOF. Lane atomics (R178 to R180): O31. An atomic on plain memory reads its place and may put a new value there; the lanes' atomics
are such steps one after another, and each lane's result is the old value that its own step found.
-/

namespace Sys2Proof.Machine

/-! One atomic. -/

section
variable {m : Mach} {gid size : Nat} {g : Group} {l : Located}

/-- What an atomic does to the L1 of its core: of device memory it drops the copies. -/
def dropCopies (m : Mach) (core : Nat) (l : Loc) (size : Nat) : Mach :=
  match l with
  | .dev pa => m.setCore core { m.core core with l1 := l1Drop (m.core core).l1 pa size }
  | _ => m

/-- What an atomic's store does besides putting its bytes. -/
def afterPut (m : Mach) (gid : Nat) (g : Group) (l : Loc) (size : Nat) : Mach :=
  match l with
  | .dev pa => poolStored m pa size
  | _ => afterStore m gid g l

theorem atomicBytes_of_near (h : ∀ port far, l.loc ≠ .ext port far) (f : Nat → Option Nat) :
    atomicBytes m gid g l size f = ((match f (readNat m l.loc size) with
      | none => dropCopies m g.core l.loc size
      | some new => afterPut (writeBytes (dropCopies m g.core l.loc size) l.loc (toBytes size new)) gid g l.loc size), readNat m l.loc size) := by
  unfold atomicBytes
  rw [landAll_of_near h]
  dsimp only
  generalize f (readNat m l.loc size) = new
  cases new <;> cases hl : l.loc <;> rfl

theorem dropCopies_spec (m : Mach) (core : Nat) (l : Loc) (size : Nat) :
    SameBytes m (dropCopies m core l size) ∧ OnlyMemory m (dropCopies m core l size) core := by
  cases l with
  | dev pa => exact ⟨sameBytes_setCore .., onlyMemory_setL1 ..⟩
  | spad | chip | arm | ext => exact ⟨SameBytes.refl m, onlyMemory_refl m core⟩

theorem afterPut_spec {l : Loc} (h : plainAt m l size) (hsize : 0 < size) (core : Nat) :
    SameBytes m (afterPut m gid g l size) ∧ OnlyMemory m (afterPut m gid g l size) core := by
  cases l with
  | dev pa => exact ⟨sameBytes_poolStored .., onlyMemory_poolStored ..⟩
  | spad | chip | arm | ext =>
    unfold afterPut
    dsimp only
    rw [afterStore_of_plainAt h hsize]
    exact ⟨SameBytes.refl m, onlyMemory_refl m core⟩

/-- What an access that found the value old at its place leaves there: what new says, or its bytes as they were. -/
def Replaced (m m' : Mach) (l : Loc) (size : Nat) (new : Option Nat) : Prop :=
  match new with
  | some v => StoredAt m m' l (bytesOf size v)
  | none => SameOutside m m' fun _ => False

theorem replaced_none {m m' : Mach} {l : Loc} : Replaced m m' l size none ↔ SameOutside m m' fun _ => False := Iff.rfl

theorem replaced_some {m m' : Mach} {l : Loc} {v : Nat} : Replaced m m' l size (some v) ↔ StoredAt m m' l (bytesOf size v) := Iff.rfl

theorem atomicBytes_plain (h : plainAt m l.loc size) (hsize : 0 < size) (f : Nat → Option Nat) :
    (atomicBytes m gid g l size f).2 = numberOf ((List.range size).map fun k => readByte m (l.loc.plus k))
      ∧ OnlyMemory m (atomicBytes m gid g l size f).1 g.core
      ∧ Replaced m (atomicBytes m gid g l size f).1 l.loc size (f (atomicBytes m gid g l size f).2) := by
  rw [atomicBytes_of_near (ne_ext_of_plainAt h)]
  dsimp only
  obtain ⟨hbytes, hmem⟩ := dropCopies_spec m g.core l.loc size
  refine ⟨readNat_eq_numberOf .., ?_⟩
  generalize f (readNat m l.loc size) = new
  cases new with
  | none => exact ⟨hmem, replaced_none.2 (hbytes.sameOutside _)⟩
  | some v =>
    have hplain := plainAt_of_onlyMemory hmem h
    dsimp only
    rw [toBytes_eq_bytesOf, replaced_some]
    have hbare : ∀ i, i < (bytesOf size v).length → i < size := fun i hi => by rwa [length_bytesOf] at hi
    have hp := poked_writeBytes (bs := bytesOf size v) fun i hi => bare_of_plainAt hplain (hbare i hi)
    have hput := onlyMemory_of_poked hp g.core
    obtain ⟨hbytes2, hmem2⟩ := afterPut_spec (gid := gid) (g := g) (plainAt_of_onlyMemory hput hplain) hsize g.core
    exact ⟨onlyMemory_trans hmem (onlyMemory_trans hput hmem2),
      ((hp.keysStored.of_sameBytes hbytes2).since hbytes).storedAt fun i hi => bare_of_plainAt h (hbare i hi)⟩

theorem Replaced.sameOutside {m m' : Mach} {a : LaneAccess} {new : Option Nat} (h : Replaced m m' a.loc.loc size new) :
    SameOutside m m' (a.keys size) := by
  cases new with
  | none => exact sameOutside_mono (replaced_none.1 h) fun _ hn => hn.elim
  | some v =>
    obtain ⟨-, hout⟩ := replaced_some.1 h
    rwa [length_bytesOf] at hout

theorem Replaced.of_free {m m' : Mach} {l : Loc} {fr : Nat} {new : Option Nat} (h : Replaced { m with free := fr } m' l size new) :
    Replaced m m' l size new := by
  cases new with
  | none => exact replaced_none.2 (sameOutside_of_free (replaced_none.1 h))
  | some v =>
    obtain ⟨hself, hout⟩ := replaced_some.1 h
    exact ⟨hself, sameOutside_of_free hout⟩

end

/-! The atomics of the lanes. -/

section
variable {gid size : Nat} {x : LaneIn} {f : Nat → Nat → Option Nat}

/-- One lane's atomic and the value that it gives. -/
def atomicStep (gid : Nat) (x : LaneIn) (size : Nat) (f : Nat → Nat → Option Nat) (m : Mach) (a : LaneAccess) : Mach × Nat :=
  let r := atomicBytes (useLine m a.loc.loc size) gid x.g a.loc size (f a.lane)
  if a.ended x.g then ((if m.pick 2 = 0 then m.bump else r.1.bump), 2 ^ (8 * size) - 1) else r

theorem atomicLane_eq (mv : Mach × List (Nat × Nat)) (a : LaneAccess) : atomicLane gid x size f mv a =
    ((atomicStep gid x size f mv.1 a).1, mv.2 ++ [(a.lane, (atomicStep gid x size f mv.1 a).2)]) := by
  unfold atomicLane atomicStep
  dsimp only
  split <;> rfl

/-- The results by lane of accesses performed with the values they gave. -/
def laneValues (order : List (LaneAccess × Nat)) : List (Nat × Nat) := order.map fun p => (p.1.lane, p.2)

theorem laneValues_fst (order : List (LaneAccess × Nat)) : (laneValues order).map Prod.fst = (order.map Prod.fst).map LaneAccess.lane := by
  rw [laneValues, List.map_map, List.map_map]
  rfl

theorem foldl_atomicLane : ∀ (ls : List LaneAccess) (mv : Mach × List (Nat × Nat)), ls.foldl (atomicLane gid x size f) mv =
    ((runLanes (atomicStep gid x size f) ls mv.1).1, mv.2 ++ laneValues (runLanes (atomicStep gid x size f) ls mv.1).2)
  | [], mv => by simp [runLanes, laneValues]
  | a :: r, mv => by
    rw [List.foldl_cons, foldl_atomicLane r, atomicLane_eq]
    simp [runLanes, laneValues]

/-- What one lane's atomic does: it finds the old value, and stores what f makes of it. -/
def AtomicDone (size : Nat) (f : Nat → Nat → Option Nat) (m : Mach) (a : LaneAccess) (old : Nat) (m' : Mach) : Prop :=
  old = numberOf ((List.range size).map fun k => readByte m (a.loc.loc.plus k)) ∧ Replaced m m' a.loc.loc size (f a.lane old)

theorem unlogged_of_plainAt {m : Mach} {l : Loc} (h : plainAt m l size) {k : Nat} (hk : k < size) : unlogged m (l.plus k) :=
  (bare_of_plainAt h hk).unlogged

theorem AtomicDone.of_free {m m' : Mach} {fr old : Nat} {a : LaneAccess} (hp : plainAt m a.loc.loc size)
    (h : AtomicDone size f { m with free := fr } a old m') : AtomicDone size f m a old m' := by
  obtain ⟨hold, hnew⟩ := h
  refine ⟨?_, hnew.of_free⟩
  rw [hold]
  refine congrArg numberOf (List.map_congr_left fun k hk => ?_)
  exact (sameBytes_free m fr).readByte_eq (unlogged_of_plainAt hp (List.mem_range.1 hk))

theorem atomicStep_spec (hsize : 0 < size) (m : Mach) (a : LaneAccess) (hfar : a.CrossesFar) (hp : plainAt m a.loc.loc size) :
    AtomicDone size f m a (atomicStep gid x size f m a).2 (atomicStep gid x size f m a).1
      ∧ OnlyMemory m (atomicStep gid x size f m a).1 x.g.core ∧ SameOutside m (atomicStep gid x size f m a).1 (a.keys size) := by
  have hstep : atomicStep gid x size f m a = atomicBytes m gid x.g a.loc size (f a.lane) := by
    unfold atomicStep
    rw [useLine_of_near (ne_ext_of_plainAt hp), ended_of_near (hfar (ne_ext_of_plainAt hp))]
    rfl
  obtain ⟨hold, hmem, hnew⟩ := atomicBytes_plain (gid := gid) (g := x.g) hp hsize (f a.lane)
  rw [hstep]
  exact ⟨⟨hold, hnew⟩, hmem, hnew.sameOutside⟩

/-- The atomics of the lanes in turn, from a module that differs in its counter of free values. -/
theorem inTurn_atomics {m1 : Mach} {fr : Nat} {as_ order : List LaneAccess} (hsize : 0 < size) (hfar : ∀ a ∈ as_, a.CrossesFar)
    (hplain : ∀ a ∈ as_, plainAt m1 a.loc.loc size) (hperm : order.Perm as_) :
    let r := runLanes (atomicStep gid x size f) order { m1 with free := fr }
    InTurn (AtomicDone size f) r.2 m1 r.1 ∧ OnlyMemory m1 r.1 x.g.core ∧ SameOutside m1 r.1 fun key => ∃ a ∈ as_, a.keys size key :=
  inTurn_permuted (atomicStep_spec hsize) (fun _ _ _ _ _ hp h => h.of_free hp) hfar hplain hperm

end

/-! Values written to the lanes (R37, R38). -/

section
variable {s : State} {i : Instr} {g : Group} {e : LiqEntry} {w : LaneWord} {ls : List Nat}

/-- The value that a list of results gives a lane. -/
def valueOf (vs : List (Nat × Nat)) (l : Nat) : Nat := (aget vs l).getD 0

theorem valueOf_of_mem {l v : Nat} : ∀ {vs : List (Nat × Nat)}, (vs.map Prod.fst).Nodup → (l, v) ∈ vs → valueOf vs l = v
  | (k, u) :: vs, hnd, h => by
    rw [List.map_cons, List.nodup_cons] at hnd
    unfold valueOf
    rcases List.mem_cons.1 h with heq | hmem
    · cases heq
      rw [aget, if_pos rfl]
      rfl
    · have hne : k ≠ l := (ne_of_mem_of_not_mem (List.mem_map_of_mem (f := Prod.fst) hmem) hnd.1).symm
      rw [aget, if_neg hne]
      exact valueOf_of_mem hnd.2 hmem

theorem eq_map_valueOf {vs : List (Nat × Nat)} (hnd : (vs.map Prod.fst).Nodup) :
    vs = (vs.map Prod.fst).map fun l => (l, valueOf vs l) := by
  rw [List.map_map]
  conv_lhs => rw [← List.map_id vs]
  exact List.map_congr_left fun p hp => Prod.ext rfl (valueOf_of_mem hnd hp).symm

/-- Results of the lanes of E written in any order of the lanes. -/
theorem wrote_of_lanes (n : Nat) (f : Nat → Nat) (hls : ∀ l, l ∈ ls ↔ effective g e w l) (hwidth : g.width ≤ 96) :
    Wrote g ((laneIn s.m g e i w).write false n (ls.map fun l => (l, f l))) e w n fun l => (f l, .clear) := by
  have hlane : ∀ l ∈ ls, l < 128 := fun l hl => ((hls l).1 hl).1.trans_le (hwidth.trans (by decide))
  obtain ⟨hsame, hv, hchk, hnone⟩ := writes_fold (laneIn s.m g e i w) false w.dst.toNat n (fun l => (f l, .clear)) ls g hlane
  have hwrite : (laneIn s.m g e i w).write false n (ls.map fun l => (l, f l)) = if w.dst.toNat < 256 then
      (ls.map fun l => (l, f l)).foldl (fun g' lv => (laneIn s.m g e i w).writeReg false w.dst.toNat lv.1 lv.2 n g') g else g := rfl
  rw [hwrite]
  refine ⟨?_, fun r l hl hd he hr1 hr2 => ?_, fun r l hl hn => ?_, .clear, ?_, by simp [FFlags.clear], by simp [FFlags.clear], by simp [FFlags.clear]⟩
  · split
    · unfold SameButV at hsame
      rw [hsame]
    · rfl
  · rw [if_pos hd]
    exact ⟨(hv r l hl).trans (if_pos ⟨(hls l).2 he, hr1, hr2⟩), fun _ => hnone rfl r l ((hls l).2 he) hr1 hr2⟩
  · by_cases hd : w.dst.toNat < 256
    · have hout : ¬ (l ∈ ls ∧ w.dst.toNat ≤ r ∧ r < w.dst.toNat + n) := fun ⟨hin, hr⟩ => hn ⟨hd, (hls l).1 hin, hr⟩
      rw [if_pos hd]
      exact ⟨(hv r l hl).trans (if_neg hout), hchk r l hl hout⟩
    · rw [if_neg hd]
      exact ⟨rfl, rfl⟩
  · have hclear : g.fpstat ||| FFlags.clear.word = g.fpstat := BitVec.or_zero
    rw [hclear]
    split
    · unfold SameButV at hsame
      rw [hsame]
    · rfl

theorem capture_latches_of_mem (f : Nat → Nat) (c : Chain) (hcap : 4 ≤ w.cap.toNat) {l : Nat} (hl : l ∈ ls) :
    aget ((laneIn s.m g e i w).capture (ls.map fun l => (l, f l)) c).latches ((w.cap.toNat - 4) * 128 + l) = some (BitVec.ofNat 64 (f l)) := by
  have hx : ¬ (laneIn s.m g e i w).w.cap.toNat < 4 := Nat.not_lt.2 hcap
  unfold LaneIn.capture
  rw [if_neg hx]
  exact (latches_fold (w.cap.toNat - 4) (fun l => (f l, .clear)) ls c.latches).1 l hl

end

/-! The completion of an instruction that returns values (R169). -/

section
variable {m m1 m2 : Mach} {g : Group} {core : Nat} {w : LaneWord}

theorem onlyMemory_of_onlyL1 (h : OnlyL1 m m1 core) : OnlyMemory m m1 core := by
  obtain ⟨he, hne, hc⟩ := h
  refine ⟨?_, hne, hc⟩
  rw [he]

/-- An acquire changes the L1 of its core and what the group sees of its team's bindings. -/
theorem acquireAt_spec (m : Mach) (g : Group) (code : Nat) :
    OnlyL1 m { acquireAt m g (Scope.ofCode code) with teams := m.teams } g.core
      ∧ (acquireAt m g (Scope.ofCode code)).teams = (if code ≠ 0 then boundSeen m g else m).teams := by
  have hseen : OnlyL1 m { boundSeen m g with teams := m.teams } g.core := by
    unfold boundSeen
    split
    · split <;> exact OnlyL1.refl m g.core
    · exact OnlyL1.refl m g.core
  have hacq : OnlyL1 m { acquired m g with teams := m.teams } g.core :=
    OnlyL1.trans hseen (OnlyL1.setL1 { boundSeen m g with teams := m.teams } g.core [])
  rcases Nat.lt_or_ge code 2 with hlt | hge
  · interval_cases code
    · exact ⟨OnlyL1.refl m g.core, rfl⟩
    · have hteam : Scope.ofCode 1 = .team := rfl
      rw [hteam, acquireAt_team, if_pos Nat.one_ne_zero]
      split
      · exact ⟨hseen, rfl⟩
      · exact ⟨hacq, rfl⟩
  · rw [acquireAt_ofCode_wide hge, if_pos (by omega)]
    exact ⟨hacq, rfl⟩

/-- The module after what an instruction's order acquires. -/
def afterOrder (m : Mach) (g : Group) (w : LaneWord) : Mach := if acquires w then acquireAt m g (Scope.ofCode w.scope) else m

theorem boundSeen_teams_congr (h : m2.teams = m1.teams) (g : Group) : (boundSeen m2 g).teams = (boundSeen m1 g).teams := by
  unfold boundSeen
  rw [h]
  split
  · split
    · exact h
    · exact congrArg (aput · g.team _) h
  · exact h

theorem afterOrder_spec (h : OnlyMemory m1 m2 g.core) (w : LaneWord) :
    OnlyL1 m2 { afterOrder m2 g w with teams := m2.teams } g.core
      ∧ OnlyMemory m1 { afterOrder m2 g w with teams := m1.teams } g.core
      ∧ (afterOrder m2 g w).teams = (if acquires w = true ∧ w.scope ≠ 0 then boundSeen m1 g else m1).teams := by
  have hteams : m2.teams = m1.teams := (over_of_onlyMemory h).teams
  have hl1 : OnlyL1 m2 { afterOrder m2 g w with teams := m2.teams } g.core := by
    unfold afterOrder
    split
    · exact (acquireAt_spec m2 g w.scope).1
    · exact OnlyL1.refl m2 g.core
  refine ⟨hl1, ?_, ?_⟩
  · rw [← hteams]
    exact onlyMemory_trans h (onlyMemory_of_onlyL1 hl1)
  · unfold afterOrder
    by_cases hacq : acquires w = true
    · rw [if_pos hacq, (acquireAt_spec m2 g w.scope).2]
      by_cases hscope : w.scope = 0
      · rw [if_neg (not_not.2 hscope), if_neg fun hand => hand.2 hscope, hteams]
      · rw [if_pos hscope, if_pos ⟨hacq, hscope⟩, boundSeen_teams_congr hteams]
    · rw [if_neg hacq, if_neg fun hand => hacq hand.1, hteams]

variable {s : State} {i : Instr} {gid : Nat} {e : LiqEntry}

/-- An instruction that delivers a value to each lane of E ends with the values written and captured. -/
theorem laneDeliver_leaves {n : Nat} {vs : List (Nat × Nat)} (hwidth : g.width ≤ 96)
    (hexec : exec i s = .next { s with m := laneDeliver m gid (laneIn s.m g e i w) i w n vs })
    (hnd : (vs.map Prod.fst).Nodup) (hls : ∀ l, l ∈ vs.map Prod.fst ↔ effective g e w l) :
    ∃ g1, Wrote g g1 e w n (fun l => (valueOf vs l, .clear))
      ∧ LaneLeavesIn i w s gid (afterOrder m g w) g e g1 fun g' => Captured g g' e w fun l => (valueOf vs l, .clear) := by
  have hwrote := wrote_of_lanes (s := s) (i := i) n (valueOf vs) hls hwidth
  rw [← eq_map_valueOf hnd] at hwrote
  refine ⟨_, hwrote, laneLeavesIn_laneFinish (c := (laneIn s.m g e i w).capture vs (g.chain.getD Chain.empty)) hexec hwrote.1
    (capture_issued ..) (capture_popped ..) fun g' hchain hstick hcap => ?_⟩
  obtain ⟨c, hc, hlatches⟩ := hchain hstick
  refine ⟨c, hc, fun l hl => ?_⟩
  rw [hlatches, eq_map_valueOf hnd]
  refine (capture_latches_of_mem _ _ hcap ?_).trans ?_
  · exact (hls l).2 hl
  · rw [← eq_map_valueOf hnd]

end

/-! The atomics (R178 to R180). -/

section
variable {s : State} {i : Instr} {w : LaneWord} {f : LaneIn → Nat → Nat → Option Nat}

/-- What an atomic does with the accesses of its lanes in their order. -/
def atomicAll (gid : Nat) (x : LaneIn) (i : Instr) (w : LaneWord) (f : LaneIn → Nat → Nat → Option Nat) (m : Mach)
    (as_ : List LaneAccess) : Mach :=
  let r := as_.foldl (atomicLane gid x (sizeBytes w.size) (f x)) (m, [])
  laneDeliver r.1 gid x i w w.t.regs r.2

theorem op_of_wf_atom (h : (Instr.atom w).wf = true) : w.d.toNat ≤ 6 := by
  have hlegal : ((Shape.mem (.regs w.t.regs) (.typed w.t) (.number 6)
      (w.isOf tyIntW && w.scope < 5 && w.size = 1 + w.t.regs) true true).legal false w && true) = true := h
  rw [Bool.and_true] at hlegal
  unfold Shape.legal at hlegal
  simp only [Bool.and_eq_true] at hlegal
  obtain ⟨⟨⟨⟨⟨⟨⟨⟨⟨-, hd⟩, -⟩, -⟩, -⟩, -⟩, -⟩, -⟩, -⟩, -⟩ := hlegal
  simpa [Shape.mem, SrcKind.accepts] using hd

theorem widens_iff : (releases w || w.scope != 0) = true ↔ releases w = true ∨ w.scope ≠ 0 := by simp

theorem nodup_lanes (x : LaneIn) : x.lanes.Nodup := List.nodup_range.filter _

end

section
variable (t : Ty)

/-- The values of FATOM and RED are computed element by element. -/
theorem fatomNew_eq (op old a : Nat) : fatomNew t op old a = perElem t fun k =>
    (if op = 0 then fAdd t.fmt .rne false false (elem t.ew old k) (elem t.ew a k)
      else fMinMax t.fmt (decide (op ≠ 1)) (elem t.ew old k) (elem t.ew a k)).1 := by
  unfold fatomNew perElem
  match op with
  | 0 => rfl
  | 1 => rfl
  | _ + 2 => rfl

theorem joinElems_lt (w : Nat) : ∀ l : List Nat, joinElems w l < 2 ^ (w * l.length)
  | [] => Nat.one_pos
  | e :: r => by
    have he : e % 2 ^ w < 2 ^ w := Nat.mod_lt _ (Nat.two_pow_pos w)
    have hr := joinElems_lt w r
    rw [joinElems, List.length_cons, Nat.mul_succ, Nat.pow_add, Nat.mul_comm (2 ^ (w * r.length))]
    calc e % 2 ^ w + 2 ^ w * joinElems w r < 2 ^ w + 2 ^ w * joinElems w r := Nat.add_lt_add_right he _
      _ = 2 ^ w * (joinElems w r + 1) := by rw [Nat.mul_succ, Nat.add_comm]
      _ ≤ 2 ^ w * 2 ^ (w * r.length) := Nat.mul_le_mul_left _ hr

theorem perElem_lt (f : Nat → Nat) : perElem t f < 2 ^ t.bits := by
  have hbits : t.ew * t.count ≤ t.bits := by cases t <;> decide
  have hlt := joinElems_lt t.ew ((List.range t.count).map f)
  rw [List.length_map, List.length_range] at hlt
  exact hlt.trans_le (Nat.pow_le_pow_right Nat.two_pos hbits)

/-- The values of ATOM, of the operations that its encoding admits. -/
theorem atomNew_eq {op : Nat} (hop : op ≤ 6) (old a : Nat) : atomNew t op old a =
    if op = 0 then old + a else if op = 1 then old &&& a else if op = 2 then old ||| a else if op = 3 then old ^^^ a
    else if op = 6 then a else if op = 4 then (if t.read a < t.read old then a else old)
    else (if t.read old < t.read a then a else old) := by
  interval_cases op <;> rfl

end

end Sys2Proof.Machine

namespace Sys2Proof
open Machine

/-- Settles O31: the checks and the order of the lanes are those of every lane memory instruction; an atomic on plain memory reads
its place and stores what its function makes of the old value, and the lanes' results are the old values. -/
theorem laneAtomics : Obligations.LaneAtomics := by
  intro s gid g e w t op applies
  have atomic {i : Instr} {f : LaneIn → Nat → Nat → Option Nat} {new : LaneIn → Nat → Nat → Option Nat → Prop}
      (hi : exec i s = laneAtomic s i w f) (hnew : i.wf = true → ∀ x l old, new x l old (f x l old)) : applies i new := by
    intro hwf hiss hread x size wide
    obtain ⟨hhere, -, -, -, hwidth⟩ := id hiss
    obtain ⟨-, hg⟩ := hhere
    refine ⟨fun hr hwide => hi.trans (laneMemory_publishes hiss hread hr (widens_iff.2 hwide)), fun hr m1 as_ fs hcheck => ?_⟩
    have hexec : exec i s = .next { s with m := withLanes s.m gid x size .atomic false none (atomicAll gid x i w f) } :=
      hi.trans (laneMemory_next hiss hread (hr.imp_right fun hn => eq_false_of_ne_true (mt widens_iff.1 hn)))
    refine ⟨fun hne => by rw [hexec, withLanes_faults hcheck hne]; rfl, ?_⟩
    rintro rfl
    obtain ⟨hlanes, hlook, hfar⟩ := lanes_checked hcheck
    have hg1 : m1.grp? gid = some g := by rw [grp?_of_lookedUpAll hlook]; exact hg
    rw [withLanes_passes hcheck] at hexec
    refine ⟨hlanes, hlook, fun hne => sendsLanes rfl hexec hg1 hfar hne, fun hplain => ?_⟩
    obtain ⟨⟨fr, hfr⟩, hperm, hkeep⟩ := laneOrder_spec m1 size as_
    rw [portsOf_of_near fun a ha => hfar a ha (ne_ext_of_plainAt (hplain a ha)), overFabric_nil, hfr, atomicAll, foldl_atomicLane,
      List.nil_append] at hexec
    obtain ⟨hturn, hmem, hout⟩ := inTurn_atomics (gid := gid) (x := x) (f := f x) (fr := fr) (sizeBytes_pos w.size) hfar hplain hperm
    have hfst := map_fst_runLanes (step := atomicStep gid x size (f x)) (laneOrder m1 size as_).2 { m1 with free := fr }
    generalize runLanes (atomicStep gid x size (f x)) (laneOrder m1 size as_).2 { m1 with free := fr } = r at *
    obtain ⟨m2, order⟩ := r
    have horder : (order.map Prod.fst).Perm as_ := by rw [hfst]; exact hperm
    have hvs : ((laneValues order).map Prod.fst).Perm x.lanes := by
      rw [← hlanes, laneValues_fst]
      exact horder.map _
    have hnd : ((laneValues order).map Prod.fst).Nodup := hvs.nodup_iff.2 (nodup_lanes x)
    obtain ⟨hl1, hmem3, hteams⟩ := afterOrder_spec hmem w
    obtain ⟨g1, hwrote, hleaves⟩ := laneDeliver_leaves hwidth hexec hnd fun l => hvs.mem_iff.trans (mem_lanes s g e i w l)
    refine ⟨order, m2, _, _, g1, horder, fun hno => hfst.trans (hkeep hno), inTurn_imp (fun m a old m' hdone => ?_) hturn,
      fun a old hmem => ?_, hout, hl1, hmem3, hteams, hwrote, hleaves⟩
    · exact ⟨hdone.1, _, hnew hwf x a.lane old, hdone.2⟩
    · rw [valueOf_of_mem hnd (List.mem_map_of_mem (f := fun p : LaneAccess × Nat => (p.1.lane, p.2)) hmem)]
  have elements (op' : Nat) (old a : Nat) : ∃ v, some (fatomNew t op' old a) = some v ∧ v < 2 ^ t.bits ∧ ∀ k, k < t.count →
      elem t.ew v k = (if op' = 0 then fAdd t.fmt .rne false false (elem t.ew old k) (elem t.ew a k)
        else fMinMax t.fmt (decide (op' ≠ 1)) (elem t.ew old k) (elem t.ew a k)).1 % 2 ^ t.ew := by
    rw [fatomNew_eq]
    exact ⟨_, rfl, perElem_lt .., fun k hk => elem_perElem t _ hk⟩
  have hatom : (Instr.atom w).wf = true → op ≤ 6 := op_of_wf_atom
  clear_value applies
  refine ⟨atomic (f := fun x l old => some (atomNew w.t w.d.toNat old (x.c w.t l) % 2 ^ w.t.bits)) rfl fun hwf x l old => ?_,
    atomic (f := fun x l old => if old = x.c w.t l then some (x.d w.t l) else none) rfl fun _ x l old => rfl, ?_⟩
  · rw [atomNew_eq w.t (hatom hwf)]
  · intro i hi
    rcases List.mem_cons.1 hi with rfl | hi
    · exact atomic (f := fun x l old => some (fatomNew w.t w.d.toNat old (x.c w.t l))) rfl fun _ x l old => elements op old (x.c t l)
    · cases List.mem_singleton.1 hi
      exact atomic (f := fun x l old => some (fatomNew w.t w.d.toNat old (x.c w.t l))) rfl fun _ x l old => elements op old (x.c t l)

end Sys2Proof
end

section
/-! PROOF. Prefetch, discard and posted peer stores (R182 to R184): O32. A prefetch fills the L1 at most; a discard declares ranges of
keys indeterminate; a posted store is listed as outstanding, and what lands of any posted store is fabric memory's.
-/

namespace Sys2Proof.Machine

/-! PREF (R182). -/

section
variable {m : Mach} {core : Nat}

theorem OnlyL1.foldl {β : Type} {f : Mach → β → Mach} (hf : ∀ m b, OnlyL1 m (f m b) core) (l : List β) (m : Mach) :
    OnlyL1 m (l.foldl f m) core := by
  induction l generalizing m with
  | nil => exact OnlyL1.refl m core
  | cons b l ih => exact OnlyL1.trans (hf m b) (ih _)

theorem onlyL1_prefetchLane (x : LaneIn) (m : Mach) (l : Nat) : OnlyL1 m (prefetchLane x m l) x.g.core := by
  unfold prefetchLane
  dsimp only
  split
  · exact OnlyL1.refl m _
  · split
    · exact OnlyL1.refl m _
    · split
      · exact OnlyL1.refl m _
      · exact OnlyL1.bump (OnlyL1.setL1 m x.g.core _)

theorem exec_pref (w : LaneWord) (s : State) : exec (.pref w) s = laneMemory s (.pref w) w false fun gid x =>
    laneFinish (x.lanes.foldl (prefetchLane x) s.m) gid x.g x.e (.pref w) w (x.g.chain.getD Chain.empty) := rfl

end

/-! DISCARD (R183). -/

section
variable {m m1 : Mach} {g : Group} {lane : Nat} {k : AKind} {arm : Bool}

/-- Where every piece of a range is located, the addresses of the pieces have been looked up in turn. -/
theorem locatePieces_ok {m0 : Mach} : ∀ {ps : List (Nat × Nat)} {m m1 : Mach} {ls : List (Located × Nat)},
    m.kerns = m0.kerns → m.teams = m0.teams → locatePieces g lane k arm ps m = .ok (m1, ls) →
    LookedUpAll g.core g.ctx (ps.map fun p => translatedAt m0 g lane p.1) m m1
  | [], _, _, _, _, _, h => by cases h; rfl
  | (a, n) :: r, m, m1, ls, hk, ht, h => by
    rw [locatePieces] at h
    split at h
    · cases h
    next l hl =>
      obtain ⟨hlook, -⟩ := locate_ok hl
      obtain ⟨hframe, -⟩ := id hlook
      split at h
      · cases h
      next m2 ls2 hr =>
        cases h
        refine ⟨l.m, ?_, locatePieces_ok (by rw [hframe]; exact hk) (by rw [hframe]; exact ht) hr⟩
        dsimp only
        rw [← translatedAt_congr (g := g) hk ht]
        exact hlook

/-- Where no lane's range fails, the addresses of all pieces have been looked up in turn. -/
theorem discardLanes_ok {x : LaneIn} {m0 : Mach} : ∀ {ls : List Nat} {m m1 : Mach} {ps : List (Located × Nat)},
    m.kerns = m0.kerns → m.teams = m0.teams → discardLanes x ls m = (m1, ps, []) →
    LookedUpAll x.g.core x.g.ctx
      (ls.flatMap fun l => (rangePieces (x.ea l) (x.raw 2 x.w.c l).toNat).map fun p => translatedAt m0 x.g l p.1) m m1
  | [], _, _, _, _, _, h => by cases h; rfl
  | l :: r, m, m1, ps, hk, ht, h => by
    rw [discardLanes] at h
    split at h
    · cases h
    next mid ps1 hl =>
      have hrange : LookedUpAll x.g.core x.g.ctx
          ((rangePieces (x.ea l) (x.raw 2 x.w.c l).toNat).map fun p => translatedAt m0 x.g l p.1) m mid := by
        unfold discardLane at hl
        dsimp only at hl
        split at hl
        · cases hl
        · split at hl
          · cases hl
          next hok =>
            cases hl
            exact locatePieces_ok hk ht hok
      have hframe := lookedUpAll_frame hrange
      generalize hr : discardLanes x r mid = rest at h
      obtain ⟨m2, ps2, fs2⟩ := rest
      cases h
      rw [List.flatMap_cons]
      exact lookedUpAll_append hrange (discardLanes_ok (by rw [hframe]; exact hk) (by rw [hframe]; exact ht) hr)

/-- What DISCARD does. -/
def discardAll (m : Mach) (w : LaneWord) (gid : Nat) (x : LaneIn) : Mach :=
  let (m1, ps, fs) := discardLanes x x.lanes m
  if !fs.isEmpty then laneFaults m1 gid x.g x.e fs
  else
    laneFinish (ps.foldl (discardPiece gid x.g.core) m1) gid x.g x.e (.discard w) w (x.g.chain.getD Chain.empty)

theorem exec_discard (w : LaneWord) (s : State) : exec (.discard w) s = laneMemory s (.discard w) w false (discardAll s.m w) := rfl

section
variable {w : LaneWord} {gid : Nat} {x : LaneIn} {ps : List (Located × Nat)} {fs : List LaneFault}

theorem discardAll_faults (h : discardLanes x x.lanes m = (m1, ps, fs)) (hne : fs ≠ []) :
    discardAll m w gid x = laneFaults m1 gid x.g x.e fs := by
  unfold discardAll
  rw [h]
  exact if_pos (by simpa using hne)

theorem discardAll_passes (h : discardLanes x x.lanes m = (m1, ps, [])) : discardAll m w gid x =
    laneFinish (ps.foldl (discardPiece gid x.g.core) m1) gid x.g x.e (.discard w) w (x.g.chain.getD Chain.empty) := by
  unfold discardAll
  rw [h]
  rfl

end

/-- The keys of a piece of device memory. -/
def pieceKeys (p : Located × Nat) (key : Nat) : Prop := ∃ pa, p.1.loc = .dev pa ∧ pa ≤ key ∧ key < pa + p.2

/-- What is discarded becomes indeterminate, what was so stays so, and every other byte reads as before. -/
structure Discards (m m' : Mach) (core : Nat) (keys : Nat → Prop) : Prop where
  mem : OnlyMemory m m' core
  gone : ∀ key, keys key → ∃ seed, indetAt m'.indet key = some seed
  stays : ∀ key seed, indetAt m.indet key = some seed → ∃ seed', indetAt m'.indet key = some seed'
  byte : ∀ key, ¬ keys key → keyByte m' key = keyByte m key

theorem indetAt_cons (d : Indet) (ds : List Indet) (k : Nat) :
    indetAt (d :: ds) k = if d.lo ≤ k ∧ k < d.hi then some d.seed else indetAt ds k := by
  simp only [indetAt, Bool.and_eq_true, decide_eq_true_eq]

theorem keyByte_congr {m m' : Mach} {k : Nat} (hmem : memRead m'.mem k = memRead m.mem k)
    (hindet : indetAt m'.indet k = indetAt m.indet k) (hraces : racesAt m'.indet m'.cur k = racesAt m.indet m.cur k) :
    keyByte m' k = keyByte m k := by
  unfold keyByte
  simp only [hmem, hindet, hraces]

theorem discards_discardPiece (gid core : Nat) (m : Mach) (p : Located × Nat) :
    Discards m (discardPiece gid core m p) core (pieceKeys p) := by
  obtain ⟨l, n⟩ := p
  unfold discardPiece
  dsimp only
  split
  next pa hloc =>
    have hkeys : ∀ key, pieceKeys (l, n) key ↔ pa ≤ key ∧ key < pa + n := fun key => by
      unfold pieceKeys
      rw [hloc]
      exact ⟨fun ⟨_, heq, hin⟩ => by cases heq; exact hin, fun hin => ⟨pa, rfl, hin⟩⟩
    by_cases hn : n = 0
    · have hnone : ∀ key, ¬ pieceKeys (l, n) key := fun key hk => by have := (hkeys key).1 hk; omega
      have hsame : discardIndet m gid (.dev pa) n = m := if_pos hn
      rw [hsame]
      exact ⟨onlyMemory_setL1 .., fun key hk => absurd hk (hnone key), fun key seed h => ⟨seed, h⟩, fun _ _ => rfl⟩
    · have hdead : discardIndet m gid (.dev pa) n = { m with
          indet := { lo := pa, hi := pa + n, seed := m.free, by_ := some gid } :: m.indet, free := m.free + 1 } := if_neg hn
      rw [hdead]
      refine ⟨onlyMemory_trans ⟨rfl, fun _ _ => rfl, rfl⟩ (onlyMemory_setL1 ..), fun key hk => ⟨m.free, ?_⟩, fun key seed h => ?_,
        fun key hk => ?_⟩
      · exact (indetAt_cons ..).trans (if_pos ((hkeys key).1 hk))
      · by_cases hin : pa ≤ key ∧ key < pa + n
        · exact ⟨m.free, (indetAt_cons ..).trans (if_pos hin)⟩
        · exact ⟨seed, (indetAt_cons ..).trans ((if_neg hin).trans h)⟩
      · have hout : ¬ (pa ≤ key ∧ key < pa + n) := mt (hkeys key).2 hk
        exact keyByte_congr rfl ((indetAt_cons ..).trans (if_neg hout)) ((racesAt_cons ..).trans (if_neg hout))
  next hnear =>
    have hnone : ∀ key, ¬ pieceKeys (l, n) key := fun key ⟨pa, hloc, _⟩ => hnear pa hloc
    exact ⟨onlyMemory_refl .., fun key hk => absurd hk (hnone key), fun key seed h => ⟨seed, h⟩, fun _ _ => rfl⟩

theorem discards_foldl (gid core : Nat) : ∀ (ps : List (Located × Nat)) (m : Mach),
    Discards m (ps.foldl (discardPiece gid core) m) core fun key => ∃ p ∈ ps, pieceKeys p key
  | [], m => ⟨onlyMemory_refl .., fun key ⟨p, hp, _⟩ => (List.not_mem_nil hp).elim, fun key seed h => ⟨seed, h⟩,
      fun _ _ => rfl⟩
  | p :: r, m => by
    have h := discards_discardPiece gid core m p
    have hr := discards_foldl gid core r (discardPiece gid core m p)
    refine ⟨onlyMemory_trans h.mem hr.mem, fun key ⟨q, hq, hk⟩ => ?_, fun key seed hs => ?_, fun key hk => ?_⟩
    · rcases List.mem_cons.1 hq with rfl | hq
      · obtain ⟨seed, hseed⟩ := h.gone key hk
        exact hr.stays key seed hseed
      · exact hr.gone key ⟨q, hq, hk⟩
    · obtain ⟨seed', hseed⟩ := h.stays key seed hs
      exact hr.stays key seed' hseed
    · rw [List.foldl_cons, hr.byte key fun ⟨q, hq, hin⟩ => hk ⟨q, .tail p hq, hin⟩, h.byte key fun hin => hk ⟨p, .head r, hin⟩]

end

/-! PST (R184). -/

section
variable {m m1 m2 : Mach}

/-- Nothing but counts differs: at the root, in the contexts, the count units and the aggregators. -/
def OnlyCounts (m m' : Mach) : Prop := m' = { m with root := m'.root, ctxs := m'.ctxs, clusters := m'.clusters, dies := m'.dies }

theorem OnlyCounts.trans (h : OnlyCounts m m1) (h' : OnlyCounts m1 m2) : OnlyCounts m m2 := by
  unfold OnlyCounts at *
  rw [h', h]

theorem onlyCounts_applyRoot (m : Mach) (ds : List Count) : OnlyCounts m (applyRoot m ds) := by
  have hprogress : ∀ (l : List Count) (m : Mach), OnlyCounts m (l.foldl (fun m d => progress m d.ctx) m) := by
    intro l
    induction l with
    | nil => exact fun m => rfl
    | cons d l ih =>
      have hone (m : Mach) : OnlyCounts m (progress m d.ctx) := by
        unfold progress
        split <;> rfl
      exact fun m => (hone m).trans (ih _)
  exact OnlyCounts.trans (m1 := { m with root := applyDeltas m.root ds }) rfl (hprogress _ _)

theorem onlyCounts_takeHere (m : Mach) (g : Group) (node : Nat) (stamp : Dword) : OnlyCounts m (takeHere m g node stamp) := by
  unfold takeHere takeFrom flushUnit
  dsimp only
  split
  · rfl
  · split
    · rfl
    · refine OnlyCounts.trans ?_ (onlyCounts_applyRoot _ _)
      rfl

theorem OnlyCounts.sameBytes (h : OnlyCounts m m1) : SameBytes m m1 := by
  unfold OnlyCounts at h
  refine ⟨⟨by rw [h], by rw [h], by rw [h]⟩, fun k => ?_⟩
  rw [h]
  rfl

/-- Of what is posted nothing changes but the granules that are left. -/
def Pst.KeptAs (p p' : Pst) : Prop := p' = { p with left := p'.left } ∧ p'.left.Sublist p.left

theorem Pst.KeptAs.trans {p p1 p2 : Pst} (h : p.KeptAs p1) (h' : p1.KeptAs p2) : p.KeptAs p2 :=
  ⟨by rw [h'.1, h.1], h'.2.trans h.2⟩

/-- Every posted store below a number is kept. -/
structure PstsKept (m m' : Mach) (below : Nat) : Prop where
  kept : ∀ id p, id < below → aget m.psts id = some p → ∃ p', aget m'.psts id = some p' ∧ p.KeptAs p'

variable {below : Nat}

theorem PstsKept.of_psts_eq (h : m1.psts = m.psts) : PstsKept m m1 below :=
  ⟨fun _ p _ hp => ⟨p, by rw [h]; exact hp, rfl, List.Sublist.refl _⟩⟩

theorem PstsKept.trans (h : PstsKept m m1 below) (h' : PstsKept m1 m2 below) : PstsKept m m2 below := by
  refine ⟨fun id p hid hp => ?_⟩
  obtain ⟨p1, hp1, hk1⟩ := h.kept id p hid hp
  obtain ⟨p2, hp2, hk2⟩ := h'.kept id p1 hid hp1
  exact ⟨p2, hp2, hk1.trans hk2⟩

theorem PstsKept.foldl {β : Type} {f : Mach → β → Mach} (hf : ∀ m b, PstsKept m (f m b) below) (l : List β) (m : Mach) :
    PstsKept m (l.foldl f m) below := by
  induction l generalizing m with
  | nil => exact PstsKept.of_psts_eq rfl
  | cons b l ih => exact (hf m b).trans (ih _)

theorem psts_writeBytes (m : Mach) (port far : Nat) (bs : List Byte) : (writeBytes m (.ext port far) bs).psts = m.psts := by
  have hp := poked_writeBytes (m := m) (l := .ext port far) (bs := bs) fun i _ => bare_of_ne_spad fun a ha => by cases ha
  rw [hp.rest]

theorem psts_writes (port : Nat) (l : List (Nat × List Byte)) (m : Mach) :
    (l.foldl (fun m b => writeBytes m (.ext port b.1) b.2) m).psts = m.psts := by
  induction l generalizing m with
  | nil => rfl
  | cons b l ih => exact (ih _).trans (psts_writeBytes ..)

theorem pstsKept_landPst (m : Mach) (id port far n : Nat) : PstsKept m (landPst m id port far n) below := by
  unfold landPst
  split
  next p hp =>
    refine ⟨fun j q _ hq => ?_⟩
    have hcount : (if (p.meeting port far n).isEmpty then m else countFlits m p.ctx port 0 1).psts = m.psts := by split <;> rfl
    dsimp only
    rw [psts_writes, hcount]
    by_cases hj : j = id
    · subst hj
      cases hp.symm.trans hq
      exact ⟨_, aget_aput_self .., rfl, List.filter_sublist⟩
    · exact ⟨q, (aget_aput_ne _ _ _ _ hj).trans hq, rfl, List.Sublist.refl _⟩
  next => exact PstsKept.of_psts_eq rfl

theorem pstsKept_landPsts (m : Mach) (l : Loc) (n upTo : Nat) : PstsKept m (landPsts m l n upTo) below := by
  unfold landPsts
  split
  · exact PstsKept.foldl (fun m kp => pstsKept_landPst ..) _ m
  · exact PstsKept.of_psts_eq rfl

theorem pstsKept_sendGranule (id port : Nat) (m : Mach) (b : Nat × List Byte) : PstsKept m (sendGranule id port m b) below := by
  unfold sendGranule
  split
  · exact PstsKept.of_psts_eq rfl
  · exact (pstsKept_landPsts m (.ext port b.1) b.2.length id).trans (PstsKept.of_psts_eq rfl)

theorem onlyFar_sendGranule (id port : Nat) (m : Mach) (b : Nat × List Byte) : OnlyFar m (sendGranule id port m b) := by
  unfold sendGranule
  split
  · exact (OnlyFar.refl m).bump
  · exact (onlyFar_landPsts ..).bump

/-- What posting stores leaves of everything else: their list, the units' lists of their groups, and fabric memory differ alone. -/
structure OnlyPosts (m m' : Mach) : Prop where
  rest : m' = { m with mem := m'.mem, indet := m'.indet, touched := m'.touched, psts := m'.psts, ports := m'.ports,
                       dies := m'.dies, free := m'.free, nextId := m'.nextId, clusters := m'.clusters }
  deltas : ∀ c, (m'.cluster c).deltas = (m.cluster c).deltas
  byte : ∀ k, k < 2 ^ 60 → keyByte m' k = keyByte m k

theorem OnlyPosts.refl (m : Mach) : OnlyPosts m m := ⟨rfl, fun _ => rfl, fun _ _ => rfl⟩

theorem OnlyPosts.trans (h : OnlyPosts m m1) (h' : OnlyPosts m1 m2) : OnlyPosts m m2 :=
  ⟨by rw [h'.rest, h.rest], fun c => (h'.deltas c).trans (h.deltas c), fun k hk => (h'.byte k hk).trans (h.byte k hk)⟩

theorem OnlyFar.onlyPosts (h : OnlyFar m m1) : OnlyPosts m m1 :=
  ⟨by rw [h.rest], fun c => by rw [h.rest]; rfl, h.byte⟩

theorem OnlyPosts.sameOver (h : OnlyPosts m m1) : SameOver m m1 := by constructor <;> rw [h.rest]

/-- The posted store of a lane's access, none of it performed yet. -/
def pstOf (gid : Nat) (x : LaneIn) (size batch port far lane : Nat) : Pst :=
  { ctx := x.g.ctx, node := x.g.node, stamp := x.g.stamp, group := gid, kern := x.g.kern, unit := clusterOf x.g.core, batch := batch,
    port := port, far := far, size := size, left := pstGranules far size (x.dataOf size lane), lost := false,
    after := x.g.orderedAfter 3 }

theorem pstGranules_eq (far size v : Nat) : pstGranules far size v =
    if size = 16 then [(far, bytesOf 8 v), (far + 8, bytesOf 8 (v / 2 ^ 64))] else [(far, bytesOf size v)] := by
  unfold pstGranules
  rw [toBytes_eq_bytesOf, toBytes_eq_bytesOf, toBytes_eq_bytesOf, Nat.shiftRight_eq_div_pow]

theorem pstOf_left (gid : Nat) (x : LaneIn) (size batch port far lane : Nat) : (pstOf gid x size batch port far lane).left =
    let v := x.dataOf size lane
    if size = 16 then [(far, bytesOf 8 v), (far + 8, bytesOf 8 (v / 2 ^ 64))] else [(far, bytesOf size v)] := pstGranules_eq ..

/-- The module with a posted store listed. -/
def listPst (m : Mach) (p : Pst) : Mach :=
  let c := m.cluster p.unit
  { m.setCluster p.unit { c with psts := c.psts ++ [(p.ctx, p.node)] } with psts := aput m.psts m.nextId p, nextId := m.nextId + 1 }

theorem onlyPosts_listPst (m : Mach) (p : Pst) : OnlyPosts m (listPst m p) := by
  refine ⟨rfl, fun c => ?_, fun _ _ => rfl⟩
  by_cases hc : c = p.unit
  · subst hc
    exact congrArg (fun o => (o.getD Cluster.empty).deltas) (aget_aput_self ..)
  · exact congrArg (fun o => (o.getD Cluster.empty).deltas) (aget_aput_ne _ _ _ _ hc)

variable {gid size batch : Nat} {x : LaneIn}

theorem sendPst_eq {a : LaneAccess} {port far : Nat} (h : a.loc.loc = .ext port far) : sendPst gid x size batch m a =
    (pstGranules far size (x.dataOf size a.lane)).foldl (sendGranule m.nextId port) (listPst m (pstOf gid x size batch port far a.lane)) := by
  unfold sendPst
  rw [h]
  rfl

/-- A lane's store posted is outstanding under the next number, and what was outstanding stays so. -/
theorem sendPst_spec {a : LaneAccess} {port far : Nat} (h : a.loc.loc = .ext port far) :
    OnlyPosts m (sendPst gid x size batch m a) ∧ (sendPst gid x size batch m a).nextId = m.nextId + 1
      ∧ PstsKept m (sendPst gid x size batch m a) m.nextId
      ∧ ∃ p, aget (sendPst gid x size batch m a).psts m.nextId = some p ∧ (pstOf gid x size batch port far a.lane).KeptAs p := by
  rw [sendPst_eq h]
  have hkept {b : Nat} := PstsKept.foldl (below := b) (pstsKept_sendGranule m.nextId port)
    (pstGranules far size (x.dataOf size a.lane)) (listPst m (pstOf gid x size batch port far a.lane))
  have hfar := OnlyFar.foldl (pstGranules far size (x.dataOf size a.lane)) (fun m' b _ => onlyFar_sendGranule m.nextId port m' b)
    (listPst m (pstOf gid x size batch port far a.lane))
  refine ⟨(onlyPosts_listPst ..).trans hfar.onlyPosts, ?_, PstsKept.trans ⟨fun id p hid hp => ?_⟩ hkept, ?_⟩
  · rw [hfar.rest]
    rfl
  · exact ⟨p, (aget_aput_ne _ _ _ _ hid.ne).trans hp, rfl, List.Sublist.refl _⟩
  · exact hkept.kept m.nextId _ (Nat.lt_succ_self _) (aget_aput_self ..)

/-- The stores of several lanes posted are outstanding under the next numbers. -/
theorem sendPsts_spec : ∀ (ls : List LaneAccess) (m : Mach), (∀ a ∈ ls, ∃ port far, a.loc.loc = .ext port far) →
    OnlyPosts m (ls.foldl (sendPst gid x size batch) m) ∧ (ls.foldl (sendPst gid x size batch) m).nextId = m.nextId + ls.length
      ∧ PstsKept m (ls.foldl (sendPst gid x size batch) m) m.nextId
      ∧ ∀ k a, ls[k]? = some a → ∃ port far p, a.loc.loc = .ext port far
        ∧ aget (ls.foldl (sendPst gid x size batch) m).psts (m.nextId + k) = some p ∧ (pstOf gid x size batch port far a.lane).KeptAs p
  | [], m, _ => ⟨OnlyPosts.refl m, rfl, PstsKept.of_psts_eq rfl, fun k a hk => by simp at hk⟩
  | a :: r, m, h => by
    obtain ⟨⟨port, far, hloc⟩, hr⟩ := List.forall_mem_cons.1 h
    obtain ⟨hposts, hnext, hkept, p, hp, hpst⟩ := sendPst_spec (m := m) (gid := gid) (x := x) (size := size) (batch := batch) hloc
    obtain ⟨hposts2, hnext2, hkept2, hall⟩ := sendPsts_spec r (sendPst gid x size batch m a) hr
    rw [hnext] at hnext2 hkept2 hall
    refine ⟨hposts.trans hposts2, by rw [List.foldl_cons, hnext2, List.length_cons]; omega,
      hkept.trans ⟨fun id q hid hq => hkept2.kept id q (Nat.lt_succ_of_lt hid) hq⟩, fun k b hk => ?_⟩
    cases k with
    | zero =>
      obtain rfl : a = b := by simpa using hk
      obtain ⟨q, hq, hqs⟩ := hkept2.kept m.nextId p (Nat.lt_succ_self _) hp
      exact ⟨port, far, q, hloc, hq, hpst.trans hqs⟩
    | succ k =>
      have := hall k b (by simpa using hk)
      rwa [Nat.add_assoc, Nat.add_comm 1] at this

/-- The module that holds a count for the stores posted, if there are any. -/
def pstHeld (m : Mach) (g : Group) (as_ : List LaneAccess) : Mach := if as_ = [] then m else takeHere m g g.node g.stamp

theorem onlyCounts_pstHeld (m : Mach) (g : Group) (as_ : List LaneAccess) : OnlyCounts m (pstHeld m g as_) := by
  unfold pstHeld
  split
  · rfl
  · exact onlyCounts_takeHere ..

/-- What PST does. -/
def pstAll (m : Mach) (w : LaneWord) (gid : Nat) (x : LaneIn) : Mach :=
  let (m1, as_, fs) := checkLanes (checkPst x (sizeBytes w.size)) x.lanes m
  if !fs.isEmpty then laneFaults m1 gid x.g x.e fs
  else
    let m2 := if as_.isEmpty then m1 else takeHere m1 x.g x.g.node x.g.stamp
    let (m3, ordered) := laneOrder m2 (sizeBytes w.size) as_
    let m4 := ordered.foldl (sendPst gid x (sizeBytes w.size) m3.nextId) m3
    laneFinish m4 gid x.g x.e (.pst w) w (x.g.chain.getD Chain.empty)

theorem exec_pst (w : LaneWord) (s : State) : exec (.pst w) s = laneMemory s (.pst w) w true (pstAll s.m w) := rfl

section
variable {w : LaneWord} {as_ : List LaneAccess} {fs : List LaneFault}

theorem pstAll_faults (h : checkLanes (checkPst x (sizeBytes w.size)) x.lanes m = (m1, as_, fs)) (hne : fs ≠ []) :
    pstAll m w gid x = laneFaults m1 gid x.g x.e fs := by
  unfold pstAll
  rw [h]
  exact if_pos (by simpa using hne)

theorem pstAll_passes (h : checkLanes (checkPst x (sizeBytes w.size)) x.lanes m = (m1, as_, [])) :
    pstAll m w gid x = (let r := laneOrder (pstHeld m1 x.g as_) (sizeBytes w.size) as_
      laneFinish (r.2.foldl (sendPst gid x (sizeBytes w.size) r.1.nextId) r.1) gid x.g x.e (.pst w) w (x.g.chain.getD Chain.empty)) := by
  unfold pstAll pstHeld
  rw [h]
  cases as_ <;> rfl

end

/-- A lane's posted store passes its checks only where it goes to fabric memory. -/
theorem checkPst_ok {l : Nat} {a : LaneAccess} (h : checkPst x size m l = (m1, .ok a)) :
    a.lane = l ∧ LookedUp m m1 x.g.core x.g.ctx (translatedAt m x.g l (x.ea l)) ∧ ∃ port far, a.loc.loc = .ext port far := by
  unfold checkPst at h
  split at h
  · cases h
  next m2 b hcheck =>
    obtain ⟨hlane, hlook, -⟩ := checkLane_ok hcheck
    split at h
    next port far hloc =>
      cases h
      exact ⟨hlane, hlook, port, far, hloc⟩
    · cases h

/-- Where no lane fails, every access is to fabric memory, and the addresses of the lanes have been looked up in turn. -/
theorem pstLanes_checked {ls : List Nat} {as_ : List LaneAccess} (h : checkLanes (checkPst x size) ls m = (m1, as_, [])) :
    LookedUpAll x.g.core x.g.ctx (ls.map fun l => translatedAt m x.g l (x.ea l)) m m1
      ∧ ∀ a ∈ as_, ∃ port far, a.loc.loc = .ext port far := by
  refine (checkLanes_ok (m0 := m) (fun m' l m2 a hk ht hl => ?_) ls rfl rfl h).2
  rw [← translatedAt_congr (g := x.g) hk ht]
  exact checkPst_ok hl

/-- Where no lane fails, the stores of the lanes are posted in some order, under the numbers that follow. -/
theorem pstAll_spec {w : LaneWord} {as_ : List LaneAccess}
    (h : checkLanes (checkPst x (sizeBytes w.size)) x.lanes m = (m1, as_, [])) : ∃ (m2 : Mach) (order : List LaneAccess),
      pstAll m w gid x = laneFinish m2 gid x.g x.e (.pst w) w (x.g.chain.getD Chain.empty) ∧ order.Perm as_
      ∧ m2.nextId = m1.nextId + as_.length ∧ OnlyPosts (pstHeld m1 x.g as_) m2
      ∧ ∀ k a, order[k]? = some a → ∃ port far p, a.loc.loc = .ext port far ∧ aget m2.psts (m1.nextId + k) = some p
        ∧ (pstOf gid x (sizeBytes w.size) m1.nextId port far a.lane).KeptAs p := by
  obtain ⟨-, hext⟩ := pstLanes_checked h
  have hheld : (pstHeld m1 x.g as_).nextId = m1.nextId := by rw [onlyCounts_pstHeld m1 x.g as_]
  obtain ⟨⟨fr, hfr⟩, hperm, -⟩ := laneOrder_spec (pstHeld m1 x.g as_) (sizeBytes w.size) as_
  have hfree : OnlyPosts (pstHeld m1 x.g as_) (laneOrder (pstHeld m1 x.g as_) (sizeBytes w.size) as_).1 := by
    rw [hfr]
    exact ⟨rfl, fun _ => rfl, fun _ _ => rfl⟩
  have hm3 : (laneOrder (pstHeld m1 x.g as_) (sizeBytes w.size) as_).1.nextId = m1.nextId := by rw [hfr, ← hheld]
  rw [pstAll_passes h]
  generalize laneOrder (pstHeld m1 x.g as_) (sizeBytes w.size) as_ = r at *
  obtain ⟨m3, order⟩ := r
  obtain ⟨hposts, hnext, -, hall⟩ := sendPsts_spec (gid := gid) (x := x) (size := sizeBytes w.size) (batch := m3.nextId) order m3
    fun a ha => hext a (hperm.mem_iff.1 ha)
  dsimp only at hm3 hfree hperm
  rw [hm3] at hposts hnext hall
  exact ⟨_, order, by rw [← hm3], hperm, by rw [hnext, hperm.length_eq], hfree.trans hposts, hall⟩

end

end Sys2Proof.Machine

namespace Sys2Proof
open Machine

/-- Settles O32: prefetches and discards are their lanes' in turn, and the stores of PST are listed under the numbers that follow. -/
theorem prefetchDiscardPost : Obligations.PrefetchDiscardPost := by
  intro s gid g e w ready
  refine ⟨fun ⟨_, hiss, hread⟩ => ?pref, fun ⟨_, hiss, hread⟩ => ?discard, fun ⟨_, hiss, hread⟩ => ?pst⟩
  case pref =>
    exact ⟨_, OnlyL1.foldl (onlyL1_prefetchLane (laneIn s.m g e (.pref w) w)) _ s.m,
      laneLeavesIn_of_same ((exec_pref w s).trans (laneMemory_next hiss hread (.inr rfl)))⟩
  case discard =>
    intro x m1 ps fs hlanes
    have hexec := (exec_discard w s).trans (laneMemory_next hiss hread (.inr rfl))
    refine ⟨fun hne => hexec.trans ?_, ?_⟩
    · rw [discardAll_faults hlanes hne]
      rfl
    · rintro rfl
      rw [discardAll_passes hlanes] at hexec
      have h := discards_foldl gid g.core ps m1
      refine ⟨discardLanes_ok rfl rfl hlanes, _, h.mem, laneLeavesIn_of_same hexec, fun p hp pa k hloc hk => ?_, fun l hl hlog => ?_⟩
      · exact h.gone _ ⟨p, hp, pa, hloc, Nat.le_add_right .., Nat.add_lt_add_left hk _⟩
      · exact (over_of_onlyMemory h.mem).readByte_eq hlog (h.byte _ hl)
  case pst =>
    intro i x size
    obtain ⟨hhere, -⟩ := id hiss
    refine ⟨fun hr => (exec_pst w s).trans (laneMemory_publishes hiss hread hr rfl), fun hr m1 as_ fs hlanes => ?_⟩
    have hexec := (exec_pst w s).trans (laneMemory_next hiss hread (.inl hr))
    refine ⟨fun hne => hexec.trans ?_, ?_⟩
    · rw [pstAll_faults hlanes hne]
      rfl
    · rintro rfl
      obtain ⟨hlook, -⟩ := pstLanes_checked hlanes
      obtain ⟨m2, order, hall, hperm, hnext, hposts, hpsts⟩ := pstAll_spec (gid := gid) hlanes
      have hbytes := (onlyCounts_pstHeld m1 g as_).sameBytes
      rw [hall] at hexec
      refine ⟨hlook, m2, order, laneLeavesIn_of_same hexec, hperm, hnext, fun k a hk => ?_, ?_, fun l hl hlog => ?_⟩
      · obtain ⟨port, far, p, hloc, hp, hrest, hleft⟩ := hpsts k a hk
        rw [pstOf_left] at hleft
        exact ⟨port, far, p, hloc, hp, by rw [hrest]; exact ⟨rfl, rfl, rfl, rfl, rfl, rfl, rfl, rfl, rfl, hleft⟩⟩
      · exact ⟨by rw [hposts.rest]; rfl, by rw [hposts.rest]; rfl, hposts.deltas⟩
      · exact (hbytes.sameOver.trans hposts.sameOver).readByte_eq hlog ((hposts.byte _ hl).trans (hbytes.byte _))

end Sys2Proof
end

section
/-! PROOF. Lane loads (R176): O29 fails, for groups on cores that no ZX9 has. The places of the armature memory of clusters below 2^40 - 2^34
have keys below those of fabric memory, but the state bounds no core number, and from that cluster on the two meet. A load of one lane
from fabric memory first performs what a posted peer store holds there (R200); where the bytes of another lane's armature address
stand at those keys, that lane finds them changed, and the statement gives it the bytes as they stood before the load. With at
most 1024 cores the places are apart, and no lane's access changes what another's finds.
-/

namespace Sys2Proof.Machine

/-- The cluster whose armature memory begins where fabric memory does. -/
def highCluster : Nat := 2 ^ 40 - 2 ^ 34

/-- LD of a byte, zero-extended, at .grp to v8: the address is in v0 and v1. -/
def byteWord : LaneWord :=
  { ty := 0x0C, dst := 8, cap := 0, nw := 0, a := 0, b := 0x1A0, c := 0, d := 0, g1 := 7, g2 := 7, slot := 0, hint := 0, sched := 0,
    modB := 0 }

/-- The lanes 0 and 1 load. -/
def byteEntry : LiqEntry := { fetchEntry 0 with ins := some (.ld byteWord), bad := none, m0 := 3 }

/-- A handler that fills an armature slot, whose accesses over the fabric are done: lane 0 has the address 0, and lane 1 that of byte
1 of the armature window (R161). -/
def byteGroup : Group :=
  { fetchGroup 0 1 with core := 8 * highCluster, serving := some 5, fabric := .done [], v := [(1, 1), (129, 0x00FF0003)],
                        qs := { Queues.empty with liq := [byteEntry] } }

/-- A walk on the engine of that cluster, of one A slot of a page (R263). -/
def byteWalk : Walk :=
  { newWalk 0 0 none 0 (WalkRec.ofBytes []) highCluster 0 [] with
    wrec := { WalkRec.ofBytes [] with tk := 1, tm := 1 }, parts := [{ Part.empty with aslots := [{ off := 0, pair := none, filled := false }] }] }

def byteSummons : Summons :=
  { walk := 8, part := 0, kind := .a, tile := 0, kstep := 0, slot := 0, group := some 2, cancelled := false }

/-- A posted peer store of another group to the first 8 bytes behind port 0, not performed yet. -/
def bytePst : Pst :=
  { ctx := 0, node := 0, stamp := 0, group := 3, kern := 0, unit := 0, batch := 0, port := 0, far := 0, size := 8,
    left := [(0, List.replicate 8 0xFF)], lost := false, after := [] }

/-- Three page tables that map the first GiB to fabric memory, whose first addresses lie behind port 0. -/
def byteModule : Mach :=
  { State.reset.m with
    mem := (writeNat (writeNat (writeNat State.reset.m (.dev 0x1000) 8 0x2001) (.dev 0x2000) 8 0x3001) (.dev 0x3000) 8 (2 ^ 51 + 0x7F)).mem,
    cur := 2, groups := [(2, byteGroup)], kerns := [(0, fetchKernel)], ctxs := [(0, fetchContext)], walks := [(8, byteWalk)],
    summons := [(5, byteSummons)], psts := [(0, bytePst)], ports := Vector.replicate 18 { Port.reset with st := .up },
    routes := Vector.replicate 64 (BitVec.ofNat 64 (2 ^ 63)) }

def byteState : State := { State.reset with m := byteModule }

def byteIn : LaneIn := laneIn byteModule byteGroup byteEntry (.ld byteWord) byteWord

/-- The checks of both lanes. -/
def byteChecks : Mach × List LaneAccess × List LaneFault :=
  checkLanes (fun m l => checkLane m byteGroup l (byteIn.ea l) (sizeBytes byteWord.size) .read true) byteIn.lanes byteModule

theorem wf_byte : (Instr.ld byteWord).wf = true := by decide +kernel

theorem issues_byte : Issues byteState 2 byteGroup byteEntry (.ld byteWord) := ⟨⟨rfl, rfl⟩, rfl, rfl, by decide +kernel, by decide⟩

theorem readsPass_byte : ReadsPass (.ld byteWord) byteGroup byteIn.lanes := by
  unfold ReadsPass
  decide +kernel

theorem effective_byte : effective byteGroup byteEntry byteWord 1 := ⟨by decide, by decide, by decide +kernel, by decide +kernel⟩

/-- Where lane l's access goes, of those that passed their checks. -/
def placeOf (as_ : List LaneAccess) (l : Nat) : Option Loc := (as_.find? fun a => a.lane = l).map fun a => a.loc.loc

theorem exists_of_placeOf {as_ : List LaneAccess} {l : Nat} {loc : Loc} (h : placeOf as_ l = some loc) :
    ∃ a ∈ as_, a.lane = l ∧ a.loc.loc = loc := by
  obtain ⟨a, ha, hloc⟩ := Option.map_eq_some_iff.1 h
  exact ⟨a, List.mem_of_find?_eq_some ha, by simpa using List.find?_some ha, hloc⟩

theorem faults_byte : byteChecks.2.2 = [] := by decide +kernel

theorem placeOf_byte : placeOf byteChecks.2.1 1 = some (.arm (highCluster * 2 ^ 20 + 1)) := by decide +kernel

/-- The byte of lane 1 is zero before the load. -/
theorem readByte_byte : readByte byteChecks.1 (.arm (highCluster * 2 ^ 20 + 1)) = 0 := by decide +kernel

/-- What the second lane holds in v8 after an outcome. -/
def secondLane (o : Host.Outcome State Fault Refusal) : Option Nat :=
  ((after? o).bind fun t => t.m.grp? 2).map fun g => (g.vreg 8 1).toNat

/-- The model: lane 1 loads a byte of the posted store, which the load of lane 0 performs. -/
theorem secondLane_exec_byte : secondLane (exec (.ld byteWord) byteState) = some 0xFF := by decide +kernel

theorem secondLane_of_leavesIn {m : Mach} {g g1 : Group} {e : LiqEntry} {i : Instr} {w : LaneWord} {more : Group → Prop} {s : State}
    (h : LaneLeavesIn i w s 2 m g e g1 more) : secondLane (exec i s) = some (g1.vreg 8 1).toNat := by
  obtain ⟨g', fr, hex, ⟨hg', -⟩, -⟩ := h
  have hread : secondLane (exec i s) = some (g'.vreg 8 1).toNat := by
    rw [hex]
    exact congrArg (Option.map fun g => (g.vreg 8 1).toNat) (setGrp_grp? m 2 g')
  rw [hread, hg']
  rfl

/-- A byte loaded from the place of lane 1, as it stood before the load, is zero. -/
theorem zero_of_mayLoad {bs : List Byte} {scope : Scope} (hlen : bs.length = 1)
    (h : MayLoad byteChecks.1 byteGroup (.arm (highCluster * 2 ^ 20 + 1)) scope bs) : numberOf bs = 0 := by
  obtain ⟨b, rfl⟩ := List.length_eq_one_iff.1 hlen
  have hb : b = 0 := by
    rcases h 0 b rfl with hread | ⟨pa, hloc, -⟩ | hlog
    · exact hread.trans readByte_byte
    · cases hloc
    · exact absurd (fun a ha => by cases ha) hlog
  rw [hb]
  rfl

end Sys2Proof.Machine

namespace Sys2Proof
open Machine

/-- Refutes O29: on a core numbered past the module's, a lane's load from armature memory finds what the fabric load of the lane before
it performed, where the statement claims the byte as it stood before the instruction. -/
theorem not_laneLoads : ¬ Obligations.LaneLoads := by
  intro claim
  obtain ⟨-, hpass⟩ := claim byteState 2 byteGroup byteEntry byteWord wf_byte issues_byte readsPass_byte byteChecks.1 byteChecks.2.1
    byteChecks.2.2 rfl
  obtain ⟨-, -, -, hperform⟩ := hpass faults_byte
  obtain ⟨m2, f, g1, -, -, -, hvalues, ⟨-, hwritten, -⟩, hleaves⟩ := hperform (.inr ⟨[], rfl⟩)
  obtain ⟨a, ha, hlane, hloc⟩ := exists_of_placeOf placeOf_byte
  obtain ⟨-, v, hv, -, hload⟩ := hvalues a ha
  rw [hlane] at hv
  rw [hloc] at hload
  obtain ⟨bs, hlen, hbs, hmay⟩ := hload (fun port far h => by cases h) rfl
  have hzero : (f 1).1 = 0 := hv.trans (hbs.trans (zero_of_mayLoad hlen hmay))
  obtain ⟨hreg, -⟩ := hwritten 8 1 (by decide) (by decide) effective_byte (by decide) (by decide)
  have hclaimed : (g1.vreg 8 1).toNat = 0 := by
    rw [hreg, hzero]
    rfl
  have hmodel := (secondLane_of_leavesIn hleaves).symm.trans secondLane_exec_byte
  rw [hclaimed] at hmodel
  exact absurd hmodel (by decide)

end Sys2Proof
end
